-- ==== Sys2Proof/Word.lean ====
section
/-!
DEFINITION. The word types of the machine (R7 of spec/00_scope.md).
-/

namespace Sys2Proof

/-- A 64-bit value: a general register, a control register, an address, an instruction word. -/
abbrev Word := BitVec 64
abbrev Byte := BitVec 8
/-- A vector register, 512 bits (R180). -/
abbrev Vec := BitVec 512
/-- One 128-byte line (R47, R96), byte 0 in the lowest bits. -/
abbrev LineData := BitVec 1024
/-- One bit per byte of a line (R109). -/
abbrev LineMask := BitVec 128

abbrev GReg := BitVec 6
abbrev VReg := BitVec 5
abbrev PReg := BitVec 4
abbrev QReg := BitVec 3
/-- A tile handle code of R218: 0-15 name t0-t15, 16-23 name s0-s7. -/
abbrev THandle := BitVec 5

end Sys2Proof
end

