-- ==== Sys2Proof/Machine/Crypto.lean ====
section
/-!
DEFINITION. The standard functions that the manual names: AES-256 in XTS mode on a line (FIPS 197, IEEE 1619), and SHAKE256
with KMAC256 on byte strings (FIPS 202, SP 800-185) (R163, R414, R417). Byte 0 of a number is its lowest byte (R7; assumption
log, entry 13).
-/

namespace Sys2Proof.Machine

/-- The n bytes of a number, lowest first. -/
def bytesOf (x : Nat) : Nat → List Byte
  | 0 => []
  | n + 1 => BitVec.ofNat 8 x :: bytesOf (x / 256) n

/-- The number that a byte string spells, lowest byte first. -/
def ofBytes : List Byte → Nat
  | [] => 0
  | b :: r => b.toNat + 256 * ofBytes r

/-- Two byte strings added bit by bit. -/
def xorBytes (a b : List Byte) : List Byte := (List.zip a b).map fun p => p.1 ^^^ p.2

/-! ## AES-256 (FIPS 197) -/

/-- A byte times x in the field of AES. -/
def gfTwice (a : Byte) : Byte := if a.getLsbD 7 then (a <<< 1) ^^^ 0x1B else a <<< 1

/-- The product of two bytes in the field of AES. -/
def gfMul (a b : Byte) : Byte :=
  ((List.range 8).foldl (fun (p : Byte × Byte) i => (if b.getLsbD i then p.1 ^^^ p.2 else p.1, gfTwice p.2)) (0, a)).1

/-- The inverse of a byte, and 0 for 0: its 254th power. -/
def gfInv (a : Byte) : Byte :=
  (List.range 7).foldl (fun (p : Byte × Byte) _ => let q := gfMul p.2 p.2; (gfMul p.1 q, q)) ((1 : Byte), a) |>.1

/-- A byte turned left. -/
def turnLeft (a : Byte) (n : Nat) : Byte := (a <<< n) ||| (a >>> (8 - n))

/-- The substitution of a byte, and its inverse. -/
def subByte (a : Byte) : Byte :=
  let b := gfInv a
  b ^^^ turnLeft b 1 ^^^ turnLeft b 2 ^^^ turnLeft b 3 ^^^ turnLeft b 4 ^^^ 0x63
def subBack (a : Byte) : Byte := gfInv (turnLeft a 1 ^^^ turnLeft a 3 ^^^ turnLeft a 6 ^^^ 0x05)

/-- Byte r + 4 c of a block stands in row r and column c; row r moves by r columns. -/
def shiftRows (b : List Byte) : List Byte := (List.range 16).map fun i => b.getD ((i + 4 * (i % 4)) % 16) 0
def shiftBack (b : List Byte) : List Byte := (List.range 16).map fun i => b.getD ((i + 12 * (i % 4)) % 16) 0

/-- Each column is multiplied by the polynomial with these coefficients. -/
def mixWith (k : List Byte) (b : List Byte) : List Byte :=
  (List.range 16).map fun i =>
    (List.range 4).foldl (fun x j => x ^^^ gfMul (k.getD ((j + 4 - i % 4) % 4) 0) (b.getD (4 * (i / 4) + j) 0)) 0

/-- The words of the key schedule, latest first; the argument is how many are still to come. -/
def moreKey : Nat → List (List Byte) → List (List Byte)
  | 0, w => w
  | n + 1, w =>
    let i := w.length
    let t := w.headD []
    let t :=
      if i % 8 = 0 then
        let r := ((t.drop 1) ++ t.take 1).map subByte
        xorBytes r [(List.range (i / 8 - 1)).foldl (fun x _ => gfTwice x) 1, 0, 0, 0]
      else if i % 8 = 4 then t.map subByte else t
    moreKey n (xorBytes (w.getD 7 []) t :: w)

/-- The 15 round keys of a 256-bit key. -/
def roundKeys (key : Nat) : List (List Byte) :=
  let k := bytesOf key 32
  let w := (moreKey 52 ((List.range 8).map fun i => (k.drop (4 * i)).take 4).reverse).reverse
  (List.range 15).map fun r => ((w.drop (4 * r)).take 4).flatten

def aesEncrypt (key : Nat) (block : List Byte) : List Byte :=
  let ks := roundKeys key
  let round (x : List Byte) (r : Nat) : List Byte :=
    xorBytes (mixWith [2, 3, 1, 1] (shiftRows (x.map subByte))) (ks.getD (r + 1) [])
  let x := (List.range 13).foldl round (xorBytes block (ks.getD 0 []))
  xorBytes (shiftRows (x.map subByte)) (ks.getD 14 [])

def aesDecrypt (key : Nat) (block : List Byte) : List Byte :=
  let ks := roundKeys key
  let round (x : List Byte) (r : Nat) : List Byte :=
    mixWith [14, 11, 13, 9] (xorBytes ((shiftBack x).map subBack) (ks.getD (13 - r) []))
  let x := (List.range 13).foldl round (xorBytes block (ks.getD 14 []))
  xorBytes ((shiftBack x).map subBack) (ks.getD 0 [])

/-! ## XTS on a line (IEEE 1619, R163) -/

/-- A tweak times x, as a 128-bit little-endian number. -/
def tweakTwice (t : Nat) : Nat := if t.testBit 127 then (2 * t % 2 ^ 128) ^^^ 0x87 else 2 * t

/-- The eight blocks of a line, each under the tweak of its place. -/
def xtsBlocks (f : List Byte → List Byte) : Nat → Nat → List Byte → List Byte
  | 0, _, _ => []
  | n + 1, t, x =>
    let k := bytesOf t 16
    xorBytes (f (xorBytes (x.take 16) k)) k ++ xtsBlocks f n (tweakTwice t) (x.drop 16)

/-- XTS-AES-256 of a line under two keys and a tweak. -/
def xtsLine (f : Nat → List Byte → List Byte) (key1 key2 tweak : Nat) (x : LineData) : LineData :=
  let t := ofBytes (aesEncrypt key2 (bytesOf tweak 16))
  BitVec.ofNat 1024 (ofBytes (xtsBlocks (f key1) 8 t (bytesOf x.toNat 128)))

def xtsEncrypt (key1 key2 tweak : Nat) (x : LineData) : LineData := xtsLine aesEncrypt key1 key2 tweak x
def xtsDecrypt (key1 key2 tweak : Nat) (x : LineData) : LineData := xtsLine aesDecrypt key1 key2 tweak x

/-! ## SHAKE256 and KMAC256 (FIPS 202, SP 800-185) -/

/-- The offsets of the rotations of lane x + 5 y. -/
def keccakTurns : List Nat := [0, 1, 62, 28, 27, 36, 44, 6, 55, 20, 3, 10, 43, 25, 39, 41, 45, 15, 21, 8, 18, 2, 61, 56, 14]

/-- The round constants, as the shift register of FIPS 202 gives them: bit 2^j - 1 of round i is its output 7 i + j. -/
def keccakBit : Nat → Nat → Nat
  | 0, r => r
  | n + 1, r => keccakBit n (if r.testBit 7 then (2 * r ^^^ 0x171) else 2 * r)
def keccakConst (i : Nat) : Word :=
  (List.range 7).foldl (fun w j => if (keccakBit (7 * i + j) 1).testBit 0 then w ||| (1 <<< (2 ^ j - 1)) else w) 0

/-- One round on 25 lanes. -/
def keccakRound (a : List Word) (i : Nat) : List Word :=
  let at_ (l : List Word) (x y : Nat) : Word := l.getD (x % 5 + 5 * (y % 5)) 0
  let c := (List.range 5).map fun x => (List.range 5).foldl (fun w y => w ^^^ at_ a x y) 0
  let d := (List.range 5).map fun x => c.getD ((x + 4) % 5) 0 ^^^ (c.getD ((x + 1) % 5) 0).rotateLeft 1
  let a := (List.range 25).map fun k => a.getD k 0 ^^^ d.getD (k % 5) 0
  -- lane (x, y) goes to (y, 2 x + 3 y), that is, lane (x, y) comes from (x + 3 y, x)
  let b := (List.range 25).map fun k =>
    let from_ := (k % 5 + 3 * (k / 5)) % 5 + 5 * (k % 5)
    (a.getD from_ 0).rotateLeft (keccakTurns.getD from_ 0)
  (List.range 25).map fun k =>
    let x := k % 5
    let y := k / 5
    at_ b x y ^^^ (~~~(at_ b (x + 1) y) &&& at_ b (x + 2) y) ^^^ (if k = 0 then keccakConst i else 0)

def keccakF (a : List Word) : List Word := (List.range 24).foldl keccakRound a

/-- A block absorbed, of as many bytes as the rate says. -/
def absorb (rate : Nat) (a : List Word) (block : List Byte) : List Word :=
  keccakF ((List.range 25).map fun k =>
    a.getD k 0 ^^^ (if 8 * k < rate then BitVec.ofNat 64 (ofBytes ((block.drop (8 * k)).take 8)) else 0))

/-- Blocks absorbed in order. -/
def absorbAll (rate : Nat) : Nat → List Word → List Byte → List Word
  | 0, a, _ => a
  | n + 1, a, x => absorbAll rate n (absorb rate a (x.take rate)) (x.drop rate)

/-- The first bytes, at most one block, of the sponge of a padded message with a rate and a domain suffix. -/
def spongeAt (rate : Nat) (suffix : Byte) (x : List Byte) (out : Nat) : List Byte :=
  let n := x.length / rate + 1
  let pad := rate * n - x.length
  let tail : List Byte := if pad = 1 then [suffix ||| 0x80] else suffix :: (List.replicate (pad - 2) 0 ++ [0x80])
  let a := absorbAll rate n (List.replicate 25 0) (x ++ tail)
  (a.flatMap fun w => bytesOf w.toNat 8).take out

/-- The sponge of SHAKE256 and KMAC256, with blocks of 136 bytes. -/
def sponge (suffix : Byte) (x : List Byte) (out : Nat) : List Byte := spongeAt 136 suffix x out

/-- SHA3-512 of a byte string (R417). -/
def sha3 (x : List Byte) : List Byte := spongeAt 72 0x06 x 64

/-- SHAKE256 of a byte string, 64 bytes (R414, R417). -/
def shake256 (x : List Byte) : BitVec 512 := BitVec.ofNat 512 (ofBytes (sponge 0x1F x 64))

/-- A byte string filled with zeros to a multiple of 136 bytes after the encoded width. -/
def bytePad (x : List Byte) : List Byte :=
  let y : List Byte := [1, 136] ++ x
  y ++ List.replicate ((136 - y.length % 136) % 136) 0

/-- KMAC256 of a byte string under a 256-bit key, 64 bits, without customisation. -/
def kmac256 (key : Nat) (x : List Byte) : Word :=
  let name : List Byte := [1, 32, 0x4B, 0x4D, 0x41, 0x43, 1, 0]
  let k : List Byte := [2, 1, 0] ++ bytesOf key 32
  BitVec.ofNat 64 (ofBytes (sponge 0x04 (bytePad name ++ bytePad k ++ x ++ [64, 1]) 8))

/-! ## AES-256-GCM (SP 800-38D, R417) -/

/-- The number that a byte string spells, highest byte first, and back. -/
def ofBig (x : List Byte) : Nat := ofBytes x.reverse
def bigBytes (x n : Nat) : List Byte := (bytesOf x n).reverse

/-- The product of two blocks: the first bit of a block is its highest one. -/
def ghashMul (x y : Nat) : Nat :=
  ((List.range 128).foldl (fun (p : Nat × Nat) i =>
    (if x.testBit (127 - i) then p.1 ^^^ p.2 else p.1, if p.2.testBit 0 then p.2 / 2 ^^^ 0xE1 * 2 ^ 120 else p.2 / 2)) (0, y)).1

/-- The hash of blocks of 16 bytes; the first argument bounds how many. -/
def ghash (h : Nat) : Nat → Nat → List Byte → Nat
  | 0, y, _ => y
  | _, y, [] => y
  | n + 1, y, x => ghash h n (ghashMul (y ^^^ ofBig ((x.take 16) ++ List.replicate (16 - x.length) 0)) h) (x.drop 16)

/-- The stream that hides a message, from a counter on. -/
def gcmStream (key : Nat) (iv : List Byte) : Nat → Nat → List Byte
  | 0, _ => []
  | n + 1, i => aesEncrypt key (iv ++ bigBytes i 4) ++ gcmStream key iv n (i + 1)

/-- The tag of a ciphertext with bytes that only the tag covers. -/
def gcmTag (key : Nat) (iv aad c : List Byte) : List Byte :=
  let h := ofBig (aesEncrypt key (List.replicate 16 0))
  let fill (x : List Byte) : List Byte := x ++ List.replicate ((16 - x.length % 16) % 16) 0
  let x := fill aad ++ fill c ++ bigBytes (8 * aad.length) 8 ++ bigBytes (8 * c.length) 8
  xorBytes (bigBytes (ghash h (x.length / 16) 0 x) 16) (aesEncrypt key (iv ++ bigBytes 1 4))

/-- A message, under a 12-byte initial value. -/
def gcmText (key : Nat) (iv c : List Byte) : List Byte := xorBytes c (gcmStream key iv (c.length / 16 + 1) 2)

/-- A message that carries its tag in its last 16 bytes: its text, if the tag is right. -/
def gcmOpen (key : Nat) (iv aad x : List Byte) : Option (List Byte) :=
  let c := x.take (x.length - 16)
  if 16 ≤ x.length ∧ gcmTag key iv aad c = x.drop (x.length - 16) then some (gcmText key iv c) else none

/-- The integrity tag of a ciphertext line (R163). -/
def lineTag (tagKey : Nat) (c : LineData) (l td : Nat) : Word :=
  kmac256 tagKey (bytesOf c.toNat 128 ++ bytesOf l 8 ++ [BitVec.ofNat 8 td])

end Sys2Proof.Machine
end

