-- ==== Sys2Proof/Machine/Ed448.lean ====
section
/-!
DEFINITION. Ed448 signatures (RFC 8032, section 5.2) of byte strings, with the empty context: the boot ROM verifies manifests
with them, and the security processor signs measurements (R414, R417; assumption log, entry 13).
-/

namespace Sys2Proof.Machine

/-- The prime of the field, the order of the base point, and the constant of the curve x² + y² = 1 + d x² y². -/
def edP : Nat := 2 ^ 448 - 2 ^ 224 - 1
def edL : Nat := 2 ^ 446 - 13818066809895115352007386748515426880336692474882178609894547503885
def edD : Nat := edP - 39081

/-- The power of a number modulo m; the first argument is how many bits the exponent has. -/
def powMod (m x : Nat) : Nat → Nat → Nat
  | 0, _ => 1
  | n + 1, e =>
    let q := powMod m x n (e / 2)
    if e % 2 = 1 then q * q % m * x % m else q * q % m

/-- A difference in the field. -/
def edSub (a b : Nat) : Nat := (a + (edP - b % edP)) % edP

/-- A point of the curve in projective coordinates. -/
structure EdPoint where
  x : Nat
  y : Nat
  z : Nat
  deriving DecidableEq, Repr

def EdPoint.zero : EdPoint := ⟨0, 1, 1⟩
def edBase : EdPoint where
  x := 224580040295924300187604334099896036246789641632564134246125461686950415467406032909029192869357953282578032075146446173674602635247710
  y := 298819210078481492676017930443930673437544040154080242095928241372331506189835876003536878655418784733982303233503462500531545062832660
  z := 1

def EdPoint.add (p q : EdPoint) : EdPoint :=
  let a := p.z * q.z % edP
  let b := a * a % edP
  let c := p.x * q.x % edP
  let d := p.y * q.y % edP
  let e := edD * (c * d % edP) % edP
  let f := edSub b e
  let g := (b + e) % edP
  let h := (p.x + p.y) * (q.x + q.y) % edP
  ⟨a * f % edP * edSub h (c + d) % edP, a * g % edP * edSub d c % edP, f * g % edP⟩

/-- A multiple of a point; the first argument is how many bits the factor has. -/
def EdPoint.mul (p : EdPoint) : Nat → Nat → EdPoint
  | 0, _ => .zero
  | n + 1, k =>
    let q := EdPoint.mul p n (k / 2)
    if k % 2 = 1 then (q.add q).add p else q.add q

/-- Two points are one. -/
def EdPoint.same (p q : EdPoint) : Bool := p.x * q.z % edP == q.x * p.z % edP && p.y * q.z % edP == q.y * p.z % edP

/-- A point as 57 bytes: y, and the parity of x in the last bit. -/
def EdPoint.encode (p : EdPoint) : List Byte :=
  let i := powMod edP p.z 448 (edP - 2)
  bytesOf (p.y * i % edP + p.x * i % edP % 2 * 2 ^ 455) 57

/-- The point that 57 bytes name. -/
def edDecode (b : List Byte) : Option EdPoint :=
  let n := ofBytes b
  let y := n % 2 ^ 455
  let odd := n / 2 ^ 455 % 2
  let u := edSub (y * y) 1
  let v := edSub (edD * (y * y % edP)) 1
  let u3v := powMod edP u 2 3 * v % edP
  let x := u3v * powMod edP (u3v * (u * u % edP) % edP * (v * v % edP) % edP) 448 ((edP - 3) / 4) % edP
  if b.length ≠ 57 ∨ edP ≤ y ∨ v * (x * x % edP) % edP ≠ u ∨ (x = 0 ∧ odd = 1) then none
  else some ⟨if x % 2 = odd then x else edP - x, y, 1⟩

/-- The 114-byte digest of Ed448, as a number. -/
def edHash (x : List Byte) : Nat :=
  ofBytes (sponge 0x1F (([0x53, 0x69, 0x67, 0x45, 0x64, 0x34, 0x34, 0x38, 0, 0] : List Byte) ++ x) 114)

/-- A signature of a message is the one of a key's owner (R414). -/
def ed448Verify (key msg sig : List Byte) : Bool :=
  let s := ofBytes (sig.drop 57)
  match edDecode key, edDecode (sig.take 57) with
  | some a, some r =>
    let h := edHash (sig.take 57 ++ key ++ msg) % edL
    decide (sig.length = 114) && decide (s < edL) &&
      ((edBase.mul 446 s).mul 3 4).same ((r.add (a.mul 446 h)).mul 3 4)
  | _, _ => false

/-- The secret number and the prefix of a 57-byte secret key. -/
def edSecret (secret : List Byte) : Nat × List Byte :=
  let h := sponge 0x1F secret 114
  ((ofBytes (h.take 57) % 2 ^ 447 / 4 * 4) ||| 2 ^ 447, h.drop 57)

/-- The public key of a secret one. -/
def ed448Public (secret : List Byte) : List Byte := (edBase.mul 448 (edSecret secret).1).encode

/-- The signature of a message (R417). -/
def ed448Sign (secret msg : List Byte) : List Byte :=
  let (s, pre) := edSecret secret
  let r := edHash (pre ++ msg) % edL
  let rb := (edBase.mul 446 r).encode
  let k := edHash (rb ++ ed448Public secret ++ msg) % edL
  rb ++ bytesOf ((r + k * s) % edL) 57

end Sys2Proof.Machine
end

