-- ==== Sys2Proof/Machine/Bits.lean ====
section
/-!
DEFINITION. Bit fields, sign extension and saturation (R13, R14 of spec/00_scope.md).
-/

namespace Sys2Proof

/-- `bit n w` is `w[n]`. -/
def bit {n : Nat} (i : Nat) (w : BitVec n) : Bool := w.getLsbD i

/-- `field hi lo w` is the bit field `w[hi:lo]` read as an unsigned integer (R13). -/
def field {n : Nat} (hi lo : Nat) (w : BitVec n) : Nat := (w.toNat >>> lo) % 2 ^ (hi + 1 - lo)

/-- The n-bit field x read as a two's-complement integer (R14). -/
def signExt (n x : Nat) : Int := if 2 ^ (n - 1) ≤ x % 2 ^ n ∧ 0 < n then (x % 2 ^ n : Nat) - (2 ^ n : Nat) else (x % 2 ^ n : Nat)

/-- `Sat(x, lo, hi)` of R14. -/
def sat (x lo hi : Int) : Int := if x < lo then lo else if hi < x then hi else x

/-- ceil(a / b). -/
def ceilDiv (a b : Nat) : Nat := (a + b - 1) / b

end Sys2Proof
end

