-- ==== Sys2Proof/Syntax.lean ====
section
/-!
DEFINITION. The instructions and steps of the device as data: one constructor of Instr per row of the opcode
table. The first part are the instruction words of R234, the second the copy-engine commands of R67, the third
the hardware steps that the table lists beside them (95_what_each_step_holds.md).
-/

namespace Sys2Proof

/-! ## Names that fields encode -/

/-- Access sizes b, h, w, d: 2^code bytes (R220). -/
inductive Size | b | h | w | d
  deriving DecidableEq, Repr

/-- Scope codes 0-5 (R133). -/
inductive Scope | hart | core | cl | die | pkg | sys
  deriving DecidableEq, Repr

/-- Rounding-mode codes 0-5 (R181). -/
inductive RMode | rne | rtz | rdn | rup | rna | dyn
  deriving DecidableEq, Repr

/-- Conditions 0-5 (R251, R259). -/
inductive Cond | eq | ne | lt | ge | ltu | geu
  deriving DecidableEq, Repr

/-- Operations of plog (R252). -/
inductive PlogOp | and | or | xor | andn
  deriving DecidableEq, Repr

/-- Operations of amo and mamo (R274). -/
inductive AmoOp | add | and | or | xor | min | max | minu | maxu | swap
  deriving DecidableEq, Repr

/-- Vector element types 0x0-0xF (R180). -/
inductive VType | i8 | n8 | i16 | n16 | i32 | n32 | i64 | n64 | bf16 | f16 | f32 | f64 | e4m3 | e5m2 | i4 | n4
  deriving DecidableEq, Repr

/-- Tile formats 0x0-0xF (R175). -/
inductive TFmt | fp32 | bf16 | fp16 | int16 | e4m3 | e5m2 | e3m4 | int8 | uint8 | dpt8 | e2m1 | int4 | uint4 | spt4 | trn2 | int2
  deriving DecidableEq, Repr

/-- Error factors of tqst: 0, one half, 1 (R342). -/
inductive KFactor | zero | half | one
  deriving DecidableEq, Repr

/-- Fill codes of tmmat (R336). -/
inductive FillCode | posZero | negInf | posInf | reg
  deriving DecidableEq, Repr

/-- Guards, cache hint, chunk break and priority of an instruction word (R216). -/
structure Ctl where
  ga : BitVec 4
  gan : Bool
  gb : BitVec 4
  gbn : Bool
  ch : BitVec 3
  cb : Bool
  pri : BitVec 2
  deriving DecidableEq, Repr

/-- The mask predicate and zeroing bit of a vector word (R221). -/
structure VMask where
  zm : Bool
  mask : PReg
  deriving DecidableEq, Repr

/-- A copy-engine command: the double words D0 to D7 (R66). -/
structure Cmd where
  d0 : Word
  d1 : Word
  d2 : Word
  d3 : Word
  d4 : Word
  d5 : Word
  d6 : Word
  d7 : Word
  deriving DecidableEq, Repr

/-- How a message travels from where it stands: by a minimal path, by another path than the one of these links, over an
intermediate group, or by a detour over a member of the group (R152, R154, R158). -/
inductive Via | direct | other (path : List (Nat × Nat)) | group (g : Nat) | member (d : Nat)
  deriving DecidableEq, Repr

/-- A fabric message: the fields of the header flit and its data flits (R149, R151). Among its message-specific fields
are whether it is uncached (R155) and the last-use-of-row hint (R84). Beside the header stand the port that it must leave
by or has arrived on, and the way that it takes (assumption log, entry 48). -/
structure Msg where
  dst : Nat
  src : Nat
  code : Nat
  vc : Nat
  nonMin : Bool
  hops : Nat
  td : Nat
  seq : Nat
  line : Nat
  tag : Word
  mask : LineMask
  data : LineData
  aux : List Nat
  unc : Bool
  lr : Bool
  body : List (BitVec 512)         -- the data flits of an Attest
  port : Option Nat
  via : Via
  deriving DecidableEq, Repr

/-- A trap to deliver: cause code, interrupt bit, epc, tval and the word written to htrow (R385, R390). -/
structure TrapRec where
  code : Nat
  int : Bool
  epc : Word
  tval : Word
  row : Word
  deriving DecidableEq, Repr

/-- Kinds of access that translation and permission checks tell apart (R18, R33, R35, R422). -/
inductive AccKind | fetch | load | store | atomic | vload | vstore | tload | tstore | engRead | engWrite | copyRead | copyWrite
  deriving DecidableEq, Repr

/-- One measured lane: number, width and height of the eye (R93). -/
structure LaneEye where
  lane : Nat
  width : Nat
  height : Nat
  deriving DecidableEq, Repr

/-- What a controller is asked to do with one granule (R76, R89). -/
inductive HbmOp | read | write | partialWrite
  deriving DecidableEq, Repr

/-- A granule request to an HBM controller: operation, physical line, data, byte mask, poison carried,
LR hint, trust domain (0: plain), and the lane errors met on a read: 0 none, 1 correctable, 2 uncorrectable (R76, R79, R84). -/
structure HbmReq where
  op : HbmOp
  line : Nat
  data : LineData
  mask : LineMask
  poison : Bool
  lr : Bool
  td : Nat
  err : Nat
  deriving DecidableEq, Repr

/-- A detected hardware error and the place that holds it (R51, R52, R400, R401). -/
inductive HwError
  | corrected                                    -- a single-bit error that the code corrects
  | parity (line cache way : Nat) (bad : Bool)   -- parity in a clean line of a cache; the refetch arrives poisoned
  | speculative (h : Nat)                        -- uncorrectable in a hart's open chunk
  | coreLogic (h : Nat) (repeated : Bool)        -- core logic during a chunk; repeated at re-execution
  | committedLine (line cache way : Nat)         -- uncorrectable in a dirty line of a cache
  | committedTile (h : Nat) (t : Nat)
  | committedShared (cluster asid n : Nat)
  | committedQc (h : Nat) (q : Nat)
  | hartRegs (h bank n : Nat)                    -- a committed register: bank 0 g, 1 v, 2 p, 3 control; its number
  | copyPath (h : Nat)                           -- in the data path of a hart's command
  | engine (cluster e : Nat)
  | cacheWay (cluster way : Nat)                 -- a corrected error in a way of a cluster cache
  | fatal (code : Nat)
  deriving DecidableEq, Repr

/-- Contents of a trust-domain key slot: two cipher keys and a tag key (R161). -/
structure KeySlot where
  key1 : Nat
  key2 : Nat
  tagKey : Nat
  deriving DecidableEq, Repr

/-- A tile-engine operation on its way through the queues (R378, R381). -/
structure EngOp where
  hart : Nat
  asid : Nat
  acc : Option Nat      -- the physical tile of the accumulator that a TMMA or TMMAT reads
  dst : Option Nat      -- the handle that it writes
  out : Option Nat      -- the physical tile that it writes (R56)
  cycles : Nat
  uses : List Nat       -- the handles that it reads or writes, the destination first (R58)
  reads : List Nat      -- the physical tiles that it reads (R381)
  issued : Nat          -- the cycle at which its instruction executed
  deriving DecidableEq, Repr

/-- What a hardware step is about: up to three numbers (units, lines, values), a flag, and where the step needs them
a message, data, lists, a trap, a request, an error, keys. A step uses the parts that its meaning names. -/
structure Arg where
  a : Nat := 0
  b : Nat := 0
  c : Nat := 0
  flag : Bool := false
  word : Word := 0
  kind : AccKind := .load
  msg : Option Msg := none
  data : LineData := 0
  nums : List Nat := []
  bytes : List Byte := []
  trap : Option TrapRec := none
  req : Option HbmReq := none
  eyes : List LaneEye := []
  err : Option HwError := none
  op : Option EngOp := none
  deriving DecidableEq, Repr

/-! ## The instructions -/

inductive Instr where
  -- scalar integer (R243-R255)
  | add (c : Ctl) (rd ra rb : GReg)
  | sub (c : Ctl) (rd ra rb : GReg)
  | mul (c : Ctl) (rd ra rb : GReg)
  | mulh (c : Ctl) (rd ra rb : GReg)
  | mulhu (c : Ctl) (rd ra rb : GReg)
  | madd (c : Ctl) (rd ra rb rc : GReg)
  | div (c : Ctl) (rd ra rb : GReg)
  | divu (c : Ctl) (rd ra rb : GReg)
  | rem (c : Ctl) (rd ra rb : GReg)
  | remu (c : Ctl) (rd ra rb : GReg)
  | and (c : Ctl) (rd ra rb : GReg)
  | or (c : Ctl) (rd ra rb : GReg)
  | xor (c : Ctl) (rd ra rb : GReg)
  | andn (c : Ctl) (rd ra rb : GReg)
  | orn (c : Ctl) (rd ra rb : GReg)
  | sll (c : Ctl) (rd ra rb : GReg)
  | srl (c : Ctl) (rd ra rb : GReg)
  | sra (c : Ctl) (rd ra rb : GReg)
  | rol (c : Ctl) (rd ra rb : GReg)
  | ror (c : Ctl) (rd ra rb : GReg)
  | min (c : Ctl) (rd ra rb : GReg)
  | max (c : Ctl) (rd ra rb : GReg)
  | minu (c : Ctl) (rd ra rb : GReg)
  | maxu (c : Ctl) (rd ra rb : GReg)
  | clz (c : Ctl) (rd ra : GReg)
  | ctz (c : Ctl) (rd ra : GReg)
  | popc (c : Ctl) (rd ra : GReg)
  | bswap (c : Ctl) (rd ra : GReg)
  | sext (c : Ctl) (rd ra : GReg) (n1 : BitVec 6)
  | zext (c : Ctl) (rd ra : GReg) (n1 : BitVec 6)
  | bfx (c : Ctl) (rd ra : GReg) (sg : Bool) (pos len1 : BitVec 6)
  | bfi (c : Ctl) (rd ra : GReg) (pos len1 : BitVec 6)
  | addsh (c : Ctl) (rd ra rb : GReg) (sh : BitVec 3)
  | sel (c : Ctl) (rd : GReg) (pn : PReg) (ra rb : GReg)
  | cmp (c : Ctl) (cond : Cond) (pd : PReg) (ra rb : GReg)
  | plog (c : Ctl) (op : PlogOp) (pd pa pb : PReg)
  -- scalar floating point (R256-R261)
  | fadd (c : Ctl) (t : VType) (m : RMode) (rd ra rb : GReg)
  | fsub (c : Ctl) (t : VType) (m : RMode) (rd ra rb : GReg)
  | fmul (c : Ctl) (t : VType) (m : RMode) (rd ra rb : GReg)
  | fma (c : Ctl) (t : VType) (m : RMode) (rd ra rb rc : GReg)
  | fdiv (c : Ctl) (t : VType) (m : RMode) (rd ra rb : GReg)
  | fsqrt (c : Ctl) (t : VType) (m : RMode) (rd ra : GReg)
  | fmin (c : Ctl) (t : VType) (rd ra rb : GReg)
  | fmax (c : Ctl) (t : VType) (rd ra rb : GReg)
  | fcmp (c : Ctl) (t : VType) (cond : Cond) (pd : PReg) (ra rb : GReg)
  | fcvt (c : Ctl) (t : VType) (m : RMode) (src : VType) (rd ra : GReg)
  | fclass (c : Ctl) (t : VType) (rd ra : GReg)
  -- immediate forms (R253-R255)
  | addi (c : Ctl) (rd ra : GReg) (imm : BitVec 26)
  | andi (c : Ctl) (rd ra : GReg) (imm : BitVec 26)
  | ori (c : Ctl) (rd ra : GReg) (imm : BitVec 26)
  | xori (c : Ctl) (rd ra : GReg) (imm : BitVec 26)
  | slli (c : Ctl) (rd ra : GReg) (sh : BitVec 6)
  | srli (c : Ctl) (rd ra : GReg) (sh : BitVec 6)
  | srai (c : Ctl) (rd ra : GReg) (sh : BitVec 6)
  | muli (c : Ctl) (rd ra : GReg) (imm : BitVec 26)
  | cmpi (c : Ctl) (cond : Cond) (pd : PReg) (ra : GReg) (imm : BitVec 18)
  | li (c : Ctl) (rd : GReg) (imm : BitVec 32)
  | lui (c : Ctl) (rd : GReg) (imm : BitVec 32)
  | lpc (c : Ctl) (rd : GReg) (imm : BitVec 32)
  -- control flow (R262-R264)
  | br (c : Ctl) (off : BitVec 38)
  | call (c : Ctl) (rl : GReg) (off : BitVec 32)
  | callr (c : Ctl) (rl rt : GReg)
  | jr (c : Ctl) (rt : GReg)
  | ret (c : Ctl) (rt : GReg)
  -- memory, atomics, fences, engine windows, multicast (R266-R286)
  | ld (c : Ctl) (rd rb : GReg) (sz : Size) (sg : Bool) (off : BitVec 20)
  | st (c : Ctl) (rs rb : GReg) (sz : Size) (off : BitVec 20)
  | ldx (c : Ctl) (rd rb rx : GReg) (sz : Size) (sg : Bool) (n : BitVec 3)
  | stx (c : Ctl) (rs rb rx : GReg) (sz : Size) (n : BitVec 3)
  | lda (c : Ctl) (rd rb : GReg) (sz : Size) (sg : Bool) (sc : Scope) (off : BitVec 20)
  | strl (c : Ctl) (rs rb : GReg) (sz : Size) (sc : Scope) (off : BitVec 20)
  | ldp (c : Ctl) (rd rb : GReg) (sz : Size) (sg : Bool) (off : BitVec 20)
  | stp (c : Ctl) (rs rb : GReg) (sz : Size) (off : BitVec 20)
  | prf (c : Ctl) (w : Bool) (rb : GReg) (off : BitVec 20)
  | amo (c : Ctl) (op : AmoOp) (rd rs rb : GReg) (sz : Size) (sg : Bool) (sc : Scope)
  | cas (c : Ctl) (rd rc rn rb : GReg) (sz : Size) (sg : Bool) (sc : Scope)
  | casp (c : Ctl) (rd rc rn rb : GReg) (sc : Scope)
  | fence (c : Ctl) (sc : Scope)
  | sysfence (c : Ctl) (rd : GReg)
  | cwb (c : Ctl) (rb : GReg) (sc : Scope) (off : BitVec 20)
  | cinv (c : Ctl) (rb : GReg) (sc : Scope) (off : BitVec 20)
  | cwbi (c : Ctl) (rb : GReg) (sc : Scope) (off : BitVec 20)
  | czero (c : Ctl) (rb : GReg) (off : BitVec 20)
  | epush (c : Ctl) (rs rb : GReg) (off : BitVec 20)
  | epop (c : Ctl) (rd rb : GReg) (off : BitVec 20)
  | epeek (c : Ctl) (rd rb : GReg) (off : BitVec 20)
  | mst (c : Ctl) (rs rb : GReg) (sz : Size) (off : BitVec 20)
  | mamo (c : Ctl) (op : AmoOp) (rd rs rb : GReg) (sz : Size) (sg : Bool)
  | mseq (c : Ctl) (rd rb : GReg)
  -- vector memory (R291-R298)
  | vld (c : Ctl) (vd : VReg) (rb : GReg) (off : BitVec 20)
  | vst (c : Ctl) (vs : VReg) (rb : GReg) (off : BitVec 20)
  | vlds (c : Ctl) (m : VMask) (vd : VReg) (rb rs : GReg) (sz : Size)
  | vsts (c : Ctl) (pm : PReg) (vs : VReg) (rb rs : GReg) (sz : Size)
  | vldx (c : Ctl) (m : VMask) (vd : VReg) (rb : GReg) (vi : VReg) (sz : Size) (n : BitVec 3)
  | vstx (c : Ctl) (pm : PReg) (vs : VReg) (rb : GReg) (vi : VReg) (sz : Size) (n : BitVec 3)
  | vldseg (c : Ctl) (vd : VReg) (rb : GReg) (sz : Size) (k1 : BitVec 2) (off : BitVec 20)
  | vstseg (c : Ctl) (vs : VReg) (rb : GReg) (sz : Size) (k1 : BitVec 2) (off : BitVec 20)
  | vldb (c : Ctl) (vd : VReg) (rb : GReg) (sz : Size) (off : BitVec 20)
  | vldf (c : Ctl) (vd : VReg) (rb : GReg) (sz : Size) (off : BitVec 20)
  -- vector integer (R299-R302)
  | vadd (c : Ctl) (m : VMask) (t : VType) (w : Bool) (vd va vb : VReg)
  | vsub (c : Ctl) (m : VMask) (t : VType) (w : Bool) (vd va vb : VReg)
  | vmul (c : Ctl) (m : VMask) (t : VType) (w : Bool) (vd va vb : VReg)
  | vmulh (c : Ctl) (m : VMask) (t : VType) (vd va vb : VReg)
  | vmadd (c : Ctl) (m : VMask) (t : VType) (w : Bool) (vd va vb vc : VReg)
  | vaddsat (c : Ctl) (m : VMask) (t : VType) (vd va vb : VReg)
  | vsubsat (c : Ctl) (m : VMask) (t : VType) (vd va vb : VReg)
  | vmin (c : Ctl) (m : VMask) (t : VType) (vd va vb : VReg)
  | vmax (c : Ctl) (m : VMask) (t : VType) (vd va vb : VReg)
  | vabs (c : Ctl) (m : VMask) (t : VType) (vd va : VReg)
  | vand (c : Ctl) (m : VMask) (t : VType) (vd va vb : VReg)
  | vor (c : Ctl) (m : VMask) (t : VType) (vd va vb : VReg)
  | vxor (c : Ctl) (m : VMask) (t : VType) (vd va vb : VReg)
  | vandn (c : Ctl) (m : VMask) (t : VType) (vd va vb : VReg)
  | vshl (c : Ctl) (m : VMask) (t : VType) (imm : Bool) (vd va : VReg) (amt : BitVec 6)
  | vshr (c : Ctl) (m : VMask) (t : VType) (imm : Bool) (vd va : VReg) (amt : BitVec 6)
  | vsra (c : Ctl) (m : VMask) (t : VType) (imm : Bool) (vd va : VReg) (amt : BitVec 6)
  | vcmp (c : Ctl) (m : VMask) (t : VType) (cond : Cond) (pd : PReg) (va vb : VReg)
  | vsel (c : Ctl) (m : VMask) (t : VType) (pn : PReg) (vd va vb : VReg)
  | vpopc (c : Ctl) (m : VMask) (t : VType) (vd va : VReg)
  -- vector floating point (R303-R305)
  | vfadd (c : Ctl) (m : VMask) (t : VType) (rm : RMode) (w : Bool) (vd va vb : VReg)
  | vfsub (c : Ctl) (m : VMask) (t : VType) (rm : RMode) (w : Bool) (vd va vb : VReg)
  | vfmul (c : Ctl) (m : VMask) (t : VType) (rm : RMode) (w : Bool) (vd va vb : VReg)
  | vfma (c : Ctl) (m : VMask) (t : VType) (rm : RMode) (w : Bool) (vd va vb vc : VReg)
  | vfdiv (c : Ctl) (m : VMask) (t : VType) (rm : RMode) (vd va vb : VReg)
  | vfsqrt (c : Ctl) (m : VMask) (t : VType) (rm : RMode) (vd va : VReg)
  | vfmin (c : Ctl) (m : VMask) (t : VType) (vd va vb : VReg)
  | vfmax (c : Ctl) (m : VMask) (t : VType) (vd va vb : VReg)
  | vfcmp (c : Ctl) (m : VMask) (t : VType) (cond : Cond) (pd : PReg) (va vb : VReg)
  | vfabs (c : Ctl) (m : VMask) (t : VType) (vd va : VReg)
  | vfneg (c : Ctl) (m : VMask) (t : VType) (vd va : VReg)
  -- special functions (R306)
  | vrcp (c : Ctl) (m : VMask) (rm : RMode) (vd va : VReg)
  | vrsqrt (c : Ctl) (m : VMask) (rm : RMode) (vd va : VReg)
  | vexp2 (c : Ctl) (m : VMask) (rm : RMode) (vd va : VReg)
  | vlog2 (c : Ctl) (m : VMask) (rm : RMode) (vd va : VReg)
  | vsin (c : Ctl) (m : VMask) (rm : RMode) (vd va : VReg)
  | vcos (c : Ctl) (m : VMask) (rm : RMode) (vd va : VReg)
  | vtanh (c : Ctl) (m : VMask) (rm : RMode) (vd va : VReg)
  -- conversion and packing (R308-R311)
  | vcvt (c : Ctl) (m : VMask) (t : VType) (rm : RMode) (src : VType) (vd va : VReg)
  | vwiden (c : Ctl) (m : VMask) (t : VType) (src : VType) (vd va : VReg)
  | vnarrow (c : Ctl) (m : VMask) (t : VType) (f : BitVec 4) (src : VType) (vd va : VReg)
  | vpack (c : Ctl) (t : VType) (b : BitVec 2) (vd va vb : VReg)
  | vunpack (c : Ctl) (m : VMask) (t : VType) (b : BitVec 2) (q : BitVec 3) (vd va : VReg)
  -- reductions and scans (R312-R314)
  | vredadd (c : Ctl) (pm : PReg) (t src : VType) (vd va vi : VReg)
  | vredmin (c : Ctl) (pm : PReg) (t : VType) (vd va vi : VReg)
  | vredmax (c : Ctl) (pm : PReg) (t : VType) (vd va vi : VReg)
  | vfredadd (c : Ctl) (pm : PReg) (t : VType) (rm : RMode) (src : VType) (vd va vi : VReg)
  | vfredmax (c : Ctl) (pm : PReg) (t : VType) (vd va vi : VReg)
  | vscan (c : Ctl) (m : VMask) (t : VType) (rm : RMode) (vd va vi : VReg)
  -- permutation (R315-R317)
  | vperm (c : Ctl) (m : VMask) (t : VType) (vd va vb vi : VReg)
  | vslide (c : Ctl) (m : VMask) (t : VType) (vd va vb : VReg) (n : BitVec 6)
  | vrot (c : Ctl) (m : VMask) (t : VType) (vd va : VReg) (n : BitVec 6)
  | vzip (c : Ctl) (m : VMask) (t : VType) (hi : Bool) (vd va vb : VReg)
  | vunzip (c : Ctl) (m : VMask) (t : VType) (odd : Bool) (vd va vb : VReg)
  | vcompress (c : Ctl) (m : VMask) (t : VType) (vd va : VReg)
  | vexpand (c : Ctl) (m : VMask) (t : VType) (vd va : VReg)
  | vbcast (c : Ctl) (m : VMask) (t : VType) (fromG : Bool) (vd : VReg) (src n : BitVec 6)
  | vins (c : Ctl) (t : VType) (vd : VReg) (ra : GReg) (n : BitVec 6)
  | vext (c : Ctl) (t : VType) (rd : GReg) (va : VReg) (n : BitVec 6)
  -- dot products, histograms, sorting, masks (R318-R322)
  | vdot4 (c : Ctl) (m : VMask) (t src : VType) (mix : Bool) (vd va vb : VReg)
  | vhist (c : Ctl) (pm : PReg) (t : VType) (q : BitVec 5) (vg va : VReg)
  | vhmerge (c : Ctl) (m : VMask) (acc : Bool) (vd vg : VReg)
  | vsortk (c : Ctl) (m : VMask) (t : VType) (desc : Bool) (vd va vi : VReg)
  | vmask (c : Ctl) (m : VMask) (t : VType) (sign : Bool) (pd : PReg) (va : VReg)
  -- tile (R324-R346)
  | tcfg (c : Ctl) (h : THandle) (rows1 : BitVec 6) (rb : BitVec 2) (f : TFmt) (desc force : Bool)
  | tzero (c : Ctl) (h : THandle)
  | tld (c : Ctl) (h : THandle) (rb rs : GReg) (f : TFmt) (chk : Bool) (rc : GReg) (scale : BitVec 8)
  | tst (c : Ctl) (h : THandle) (rb rs : GReg) (f : TFmt) (chk : Bool) (rc : GReg)
  | tldd (c : Ctl) (h : THandle) (rb rs rdsc rc : GReg) (f : TFmt) (chk : Bool)
  | tstd (c : Ctl) (h : THandle) (rb rs rdsc rc : GReg) (f : TFmt) (chk : Bool)
  | tqst (c : Ctl) (h : THandle) (rb rs : GReg) (q : QReg) (auto : Bool) (re : GReg) (f : TFmt) (col : Bool) (k : KFactor) (cont : Bool)
  | tmma (c : Ctl) (hc ha hb : THandle)
  | tmmat (c : Ctl) (hc ha hb : THandle) (rfill : GReg) (fill : FillCode) (diag : BitVec 8)
  | tadd (c : Ctl) (hd ha hb : THandle) (m : RMode)
  | tscale (c : Ctl) (hd ha : THandle) (rs : GReg) (m : RMode)
  | tcvt (c : Ctl) (hd ha : THandle) (m : RMode) (sat : Bool)
  | ttrans (c : Ctl) (hd ha : THandle)
  | tmov (c : Ctl) (hd ha : THandle)
  | trow (c : Ctl) (h : THandle) (v : VReg) (ri : GReg) (toV : Bool)
  | trowi (c : Ctl) (h : THandle) (v : VReg) (i : BitVec 6) (toV : Bool)
  | tred (c : Ctl) (v : VReg) (ha : THandle) (m : RMode) (max col : Bool)
  | trel (c : Ctl) (h : THandle)
  | tinfo (c : Ctl) (rd : GReg) (h : THandle)
  | tsave (c : Ctl) (h : THandle) (rb : GReg)
  | trest (c : Ctl) (h : THandle) (rb : GReg)
  | qcclr (c : Ctl) (mask : BitVec 8)
  | qcrd (c : Ctl) (v : VReg) (q : QReg)
  | qcwr (c : Ctl) (v : VReg) (q : QReg)
  -- thread, task, synchronisation (R350-R360)
  | spawn (c : Ctl) (rd rpair rctl : GReg) (lo hi : GReg) (place : BitVec 3)
  | spawng (c : Ctl) (rd rpair rrule rext : GReg) (hi : GReg) (place : BitVec 3)
  | exit (c : Ctl)
  | task (c : Ctl) (rd rdesc : GReg)
  | taskw (c : Ctl) (rd rdesc : GReg)
  | waitc (c : Ctl) (rctr : GReg) (la lb lc ld : BitVec 6)
  | bara (c : Ctl) (rd : GReg) (b : BitVec 4)
  | barw (c : Ctl) (rt : GReg) (b : BitVec 4)
  | barinit (c : Ctl) (rn : GReg) (b : BitVec 4)
  | yield (c : Ctl)
  | uiret (c : Ctl)
  | uien (c : Ctl) (v : Bool)
  -- control registers and system (R361-R366)
  | csrr (c : Ctl) (rd : GReg) (n : BitVec 12)
  | csrw (c : Ctl) (rd rs : GReg) (n : BitVec 12)
  | csrs (c : Ctl) (rd rs : GReg) (n : BitVec 12)
  | csrc (c : Ctl) (rd rs : GReg) (n : BitVec 12)
  | ecall (c : Ctl)
  | ebreak (c : Ctl)
  | sret (c : Ctl)
  | mret (c : Ctl)
  | wfi (c : Ctl)
  | tlbinv (c : Ctl) (rasid raddr : GReg)
  | tlbinvAs (c : Ctl) (rasid : GReg)
  | tlbinvall (c : Ctl)
  | slotcfg (c : Ctl) (rd rsel rval : GReg)
  | vsavectx (c : Ctl) (rb rh : GReg) (v p q other : Bool)
  | vrestctx (c : Ctl) (rb rh : GReg) (v p q other : Bool)
  | chunkbrk (c : Ctl)
  | halt (c : Ctl)
  -- copy-engine commands (R67); `h` is the pushing hart
  | copy (h : Nat) (cmd : Cmd)
  | copy2d (h : Nat) (cmd : Cmd)
  | gather (h : Nat) (cmd : Cmd)
  | scatter (h : Nat) (cmd : Cmd)
  | fill (h : Nat) (cmd : Cmd)
  | rowcopy (h : Nat) (cmd : Cmd)
  | rowinit (h : Nat) (cmd : Cmd)
  | mcopy (h : Nat) (cmd : Cmd)
  | shload (h : Nat) (cmd : Cmd)
  | save (h : Nat) (cmd : Cmd)
  | restore (h : Nat) (cmd : Cmd)
  -- the hardware steps of the table; what unit, line or message a step is about stands in its argument (`Arg`)
  | rowBlockStep
  -- chunks (R124, R125), shared tiles (R61)
  | chunkPresent
  | corniceRecheck
  | chunkCommit
  | sharedTransferApply
  -- traps and interrupts (R359, R389-R393, R398, R399, R404)
  | trapDelivery
  | interruptDelivery
  | userInterrupt
  | machineCheck
  | timecmpMatch
  | swintWrite
  | watchdog
  | wdwinBind
  | wdwinUnbind
  | ustatImageWrite
  -- scheduling (R369-R376), tile engines (R57, R378-R381, R347), SFU (R74)
  | decodeSelect
  | park
  | bringIn
  | preempt
  | waitEnd
  | gangMemberPlace
  | readyPoolPlace
  | tileRename
  | engineDispatch
  | engineOpStart
  | engineOpComplete
  | sfuDequeue
  | sfuResult
  -- translation (R27-R43)
  | pageWalk
  | tlbinvSequence
  | tlbinvComplete
  -- coherence inside a module (R101-R106); `line` is the physical address divided by 128
  | gets
  | getm
  | upg
  | inv
  | fwds
  | fwdm
  | backinv
  | data
  | datae
  | ack
  | fwdmiss
  | evictm
  | rds
  | rdm
  | fwdack
  | invack
  | complete
  | wbdata
  | wback
  -- coherence across modules (R107-R111)
  | prds
  | prdm
  | pwrupd
  | pwrack
  | pfwds
  | pfwdm
  | pinv
  | pbackinv
  | pdata
  | pdatae
  | pack
  | pfwdmiss
  | pwb
  | pwback
  | phold
  | holdResponseTimer
  | fprobe
  | fecho
  | probeTimeout
  | requestTimeout
  -- multicast (R168-R171, R424)
  | mreq
  | mapply
  | mack
  | mdone
  | mstate
  | mstateack
  | mresume
  | groupActivate
  | groupReform
  | groupDeactivate
  -- links and failure (R148-R160, R173, R174)
  | heartbeat
  | hbreq
  | hbans
  | lostdecl
  | lostself
  | deviceLostTimeout
  | linkTrain
  | fabricJoin
  | flitCrcFail
  | heartbeatTimeout
  | linkRetrainTimeout
  | attest
  | portIdlePark
  | parkreq
  | parkack
  | wakereq
  | wakeack
  | portWake
  | wavelengthRejoin
  | forcedPark
  | forcedParkRelease
  -- HBM (R76-R95)
  | hbmRequest
  | rowIdleClose
  | bankRefresh
  | scrubRead
  | scrubWrite
  | criticalTempAssert
  | selfRefreshEnter
  | criticalTempDeassert
  | selfRefreshExit
  | marginMeasure
  | chstatTrainreq
  | retrainingHold
  | trainingEnd
  -- errors, power, boot, host (R400-R421)
  | hardwareError
  | hartRelocate
  | fatalError
  | powerTick
  | dieCriticalTemp
  | hbmThrottle
  | coolantInletAlert
  | perst
  | mgmtReset
  | bootRom
  | provisioningRequest
  | spdmKeyExchange
  | spdmMeasurements
  | keySlotLoad
  | virtioFeaturesOk
  | virtioNetRequest
  | virtioBlkRequest
  | virtioConsoleRequest
  | vsockConnect
  | functionLevelReset
  | pldmSensorRequest
  | registerWrite
  | survivorUnreachable
  | messageRelay
  | unknownMessageCode
  | pairAcknowledgement
  | hbmThrottleEnd
  deriving DecidableEq, Repr

end Sys2Proof
end

