-- ==== Sys2Proof/Machine/Float.lean ====
section
/-!
DEFINITION. Number formats, exact values and rounding (R175-R188 of spec/07_number_formats.md), and the scalar
floating-point operations on them (R256-R261 of spec/10_scalar_instructions.md).
-/

namespace Sys2Proof.Machine

/-- Exception flags in the order of fcsr[4:0]: NV DZ OF UF NX (R182). -/
abbrev Flags := BitVec 5
def flNV : Flags := 16
def flDZ : Flags := 8
def flOF : Flags := 4
def flUF : Flags := 2
def flNX : Flags := 1

/-- `fl c f` is the flag set f when c holds. -/
def flIf (c : Bool) (f : Flags) : Flags := if c then f else 0

/-! ## Values -/

/-- What the top exponent of a floating-point format encodes (R176). -/
inductive Special
  | ieee      -- infinities and NaNs
  | nanOnly   -- finite values but for the all-ones code, which is a NaN
  | none      -- finite values only
  deriving DecidableEq, Repr

/-- A floating-point format: exponent bits, mantissa bits, bias, special codes (R176). -/
structure Fmt where
  eb : Nat
  mb : Nat
  bias : Nat
  sp : Special
  deriving DecidableEq, Repr

def fmtF64 : Fmt := ⟨11, 52, 1023, .ieee⟩
def fmtF32 : Fmt := ⟨8, 23, 127, .ieee⟩
def fmtBF16 : Fmt := ⟨8, 7, 127, .ieee⟩
def fmtF16 : Fmt := ⟨5, 10, 15, .ieee⟩
def fmtE4M3 : Fmt := ⟨4, 3, 7, .nanOnly⟩
def fmtE5M2 : Fmt := ⟨5, 2, 15, .ieee⟩
def fmtE3M4 : Fmt := ⟨3, 4, 3, .nanOnly⟩
def fmtE2M1 : Fmt := ⟨2, 1, 1, .none⟩

/-- A number or special value: a NaN (signalling or quiet), an infinity, or (-1)^neg * m * 2^e exactly. -/
inductive FVal
  | nan (sig : Bool)
  | inf (neg : Bool)
  | fin (neg : Bool) (m : Nat) (e : Int)
  deriving DecidableEq, Repr

/-- How a format holds numbers: floating point, integer, or a shift format (R175, R177, R180). -/
inductive NumFmt
  | flt (f : Fmt)
  | int (signed : Bool) (w : Nat)
  | dpt8
  | spt4
  | trn2
  deriving DecidableEq, Repr

end Sys2Proof.Machine

namespace Sys2Proof
open Sys2Proof.Machine

/-- The sixteen vector element types (R180). -/
def VType.num : VType → NumFmt
  | .i8 => .int true 8 | .n8 => .int false 8 | .i16 => .int true 16 | .n16 => .int false 16
  | .i32 => .int true 32 | .n32 => .int false 32 | .i64 => .int true 64 | .n64 => .int false 64
  | .bf16 => .flt fmtBF16 | .f16 => .flt fmtF16 | .f32 => .flt fmtF32 | .f64 => .flt fmtF64
  | .e4m3 => .flt fmtE4M3 | .e5m2 => .flt fmtE5M2 | .i4 => .int true 4 | .n4 => .int false 4

/-- Width in bits of a vector element type (R180). -/
def VType.width : VType → Nat
  | .i8 | .n8 | .e4m3 | .e5m2 => 8
  | .i16 | .n16 | .bf16 | .f16 => 16
  | .i32 | .n32 | .f32 => 32
  | .i64 | .n64 | .f64 => 64
  | .i4 | .n4 => 4

def VType.isInt : VType → Bool
  | .bf16 | .f16 | .f32 | .f64 | .e4m3 | .e5m2 => false
  | _ => true

/-- The signed integer types, the ones written with the letter i (R180). -/
def VType.isSigned : VType → Bool
  | .i8 | .i16 | .i32 | .i64 | .i4 => true
  | _ => false

/-- The floating-point format of a type; f32 stands in for the integer types, which the decoder never passes here. -/
def VType.fmt : VType → Fmt
  | .bf16 => fmtBF16 | .f16 => fmtF16 | .f64 => fmtF64 | .e4m3 => fmtE4M3 | .e5m2 => fmtE5M2 | _ => fmtF32

/-- The sixteen tile formats (R175). -/
def TFmt.num : TFmt → NumFmt
  | .fp32 => .flt fmtF32 | .bf16 => .flt fmtBF16 | .fp16 => .flt fmtF16 | .int16 => .int true 16
  | .e4m3 => .flt fmtE4M3 | .e5m2 => .flt fmtE5M2 | .e3m4 => .flt fmtE3M4 | .int8 => .int true 8
  | .uint8 => .int false 8 | .dpt8 => .dpt8 | .e2m1 => .flt fmtE2M1 | .int4 => .int true 4
  | .uint4 => .int false 4 | .spt4 => .spt4 | .trn2 => .trn2 | .int2 => .int true 2

/-- The width class of a tile format (R175). -/
def TFmt.width : TFmt → Nat
  | .fp32 => 32
  | .bf16 | .fp16 | .int16 => 16
  | .e4m3 | .e5m2 | .e3m4 | .int8 | .uint8 | .dpt8 => 8
  | .e2m1 | .int4 | .uint4 | .spt4 => 4
  | .trn2 | .int2 => 2

end Sys2Proof

namespace Sys2Proof.Machine

/-- The exponent field of the largest finite value. -/
def Fmt.topE (f : Fmt) : Nat := match f.sp with | .ieee => 2 ^ f.eb - 2 | _ => 2 ^ f.eb - 1

/-- Mantissa, with its leading one, of the largest finite value. -/
def Fmt.maxMant (f : Fmt) : Nat := match f.sp with | .nanOnly => 2 ^ (f.mb + 1) - 2 | _ => 2 ^ (f.mb + 1) - 1

/-- Exponent of the unit of `maxMant`. -/
def Fmt.maxExp (f : Fmt) : Int := (f.topE : Int) - f.bias - f.mb

/-- Exponent of the smallest non-zero magnitude. -/
def Fmt.minExp (f : Fmt) : Int := 1 - (f.bias : Int) - f.mb

/-- The largest finite value with a sign. -/
def Fmt.maxVal (f : Fmt) (neg : Bool) : FVal := .fin neg f.maxMant f.maxExp

/-- The value of an encoding (R176). In the NaN-only formats every NaN raises NV (R184), so it counts as signalling. -/
def Fmt.decode (f : Fmt) (w : Nat) : FVal :=
  let mant := w % 2 ^ f.mb
  let ex := (w / 2 ^ f.mb) % 2 ^ f.eb
  let neg := (w / 2 ^ (f.mb + f.eb)) % 2 == 1
  if ex = 2 ^ f.eb - 1 ∧ f.sp = .ieee then
    if mant = 0 then .inf neg else .nan (mant / 2 ^ (f.mb - 1) == 0)
  else if ex = 2 ^ f.eb - 1 ∧ mant = 2 ^ f.mb - 1 ∧ f.sp = .nanOnly then .nan true
  else if ex = 0 then .fin neg mant f.minExp
  else .fin neg (2 ^ f.mb + mant) ((ex : Int) - f.bias - f.mb)

/-- The canonical NaN of a format; for a format without NaNs, its +0 (R179, R194). -/
def Fmt.canonNaN (f : Fmt) : Nat :=
  match f.sp with
  | .ieee => (2 ^ f.eb - 1) * 2 ^ f.mb + 2 ^ (f.mb - 1)
  | .nanOnly => 2 ^ (f.eb + f.mb) - 1
  | .none => 0

/-- n * 2^k for a whole k of either sign, rounding down. -/
def shiftInt (n : Nat) (k : Int) : Nat := if 0 ≤ k then n * 2 ^ k.toNat else n / 2 ^ (-k).toNat

/-- The encoding of a value that the format holds exactly (R176, R179). -/
def Fmt.encode (f : Fmt) (x : FVal) : Nat :=
  let sgn (n : Bool) : Nat := if n then 2 ^ (f.eb + f.mb) else 0
  match x with
  | .nan _ => f.canonNaN
  | .inf neg => sgn neg + (2 ^ f.eb - 1) * 2 ^ f.mb
  | .fin neg m e =>
    if m = 0 then sgn neg
    else
      let lead := (Nat.log2 m : Int)
      let ex := lead + e + f.bias
      if 1 ≤ ex then sgn neg + ex.toNat * 2 ^ f.mb + (shiftInt m (f.mb - lead) - 2 ^ f.mb)
      else sgn neg + shiftInt m (e - f.minExp)

/-- A non-zero finite value below the smallest normal one. -/
def Fmt.subnormal (f : Fmt) : FVal → Bool
  | .fin _ m e => m != 0 && decide ((Nat.log2 m : Int) + e < 1 - f.bias)
  | _ => false

/-- A zero of the same sign (R183). -/
def FVal.flush : FVal → FVal
  | .fin neg _ _ => .fin neg 0 0
  | x => x

/-! ## Rounding (R181, R186) -/

end Sys2Proof.Machine

namespace Sys2Proof

/-- The mode in force: the dynamic code reads fcsr.RM (R181). -/
def RMode.resolve (m : RMode) (fcsr : Word) : RMode :=
  match m with
  | .dyn => match field 14 12 fcsr with | 0 => .rne | 1 => .rtz | 2 => .rdn | 3 => .rup | _ => .rna
  | m => m

end Sys2Proof

namespace Sys2Proof.Machine

/-- Whether the magnitude t + r / 2^sh is rounded up to t + 1 under a mode. -/
def roundsUp (m : RMode) (neg : Bool) (t r half : Nat) : Bool :=
  match m with
  | .rne | .dyn => decide (half < r) || (r == half && t % 2 == 1)
  | .rtz => false
  | .rdn => neg && r != 0
  | .rup => !neg && r != 0
  | .rna => decide (half ≤ r)

/-- m * 2^e as a whole multiple of 2^q, rounded, and whether it was inexact. -/
def roundAt (mode : RMode) (neg : Bool) (m : Nat) (e q : Int) : Nat × Bool :=
  if q ≤ e then (m * 2 ^ (e - q).toNat, false)
  else
    let sh := (q - e).toNat
    let t := m / 2 ^ sh
    let r := m % 2 ^ sh
    (if roundsUp mode neg t r (2 ^ (sh - 1)) && r != 0 then t + 1 else t, r != 0)

/-- Below the normal range after rounding to the format's precision with an unbounded exponent (R182). -/
def Fmt.tiny (f : Fmt) (mode : RMode) (neg : Bool) (m : Nat) (e : Int) : Bool :=
  let lead := (Nat.log2 m : Int) + e
  if m = 0 then false
  else if 1 - (f.bias : Int) ≤ lead then false
  else
    let q := lead - f.mb
    decide ((Nat.log2 (roundAt mode neg m e q).1 : Int) + q < 1 - f.bias)

/-- A finite value rounded to the format's precision, with gradual underflow; whether its rounded magnitude exceeds
the largest finite value; and the flags UF and NX. In the NaN-only formats a tie between the largest finite value
and the NaN code overflows (R187, R260's 464). E2M1 raises no UF (R408). -/
def Fmt.roundFin (f : Fmt) (mode : RMode) (neg : Bool) (m : Nat) (e : Int) : FVal × Bool × Flags :=
  if m = 0 then (.fin neg 0 0, false, 0)
  else
    let q := max ((Nat.log2 m : Int) + e - f.mb) f.minExp
    let (t, nx) := roundAt mode neg m e q
    let ovf := decide (f.maxExp < q) || (q == f.maxExp && decide (f.maxMant < t)) ||
      (f.sp == .nanOnly && mode == .rne && q == f.maxExp &&
        decide (e < q) && m == (2 * f.maxMant + 1) * 2 ^ ((q - e).toNat - 1))
    let uf := nx && f.sp != .none && f.tiny mode neg m e
    (.fin neg t q, ovf, flIf uf flUF ||| flIf nx flNX)

/-- IEEE overflow under a mode (R186). -/
def Fmt.overflow (f : Fmt) (mode : RMode) (neg : Bool) : FVal :=
  match mode with
  | .rne | .rna | .dyn => .inf neg
  | .rtz => f.maxVal neg
  | .rdn => if neg then .inf true else f.maxVal false
  | .rup => if neg then f.maxVal true else .inf false

/-- `RoundFP32` and its fellows: an exact value rounded under a mode (R186). -/
def Fmt.round (f : Fmt) (mode : RMode) : FVal → FVal × Flags
  | .fin neg m e =>
    let (y, ovf, fl) := f.roundFin mode neg m e
    if ovf then (f.overflow mode neg, flOF ||| flNX) else (y, fl)
  | x => (x, 0)

/-! ## ConvFmt (R187) -/

/-- Round to one of a rising list of magnitudes in units of 2^u; ties go to the smaller magnitude under RNE and to
the larger under RNA (R187). -/
def roundToSet (set : List Nat) (u : Int) (mode : RMode) (neg : Bool) (m : Nat) (e : Int) : Nat × Bool :=
  let sh := (max 0 (u - e)).toNat
  let x := m * 2 ^ (max 0 (e - u)).toNat          -- |x| = x * 2^(u - sh)
  let lo := (set.filter (fun k => decide (k * 2 ^ sh ≤ x))).getLast?.getD 0
  let hi := (set.filter (fun k => decide (x ≤ k * 2 ^ sh))).head?.getD lo
  if lo = hi then (lo, false)
  else
    let dl := x - lo * 2 ^ sh
    let dh := hi * 2 ^ sh - x
    let up := match mode with
      | .rne | .dyn => decide (dh < dl)
      | .rna => decide (dh ≤ dl)
      | .rtz => false
      | .rdn => neg
      | .rup => !neg
    (if up then hi else lo, true)

/-- The magnitudes of DPT8 in units of 2^-7: the sums and differences of two powers (R177, R187). -/
def dptValue (code : Nat) : Int :=
  let a := (code / 16) % 8
  let b := code % 8
  let x : Int := 2 ^ (7 - a)
  let y : Int := 2 ^ (7 - b)
  (if code / 128 % 2 = 1 then -x else x) + (if code / 8 % 2 = 1 then -y else y)

/-- 0 and the 52 positive values of DPT8 in rising order, in units of 2^-7 (R187). -/
def dptSet : List Nat :=
  (List.range 257).filter (fun k => (List.range 256).any (fun c => decide (dptValue c = (k : Int))))

/-- The canonical, that is the lowest, DPT8 code of a value (R177). -/
def dptCode (neg : Bool) (k : Nat) : Nat :=
  let v : Int := if neg then -(k : Int) else k
  ((List.range 256).find? (fun c => decide (dptValue c = v))).getD 8

/-- 0 and the magnitudes 2^-6 to 1 of SPT4 in units of 2^-6 (R177). -/
def sptSet : List Nat := [0, 1, 2, 4, 8, 16, 32, 64]

/-- The SPT4 code of a signed magnitude (R177). -/
def sptCode (neg : Bool) (k : Nat) : Nat :=
  (if neg then 8 else 0) + (if k = 0 then 7 else 6 - Nat.log2 k)

/-- The value of an element code and the flags of reading it: TRN2 code 10 reads as 0 and raises NV (R177). -/
def NumFmt.decode (n : NumFmt) (code : Nat) : FVal × Flags :=
  match n with
  | .flt f => (f.decode code, 0)
  | .int sg w =>
    let x : Int := if sg then signExt w code else (code % 2 ^ w : Nat)
    (.fin (decide (x < 0)) x.natAbs 0, 0)
  | .dpt8 => let x := dptValue (code % 256); (.fin (decide (x < 0)) x.natAbs (-7), 0)
  | .spt4 =>
    let neg := code / 8 % 2 == 1
    if code % 8 = 7 then (.fin neg 0 0, 0) else (.fin neg (2 ^ (6 - code % 8)) (-6), 0)
  | .trn2 =>
    match code % 4 with
    | 1 => (.fin false 1 0, 0)
    | 3 => (.fin true 1 0, 0)
    | 2 => (.fin false 0 0, flNV)
    | _ => (.fin false 0 0, 0)

/-- Ends of an integer range. -/
def intMax (sg : Bool) (w : Nat) : Int := if sg then 2 ^ (w - 1) - 1 else 2 ^ w - 1
def intMin (sg : Bool) (w : Nat) : Int := if sg then -2 ^ (w - 1) else 0

/-- The low w bits of a whole number in two's complement (R13). -/
def lowBits (w : Nat) (x : Int) : Nat := (x % (2 ^ w : Int)).toNat

/-- The zero code of a format (R179, R324). -/
def NumFmt.zero : NumFmt → Nat
  | .dpt8 => 8
  | .spt4 => 7
  | _ => 0

/-- `ConvFmt(x, f, mode, sat)`: the code that represents x and the flags (R187). -/
def NumFmt.conv (n : NumFmt) (mode : RMode) (sat : Bool) (x : FVal) : Nat × Flags :=
  match n, x with
  | .flt f, .nan _ => if f.sp = .none then (0, flNV) else (f.canonNaN, 0)
  | .flt f, .inf neg =>
    match f.sp with
    | .ieee => (f.encode (.inf neg), 0)
    | .nanOnly => if sat then (f.encode (f.maxVal neg), flOF) else (f.canonNaN, flOF)
    | .none => (f.encode (f.maxVal neg), flOF)
  | .flt f, .fin neg m e =>
    let (y, ovf, fl) := f.roundFin mode neg m e
    if ovf then
      match f.sp with
      | .ieee => (f.encode (if sat then f.maxVal neg else f.overflow mode neg), flOF ||| flNX)
      | .nanOnly => (if sat then f.encode (f.maxVal neg) else f.canonNaN, flOF ||| flNX)
      | .none => (f.encode (f.maxVal neg), flOF ||| flNX)
    else (f.encode y, fl)
  | .int _ _, .nan _ => (0, flNV)
  | .int sg w, .inf neg => (lowBits w (if neg then intMin sg w else intMax sg w), flNV)
  | .int sg w, .fin neg m e =>
    let (t, nx) := roundAt mode neg m e 0
    let y : Int := if neg then -(t : Int) else t
    if y < intMin sg w then (lowBits w (intMin sg w), flOF ||| flNX)
    else if intMax sg w < y then (lowBits w (intMax sg w), flOF ||| flNX)
    else (lowBits w y, flIf nx flNX)
  | n, .nan _ => (n.zero, flNV)
  | .dpt8, .inf neg => (dptCode neg 256, flOF)
  | .spt4, .inf neg => (sptCode neg 64, flOF)
  | .trn2, .inf neg => (if neg then 3 else 1, flOF)
  | .dpt8, .fin neg m e =>
    if decide (0 ≤ e + 7) && decide (256 < m * 2 ^ (e + 7).toNat) || decide (e + 7 < 0) && decide (256 * 2 ^ (-(e + 7)).toNat < m)
    then (dptCode neg 256, flOF ||| flNX)
    else let (k, nx) := roundToSet dptSet (-7) mode neg m e; (if k = 0 then 8 else dptCode neg k, flIf nx flNX)
  | .spt4, .fin neg m e =>
    if decide (0 ≤ e + 6) && decide (64 < m * 2 ^ (e + 6).toNat) || decide (e + 6 < 0) && decide (64 * 2 ^ (-(e + 6)).toNat < m)
    then (sptCode neg 64, flOF ||| flNX)
    else let (k, nx) := roundToSet sptSet (-6) mode neg m e; (sptCode neg k, flIf nx flNX)
  | .trn2, .fin neg m e =>
    if decide (0 ≤ e) && decide (1 < m * 2 ^ e.toNat) || decide (e < 0) && decide (2 ^ (-e).toNat < m)
    then (if neg then 3 else 1, flOF ||| flNX)
    else
      let (k, nx) := roundToSet [0, 1] 0 mode neg m e
      (if k = 0 then 0 else if neg then 3 else 1, flIf nx flNX)

/-! ## Exact arithmetic (R257, R258) -/

def FVal.isNaN : FVal → Bool | .nan _ => true | _ => false
def FVal.isSig : FVal → Bool | .nan s => s | _ => false
def FVal.neg : FVal → FVal
  | .nan s => .nan s | .inf n => .inf (!n) | .fin n m e => .fin (!n) m e
def FVal.sign : FVal → Bool | .nan _ => false | .inf n => n | .fin n _ _ => n
def FVal.isZero : FVal → Bool | .fin _ m _ => m == 0 | _ => false
def FVal.one : FVal := .fin false 1 0
def FVal.zero (neg : Bool) : FVal := .fin neg 0 0

/-- A finite value as a whole multiple of 2^e0, for e0 no larger than its exponent. -/
def scaledInt (neg : Bool) (m : Nat) (e e0 : Int) : Int :=
  let x : Int := m * 2 ^ (e - e0).toNat
  if neg then -x else x

/-- The value multiplied by 2^k. -/
def FVal.scale (x : FVal) (k : Int) : FVal :=
  match x with
  | .fin n m e => .fin n m (e + k)
  | x => x

/-- The exact sum; an exact zero of operands of opposite sign is -0 under RDN and +0 otherwise (R257). -/
def FVal.add (mode : RMode) (x y : FVal) : FVal × Flags :=
  match x, y with
  | .nan s, y => (.nan false, flIf (s || y.isSig) flNV)
  | x, .nan s => (.nan false, flIf (s || x.isSig) flNV)
  | .inf a, .inf b => if a = b then (.inf a, 0) else (.nan false, flNV)
  | .inf a, _ => (.inf a, 0)
  | _, .inf b => (.inf b, 0)
  | .fin a m e, .fin b n f =>
    let e0 := min e f
    let z := scaledInt a m e e0 + scaledInt b n f e0
    if z = 0 then (.fin (if a = b then a else mode == .rdn) 0 0, 0)
    else (.fin (decide (z < 0)) z.natAbs e0, 0)

/-- The exact product (R257). -/
def FVal.mul (x y : FVal) : FVal × Flags :=
  match x, y with
  | .nan s, y => (.nan false, flIf (s || y.isSig) flNV)
  | x, .nan s => (.nan false, flIf (s || x.isSig) flNV)
  | .inf a, .inf b => (.inf (a != b), 0)
  | .inf a, .fin b n _ => if n = 0 then (.nan false, flNV) else (.inf (a != b), 0)
  | .fin a m _, .inf b => if m = 0 then (.nan false, flNV) else (.inf (a != b), 0)
  | .fin a m e, .fin b n f => (.fin (a != b) (m * n) (e + f), 0)

/-- x * y + z; NV for 0 * inf even when z is a quiet NaN (R257). -/
def FVal.fma (mode : RMode) (x y z : FVal) : FVal × Flags :=
  let (p, f1) := FVal.mul x y
  let (r, f2) := FVal.add mode p z
  (r, f1 ||| f2)

/-- m + (a part below its last bit) as an exact stand-in that rounds alike wherever the format's unit lies at or
above 2^e. -/
def sticky (neg : Bool) (m : Nat) (e : Int) (more : Bool) : FVal :=
  if more then .fin neg (4 * m + 1) (e - 2) else .fin neg m e

/-- The quotient, to 200 bits and a sticky part (R257). -/
def FVal.div (x y : FVal) : FVal × Flags :=
  match x, y with
  | .nan s, y => (.nan false, flIf (s || y.isSig) flNV)
  | x, .nan s => (.nan false, flIf (s || x.isSig) flNV)
  | .inf _, .inf _ => (.nan false, flNV)
  | .inf a, .fin b _ _ => (.inf (a != b), 0)
  | .fin a _ _, .inf b => (.fin (a != b) 0 0, 0)
  | .fin a m e, .fin b n f =>
    if n = 0 then (if m = 0 then (.nan false, flNV) else (.inf (a != b), flDZ))
    else
      let q := m * 2 ^ 200 / n
      (sticky (a != b) q (e - f - 200) (m * 2 ^ 200 % n != 0), 0)

/-- Whole square root by bits, from a guess that holds the bits above `k`. -/
def isqrtFrom (n : Nat) : Nat → Nat → Nat
  | 0, r => r
  | k + 1, r => let t := r + 2 ^ k; isqrtFrom n k (if t * t ≤ n then t else r)

/-- The whole part of the square root of n. -/
def isqrt (n : Nat) : Nat := isqrtFrom n (Nat.log2 n / 2 + 1) 0

/-- m * 2^(2k) or m * 2^(2k + 1) as a square root to more than 200 bits and a sticky part. -/
def sqrtFin (m : Nat) (e : Int) : FVal :=
  let m' := if e % 2 = 0 then m else 2 * m
  let e' := if e % 2 = 0 then e else e - 1
  let n := m' * 2 ^ 400
  let r := isqrt n
  sticky false r (e' / 2 - 200) (r * r != n)

/-- The square root (R257). -/
def FVal.sqrt (x : FVal) : FVal × Flags :=
  match x with
  | .nan s => (.nan false, flIf s flNV)
  | .inf true => (.nan false, flNV)
  | .inf false => (.inf false, 0)
  | .fin neg m e => if m = 0 then (.fin neg 0 0, 0) else if neg then (.nan false, flNV) else (sqrtFin m e, 0)

/-- x < y on values that are not NaNs; the zeros are equal. -/
def FVal.lt (x y : FVal) : Bool :=
  match x, y with
  | .inf a, .inf b => a && !b
  | .inf a, .fin .. => a
  | .fin .., .inf b => !b
  | .fin a m e, .fin b n f => let e0 := min e f; decide (scaledInt a m e e0 < scaledInt b n f e0)
  | _, _ => false

/-- x = y on values that are not NaNs. -/
def FVal.eq (x y : FVal) : Bool := !x.isNaN && !y.isNaN && !x.lt y && !y.lt x

/-- The smaller (or larger) operand: -0 is below +0; one NaN gives the other operand; a signalling NaN raises NV (R258). -/
def FVal.pick (larger : Bool) (x y : FVal) : FVal × Flags :=
  let fl := flIf (x.isSig || y.isSig) flNV
  if x.isNaN then (if y.isNaN then .nan false else y, fl)
  else if y.isNaN then (x, fl)
  else
    let less := x.lt y || (x.isZero && y.isZero && x.sign && !y.sign)
    (if less = larger then y else x, fl)

/-- A comparison: its truth and the flags (R259). -/
def FVal.compare (c : Cond) (x y : FVal) : Bool × Flags :=
  let un := x.isNaN || y.isNaN
  let quiet := flIf (x.isSig || y.isSig) flNV
  match c with
  | .eq => (x.eq y, quiet)
  | .ne => (!x.eq y, quiet)
  | .lt => (!un && x.lt y, flIf un flNV)
  | .ge => (!un && !x.lt y, flIf un flNV)
  | .ltu => (un || x.lt y, quiet)
  | .geu => (un || !x.lt y, quiet)

/-- x rounded to an integral value under a mode (R260, S = T). -/
def FVal.roundIntegral (mode : RMode) (x : FVal) : FVal × Flags :=
  match x with
  | .nan s => (.nan false, flIf s flNV)
  | .inf n => (.inf n, 0)
  | .fin neg m e =>
    if m = 0 then (x, 0)
    else if 0 ≤ e then (x, 0)
    else let (t, nx) := roundAt mode neg m e 0; (.fin neg t 0, flIf nx flNX)

/-! ## Reading and writing with the flush rule (R183, R256) -/

/-- The formats to which FZ applies (R183). -/
def Fmt.flushes (f : Fmt) : Bool := f.sp == .ieee && decide (10 ≤ f.mb + f.eb) 

/-- `ReadF`: decode with the input flush (R183, R256). -/
def Fmt.read (f : Fmt) (fz : Bool) (w : Nat) : FVal :=
  let x := f.decode w
  if fz && f.flushes && f.subnormal x then x.flush else x

/-- Output flush of a rounded result: a subnormal becomes a zero and sets UF and NX (R183). -/
def Fmt.flushOut (f : Fmt) (fz : Bool) (x : FVal) : FVal × Flags :=
  if fz && f.flushes && f.subnormal x then (x.flush, flUF ||| flNX) else (x, 0)

/-- Round an exact result into the format of an instruction's destination and encode it: RoundT and WriteF for the wide
formats (R256), ConvFmt with SAT8 for the packed 8-bit ones (R188). -/
def Fmt.finish (f : Fmt) (mode : RMode) (fz sat8 : Bool) (r : FVal × Flags) : Nat × Flags :=
  if f.flushes then
    let (y, f1) := f.round mode r.1
    let (z, f2) := f.flushOut fz y
    (f.encode z, r.2 ||| f1 ||| f2)
  else
    let (c, f1) := (NumFmt.flt f).conv mode sat8 r.1
    (c, r.2 ||| f1)

/-- `WriteF` of an unrounded value (R258). -/
def Fmt.write (f : Fmt) (fz : Bool) (r : FVal × Flags) : Nat × Flags :=
  let (z, f2) := f.flushOut fz r.1
  (f.encode z, r.2 ||| f2)

/-- The one-hot class of an encoding (R261): the raw encoding, no flush; NaNs of the NaN-only formats count as quiet. -/
def Fmt.classify (f : Fmt) (w : Nat) : Nat :=
  match f.decode w with
  | .nan s => if s && f.sp == .ieee then 2 ^ 8 else 2 ^ 9
  | .inf neg => if neg then 1 else 2 ^ 7
  | .fin neg m e =>
    if m = 0 then (if neg then 2 ^ 3 else 2 ^ 4)
    else if f.subnormal (.fin neg m e) then (if neg then 2 ^ 2 else 2 ^ 5)
    else (if neg then 2 else 2 ^ 6)

/-- Conversion of a lane or register between types under the rules of R260 and R308: the destination's code. The
flush of R183 does not reach the operand of a conversion into an 8-bit format (R183). -/
def convert (dst src : VType) (mode : RMode) (fz sat8 : Bool) (w : Nat) : Nat × Flags :=
  let fzIn := fz && (dst.isInt || dst.fmt.flushes)
  let x : FVal := match src.num with | .flt f => f.read fzIn w | n => (n.decode w).1
  let sg := flIf x.isSig flNV
  if dst = src then
    let (y, f1) := x.roundIntegral mode
    let (c, f2) := dst.fmt.write fz (y, f1)
    (c, f2)
  else
    match dst.num with
    | .int a b => (NumFmt.int a b).conv mode true x
    | .flt f =>
      let sat := if f.flushes then false else sat8
      let (c, f1) := (NumFmt.flt f).conv mode sat x
      if f.flushes then
        let (z, f2) := f.flushOut fz (f.decode c)
        (f.encode z, sg ||| f1 ||| f2)
      else (c, sg ||| f1)
    | n => n.conv mode true x

end Sys2Proof.Machine
end

