-- ==== Sys2Proof/Machine/Fields.lean ====
section
/-!
DEFINITION. The fields of an instruction word (R216), the register classes (R218) and the codes that fields hold.
-/

namespace Sys2Proof.Machine

/-- The fields of an instruction word (R216). -/
structure Fields where
  op : BitVec 10
  ctl : Ctl
  a : BitVec 6
  b : BitVec 6
  c : BitVec 6
  d : BitVec 6
  e : BitVec 6
  f : BitVec 8
  deriving DecidableEq, Repr

/-- The fields of a word (R216). -/
def unpack (w : Word) : Fields where
  op := w.extractLsb' 54 10
  ctl := {
    ga := w.extractLsb' 50 4, gan := w.getLsbD 49, gb := w.extractLsb' 45 4, gbn := w.getLsbD 44,
    ch := w.extractLsb' 41 3, cb := w.getLsbD 40, pri := w.extractLsb' 38 2 }
  a := w.extractLsb' 32 6
  b := w.extractLsb' 26 6
  c := w.extractLsb' 20 6
  d := w.extractLsb' 14 6
  e := w.extractLsb' 8 6
  f := w.extractLsb' 0 8

/-- The word with given fields (R216). -/
def pack (x : Fields) : Word :=
  x.op ++ x.ctl.ga ++ BitVec.ofBool x.ctl.gan ++ x.ctl.gb ++ BitVec.ofBool x.ctl.gbn ++ x.ctl.ch ++
    BitVec.ofBool x.ctl.cb ++ x.ctl.pri ++ x.a ++ x.b ++ x.c ++ x.d ++ x.e ++ x.f

/-- The low 20, 26, 32 and 38 bits of a word, as its forms name them (R219). -/
def Fields.off20 (x : Fields) : BitVec 20 := x.d ++ x.e ++ x.f
def Fields.imm26 (x : Fields) : BitVec 26 := x.c ++ x.d ++ x.e ++ x.f
def Fields.imm32 (x : Fields) : BitVec 32 := x.b ++ x.c ++ x.d ++ x.e ++ x.f
def Fields.off38 (x : Fields) : BitVec 38 := x.a ++ x.b ++ x.c ++ x.d ++ x.e ++ x.f

/-! ## Register classes (R218) -/

def asV (x : BitVec 6) : Option VReg := if x.toNat < 32 then some (x.setWidth 5) else none
def asP (x : BitVec 6) : Option PReg := if x.toNat < 16 then some (x.setWidth 4) else none
def asQ (x : BitVec 6) : Option QReg := if x.toNat < 8 then some (x.setWidth 3) else none
def asT (x : BitVec 6) : Option THandle := if x.toNat < 24 then some (x.setWidth 5) else none
/-- A private tile handle (R222). -/
def asTp (x : BitVec 6) : Option THandle := if x.toNat < 16 then some (x.setWidth 5) else none

end Sys2Proof.Machine

namespace Sys2Proof

/-! ## Codes -/

def Size.code : Size → BitVec 2 | .b => 0 | .h => 1 | .w => 2 | .d => 3
def Size.ofCode (x : BitVec 2) : Size := match x.toNat with | 0 => .b | 1 => .h | 2 => .w | _ => .d
/-- Bytes of a size (R220). -/
def Size.bytes : Size → Nat | .b => 1 | .h => 2 | .w => 4 | .d => 8

def Scope.code : Scope → BitVec 3 | .hart => 0 | .core => 1 | .cl => 2 | .die => 3 | .pkg => 4 | .sys => 5
/-- R133: codes 6 and 7 name no scope. -/
def Scope.ofCode (x : BitVec 3) : Option Scope :=
  match x.toNat with | 0 => some .hart | 1 => some .core | 2 => some .cl | 3 => some .die | 4 => some .pkg | 5 => some .sys | _ => none

def RMode.code : RMode → BitVec 3 | .rne => 0 | .rtz => 1 | .rdn => 2 | .rup => 3 | .rna => 4 | .dyn => 5
/-- R181: codes 6 and 7 name no mode. -/
def RMode.ofCode (x : BitVec 3) : Option RMode :=
  match x.toNat with | 0 => some .rne | 1 => some .rtz | 2 => some .rdn | 3 => some .rup | 4 => some .rna | 5 => some .dyn | _ => none

def Cond.code : Cond → BitVec 4 | .eq => 0 | .ne => 1 | .lt => 2 | .ge => 3 | .ltu => 4 | .geu => 5
/-- R251: codes from 6 on name no condition. -/
def Cond.ofCode (x : BitVec 4) : Option Cond :=
  match x.toNat with | 0 => some .eq | 1 => some .ne | 2 => some .lt | 3 => some .ge | 4 => some .ltu | 5 => some .geu | _ => none

def PlogOp.code : PlogOp → BitVec 8 | .and => 0 | .or => 1 | .xor => 2 | .andn => 3
def PlogOp.ofCode (x : BitVec 8) : Option PlogOp :=
  match x.toNat with | 0 => some .and | 1 => some .or | 2 => some .xor | 3 => some .andn | _ => none

def AmoOp.code : AmoOp → BitVec 8
  | .add => 0 | .and => 1 | .or => 2 | .xor => 3 | .min => 4 | .max => 5 | .minu => 6 | .maxu => 7 | .swap => 8
def AmoOp.ofCode (x : BitVec 8) : Option AmoOp :=
  match x.toNat with
  | 0 => some .add | 1 => some .and | 2 => some .or | 3 => some .xor | 4 => some .min | 5 => some .max
  | 6 => some .minu | 7 => some .maxu | 8 => some .swap | _ => none

def VType.code : VType → BitVec 4
  | .i8 => 0 | .n8 => 1 | .i16 => 2 | .n16 => 3 | .i32 => 4 | .n32 => 5 | .i64 => 6 | .n64 => 7
  | .bf16 => 8 | .f16 => 9 | .f32 => 10 | .f64 => 11 | .e4m3 => 12 | .e5m2 => 13 | .i4 => 14 | .n4 => 15
def VType.ofCode (x : BitVec 4) : VType :=
  match x.toNat with
  | 0 => .i8 | 1 => .n8 | 2 => .i16 | 3 => .n16 | 4 => .i32 | 5 => .n32 | 6 => .i64 | 7 => .n64
  | 8 => .bf16 | 9 => .f16 | 10 => .f32 | 11 => .f64 | 12 => .e4m3 | 13 => .e5m2 | 14 => .i4 | _ => .n4

def TFmt.code : TFmt → BitVec 4
  | .fp32 => 0 | .bf16 => 1 | .fp16 => 2 | .int16 => 3 | .e4m3 => 4 | .e5m2 => 5 | .e3m4 => 6 | .int8 => 7
  | .uint8 => 8 | .dpt8 => 9 | .e2m1 => 10 | .int4 => 11 | .uint4 => 12 | .spt4 => 13 | .trn2 => 14 | .int2 => 15
def TFmt.ofCode (x : BitVec 4) : TFmt :=
  match x.toNat with
  | 0 => .fp32 | 1 => .bf16 | 2 => .fp16 | 3 => .int16 | 4 => .e4m3 | 5 => .e5m2 | 6 => .e3m4 | 7 => .int8
  | 8 => .uint8 | 9 => .dpt8 | 10 => .e2m1 | 11 => .int4 | 12 => .uint4 | 13 => .spt4 | 14 => .trn2 | _ => .int2

def KFactor.code : KFactor → BitVec 2 | .zero => 0 | .half => 1 | .one => 2
/-- R325: K = 3 is no factor. -/
def KFactor.ofCode (x : BitVec 2) : Option KFactor :=
  match x.toNat with | 0 => some .zero | 1 => some .half | 2 => some .one | _ => none

def FillCode.code : FillCode → BitVec 2 | .posZero => 0 | .negInf => 1 | .posInf => 2 | .reg => 3
def FillCode.ofCode (x : BitVec 2) : FillCode :=
  match x.toNat with | 0 => .posZero | 1 => .negInf | 2 => .posInf | _ => .reg

/-! ## Kinds of element types that rows name -/

/-- Integer types 0x0-0x7 (R299). -/
def VType.int08 (t : VType) : Bool := t.isInt && t.width != 4
/-- Any integer type, the 4-bit ones included (R299). -/
def VType.int4 (t : VType) : Bool := t.isInt
/-- The types of R303. -/
def VType.flt (t : VType) : Bool := !t.isInt
/-- f16, bf16, f32 and f64 (R257). -/
def VType.wide (t : VType) : Bool := t == .bf16 || t == .f16 || t == .f32 || t == .f64
/-- The lane count L (R287). -/
def VType.lanes (t : VType) : Nat := 512 / t.width

/-! ## Guards, hint and priority (R223, R225, R226) -/

/-- The checks on the control fields of a word; `hint` where R225 gives the instruction a cache hint. -/
def Ctl.ok (c : Ctl) (hint : Bool) : Bool :=
  !(c.ga == 0 && c.gan) && !(c.gb == 0 && c.gbn) && c.ch != 7 && (hint || c.ch == 0) && c.pri != 3

/-! ## Control-register numbers (R361) -/

/-- A number that names a control register (R361). -/
def csrNamed (n : Nat) : Bool :=
  n ≤ 0x003 || (0x008 ≤ n && n ≤ 0x00A) || (0x010 ≤ n && n ≤ 0x012) || (0x020 ≤ n && n ≤ 0x027) ||
    (0x100 ≤ n && n ≤ 0x104) || n == 0x110 || n == 0x111 || (0x120 ≤ n && n ≤ 0x14F) || n == 0x150 || n == 0x151

end Sys2Proof
end

