-- ==== Sys2Proof/WellFormed.lean ====
section
/-!
DEFINITION. Which instructions and hardware steps can exist: the operand limits that a word of R227 would break, and
for the hardware steps the ranges of the numbers that name units, lines and messages (R1, R6, R8).
-/

namespace Sys2Proof

/-- An even register number (R270, R276, R350). -/
def evenReg {n : Nat} (r : BitVec n) : Bool := !r.getLsbD 0
/-- A register group of n registers starts at a multiple of n (R288). -/
def aligned {n : Nat} (r : BitVec n) (k : Nat) : Bool := r.toNat % k == 0

/-- A scalar floating-point arithmetic word (R257). -/
def wfF (c : Ctl) (t : VType) : Bool := c.ok false && t.wide
/-- A memory word with a hint; `sg` may not stand with size d (R220). -/
def wfM (c : Ctl) (sz : Size) (sg : Bool) : Bool := c.ok true && !(sg && sz == .d)
/-- Sizes w and d (R268). -/
def wide (sz : Size) : Bool := sz == .w || sz == .d
/-- A widening form: bf16, f16 or f32 into a pair (R303). -/
def wfVw (c : Ctl) (t : VType) (w : Bool) (vd : VReg) : Bool :=
  c.ok false && t.flt && (!w || ((t == .bf16 || t == .f16 || t == .f32) && aligned vd 2))
/-- An integer widening form (R300). -/
def wfIw (c : Ctl) (t : VType) (four w : Bool) (vd : VReg) : Bool :=
  c.ok false && (t.int08 || (four && t.isInt)) && (!w || (t.int08 && t.width != 64 && aligned vd 2))
/-- A shift (R299). -/
def wfShift (c : Ctl) (t : VType) (imm : Bool) (amt : BitVec 6) : Bool :=
  c.ok false && t.int08 && decide (amt.toNat < if imm then t.width else 32)
/-- The handle is private (R222). -/
def THandle.priv (h : THandle) : Bool := decide (h.toNat < 16)
def THandle.ok (h : THandle) : Bool := decide (h.toNat < 24)
/-- The pairs that vwiden takes (R309). -/
def widenPair (t s : VType) : Bool := (t.width == 2 * s.width || t.width == 4 * s.width) && !(t.isInt && s.flt)
/-- The pairs that vcvt takes (R308). -/
def cvtPair (t s : VType) : Bool := t.width == s.width && t.width != 4 && !(t.isInt && s.isInt)

def hartOk (h : Nat) : Bool := decide (h < 4096)
def clusterOk (n : Nat) : Bool := decide (n < 32)
def dieOk (n : Nat) : Bool := decide (n < 4)
def lineOk (n : Nat) : Bool := decide (n < 2 ^ 49)
def stackOk (n : Nat) : Bool := decide (n < 8)
def portOk (n : Nat) : Bool := decide (n < 47)
def devOk (n : Nat) : Bool := decide (n < 16384)
/-- The fields of the header flit fit their widths; only an Attest carries flits of its own, 1 to 16 (R149, R151). -/
def Msg.ok (m : Msg) : Bool :=
  devOk m.dst && devOk m.src && decide (m.code < 256) && decide (m.vc < 8) && decide (m.hops < 16) &&
    decide (m.td < 256) && lineOk m.line && decide (m.seq < 2 ^ 64) && m.aux.all (fun x => decide (x < 2 ^ 64)) &&
    m.port.all portOk &&
    (if m.code = 0x3A then decide (1 ≤ m.body.length ∧ m.body.length ≤ 16 ∧ m.aux.headD 0 ≤ 64 * m.body.length) else m.body.isEmpty)
def LaneEye.ok (e : LaneEye) : Bool := decide (e.lane < 128) && decide (e.width < 256) && decide (e.height < 256)
def HbmReq.ok (r : HbmReq) : Bool := lineOk r.line && decide (r.td < 256) && decide (r.err < 3)
def HwError.ok : HwError → Bool
  | .corrected => true
  | .parity line k way _ => lineOk line && decide (k < 1072) && decide (way < 24)
  | .speculative h => hartOk h
  | .coreLogic h _ => hartOk h
  | .committedLine line k way => lineOk line && decide (k < 560) && decide (way < 24)
  | .committedTile h t => hartOk h && decide (t < 16)
  | .committedShared cl asid n => clusterOk cl && decide (asid < 65536) && decide (n < 8)
  | .committedQc h q => hartOk h && decide (q < 8)
  | .hartRegs h bank n => hartOk h && (match bank with
      | 0 => decide (1 ≤ n ∧ n < 64) | 1 => decide (n < 32) | 2 => decide (1 ≤ n ∧ n < 16) | 3 => csrNamed n | _ => false)
  | .copyPath h => hartOk h
  | .engine cl e => clusterOk cl && decide (e < 4)
  | .cacheWay cl way => clusterOk cl && decide (way < 16)
  | .fatal code => decide (code < 256)

/-- The instruction can stand in a program, or the hardware step in the module. -/
def Instr.wf : Instr → Bool
  | .add c .. | .sub c .. | .mul c .. | .mulh c .. | .mulhu c .. | .madd c .. | .div c .. | .divu c .. | .rem c ..
  | .remu c .. | .and c .. | .or c .. | .xor c .. | .andn c .. | .orn c .. | .sll c .. | .srl c .. | .sra c ..
  | .rol c .. | .ror c .. | .min c .. | .max c .. | .minu c .. | .maxu c .. | .clz c .. | .ctz c .. | .popc c ..
  | .bswap c .. | .sext c .. | .zext c .. | .addsh c .. | .sel c .. | .cmp c .. | .plog c .. => c.ok false
  | .bfx c _ _ _ pos len1 | .bfi c _ _ pos len1 => c.ok false && decide (pos.toNat + len1.toNat + 1 ≤ 64)
  | .fadd c t .. | .fsub c t .. | .fmul c t .. | .fma c t .. | .fdiv c t .. | .fsqrt c t .. | .fmin c t ..
  | .fmax c t .. | .fcmp c t .. => wfF c t
  | .fcvt c t _ s .. => c.ok false && t.width != 4 && s.width != 4 && !(t.isInt && s.isInt)
  | .fclass c t .. => c.ok false && t.flt
  | .addi c .. | .andi c .. | .ori c .. | .xori c .. | .slli c .. | .srli c .. | .srai c .. | .muli c .. | .cmpi c ..
  | .li c .. | .lui c .. | .lpc c .. | .br c .. | .call c .. | .callr c .. | .jr c .. | .ret c .. => c.ok false
  | .ld c _ _ sz sg _ | .ldx c _ _ _ sz sg _ | .lda c _ _ sz sg .. => wfM c sz sg
  | .st c .. | .stx c .. | .strl c .. => c.ok true
  | .ldp c rd _ sz sg _ => wfM c sz sg && wide sz && evenReg rd
  | .stp c rs _ sz _ => c.ok true && wide sz && evenReg rs
  | .prf c .. | .czero c .. | .mst c .. => c.ok true
  | .amo c _ _ _ _ sz sg _ | .cas c _ _ _ _ sz sg _ | .mamo c _ _ _ _ sz sg => wfM c sz sg && wide sz
  | .casp c rd rc rn .. => c.ok true && evenReg rd && evenReg rc && evenReg rn
  | .fence c sc => c.ok false && sc != .sys
  | .sysfence c .. | .cwb c .. | .cinv c .. | .cwbi c .. | .epop c .. | .epeek c .. | .mseq c .. => c.ok false
  | .epush c rs .. => c.ok false && aligned rs 8 && rs != 0
  | .vld c .. | .vst c .. | .vlds c .. | .vsts c .. | .vldx c .. | .vstx c .. | .vldb c .. | .vldf c .. => c.ok true
  | .vldseg c v _ _ k1 _ | .vstseg c v _ _ k1 _ => c.ok true && k1 != 0 && decide (v.toNat + k1.toNat + 1 ≤ 32)
  | .vadd c _ t w vd .. | .vsub c _ t w vd .. => wfIw c t true w vd
  | .vmul c _ t w vd .. => wfIw c t false w vd
  | .vmadd c _ t w vd _ _ vc => wfIw c t false w vd && (!w || aligned vc 2)
  | .vmulh c _ t .. | .vpopc c _ t .. | .vcmp c _ t .. | .vsel c _ t .. | .vredmin c _ t .. | .vredmax c _ t ..
  | .vperm c _ t .. | .vzip c _ t .. | .vunzip c _ t .. | .vcompress c _ t .. | .vexpand c _ t ..
  | .vmask c _ t .. => c.ok false && t.int08
  | .vaddsat c _ t .. | .vsubsat c _ t .. | .vmin c _ t .. | .vmax c _ t .. | .vand c _ t .. | .vor c _ t ..
  | .vxor c _ t .. | .vandn c _ t .. => c.ok false && t.isInt
  | .vabs c _ t .. => c.ok false && t.isSigned
  | .vshl c _ t i _ _ amt | .vshr c _ t i _ _ amt | .vsra c _ t i _ _ amt => wfShift c t i amt
  | .vfadd c _ t _ w vd .. | .vfsub c _ t _ w vd .. | .vfmul c _ t _ w vd .. => wfVw c t w vd
  | .vfma c _ t _ w vd _ _ vc => wfVw c t w vd && (!w || aligned vc 2)
  | .vfdiv c _ t .. | .vfsqrt c _ t .. | .vfmin c _ t .. | .vfmax c _ t .. | .vfcmp c _ t .. | .vfabs c _ t ..
  | .vfneg c _ t .. | .vfredmax c _ t .. => c.ok false && t.flt
  | .vrcp c .. | .vrsqrt c .. | .vexp2 c .. | .vlog2 c .. | .vsin c .. | .vcos c .. | .vtanh c .. => c.ok false
  | .vcvt c _ t _ s .. => c.ok false && cvtPair t s
  | .vwiden c _ t s vd _ => c.ok false && widenPair t s && aligned vd (t.width / s.width)
  | .vnarrow c _ t f s _ va => c.ok false && (s.width == 2 * t.width || s.width == 4 * t.width) &&
      aligned va (s.width / t.width) &&
      (if t.isInt && s.isInt then f &&& 7 == 0 else !f.getLsbD 3 && (RMode.ofCode (f.setWidth 3)).isSome)
  | .vpack c t b .. => c.ok false && (t == .i8 || t == .n8) && b != 3
  | .vunpack c _ t b q .. => c.ok false && (t == .i8 || t == .n8) && b != 3 && decide (q.toNat < 8 / 2 ^ b.toNat)
  | .vredadd c _ t s .. => c.ok false && t.int08 && s.isInt && t.isSigned == s.isSigned && decide (s.width ≤ t.width)
  | .vfredadd c _ t _ s .. => c.ok false && t.wide && s.flt && decide (s.width ≤ t.width)
  | .vscan c _ t m .. => c.ok false && (t.wide || (t.int08 && m == .rne))
  | .vslide c _ t _ _ _ n | .vrot c _ t _ _ n => c.ok false && t.int08 && decide (n.toNat < t.lanes)
  | .vbcast c _ t g _ src n =>
    c.ok false && t.int08 && (if g then n == 0 else decide (src.toNat < 32) && decide (n.toNat < t.lanes))
  | .vins c t _ _ n | .vext c t _ _ n => c.ok false && t.int08 && decide (n.toNat < t.lanes)
  | .vdot4 c _ t s .. => c.ok false && t.isInt && (s == .i8 || s == .n8 || s == .i16 || s == .n16) && t.width == 4 * s.width
  | .vhist c _ t q vg _ => c.ok false && (t == .i32 || t == .n32) && decide (q.toNat ≤ 28) && aligned vg 4
  | .vhmerge c _ _ _ vg => c.ok false && aligned vg 4
  | .vsortk c _ t _ vd _ vi => c.ok false && t.int08 && vd != vi
  | .tcfg c h .. | .tzero c h | .trow c h .. | .trowi c h .. | .trel c h | .tinfo c _ h | .tsave c h _ | .trest c h _ =>
    c.ok false && h.ok
  | .tld c h .. | .tst c h .. | .tldd c h .. | .tstd c h .. => c.ok true && h.ok
  | .tqst c h _ _ _ _ _ f .. => c.ok true && h.ok && f != .fp32
  | .tmma c hc ha hb => c.ok false && hc.priv && ha.ok && hb.ok
  | .tmmat c hc ha hb rf fc _ => c.ok false && hc.priv && ha.ok && hb.ok && (fc == .reg || rf == 0)
  | .tadd c hd ha hb _ => c.ok false && hd.ok && ha.ok && hb.ok
  | .tscale c hd ha .. | .tcvt c hd ha .. | .ttrans c hd ha | .tmov c hd ha => c.ok false && hd.ok && ha.ok
  | .tred c v ha .. => c.ok false && aligned v 4 && ha.ok
  | .qcclr c _ => c.ok false
  | .qcrd c v _ | .qcwr c v _ => c.ok false && aligned v 4
  | .spawn c _ rp _ _ _ pl => c.ok false && evenReg rp && decide (pl.toNat ≤ 4)
  | .spawng c _ rp _ _ _ pl => c.ok false && evenReg rp && decide (pl.toNat ≤ 3)
  | .exit c | .task c .. | .taskw c .. | .waitc c .. | .bara c .. | .barw c .. | .barinit c .. | .uien c ..
  | .ecall c | .ebreak c | .sret c | .mret c | .wfi c | .tlbinv c .. | .tlbinvAs c .. | .tlbinvall c | .slotcfg c ..
  | .chunkbrk c | .halt c => c.ok false
  | .yield c | .uiret c => c.ok false && c.cb
  | .csrr c _ n | .csrw c _ _ n | .csrs c _ _ n | .csrc c _ _ n => c.ok false && csrNamed n.toNat
  | .vsavectx c _ rh v p q o | .vrestctx c _ rh v p q o => c.ok false && (v || p || q) && (o || rh == 0)
  | .copy h d => hartOk h && d.d0.extractLsb' 0 8 == 0x01
  | .copy2d h d => hartOk h && d.d0.extractLsb' 0 8 == 0x02
  | .gather h d => hartOk h && d.d0.extractLsb' 0 8 == 0x03
  | .scatter h d => hartOk h && d.d0.extractLsb' 0 8 == 0x04
  | .fill h d => hartOk h && d.d0.extractLsb' 0 8 == 0x05
  | .rowcopy h d => hartOk h && d.d0.extractLsb' 0 8 == 0x06
  | .rowinit h d => hartOk h && d.d0.extractLsb' 0 8 == 0x07
  | .mcopy h d => hartOk h && d.d0.extractLsb' 0 8 == 0x08
  | .shload h d => hartOk h && d.d0.extractLsb' 0 8 == 0x09
  | .save h d => hartOk h && d.d0.extractLsb' 0 8 == 0x0A
  | .restore h d => hartOk h && d.d0.extractLsb' 0 8 == 0x0B
  | _ => true

/-- A message stands in the argument and is well formed, with the code of its step (R151). -/
def Arg.hasMsg (x : Arg) (code : Nat) : Bool := match x.msg with | some m => m.ok && m.code == code | none => false
/-- A message of the link has arrived, or the step is the module's own at one of its ports. -/
def Arg.linkStep (x : Arg) (code : Nat) : Bool := if x.msg.isSome then x.hasMsg code else portOk x.a
/-- A die and a line; a cluster and a line; a stack. -/
def Arg.dieLine (x : Arg) : Bool := dieOk x.a && lineOk x.b
def Arg.clLine (x : Arg) : Bool := clusterOk x.a && lineOk x.b

/-- The argument of a hardware step names a unit, line or message that the module can have. -/
def stepOk (i : Instr) (x : Arg) : Bool :=
  match i with
  | .rowBlockStep | .chunkPresent | .corniceRecheck | .chunkCommit | .interruptDelivery | .userInterrupt
  | .timecmpMatch | .swintWrite | .wdwinUnbind | .ustatImageWrite | .park | .preempt | .waitEnd
  | .hartRelocate | .tileRename | .pageWalk => hartOk x.a
  | .trapDelivery => hartOk x.a && x.trap.isSome
  | .machineCheck => hartOk x.a && decide (1 ≤ x.b ∧ x.b ≤ 3)
  | .sharedTransferApply | .sfuDequeue | .sfuResult => clusterOk x.a
  | .watchdog => decide (x.a < 64)
  | .wdwinBind => hartOk x.a && decide (x.b < 2 ^ 24)
  | .decodeSelect | .bringIn => decide (x.a < 512)
  | .gangMemberPlace => dieOk x.a && decide (x.b < 16)
  | .readyPoolPlace => dieOk x.a
  | .engineDispatch => match x.op with | some op => hartOk op.hart | none => false
  | .engineOpStart | .engineOpComplete => clusterOk x.a && decide (x.b < 4)
  | .gets | .getm | .upg | .evictm => x.clLine
  | .inv | .fwds | .fwdm | .backinv | .ack | .fwdmiss | .rds | .rdm | .fwdack | .invack | .complete | .wback
  | .data | .datae | .wbdata => x.dieLine
  | .prds => x.hasMsg 0x01
  | .prdm => x.hasMsg 0x02
  | .pwrupd => x.hasMsg 0x03
  | .pwb => x.hasMsg 0x04
  | .fprobe => x.hasMsg 0x05
  | .mreq => x.hasMsg 0x06
  | .pfwds => x.hasMsg 0x11
  | .pfwdm => x.hasMsg 0x12
  | .pinv => x.hasMsg 0x13
  | .pbackinv => x.hasMsg 0x14
  | .mapply => x.hasMsg 0x15
  | .mstate => x.hasMsg 0x16
  | .mresume => x.hasMsg 0x17
  | .pdata => x.hasMsg 0x21
  | .pdatae => x.hasMsg 0x22
  | .pack => x.hasMsg 0x23
  | .pfwdmiss => x.hasMsg 0x24
  | .pwrack => x.hasMsg 0x25
  | .pwback => x.hasMsg 0x26
  | .phold => x.hasMsg 0x27
  | .fecho => x.hasMsg 0x28
  | .mack => x.hasMsg 0x29
  | .mdone => x.hasMsg 0x2A
  | .mstateack => x.hasMsg 0x2B
  | .hbreq => x.hasMsg 0x32
  | .hbans => x.hasMsg 0x33
  | .lostdecl => x.hasMsg 0x34
  | .lostself => x.hasMsg 0x35
  | .messageRelay | .unknownMessageCode => match x.msg with | some m => m.ok | none => false
  | .probeTimeout => hartOk x.a && devOk x.b
  | .groupActivate | .groupReform | .groupDeactivate | .survivorUnreachable => decide (x.a < 64)
  | .heartbeat => x.linkStep 0x31
  | .parkreq => x.hasMsg 0x36
  | .parkack => x.hasMsg 0x37
  | .wakereq => x.hasMsg 0x38
  | .wakeack => x.hasMsg 0x39
  | .attest => x.linkStep 0x3A
  | .flitCrcFail | .heartbeatTimeout | .linkRetrainTimeout | .portIdlePark | .portWake | .wavelengthRejoin => portOk x.a
  | .linkTrain => portOk x.a && devOk x.b && portOk x.c
  | .deviceLostTimeout | .provisioningRequest => devOk x.a
  | .holdResponseTimer | .criticalTempAssert | .selfRefreshEnter | .criticalTempDeassert | .selfRefreshExit
  | .hbmThrottle | .hbmThrottleEnd => stackOk x.a
  | .hbmRequest => stackOk x.a && (match x.req with | some r => r.ok | none => false)
  | .rowIdleClose | .bankRefresh => stackOk x.a && decide (x.b < 4096)
  | .scrubRead => stackOk x.a && decide (x.b < 64) && decide (x.c < 3)
  | .scrubWrite => stackOk x.a && decide (x.b < 64)
  | .marginMeasure | .retrainingHold => stackOk x.a && decide (x.b < 32) && x.eyes.all LaneEye.ok
  | .chstatTrainreq => stackOk x.a && decide (x.b < 32)
  | .hardwareError => match x.err with | some e => e.ok | none => false
  | .fatalError => decide (x.a < 256)
  | .powerTick => decide (x.a < 65536) && x.nums.all (fun t => decide (t < 256)) && decide (x.nums.length = 13)
  | .dieCriticalTemp => decide (x.a < 5)
  | .virtioFeaturesOk | .functionLevelReset => decide (x.a < 4)
  | .virtioConsoleRequest => decide (x.a < 2)
  | .registerWrite => hartOk x.a && decide (x.b < 2 ^ 32) && decide (x.b % 8 = 0)
  | .pairAcknowledgement => devOk x.a && decide (x.b < 4)
  | _ => true

end Sys2Proof
end

