-- ==== Sys2Proof/Decode.lean ====
section
/-!
DEFINITION. The decoder of instruction words and copy-engine commands (R216-R235, R66, R67 and the field tables of the
instruction chapters), total on any bits, and the encoder. A word that decodes to nothing raises ILLEGAL (R227).
-/

namespace Sys2Proof
open Sys2Proof.Machine

/-! ## Pieces of a word -/

/-- The function code F[3:0] and the type F[7:4] of the V form (R219), and the scalar floating forms (R256). -/
def fLow (x : Fields) : BitVec 4 := x.f.extractLsb' 0 4
def fType (x : Fields) : VType := VType.ofCode (x.f.extractLsb' 4 4)
/-- The mode of F[2:0] (R181). -/
def fMode (x : Fields) : Option RMode := RMode.ofCode (x.f.extractLsb' 0 3)
/-- The mask predicate and ZM of E (R219, R292). -/
def eMask (x : Fields) : VMask := ⟨x.e.getLsbD 4, x.e.extractLsb' 0 4⟩
/-- E[5] is reserved in the V form. -/
def vOk (x : Fields) : Bool := !x.e.getLsbD 5
/-- A source type in D[3:0], D[5:4] reserved (R308). -/
def dType (x : Fields) : Option VType := if x.d.extractLsb' 4 2 = 0 then some (VType.ofCode (x.d.extractLsb' 0 4)) else none
/-- The size, signed bit and scope of the C modifier (R220). -/
def cSize (x : Fields) : Size := Size.ofCode (x.c.extractLsb' 0 2)
def cSigned (x : Fields) : Bool := x.c.getLsbD 2
def cScope (x : Fields) : Option Scope := Scope.ofCode (x.c.extractLsb' 3 3)
def cNoScope (x : Fields) : Bool := x.c.extractLsb' 3 3 == 0
def fHandle (x : BitVec 6) : Option THandle := asT x

/-- `some i` when the reserved fields are zero and i is well formed. -/
def ifOk (ok : Bool) (i : Instr) : Option Instr := if ok && i.wf then some i else none

/-- `k` applied to a field of a class, or nothing when the code names no member of it (R218). -/
def withF {α : Type} (o : Option α) (k : α → Option Instr) : Option Instr := match o with | some r => k r | none => none

/-! ## Groups of opcodes (R234) -/

/-- Scalar register forms, 0x001-0x02F (R243-R261). -/
def decodeScalar (x : Fields) : Option Instr :=
  let c := x.ctl
  let z := x.d == 0 && x.e == 0 && x.f == 0
  let zc := x.c == 0 && z
  let de := x.d == 0 && x.e == 0
  let fz := fLow x == 0
  let m3 := !x.f.getLsbD 3
  match x.op.toNat with
  | 0x001 => ifOk z (.add c x.a x.b x.c)
  | 0x002 => ifOk z (.sub c x.a x.b x.c)
  | 0x003 => ifOk z (.mul c x.a x.b x.c)
  | 0x004 => ifOk z (.mulh c x.a x.b x.c)
  | 0x005 => ifOk z (.mulhu c x.a x.b x.c)
  | 0x006 => ifOk (x.e == 0 && x.f == 0) (.madd c x.a x.b x.c x.d)
  | 0x007 => ifOk z (.div c x.a x.b x.c)
  | 0x008 => ifOk z (.divu c x.a x.b x.c)
  | 0x009 => ifOk z (.rem c x.a x.b x.c)
  | 0x00A => ifOk z (.remu c x.a x.b x.c)
  | 0x00B => ifOk z (.and c x.a x.b x.c)
  | 0x00C => ifOk z (.or c x.a x.b x.c)
  | 0x00D => ifOk z (.xor c x.a x.b x.c)
  | 0x00E => ifOk z (.andn c x.a x.b x.c)
  | 0x00F => ifOk z (.orn c x.a x.b x.c)
  | 0x010 => ifOk z (.sll c x.a x.b x.c)
  | 0x011 => ifOk z (.srl c x.a x.b x.c)
  | 0x012 => ifOk z (.sra c x.a x.b x.c)
  | 0x013 => ifOk z (.rol c x.a x.b x.c)
  | 0x014 => ifOk z (.ror c x.a x.b x.c)
  | 0x015 => ifOk z (.min c x.a x.b x.c)
  | 0x016 => ifOk z (.max c x.a x.b x.c)
  | 0x017 => ifOk z (.minu c x.a x.b x.c)
  | 0x018 => ifOk z (.maxu c x.a x.b x.c)
  | 0x019 => ifOk zc (.clz c x.a x.b)
  | 0x01A => ifOk zc (.ctz c x.a x.b)
  | 0x01B => ifOk zc (.popc c x.a x.b)
  | 0x01C => ifOk zc (.bswap c x.a x.b)
  | 0x01D => ifOk (x.c == 0 && de && x.f.extractLsb' 6 2 == 0) (.sext c x.a x.b (x.f.extractLsb' 0 6))
  | 0x01E => ifOk (x.c == 0 && de && x.f.extractLsb' 6 2 == 0) (.zext c x.a x.b (x.f.extractLsb' 0 6))
  | 0x01F => ifOk (x.c &&& 0x3B == 0 && x.f == 0) (.bfx c x.a x.b (cSigned x) x.d x.e)
  | 0x020 => ifOk (x.c == 0 && x.f == 0) (.bfi c x.a x.b x.d x.e)
  | 0x021 => ifOk (de && x.f.extractLsb' 3 5 == 0) (.addsh c x.a x.b x.c (x.f.extractLsb' 0 3))
  | 0x022 => withF (asP x.d) fun pn => ifOk (x.e == 0 && x.f == 0) (.sel c x.a pn x.b x.c)
  | 0x023 => withF (asP x.a) fun pd => withF (Cond.ofCode (fLow x)) fun cc =>
      ifOk (de && x.f.extractLsb' 4 4 == 0) (.cmp c cc pd x.b x.c)
  | 0x024 => withF (asP x.a) fun pd => withF (asP x.b) fun pa => withF (asP x.c) fun pb =>
      withF (PlogOp.ofCode x.f) fun o => ifOk de (.plog c o pd pa pb)
  | 0x025 => withF (fMode x) fun m => ifOk (de && m3) (.fadd c (fType x) m x.a x.b x.c)
  | 0x026 => withF (fMode x) fun m => ifOk (de && m3) (.fsub c (fType x) m x.a x.b x.c)
  | 0x027 => withF (fMode x) fun m => ifOk (de && m3) (.fmul c (fType x) m x.a x.b x.c)
  | 0x028 => withF (fMode x) fun m => ifOk (x.e == 0 && m3) (.fma c (fType x) m x.a x.b x.c x.d)
  | 0x029 => withF (fMode x) fun m => ifOk (de && m3) (.fdiv c (fType x) m x.a x.b x.c)
  | 0x02A => withF (fMode x) fun m => ifOk (x.c == 0 && de && m3) (.fsqrt c (fType x) m x.a x.b)
  | 0x02B => ifOk (de && fz) (.fmin c (fType x) x.a x.b x.c)
  | 0x02C => ifOk (de && fz) (.fmax c (fType x) x.a x.b x.c)
  | 0x02D => withF (asP x.a) fun pd => withF (Cond.ofCode (fLow x)) fun cc => ifOk de (.fcmp c (fType x) cc pd x.b x.c)
  | 0x02E => withF (fMode x) fun m =>
      ifOk (de && m3 && x.c.extractLsb' 4 2 == 0) (.fcvt c (fType x) m (VType.ofCode (x.c.extractLsb' 0 4)) x.a x.b)
  | 0x02F => ifOk (x.c == 0 && de && fz) (.fclass c (fType x) x.a x.b)
  | _ => none

/-- Immediate forms and control flow, 0x080-0x0C4 (R253-R255, R262-R264). -/
def decodeImm (x : Fields) : Option Instr :=
  let c := x.ctl
  let sh := x.c == 0 && x.d == 0 && x.e == 0 && x.f.extractLsb' 6 2 == 0
  let z := x.c == 0 && x.d == 0 && x.e == 0 && x.f == 0
  match x.op.toNat with
  | 0x080 => ifOk true (.addi c x.a x.b x.imm26)
  | 0x081 => ifOk true (.andi c x.a x.b x.imm26)
  | 0x082 => ifOk true (.ori c x.a x.b x.imm26)
  | 0x083 => ifOk true (.xori c x.a x.b x.imm26)
  | 0x084 => ifOk sh (.slli c x.a x.b (x.f.extractLsb' 0 6))
  | 0x085 => ifOk sh (.srli c x.a x.b (x.f.extractLsb' 0 6))
  | 0x086 => ifOk sh (.srai c x.a x.b (x.f.extractLsb' 0 6))
  | 0x087 => ifOk true (.muli c x.a x.b x.imm26)
  | 0x088 => withF (asP x.a) fun pd => withF (Cond.ofCode (fLow x)) fun cc =>
      ifOk (x.f.extractLsb' 4 4 == 0) (.cmpi c cc pd x.b (x.c ++ x.d ++ x.e))
  | 0x089 => ifOk true (.li c x.a x.imm32)
  | 0x08A => ifOk true (.lui c x.a x.imm32)
  | 0x08B => ifOk true (.lpc c x.a x.imm32)
  | 0x0C0 => ifOk true (.br c x.off38)
  | 0x0C1 => ifOk true (.call c x.a x.imm32)
  | 0x0C2 => ifOk z (.callr c x.a x.b)
  | 0x0C3 => ifOk (x.a == 0 && z) (.jr c x.b)
  | 0x0C4 => ifOk (x.a == 0 && z) (.ret c x.b)
  | _ => none

/-- Memory, atomics, fences, engine windows and multicast, 0x100-0x117 (R268). -/
def decodeMem (x : Fields) : Option Instr :=
  let c := x.ctl
  let sz := cSize x
  let sg := cSigned x
  let ns := cNoScope x
  let o := x.off20
  match x.op.toNat with
  | 0x100 => ifOk ns (.ld c x.a x.b sz sg o)
  | 0x101 => ifOk (ns && !sg) (.st c x.a x.b sz o)
  | 0x102 => ifOk (ns && x.e == 0 && x.f.extractLsb' 3 5 == 0) (.ldx c x.a x.b x.d sz sg (x.f.extractLsb' 0 3))
  | 0x103 => ifOk (ns && !sg && x.e == 0 && x.f.extractLsb' 3 5 == 0) (.stx c x.a x.b x.d sz (x.f.extractLsb' 0 3))
  | 0x104 => withF (cScope x) fun sc => ifOk true (.lda c x.a x.b sz sg sc o)
  | 0x105 => withF (cScope x) fun sc => ifOk (!sg) (.strl c x.a x.b sz sc o)
  | 0x106 => ifOk ns (.ldp c x.a x.b sz sg o)
  | 0x107 => ifOk (ns && !sg) (.stp c x.a x.b sz o)
  | 0x108 => ifOk (x.a.extractLsb' 1 5 == 0 && x.c == 0) (.prf c (x.a.getLsbD 0) x.b o)
  | 0x109 => withF (AmoOp.ofCode x.f) fun op => withF (cScope x) fun sc => ifOk (x.e == 0) (.amo c op x.a x.d x.b sz sg sc)
  | 0x10A => withF (cScope x) fun sc => ifOk (x.f == 0) (.cas c x.a x.d x.e x.b sz sg sc)
  | 0x10B => withF (cScope x) fun sc => ifOk (x.f == 0 && !sg && sz == .d) (.casp c x.a x.d x.e x.b sc)
  | 0x10C => withF (cScope x) fun sc => ifOk (x.a == 0 && x.b == 0 && o == 0 && x.c.extractLsb' 0 3 == 0) (.fence c sc)
  | 0x10D => ifOk (x.b == 0 && x.c == 0 && o == 0) (.sysfence c x.a)
  | 0x10E => withF (cScope x) fun sc => ifOk (x.a == 0 && x.c.extractLsb' 0 3 == 0) (.cwb c x.b sc o)
  | 0x10F => withF (cScope x) fun sc => ifOk (x.a == 0 && x.c.extractLsb' 0 3 == 0) (.cinv c x.b sc o)
  | 0x110 => withF (cScope x) fun sc => ifOk (x.a == 0 && x.c.extractLsb' 0 3 == 0) (.cwbi c x.b sc o)
  | 0x111 => ifOk (x.a == 0 && x.c == 0) (.czero c x.b o)
  | 0x112 => ifOk (x.c == 0) (.epush c x.a x.b o)
  | 0x113 => ifOk (x.c == 0) (.epop c x.a x.b o)
  | 0x114 => ifOk (x.c == 0) (.epeek c x.a x.b o)
  | 0x115 => ifOk (ns && !sg) (.mst c x.a x.b sz o)
  | 0x116 => withF (AmoOp.ofCode x.f) fun op => ifOk (ns && x.e == 0) (.mamo c op x.a x.d x.b sz sg)
  | 0x117 => ifOk (x.c == 0 && o == 0) (.mseq c x.a x.b)
  | _ => none

/-- Vector memory, 0x180-0x189 (R292). -/
def decodeVmem (x : Fields) : Option Instr :=
  let c := x.ctl
  let sz := cSize x
  let cz := x.c.extractLsb' 2 4 == 0
  let seg := !x.c.getLsbD 2 && !x.c.getLsbD 5
  let o := x.off20
  withF (asV x.a) fun v =>
  match x.op.toNat with
  | 0x180 => ifOk (x.c == 0) (.vld c v x.b o)
  | 0x181 => ifOk (x.c == 0) (.vst c v x.b o)
  | 0x182 => ifOk (cz && vOk x && x.f == 0) (.vlds c (eMask x) v x.b x.d sz)
  | 0x183 => ifOk (cz && vOk x && !x.e.getLsbD 4 && x.f == 0) (.vsts c (eMask x).mask v x.b x.d sz)
  | 0x184 => withF (asV x.d) fun vi => ifOk (cz && vOk x && x.f.extractLsb' 3 5 == 0) (.vldx c (eMask x) v x.b vi sz (x.f.extractLsb' 0 3))
  | 0x185 => withF (asV x.d) fun vi =>
      ifOk (cz && vOk x && !x.e.getLsbD 4 && x.f.extractLsb' 3 5 == 0) (.vstx c (eMask x).mask v x.b vi sz (x.f.extractLsb' 0 3))
  | 0x186 => ifOk seg (.vldseg c v x.b sz (x.c.extractLsb' 3 2) o)
  | 0x187 => ifOk seg (.vstseg c v x.b sz (x.c.extractLsb' 3 2) o)
  | 0x188 => ifOk cz (.vldb c v x.b sz o)
  | 0x189 => ifOk cz (.vldf c v x.b sz o)
  | _ => none

/-- Vector integer and floating lane instructions and the special functions, 0x1C0-0x1E5 (R299-R306). -/
def decodeVec (x : Fields) : Option Instr :=
  let c := x.ctl
  let m := eMask x
  let t := fType x
  let f := fLow x
  let w := x.f.getLsbD 0
  let w3 := x.f.getLsbD 3
  let fw := x.f.extractLsb' 1 3 == 0
  let dz := x.d == 0 && vOk x
  let cd := x.c == 0 && dz
  let v3 := fun (ok : Bool) (k : VReg → VReg → VReg → Instr) =>
    withF (asV x.a) fun vd => withF (asV x.b) fun va => withF (asV x.c) fun vb => ifOk ok (k vd va vb)
  let v2 := fun (ok : Bool) (k : VReg → VReg → Instr) => withF (asV x.a) fun vd => withF (asV x.b) fun va => ifOk ok (k vd va)
  let sf := fun (k : RMode → VReg → VReg → Instr) => withF (fMode x) fun rm => v2 (cd && t == .f32 && !w3) (k rm)
  match x.op.toNat with
  | 0x1C0 => v3 (dz && fw) (.vadd c m t w)
  | 0x1C1 => v3 (dz && fw) (.vsub c m t w)
  | 0x1C2 => v3 (dz && fw) (.vmul c m t w)
  | 0x1C3 => v3 (dz && f == 0) (.vmulh c m t)
  | 0x1C4 => withF (asV x.d) fun vc => v3 (vOk x && fw) (fun vd va vb => .vmadd c m t w vd va vb vc)
  | 0x1C5 => v3 (dz && f == 0) (.vaddsat c m t)
  | 0x1C6 => v3 (dz && f == 0) (.vsubsat c m t)
  | 0x1C7 => v3 (dz && f == 0) (.vmin c m t)
  | 0x1C8 => v3 (dz && f == 0) (.vmax c m t)
  | 0x1C9 => v2 (cd && f == 0) (.vabs c m t)
  | 0x1CA => v3 (dz && f == 0) (.vand c m t)
  | 0x1CB => v3 (dz && f == 0) (.vor c m t)
  | 0x1CC => v3 (dz && f == 0) (.vxor c m t)
  | 0x1CD => v3 (dz && f == 0) (.vandn c m t)
  | 0x1CE => v2 (dz && fw) (fun vd va => .vshl c m t w vd va x.c)
  | 0x1CF => v2 (dz && fw) (fun vd va => .vshr c m t w vd va x.c)
  | 0x1D0 => v2 (dz && fw) (fun vd va => .vsra c m t w vd va x.c)
  | 0x1D1 => withF (asP x.a) fun pd => withF (asV x.b) fun va => withF (asV x.c) fun vb => withF (Cond.ofCode f) fun cc =>
      ifOk dz (.vcmp c m t cc pd va vb)
  | 0x1D2 => withF (asP x.d) fun pn => v3 (vOk x && f == 0) (.vsel c m t pn)
  | 0x1D3 => v2 (cd && f == 0) (.vpopc c m t)
  | 0x1D4 => withF (fMode x) fun rm => v3 dz (.vfadd c m t rm w3)
  | 0x1D5 => withF (fMode x) fun rm => v3 dz (.vfsub c m t rm w3)
  | 0x1D6 => withF (fMode x) fun rm => v3 dz (.vfmul c m t rm w3)
  | 0x1D7 => withF (fMode x) fun rm => withF (asV x.d) fun vc => v3 (vOk x) (fun vd va vb => .vfma c m t rm w3 vd va vb vc)
  | 0x1D8 => withF (fMode x) fun rm => v3 (dz && !w3) (.vfdiv c m t rm)
  | 0x1D9 => withF (fMode x) fun rm => v2 (cd && !w3) (.vfsqrt c m t rm)
  | 0x1DA => v3 (dz && f == 0) (.vfmin c m t)
  | 0x1DB => v3 (dz && f == 0) (.vfmax c m t)
  | 0x1DC => withF (asP x.a) fun pd => withF (asV x.b) fun va => withF (asV x.c) fun vb => withF (Cond.ofCode f) fun cc =>
      ifOk dz (.vfcmp c m t cc pd va vb)
  | 0x1DD => v2 (cd && f == 0) (.vfabs c m t)
  | 0x1DE => v2 (cd && f == 0) (.vfneg c m t)
  | 0x1DF => sf (.vrcp c m)
  | 0x1E0 => sf (.vrsqrt c m)
  | 0x1E1 => sf (.vexp2 c m)
  | 0x1E2 => sf (.vlog2 c m)
  | 0x1E3 => sf (.vsin c m)
  | 0x1E4 => sf (.vcos c m)
  | 0x1E5 => sf (.vtanh c m)
  | _ => none

/-- Conversion, reduction, permutation and the other vector instructions, 0x1E6-0x1FF (R308-R322). -/
def decodeVec2 (x : Fields) : Option Instr :=
  let c := x.ctl
  let m := eMask x
  let t := fType x
  let f := fLow x
  let w := x.f.getLsbD 0
  let fw := x.f.extractLsb' 1 3 == 0
  let w3 := x.f.getLsbD 3
  let dz := x.d == 0 && vOk x
  let cd := x.c == 0 && dz
  let noZm := vOk x && !x.e.getLsbD 4
  let v3 := fun (ok : Bool) (k : VReg → VReg → VReg → Instr) =>
    withF (asV x.a) fun vd => withF (asV x.b) fun va => withF (asV x.c) fun vb => ifOk ok (k vd va vb)
  let v2 := fun (ok : Bool) (k : VReg → VReg → Instr) => withF (asV x.a) fun vd => withF (asV x.b) fun va => ifOk ok (k vd va)
  match x.op.toNat with
  | 0x1E6 => withF (fMode x) fun rm => withF (dType x) fun s => v2 (x.c == 0 && vOk x && !w3) (.vcvt c m t rm s)
  | 0x1E7 => withF (dType x) fun s => v2 (x.c == 0 && vOk x && f == 0) (.vwiden c m t s)
  | 0x1E8 => withF (dType x) fun s => v2 (x.c == 0 && vOk x) (.vnarrow c m t f s)
  | 0x1E9 => v3 (x.d == 0 && x.e == 0 && x.f.extractLsb' 2 2 == 0) (.vpack c t (x.f.extractLsb' 0 2))
  | 0x1EA => v2 (dz && x.c.extractLsb' 3 3 == 0 && x.f.extractLsb' 2 2 == 0) (.vunpack c m t (x.f.extractLsb' 0 2) (x.c.extractLsb' 0 3))
  | 0x1EB => withF (dType x) fun s => v3 (noZm && f == 0) (.vredadd c m.mask t s)
  | 0x1EC => v3 (dz && noZm && f == 0) (.vredmin c m.mask t)
  | 0x1ED => v3 (dz && noZm && f == 0) (.vredmax c m.mask t)
  | 0x1EE => withF (fMode x) fun rm => withF (dType x) fun s => v3 (noZm && !w3) (.vfredadd c m.mask t rm s)
  | 0x1EF => v3 (dz && noZm && f == 0) (.vfredmax c m.mask t)
  | 0x1F0 => withF (fMode x) fun rm => v3 (dz && !w3) (.vscan c m t rm)
  | 0x1F1 => withF (asV x.d) fun vi => v3 (vOk x && f == 0) (fun vd va vb => .vperm c m t vd va vb vi)
  | 0x1F2 => v3 (vOk x && f == 0) (fun vd va vb => .vslide c m t vd va vb x.d)
  | 0x1F3 => v2 (x.c == 0 && vOk x && f == 0) (fun vd va => .vrot c m t vd va x.d)
  | 0x1F4 => v3 (dz && fw) (.vzip c m t w)
  | 0x1F5 => v3 (dz && fw) (.vunzip c m t w)
  | 0x1F6 => v2 (cd && f == 0) (.vcompress c m t)
  | 0x1F7 => v2 (cd && f == 0) (.vexpand c m t)
  | 0x1F8 => withF (asV x.a) fun vd => ifOk (x.c == 0 && vOk x && fw) (.vbcast c m t w vd x.b x.d)
  | 0x1F9 => withF (asV x.a) fun vd => ifOk (x.c == 0 && x.e == 0 && f == 0) (.vins c t vd x.b x.d)
  | 0x1FA => withF (asV x.b) fun va => ifOk (x.c == 0 && x.e == 0 && f == 0) (.vext c t x.a va x.d)
  | 0x1FB => withF (dType x) fun s => v3 (vOk x && fw) (.vdot4 c m t s w)
  | 0x1FC => v2 (x.c == 0 && noZm && f == 0 && !x.d.getLsbD 5) (.vhist c m.mask t (x.d.extractLsb' 0 5))
  | 0x1FD => v2 (cd && fw && t == .n32) (.vhmerge c m w)
  | 0x1FE => withF (asV x.d) fun vi => v2 (x.c == 0 && vOk x && fw) (fun vd va => .vsortk c m t w vd va vi)
  | 0x1FF => withF (asP x.a) fun pd => withF (asV x.b) fun va => ifOk (cd && fw) (.vmask c m t w pd va)
  | _ => none

/-- Tile instructions, 0x2C0-0x2D6 (R325). -/
def decodeTile (x : Fields) : Option Instr :=
  let c := x.ctl
  let de := x.d == 0 && x.e == 0
  let z := x.c == 0 && de && x.f == 0
  let bz := x.b == 0 && z
  let mz := x.f.extractLsb' 3 5 == 0
  let fd := TFmt.ofCode (x.d.extractLsb' 0 4)
  let ff := TFmt.ofCode (x.f.extractLsb' 0 4)
  match x.op.toNat with
  | 0x2C0 => withF (asT x.a) fun h =>
      ifOk (x.c.extractLsb' 2 4 == 0 && x.d.extractLsb' 4 2 == 0 && x.e == 0 && x.f.extractLsb' 2 6 == 0)
        (.tcfg c h x.b (x.c.extractLsb' 0 2) fd (x.f.getLsbD 0) (x.f.getLsbD 1))
  | 0x2C1 => withF (asT x.a) fun h => ifOk bz (.tzero c h)
  | 0x2C2 => withF (asT x.a) fun h => ifOk (!x.d.getLsbD 5) (.tld c h x.b x.c fd (x.d.getLsbD 4) x.e x.f)
  | 0x2C3 => withF (asT x.a) fun h => ifOk (!x.d.getLsbD 5 && x.f == 0) (.tst c h x.b x.c fd (x.d.getLsbD 4) x.e)
  | 0x2C4 => withF (asT x.a) fun h => ifOk (x.f.extractLsb' 5 3 == 0) (.tldd c h x.b x.c x.d x.e ff (x.f.getLsbD 4))
  | 0x2C5 => withF (asT x.a) fun h => ifOk (x.f.extractLsb' 5 3 == 0) (.tstd c h x.b x.c x.d x.e ff (x.f.getLsbD 4))
  | 0x2C6 => withF (asT x.a) fun h => withF (KFactor.ofCode (x.f.extractLsb' 5 2)) fun k =>
      ifOk (x.d.extractLsb' 4 2 == 0)
        (.tqst c h x.b x.c (x.d.extractLsb' 0 3) (x.d.getLsbD 3) x.e ff (x.f.getLsbD 4) k (x.f.getLsbD 7))
  | 0x2C7 => withF (asTp x.a) fun hc => withF (asT x.b) fun ha => withF (asT x.c) fun hb =>
      ifOk (de && x.f == 0) (.tmma c hc ha hb)
  | 0x2C8 => withF (asTp x.a) fun hc => withF (asT x.b) fun ha => withF (asT x.c) fun hb =>
      ifOk (x.e.extractLsb' 2 4 == 0) (.tmmat c hc ha hb x.d (FillCode.ofCode (x.e.extractLsb' 0 2)) x.f)
  | 0x2C9 => withF (asT x.a) fun hd => withF (asT x.b) fun ha => withF (asT x.c) fun hb => withF (fMode x) fun m =>
      ifOk (de && mz) (.tadd c hd ha hb m)
  | 0x2CA => withF (asT x.a) fun hd => withF (asT x.b) fun ha => withF (fMode x) fun m => ifOk (de && mz) (.tscale c hd ha x.c m)
  | 0x2CB => withF (asT x.a) fun hd => withF (asT x.b) fun ha => withF (fMode x) fun m =>
      ifOk (x.c == 0 && de && x.f.extractLsb' 4 4 == 0) (.tcvt c hd ha m (x.f.getLsbD 3))
  | 0x2CC => withF (asT x.a) fun hd => withF (asT x.b) fun ha => ifOk z (.ttrans c hd ha)
  | 0x2CD => withF (asT x.a) fun hd => withF (asT x.b) fun ha => ifOk z (.tmov c hd ha)
  | 0x2CE => withF (asT x.a) fun h => withF (asV x.b) fun v => ifOk (de && x.f.extractLsb' 1 7 == 0) (.trow c h v x.c (x.f.getLsbD 0))
  | 0x2CF => withF (asT x.a) fun h => withF (asV x.b) fun v =>
      ifOk (x.c == 0 && x.e == 0 && x.f.extractLsb' 1 7 == 0) (.trowi c h v x.d (x.f.getLsbD 0))
  | 0x2D0 => withF (asV x.a) fun v => withF (asT x.b) fun ha => withF (fMode x) fun m =>
      ifOk (x.c == 0 && de && x.f.extractLsb' 5 3 == 0) (.tred c v ha m (x.f.getLsbD 3) (x.f.getLsbD 4))
  | 0x2D1 => withF (asT x.a) fun h => ifOk bz (.trel c h)
  | 0x2D2 => withF (asT x.b) fun h => ifOk z (.tinfo c x.a h)
  | 0x2D3 => withF (asT x.a) fun h => ifOk z (.tsave c h x.b)
  | 0x2D4 => withF (asT x.a) fun h => ifOk z (.trest c h x.b)
  | 0x2D5 => ifOk (x.a == 0 && x.b == 0 && x.c == 0 && de) (.qcclr c x.f)
  | 0x2D6 => withF (asV x.a) fun v => withF (asQ x.b) fun q => ifOk (x.c == 0 && de && x.f.extractLsb' 1 7 == 0)
      (if x.f.getLsbD 0 then .qcwr c v q else .qcrd c v q)
  | _ => none

/-- Thread, task, synchronisation and system instructions, 0x340-0x38F (R350-R366). -/
def decodeSys (x : Fields) : Option Instr :=
  let c := x.ctl
  let z := x.d == 0 && x.e == 0 && x.f == 0
  let cz := x.c == 0 && z
  let all := x.a == 0 && x.b == 0 && cz
  let pl := x.f.extractLsb' 0 3
  let f3 := x.f.extractLsb' 3 5 == 0
  let bar := x.d.extractLsb' 4 2 == 0 && x.c == 0 && x.e == 0 && x.f == 0
  let bn := x.d.extractLsb' 0 4
  let csr := x.imm26.extractLsb' 0 12
  let ci := x.imm26.extractLsb' 12 14 == 0
  match x.op.toNat with
  | 0x340 => ifOk f3 (.spawn c x.a x.b x.c x.d x.e pl)
  | 0x341 => ifOk f3 (.spawng c x.a x.b x.c x.d x.e pl)
  | 0x342 => ifOk all (.exit c)
  | 0x343 => ifOk cz (.task c x.a x.b)
  | 0x344 => ifOk cz (.taskw c x.a x.b)
  | 0x345 => ifOk (x.f == 0) (.waitc c x.a x.b x.c x.d x.e)
  | 0x346 => ifOk (bar && x.b == 0) (.bara c x.a bn)
  | 0x347 => ifOk (bar && x.a == 0) (.barw c x.b bn)
  | 0x348 => ifOk (bar && x.a == 0) (.barinit c x.b bn)
  | 0x349 => ifOk all (.yield c)
  | 0x34A => ifOk all (.uiret c)
  | 0x34B => ifOk (x.a == 0 && x.b == 0 && x.c == 0 && x.d == 0 && x.e == 0 && x.f.extractLsb' 1 7 == 0) (.uien c (x.f.getLsbD 0))
  | 0x380 => ifOk (ci && x.b == 0) (.csrr c x.a csr)
  | 0x381 => ifOk ci (.csrw c x.a x.b csr)
  | 0x382 => ifOk ci (.csrs c x.a x.b csr)
  | 0x383 => ifOk ci (.csrc c x.a x.b csr)
  | 0x384 => ifOk all (.ecall c)
  | 0x385 => ifOk all (.ebreak c)
  | 0x386 => ifOk all (.sret c)
  | 0x387 => ifOk all (.mret c)
  | 0x388 => ifOk all (.wfi c)
  | 0x389 => if x.f.getLsbD 0 then ifOk (x.a == 0 && x.c == 0 && x.d == 0 && x.e == 0 && x.f == 1) (.tlbinvAs c x.b)
      else ifOk (x.a == 0 && z) (.tlbinv c x.b x.c)
  | 0x38A => ifOk all (.tlbinvall c)
  | 0x38B => ifOk z (.slotcfg c x.a x.b x.c)
  | 0x38C => ifOk (x.a == 0 && x.d == 0 && x.e == 0 && x.f.extractLsb' 4 4 == 0)
      (.vsavectx c x.b x.c (x.f.getLsbD 0) (x.f.getLsbD 1) (x.f.getLsbD 2) (x.f.getLsbD 3))
  | 0x38D => ifOk (x.a == 0 && x.d == 0 && x.e == 0 && x.f.extractLsb' 4 4 == 0)
      (.vrestctx c x.b x.c (x.f.getLsbD 0) (x.f.getLsbD 1) (x.f.getLsbD 2) (x.f.getLsbD 3))
  | 0x38E => ifOk all (.chunkbrk c)
  | 0x38F => ifOk all (.halt c)
  | _ => none

/-- The instruction that given fields are, by the group of the opcode (R234). -/
def decodeF (x : Fields) : Option Instr :=
  match x.op.toNat / 64 with
  | 0x0 => decodeScalar x
  | 0x2 | 0x3 => decodeImm x
  | 0x4 => decodeMem x
  | 0x6 => decodeVmem x
  | 0x7 => if x.op.toNat < 0x1E6 then decodeVec x else decodeVec2 x
  | 0xB => decodeTile x
  | 0xD | 0xE => decodeSys x
  | _ => none

/-- The instruction that a word is, or nothing: the word then raises ILLEGAL (R227). -/
def decode (w : Word) : Option Instr := decodeF (unpack w)

/-- The copy-engine command of a hart, by the code in D0[7:0]; nothing for a code that R67 does not list. -/
def decodeCmd (h : Nat) (d : Cmd) : Option Instr :=
  match (d.d0.extractLsb' 0 8).toNat with
  | 0x01 => some (.copy h d)
  | 0x02 => some (.copy2d h d)
  | 0x03 => some (.gather h d)
  | 0x04 => some (.scatter h d)
  | 0x05 => some (.fill h d)
  | 0x06 => some (.rowcopy h d)
  | 0x07 => some (.rowinit h d)
  | 0x08 => some (.mcopy h d)
  | 0x09 => some (.shload h d)
  | 0x0A => some (.save h d)
  | 0x0B => some (.restore h d)
  | _ => none

/-! ## The encoder -/

/-- The V-form E field (R219). -/
def encMask (m : VMask) : BitVec 6 := 0#1 ++ BitVec.ofBool m.zm ++ m.mask
/-- F of the V form: the type and a function code. -/
def encF (t : VType) (f : BitVec 4) : BitVec 8 := t.code ++ f
/-- F[3:0] with a mode in [2:0] and the row's own bit in [3]. -/
def encM (b : Bool) (m : RMode) : BitVec 4 := BitVec.ofBool b ++ m.code
def encBit (b : Bool) : BitVec 4 := 0#3 ++ BitVec.ofBool b
/-- The C modifier (R220). -/
def encC (sz : Size) (sg : Bool) (sc : BitVec 3) : BitVec 6 := sc ++ BitVec.ofBool sg ++ sz.code
/-- A type in D[3:0]. -/
def encT (s : VType) : BitVec 6 := 0#2 ++ s.code

/-- Fields of a word whose C, D, E, F hold a 26-bit value. -/
def fields26 (op : BitVec 10) (c : Ctl) (a b : BitVec 6) (i : BitVec 26) : Fields :=
  ⟨op, c, a, b, i.extractLsb' 20 6, i.extractLsb' 14 6, i.extractLsb' 8 6, i.extractLsb' 0 8⟩
/-- The M form: D, E, F hold the offset (R219). -/
def fieldsM (op : BitVec 10) (c : Ctl) (a b cc : BitVec 6) (o : BitVec 20) : Fields :=
  ⟨op, c, a, b, cc, o.extractLsb' 14 6, o.extractLsb' 8 6, o.extractLsb' 0 8⟩
/-- The L form (R219). -/
def fields32 (op : BitVec 10) (c : Ctl) (a : BitVec 6) (i : BitVec 32) : Fields :=
  ⟨op, c, a, i.extractLsb' 26 6, i.extractLsb' 20 6, i.extractLsb' 14 6, i.extractLsb' 8 6, i.extractLsb' 0 8⟩

def encV (v : VReg) : BitVec 6 := v.setWidth 6
def encP (v : PReg) : BitVec 6 := v.setWidth 6
def encQ (v : QReg) : BitVec 6 := v.setWidth 6
def encH (v : THandle) : BitVec 6 := v.setWidth 6

/-- The fields of an instruction word; the copy-engine commands and the hardware steps have none. -/
def encodeF : Instr → Option Fields
  | .add c a b d => some ⟨0x001, c, a, b, d, 0, 0, 0⟩
  | .sub c a b d => some ⟨0x002, c, a, b, d, 0, 0, 0⟩
  | .mul c a b d => some ⟨0x003, c, a, b, d, 0, 0, 0⟩
  | .mulh c a b d => some ⟨0x004, c, a, b, d, 0, 0, 0⟩
  | .mulhu c a b d => some ⟨0x005, c, a, b, d, 0, 0, 0⟩
  | .madd c a b d e => some ⟨0x006, c, a, b, d, e, 0, 0⟩
  | .div c a b d => some ⟨0x007, c, a, b, d, 0, 0, 0⟩
  | .divu c a b d => some ⟨0x008, c, a, b, d, 0, 0, 0⟩
  | .rem c a b d => some ⟨0x009, c, a, b, d, 0, 0, 0⟩
  | .remu c a b d => some ⟨0x00A, c, a, b, d, 0, 0, 0⟩
  | .and c a b d => some ⟨0x00B, c, a, b, d, 0, 0, 0⟩
  | .or c a b d => some ⟨0x00C, c, a, b, d, 0, 0, 0⟩
  | .xor c a b d => some ⟨0x00D, c, a, b, d, 0, 0, 0⟩
  | .andn c a b d => some ⟨0x00E, c, a, b, d, 0, 0, 0⟩
  | .orn c a b d => some ⟨0x00F, c, a, b, d, 0, 0, 0⟩
  | .sll c a b d => some ⟨0x010, c, a, b, d, 0, 0, 0⟩
  | .srl c a b d => some ⟨0x011, c, a, b, d, 0, 0, 0⟩
  | .sra c a b d => some ⟨0x012, c, a, b, d, 0, 0, 0⟩
  | .rol c a b d => some ⟨0x013, c, a, b, d, 0, 0, 0⟩
  | .ror c a b d => some ⟨0x014, c, a, b, d, 0, 0, 0⟩
  | .min c a b d => some ⟨0x015, c, a, b, d, 0, 0, 0⟩
  | .max c a b d => some ⟨0x016, c, a, b, d, 0, 0, 0⟩
  | .minu c a b d => some ⟨0x017, c, a, b, d, 0, 0, 0⟩
  | .maxu c a b d => some ⟨0x018, c, a, b, d, 0, 0, 0⟩
  | .clz c a b => some ⟨0x019, c, a, b, 0, 0, 0, 0⟩
  | .ctz c a b => some ⟨0x01A, c, a, b, 0, 0, 0, 0⟩
  | .popc c a b => some ⟨0x01B, c, a, b, 0, 0, 0, 0⟩
  | .bswap c a b => some ⟨0x01C, c, a, b, 0, 0, 0, 0⟩
  | .sext c a b n => some ⟨0x01D, c, a, b, 0, 0, 0, n.setWidth 8⟩
  | .zext c a b n => some ⟨0x01E, c, a, b, 0, 0, 0, n.setWidth 8⟩
  | .bfx c a b s p l => some ⟨0x01F, c, a, b, 0#3 ++ BitVec.ofBool s ++ 0#2, p, l, 0⟩
  | .bfi c a b p l => some ⟨0x020, c, a, b, 0, p, l, 0⟩
  | .addsh c a b d n => some ⟨0x021, c, a, b, d, 0, 0, n.setWidth 8⟩
  | .sel c a p b d => some ⟨0x022, c, a, b, d, encP p, 0, 0⟩
  | .cmp c cc p b d => some ⟨0x023, c, encP p, b, d, 0, 0, cc.code.setWidth 8⟩
  | .plog c o p pa pb => some ⟨0x024, c, encP p, encP pa, encP pb, 0, 0, o.code⟩
  | .fadd c t m a b d => some ⟨0x025, c, a, b, d, 0, 0, encF t (encM false m)⟩
  | .fsub c t m a b d => some ⟨0x026, c, a, b, d, 0, 0, encF t (encM false m)⟩
  | .fmul c t m a b d => some ⟨0x027, c, a, b, d, 0, 0, encF t (encM false m)⟩
  | .fma c t m a b d e => some ⟨0x028, c, a, b, d, e, 0, encF t (encM false m)⟩
  | .fdiv c t m a b d => some ⟨0x029, c, a, b, d, 0, 0, encF t (encM false m)⟩
  | .fsqrt c t m a b => some ⟨0x02A, c, a, b, 0, 0, 0, encF t (encM false m)⟩
  | .fmin c t a b d => some ⟨0x02B, c, a, b, d, 0, 0, encF t 0⟩
  | .fmax c t a b d => some ⟨0x02C, c, a, b, d, 0, 0, encF t 0⟩
  | .fcmp c t cc p b d => some ⟨0x02D, c, encP p, b, d, 0, 0, encF t cc.code⟩
  | .fcvt c t m s a b => some ⟨0x02E, c, a, b, encT s, 0, 0, encF t (encM false m)⟩
  | .fclass c t a b => some ⟨0x02F, c, a, b, 0, 0, 0, encF t 0⟩
  | .addi c a b i => some (fields26 0x080 c a b i)
  | .andi c a b i => some (fields26 0x081 c a b i)
  | .ori c a b i => some (fields26 0x082 c a b i)
  | .xori c a b i => some (fields26 0x083 c a b i)
  | .slli c a b n => some ⟨0x084, c, a, b, 0, 0, 0, n.setWidth 8⟩
  | .srli c a b n => some ⟨0x085, c, a, b, 0, 0, 0, n.setWidth 8⟩
  | .srai c a b n => some ⟨0x086, c, a, b, 0, 0, 0, n.setWidth 8⟩
  | .muli c a b i => some (fields26 0x087 c a b i)
  | .cmpi c cc p b i => some ⟨0x088, c, encP p, b, i.extractLsb' 12 6, i.extractLsb' 6 6, i.extractLsb' 0 6, cc.code.setWidth 8⟩
  | .li c a i => some (fields32 0x089 c a i)
  | .lui c a i => some (fields32 0x08A c a i)
  | .lpc c a i => some (fields32 0x08B c a i)
  | .br c o => some (fields32 0x0C0 c (o.extractLsb' 32 6) (o.extractLsb' 0 32))
  | .call c a o => some (fields32 0x0C1 c a o)
  | .callr c a b => some ⟨0x0C2, c, a, b, 0, 0, 0, 0⟩
  | .jr c b => some ⟨0x0C3, c, 0, b, 0, 0, 0, 0⟩
  | .ret c b => some ⟨0x0C4, c, 0, b, 0, 0, 0, 0⟩
  | .ld c a b sz sg o => some (fieldsM 0x100 c a b (encC sz sg 0) o)
  | .st c a b sz o => some (fieldsM 0x101 c a b (encC sz false 0) o)
  | .ldx c a b d sz sg n => some ⟨0x102, c, a, b, encC sz sg 0, d, 0, n.setWidth 8⟩
  | .stx c a b d sz n => some ⟨0x103, c, a, b, encC sz false 0, d, 0, n.setWidth 8⟩
  | .lda c a b sz sg sc o => some (fieldsM 0x104 c a b (encC sz sg sc.code) o)
  | .strl c a b sz sc o => some (fieldsM 0x105 c a b (encC sz false sc.code) o)
  | .ldp c a b sz sg o => some (fieldsM 0x106 c a b (encC sz sg 0) o)
  | .stp c a b sz o => some (fieldsM 0x107 c a b (encC sz false 0) o)
  | .prf c w b o => some (fieldsM 0x108 c (0#5 ++ BitVec.ofBool w) b 0 o)
  | .amo c op a d b sz sg sc => some ⟨0x109, c, a, b, encC sz sg sc.code, d, 0, op.code⟩
  | .cas c a d e b sz sg sc => some ⟨0x10A, c, a, b, encC sz sg sc.code, d, e, 0⟩
  | .casp c a d e b sc => some ⟨0x10B, c, a, b, encC .d false sc.code, d, e, 0⟩
  | .fence c sc => some (fieldsM 0x10C c 0 0 (sc.code ++ 0#3) 0)
  | .sysfence c a => some (fieldsM 0x10D c a 0 0 0)
  | .cwb c b sc o => some (fieldsM 0x10E c 0 b (sc.code ++ 0#3) o)
  | .cinv c b sc o => some (fieldsM 0x10F c 0 b (sc.code ++ 0#3) o)
  | .cwbi c b sc o => some (fieldsM 0x110 c 0 b (sc.code ++ 0#3) o)
  | .czero c b o => some (fieldsM 0x111 c 0 b 0 o)
  | .epush c a b o => some (fieldsM 0x112 c a b 0 o)
  | .epop c a b o => some (fieldsM 0x113 c a b 0 o)
  | .epeek c a b o => some (fieldsM 0x114 c a b 0 o)
  | .mst c a b sz o => some (fieldsM 0x115 c a b (encC sz false 0) o)
  | .mamo c op a d b sz sg => some ⟨0x116, c, a, b, encC sz sg 0, d, 0, op.code⟩
  | .mseq c a b => some ⟨0x117, c, a, b, 0, 0, 0, 0⟩
  | .vld c v b o => some (fieldsM 0x180 c (encV v) b 0 o)
  | .vst c v b o => some (fieldsM 0x181 c (encV v) b 0 o)
  | .vlds c m v b s sz => some ⟨0x182, c, encV v, b, encC sz false 0, s, encMask m, 0⟩
  | .vsts c p v b s sz => some ⟨0x183, c, encV v, b, encC sz false 0, s, encP p, 0⟩
  | .vldx c m v b i sz n => some ⟨0x184, c, encV v, b, encC sz false 0, encV i, encMask m, n.setWidth 8⟩
  | .vstx c p v b i sz n => some ⟨0x185, c, encV v, b, encC sz false 0, encV i, encP p, n.setWidth 8⟩
  | .vldseg c v b sz k o => some (fieldsM 0x186 c (encV v) b (encC sz false (k.setWidth 3)) o)
  | .vstseg c v b sz k o => some (fieldsM 0x187 c (encV v) b (encC sz false (k.setWidth 3)) o)
  | .vldb c v b sz o => some (fieldsM 0x188 c (encV v) b (encC sz false 0) o)
  | .vldf c v b sz o => some (fieldsM 0x189 c (encV v) b (encC sz false 0) o)
  | .vadd c m t w d a b => some ⟨0x1C0, c, encV d, encV a, encV b, 0, encMask m, encF t (encBit w)⟩
  | .vsub c m t w d a b => some ⟨0x1C1, c, encV d, encV a, encV b, 0, encMask m, encF t (encBit w)⟩
  | .vmul c m t w d a b => some ⟨0x1C2, c, encV d, encV a, encV b, 0, encMask m, encF t (encBit w)⟩
  | .vmulh c m t d a b => some ⟨0x1C3, c, encV d, encV a, encV b, 0, encMask m, encF t 0⟩
  | .vmadd c m t w d a b e => some ⟨0x1C4, c, encV d, encV a, encV b, encV e, encMask m, encF t (encBit w)⟩
  | .vaddsat c m t d a b => some ⟨0x1C5, c, encV d, encV a, encV b, 0, encMask m, encF t 0⟩
  | .vsubsat c m t d a b => some ⟨0x1C6, c, encV d, encV a, encV b, 0, encMask m, encF t 0⟩
  | .vmin c m t d a b => some ⟨0x1C7, c, encV d, encV a, encV b, 0, encMask m, encF t 0⟩
  | .vmax c m t d a b => some ⟨0x1C8, c, encV d, encV a, encV b, 0, encMask m, encF t 0⟩
  | .vabs c m t d a => some ⟨0x1C9, c, encV d, encV a, 0, 0, encMask m, encF t 0⟩
  | .vand c m t d a b => some ⟨0x1CA, c, encV d, encV a, encV b, 0, encMask m, encF t 0⟩
  | .vor c m t d a b => some ⟨0x1CB, c, encV d, encV a, encV b, 0, encMask m, encF t 0⟩
  | .vxor c m t d a b => some ⟨0x1CC, c, encV d, encV a, encV b, 0, encMask m, encF t 0⟩
  | .vandn c m t d a b => some ⟨0x1CD, c, encV d, encV a, encV b, 0, encMask m, encF t 0⟩
  | .vshl c m t i d a n => some ⟨0x1CE, c, encV d, encV a, n, 0, encMask m, encF t (encBit i)⟩
  | .vshr c m t i d a n => some ⟨0x1CF, c, encV d, encV a, n, 0, encMask m, encF t (encBit i)⟩
  | .vsra c m t i d a n => some ⟨0x1D0, c, encV d, encV a, n, 0, encMask m, encF t (encBit i)⟩
  | .vcmp c m t cc p a b => some ⟨0x1D1, c, encP p, encV a, encV b, 0, encMask m, encF t cc.code⟩
  | .vsel c m t p d a b => some ⟨0x1D2, c, encV d, encV a, encV b, encP p, encMask m, encF t 0⟩
  | .vpopc c m t d a => some ⟨0x1D3, c, encV d, encV a, 0, 0, encMask m, encF t 0⟩
  | .vfadd c m t r w d a b => some ⟨0x1D4, c, encV d, encV a, encV b, 0, encMask m, encF t (encM w r)⟩
  | .vfsub c m t r w d a b => some ⟨0x1D5, c, encV d, encV a, encV b, 0, encMask m, encF t (encM w r)⟩
  | .vfmul c m t r w d a b => some ⟨0x1D6, c, encV d, encV a, encV b, 0, encMask m, encF t (encM w r)⟩
  | .vfma c m t r w d a b e => some ⟨0x1D7, c, encV d, encV a, encV b, encV e, encMask m, encF t (encM w r)⟩
  | .vfdiv c m t r d a b => some ⟨0x1D8, c, encV d, encV a, encV b, 0, encMask m, encF t (encM false r)⟩
  | .vfsqrt c m t r d a => some ⟨0x1D9, c, encV d, encV a, 0, 0, encMask m, encF t (encM false r)⟩
  | .vfmin c m t d a b => some ⟨0x1DA, c, encV d, encV a, encV b, 0, encMask m, encF t 0⟩
  | .vfmax c m t d a b => some ⟨0x1DB, c, encV d, encV a, encV b, 0, encMask m, encF t 0⟩
  | .vfcmp c m t cc p a b => some ⟨0x1DC, c, encP p, encV a, encV b, 0, encMask m, encF t cc.code⟩
  | .vfabs c m t d a => some ⟨0x1DD, c, encV d, encV a, 0, 0, encMask m, encF t 0⟩
  | .vfneg c m t d a => some ⟨0x1DE, c, encV d, encV a, 0, 0, encMask m, encF t 0⟩
  | .vrcp c m r d a => some ⟨0x1DF, c, encV d, encV a, 0, 0, encMask m, encF .f32 (encM false r)⟩
  | .vrsqrt c m r d a => some ⟨0x1E0, c, encV d, encV a, 0, 0, encMask m, encF .f32 (encM false r)⟩
  | .vexp2 c m r d a => some ⟨0x1E1, c, encV d, encV a, 0, 0, encMask m, encF .f32 (encM false r)⟩
  | .vlog2 c m r d a => some ⟨0x1E2, c, encV d, encV a, 0, 0, encMask m, encF .f32 (encM false r)⟩
  | .vsin c m r d a => some ⟨0x1E3, c, encV d, encV a, 0, 0, encMask m, encF .f32 (encM false r)⟩
  | .vcos c m r d a => some ⟨0x1E4, c, encV d, encV a, 0, 0, encMask m, encF .f32 (encM false r)⟩
  | .vtanh c m r d a => some ⟨0x1E5, c, encV d, encV a, 0, 0, encMask m, encF .f32 (encM false r)⟩
  | .vcvt c m t r s d a => some ⟨0x1E6, c, encV d, encV a, 0, encT s, encMask m, encF t (encM false r)⟩
  | .vwiden c m t s d a => some ⟨0x1E7, c, encV d, encV a, 0, encT s, encMask m, encF t 0⟩
  | .vnarrow c m t f s d a => some ⟨0x1E8, c, encV d, encV a, 0, encT s, encMask m, encF t f⟩
  | .vpack c t b d x y => some ⟨0x1E9, c, encV d, encV x, encV y, 0, 0, encF t (0#2 ++ b)⟩
  | .vunpack c m t b q d a => some ⟨0x1EA, c, encV d, encV a, q.setWidth 6, 0, encMask m, encF t (0#2 ++ b)⟩
  | .vredadd c p t s d a i => some ⟨0x1EB, c, encV d, encV a, encV i, encT s, encP p, encF t 0⟩
  | .vredmin c p t d a i => some ⟨0x1EC, c, encV d, encV a, encV i, 0, encP p, encF t 0⟩
  | .vredmax c p t d a i => some ⟨0x1ED, c, encV d, encV a, encV i, 0, encP p, encF t 0⟩
  | .vfredadd c p t r s d a i => some ⟨0x1EE, c, encV d, encV a, encV i, encT s, encP p, encF t (encM false r)⟩
  | .vfredmax c p t d a i => some ⟨0x1EF, c, encV d, encV a, encV i, 0, encP p, encF t 0⟩
  | .vscan c m t r d a i => some ⟨0x1F0, c, encV d, encV a, encV i, 0, encMask m, encF t (encM false r)⟩
  | .vperm c m t d a b i => some ⟨0x1F1, c, encV d, encV a, encV b, encV i, encMask m, encF t 0⟩
  | .vslide c m t d a b n => some ⟨0x1F2, c, encV d, encV a, encV b, n, encMask m, encF t 0⟩
  | .vrot c m t d a n => some ⟨0x1F3, c, encV d, encV a, 0, n, encMask m, encF t 0⟩
  | .vzip c m t w d a b => some ⟨0x1F4, c, encV d, encV a, encV b, 0, encMask m, encF t (encBit w)⟩
  | .vunzip c m t w d a b => some ⟨0x1F5, c, encV d, encV a, encV b, 0, encMask m, encF t (encBit w)⟩
  | .vcompress c m t d a => some ⟨0x1F6, c, encV d, encV a, 0, 0, encMask m, encF t 0⟩
  | .vexpand c m t d a => some ⟨0x1F7, c, encV d, encV a, 0, 0, encMask m, encF t 0⟩
  | .vbcast c m t g d s n => some ⟨0x1F8, c, encV d, s, 0, n, encMask m, encF t (encBit g)⟩
  | .vins c t d r n => some ⟨0x1F9, c, encV d, r, 0, n, 0, encF t 0⟩
  | .vext c t r a n => some ⟨0x1FA, c, r, encV a, 0, n, 0, encF t 0⟩
  | .vdot4 c m t s w d a b => some ⟨0x1FB, c, encV d, encV a, encV b, encT s, encMask m, encF t (encBit w)⟩
  | .vhist c p t q d a => some ⟨0x1FC, c, encV d, encV a, 0, q.setWidth 6, encP p, encF t 0⟩
  | .vhmerge c m w d a => some ⟨0x1FD, c, encV d, encV a, 0, 0, encMask m, encF .n32 (encBit w)⟩
  | .vsortk c m t w d a i => some ⟨0x1FE, c, encV d, encV a, 0, encV i, encMask m, encF t (encBit w)⟩
  | .vmask c m t w p a => some ⟨0x1FF, c, encP p, encV a, 0, 0, encMask m, encF t (encBit w)⟩
  | .tcfg c h r b f d fo => some ⟨0x2C0, c, encH h, r, b.setWidth 6, f.code.setWidth 6, 0, 0#6 ++ BitVec.ofBool fo ++ BitVec.ofBool d⟩
  | .tzero c h => some ⟨0x2C1, c, encH h, 0, 0, 0, 0, 0⟩
  | .tld c h b s f k n sc => some ⟨0x2C2, c, encH h, b, s, 0#1 ++ BitVec.ofBool k ++ f.code, n, sc⟩
  | .tst c h b s f k n => some ⟨0x2C3, c, encH h, b, s, 0#1 ++ BitVec.ofBool k ++ f.code, n, 0⟩
  | .tldd c h b s d n f k => some ⟨0x2C4, c, encH h, b, s, d, n, 0#3 ++ BitVec.ofBool k ++ f.code⟩
  | .tstd c h b s d n f k => some ⟨0x2C5, c, encH h, b, s, d, n, 0#3 ++ BitVec.ofBool k ++ f.code⟩
  | .tqst c h b s q au e f ax k co => some ⟨0x2C6, c, encH h, b, s, 0#2 ++ BitVec.ofBool au ++ q, e,
      BitVec.ofBool co ++ k.code ++ BitVec.ofBool ax ++ f.code⟩
  | .tmma c hc ha hb => some ⟨0x2C7, c, encH hc, encH ha, encH hb, 0, 0, 0⟩
  | .tmmat c hc ha hb r fc d => some ⟨0x2C8, c, encH hc, encH ha, encH hb, r, fc.code.setWidth 6, d⟩
  | .tadd c hd ha hb m => some ⟨0x2C9, c, encH hd, encH ha, encH hb, 0, 0, m.code.setWidth 8⟩
  | .tscale c hd ha r m => some ⟨0x2CA, c, encH hd, encH ha, r, 0, 0, m.code.setWidth 8⟩
  | .tcvt c hd ha m s => some ⟨0x2CB, c, encH hd, encH ha, 0, 0, 0, 0#4 ++ BitVec.ofBool s ++ m.code⟩
  | .ttrans c hd ha => some ⟨0x2CC, c, encH hd, encH ha, 0, 0, 0, 0⟩
  | .tmov c hd ha => some ⟨0x2CD, c, encH hd, encH ha, 0, 0, 0, 0⟩
  | .trow c h v r d => some ⟨0x2CE, c, encH h, encV v, r, 0, 0, 0#7 ++ BitVec.ofBool d⟩
  | .trowi c h v i d => some ⟨0x2CF, c, encH h, encV v, 0, i, 0, 0#7 ++ BitVec.ofBool d⟩
  | .tred c v ha m mx col => some ⟨0x2D0, c, encV v, encH ha, 0, 0, 0, 0#3 ++ BitVec.ofBool col ++ BitVec.ofBool mx ++ m.code⟩
  | .trel c h => some ⟨0x2D1, c, encH h, 0, 0, 0, 0, 0⟩
  | .tinfo c r h => some ⟨0x2D2, c, r, encH h, 0, 0, 0, 0⟩
  | .tsave c h b => some ⟨0x2D3, c, encH h, b, 0, 0, 0, 0⟩
  | .trest c h b => some ⟨0x2D4, c, encH h, b, 0, 0, 0, 0⟩
  | .qcclr c m => some ⟨0x2D5, c, 0, 0, 0, 0, 0, m⟩
  | .qcrd c v q => some ⟨0x2D6, c, encV v, encQ q, 0, 0, 0, 0⟩
  | .qcwr c v q => some ⟨0x2D6, c, encV v, encQ q, 0, 0, 0, 1⟩
  | .spawn c a b d l h p => some ⟨0x340, c, a, b, d, l, h, p.setWidth 8⟩
  | .spawng c a b d e h p => some ⟨0x341, c, a, b, d, e, h, p.setWidth 8⟩
  | .exit c => some ⟨0x342, c, 0, 0, 0, 0, 0, 0⟩
  | .task c a b => some ⟨0x343, c, a, b, 0, 0, 0, 0⟩
  | .taskw c a b => some ⟨0x344, c, a, b, 0, 0, 0, 0⟩
  | .waitc c r la lb lc ld => some ⟨0x345, c, r, la, lb, lc, ld, 0⟩
  | .bara c a n => some ⟨0x346, c, a, 0, 0, n.setWidth 6, 0, 0⟩
  | .barw c b n => some ⟨0x347, c, 0, b, 0, n.setWidth 6, 0, 0⟩
  | .barinit c b n => some ⟨0x348, c, 0, b, 0, n.setWidth 6, 0, 0⟩
  | .yield c => some ⟨0x349, c, 0, 0, 0, 0, 0, 0⟩
  | .uiret c => some ⟨0x34A, c, 0, 0, 0, 0, 0, 0⟩
  | .uien c v => some ⟨0x34B, c, 0, 0, 0, 0, 0, 0#7 ++ BitVec.ofBool v⟩
  | .csrr c a n => some (fields26 0x380 c a 0 (n.setWidth 26))
  | .csrw c a b n => some (fields26 0x381 c a b (n.setWidth 26))
  | .csrs c a b n => some (fields26 0x382 c a b (n.setWidth 26))
  | .csrc c a b n => some (fields26 0x383 c a b (n.setWidth 26))
  | .ecall c => some ⟨0x384, c, 0, 0, 0, 0, 0, 0⟩
  | .ebreak c => some ⟨0x385, c, 0, 0, 0, 0, 0, 0⟩
  | .sret c => some ⟨0x386, c, 0, 0, 0, 0, 0, 0⟩
  | .mret c => some ⟨0x387, c, 0, 0, 0, 0, 0, 0⟩
  | .wfi c => some ⟨0x388, c, 0, 0, 0, 0, 0, 0⟩
  | .tlbinv c b d => some ⟨0x389, c, 0, b, d, 0, 0, 0⟩
  | .tlbinvAs c b => some ⟨0x389, c, 0, b, 0, 0, 0, 1⟩
  | .tlbinvall c => some ⟨0x38A, c, 0, 0, 0, 0, 0, 0⟩
  | .slotcfg c a b d => some ⟨0x38B, c, a, b, d, 0, 0, 0⟩
  | .vsavectx c b d v p q o => some ⟨0x38C, c, 0, b, d, 0, 0, 0#4 ++ BitVec.ofBool o ++ BitVec.ofBool q ++ BitVec.ofBool p ++ BitVec.ofBool v⟩
  | .vrestctx c b d v p q o => some ⟨0x38D, c, 0, b, d, 0, 0, 0#4 ++ BitVec.ofBool o ++ BitVec.ofBool q ++ BitVec.ofBool p ++ BitVec.ofBool v⟩
  | .chunkbrk c => some ⟨0x38E, c, 0, 0, 0, 0, 0, 0⟩
  | .halt c => some ⟨0x38F, c, 0, 0, 0, 0, 0, 0⟩
  | _ => none

/-- The words of an instruction, the first at the lowest address: one for an instruction word, eight for a copy-engine
command, none for a hardware step, which no word encodes. -/
def encode (i : Instr) : List Word :=
  match i with
  | .copy _ d | .copy2d _ d | .gather _ d | .scatter _ d | .fill _ d | .rowcopy _ d | .rowinit _ d | .mcopy _ d
  | .shload _ d | .save _ d | .restore _ d => [d.d0, d.d1, d.d2, d.d3, d.d4, d.d5, d.d6, d.d7]
  | i => match encodeF i with | some x => [pack x] | none => []

/-- The double words of 512 bits, lowest first (R66). -/
def Cmd.ofNat (w : Nat) : Cmd where
  d0 := BitVec.ofNat 64 w
  d1 := BitVec.ofNat 64 (w >>> 64)
  d2 := BitVec.ofNat 64 (w >>> 128)
  d3 := BitVec.ofNat 64 (w >>> 192)
  d4 := BitVec.ofNat 64 (w >>> 256)
  d5 := BitVec.ofNat 64 (w >>> 320)
  d6 := BitVec.ofNat 64 (w >>> 384)
  d7 := BitVec.ofNat 64 (w >>> 448)

/-- The instruction that the decoder reads from bits numbered as the opcode table numbers them: 64 of them are an
instruction word, more than 64 a copy-engine command of hart 0. -/
def decodeTableWord (nbits w : Nat) : Option Instr :=
  if nbits ≤ 64 then decode (BitVec.ofNat 64 (w % 2 ^ nbits)) else decodeCmd 0 (Cmd.ofNat (w % 2 ^ nbits))

end Sys2Proof
end

