-- ==== Sys2Proof/Config.lean ====
section
/-!
DEFINITION. What the manual leaves open, as constants without a body: nothing can evaluate them or prove a
value of them. A free value of a register or a byte is one of these applied to a counter that State holds
(assumption log, entries 10, 14); the device's keys and digests are uninterpreted (entry 13).
-/

namespace Sys2Proof.Config

/-- The unspecified value of a 64-bit register (R231, R400, R285); the argument is the free-value counter. -/
opaque freeWord : Nat → Word
/-- The unspecified value of a vector register (R231, R400). -/
opaque freeVec : Nat → Vec
/-- An unspecified byte of memory (R12, R69). -/
opaque freeByte : Nat → Byte
/-- The secret key of the device's identity, and the alias key derived for a booted image (R417). -/
opaque deviceKey : List Byte
opaque aliasKey : BitVec 512 → List Byte

/-- The fields of a boot manifest, whose layout the manual does not give: version, rollback floor, image size, entry
offset, image digest, key, signature, and the bytes that are signed (R414; assumption log, entry 20). -/
opaque manifestVersion : List Byte → Nat
opaque manifestFloor : List Byte → Nat
opaque manifestSize : List Byte → Nat
opaque manifestEntry : List Byte → Nat
opaque manifestDigest : List Byte → BitVec 512
opaque manifestKey : List Byte → List Byte
opaque manifestSignature : List Byte → List Byte
opaque manifestSigned : List Byte → List Byte
/-- The digests of the boot ROM and of the fused configuration (R417). -/
opaque romDigest : BitVec 512
opaque fuseDigest : Nat → BitVec 512
/-- The address of the net function, and the size of the console (R418). -/
opaque macAddress : Nat
opaque consoleSize : Nat
/-- A requester key digest that Celowell has provisioned (R417). -/
opaque requesterProvisioned : BitVec 512 → Bool
/-- An identity key that the maker's certificates vouch for (R148, R417). -/
opaque moduleKey : List Byte → Bool
/-- The messages by which a requester and the security processor have agreed on version, capabilities and algorithms (R417). -/
opaque negotiated : List Byte
/-- The secret number of a key exchange, by the free-value counter (R417). -/
opaque exchangeSecret : Nat → Nat

/-- The bit that hash k gives a line in a chunk signature, modulo 2,048 (R123: "fixed hashes" that the manual does not
give). -/
opaque sigHash : Nat → Nat → Nat

/-- Cores that implement the vector FP64 feature, by core number (R2, R201: "1 if implemented"). -/
opaque coreHasVF64 : Nat → Bool

/-- Dragonfly groups of the domain (R147: 512 in a full domain, fewer in a smaller one; assumption log, entry 34). -/
opaque domainGroups : Nat

/-- Device ids of the domain that a module carries (R159, R160). -/
opaque carried : Nat → Bool
/-- What a module learns of the links of others: whether the link of a port of a device is up at a time, since when it has
been down, and how many flits wait at the port (R152, R154, R159; assumption log, entry 48). -/
opaque farLink : Nat → Nat → Nat → Bool
opaque farDown : Nat → Nat → Nat → Nat
opaque farDepth : Nat → Nat → Nat → Nat
/-- A byte of another module's memory at a cycle, where a table of this module that the spec places by a physical address
lies there (R161, R165; assumption log, entry 69). -/
opaque farByte : Nat → Nat → Byte
/-- Whether a virtual channel of a link has credit at a cycle (R150). -/
opaque linkCredit : Nat → Nat → Nat → Bool

end Sys2Proof.Config
end

