-- ==== Sys2Proof/Machine/Tab.lean ====
section
/-!
DEFINITION. Sparse tables: the one representation of every collection by number that the machine holds.
A table lists (key, value) pairs with keys strictly rising and no pair whose value is what an unlisted
key reads as; equal tables are then equal data.
-/

namespace Sys2Proof.Machine

/-- A sparse table of values by number. What an unlisted key reads as is an argument of the operations. -/
abbrev Tab (α : Type) := List (Nat × α)

/-- The value at a key; `d` where the key is not listed. -/
def tabGet {α : Type} (d : α) : Tab α → Nat → α
  | [], _ => d
  | (k, v) :: t, i => if i = k then v else if i < k then d else tabGet d t i

/-- The table without a key. -/
def tabErase {α : Type} : Tab α → Nat → Tab α
  | [], _ => []
  | (k, v) :: t, i => if i = k then t else if i < k then (k, v) :: t else (k, v) :: tabErase t i

/-- The table with a pair put in, whatever its value. -/
def tabInsert {α : Type} : Tab α → Nat → α → Tab α
  | [], i, x => [(i, x)]
  | (k, v) :: t, i, x =>
    if i = k then (k, x) :: t else if i < k then (i, x) :: (k, v) :: t else (k, v) :: tabInsert t i x

/-- The table with the value of a key replaced, in canonical form. -/
def tabPut {α : Type} [DecidableEq α] (d : α) (t : Tab α) (i : Nat) (x : α) : Tab α :=
  if x = d then tabErase t i else tabInsert t i x

/-- The value at a key changed by a function. -/
def tabMod {α : Type} [DecidableEq α] (d : α) (t : Tab α) (i : Nat) (f : α → α) : Tab α :=
  tabPut d t i (f (tabGet d t i))

/-- Every listed value changed by a function, in canonical form. -/
def tabMap {α : Type} [DecidableEq α] (d : α) (f : Nat → α → α) (t : Tab α) : Tab α :=
  (t.map fun p => (p.1, f p.1 p.2)).filter fun p => p.2 ≠ d

/-- Keys rise strictly, all above `lo`, and no listed value is the default. -/
def tabWfFrom {α : Type} [DecidableEq α] (d : α) : Option Nat → Tab α → Bool
  | _, [] => true
  | lo, (k, v) :: t =>
    (match lo with | none => true | some l => decide (l < k)) && decide (v ≠ d) && tabWfFrom d (some k) t

/-- The canonical form of a table. -/
def tabWf {α : Type} [DecidableEq α] (d : α) (t : Tab α) : Bool := tabWfFrom d none t

/-- The keys of a table. -/
def tabKeys {α : Type} (t : Tab α) : List Nat := t.map (·.1)

/-- A sorted list of numbers without repeats, with one put in. -/
def setInsert : List Nat → Nat → List Nat
  | [], i => [i]
  | k :: t, i => if i = k then k :: t else if i < k then i :: k :: t else k :: setInsert t i

/-- Memory: bytes by physical address (R8, R22), in the canonical form of a table. -/
abbrev Memory := List (Nat × BitVec 8)

/-- What an address that nothing has written reads as (assumption log, entry 1). -/
def memDefault : BitVec 8 := 0

/-- One byte of memory. -/
def readByte (m : Memory) (a : Nat) : BitVec 8 := tabGet memDefault m a

/-- Memory with one byte written. -/
def writeByte (m : Memory) (a : Nat) (b : BitVec 8) : Memory := tabPut memDefault m a b

/-- The n bytes at a as an unsigned little-endian integer (R7). -/
def readBytes (m : Memory) (a : Nat) : Nat → Nat
  | 0 => 0
  | n + 1 => (readByte m a).toNat + 256 * readBytes m (a + 1) n

/-- Memory with the n low bytes of x written at a, lowest first (R7). -/
def writeBytes (m : Memory) (a : Nat) : Nat → Nat → Memory
  | 0, _ => m
  | n + 1, x => writeBytes (writeByte m a (BitVec.ofNat 8 x)) (a + 1) n (x / 256)

/-- The canonical form of a memory. -/
def Memory.wf (m : Memory) : Bool := tabWf memDefault m

end Sys2Proof.Machine
end

