-- ==== Sys2Proof/Machine/State.lean ====
section
/-!
DEFINITION. The state of one module as plain data, and the state right after reset. Each field's comment names the
rule that gives it; INVENTORY.md lists them with their reset values.
-/

namespace Sys2Proof.Machine

/-- Privilege modes (R199). -/
inductive Mode | u | s | m
  deriving DecidableEq, Repr

/-- What the header that a hart must fetch next has to be (R203, R229, R230, R359, R392). -/
inductive HdrNeed
  | any          -- falling off a block: any header
  | entry        -- a created hart, uvec: ENTRY = 1
  | badEntry (low : Nat) -- a created hart whose entry point has these bits [2:0], not all zero
  | sHandler     -- the S-mode handler: ENTRY = 1, else MACHINE_CHECK of kind 3
  | mHandler     -- the M-mode handler: ENTRY = 1, else the hart leaves its slot
  deriving DecidableEq, Repr

/-- Where a hart stands with respect to blocks (R229, R233). -/
inductive Blk
  | header (need : HdrNeed)
  | body (fin : Nat) (glive : BitVec 16) (vlive : BitVec 8)
  | resumed      -- entered by a return; the extent is not known
  deriving DecidableEq, Repr

/-- A row of a tile, at most 256 bytes, byte 0 in the lowest bits (R55). -/
abbrev TRow := BitVec 2048

/-- A tile: row bytes, format, described or not, scale, poison, the rows and, for a described tile, one descriptor per
64-byte block in the order of R190 (R55, R326). -/
structure Tile where
  rb : Nat
  fmt : TFmt
  desc : Bool
  scale : BitVec 8
  poison : Bool
  data : List TRow
  descs : List (BitVec 16)
  deriving DecidableEq, Repr

/-- A residue register: 64 FP32 lanes and its poison mark (R53, R194). -/
structure QcReg where
  lanes : BitVec 2048
  poison : Bool
  deriving DecidableEq, Repr

/-- The state of a hart that a squash restores (R126) and that a trap observes (R200, R214). -/
structure Arch where
  pc : Word
  iw : Word                        -- the word being executed (for htval, R385)
  mode : Mode
  blk : Blk
  g : Vector Word 64
  shadow : Vector Word 8           -- the set of g56-g63 not currently named (R359, R393)
  v : Vector Vec 32
  p : Vector Word 16
  tiles : Tab (Option Tile)        -- t0-t15
  phys : Tab Nat                   -- the physical tiles that they name (R56)
  qc : Vector QcReg 8
  qgen : Vector Nat 8              -- how often each residue register has been written (R52)
  fcsr : Word
  vcsr : Word
  fstat : Word
  short : Bool
  uvec : Word
  uepc : Word
  uie : Bool
  inh : Bool
  hreq : Word
  gid : Vector Nat 3
  gext : Vector Nat 3
  partLo : Nat
  partLen : Nat
  hstat : Word                     -- the RW fields; pending bits are computed (R392)
  hcause : Word
  hepc : Word
  htval : Word
  htrow : Word
  resume : Bool                    -- returned by SRET or MRET: the next instruction consumes htrow.V (R331)
  asid : Nat
  ptroot : Word
  ncbase : Vector Word 16
  nclim : Vector Word 16
  ncattr : Vector Word 16
  sbank : Vector Word 4
  mbank : Vector Word 4
  mrec : Vector Word 5             -- hstat, hcause, hepc, htval, htrow (R393)
  ras : List Word                  -- return-address predictor, at most 16 (R265)
  deriving DecidableEq, Repr

/-- Effects that a chunk's members leave to its commit (R61, R62, R125, R284). -/
inductive CommitOp
  | shWrite (cl key ver : Nat) (t : Tile)
  | shStep (cl key ver : Nat) (t : Option Tile)
  | mst (grp off : Nat) (mask : LineMask) (data : LineData) (op size : Nat)
  | touch (dev : Nat)
  | atom (pa : Nat)                -- an atomic's operand, for the nodes that wait for it (R211)
  | poison (line : Nat)            -- a line that a poisoned tile was saved to (R346)
  | engine (op : EngOp)            -- an engine operation, removed by a squash (R379)
  | rename (units : Nat)           -- a new mapping taken from the rename reserve until its writer retires (R56, R57)
  deriving DecidableEq, Repr

/-- A chunk as it stood before a member that works in an engine, with the engine operation of that member: where an
interrupt or parking truncates the chunk when the operation has not begun (R121, R371, R394). -/
structure Cut where
  op : EngOp
  arch : Arch
  count : Nat
  reads : List Nat
  writes : List Nat
  bytes : Tab (LineMask × LineData)
  cleared : List Nat
  tlines : List Nat
  trans : List (Nat × Nat)
  shReads : List (Nat × Nat × Bool)
  ncs : List (Nat × Nat × Nat)
  mseqs : List (Nat × Nat)
  ops : List CommitOp
  deriving DecidableEq, Repr

/-- A chunk (R118, R123, R126). -/
structure Chunk where
  save : Arch                      -- the state before its first member
  count : Nat
  reads : List Nat                 -- lines read
  writes : List Nat                -- lines written
  bytes : Tab (LineMask × LineData) -- speculative bytes: by line, which bytes and their values
  cleared : List Nat               -- lines written whole by one instruction (R53)
  tlines : List Nat                -- lines written by tile stores, which the cluster cache holds (R49)
  trans : List (Nat × Nat)         -- (ASID, virtual page) of each translation used (R41)
  shReads : List (Nat × Nat × Bool) -- (cluster, key, contents read) of shared handles read or checked (R62, R63, R423)
  ncs : List (Nat × Nat × Nat)     -- written lines of non-coherent ranges: the level they write, the cache hint (R50, R135)
  mseqs : List (Nat × Nat)         -- (group entry, APPLIED) read by mseq (R286)
  ops : List CommitOp
  cuts : List Cut
  deriving DecidableEq, Repr

/-- Slot states (R197). -/
inductive Slot | free | issuing | ready | waiting
  deriving DecidableEq, Repr

/-- What ends a long miss (R370). -/
inductive Await
  | line (l : Nat)                                 -- the data of a line that its cluster has asked for
  | held (l : Nat)                                 -- the stack of a line, which a hold keeps (R92, R94)
  | walk                                           -- a walk for the hart (R39)
  | past (l : Nat)                                 -- a read of another home past the caches (R155)
  | echo                                           -- the system drain (R140, R279)
  | acks (salvage : Bool)                          -- acknowledgements of stores and write-backs, or of the salvage ring too
  | mamo                                           -- the answer of a MAMO (R285)
  deriving DecidableEq, Repr

/-- Why a hart is stalled (R370). -/
inductive Stall
  | counter (lim : List Nat) (ctr : Option (Nat × Option Nat)) -- WAITC: limits, physical address of the counter word and level of its range
  | barrier (b tok : Nat)
  | fifoFree
  | fifoRecord
  | miss (on : Await)
  | irq
  | sfu                                            -- the special-function unit (R74)
  | commit                                         -- its own chunk has not been admitted
  | inv                                            -- a TLB invalidation (R41)
  | exit                                           -- EXIT: its counters are not zero (R212)
  deriving DecidableEq, Repr

/-- A cached leaf translation (R37). -/
structure TlbEnt where
  asid : Nat
  page : Nat                       -- virtual address of the page's first byte
  bits : Nat                       -- log2 of the page size
  pte : Nat
  pteAddr : Nat
  deriving DecidableEq, Repr

/-- What a walk answered to an instruction or a command that waited for it: a leaf, or the code of its fault (R39). -/
structure Walked where
  asid : Nat
  root : Word
  page : Nat                       -- number of the 4 KiB page that was walked
  leaf : Option TlbEnt
  code : Nat
  deriving DecidableEq, Repr

/-- A command delivered to the copy engine, with what the engine records of its pusher (R69). -/
structure FifoCmd where
  cmd : Cmd
  asid : Nat
  mode : Mode
  ptroot : Word
  fin : Option (Nat × Nat)         -- status and count, once decided
  prog : Nat                       -- what has been performed: bytes, row blocks or lines (R69, R72, R86)
  rows : List TRow                 -- rows that a SHLOAD has read (R69)
  held : Bool                      -- it waits for another module, a transfer or a walk
  posted : List (Nat × Nat × Bool) -- peer lines written whose homes have not acknowledged: line, bytes before the write, sent (R69, R70)
  walked : List Walked             -- answers of walks that the piece under way has waited for (R39)
  retried : Bool                   -- performed again after a data-path error (R400)
  deriving DecidableEq, Repr

/-- A command as it is pushed. -/
def FifoCmd.new (d : Cmd) (asid : Nat) (mode : Mode) (root : Word) : FifoCmd := ⟨d, asid, mode, root, none, 0, [], false, [], [], false⟩

/-- The command and completion FIFOs of a hart (R64). -/
structure Fifo where
  cmds : List FifoCmd
  recs : List Word
  deriving DecidableEq, Repr

/-- A system drain under way (R140): the lines whose posted bytes still wait behind an update, the homes to probe, the
probes awaited as (request id, home), the homes lost so far, and whether every probe has been sent. -/
structure Drain where
  late : List Nat
  homes : List Nat
  probes : List (Nat × Nat)
  lost : List Nat
  sent : Bool
  deriving DecidableEq, Repr

/-- A hart slot and the hart it holds (R197, R200). -/
structure Hart where
  arch : Arch
  slot : Slot
  prio : Nat
  cc : Word
  chunk : Chunk
  inflight : List Chunk            -- ended chunks not yet committed, oldest first
  sq : Nat
  solo : Bool
  soloCount : Nat                  -- solo mode: members of the squashed chunk that have committed (R130)
  soloLines : List Nat             -- and the lines that they have written
  leave : Option Bool              -- it leaves its issue position once its chunk has committed; as a Ready hart or a waiting one
  due : Option TrapRec             -- a trap whose truncated chunk has not committed yet (R121, R390)
  uip : Bool
  wdp : Option Nat                 -- WDP, with the ASID of the unit that fired (R385, R398)
  mck : List Nat                   -- pending MACHINE_CHECKs: their kinds, oldest first (R404)
  mckOld : Nat                     -- old hart id of a kind-1 MACHINE_CHECK
  stall : Option Stall
  stallAt : Nat
  readyAt : Nat
  issuedAt : Nat
  starve : Nat                     -- cycles as a candidate not chosen (R369)
  fifo : Fifo
  tileCnt : Nat
  postedCnt : Nat
  mcastCnt : Nat
  touched : List Nat               -- touched-device set (R139)
  groupMask : List Nat             -- dragonfly groups whose mask bit is set (R139)
  drain : Option Drain
  mamo : Option (Nat × Option Word)    -- request id, old value once applied (R285)
  timecmp : Nat
  swint : Bool
  walked : List Walked             -- answers of walks that the instruction under way has waited for (R39)
  got : List (Nat × LineData × Bool) -- lines of other homes that it has read past the caches, with their poison (R155)
  sfu : Option Bool                -- a request to the special-function unit: none, waiting, its result has returned (R74)
  begun : Bool                     -- its instruction has made its write-backs and waits for their answers (R280)
  ncWait : List Nat                -- requests by which its non-coherent stores and write-backs reach other homes (R134, R135)
  deriving DecidableEq, Repr

/-- A way of a cache that holds a line; the sets list their ways most recently used first (R47, R50). -/
structure Way where
  line : Nat
  kept : Option Nat                -- keep or persist mark, with the cycle at which it was set (R50)
  hint : Nat                       -- the hint under which it was brought there, for its eviction to the LLC (R50)
  deriving DecidableEq, Repr

/-- A copy of a line of a non-coherent range at L1 or cluster level (R135). -/
structure NcLine where
  line : Nat
  data : LineData
  dirty : LineMask
  deriving DecidableEq, Repr

/-- A core (R1, R201). -/
structure Core where
  retired : Bool
  lastErr : Option Nat
  tlb1 : List TlbEnt               -- first-level TLB, at most 128 entries, oldest first (R37)
  tlb2 : Tab (List TlbEnt)         -- second-level TLB by set, at most 8 entries each, oldest first (R37)
  l1i : Tab (List Way)             -- L1 instruction cache by set (R47)
  l1d : Tab (List Way)             -- L1 data cache by set (R47)
  ncl1 : List NcLine
  chosen : Option Nat              -- the hart that decoded last (R369)
  switchUntil : Nat
  deriving DecidableEq, Repr

/-- A hardware barrier (R355). -/
structure Barrier where
  owner : Nat
  n : Nat
  arr : Nat
  gen : Nat
  deriving DecidableEq, Repr

/-- A shared handle with the number of TCFG and TREL steps and transfers applied to it (R60, R423). -/
structure ShTile where
  tile : Option Tile
  steps : Nat
  writes : Nat
  deriving DecidableEq, Repr

/-- A pending step of a shared handle: a transfer, or a TCFG or TREL (R61, R62). -/
structure Transfer where
  hart : Nat
  key : Nat
  ver : Nat
  step : Bool                      -- a TCFG or TREL step
  tile : Option Tile
  cmd : Bool                       -- from a SHLOAD command
  deriving DecidableEq, Repr

/-- A queued engine operation with its age stamp (R378). -/
structure QOp where
  op : EngOp
  age : Nat
  deriving DecidableEq, Repr

/-- A slot-table entry (R380). -/
structure SlotEnt where
  own : Bool
  asid : Nat
  deriving DecidableEq, Repr

/-- A tile engine (R378-R381). -/
structure Engine where
  queue : List QOp
  run : Option (QOp × Nat)         -- running operation and the cycle it ends
  slots : Tab SlotEnt
  past : Option (Nat × SlotEnt)    -- a 128-cycle period, and the entry that governs it though it has been written (R365)
  lend : Nat
  latch : Option Nat               -- the physical tile that the accumulator latch holds (R378)
  retired : Bool
  lastErr : Option Nat
  deriving DecidableEq, Repr

/-- What an access may do in the module control region (R422): nothing, a double-word load or store, or it makes no
access there at all. -/
inductive CtlUse | refused | allowed | noAccess
  deriving DecidableEq, Repr

/-- A request for a walk: whose access it is, a hart's or that of a command of the hart, the address as the access names it
and as it is walked, and the harts and commands that wait for the same leaf (R39). -/
structure WalkReq where
  hart : Nat
  cmd : Bool
  mode : Mode
  asid : Nat
  root : Word
  kind : AccKind
  ctl : CtlUse
  addr : Word
  va : Nat
  joined : List Nat
  cmds : List Nat                  -- the harts whose commands have joined
  deriving DecidableEq, Repr

/-- A page-table entry in a walk cache: its address, its level and its value (R37). -/
structure WalkEnt where
  pa : Nat
  lvl : Nat
  val : Nat
  deriving DecidableEq, Repr

/-- A private mapping that TREL has given up and that older operations may work on yet (R59). -/
structure Left where
  hart : Nat
  handle : Nat
  phys : Nat
  units : Nat
  ops : List EngOp                 -- the operations that read or write it
  deriving DecidableEq, Repr

/-- A cluster (R1). -/
structure Cluster where
  shared : Tab ShTile              -- by 8 * ASID + handle number
  transfers : List Transfer
  renames : List (Nat × Nat)       -- (hart, units) taken from the rename reserve (R57)
  bars : Tab Barrier
  engines : Tab Engine
  age : Nat
  left : List Left                 -- given-up mappings, whose units return when their operations complete (R59)
  undispatched : List EngOp
  derived : List (Nat × Nat)       -- a physical tile that TMOV or TROW made, and one still worked on that it was made from (R381)
  sfuQ : List Nat                  -- requests by hart id, oldest first
  sfuOut : List (Nat × Nat)        -- (hart, cycle at which the result returns)
  ncl2 : List NcLine
  waysRetired : List Nat
  wayErrs : Tab (List Nat)         -- by way: when it had corrected errors (R401)
  l2 : Tab (List Way)              -- the cluster cache by set (R47)
  walkCache : List WalkEnt         -- at most 32,768 entries, oldest first (R37)
  walks : List WalkReq             -- the first 16 are under way, the others wait in order (R39)
  deriving DecidableEq, Repr

/-- A task node in a ready pool (R210, R376). -/
structure Node where
  entry : Word
  args : List Word
  addr : Word
  start : Option Nat               -- physical address of the start counter while waiting
  cc : Word
  prio : Nat
  aff : Option Nat
  hreq : Word
  readyAt : Nat
  logged : Bool                    -- reported as one that no core can hold
  tmpl : Arch
  deriving DecidableEq, Repr

/-- A gang accepted by a generator (R207-R209): its partition rule, its extents, the index of the next member among
those created, and what each member starts from. -/
structure Gang where
  rule : Word
  ext : Vector Nat 3
  next : Nat
  place : Nat
  creator : Nat
  prio : Nat
  entry : Word
  cc : Word
  tmpl : Arch
  since : Nat                      -- cycle of its acceptance (R377)
  deriving DecidableEq, Repr

/-- A request offered to or accepted by the Tether of a die: its source, clusters 0-7 or 8 for the die's directory and
its links, and the step in which the die observes it (R99). -/
structure TReq where
  src : Nat
  due : Instr × Arg
  deriving DecidableEq, Repr

/-- A die (R1). -/
structure Die where
  pool : List Node
  gens : Tab (Option Gang)
  poolTurn : Bool
  offers : List TReq               -- requests that Tether has not accepted yet (R99)
  tether : List (Nat × TReq)       -- accepted requests in slot order, with the cycle of their observation (R99)
  llc : Tab (List Way)             -- the LLC by slice and set: 2,048 * slice + set (R47, R48)
  fclk : Nat
  tj : Nat
  tlim : Nat
  deriving DecidableEq, Repr

/-- MOESI states (R96). -/
inductive Moesi | i | s | e | o | m
  deriving DecidableEq, Repr

/-- A directory entry (R103). -/
structure DirEnt where
  st : Moesi
  rown : Bool
  owner : Nat
  sharers : List Nat
  bcast : Bool
  rem : List Nat                   -- PTR0 first
  used : Nat                       -- for least recently used
  deriving DecidableEq, Repr

/-- Kinds of transaction at a home: the requests, an eviction, a posted write, the withdrawal of remote holders that the
entry can record no longer, and the write-back of another module's copy before an in-array step (R86, R105, R106, R107,
R110); and at a peer agent, a snoop of the home of a peer line (R111). -/
inductive TxnKind | rds | rdm | upg | evict | pwr | prds | prdm | withdraw | clean | snoop
  deriving DecidableEq, Repr

/-- A transaction under way or waiting at a home: kind, requesting die or module, answers awaited (R104). -/
structure Txn where
  kind : TxnKind
  req : Nat
  wait : Nat
  msg : Option Msg
  td : Nat                         -- trust domain of the access (R162)
  hint : Nat                       -- its cache hint (R50, R84)
  fwd : Bool                       -- the forward to an O owner is still to be sent, after the invalidations (R105)
  zero : Bool                      -- for a line that is written whole: memory is not read (R273)
  deriving DecidableEq, Repr

/-- What a cluster asks for a line for: to read it, to write it, to write it whole, or as a prefetch for writing or reading
(R97, R232, R272, R273). -/
inductive FillKind | read | write | zero | excl | hint
  deriving DecidableEq, Repr

/-- The request is one for ownership; it is a prefetch. -/
def FillKind.own : FillKind → Bool | .read | .hint => false | .write | .zero | .excl => true
def FillKind.pref : FillKind → Bool | .excl | .hint => true | .read | .write | .zero => false

/-- A line that a cluster has requested on Tether: for what, by which harts (each with whether it writes), the cache hint,
whether the request has been observed, and whether its data have come (R97, R99, R100). -/
structure Fill where
  cl : Nat
  kind : FillKind
  harts : List (Nat × Bool)
  hint : Nat
  td : Nat                         -- trust domain of the access (R162)
  active : Bool
  data : Bool
  code : List Nat                  -- cores whose L1 instruction cache prefetches it (R232)
  deriving DecidableEq, Repr

/-- The request is one for ownership. -/
def Fill.own (f : Fill) : Bool := f.kind.own

/-- The coherence state of one line (R96-R106). Caches are numbered: L1 of core c as c, cluster cache cl as
512 + cl, LLC of die d as 544 + d. -/
structure LineCoh where
  caches : Tab Moesi
  dir : DirEnt
  busy : Option Txn
  queue : List Txn
  wb : Option (Nat × LineData)
  later : List (Nat × (Instr × Arg)) -- by die: requests that wait for an earlier one of their die (R100)
  fills : List Fill
  deriving DecidableEq, Repr

/-- A peer line held by this module (R108, R109, R112). -/
structure PeerLine where
  st : Moesi                       -- the state that the home has granted to the module (R108)
  data : LineData
  valid : LineMask
  pend : LineMask
  fly : LineMask                   -- bytes of the PWrUpd under way
  pendHarts : List Nat
  flyHarts : List Nat
  flyCmds : List Nat               -- harts whose copy-engine command awaits the acknowledgement
  pendCmds : List Nat
  orphan : Bool
  discarded : Bool
  deriving DecidableEq, Repr

/-- A chunk admitted by Cornice whose commit is not complete (R124). -/
structure Held where
  hart : Nat
  reads : List Nat
  writes : List Nat
  deriving DecidableEq, Repr

/-- A presented chunk that waits for a held one (R124). -/
structure Pres where
  hart : Nat
  on : Option Held                 -- the held chunk that it waits for; none while it waits for room
  readHit : Bool
  deriving DecidableEq, Repr

/-- A TLB invalidation in flight (R40, R41): form 0 page, 1 address space, 2 all. -/
structure Inv where
  id : Nat
  form : Nat
  asid : Nat
  va : Word
  hart : Nat
  sent : Bool
  done : Bool
  dies : List Nat                  -- dies that have observed it on their Tether
  cmds : List (Nat × Nat)          -- commands to wait for: hart, number at the head of its FIFO
  deriving DecidableEq, Repr

/-- A lane's record (R93). -/
structure Lane where
  spare : Nat
  width : Nat
  height : Nat
  deriving DecidableEq, Repr

/-- A channel's status (R93). -/
structure Chan where
  spused : Nat
  hold : Bool
  trainReq : Bool
  worn : List Nat                  -- spares that a lane has been moved away from (R94)
  deriving DecidableEq, Repr

/-- The scrub buffer of a pseudo-channel (R88). -/
structure ScrubBuf where
  gran : Nat
  write : Bool
  poison : Bool
  deriving DecidableEq, Repr

/-- What a request that waits at a stack owes once it has been served: the data to a hart that reads past the caches, the
acknowledgement of a hart's write by its number, WBAck to a die, an answer to another module, or the line of a salvage entry
(R91, R92, R114, R134). -/
inductive Owed
  | nothing
  | read (h : Nat)
  | store (id : Nat)
  | wback (d : Nat)
  | answer (m : Msg)
  | salvage (entry : Nat)
  deriving DecidableEq, Repr

/-- A request that waits at a stack for the end of a hold (R91, R92, R94). -/
structure Waiting where
  req : HbmReq
  owed : Owed
  deriving DecidableEq, Repr

/-- An HBM controller and its stack (R76-R95). -/
structure Hbm where
  mth : Nat
  auto : Bool
  temp : Nat
  thold : Bool
  catt : Bool
  ue : Bool
  marg : Bool
  repair : Bool
  spout : Bool
  pos : Nat
  period : Nat
  ce : Nat
  ues : Nat
  chans : Tab Chan
  lanes : Tab Lane                 -- by 128 * channel + lane
  openRows : Tab (Option (Nat × Nat)) -- per bank: open row and the time of its last access
  waiting : List Waiting           -- in the order of arrival (R91)
  crit : Bool
  selfRef : Bool
  exitAt : Option Nat
  scrub : Tab (Option ScrubBuf)    -- by pseudo-channel
  scrubAt : Nat                    -- when the scrubber reads its next granule (R88)
  halved : Bool
  deriving DecidableEq, Repr

/-- A multicast operation that the module holds for a writer (R168, R169). -/
structure HeldOp where
  hart : Nat
  id : Nat
  kind : Nat                       -- 1 MST, 2 MAMO, 3 MCOPY line
  op : Nat
  size : Nat
  off : Nat
  mask : LineMask
  data : LineData
  stamp : Option Nat
  sent : Bool
  deriving DecidableEq, Repr

/-- A group entry (R165) with the work of its sequencer and member (R168-R171). -/
structure Group where
  state : Nat
  gid : Nat
  seqdev : Nat
  nmem : Nat
  rdep : Nat
  rstat : Nat
  td : Nat
  base : Nat
  log2sz : Nat
  listAddr : Nat
  replay : Nat
  applied : Nat
  stamped : Nat
  held : List HeldOp
  waitReqs : List Msg              -- at the sequencer: requests not stamped yet
  early : List Msg                 -- at a member: stamped operations above APPLIED + 1
  acked : Tab Nat                  -- at the sequencer: highest stamp that each member acknowledged
  origins : List (Nat × Nat × Nat) -- at the sequencer: stamp, writer, request id awaiting MDone
  answers : List (Nat × Nat)       -- re-forming: survivor, APPLIED
  target : Nat                     -- re-forming: M + 1 once the replay has been sent
  fetching : Bool                  -- re-forming: the replay slots have been asked for
  since : Nat                      -- re-forming: the cycle at which it began (R170)
  deriving DecidableEq, Repr

/-- A fabric port: 0-30 local, 31-46 global (R147, R156, R172). -/
structure Port where
  trained : Bool
  up : Bool
  attested : Bool
  asked : List Byte                -- the challenge that its far end has not answered (R148)
  peer : Nat
  downAt : Nat
  lastFlit : Nat
  fails : Nat
  mayRetrain : Bool
  parked : Bool
  forced : Bool                    -- parked under the thermal rule of this end
  farForced : Bool                 -- or of the far end
  idle : Nat
  wth : Nat
  pen : Bool
  rejoinAt : Option Nat
  queue : List Msg                 -- messages that wait to leave, oldest first (R152, R173)
  freeAt : Nat                     -- cycle at which the link can take the next message (R148)
  idleSince : Nat                  -- when the last message that is no Heartbeat left (R173)
  wakes : List Bool                -- wake requests of this end without their answers, oldest first: forced or not (R173, R174)
  deriving DecidableEq, Repr

/-- A message that its destination has not acknowledged, with the links of its path, each a device and a port; none before
a path has been chosen (R152, R153, R156). -/
structure Sent where
  msg : Msg
  path : List (Nat × Nat)
  deriving DecidableEq, Repr

/-- Sequence numbers of one ordered pair and class (R153). -/
structure Pair where
  next : Nat
  unacked : List Sent
  expect : Nat
  waiting : List Msg
  deriving DecidableEq, Repr

/-- A class-0 request with no answer yet (R158). -/
structure Req where
  id : Nat
  msg : Msg
  path : List (Nat × Nat)          -- the links of its path, once it has one (R158)
  due : Nat
  resent : Bool
  reported : Bool
  harts : List Nat
  deriving DecidableEq, Repr

/-- A watchdog unit (R398). -/
structure Dog where
  asid : Option Nat
  win : Nat
  hart : Option Nat                -- none once the binding hart has exited
  pulseAt : Nat
  stopped : Option Nat             -- the count where a thermal hold stopped it (R92)
  spent : Bool                     -- it has fired and not been restarted
  fired : Bool
  deriving DecidableEq, Repr

/-- An entry of the retirement record (R402). -/
structure Retire where
  word : Word
  time : Nat
  deriving DecidableEq, Repr

/-- A session of the security processor: the digest of the requester's key, the key and the initial value of what the requester
sends, and how many of its messages have come (R417). -/
structure Session where
  digest : BitVec 512
  key : Nat
  iv : List Byte
  seq : Nat
  deriving DecidableEq, Repr

/-- A key exchange that its requester has not finished: the shared secret and the transcript (R417). -/
structure Exchange where
  shared : List Byte
  transcript : List Byte
  deriving DecidableEq, Repr

/-- The four virtio functions (R418): negotiated functions, reset needed, answers given. -/
structure Virtio where
  featuresOk : List Nat
  needsReset : List Nat
  blkWriteProtect : Option Nat     -- the booted slot
  buffers : Nat                    -- free buffers of console port 1
  port1 : List (List Byte)         -- lines written on console port 1 (R421)
  toModule : List (Nat × Nat × List Byte) -- data that the module's software has not taken: function, queue or port, bytes
  waiting : List (Nat × Nat)       -- receive buffers that the host has given: function, queue or port
  conns : List Nat                 -- vsock ports with a connection
  answers : List (Nat × Nat)       -- (function, status)
  deriving DecidableEq, Repr

/-- The whole module. -/
structure State where
  -- the hart that moves and the other slots
  curId : Nat
  cur : Hart
  harts : Tab Hart
  cores : Tab Core
  clusters : Tab Cluster
  dies : Tab Die
  -- memory
  mem : Memory                     -- committed bytes by physical address (R127)
  hbm : Memory                     -- bits that the stacks hold: stale for a line in O or M, ciphertext under a trust domain (R103, R163)
  tags : Tab Word                  -- integrity tags by stack and stack address (R79)
  badGran : List Nat               -- lines whose granule is marked poisoned in its stack, and from 2^50 on granules of tags (R79, R90)
  poison : List Nat                -- poisoned lines, as the caches hold them (R53)
  lineTd : Tab Nat                 -- trust domain carried with a line (R162)
  coh : Tab LineCoh
  peers : Tab (Option PeerLine)
  -- Cornice and the invalidation sequencer
  held : List Held
  presented : List Pres
  soloHart : Option Nat            -- the hart whose chunk Cornice has pre-admitted (R130, R131)
  engTurn : Nat                    -- the hart whose command the copy engines served last (R69)
  soloQ : List Nat                 -- harts that wait for a pre-admission, oldest first (R130)
  invs : List Inv
  -- HBM, salvage ring
  ilv : Bool
  memLock : Bool
  hbms : Tab Hbm
  salvBase : Nat
  salvSz : Nat
  salvHead : Nat
  salvTail : Nat
  salvOvf : Nat
  salvEn : Bool
  salvAcks : List Nat              -- salvage entries under way: lines of each still to be written (R114)
  -- fabric
  dev : Nat
  provDev : Nat
  fto : Nat
  join : Bool
  adapt : Bool
  tdbase : Word
  keys : Tab (Option KeySlot)
  lostMap : List Nat               -- device ids recorded lost (R160)
  domainClear : List Nat           -- device ids whose domain-map bit is 0 (R160)
  groups : Tab Group
  ports : Tab Port
  net : List Msg                   -- messages without a path yet, oldest first (R152, R154)
  wire : List (Nat × Msg)          -- messages that have left, with their ports, oldest first
  pairs : Tab Pair
  reqs : List Req
  nextReq : Nat
  nextPhys : Nat                   -- the number of the next physical tile that a rename takes (R56)
  hbWait : Tab (Option (Nat × Bool)) -- devices asked by HbReq: time of the question, and whether it was answered (R159)
  -- interrupt block
  mtime : Nat
  cycle : Nat
  mtvec : Word
  extroute : Nat
  extstat : BitVec 6
  extena : BitVec 6
  dogs : Tab Dog
  noUnit : List Nat                -- ASIDs whose last bind found no unit (R399)
  -- management, power, boot, host
  stage : Nat
  fatal : Bool
  powered : Bool                   -- the dies have power (R420)
  capFlag : Bool
  throtFlag : Bool
  replace : Bool
  pwr : Nat
  cap : Nat
  coolAt : Option Nat              -- since when the I/O die has been at or below 90 degrees (R174)
  retired : List Retire
  relocating : List Nat            -- harts of retired cores that wait for a slot (R404)
  log : List (Nat × Nat × Nat)     -- events logged by the management controller: code, and what it names
  corrected : Nat                  -- corrected errors that the management controller has counted (R51, R52)
  console : List (Nat × Nat × Nat) -- lines kept for console port 1 (R421)
  flash : Memory
  fusedFloor : Nat
  fusedKey : BitVec 512
  booted : Option Nat
  meas : Tab (BitVec 512)          -- the SPDM measurement blocks 2, 3 and 4 that boot has recorded (R417)
  exchange : Option Exchange
  session : Option Session
  hostOut : List (List Byte)       -- byte strings answered to the host and the management bus (R417, R418, R421)
  virtio : Virtio
  -- the model's own
  events : List (Nat × Instr × Arg) -- steps due: (time in ns, step, its argument)
  arg : Arg                        -- the argument of the hardware step that moves
  sched : List Nat                 -- harts that move at the next steps
  freeCtr : Nat                    -- counter of the free values
  deriving DecidableEq, Repr

/-- The machine stops with a fault. -/
inductive Fault
  /-- Raised by `step` for a hardware step whose parameters name a unit, a line or a message that the module
  cannot have (they are not well formed). Safe: no such step exists in the device. -/
  | illFormedStep
  deriving DecidableEq, Repr

/-- No meaning for the instruction. -/
inductive Refusal
  /-- Raised by the dispatch for an instruction that has no meaning yet. Safe. -/
  | notModelled (mnemonic : String)
  deriving DecidableEq, Repr

/-! ## Reset values -/

/-- An empty slot's registers: R416's zeros, the reset values of the control registers, and the values that the
assumption log (entry 2) names where the manual gives none. -/
def Arch.reset : Arch where
  pc := 0
  iw := 0
  mode := .m
  blk := .header .entry
  g := Vector.replicate 64 0
  shadow := Vector.replicate 8 0
  v := Vector.replicate 32 0
  p := Vector.replicate 16 0
  tiles := []
  phys := []
  qc := Vector.replicate 8 ⟨0, false⟩
  qgen := Vector.replicate 8 0
  fcsr := 0
  vcsr := 1
  fstat := 0
  short := false
  uvec := 0
  uepc := 0
  uie := false
  inh := false
  hreq := 0
  gid := Vector.replicate 3 0
  gext := Vector.replicate 3 1
  partLo := 0
  partLen := 0
  hstat := 0
  hcause := 0
  hepc := 0
  htval := 0
  htrow := 0
  resume := false
  asid := 0
  ptroot := 0
  ncbase := Vector.replicate 16 0
  nclim := Vector.replicate 16 0
  ncattr := Vector.replicate 16 0
  sbank := Vector.replicate 4 0
  mbank := Vector.replicate 4 0
  mrec := Vector.replicate 5 0
  ras := []

/-- A chunk without members that starts from a state of the hart. -/
def Chunk.fresh (a : Arch) : Chunk := ⟨a, 0, [], [], [], [], [], [], [], [], [], [], []⟩

/-- An empty slot at reset (R392: timecmp all ones, swint 0). -/
def Hart.reset : Hart where
  arch := Arch.reset
  slot := .free
  prio := 4
  cc := 0
  chunk := Chunk.fresh Arch.reset
  inflight := []
  sq := 0
  solo := false
  soloCount := 0
  soloLines := []
  leave := none
  due := none
  uip := false
  wdp := none
  mck := []
  mckOld := 0
  stall := none
  stallAt := 0
  readyAt := 0
  issuedAt := 0
  starve := 0
  fifo := ⟨[], []⟩
  tileCnt := 0
  postedCnt := 0
  mcastCnt := 0
  touched := []
  groupMask := []
  drain := none
  mamo := none
  timecmp := 2 ^ 64 - 1
  swint := false
  walked := []
  got := []
  sfu := none
  begun := false
  ncWait := []

def Core.reset : Core := ⟨false, none, [], [], [], [], [], none, 0⟩
def Barrier.reset : Barrier := ⟨0, 0, 0, 0⟩
def ShTile.reset : ShTile := ⟨none, 0, 0⟩
def SlotEnt.reset : SlotEnt := ⟨false, 0⟩
/-- R380: every slot-table entry free; R381: lend holds 0xFFFF. -/
def Engine.reset : Engine := ⟨[], none, [], none, 0xFFFF, none, false, none⟩
def Cluster.reset : Cluster := ⟨[], [], [], [], [], 0, [], [], [], [], [], [], [], [], [], [], []⟩
/-- R419: FCLK 16, TLIM 95. R419 gives TJ no reset value: the model starts it at 0 (assumption log, entry 2). -/
def Die.reset : Die := ⟨[], [], false, [], [], [], 16, 0, 95⟩
def DirEnt.none : DirEnt := ⟨.i, false, 0, [], false, [], 0⟩
def LineCoh.reset : LineCoh := ⟨[], DirEnt.none, Option.none, [], Option.none, [], []⟩
/-- A peer line before anything of it has arrived. -/
def PeerLine.none : PeerLine := ⟨.s, 0, 0, 0, 0, [], [], [], [], false, false⟩
/-- R93 gives WIDTH and HEIGHT no reset value: the model starts them at 0 (assumption log, entry 2). -/
def Lane.reset : Lane := ⟨0xF, 0, 0⟩
def Chan.reset : Chan := ⟨0, false, false, []⟩
/-- R82: MTH 0x30, AUTO 1; R88: PERIOD 24. R82 gives TEMP no reset value: the model starts it at 0 (assumption log,
entry 2). -/
def Hbm.reset : Hbm :=
  ⟨0x30, true, 0, false, false, false, false, false, false, 0, 24, 0, 0, [], [], [], [], false, false, none, [], 0, false⟩
def Group.reset : Group := ⟨0, 0, 0, 0, 0, 0, 0, 0, 0, 0, 0, 0, 0, [], [], [], [], [], [], 0, false, 0⟩
/-- R172: IDLE 20, WTH 64, PEN 1; R159: a link that never trained counts as down from reset. -/
def Port.reset : Port := ⟨false, false, false, [], 0, 0, 0, 0, true, false, false, false, 20, 64, true, none, [], 0, 0, []⟩
def Pair.reset : Pair := ⟨0, [], 0, []⟩
def Dog.reset : Dog := ⟨none, 0, none, 0, none, false, false⟩
def Virtio.reset : Virtio := ⟨[], [], none, 0, [], [], [], [], []⟩

/-- The module right after reset (R413): stage 0, no slot holds a hart, nothing cached, and the boot ROM about to
run (assumption log, entry 9). -/
def State.reset : State where
  curId := 0
  cur := Hart.reset
  harts := []
  cores := []
  clusters := []
  dies := []
  mem := []
  hbm := []
  tags := []
  badGran := []
  poison := []
  lineTd := []
  coh := []
  peers := []
  held := []
  presented := []
  soloHart := none
  engTurn := 0
  soloQ := []
  invs := []
  ilv := false
  memLock := false
  hbms := []
  salvBase := 0
  salvSz := 0
  salvHead := 0
  salvTail := 0
  salvOvf := 0
  salvEn := false
  salvAcks := []
  dev := 0
  provDev := 0
  fto := 40
  join := false
  adapt := true
  tdbase := 0
  keys := []
  lostMap := []
  domainClear := []
  groups := []
  ports := []
  net := []
  wire := []
  pairs := []
  reqs := []
  nextReq := 0
  nextPhys := 0
  hbWait := []
  mtime := 0
  cycle := 0
  mtvec := 0
  extroute := 0
  extstat := 0
  extena := 0
  dogs := []
  noUnit := []
  stage := 0
  fatal := false
  powered := true
  capFlag := false
  throtFlag := false
  replace := false
  pwr := 0
  cap := 2600
  coolAt := none
  retired := []
  relocating := []
  log := []
  corrected := 0
  console := []
  flash := []
  fusedFloor := 0
  fusedKey := 0
  booted := none
  meas := []
  exchange := none
  session := none
  hostOut := []
  virtio := Virtio.reset
  events := [(0, .bootRom, {})]
  arg := {}
  sched := []
  freeCtr := 0

end Sys2Proof.Machine
end

