-- ==== Sys2Proof/Machine/Operands.lean ====
section
/-!
DEFINITION. Operands: the slots and units of the module, the registers of a hart, effective addresses and vector
lanes (R6, R13, R200, R217-R224, R266, R287, R288).
-/

namespace Sys2Proof.Machine

/-! ## Slots and units -/

/-- The core, cluster and die of a hart slot (R6, R198). -/
def coreOf (h : Nat) : Nat := h / 8
def clusterOf (h : Nat) : Nat := h / 128
def dieOf (h : Nat) : Nat := h / 1024

/-- A number that no slot has, for work whose hart has left its slot. -/
def noHart : Nat := 4096

/-- The slot with a hart id. -/
def getHart (s : State) (h : Nat) : Hart := if h = s.curId then s.cur else tabGet Hart.reset s.harts h

/-- The state with one slot replaced. -/
def setHart (s : State) (h : Nat) (x : Hart) : State :=
  if h = s.curId then { s with cur := x } else { s with harts := tabPut Hart.reset s.harts h x }

def modHart (s : State) (h : Nat) (f : Hart → Hart) : State := setHart s h (f (getHart s h))

/-- The slot h moves into the place of the moving hart; nothing else changes. -/
def focus (s : State) (h : Nat) : State :=
  if h = s.curId then s
  else { s with
    curId := h, cur := tabGet Hart.reset s.harts h,
    harts := tabErase (tabPut Hart.reset s.harts s.curId s.cur) h }

/-- The ids of the slots that hold something other than a reset slot. -/
def hartIds (s : State) : List Nat := setInsert (tabKeys s.harts) s.curId

def getCore (s : State) (c : Nat) : Core := tabGet Core.reset s.cores c
def modCore (s : State) (c : Nat) (f : Core → Core) : State := { s with cores := tabMod Core.reset s.cores c f }
def getCluster (s : State) (c : Nat) : Cluster := tabGet Cluster.reset s.clusters c
def modCluster (s : State) (c : Nat) (f : Cluster → Cluster) : State := { s with clusters := tabMod Cluster.reset s.clusters c f }
def getDie (s : State) (d : Nat) : Die := tabGet Die.reset s.dies d
def modDie (s : State) (d : Nat) (f : Die → Die) : State := { s with dies := tabMod Die.reset s.dies d f }
def getHbm (s : State) (k : Nat) : Hbm := tabGet Hbm.reset s.hbms k
def modHbm (s : State) (k : Nat) (f : Hbm → Hbm) : State := { s with hbms := tabMod Hbm.reset s.hbms k f }
def getGroup (s : State) (n : Nat) : Group := tabGet Group.reset s.groups n
def modGroup (s : State) (n : Nat) (f : Group → Group) : State := { s with groups := tabMod Group.reset s.groups n f }
def getPort (s : State) (n : Nat) : Port := tabGet Port.reset s.ports n
def modPort (s : State) (n : Nat) (f : Port → Port) : State := { s with ports := tabMod Port.reset s.ports n f }
def getEngine (s : State) (cl e : Nat) : Engine := tabGet Engine.reset (getCluster s cl).engines e
def modEngine (s : State) (cl e : Nat) (f : Engine → Engine) : State :=
  modCluster s cl fun c => { c with engines := tabMod Engine.reset c.engines e f }

/-- Changes of the moving hart and of its state that a squash restores. -/
def updHart (s : State) (f : Hart → Hart) : State := { s with cur := f s.cur }
def updArch (s : State) (f : Arch → Arch) : State := { s with cur := { s.cur with arch := f s.cur.arch } }
def setPc (s : State) (a : Word) : State := updArch s fun x => { x with pc := a }

/-! ## Registers (R13, R200) -/

/-- g[r]; g0 reads zero. -/
def rdG (a : Arch) (r : GReg) : Word := if r = 0 then 0 else a.g.get (Fin.mk r.toNat r.isLt)

/-- A write of g[r]; a write of g0 is discarded. -/
def wrG (a : Arch) (r : GReg) (x : Word) : Arch := if r = 0 then a else { a with g := a.g.set r.toNat x r.isLt }

/-- p[r]; p0 reads all ones. -/
def rdP (a : Arch) (r : PReg) : Word := if r = 0 then BitVec.allOnes 64 else a.p.get (Fin.mk r.toNat r.isLt)

/-- A write of p[r]; a write of p0 is discarded. -/
def wrP (a : Arch) (r : PReg) (x : Word) : Arch := if r = 0 then a else { a with p := a.p.set r.toNat x r.isLt }

def rdV (a : Arch) (r : VReg) : Vec := a.v.get (Fin.mk r.toNat r.isLt)
def wrV (a : Arch) (r : VReg) (x : Vec) : Arch := { a with v := a.v.set r.toNat x r.isLt }
def rdQ (a : Arch) (r : QReg) : QcReg := a.qc.get (Fin.mk r.toNat r.isLt)
def wrQ (a : Arch) (r : QReg) (x : QcReg) : Arch :=
  { a with qc := a.qc.set r.toNat x r.isLt, qgen := a.qgen.set r.toNat (a.qgen[r.toNat]'r.isLt + 1) r.isLt }

/-- The registers of the moving hart. -/
def gOf (s : State) (r : GReg) : Word := rdG s.cur.arch r
def pOf (s : State) (r : PReg) : Word := rdP s.cur.arch r
def vOf (s : State) (r : VReg) : Vec := rdV s.cur.arch r
def setG (s : State) (r : GReg) (x : Word) : State := updArch s fun a => wrG a r x
def setP (s : State) (r : PReg) (x : Word) : State := updArch s fun a => wrP a r x
def setV (s : State) (r : VReg) (x : Vec) : State := updArch s fun a => wrV a r x

/-- `Pred(b)` (R242). -/
def predOf (b : Bool) : Word := if b then BitVec.allOnes 64 else 0

/-- The first register of a group, and the ones after it; numbers wrap inside the register file. -/
def vNext (r : VReg) (i : Nat) : VReg := r + BitVec.ofNat 5 i
def gNext (r : GReg) : GReg := r + 1

/-! ## Guards (R223) -/

/-- The guard value of an instruction. -/
def guardOf (a : Arch) (c : Ctl) : Bool :=
  ((rdP a c.ga).getLsbD 0 != c.gan) && ((rdP a c.gb).getLsbD 0 != c.gbn)

/-! ## Effective addresses (R220, R266) -/

/-- The M form: base plus sign-extended offset. -/
def eaM (a : Arch) (b : GReg) (off : BitVec 20) : Word := rdG a b + off.signExtend 64

/-- The indexed form: base plus index shifted left. -/
def eaX (a : Arch) (b x : GReg) (n : BitVec 3) : Word := rdG a b + rdG a x <<< n.toNat

/-- A loaded value of n bytes, extended to 64 bits (R269). -/
def extend (n : Nat) (sg : Bool) (x : Nat) : Word :=
  if sg then BitVec.ofInt 64 (signExt (8 * n) x) else BitVec.ofNat 64 (x % 2 ^ (8 * n))

/-! ## Vector lanes (R180, R287) -/

/-- Lane i of width w. -/
def lane (w : Nat) (x : Vec) (i : Nat) : Nat := (x.toNat >>> (w * i)) % 2 ^ w

/-- Lanes of width w, lane 0 first, as a number. -/
def packNat (w : Nat) : List Nat → Nat
  | [] => 0
  | x :: t => x % 2 ^ w + 2 ^ w * packNat w t

/-- Lanes of width w, lane 0 first, as a register. -/
def packLanes (w : Nat) (l : List Nat) : Vec := BitVec.ofNat 512 (packNat w l)

/-- The value of a lane read as its integer type. -/
def laneInt (t : VType) (x : Vec) (i : Nat) : Int :=
  if t.isSigned then signExt t.width (lane t.width x i) else (lane t.width x i : Nat)

/-- Lane i of width w bits is active under a mask predicate: bit floor(i * lb) (R287). -/
def active (w : Nat) (mask : Word) (i : Nat) : Bool := mask.getLsbD (i * w / 8)

/-- A register with the active lanes replaced: an inactive lane is kept, or zero under ZM (R221). -/
def mergeLanes (w : Nat) (mask : Word) (zm : Bool) (old : Vec) (f : Nat → Nat) : Vec :=
  packLanes w ((List.range (512 / w)).map fun i =>
    if active w mask i then f i else if zm then 0 else lane w old i)

/-- Register and lane of element i of a group of n registers in interleaved order (R288). -/
def groupLane (a : Arch) (w : Nat) (r : VReg) (n i : Nat) : Nat := lane w (rdV a (vNext r (i % n))) (i / n)

/-- A group of n registers with the elements whose source lane is active replaced (R288, R300). -/
def mergeGroup (a : Arch) (w : Nat) (r : VReg) (n : Nat) (act : Nat → Bool) (zm : Bool) (f : Nat → Nat) : Arch :=
  (List.range n).foldl (fun b k =>
    wrV b (vNext r k) (packLanes w ((List.range (512 / w)).map fun j =>
      let i := j * n + k
      if act i then f i else if zm then 0 else groupLane a w r n i))) a

/-- The lb bits of a predicate from bit i * lb, for each lane (R301). -/
def mergePred (w : Nat) (mask : Word) (zm : Bool) (old : Word) (f : Nat → Bool) : Word :=
  let lb := w / 8
  BitVec.ofNat 64 (packNat lb ((List.range (512 / w)).map fun i =>
    if active w mask i then (if f i then 2 ^ lb - 1 else 0) else if zm then 0 else (old.toNat >>> (i * lb)) % 2 ^ lb))

/-! ## Free values -/

/-- The counter of the free values moves on (assumption log, entry 10). -/
def spend (s : State) (n : Nat) : State := { s with freeCtr := s.freeCtr + n }

end Sys2Proof.Machine
end

