-- ==== Sys2Proof/Machine/Special.lean ====
section
/-!
DEFINITION. The special functions of R306: each value is computed in fixed point to some 800 fraction bits and
rounded once (assumption log, entry 11). Away from the exact cases, which stand apart, no value is representable
or midway between two representable values, so the bits below the last one only mark it inexact.
-/

namespace Sys2Proof.Machine

/-- Fraction bits of the fixed-point values. -/
def spP : Nat := 832

/-- A fixed-point value that is not exact, as a value to round. -/
def spVal (neg : Bool) (x : Nat) : FVal := sticky neg x (-(spP : Int)) true

/-- The sum of 1 / ((2 i + 1) z^(2 i + 1)) (alternating where `alt`) over `n` terms, at scale 2^p; `pw` is 2^p / z^(2 i + 1). -/
def atanTerms (alt : Bool) (z2 : Nat) : Nat → Nat → Nat → Int
  | 0, _, _ => 0
  | n + 1, i, pw =>
    (if alt && i % 2 == 1 then -((pw / (2 * i + 1) : Nat) : Int) else ((pw / (2 * i + 1) : Nat) : Int)) + atanTerms alt z2 n (i + 1) (pw / z2)

/-- ln 2 = 2 atanh (1/3) at scale 2^p. -/
def ln2Fix (p : Nat) : Nat := (2 * atanTerms false 9 (p / 3 + 2) 0 (2 ^ p / 3)).toNat

/-- pi / 2 = 8 atan (1/5) - 2 atan (1/239) at scale 2^p. -/
def halfPiFix (p : Nat) : Nat :=
  (8 * atanTerms true 25 (p / 4 + 2) 0 (2 ^ p / 5) - 2 * atanTerms true (239 * 239) (p / 15 + 2) 0 (2 ^ p / 239)).toNat

/-- The terms of a power series in r from the i-th on: t, t r / i, ... at scale 2^P. -/
def expTerms (r : Nat) : Nat → Nat → Nat → Nat
  | 0, _, _ => 0
  | n + 1, i, t => t + expTerms r n (i + 1) (t * r / 2 ^ spP / i)

/-- e^r at scale 2^P for 0 ≤ r < 1. -/
def expFix (r : Nat) : Nat := expTerms r 170 1 (2 ^ spP)

/-- The alternating series t - t r^2 / (i (i + 1)) + ... at scale 2^P. -/
def altTerms (r2 : Nat) : Nat → Nat → Nat → Bool → Int
  | 0, _, _, _ => 0
  | n + 1, i, t, neg => (if neg then -(t : Int) else t) + altTerms r2 n (i + 2) (t * r2 / 2 ^ spP / (i * (i + 1))) (!neg)

def sinFix (r : Nat) : Nat := (altTerms (r * r / 2 ^ spP) 110 2 r false).toNat
def cosFix (r : Nat) : Nat := (altTerms (r * r / 2 ^ spP) 110 1 (2 ^ spP) false).toNat

/-- The sum of z^(2 i + 1) / (2 i + 1) at scale 2^P. -/
def atanhTerms (z2 : Nat) : Nat → Nat → Nat → Nat
  | 0, _, _ => 0
  | n + 1, i, t => t / (2 * i + 1) + atanhTerms z2 n (i + 1) (t * z2 / 2 ^ spP)

/-- A finite magnitude at scale 2^p, rounded down. -/
def toFix (p m : Nat) (e : Int) : Nat := shiftInt m (e + p)

/-- 2^x (R306). -/
def spExp2 (x : FVal) : FVal × Flags :=
  match x with
  | .nan s => (.nan false, flIf s flNV)
  | .inf neg => if neg then (.fin false 0 0, 0) else (.inf false, 0)
  | .fin neg m e =>
    if m = 0 then (FVal.one, 0)
    else if 9 ≤ (Nat.log2 m : Int) + e then
      (if neg then sticky false 1 (-600) true else sticky false 1 600 true, 0)
    else
      let fx : Int := toFix spP m e
      let y := if neg then -fx else fx
      let n := y / 2 ^ spP
      let f := (y % 2 ^ spP).toNat
      if f = 0 then (.fin false 1 n, 0)
      else (sticky false (expFix (f * ln2Fix spP / 2 ^ spP)) (n - spP) true, 0)

/-- log2 x (R306). -/
def spLog2 (x : FVal) : FVal × Flags :=
  match x with
  | .nan s => (.nan false, flIf s flNV)
  | .inf neg => if neg then (.nan false, flNV) else (.inf false, 0)
  | .fin neg m e =>
    if m = 0 then (.inf true, flDZ)
    else if neg then (.nan false, flNV)
    else
      let lead := Nat.log2 m
      let ex : Int := (lead : Int) + e
      if m = 2 ^ lead then (.fin (decide (ex < 0)) ex.natAbs 0, 0)
      else
        let y := m * 2 ^ spP / 2 ^ lead
        let z := (y - 2 ^ spP) * 2 ^ spP / (y + 2 ^ spP)
        let ln := 2 * atanhTerms (z * z / 2 ^ spP) 280 0 z
        let r : Int := ex * 2 ^ spP + (ln * 2 ^ spP / ln2Fix spP : Nat)
        (spVal (decide (r < 0)) r.natAbs, 0)

/-- The quadrant and the remainder in it, at scale 2^P, of a magnitude in radians: an exact reduction by pi / 2. -/
def trigReduce (m : Nat) (e : Int) : Nat × Nat :=
  let p := spP + 160
  let h := halfPiFix p
  let x := toFix p m e
  (x / h % 4, x % h / 2 ^ 160)

/-- sin of a magnitude in the quadrant q. -/
def quadrant (neg : Bool) (q r : Nat) : FVal :=
  spVal (neg != decide (2 ≤ q % 4)) (if q % 2 = 0 then sinFix r else cosFix r)

/-- sin x (R306). -/
def spSin (x : FVal) : FVal × Flags :=
  match x with
  | .nan s => (.nan false, flIf s flNV)
  | .inf _ => (.nan false, flNV)
  | .fin neg m e =>
    if m = 0 then (.fin neg 0 0, 0)
    else let (q, r) := trigReduce m e; (quadrant neg q r, 0)

/-- cos x (R306). -/
def spCos (x : FVal) : FVal × Flags :=
  match x with
  | .nan s => (.nan false, flIf s flNV)
  | .inf _ => (.nan false, flNV)
  | .fin _ m e =>
    if m = 0 then (FVal.one, 0)
    else let (q, r) := trigReduce m e; (quadrant false (q + 1) r, 0)

/-- tanh x = (1 - t) / (1 + t) with t = e^(-2 x) (R306). -/
def spTanh (x : FVal) : FVal × Flags :=
  match x with
  | .nan s => (.nan false, flIf s flNV)
  | .inf neg => (.fin neg 1 0, 0)
  | .fin neg m e =>
    if m = 0 then (.fin neg 0 0, 0)
    else if 8 ≤ (Nat.log2 m : Int) + e then (spVal neg (2 ^ spP - 1), 0)
    else
      let y := 2 * toFix spP m e
      let l := ln2Fix spP
      let t := 2 ^ (2 * spP) / expFix (y % l) / 2 ^ (y / l)
      (spVal neg ((2 ^ spP - t) * 2 ^ spP / (2 ^ spP + t)), 0)

/-- 1 / x (R306). -/
def spRcp (x : FVal) : FVal × Flags := FVal.div FVal.one x

/-- 1 / sqrt x (R306). -/
def spRsqrt (x : FVal) : FVal × Flags :=
  match x with
  | .nan s => (.nan false, flIf s flNV)
  | .inf neg => if neg then (.nan false, flNV) else (.fin false 0 0, 0)
  | .fin neg m e =>
    if m = 0 then (.inf neg, flDZ)
    else if neg then (.nan false, flNV)
    else
      let m' := if e % 2 = 0 then m else 2 * m
      let e' := if e % 2 = 0 then e else e - 1
      let r := isqrt (2 ^ 600 / m')
      (sticky false r (-(e' / 2) - 300) (r * r * m' != 2 ^ 600), 0)

end Sys2Proof.Machine
end

