-- ==== Sys2Proof/Machine/Flags.lean ====
section
/-!
DEFINITION. What the body of an instruction ends in, the causes of traps, and the flags of fcsr and vcsr
(R182-R185, R289, R385).
-/

namespace Sys2Proof.Machine

/-! ## Causes (R385) -/

def cIllegal : Nat := 0x01
def cTarget : Nat := 0x02
def cPriv : Nat := 0x03
def cFeature : Nat := 0x04
def cMisalign : Nat := 0x05
def cNotPresent : Nat := 0x06
def cPerm : Nat := 0x07
def cUnmapped : Nat := 0x08
def cShape : Nat := 0x09
def cBusy : Nat := 0x0A
def cFull : Nat := 0x0B
def cFifo : Nat := 0x0C
def cLost : Nat := 0x0D
def cPoison : Nat := 0x0E
def cFpExc : Nat := 0x0F
def cBreak : Nat := 0x10
def cEcall : Nat := 0x11
def cWatchdog : Nat := 0x12
def cMcheck : Nat := 0x14
def cSoft : Nat := 0x20
def cTimer : Nat := 0x21
def cExtern : Nat := 0x22

/-- A trap of an instruction before delivery: its cause, htval and what htrow receives (R331, R385). -/
structure Trap where
  code : Nat
  tval : Word
  row : Word := 0
  deriving DecidableEq, Repr

/-- What the body of an instruction ends in: its effect; an effect made after the older members of its chunk have
committed, so that the chunk ends with it; a trap, with the effects that commit with the truncated part; a wait, after
which the instruction executes again; or the end of the chunk before the instruction (R49, R118). -/
inductive Eff
  | ok (s : State)
  | fin (s : State)
  | trap (t : Trap) (s : State)
  | wait (c : Stall) (s : State)
  | again
  deriving Repr

/-- A value, a trap, a wait, or the end of the chunk before the instruction. -/
inductive Res (α : Type)
  | val (x : α)
  | trap (t : Trap)
  | wait (c : Stall)
  | again
  deriving DecidableEq, Repr

/-- A value is handed on; a trap or wait of the state s ends the body. -/
def Res.andThen {α : Type} (r : Res α) (s : State) (k : α → Eff) : Eff :=
  match r with
  | .val x => k x
  | .trap t => .trap t s
  | .wait c => .wait c s
  | .again => .again

/-- The same between results. -/
def Res.bind {α β : Type} (r : Res α) (k : α → Res β) : Res β :=
  match r with
  | .val x => k x
  | .trap t => .trap t
  | .wait c => .wait c
  | .again => .again

/-- The result of an access with the state it leaves, handed on. -/
def thenDo {α : Type} (p : State × Res α) (k : State → α → Eff) : Eff := p.2.andThen p.1 (k p.1)

/-- A check: its trap unless the condition holds. -/
def need {α : Type} (c : Bool) (t : Trap) (k : Res α) : Res α := if c then k else .trap t

/-- A check at the head of a body. -/
def guardTrap (c : Bool) (t : Trap) (s : State) (k : Eff) : Eff := if c then k else .trap t s

/-! ## fcsr and vcsr -/

/-- fcsr.FZ (R182). -/
def fzOf (a : Arch) : Bool := a.fcsr.getLsbD 15
/-- vcsr.SAT8 (R185). -/
def sat8Of (a : Arch) : Bool := a.vcsr.getLsbD 0

/-- The value that a write of fcsr stores: RM 5, 6 or 7 stores 0 (R182). -/
def fcsrStore (x : Word) : Word :=
  let y := x &&& 0xF3FF
  if 4 < field 14 12 y then y &&& 0x83FF else y

/-- The flags that an instruction raises, set in fcsr, or FP_EXC when one of them is enabled (R184). -/
def withFlags (fl : Flags) (s : State) (k : State → Eff) : Eff :=
  if s.cur.arch.fcsr.extractLsb' 5 5 &&& fl ≠ 0 then .trap { code := cFpExc, tval := fl.setWidth 64 } s
  else k (updArch s fun a => { a with fcsr := a.fcsr ||| fl.setWidth 64 })

/-- vcsr.QS set when a lane saturated (R289). -/
def withSat (b : Bool) (a : Arch) : Arch := if b then { a with vcsr := a.vcsr ||| 2 } else a

/-- The union of flags (R184). -/
def unionFlags (l : List Flags) : Flags := l.foldl (· ||| ·) 0

end Sys2Proof.Machine
end

