-- ==== Sys2Proof/Machine/Lines.lean ====
section
/-!
DEFINITION. Lines: addresses, the events still due, the sending of fabric messages, poison (R8, R22, R53, R77, R149-R153).
-/

namespace Sys2Proof.Machine

/-! ## Addresses (R8, R22, R77) -/

def devOf (pa : Nat) : Nat := pa / 2 ^ 42 % 2 ^ 14
def offOf (pa : Nat) : Nat := pa % 2 ^ 42
/-- The device id of a line number. -/
def lineDev (l : Nat) : Nat := devOf (l * 128)
/-- HBM4 data (R22). -/
def isData (off : Nat) : Bool := decide (off < 0x07800000000)
/-- The module control region (R22). -/
def isControl (off : Nat) : Bool := decide (0x3FF00000000 ≤ off)
/-- A region marked None (R22). -/
def isNone (off : Nat) : Bool := !isData off && !isControl off

/-- The stack and the stack address of a local offset in the data region (R77). -/
def stackOf (ilv : Bool) (o : Nat) : Nat × Nat :=
  if ilv then
    let d := o / 0x1E00000000
    let x := o - d * 0x1E00000000
    (2 * d + x / 2 ^ 12 % 2, x % 2 ^ 12 + x / 2 ^ 13 % 2 ^ 24 * 2 ^ 12)
  else (o / 2 ^ 12 % 8, o % 2 ^ 12 + o / 2 ^ 15 % 2 ^ 24 * 2 ^ 12)

/-- The channel of a stack address (R78). -/
def chanOf (sa : Nat) : Nat := sa / 2 ^ 7 % 32

/-- A stack, or a line's channel, is in a hold: its requests wait (R91, R92, R94). -/
def stackHeld (x : Hbm) : Bool := x.thold || x.crit || x.selfRef
def memHeld (s : State) (l : Nat) : Bool :=
  let o := offOf (l * 128)
  let (k, sa) := stackOf s.ilv o
  lineDev l == s.dev && isData o && (stackHeld (getHbm s k) || (tabGet Chan.reset (getHbm s k).chans (chanOf sa)).hold)

/-- Some stack of the module is in a thermal hold (R92). -/
def thermalHold (s : State) : Bool := s.hbms.any (·.2.thold)

/-- The home die of a line of the module itself (R77), or the peer agent's die for a peer line (R108). -/
def homeDie (s : State) (l : Nat) : Nat :=
  if lineDev l = s.dev then (stackOf s.ilv (offOf (l * 128))).1 / 2 else l / 2 ^ 5 % 4

/-- A byte of a table that the module keeps at a physical address: of its own memory, or of another module's (R161, R165;
assumption log, entry 69). -/
def tableByte (s : State) (pa : Nat) : Byte := if devOf pa = s.dev then readByte s.mem pa else Config.farByte pa s.cycle

/-- The 128 bytes of a line as they stand in memory. -/
def lineData (m : Memory) (l : Nat) : LineData := BitVec.ofNat 1024 (readBytes m (l * 128) 128)

/-! ## Events for the management controller (R421) -/

/-- Codes of the logged events. -/
def evReplace : Nat := 1
def evFatal : Nat := 2
def evThermal : Nat := 3
def evLost : Nat := 4
def evMcstat : Nat := 5
def evSalvage : Nat := 6
def evIntegrity : Nat := 7
def evMessage : Nat := 8
def evMismatch : Nat := 9
def evHandler : Nat := 10
def evError : Nat := 11
def evNode : Nat := 12

/-- An event is logged, with what it names: a line and a trust domain for an integrity fault (R164), a unit, a device. -/
def logEv (s : State) (e : Nat) (a : Nat := 0) (b : Nat := 0) : State := { s with log := s.log ++ [(e, a, b)] }

def asciiBytes (t : String) : List Byte := t.toList.map fun c => BitVec.ofNat 8 c.toNat

/-- The names of the announced events. -/
def eventName (e : Nat) : String :=
  if e = evReplace then "REPLACE_REQUEST" else if e = evFatal then "FATAL" else if e = evThermal then "THERMAL" else "LOST"

/-- A number in hexadecimal digits. -/
def hexBytes (n : Nat) : List Byte := (Nat.toDigits 16 n).map fun c => BitVec.ofNat 8 c.toNat

/-- The ASCII line of an event: its name, the unit kind and the unit number (R421; assumption log, entry 72). -/
def eventLine (x : Nat × Nat × Nat) : List Byte :=
  asciiBytes (eventName x.1) ++ [0x20] ++ hexBytes x.2.1 ++ [0x20] ++ hexBytes x.2.2 ++ [0x0A]

/-- An announced event: logged, sent as a PLDM event, and written as a line on console port 1 where it has a free buffer; at
most 64 lines are kept (R421). -/
def announce (s : State) (e kind unit : Nat) : State :=
  let s := logEv s e kind unit
  let s := { s with hostOut := s.hostOut ++ [[BitVec.ofNat 8 e, BitVec.ofNat 8 kind, BitVec.ofNat 8 unit, BitVec.ofNat 8 (unit / 256)]] }
  if 0 < s.virtio.buffers then
    { s with virtio := { s.virtio with buffers := s.virtio.buffers - 1, port1 := s.virtio.port1 ++ [eventLine (e, kind, unit)] } }
  else
    let l := s.console ++ [(e, kind, unit)]
    { s with console := l.drop (l.length - 64) }

/-! ## Steps still due -/

/-- A hardware step with its argument. -/
abbrev Due := Instr × Arg

/-- A step about two numbers, such as a die and a line. -/
def two (i : Instr) (a b : Nat) : Due := (i, { a := a, b := b })

/-- A step put among those due, in order of time; steps of one time keep their order. -/
def insertEvent (t : Nat) (i : Due) : List (Nat × Due) → List (Nat × Due)
  | [] => [(t, i)]
  | (u, j) :: r => if t < u then (t, i) :: (u, j) :: r else (u, j) :: insertEvent t i r

/-- A step due after some nanoseconds. -/
def after (s : State) (dt : Nat) (i : Due) : State := { s with events := insertEvent (s.mtime + dt) i s.events }

/-- Steps due at once. -/
def afterAll (s : State) (l : List Due) : State := l.foldl (fun s i => after s 0 i) s

/-! ## Fabric messages (R149-R153) -/

/-- The class of a message code; none for a code that R151 does not list. -/
def msgClass (code : Nat) : Option Nat :=
  if 0x01 ≤ code ∧ code ≤ 0x06 then some 0
  else if 0x11 ≤ code ∧ code ≤ 0x17 then some 1
  else if 0x21 ≤ code ∧ code ≤ 0x2B then some 2
  else if 0x31 ≤ code ∧ code ≤ 0x3A then some 3
  else none

/-- The step that handles an arriving message, by its type code (R151). -/
def msgStep (code : Nat) : Instr :=
  match code with
  | 0x01 => .prds | 0x02 => .prdm | 0x03 => .pwrupd | 0x04 => .pwb | 0x05 => .fprobe | 0x06 => .mreq
  | 0x11 => .pfwds | 0x12 => .pfwdm | 0x13 => .pinv | 0x14 => .pbackinv | 0x15 => .mapply
  | 0x16 => .mstate | 0x17 => .mresume
  | 0x21 => .pdata | 0x22 => .pdatae | 0x23 => .pack | 0x24 => .pfwdmiss | 0x25 => .pwrack | 0x26 => .pwback
  | 0x27 => .phold | 0x28 => .fecho | 0x29 => .mack | 0x2A => .mdone | 0x2B => .mstateack
  | 0x31 => .heartbeat | 0x32 => .hbreq | 0x33 => .hbans | 0x34 => .lostdecl | 0x35 => .lostself
  | 0x36 => .parkreq | 0x37 => .parkack | 0x38 => .wakereq | 0x39 => .wakeack | 0x3A => .attest
  | _ => .unknownMessageCode

/-- The step of an arriving message with the message as its argument. -/
def msgInstr (m : Msg) : Due := (msgStep m.code, { msg := some m })

/-- A message of this module without data. -/
def mkMsg (s : State) (dst code line : Nat) : Msg where
  dst := dst
  src := s.dev
  code := code
  vc := 2 * ((msgClass code).getD 0)
  nonMin := false
  hops := 0
  td := 0
  seq := 0
  line := line
  tag := 0
  mask := 0
  data := 0
  aux := []
  unc := false
  lr := false
  body := []
  port := none
  via := .direct

/-! ## Flits (R149, R151; assumption log, entry 49) -/

/-- The codes whose messages carry a line or a unit in two data flits. -/
def carries (code : Nat) : Bool := [0x03, 0x04, 0x06, 0x15, 0x21, 0x22].contains code

/-- A field in the message-specific bytes 48-63. -/
def fieldAt (x lo : Nat) (n : Nat) : Nat := x % 2 ^ n * 2 ^ lo

/-- A message's items in bytes 48-63: each item's first bit and width. -/
def auxLayout (code : Nat) : List (Nat × Nat) :=
  match code with
  | 0x06 | 0x15 => [(0, 32), (32, 12), (44, 2), (46, 8), (54, 3), (57, 56), (113, 14), (127, 1)]
  | 0x11 | 0x12 | 0x13 | 0x14 => [(0, 64), (64, 14), (78, 1)]
  | 0x29 | 0x2A | 0x16 | 0x17 => [(0, 64), (64, 12)]
  | 0x2B => [(64, 40), (104, 12), (0, 64)]
  | 0x34 | 0x3A => [(0, 16)]
  | 0x36 | 0x37 | 0x38 => [(0, 1)]
  | 0x39 => []
  | _ => [(0, 64), (64, 1), (65, 1), (66, 1)]

/-- Bytes 48-63 of the header flit. -/
def auxBits (m : Msg) : Nat :=
  let special := m.code = 0x06 ∨ m.code = 0x15
  ((m.aux.zip (auxLayout m.code)).foldl (fun a x => a + fieldAt x.1 x.2.1 x.2.2) 0) +
    (if special then 0 else m.unc.toNat * 2 ^ 126 + m.lr.toNat * 2 ^ 127)

/-- The header flit (R149). Bytes 32-47 hold the byte mask of a PWrUpd and of a group's operation. -/
def headerOf (m : Msg) : BitVec 512 :=
  let mask := if m.code = 0x03 ∨ m.code = 0x06 ∨ m.code = 0x15 then m.mask.toNat else 0
  BitVec.ofNat 512 (fieldAt m.dst 0 14 + fieldAt m.src 16 14 + fieldAt m.code 32 8 + fieldAt m.vc 40 3 +
    m.nonMin.toNat * 2 ^ 43 + fieldAt m.hops 44 4 + fieldAt m.td 48 8 + fieldAt m.seq 64 64 + fieldAt m.line 128 49 +
    fieldAt m.tag.toNat 192 64 + mask * 2 ^ 256 + auxBits m * 2 ^ 384)

/-- The flits of a message, its header first: two more for a line, the message itself for an Attest (R149, R151). -/
def flitsOf (m : Msg) : List (BitVec 512) :=
  headerOf m :: (if carries m.code then [m.data.extractLsb' 0 512, m.data.extractLsb' 512 512] else m.body)

/-! ## Encryption and integrity (R161-R164, R168) -/

/-- The keys of a trust domain. An empty slot gives keys that mean nothing (R161, R162). -/
def keysOf (s : State) (td : Nat) : KeySlot := (tabGet none s.keys td).getD ⟨0, 0, 0⟩

/-- A line as it stands outside the caches, with its tag: plaintext in trust domain 0, else ciphertext (R163). -/
def sealLine (s : State) (td l : Nat) (x : LineData) : LineData × Word :=
  if td = 0 then (x, 0)
  else
    let k := keysOf s td
    let c := xtsEncrypt k.key1 k.key2 l x
    (c, lineTag k.tagKey c l td)

/-- A line brought into the caches, and whether its tag fits (R163, R164). -/
def unsealLine (s : State) (td l : Nat) (c : LineData) (tag : Word) : LineData × Bool :=
  if td = 0 then (c, true)
  else
    let k := keysOf s td
    (xtsDecrypt k.key1 k.key2 l c, (tabGet none s.keys td).isSome && lineTag k.tagKey c l td == tag)

/-- The tweak of a message's data: its line, or for a unit of a group its id and stamp, which is 0 before the sequencer has
given one (R163, R168; assumption log, entry 82). -/
def msgTweak (m : Msg) : Nat :=
  if m.code = 0x06 ∨ m.code = 0x15 then (m.aux[1]?).getD 0 * 2 ^ 64 + (m.aux[5]?).getD 0 else m.line

/-- A message as it crosses the fabric: what it carries is sealed (R163). -/
def sealMsg (s : State) (m : Msg) : Msg :=
  if carries m.code then
    let (c, t) := sealLine s m.td (msgTweak m) m.data
    { m with data := c, tag := t }
  else m

/-- The data of an arriving message, and whether they are sound: a line that carries its poison has its tag not checked
(R53, R163, R164). -/
def openMsg (s : State) (m : Msg) : LineData × Bool :=
  if m.src = s.dev then (m.data, true) else unsealLine s m.td (msgTweak m) m.data m.tag

/-! ## Sending (R153, R156, R158) -/

/-- The key of the pair (this module, a device) in a class. -/
def pairKey (dev cls : Nat) : Nat := 4 * dev + cls

/-- The most messages of a pair and class that the source keeps unacknowledged. -/
def maxUnacked : Nat := 256

/-- A message leaves the module: it takes its pair's next number, and waits while 256 of its pair and class are
unacknowledged (R153). A message of the module to itself arrives at once. -/
def send (s : State) (m : Msg) : State :=
  if m.dst = s.dev then after s 0 (msgInstr m)
  else
    let k := pairKey m.dst ((msgClass m.code).getD 3)
    let p := tabGet Pair.reset s.pairs k
    let m := { sealMsg s m with seq := p.next }
    let p := { p with next := (p.next + 1) % 2 ^ 64 }
    if maxUnacked ≤ p.unacked.length then
      { s with pairs := tabPut Pair.reset s.pairs k { p with waiting := p.waiting ++ [m] } }
    else
      { s with
        pairs := tabPut Pair.reset s.pairs k { p with unacked := p.unacked ++ [⟨m, []⟩] }
        net := s.net ++ [m] }

/-- The fabric timeout in nanoseconds (R157: FTO in microseconds). -/
def ftoNs (s : State) : Nat := s.fto * 1000

/-- The number of the next request; the numbers return after 2^32 of them. -/
def nextId (n : Nat) : Nat := (n + 1) % 2 ^ 32

/-- A request that awaits an answer: it is sent, recorded with its due time, and times out (R158). -/
def request (s : State) (m : Msg) (harts : List Nat) : State :=
  let id := s.nextReq
  let seq := (tabGet Pair.reset s.pairs (pairKey m.dst ((msgClass m.code).getD 3))).next
  let m := { m with aux := id :: m.aux, seq := seq }
  let s := send s m
  after { s with
    nextReq := nextId id
    reqs := s.reqs ++ [⟨id, m, [], s.mtime + ftoNs s, false, false, harts⟩] } (ftoNs s) (.requestTimeout, { a := id })

/-! ## Commands that wait -/

/-- Copy-engine commands that wait for another module, a transfer or a walk go on: an answer has arrived (R69). -/
def wakeCommands (s : State) : State :=
  (hartIds s).foldl (fun s h =>
    let x := getHart s h
    setHart s h { x with fifo := { x.fifo with cmds := x.fifo.cmds.map fun c => { c with held := false } } }) s

/-! ## The bytes of a line -/

/-- Bytes of a line merged under a mask (R109, R110). -/
def maskMerge (old new : LineData) (mask : LineMask) : LineData :=
  BitVec.ofNat 1024 (packNat 8 ((List.range 128).map fun i =>
    if mask.getLsbD i then (new.toNat >>> (8 * i)) % 256 else (old.toNat >>> (8 * i)) % 256))

/-- The bytes pa to pa + n - 1 of a line as a mask. -/
def byteMask (pa n : Nat) : LineMask := ((1 <<< n) - 1 : BitVec 128) <<< (pa % 128)

/-- The bytes of a value in their place in a line. -/
def inLine (pa v : Nat) : LineData := BitVec.ofNat 1024 (v <<< (8 * (pa % 128)))

/-- A byte of a line's data. -/
def lineByte (d : LineData) (i : Nat) : BitVec 8 := d.extractLsb' (8 * i) 8

/-- The bytes of a line that the module's caches and memory agree on as its committed value. -/
def committedLine (s : State) (l : Nat) : LineData :=
  if lineDev l = s.dev then lineData s.mem l
  else match tabGet none s.peers l with | some p => p.data | none => 0

/-- The committed value of a line of the module replaced under a mask. -/
def mergeMem (s : State) (l : Nat) (new : LineData) (mask : LineMask) : State :=
  { s with mem := writeBytes s.mem (l * 128) 128 (maskMerge (lineData s.mem l) new mask).toNat }

/-- The dragonfly group of a device (R147). -/
def groupOf (dev : Nat) : Nat := dev / 32

end Sys2Proof.Machine
end

