-- ==== Sys2Proof/Machine/Stack.lean ====
section
/-!
DEFINITION. The controllers of the HBM stacks as the home directories use them: the rows that accesses open and close
(R78, R83, R84), the bits, check bits and tags of a granule (R76, R79, R163), the scrub writes that demand writes cancel
(R89), and the requests that wait while a stack or channel is in a hold (R91, R92, R94).
-/

namespace Sys2Proof.Machine

/-! ## Addresses of a stack (R77, R78) -/

/-- The pseudo-channel of a stack address, its bank among all of the stack, and its row. -/
def pcOf (sa : Nat) : Nat := 2 * chanOf sa + sa / 2 ^ 12 % 2
def bankOf (sa : Nat) : Nat := 64 * pcOf sa + sa / 2 ^ 16 % 64
def rowOf (sa : Nat) : Nat := sa / 2 ^ 22

/-- The stack and the stack address of a line of the module. -/
def placeOf (s : State) (l : Nat) : Nat × Nat := stackOf s.ilv (offOf (l * 128))

/-- Where the tag of a line's granule stands: the stack and its stack address as one number (R79). -/
def tagPlace (s : State) (l : Nat) : Nat :=
  let (k, sa) := placeOf s l
  k * 2 ^ 36 + 0xF00000000 + sa / 128 * 8

/-! ## Rows (R83, R84) -/

/-- An access opens its row, which closes again 100 ns later; the hint closes it at once (R83, R84). -/
def pageAccess (s : State) (k sa : Nat) (lr : Bool) : State :=
  let s := modHbm s k fun x => { x with openRows := tabPut none x.openRows (bankOf sa) (if lr then none else some (rowOf sa, s.mtime)) }
  if lr then s else after s 100 (two .rowIdleClose k (bankOf sa))

/-! ## Granules (R76, R79, R88-R90) -/

/-- An event that sets a bit of mcstat is logged, and MEM of extstat set (R82, R392). -/
def memEvent (s : State) : State := logEv { s with extstat := s.extstat ||| 2 } evMcstat

/-- An error that a read meets: counted, and an uncorrectable one reported (R79, R88, R90). -/
def countError (x : Hbm) (err : Nat) : Hbm :=
  if err = 1 then { x with ce := Nat.min (x.ce + 1) (2 ^ 32 - 1) }
  else if err = 2 then { x with ues := Nat.min (x.ues + 1) (2 ^ 32 - 1), ue := true }
  else x

/-- A controller's read meets no error, a corrected one or an uncorrectable one: counted and logged (R79, R82, R88, R90,
R400). -/
def readError (s : State) (k err : Nat) : State :=
  let s := modHbm s k fun x => countError x err
  if err = 1 then logEv s evError 1 k else if err = 2 then memEvent s else s

/-- A demand write cancels the scrub write of its granule (R89). -/
def cancelScrub (x : Hbm) (sa : Nat) : Hbm :=
  match tabGet none x.scrub (pcOf sa) with
  | some b => if b.gran = sa / 128 then { x with scrub := tabPut none x.scrub (pcOf sa) none } else x
  | none => x

/-- Training has ended: the stacks serve the module's memory. Before it, the LLC of die 0 does (R415). -/
def trained (s : State) : Bool := s.memLock

/-- The controller writes the whole granule of a line: its bits as they stand outside the caches, its check bits with or
without the mark of poison, and its tag in the same transaction, a demand write of the tag's granule (R79, R89, R90, R163). -/
def putGranule (s : State) (l td : Nat) (x : LineData) (poison lr : Bool) : State :=
  let (k, sa) := placeOf s l
  let (c, t) := sealLine s td l x
  let s := modHbm (pageAccess s k sa lr) k fun x =>
    let x := cancelScrub x sa
    if td = 0 then x else cancelScrub x (tagPlace s l % 2 ^ 36)
  { s with
    hbm := writeBytes s.hbm (l * 128) 128 c.toNat
    tags := if td = 0 then s.tags else tabPut 0 s.tags (tagPlace s l) t
    badGran := if poison then setInsert s.badGran l else s.badGran.filter (· != l) }

/-! ## What a served request owes (R91, R92, R114, R134) -/

/-- A write of a hart to memory past the caches, or a write-back of it, has been acknowledged (R134, R135). -/
def ncDone (s : State) (id : Nat) : State :=
  (hartIds s).foldl (fun s h =>
    if (getHart s h).ncWait.contains id then modHart s h fun x => { x with ncWait := x.ncWait.filter (· != id) } else s) s

/-- One line of a salvage entry has been written; HEAD counts the entries that are whole, in their order, and SALV is set
(R114, R392). -/
def salvageWritten (s : State) (entry : Nat) : State :=
  let left := s.salvAcks.modify ((entry + 2 ^ 32 - s.salvHead) % 2 ^ 32) (· - 1)
  let whole := (left.takeWhile (· == 0)).length
  if whole = 0 then { s with salvAcks := left }
  else wakeCommands { s with salvAcks := left.drop whole, salvHead := (s.salvHead + whole) % 2 ^ 32, extstat := s.extstat ||| 8 }

/-- Line data that a hart has read past the caches (R155). -/
def giveLine (s : State) (h l : Nat) (d : LineData) (bad : Bool) : State :=
  modHart s h fun x => { x with got := x.got.filter (fun g => g.1 != l) ++ [(l, d, bad)] }

/-- The stack has served a request for a line. A hart that no longer waits for its data does not take them. -/
def settleOwed (s : State) (l : Nat) (o : Owed) : State :=
  match o with
  | .nothing => s
  | .read h => if (getHart s h).stall = some (.miss (.held l)) then giveLine s h l (lineData s.mem l) (s.poison.contains l) else s
  | .store id => ncDone s id
  | .wback d => after s 0 (two .wback d l)
  | .answer m => send s m
  | .salvage n => salvageWritten s n

/-- Memory of the stacks takes the committed value of a line, under a hint, and what the write owes is settled. While the
stack or the channel is in a hold, the write waits there (R92, R94). -/
def writeBackFor (s : State) (l : Nat) (lr : Bool) (o : Owed) : State :=
  if lineDev l ≠ s.dev ∨ ¬ trained s = true then settleOwed s l o
  else
    let td := tabGet 0 s.lineTd l
    let bad := s.poison.contains l
    if memHeld s l then
      modHbm s (placeOf s l).1 fun x => { x with
        waiting := x.waiting ++ [⟨⟨.write, l, lineData s.mem l, BitVec.allOnes 128, bad, lr, td, 0⟩, o⟩] }
    else settleOwed (putGranule s l td (lineData s.mem l) bad lr) l o

/-- A write-back, which carries no hint (R84). -/
def writeBack (s : State) (l : Nat) : State := writeBackFor s l false .nothing

/-- The home reads a line from its stack for an access under a trust domain: the bits are taken as they are, or decrypted
and their tag checked; a granule marked poisoned arrives poisoned, and one whose tag does not fit is delivered poisoned and
logged (R79, R163, R164). In a hold that began during the access, what waits for the stack is served in its place (R92). -/
def readGranule (s : State) (l td : Nat) (lr : Bool) : State :=
  if lineDev l ≠ s.dev ∨ ¬ trained s = true ∨ memHeld s l = true then s
  else
    let (k, sa) := placeOf s l
    let s := pageAccess s k sa lr
    let bad := s.badGran.contains l || (td != 0 && s.badGran.contains (2 ^ 50 + tagPlace s l / 128))
    let (x, ok) := unsealLine s td l (lineData s.hbm l) (tabGet 0 s.tags (tagPlace s l))
    let s := { s with
      mem := writeBytes s.mem (l * 128) 128 x.toNat
      lineTd := tabPut 0 s.lineTd l td
      poison := if bad || !ok then setInsert s.poison l else s.poison.filter (· != l) }
    if bad || ok then s else logEv s evIntegrity l td

/-! ## Requests that wait (R91, R92, R94) -/

/-- A read of a line waits at its stack for the end of a hold, in the order of arrival, with its hint (R84, R91). -/
def awaitStack (s : State) (l td : Nat) (lr : Bool) (o : Owed) : State :=
  let k := (placeOf s l).1
  if (getHbm s k).waiting.any fun r => r.req.op == .read && r.req.line == l && r.owed == o then s
  else modHbm s k fun x => { x with waiting := x.waiting ++ [⟨⟨.read, l, 0, 0, false, lr, td, 0⟩, o⟩] }

/-! ## The scrubber's time (R88) -/

/-- The nanoseconds between two granules of a pass that takes so many hours, of 2^29 granules (R88). -/
def scrubInterval (hours : Nat) : Nat := hours * 3600000000000 / 2 ^ 29

/-- The step of a scrubber that is due: a pending write, or the read of the next granule. -/
def scrubWork (s : State) : Option (Instr × Arg) :=
  if !trained s then none
  else
    [0, 1, 2, 3, 4, 5, 6, 7].findSome? fun k =>
      let x := getHbm s k
      let write := (x.scrub.find? fun b => b.2.any (·.write)).map fun b => (Instr.scrubWrite, ({ a := k, b := b.1 } : Arg))
      let p := pcOf (x.pos * 128)
      let held := stackHeld x || (tabGet Chan.reset x.chans (p / 2)).hold
      let read := if x.period ≠ 0 ∧ held = false ∧ x.scrubAt ≤ s.mtime then some (Instr.scrubRead, ({ a := k, b := p } : Arg)) else none
      write <|> read

end Sys2Proof.Machine
end

