-- ==== Sys2Proof/Machine/Levels.lean ====
section
/-!
DEFINITION. Lines outside the directory's transactions: the coherence state that a line's caches hold (R96), the copies
of non-coherent ranges at each level (R133-R135, R155), the posting of bytes to the homes of peer lines (R109, R112, R139),
and the salvage ring (R113, R114).
-/

namespace Sys2Proof.Machine

/-! ## The caches of a line (R96) -/

def getCoh (s : State) (l : Nat) : LineCoh := tabGet LineCoh.reset s.coh l
def modCoh (s : State) (l : Nat) (f : LineCoh → LineCoh) : State := { s with coh := tabMod LineCoh.reset s.coh l f }

/-- Cache numbers: the L1 data cache of core c is c, then cluster caches, LLCs, and the L1 instruction caches. -/
def clKey (cl : Nat) : Nat := 512 + cl
def llcKey (d : Nat) : Nat := 544 + d
def l1iKey (core : Nat) : Nat := 560 + core
def cacheSt (c : LineCoh) (k : Nat) : Moesi := tabGet Moesi.i c.caches k
def setCache (c : LineCoh) (k : Nat) (st : Moesi) : LineCoh := { c with caches := tabPut Moesi.i c.caches k st }

/-- Whether the module's state of a line lets its holder write. -/
def ownState (st : Moesi) : Bool := st == .m || st == .o || st == .e

/-! ## Non-coherent levels (R133, R135) -/

/-- The level of a scope: 0 L1, 1 cluster cache, 2 home memory (R133). -/
def scopeLevel : Scope → Nat | .hart => 0 | .core => 0 | .cl => 1 | _ => 2

def ncFind (l : Nat) (t : List NcLine) : Option NcLine := t.find? (fun x => x.line == l)
def ncSet (x : NcLine) (t : List NcLine) : List NcLine := t.filter (fun y => y.line != x.line) ++ [x]
def ncDrop (l : Nat) (t : List NcLine) : List NcLine := t.filter (fun y => y.line != l)

/-- The copy of a line at level 0 or 1 for a hart. -/
def ncCopy (s : State) (h lvl l : Nat) : Option NcLine :=
  if lvl = 0 then ncFind l (getCore s (coreOf h)).ncl1 else if lvl = 1 then ncFind l (getCluster s (clusterOf h)).ncl2 else none

/-- A copy put at level 0 or 1. -/
def ncPut (s : State) (h lvl : Nat) (x : NcLine) : State :=
  if lvl = 0 then modCore s (coreOf h) fun c => { c with ncl1 := ncSet x c.ncl1 }
  else if lvl = 1 then modCluster s (clusterOf h) fun c => { c with ncl2 := ncSet x c.ncl2 }
  else s

/-- A copy removed from level 0 or 1. -/
def ncRemove (s : State) (h lvl l : Nat) : State :=
  if lvl = 0 then modCore s (coreOf h) fun c => { c with ncl1 := ncDrop l c.ncl1 }
  else if lvl = 1 then modCluster s (clusterOf h) fun c => { c with ncl2 := ncDrop l c.ncl2 }
  else s

/-- The line in home memory as a hart's access past the caches sees it: the line that its home, or a stack at the end of a
hold, has answered to the hart (R91, R155). -/
def homeLine (s : State) (h l : Nat) : LineData :=
  match (getHart s h).got.find? (fun x => x.1 == l) with
  | some x => x.2.1
  | none => committedLine s l

/-- The data of a line at a level or the next level above that holds it. A line that software uses through a range and
coherently in one interval has unspecified contents (R46): the model answers the copy of the range where there is one, and
home memory otherwise (assumption log, entry 38). -/
def ncData (s : State) (h lvl l : Nat) : LineData :=
  let up (k : Nat) (d : LineData) := match ncCopy s h k l with | some x => x.data | none => d
  let home := homeLine s h l
  if lvl = 0 then up 0 (up 1 home) else if lvl = 1 then up 1 home else home

/-! ## Peer lines (R108, R109, R112) -/

/-- The update of a peer line leaves for its home unless one is under way; it carries the line's poison (R53, R109). -/
def sendPosted (s : State) (l : Nat) : State :=
  match tabGet none s.peers l with
  | none => s
  | some p =>
    if p.fly ≠ 0 ∨ p.pend = 0 ∨ p.orphan then s
    else
      let s := { s with peers := tabPut none s.peers l (some { p with
        fly := p.pend, pend := 0, flyHarts := p.pendHarts, pendHarts := [], flyCmds := p.pendCmds, pendCmds := [] }) }
      let s := p.pendCmds.foldl (fun s h => modHart s h fun x => { x with fifo := { x.fifo with
        cmds := x.fifo.cmds.map fun c => { c with posted := c.posted.map fun w => if w.1 = l then (l, w.2.1, true) else w } } }) s
      request s { mkMsg s (lineDev l) 0x03 l with
        mask := p.pend, data := p.data, td := tabGet 0 s.lineTd l, aux := [if s.poison.contains l then 1 else 0] } p.pendHarts

/-- The write-back of a peer line to its home, which is whole; it says whether the module keeps the copy and whether it is poisoned
(R53, R111, R280). -/
def writeBackMsg (s : State) (l : Nat) (p : PeerLine) (keep : Bool) : Msg :=
  let flag (b : Bool) : Nat := if b then 1 else 0
  { mkMsg s (lineDev l) 0x04 l with
    data := p.data, td := tabGet 0 s.lineTd l, aux := [flag keep, flag (s.poison.contains l)] }

/-- A dirty peer line is written back to its home (R102, R111). -/
def writePeer (s : State) (l : Nat) (p : PeerLine) : State := request s (writeBackMsg s l p false) []

/-- A home recorded in a hart's touched-device set (R139). -/
def touchDev (x : Hart) (d : Nat) : Hart :=
  if x.touched.contains d || x.groupMask.contains (groupOf d) then x
  else if x.touched.length < 32 then { x with touched := setInsert x.touched d }
  else { x with groupMask := setInsert x.groupMask (groupOf d) }

/-- The bytes under a mask written to a peer line by a hart, or by a command of its: an owned line takes them, another
posts them. The hart's cluster keeps a whole copy in S (R109). Bytes for a home that has been recorded lost since the store
was executed stay in the module's orphaned copy, which counts as M, and count in no counter (R112). -/
def commitPeer (s : State) (h l : Nat) (cmd : Bool) (data : LineData) (mask : LineMask) : State :=
  let p := (tabGet none s.peers l).getD PeerLine.none
  let lost := s.lostMap.contains (lineDev l)
  let merged := maskMerge p.data data mask
  let put (s : State) (p : PeerLine) : State := { s with peers := tabPut none s.peers l (some p) }
  let touch (s : State) : State := if cmd then s else modHart s h fun x => touchDev x (lineDev l)
  if ownState p.st then put s { p with st := .m, data := merged, valid := p.valid ||| mask, orphan := p.orphan || lost }
  else if p.orphan || lost then
    touch (put s { p with st := .m, data := merged, valid := p.valid ||| mask, orphan := true, discarded := true })
  else
    let fresh := if cmd then !p.pendCmds.contains h else !p.pendHarts.contains h
    let s := put s { p with
      st := .s, data := merged, valid := p.valid ||| mask, pend := p.pend ||| mask,
      pendHarts := if cmd then p.pendHarts else setInsert p.pendHarts h
      pendCmds := if cmd then setInsert p.pendCmds h else p.pendCmds }
    let k := clKey (clusterOf h)
    let s := modCoh s l fun c => if cacheSt c k == .i then c else setCache c k .s
    let s := if !cmd && fresh then modHart s h fun x => { x with postedCnt := x.postedCnt + 1 } else s
    sendPosted (touch s) l

/-! ## Writes past the caches (R135, R155) -/

/-- Bytes of a non-coherent range written to home memory under a hint: of this module, as one read, merge and write of the
granule, which a hold of its stack delays; of another, by a PWrUpd that leaves no entry there. The hart's releases await both
(R84, R89, R92, R134, R135, R155). -/
def ncHome (s : State) (h l : Nat) (data : LineData) (mask : LineMask) (lr : Bool) : State :=
  if lineDev l = s.dev then
    let s := if mask = BitVec.allOnes 128 then { s with poison := s.poison.filter (· != l) } else s
    let s := mergeMem s l data mask
    if h ≠ noHart ∧ memHeld s l = true ∧ trained s = true then
      let id := s.nextReq
      modHart (writeBackFor { s with nextReq := nextId id } l lr (.store id)) h fun x => { x with ncWait := x.ncWait ++ [id] }
    else writeBackFor s l lr .nothing
  else if s.lostMap.contains (lineDev l) then s
  else
    let id := s.nextReq
    let s := request s { mkMsg s (lineDev l) 0x03 l with
      mask := mask, data := data, td := tabGet 0 s.lineTd l, aux := [if s.poison.contains l then 1 else 0], unc := true, lr := lr } [h]
    if h = noHart then s else modHart s h fun x => { touchDev x (lineDev l) with ncWait := x.ncWait ++ [id] }

/-- The allowed levels from `lvl` on are filled from the next level that holds the line (R135). -/
def ncFill (s : State) (h lvl l : Nat) : State :=
  let s := if lvl ≤ 1 ∧ (ncCopy s h 1 l).isNone ∧ ¬ (lvl = 0 ∧ (ncCopy s h 0 l).isSome)
    then ncPut s h 1 ⟨l, ncData s h 1 l, 0⟩ else s
  if lvl = 0 ∧ (ncCopy s h 0 l).isNone then ncPut s h 0 ⟨l, ncData s h 0 l, 0⟩ else s

/-- Bytes written to a level of a non-coherent range; the levels below that the hart holds are not touched (R135). Of a
line of another home that has left the hart's caches since it was fetched, the bytes go to its home. -/
def ncStore (s : State) (h lvl l : Nat) (data : LineData) (mask : LineMask) (lr : Bool) : State :=
  if lvl ≤ 1 then
    let kept := (ncCopy s h 1 l).isSome || (ncCopy s h lvl l).isSome
    let s := if lineDev l = s.dev || kept then ncFill s h lvl l else s
    match ncCopy s h lvl l with
    | some x => ncPut s h lvl { x with data := maskMerge x.data data mask, dirty := x.dirty ||| mask }
    | none => ncHome s h l data mask lr
  else ncHome s h l data mask lr

/-- The clean bytes that an atomic or a release at level `lvl` leaves in the hart's copies below it (R135, R277). -/
def ncClean (s : State) (h lo lvl l : Nat) (data : LineData) (mask : LineMask) : State :=
  [0, 1].foldl (fun s k =>
    if lo ≤ k ∧ k < lvl then
      match ncCopy s h k l with
      | some x => ncPut s h k { x with data := maskMerge x.data data mask, dirty := x.dirty &&& ~~~mask }
      | none => s
    else s) s

/-- The dirty bytes of a copy at level k move to level k + 1, and the copy stays clean; of a line of another home that the
cluster cache no longer holds, they go on to the home, for a hart that awaits them or for none (R135). -/
def ncUp (s : State) (h owner k l : Nat) : State :=
  match ncCopy s h k l with
  | some x =>
    let s := ncPut s h k { x with dirty := 0 }
    if x.dirty = 0 then s
    else match ncCopy s h (k + 1) l with
      | some y => ncPut s h (k + 1) { y with data := maskMerge y.data x.data x.dirty, dirty := y.dirty ||| x.dirty }
      | none =>
        if k = 0 ∧ lineDev l = s.dev then ncPut s h 1 ⟨l, maskMerge (homeLine s h l) x.data x.dirty, x.dirty⟩
        else ncHome s owner l x.data x.dirty false
  | none => s

/-- CWB at a level: the dirty bytes of the copies below it move up to it, and the copies stay clean (R135). -/
def ncWriteBack (s : State) (h lo lvl l : Nat) : State :=
  [0, 1].foldl (fun s k => if lo ≤ k ∧ k < lvl then ncUp s h h k l else s) s

/-- CINV at a level: the copies below it go (R135). -/
def ncInvalidate (s : State) (h lo lvl l : Nat) : State :=
  [0, 1].foldl (fun s k => if lo ≤ k ∧ k < lvl then ncRemove s h k l else s) s

/-! ## The salvage ring (R113, R114) -/

/-- Bytes of a line of the module's own memory written by a unit of the module, as a posted write of the module to itself:
the home invalidates every copy first (R110, R114). `ring` names a salvage entry, as its
number plus one, or is 0. -/
def selfWrite (s : State) (l : Nat) (data : LineData) (mask : LineMask) (poison : Bool) (ring : Nat) : State :=
  send s { mkMsg s s.dev 0x03 l with
    mask := mask, data := data, td := tabGet 0 s.lineTd l, aux := [0, if poison then 1 else 0, ring] }

/-- Every holder of a line that a unit has written in memory loses its copy: a posted write of no byte (R110). -/
def invalidateHolders (s : State) (l : Nat) : State :=
  let c := getCoh s l
  if c.dir.st == .i && c.busy.isNone && c.queue.isEmpty then s else selfWrite s l 0 0 (s.poison.contains l) 0

/-- An orphaned dirty line goes to the salvage ring as one entry of two lines, which keep its poison, or is dropped and
counted; HEAD moves on once both lines are written (R113, R114). -/
def salvage (s : State) (l : Nat) (p : PeerLine) : State :=
  let size := 2 ^ (s.salvSz + 4)
  let head := s.salvHead + s.salvAcks.length
  if !s.salvEn || decide ((head + 2 ^ 32 - s.salvTail) % 2 ^ 32 = size) then
    { s with salvOvf := Nat.min (s.salvOvf + 1) (2 ^ 32 - 1) }
  else
    let k := (s.salvBase + 256 * (head % size)) / 128
    let bad := s.poison.contains l
    let flags := (if p.discarded then 1 else 0) + (if bad then 2 else 0)
    let s := selfWrite s k p.data (BitVec.allOnes 128) bad (head + 1)
    let s := selfWrite s (k + 1) (BitVec.ofNat 1024 (l * 128 + lineDev l * 2 ^ 64 + flags * 2 ^ 80)) (BitVec.allOnes 128) bad (head + 1)
    { logEv s evSalvage l with salvAcks := s.salvAcks ++ [2] }

end Sys2Proof.Machine
end

