-- ==== Sys2Proof/Machine/Caches.lean ====
section
/-!
DEFINITION. The ways of the caches: where a new line goes under its hint (R50), which line makes room for it, and what
happens to a line that a cache evicts (R47-R49, R97, R102, R109, R113). The sets of R47 are chosen by the low bits of the
line number, those of the LLC by the bits above the ones that name the slice (assumption log, entry 39).
-/

namespace Sys2Proof.Machine

/-! ## Placement (R50) -/

/-- Where a new line goes in the order of a set. -/
inductive Place | none | mru | lru | kept
  deriving DecidableEq, Repr

def l1Place (hint : Nat) : Place := if hint = 1 ∨ hint = 5 then .none else if hint = 4 then .lru else .mru

/-- A write needs its line in the cluster cache (R97), so the hint against allocation places it there at the end of the
order (assumption log, entry 40). -/
def l2Place (hint : Nat) (own : Bool) : Place :=
  if hint = 1 ∨ hint = 4 then .lru else if hint = 5 then (if own then .lru else .none) else if hint = 2 then .kept else .mru

def llcPlace (hint : Nat) : Place := if hint = 1 ∨ hint = 4 ∨ hint = 5 then .lru else if hint = 6 then .kept else .mru

/-- A line leaves a set. -/
def wayDrop (l : Nat) (ws : List Way) : List Way := ws.filter fun w => w.line != l

/-- A line that a set holds is used: it becomes the most recently used one, whatever the hint. -/
def wayTouch (l : Nat) (ws : List Way) : List Way :=
  match ws.find? (fun w => w.line == l) with
  | some w => w :: wayDrop l ws
  | none => ws

/-- The oldest mark of a set goes where `max` lines are marked. -/
def unmarkOldest (max : Nat) (ws : List Way) : List Way :=
  let times := ws.filterMap (·.kept)
  if times.length < max then ws
  else match times.foldl (fun b t => match b with | none => some t | some u => some (Nat.min t u)) none with
    | some t => match ws.find? (fun w => w.kept == some t) with
      | some x => ws.map fun w => if w = x then { w with kept := none } else w
      | none => ws
    | none => ws

/-- A line enters a set that has room for it; at most `max` lines carry the mark of the kept place. -/
def wayPut (p : Place) (now max l hint : Nat) (ws : List Way) : List Way :=
  match p with
  | .none => ws
  | .mru => ⟨l, none, hint⟩ :: ws
  | .lru => ws ++ [⟨l, none, hint⟩]
  | .kept => ⟨l, some now, hint⟩ :: unmarkOldest max ws

/-- The line that makes room: the least recently used one that may go, one without a mark first. -/
def wayVictim (stays : Nat → Bool) (ws : List Way) : Option Nat :=
  let c := ws.reverse.filter fun w => !stays w.line
  ((c.find? fun w => w.kept.isNone) <|> c.head?).map (·.line)

/-! ## Sets (R47, R48) -/

def l1iSet (l : Nat) : Nat := l % 128
def l1dSet (l : Nat) : Nat := l % 64
def l2Set (l : Nat) : Nat := l % 4096
/-- The LLC slice of a line, and its set among those of all slices (R48). -/
def llcSlice (l : Nat) : Nat := (l % 16) ^^^ (l / 16 % 16) ^^^ (l / 256 % 16) ^^^ (l / 4096 % 16)
def llcSet (l : Nat) : Nat := 2048 * llcSlice l + l / 16 % 2048

def l1iWays (s : State) (core l : Nat) : List Way := tabGet [] (getCore s core).l1i (l1iSet l)
def l1dWays (s : State) (core l : Nat) : List Way := tabGet [] (getCore s core).l1d (l1dSet l)
def l2Ways (s : State) (cl l : Nat) : List Way := tabGet [] (getCluster s cl).l2 (l2Set l)
def llcWays (s : State) (d l : Nat) : List Way := tabGet [] (getDie s d).llc (llcSet l)

def setL1i (s : State) (core l : Nat) (f : List Way → List Way) : State :=
  modCore s core fun c => { c with l1i := tabMod [] c.l1i (l1iSet l) f }
def setL1d (s : State) (core l : Nat) (f : List Way → List Way) : State :=
  modCore s core fun c => { c with l1d := tabMod [] c.l1d (l1dSet l) f }
def setL2 (s : State) (cl l : Nat) (f : List Way → List Way) : State :=
  modCluster s cl fun c => { c with l2 := tabMod [] c.l2 (l2Set l) f }
def setLlc (s : State) (d l : Nat) (f : List Way → List Way) : State :=
  modDie s d fun c => { c with llc := tabMod [] c.llc (llcSet l) f }

/-! ## Lines that leave (R48, R97, R101) -/

/-- The agents of a die: its cluster caches and its LLC. -/
def agentsOf (d : Nat) : List Nat := (List.range 8).map (fun i => clKey (8 * d + i)) ++ [llcKey d]

/-- An L1 data cache, or an L1 instruction cache, no longer holds a line. -/
def dropL1d (s : State) (l core : Nat) : State := modCoh (setL1d s core l (wayDrop l)) l fun c => setCache c core .i
def dropL1i (s : State) (l core : Nat) : State := modCoh (setL1i s core l (wayDrop l)) l fun c => setCache c (l1iKey core) .i

/-- The L1 caches of a cluster lose a line (R48). -/
def dropL1s (s : State) (l cl : Nat) : State :=
  ((List.range 16).map (· + 16 * cl)).foldl (fun s core => dropL1i (dropL1d s l core) l core) s

/-- An agent of a die loses a line, and with a cluster cache the L1 caches below it (R48). -/
def agentLoses (s : State) (l k : Nat) : State :=
  if k < 544 then
    let cl := k - 512
    modCoh (setL2 (dropL1s s l cl) cl l (wayDrop l)) l fun c => setCache c k .i
  else modCoh (setLlc s (k - 544) l (wayDrop l)) l fun c => setCache c k .i

/-- The cluster of a core's L1 caches, by their number. -/
def l1Cluster (k : Nat) : Option Nat := if k < 512 then some (k / 16) else if 560 ≤ k then some ((k - 560) / 16) else none

/-- An agent, or an L1 cache below it, holds a copy: an L1 cache may hold the bytes of a posted store without its cluster
cache (R109). -/
def agentHolds (c : LineCoh) (k : Nat) : Bool := cacheSt c k != .i || c.caches.any fun x => x.2 != .i && l1Cluster x.1 == some (k - 512)

/-- All agents of a die but one lose the line; those that do not hold it have nothing to lose. -/
def dropDie (s : State) (l d : Nat) (but : Option Nat) : State :=
  (agentsOf d).foldl (fun s k => if some k = but || !agentHolds (getCoh s l) k then s else agentLoses s l k) s

/-- A line that a cluster cache no longer holds alone is clean in the L1 caches below it (R96). -/
def cleanL1s (c : LineCoh) (cl : Nat) : LineCoh :=
  ((List.range 16).map (· + 16 * cl)).foldl (fun c core => if cacheSt c core == .m then setCache c core .s else c) c

/-- An agent's state after others have a copy too. -/
def shareAgent (c : LineCoh) (k : Nat) (st : Moesi) : LineCoh :=
  let c := setCache c k st
  if k < 544 then cleanL1s c (k - 512) else c

/-- Every cache of the module loses the line. -/
def dropAll (s : State) (l : Nat) : State := [0, 1, 2, 3].foldl (fun s d => dropDie s l d none) s

/-- A cache of the module holds the line. -/
def cachedAny (s : State) (l : Nat) : Bool := (getCoh s l).caches.any fun c => decide (512 ≤ c.1) && c.2 != .i

/-- A peer line that no cache of the module holds any more, and that owes its home nothing, is no longer the module's: a
copy in S or E goes silently, a dirty one to its home, or to the salvage ring (R102, R111, R113). -/
def tidyPeer (s : State) (l : Nat) : State :=
  match tabGet none s.peers l with
  | some p =>
    let c := getCoh s l
    if p.pend ||| p.fly = 0 && !cachedAny s l && c.fills.isEmpty && c.busy.isNone then
      let s := if p.st == .m || p.st == .o then (if p.orphan then salvage s l p else writePeer s l p) else s
      modCoh { s with peers := tabPut none s.peers l none } l fun c => { c with dir := DirEnt.none }
    else s
  | none => s

/-! ## Evictions (R48, R97, R102, R109, R113, R135) -/

/-- A line that an uncommitted chunk of a cluster has written: its committed copy stays in the cluster cache (R97). The
lines of a pre-admitted chunk need not, as no other agent takes them before its commit (R130, R131). -/
def writtenIn (s : State) (cl l : Nat) : Bool :=
  (hartIds s).any fun h => clusterOf h == cl && s.soloHart != some h &&
    ((getHart s h).chunk.writes.contains l || (getHart s h).inflight.any fun c => c.writes.contains l)

/-- A line whose posted bytes wait or are under way stays in the LLC (R109). -/
def posting (s : State) (l : Nat) : Bool :=
  match tabGet none s.peers l with | some p => p.pend ||| p.fly != 0 | none => false

/-- A dirty line leaves the caches of a die: an own line goes to its home through the write-back buffer, a peer line to its
home by PWb, an orphaned one to the salvage ring (R102, R111, R113). The home's entry then names the die no more, so shared
copies of the die go with it (assumption log, entry 64). -/
def leaveDie (s : State) (d l : Nat) : State :=
  let s := dropDie s l d none
  if lineDev l = s.dev then
    let x := committedLine s l
    after (modCoh s l fun c => { c with wb := some (d, x) }) 0 (.wbdata, { a := d, b := l, data := x })
  else match tabGet none s.peers l with
    | none => s
    | some p =>
      if p.st == .m || p.st == .o then
        let keep := cachedAny s l
        let s := if p.orphan then salvage s l p else request s (writeBackMsg s l p keep) []
        tidyPeer { s with peers := tabPut none s.peers l (some { p with st := if keep then .s else .e }) } l
      else tidyPeer s l

/-- An LLC evicts a line: a dirty one leaves the die, others go silently (R102, R113). -/
def evictLlc (s : State) (d l : Nat) : State :=
  let st := cacheSt (getCoh s l) (llcKey d)
  let s := agentLoses s l (llcKey d)
  if st == .m || st == .o then leaveDie s d l else tidyPeer s l

/-- A line enters the LLC of a die in a state; where no line of its set may go it is not allocated. -/
def putLlc (s : State) (d l hint : Nat) (st : Moesi) : State :=
  let ws := llcWays s d l
  if ws.any (·.line == l) then modCoh (setLlc s d l (wayTouch l)) l fun c => setCache c (llcKey d) st
  else
    let s := if ws.length < 24 then s else match wayVictim (posting s) ws with | some v => evictLlc s d v | none => s
    if (llcWays s d l).length < 24 then
      modCoh (setLlc s d l (wayPut (llcPlace hint) s.cycle 12 l hint)) l fun c => setCache c (llcKey d) st
    else s

/-- The hint under which a cluster cache holds a line (R50). -/
def wayHint (s : State) (cl l : Nat) : Nat := (((l2Ways s cl l).find? fun w => w.line == l).map (·.hint)).getD 0

/-- EvictM: a cluster cache evicts a line in M or O, and the line's LLC slice takes it in the same state, under the hint that
brought it (R50, R102); where every way of the slice's set must stay, the line goes to its home. -/
def evictM (s : State) (cl l : Nat) : State :=
  let st := cacheSt (getCoh s l) (clKey cl)
  if st == .m || st == .o then
    let t := putLlc (agentLoses s l (clKey cl)) (cl / 8) l (wayHint s cl l) st
    if cacheSt (getCoh t l) (llcKey (cl / 8)) == .i then leaveDie t (cl / 8) l else t
  else s

/-- The copies of a non-coherent line at L1 level and in the cluster cache leave: what is dirty moves up (R48, R135). -/
def evictNc1 (s : State) (core l : Nat) : State := ncRemove (ncUp s (8 * core) noHart 0 l) (8 * core) 0 l
def evictNc2 (s : State) (cl l : Nat) : State :=
  match ncFind l (getCluster s cl).ncl2 with
  | some x =>
    let s := modCluster s cl fun c => { c with ncl2 := ncDrop l c.ncl2 }
    if x.dirty = 0 then s else ncHome s noHart l x.data x.dirty false
  | none => s

/-- A cluster cache evicts a line: the L1 caches below lose it, with what is dirty in them (R48, R102). -/
def evictL2 (s : State) (cl l : Nat) : State :=
  let s := ((List.range 16).map (· + 16 * cl)).foldl (fun s core => evictNc1 s core l) s
  let s := evictNc2 s cl l
  let st := cacheSt (getCoh s l) (clKey cl)
  if st == .m || st == .o then evictM s cl l else tidyPeer (agentLoses s l (clKey cl)) l

/-- An L1 data cache evicts a line; a line written speculatively goes on in a way of the cluster cache (R97, R135). -/
def evictL1d (s : State) (core l : Nat) : State := dropL1d (evictNc1 s core l) l core

/-! ## Lines that enter (R47-R50, R97) -/

/-- Speculative lines of the harts of a scope that a condition holds of; lines of tile stores or the others. -/
def specLines (s : State) (scope : Nat → Bool) (tile : Bool) (f : Nat → Bool) : List Nat :=
  ((hartIds s).filter scope).flatMap fun h =>
    let x := getHart s h
    (x.inflight ++ [x.chunk]).flatMap fun c => c.writes.filter fun l => f l && (c.tlines.contains l == tile)

/-- Ways of a set of the cluster cache that hold speculative bytes: of tile stores, and of the lines that an L1 set of
eight ways cannot hold (R49, R97). -/
def specWays (s : State) (cl l : Nat) : Nat :=
  let here (k : Nat) : Bool := l2Set k == l2Set l
  let tiles := (specLines s (fun h => clusterOf h == cl) true here).length
  let spill (core : Nat) : Nat :=
    ((List.range 64).map fun i =>
      let inSet := specLines s (fun h => coreOf h == core) false fun k => l1dSet k == i
      if inSet.length ≤ 8 then 0 else (inSet.drop 8).countP here).sum
  let cores := ((hartIds s).filter fun h => clusterOf h == cl).map coreOf
  tiles + (cores.eraseDups.map spill).sum

/-- The ways of a set of a cluster cache that committed copies may take (R47, R49, R401). -/
def l2Room (s : State) (cl l : Nat) : Nat := 16 - (getCluster s cl).waysRetired.length - specWays s cl l

/-- Every way of a line's set in the cluster cache is taken by lines that stay: no new line is allocated there. -/
def l2Full (s : State) (cl l : Nat) : Bool :=
  let ws := l2Ways s cl l
  !ws.any (·.line == l) && decide (l2Room s cl l ≤ ws.length) && (wayVictim (writtenIn s cl) ws).isNone

/-- Lines leave a set of the cluster cache until the others find room in its ways (R47, R401). -/
def fitL2 (s : State) (cl l : Nat) : State :=
  (List.range 16).foldl (fun s _ =>
    let ws := l2Ways s cl l
    if ws.length ≤ l2Room s cl l then s
    else match wayVictim (writtenIn s cl) ws with | some v => evictL2 s cl v | none => s) s

/-- A line is given a way of the cluster cache, where one can be had (R47, R50). -/
def wayL2 (s : State) (cl l hint : Nat) (own : Bool) : State :=
  let ws := l2Ways s cl l
  if ws.any (·.line == l) then setL2 s cl l (wayTouch l)
  else
    let s := if ws.length < l2Room s cl l then s else match wayVictim (writtenIn s cl) ws with | some v => evictL2 s cl v | none => s
    if (l2Ways s cl l).length < l2Room s cl l then setL2 s cl l (wayPut (l2Place hint own) s.cycle 8 l hint) else s

/-- A line enters the cluster cache in a state, once `l2Full` is known not to hold. -/
def putL2 (s : State) (cl l hint : Nat) (own : Bool) (st : Moesi) : State :=
  modCoh (wayL2 s cl l hint own) l fun c => setCache c (clKey cl) st

/-- A core's access uses a line in its L1 data cache, or brings it there under the hint; a line that the chunk writes is
there in M where its cluster holds it so, and with the bytes of a posted store in S (R50, R96, R97, R109). -/
def useL1d (s : State) (core l hint : Nat) (own : Bool) : State :=
  let ws := l1dWays s core l
  let c := getCoh s l
  let st : Moesi := if cacheSt c (clKey (core / 16)) == .m && (own || cacheSt c core == .m) then .m else .s
  if ws.any (·.line == l) then modCoh (setL1d s core l (wayTouch l)) l fun c => setCache c core st
  else if l1Place hint = .none then s
  else
    let s := if ws.length < 8 then s else match wayVictim (writtenIn s (core / 16)) ws <|> ws.getLast?.map (·.line) with
      | some v => evictL1d s core v
      | none => s
    modCoh (setL1d s core l (wayPut (l1Place hint) s.cycle 8 l hint)) l fun c => setCache c core st

/-- The same for a line of a non-coherent range, which has no coherence state (R135). -/
def useL1Nc (s : State) (core l hint : Nat) : State :=
  let ws := l1dWays s core l
  if ws.any (·.line == l) then setL1d s core l (wayTouch l)
  else if l1Place hint = .none then s
  else
    let s := if ws.length < 8 then s else match wayVictim (writtenIn s (core / 16)) ws <|> ws.getLast?.map (·.line) with
      | some v => evictL1d s core v
      | none => s
    setL1d s core l (wayPut (l1Place hint) s.cycle 8 l hint)

/-- The ways of a line that an access to a non-coherent range fills (R47, R135). -/
def ncWays (s : State) (h lvl l hint : Nat) : State :=
  let s := if lvl ≤ 1 then wayL2 s (clusterOf h) l hint true else s
  if lvl = 0 then useL1Nc s (coreOf h) l hint else s

/-- An instruction fetch brings its line into the L1 instruction cache (R47). -/
def useL1i (s : State) (core l : Nat) : State :=
  let ws := l1iWays s core l
  if ws.any (·.line == l) then setL1i s core l (wayTouch l)
  else
    let s := if ws.length < 4 then s else match wayVictim (fun _ => false) ws with | some v => dropL1i s v core | none => s
    modCoh (setL1i s core l (wayPut .mru s.cycle 0 l 0)) l fun c => setCache c (l1iKey core) .s

/-- The other cores of a cluster lose a line that one of its cores writes; a tile store drops it from its own core's L1
data cache too (R96, R97). -/
def soleL1 (s : State) (core l : Nat) (tile : Bool) : State :=
  ((List.range 16).map (· + 16 * (core / 16))).foldl (fun s c =>
    let s := if cacheSt (getCoh s l) (l1iKey c) == .i then s else dropL1i s l c
    if (c = core ∧ tile = false) ∨ cacheSt (getCoh s l) c == .i then s else dropL1d s l c) s

/-- A squash invalidates the speculative copies of a core's L1 data cache, which are its copies of the lines that the chunk
has written; the committed copies keep their state (R97). -/
def dropSpec (s : State) (core : Nat) (ls : List Nat) : State :=
  ls.foldl (fun s l => if cacheSt (getCoh s l) core == .i then s else dropL1d s l core) s

/-- The peer agent's LLC takes a line whose posted bytes wait or are under way, and the peer entry records the agent's die
(R108, R109). A cluster that does not hold the line whole keeps nothing of it in the L1 caches. -/
def holdPosted (s : State) (l : Nat) : State :=
  let d := homeDie s l
  if posting s l && cacheSt (getCoh s l) (llcKey d) == .i then
    modCoh (putLlc s d l 0 .s) l fun c => { c with dir := { c.dir with
      st := if c.dir.st == .i then .s else c.dir.st, sharers := setInsert c.dir.sharers d, used := s.cycle } }
  else s

/-- The hint of the instruction that the moving hart executes (R50, R216). -/
def hintOf (s : State) : Nat := field 43 41 s.cur.arch.iw

end Sys2Proof.Machine
end

