-- ==== Sys2Proof/Machine/Squash.lean ====
section
/-!
DEFINITION. Chunks in flight and their squash: the marks that snoops meet, the pre-admission of one chunk at a time, and
what a squash restores and withdraws (R57, R74, R97, R98, R122-R126, R130, R131, R379).
-/

namespace Sys2Proof.Machine

/-! ## Chunks in flight (R122-R126) -/

/-- A chunk holds no member and nothing to commit (R121). -/
def Chunk.isEmpty (c : Chunk) : Bool := c.count == 0 && c.bytes.isEmpty && c.ops.isEmpty

/-- How many of a hart's chunks Cornice has admitted. -/
def admittedOf (s : State) (h : Nat) : Nat := (s.held.filter (fun x => x.hart == h)).length

/-- The chunks of a hart that Cornice has not admitted, oldest first. -/
def openChunks (s : State) (h : Nat) : List Chunk :=
  let x := getHart s h
  (x.inflight ++ [x.chunk]).drop (admittedOf s h)

/-- The admitted chunks of a hart. -/
def admittedChunks (s : State) (h : Nat) : List Chunk := (getHart s h).inflight.take (admittedOf s h)

/-- A chunk carries a mark that an access to a line meets: a write mark, or for a request for ownership any mark (R98). -/
def Chunk.marks (c : Chunk) (own : Bool) (l : Nat) : Bool := c.writes.contains l || (own && c.reads.contains l)

/-- An engine operation is removed: it leaves the queue, or stops and frees the engine (R379). -/
def dropOp (c : Cluster) (op : EngOp) : Cluster :=
  if c.undispatched.contains op then { c with undispatched := c.undispatched.erase op }
  else
    let mine (e : Engine) : Bool := e.queue.any (fun q => q.op == op) || e.run.any (fun r => r.1.op == op)
    match c.engines.find? (fun e => mine e.2) with
    | some (k, e) =>
      let e := if e.queue.any (fun q => q.op == op) then { e with queue := e.queue.eraseP (fun q => q.op == op) } else { e with run := none }
      { c with engines := tabPut Engine.reset c.engines k e }
    | none => c

/-- The engine operations of a chunk's members. -/
def Chunk.engineOps (c : Chunk) : List EngOp := c.ops.filterMap fun o => match o with | .engine op => some op | _ => none

/-- Work of the unit's members that the squash of a part of a hart's chunks withdraws: queued and running engine
operations, the request to the special-function unit and what was taken for a rename (R57, R74, R379). -/
def withdraw (s : State) (h : Nat) (gone : List EngOp) : State :=
  modCluster s (clusterOf h) fun cl =>
    gone.foldl dropOp { cl with
      sfuQ := cl.sfuQ.filter (· != h), sfuOut := cl.sfuOut.filter fun r => r.1 != h, renames := cl.renames.filter fun r => r.1 != h }

/-- A hart asks Cornice for the pre-admission of its next chunk, in the order of the requests (R130, R131). -/
def askSolo (s : State) (h : Nat) : State :=
  if s.soloHart = some h || s.soloQ.contains h then s else { s with soloQ := s.soloQ ++ [h] }

/-- Cornice pre-admits one chunk of the module at a time (R130). -/
def grantSolo (s : State) : State :=
  match s.soloHart, s.soloQ with
  | none, h :: r => { s with soloHart := some h, soloQ := r }
  | _, _ => s

/-- A hart needs no pre-admission any longer. -/
def leaveQueue (s : State) (h : Nat) : State :=
  { s with soloHart := if s.soloHart = some h then none else s.soloHart, soloQ := s.soloQ.filter (· != h) }

/-- The hart's state comes back to where chunk j of those in flight starts; the younger chunks are gone (R122, R126). -/
def rewind (s : State) (h j : Nat) (save : Arch) (chunk : Chunk) : State :=
  let x := getHart s h
  let all := x.inflight ++ [x.chunk]
  let s := setHart s h { x with
    arch := save, inflight := x.inflight.take j, chunk := chunk, due := none, walked := [], got := [], sfu := none, begun := false
    stall := if x.slot = .issuing then none else x.stall }
  let s := if j ≤ admittedOf s h then { s with presented := s.presented.filter (fun p => p.hart != h) } else s
  let keep := chunk.engineOps
  let s := withdraw s h (((all.drop j).flatMap Chunk.engineOps).filter fun o => !keep.contains o)
  dropSpec s (coreOf h) (((all.drop j).flatMap (·.writes)).filter fun l => !chunk.writes.contains l)

/-- The squash of a hart's chunks from the j-th in flight on: the state before it comes back; a chunk without members has
changed nothing. A squash that is not the hart's own counts towards solo mode (R126, R130). -/
def squashFrom (s : State) (h j : Nat) (counts : Bool) : State :=
  let x := getHart s h
  match (x.inflight ++ [x.chunk])[j]? with
  | none => s
  | some c =>
    let n := if counts then Nat.min 8 (x.sq + 1) else x.sq
    let save := if c.isEmpty then x.arch else c.save
    let s := rewind s h j save (Chunk.fresh save)
    let s := if x.solo then s else modHart s h fun x => { x with solo := decide (8 ≤ n), soloCount := 0, soloLines := [] }
    modHart s h fun x => { x with sq := n }

/-- The index of a hart's first open chunk that a condition holds of. -/
def firstOpen (s : State) (h : Nat) (f : Chunk → Bool) : Option Nat :=
  ((openChunks s h).findIdx? f).map (· + admittedOf s h)

/-- The harts of a scope have their open chunks squashed from the first of which a condition holds. -/
def squashIn (s : State) (scope : Nat → Bool) (f : Nat → Chunk → Bool) : State :=
  (hartIds s).foldl (fun s h =>
    if scope h then
      match firstOpen s h (f h) with
      | some j => squashFrom s h j true
      | none => s
    else s) s

/-- Every hart but one has its open chunks squashed from the first of which a condition holds. -/
def squashWhere (s : State) (but : Option Nat) (f : Nat → Chunk → Bool) : State := squashIn s (fun h => some h != but) f

/-- The chunk that a hart executes has been pre-admitted by Cornice: a conflict cannot squash it (R130, R131). -/
def preAdmitted (s : State) (h : Nat) : Bool := s.soloHart == some h

/-- A snoop meets the marks of chunks that Cornice has not admitted, of the harts of a scope: they are squashed (R98). -/
def snoopIn (s : State) (scope : Nat → Bool) (own : Bool) (l : Nat) : State :=
  squashIn s (fun h => scope h && !preAdmitted s h) fun _ c => c.marks own l

/-- A snoop meets a mark of a chunk that Cornice has admitted or pre-admitted: it waits for the commit (R98, R130). -/
def snoopWaitsIn (s : State) (scope : Nat → Bool) (own : Bool) (l : Nat) : Bool :=
  (hartIds s).any fun h => scope h &&
    ((admittedChunks s h).any (fun c => c.marks own l) || (preAdmitted s h && (openChunks s h).any fun c => c.marks own l))

/-- The scope of a snoop: every hart of the module, of a die, or of a cluster, but the one whose own access it is. -/
def everyBut (but : Option Nat) (h : Nat) : Bool := some h != but
def onDie (d : Nat) (but : Option Nat) (h : Nat) : Bool := dieOf h == d && some h != but
def onCluster (cl : Nat) (but : Option Nat) (h : Nat) : Bool := clusterOf h == cl && some h != but

/-- A snoop of the whole module. -/
def snoop (s : State) (but : Option Nat) (own : Bool) (l : Nat) : State := snoopIn s (everyBut but) own l
def snoopWaits (s : State) (but : Option Nat) (own : Bool) (l : Nat) : Bool := snoopWaitsIn s (everyBut but) own l


end Sys2Proof.Machine
end

