-- ==== Sys2Proof/Machine/Directory.lean ====
section
/-!
DEFINITION. Coherence of a line: the requests that Tether orders on a die (R98-R101), the home directory with its
transactions and its capacity (R103-R107, R110), the peer agent's directory (R108), and how a cluster comes to hold a line
(R97, R100). Every answer is a step of its own; a step that a home or a slice owes is due at once, a request on Tether ten
cycles after its acceptance.
-/

namespace Sys2Proof.Machine

/-! ## Tether (R99) -/

/-- A request is offered to the Tether of a die; source 8 is the die's directory or its links. -/
def offer (s : State) (d src : Nat) (i : Due) : State := modDie s d fun x => { x with offers := x.offers ++ [⟨src, i⟩] }

/-- The sources in the order of a cycle's slots: the ninth one first, then the clusters from cycle mod 8 on. -/
def slotOrder (cycle : Nat) : List Nat := 8 :: (List.range 8).map fun i => (cycle + i) % 8

/-- Tether of a die accepts in one cycle at most one request of each source and at most four; each is observed ten cycles
later. -/
def accept (s : State) (d : Nat) : State :=
  modDie s d fun x =>
    let picked := ((slotOrder s.cycle).filterMap fun k => x.offers.find? fun r => r.src == k).take 4
    { x with
      offers := picked.foldl (fun o r => o.erase r) x.offers
      tether := x.tether ++ picked.map fun r => (s.cycle + 10, r) }

def acceptAll (s : State) : State := (tabKeys s.dies).foldl (fun s d => if (getDie s d).offers.isEmpty then s else accept s d) s

/-- The request that a die observes next, taken off its Tether. -/
def observed (s : State) : Option (Due × State) :=
  (tabKeys s.dies).findSome? fun d =>
    match (getDie s d).tether with
    | (t, r) :: rest => if t ≤ s.cycle then some (r.due, modDie s d fun x => { x with tether := rest }) else none
    | [] => none

/-! ## A die's agents (R101) -/

/-- The agent of a die that holds the line in M, O or E, which answers a request. -/
def supplier (c : LineCoh) (d : Nat) : Option Nat := (agentsOf d).find? fun k => ownState (cacheSt c k)

/-- A supplier's state after it shares the line. -/
def afterShare (st : Moesi) : Moesi := match st with | .m => .o | .e => .s | x => x

/-- The agents of a die share a line with others (R101): one in M goes to O, one in E to S. -/
def shareDie (c : LineCoh) (d : Nat) : LineCoh :=
  (agentsOf d).foldl (fun c k => if ownState (cacheSt c k) then shareAgent c k (afterShare (cacheSt c k)) else c) c

/-- The die state of a line: the strongest state among its agents. -/
def dieState (c : LineCoh) (d : Nat) : Moesi :=
  let l := (agentsOf d).map (cacheSt c)
  if l.contains .m then .m else if l.contains .o then .o else if l.contains .e then .e else if l.contains .s then .s else .i

/-- The request of a die for a line that its agents have observed and whose answer has not come (R100). -/
def activeFill (c : LineCoh) (d : Nat) : Option Fill := c.fills.find? fun f => f.active && f.cl / 8 == d
def setFill (c : LineCoh) (f g : Fill) : LineCoh := { c with fills := c.fills.map fun x => if x = f then g else x }

/-- A die holds marks of chunks on a line: it counts as a holder, also where its copy has been evicted (R98). -/
def markedOn (s : State) (l d : Nat) : Bool :=
  (hartIds s).any fun h => dieOf h == d && ((getHart s h).inflight ++ [(getHart s h).chunk]).any fun c => c.marks true l

/-! ## Entries (R103, R105, R107) -/

/-- Every module of the group but this one. -/
def groupMates (s : State) : List Nat := ((List.range 32).map (· + 32 * groupOf s.dev)).filter (· != s.dev)

/-- The holders other than the requester: dies, and remote modules (R105). -/
def otherDies (s : State) (l : Nat) (e : DirEnt) (d : Option Nat) : List Nat :=
  [0, 1, 2, 3].filter fun x => some x != d &&
    (e.sharers.contains x || (ownState e.st && !e.rown && e.owner == x) || markedOn s l x)
def otherMods (s : State) (e : DirEnt) (m : Option Nat) : List Nat :=
  (if e.bcast then groupMates s else e.rem).filter (fun x => some x != m)

/-- The die, or the module, that the entry names as the line's owner. -/
def ownerDie (e : DirEnt) : Option Nat := if ownState e.st && !e.rown then some e.owner else none
def ownerMod (e : DirEnt) : Option Nat := if ownState e.st && e.rown then e.rem.head? else none

/-- The requester of a transaction, as a die or as a module. -/
def Txn.die (t : Txn) : Option Nat := if t.msg.isNone then some t.req else none
def Txn.mod (t : Txn) : Option Nat := t.msg.map (·.src)

/-- The requester is the recorded owner. -/
def Txn.owns (t : Txn) (e : DirEnt) : Bool := (t.die.isSome && ownerDie e == t.die) || (t.mod.isSome && ownerMod e == t.mod)

/-- The data of a request for ownership come from the home or stand with the requester: no other holder owns the line. -/
def Txn.unowned (t : Txn) (e : DirEnt) : Bool := !ownState e.st || t.owns e

/-- The requester is the recorded owner and has the data: of a line recorded dirty, or of one granted in E that its die
holds for the request (R101, R105; assumption log, entry 37). -/
def Txn.hasData (s : State) (l : Nat) (t : Txn) (e : DirEnt) : Bool :=
  t.owns e && (e.st != .e || t.die.any fun d => (activeFill (getCoh s l) d).any (·.data))

/-- The modules that a home withdraws before it can record a further remote holder: PTR0, or the whole group under
BCAST. An owner in PTR0 is withdrawn before the pointers give way to BCAST (R107; assumption log, entry 36). -/
def toWithdraw (s : State) (e : DirEnt) (t : Txn) : List Nat :=
  match t.mod with
  | none => []
  | some m =>
    if e.rem.contains m then []
    else if e.bcast then (if groupOf m = groupOf s.dev then [] else groupMates s)
    else if e.rem.length < 4 then []
    else if !e.rown && (e.rem ++ [m]).all (fun x => groupOf x == groupOf s.dev) then []
    else e.rem.take 1

/-- A further remote holder of an S copy, once there is room for it (R107). -/
def addRemote (e : DirEnt) (m : Nat) : DirEnt :=
  if e.rem.contains m || e.bcast then e
  else if e.rem.length < 4 then { e with rem := e.rem ++ [m] }
  else { e with bcast := true, rem := [] }

/-- The entry with the requester among the sharers (R105). -/
def entryShared (s : State) (e : DirEnt) (t : Txn) : DirEnt :=
  match t.mod with
  | none => { e with sharers := setInsert e.sharers t.req, used := s.cycle }
  | some m => { addRemote e m with used := s.cycle }

/-- The entry after a request that leaves its requester the owner (R105). -/
def entryOwned (s : State) (t : Txn) (st : Moesi) : DirEnt :=
  match t.mod with
  | none => { DirEnt.none with st := st, owner := t.req, used := s.cycle }
  | some m => { DirEnt.none with st := st, rown := true, rem := [m], used := s.cycle }

/-- The entry once modules have been withdrawn: an owner among them has written the line back (R107). -/
def entryWithout (e : DirEnt) (gone : List Nat) : DirEnt :=
  let rem := e.rem.filter fun x => !gone.contains x
  let st : Moesi := if e.rown || !ownState e.st then (if e.sharers.isEmpty && rem.isEmpty then .i else .s) else e.st
  { e with st := st, rown := false, bcast := false, rem := rem }

/-- The entry after a forward for a shared copy: a holder in E becomes a sharer, one in M the owner in O (R105). -/
def entryForwarded (e : DirEnt) : DirEnt :=
  let sharers := if e.rown then e.sharers else setInsert e.sharers e.owner
  if e.st = .e then { e with st := .s, rown := false, owner := 0, sharers := sharers } else { e with st := .o, sharers := sharers }

/-! ## Snoops and answers (R105, R111) -/

/-- A home's snoop of a die takes a slot of its Tether (R99). -/
def snoopDie (i : Instr) (l : Nat) (s : State) (d : Nat) : State := offer s d 8 (two i d l)

/-- A snoop of a module names the requester that the data go to: its request id and its module. Before an in-array step the
home itself takes the data, and the holder's copy becomes a clean shared one (R86, R105). -/
def snoopMod (t : Txn) (code l : Nat) (s : State) (m : Nat) : State :=
  send s { mkMsg s m code l with aux := match t.msg with
    | some q => [q.aux.headD 0, if t.kind = .pwr then s.dev else q.src]
    | none => [0, s.dev, if t.kind = .clean then 1 else 0] }

/-- The home reads the line from its stack, unless the requester writes all of it (R105, R273); a peer line's data stand in the
module. -/
def readHome (s : State) (l : Nat) (t : Txn) : State := if t.zero then s else readGranule s l t.td (t.hint == 3)

/-- The data of a transaction go to its requester: a die's step, or a message (R105, R111). -/
def answerData (s : State) (t : Txn) (l : Nat) (excl : Bool) : State :=
  match t.msg with
  | some m =>
    send s { mkMsg s m.src (if excl then 0x22 else 0x21) l with
      data := committedLine s l, td := tabGet 0 s.lineTd l, unc := m.unc
      aux := [m.aux.headD 0, if s.poison.contains l then 1 else 0] }
  | none => after s 0 (if excl then .datae else .data, { a := t.req, b := l, data := committedLine s l })

/-- Complete ends the transaction of a die's request; the flag says that the request was for writing, the number that memory
has the line's data (R105). -/
def complete (s : State) (t : Txn) (l : Nat) (e : DirEnt) : State :=
  match t.die with
  | some d => after s 0 (.complete, { a := d, b := l, c := if e.st = .m ∨ e.st = .o then 0 else 1, flag := t.kind != .rds })
  | none => s

def setBusy (s : State) (l : Nat) (t : Option Txn) : State := modCoh s l fun c => { c with busy := t }
def setDir (s : State) (l : Nat) (e : DirEnt) : State := modCoh s l fun c => { c with dir := e }
def enqueueFront (s : State) (l : Nat) (t : Txn) : State := modCoh s l fun c => { c with queue := t :: c.queue }

/-- A transaction is under way: its snoops go to dies and modules, and it waits for as many answers. -/
def startSnoops (s : State) (l : Nat) (t : Txn) (fwd other : Instr) (pfwd pother : Nat) (dies mods : List Nat) (e : DirEnt) : State :=
  let s := setBusy s l (some { t with wait := dies.length + mods.length })
  let s := dies.foldl (fun s d => snoopDie (if ownerDie e = some d then fwd else other) l s d) s
  mods.foldl (fun s m => snoopMod t (if ownerMod e = some m then pfwd else pother) l s m) s

/-! ## The end of a transaction (R105, R107, R110) -/

/-- The entry once its owner has given the line up (R105, R110). -/
def entryRecalled (e : DirEnt) : DirEnt :=
  let rem := if e.rown then e.rem.drop 1 else e.rem
  let sharers := if e.rown then e.sharers else e.sharers.filter (· != e.owner)
  if rem.isEmpty && sharers.isEmpty && !e.bcast then DirEnt.none else { e with st := .s, rown := false, owner := 0, rem := rem, sharers := sharers }

/-- A posted write is applied: its bytes are merged under the trust domain of the message, with the poison that they carry,
and the poster keeps an S copy. An uncached one leaves no entry of its own (R53, R110, R155, R164). -/
def applyPosted (s : State) (l : Nat) (m : Msg) : State :=
  let whole := m.mask == BitVec.allOnes 128
  let bad := m.aux[1]? == some 1
  let s := if whole || ownState (getCoh s l).dir.st then s else readGranule s l m.td m.lr
  let s := if bad then { s with poison := setInsert s.poison l } else if whole then { s with poison := s.poison.filter (· != l) } else s
  let s := { s with lineTd := tabPut 0 s.lineTd l m.td }
  let s := mergeMem s l m.data m.mask
  let e := (getCoh s l).dir
  let ack : Msg := { mkMsg s m.src 0x25 l with aux := m.aux.take 1, unc := m.unc }
  let (e, owed) : DirEnt × Owed :=
    if m.unc then (if ownState e.st && ownerMod e != some m.src then entryRecalled e else e, .answer ack)
    else if m.src = s.dev then (DirEnt.none, match m.aux[2]? with | some (n + 1) => .salvage n | _ => .nothing)
    else ({ DirEnt.none with st := .s, rem := [m.src], used := s.cycle }, .answer ack)
  writeBackFor (setDir s l e) l m.lr owed

/-- What a transaction does once every answer has arrived. -/
def endTxn (s : State) (l : Nat) (t : Txn) : State :=
  let e := (getCoh s l).dir
  match t.kind with
  | .rds | .prds => complete (setDir s l (entryShared s (entryForwarded e) t)) t l e
  | .rdm | .upg => complete (setDir s l (entryOwned s t .m)) t l e
  | .prdm =>
    let s := if t.unowned e then answerData (if t.hasData s l e then s else readHome s l t) t l false else s
    setDir s l (entryOwned s t .m)
  | .pwr => match t.msg with | some m => applyPosted s l m | none => s
  | .withdraw => match (getCoh s l).queue with | q :: _ => setDir s l (entryWithout e (toWithdraw s e q)) | [] => s
  | .clean => setDir s l { e with st := .s, rown := false }
  | .snoop => s
  | .evict =>
    let s := setDir s l DirEnt.none
    match tabGet none s.peers l with
    | some p =>
      let s := if p.st = .m ∨ p.st = .o then (if p.orphan then salvage s l p else writePeer s l p) else s
      { s with peers := tabPut none s.peers l none }
    | none => s

/-- A transaction whose snoops are none ends at once. -/
def endNow (s : State) (l : Nat) (t : Txn) : State := endTxn (setBusy s l none) l t

/-- A snoop of the home of a peer line has been answered by the module's dies: the agent answers the home in the step that
the message starts again; until then the line stays busy (R104, R111). -/
def answerSnoop (s : State) (l : Nat) (t : Txn) : State :=
  match t.msg with
  | some m => after (setBusy s l (some { t with wait := 0 })) 0 (msgStep m.code, { msg := some m, flag := true, c := 1 })
  | none => setBusy s l none

/-! ## The home of a line of the module (R105-R107, R110) -/

/-- A request for a shared copy. -/
def homeShared (s : State) (l : Nat) (t : Txn) (e : DirEnt) : State :=
  let gone := toWithdraw s e t
  if !gone.isEmpty then
    let s := enqueueFront s l t
    let w : Txn := { t with kind := .withdraw, wait := gone.length, msg := none, req := 0 }
    gone.foldl (snoopMod w 0x14 l) (setBusy s l (some w))
  else if ownState e.st then
    startSnoops s l t .fwds .fwds 0x11 0x11 (ownerDie e).toList (ownerMod e).toList e
  else if e.st = .s then
    let s := readHome s l t
    answerData (setDir s l (entryShared s e t)) t l false
  else
    let s := readHome s l t
    answerData (setDir s l (entryOwned s t .e)) t l true

/-- A request for ownership. Data of an O holder come last to another module, when no other copy is left. -/
def homeOwned (s : State) (l : Nat) (t : Txn) (e : DirEnt) : State :=
  let dies := otherDies s l e t.die
  let mods := otherMods s e t.mod
  if dies.isEmpty && mods.isEmpty then
    if t.kind = .upg then complete (setDir s l (entryOwned s t .m)) t l e
    else if t.hasData s l e then
      let s := setDir s l (entryOwned s t .m)
      if t.msg.isSome then answerData s t l false else complete s t l e
    else
      let excl := e.st != .s
      let s := readHome s l t
      let s := answerData (setDir s l (entryOwned s t .m)) t l excl
      if excl then s else complete s t l e
  else if t.kind = .upg then startSnoops s l t .inv .inv 0x13 0x13 dies mods e
  else if t.kind = .prdm && e.st = .o && !t.owns e then
    let dies' := dies.filter fun d => ownerDie e != some d
    let mods' := mods.filter fun m => ownerMod e != some m
    if dies'.isEmpty && mods'.isEmpty then startSnoops s l t .fwdm .inv 0x12 0x13 dies mods e
    else startSnoops s l { t with fwd := true } .fwdm .inv 0x12 0x13 dies' mods' e
  else
    let s := startSnoops s l t .fwdm .inv 0x12 0x13 dies mods e
    if t.kind = .rdm && t.unowned e && !t.hasData s l e then answerData (readHome s l t) t l false else s

/-- The home of the module's own line serves a request (R105, R106, R110, R155). -/
def homeOwn (s : State) (l : Nat) (t : Txn) : State :=
  let e := (getCoh s l).dir
  match t.kind with
  | .rds | .prds => if t.msg.any (·.unc) then answerData (if ownState e.st then s else readHome s l t) t l false else homeShared s l t e
  | .rdm | .prdm => homeOwned s l t e
  | .upg =>
    let recorded := e.sharers.contains t.req || ownerDie e == some t.req
    homeOwned s l (if recorded && (e.st = .s || e.st = .o) then t else { t with kind := .rdm }) e
  | .pwr =>
    let called := ownState e.st && (t.mod.isNone || ownerMod e != t.mod)
    let unc := t.msg.any (·.unc)
    let dies := if unc then (if called then (ownerDie e).toList else []) else otherDies s l e none
    let mods := if unc then (if called then (ownerMod e).toList else []) else otherMods s e t.mod
    if dies.isEmpty && mods.isEmpty then endNow s l t
    else startSnoops s l t .fwdm .inv 0x12 0x13 dies mods e
  | .evict =>
    let dies := otherDies s l e none
    let mods := otherMods s e none
    if dies.isEmpty && mods.isEmpty then endNow s l t
    else startSnoops s l t .backinv .backinv 0x14 0x14 dies mods e
  | .clean => if (ownerMod e).isSome then startSnoops s l t .fwds .fwds 0x11 0x11 [] (ownerMod e).toList e else endNow s l t
  | .withdraw | .snoop => s

/-! ## The peer agent of a line of another home (R108, R112) -/

/-- A request of this kind for a peer line awaits its answer. -/
def asked (s : State) (code l : Nat) : Bool := s.reqs.any fun r => r.msg.line == l && r.msg.code == code && !r.msg.unc

/-- The peer agent asks the home for a line unless it has asked already (R108, R111). -/
def askHome (s : State) (code l : Nat) (t : Txn) : State :=
  if asked s code l then s else request s { mkMsg s (lineDev l) code l with td := t.td, lr := t.hint == 3 } []

/-- Requests of the module for a line of a lost home end without data: their harts look again (R112). -/
def dropFills (s : State) (l : Nat) : State :=
  wakeCommands (modCoh s l fun c => { c with fills := c.fills.filter fun f => !f.active, queue := [], later := [] })

/-- The agent serves a request of a die where the state that the home has granted allows, and otherwise asks the home. -/
def homeAgent (s : State) (l : Nat) (t : Txn) : State :=
  let e := (getCoh s l).dir
  let ask (code : Nat) : State := if s.lostMap.contains (lineDev l) then dropFills s l else askHome (enqueueFront s l t) code l t
  match t.kind with
  | .evict =>
    let dies := otherDies s l e none
    if dies.isEmpty then endNow s l t
    else startSnoops s l t .backinv .backinv 0 0 dies [] e
  | .rds =>
    match tabGet none s.peers l with
    | none => ask 0x01
    | some p =>
      if p.valid != BitVec.allOnes 128 then ask 0x01
      else if ownState e.st then startSnoops s l t .fwds .fwds 0 0 [e.owner] [] e
      else if e.st = .i && (p.st == .m || p.st == .e) then answerData (setDir s l (entryOwned s t .e)) t l true
      else answerData (setDir s l (entryShared s { e with st := .s } t)) t l false
  | .rdm | .upg =>
    match tabGet none s.peers l with
    | none => ask 0x02
    | some p =>
      if !(p.st == .m || p.st == .e || p.orphan) || p.valid != BitVec.allOnes 128 then ask 0x02
      else
        let s := { s with peers := tabPut none s.peers l (some { p with st := .m }) }
        let dies := otherDies s l e t.die
        let keeps := t.kind = .upg && (e.sharers.contains t.req || ownerDie e == some t.req)
        if dies.isEmpty then
          let s := setDir s l (entryOwned s t .m)
          if keeps then complete s t l e else answerData s t l true
        else
          let s := startSnoops s l t (if keeps then .inv else .fwdm) .inv 0 0 dies [] e
          if !keeps && t.unowned e then answerData s t l false else s
  | .prds | .prdm | .pwr | .withdraw | .clean | .snoop => s

def homeStart (s : State) (l : Nat) (t : Txn) : State := if lineDev l = s.dev then homeOwn s l t else homeAgent s l t

/-! ## The capacity of the snoop filter (R103, R106, R108; assumption log, entry 32) -/

/-- The home die and the set of a line's entry: the line's local offset divided by 128, taken mod 262,144. The words
"bits [35:18]" of R103 would put 32 MiB of memory into one set of each die, which R130, R131 and every tile load exclude
(assumption log, entry 58). -/
def filterSet (s : State) (l : Nat) : Nat × Nat := (homeDie s l, l % 2 ^ 35 % 2 ^ 18)

/-- A line has an entry: a home entry or a peer entry. -/
def hasEntry (s : State) (l : Nat) : Bool :=
  let c := getCoh s l
  c.dir.st != .i || c.busy.isSome || (tabGet none s.peers l).isSome

/-- The lines with an entry in a line's set. -/
def entriesOf (s : State) (l : Nat) : List Nat :=
  let mine (k : Nat) : Bool := filterSet s k == filterSet s l && hasEntry s k
  (s.peers.foldl (fun r p => setInsert r p.1) (tabKeys s.coh)).filter mine

/-- A new entry for a line finds its set full. -/
def setFull (s : State) (l : Nat) : Bool := !hasEntry s l && decide (16 ≤ (entriesOf s l).length)

/-- The entry of a set that was used least recently and has no transaction under way, nor posted bytes to its home. -/
def setVictim (s : State) (l : Nat) : Option Nat :=
  ((entriesOf s l).filter fun k => (getCoh s k).busy.isNone && !posting s k).foldl (fun b k => match b with
    | none => some k
    | some x => if (getCoh s k).dir.used < (getCoh s x).dir.used then some k else some x) none

/-- A transaction starts on an entry that is not busy, after the entry that it needs has been made free (R106); it waits
while its stack or channel is in a hold (R92, R94). -/
def homeAdmit (s : State) (l : Nat) (t : Txn) : State :=
  if t.kind != .evict && memHeld s l then awaitStack (enqueueFront s l t) l t.td (t.hint == 3) .nothing
  else if t.kind != .evict && setFull s l && !(t.msg.any (·.unc)) then
    if (entriesOf s l).any fun k => (getCoh s k).busy.any fun t => t.kind == .evict then enqueueFront s l t
    else match setVictim s l with
      | some v =>
        let u := homeStart s v { t with kind := .evict, req := homeDie s v, msg := none }
        if (getCoh u v).busy.isSome then enqueueFront u l t else homeStart u l t
      | none => enqueueFront s l t
  else homeStart s l t

/-- A request reaches the home: it waits while the entry is busy or behind earlier ones, else it starts (R104). -/
def homeRequest (s : State) (l : Nat) (t : Txn) : State :=
  if (getCoh s l).busy.isSome || !(getCoh s l).queue.isEmpty then modCoh s l fun c => { c with queue := c.queue ++ [t] }
  else homeAdmit s l t

/-- The waiting transactions of a line start in turn as long as the entry is free (R104). -/
def homeNext (l : Nat) : Nat → State → State
  | 0, s => s
  | n + 1, s =>
    let c := getCoh s l
    match c.busy, c.queue with
    | none, t :: q =>
      let s := homeAdmit (modCoh s l fun c => { c with queue := q }) l t
      if (getCoh s l).queue.length ≤ q.length then homeNext l n s else s
    | _, _ => s

/-- The requests that wait at a home go on where they can. -/
def homeGo (s : State) (l : Nat) : State := homeNext l (getCoh s l).queue.length s

/-- The lines of a set that wait for an entry go on (R106). -/
def homeWake (s : State) (l : Nat) : State :=
  ((tabKeys s.coh).filter fun k => filterSet s k == filterSet s l && (getCoh s k).busy.isNone && !(getCoh s k).queue.isEmpty).foldl homeGo s

/-- A home that has all its answers ends the transaction, and the next one starts (R104, R105). -/
def homeFinish (s : State) (l : Nat) : State :=
  match (getCoh s l).busy with
  | none => s
  | some t => if t.kind = .snoop then answerSnoop s l t else homeWake (homeGo (endTxn (setBusy s l none) l t) l) l

/-- One answer has reached the home: the last one ends the transaction, or starts the forward that waited for it (R105). -/
def homeAnswer (s : State) (l : Nat) : State :=
  match (getCoh s l).busy with
  | none => s
  | some t =>
    if 1 < t.wait then setBusy s l (some { t with wait := t.wait - 1 })
    else if t.fwd then
      let e := (getCoh s l).dir
      startSnoops s l { t with fwd := false } .fwdm .inv 0x12 0x13 (ownerDie e).toList (ownerMod e).toList e
    else homeFinish s l

/-! ## The data that a cluster has waited for (R97, R100, R101) -/

/-- A prefetch of a line is under way: no chunk takes a mark on the line, so that the prefetch squashes none (R272; assumption
log, entry 66). -/
def prefetching (s : State) (l : Nat) : Bool := (getCoh s l).fills.any fun f => f.active && f.kind.pref

/-- A hart whose instruction waited for a line takes its read mark as the line arrives, so that a request that takes the
line away meets it (R97, R98); a pre-admitted chunk that writes the line takes the write mark, for which every snoop waits
(R130, R131). -/
def markArrived (l : Nat) (s : State) (h : Nat × Bool) : State :=
  match if prefetching s l then none else (getHart s h.1).stall with
  | some (.miss _) =>
    let own := h.2 && preAdmitted s h.1
    modHart s h.1 fun x => { x with chunk := { x.chunk with
      reads := setInsert x.chunk.reads l, writes := if own then setInsert x.chunk.writes l else x.chunk.writes } }
  | _ => s

/-- The transaction of a die's request has ended: its cluster holds the line, where the hint lets it be allocated and a way
can be had, its LLC too unless the cluster holds it in M, and the requests of the die that have waited for it go on (R48,
R50, R96, R100). -/
def finishFill (s : State) (d l : Nat) (st : Moesi) : State :=
  match activeFill (getCoh s l) d with
  | none => s
  | some f =>
    let st : Moesi := match f.kind with | .read | .hint | .excl => st | .write | .zero => .m
    let llc (s : State) (st : Moesi) : State := if f.own || cacheSt (getCoh s l) (llcKey d) == .i then putLlc s d l f.hint st else s
    let s := if (!f.own && l2Place f.hint false == .none) || l2Full s f.cl l then llc s st
      else
        let s := putL2 s f.cl l f.hint f.own st
        if st == .m then s else llc s st
    let s := modCoh s l fun c => { c with fills := c.fills.erase f }
    let s := f.harts.foldl (markArrived l) s
    let s := f.code.foldl (fun s core => if cacheSt (getCoh s l) (clKey f.cl) == .i then s else useL1i s core l) s
    let s := match (getCoh s l).later.find? fun x => x.1 == d with
      | some x => after (modCoh s l fun c => { c with later := c.later.erase x }) 0 x.2
      | none => s
    wakeCommands s

/-- Data arrive at a die: with E they end its request, else a request for writing still awaits Complete (R105). -/
def dataArrive (s : State) (d l : Nat) (excl : Bool) : State :=
  match activeFill (getCoh s l) d with
  | none => s
  | some f => if f.own && !excl then modCoh s l fun c => setFill c f { f with data := true }
    else finishFill s d l (if excl then .e else .s)

/-! ## Steps of the protocol (R98, R100-R102, R105, R106) -/

/-- The transaction of a die's request at its home. -/
def dieTxn (s : State) (kind : TxnKind) (d l : Nat) : Txn :=
  match activeFill (getCoh s l) d with
  | some f => ⟨kind, d, 0, none, f.td, f.hint, false, f.kind == .zero⟩
  | none => ⟨kind, d, 0, none, tabGet 0 s.lineTd l, 0, false, false⟩

/-- The number that keeps the slot order of requests of one die for one line while they wait (R100). -/
def slotNumber (x : Arg) : Nat := x.nums.headD 0

/-- The numbers of the requests of a die for a line that wait for a chunk's commit. -/
def waiters (s : State) (i : Due) : List Nat :=
  s.events.filterMap fun e =>
    if e.2.2.flag && e.2.2.b == i.2.b && (e.2.1 == .gets || e.2.1 == .getm || e.2.1 == .upg) && e.2.2.a / 8 == i.2.a / 8
    then some (slotNumber e.2.2) else none

/-- A request that waits keeps its place in slot order (R100). -/
def waitInOrder (s : State) (i : Due) : State :=
  let n := if i.2.flag then slotNumber i.2 else (waiters s i).foldl Nat.max 0 + 1
  after s 1 (i.1, { i.2 with flag := true, nums := [n] })

/-- A step meets a mark of an admitted chunk, or follows one of its line that does: it waits (R98, R100). -/
def waitsBehind (s : State) (i : Due) (scope : Nat → Bool) (own : Bool) : Bool :=
  snoopWaitsIn s scope own i.2.b || (waiters s i).any fun n => !i.2.flag || decide (n < slotNumber i.2)

/-- A prefetch would meet a mark of a chunk of the module (R272). -/
def meetsMark (s : State) (kind : FillKind) (l : Nat) : Bool :=
  (hartIds s).any fun h => ((getHart s h).inflight ++ [(getHart s h).chunk]).any fun c => c.marks kind.own l

/-- The agents of a die observe a request of one of its clusters (R98, R100, R101); a prefetch that meets a mark makes no
access (R272). -/
def observe (s : State) (i : Due) : State :=
  let cl := i.2.a
  let l := i.2.b
  let d := cl / 8
  let own := i.1 != .gets
  let c := getCoh s l
  if (activeFill c d).isSome then modCoh s l fun c => { c with later := c.later ++ [(d, (i.1, { i.2 with flag := true }))] }
  else
    let f := (c.fills.find? fun f => f.cl == cl).getD ⟨cl, if own then .write else .read, [], 0, tabGet 0 s.lineTd l, false, false, []⟩
    let scope (h : Nat) : Bool := dieOf h == d && !(f.harts.any fun x => x.1 == h)
    if f.kind.pref && meetsMark s f.kind l then modCoh s l fun c => { c with fills := c.fills.erase f }
    else if waitsBehind s i scope own then waitInOrder s i
    else
      let s := snoopIn s scope own l
      let dirty := (agentsOf d).any fun k => cacheSt c k == .m || cacheSt c k == .o
      let kind := if f.kind == .excl && dirty then FillKind.write else f.kind
      let begin (s : State) (data : Bool) : State :=
        modCoh s l fun c => { c with fills := c.fills.erase f ++ [{ f with active := true, data := data, kind := kind }] }
      let holds := cacheSt c (clKey cl) != .i
      if own && holds then after (begin (dropDie s l d (some (clKey cl))) true) 0 (.upg, { a := d, b := l, c := 1 })
      else match supplier c d with
      | some k =>
        let st := cacheSt c k
        if !own then
          let s := begin (modCoh s l fun c => shareDie c d) false
          after s 0 (.data, { a := d, b := l, data := committedLine s l })
        else
          let s := dropDie s l d none
          if st = .o then after (begin s true) 0 (two .rdm d l)
          else after (begin s false) 0 (.datae, { a := d, b := l, data := committedLine s l })
      | none =>
        if own then after (begin (dropDie s l d none) false) 0 (two .rdm d l) else after (begin s false) 0 (two .rds d l)

/-- The agents of a die observe a snoop of a home: a holder, or the write-back buffer, supplies what is asked, and the
home has its answer (R101, R102, R106). -/
def homeSnoop (s : State) (i : Instr) (d l : Nat) : State :=
  let c := getCoh s l
  let t := c.busy.getD ⟨.evict, d, 0, none, 0, 0, false, false⟩
  let st := dieState c d
  let dirty := st == .m || st == .o
  let buffered := c.wb.any fun w => w.1 == d
  let give (s : State) : State := if t.kind = .pwr then writeBack s l else if t.kind = .evict ∨ t.kind = .snoop then s else answerData s t l false
  match i with
  | .fwds =>
    match supplier c d with
    | some _ =>
      let s := modCoh s l fun c => shareDie c d
      after (give s) 0 (.fwdack, { a := d, b := l, flag := dirty })
    | none => if buffered then after (give s) 0 (two .fwdack d l) else after s 0 (two .fwdmiss d l)
  | .fwdm =>
    let s := dropDie s l d none
    if ownState st || buffered then after (give s) 0 (two .fwdack d l) else after s 0 (two .fwdmiss d l)
  | .inv => after (dropDie (if dirty then writeBack s l else s) l d none) 0 (two .invack d l)
  | _ =>
    let s := dropDie s l d none
    let s := if dirty && lineDev l == s.dev then
        let x := committedLine s l
        after (modCoh s l fun c => { c with wb := some (d, x) }) 0 (.wbdata, { a := d, b := l, data := x })
      else s
    after s 0 (two .invack d l)

/-- A dirty line comes back to its home: an owner's data are written to memory, and the home answers in every case. A die
recorded in E may have written its copy (R102, R104, R105; assumption log, entry 37). -/
def homeWritten (s : State) (d l : Nat) : State :=
  let e := (getCoh s l).dir
  if ownerDie e = some d then
    let s := if (getCoh s l).busy.isSome then s
      else if e.st = .o then
        let sharers := e.sharers.filter (· != d)
        setDir s l { e with st := if sharers.isEmpty && e.rem.isEmpty && !e.bcast then .i else .s, owner := 0, sharers := sharers }
      else setDir s l DirEnt.none
    writeBackFor s l false (.wback d)
  else after s 0 (two .wback d l)

/-- A holder asked to forward has no copy: the home serves the request from memory, which is current unless the entry
says otherwise (R102, R105). -/
def homeMiss (s : State) (l : Nat) : State :=
  match (getCoh s l).busy with
  | none => s
  | some t =>
    let s := if t.kind = .pwr ∨ t.kind = .evict ∨ t.kind = .snoop then s
      else answerData (if (getCoh s l).dir.st = .e then readHome s l t else s) t l false
    homeAnswer s l

/-- A snoop of the home to a die that was sent before an answer to it has not been observed: the answer comes after it (R104). -/
def snoopUnderWay (s : State) (d l : Nat) : Bool :=
  let x := getDie s d
  let is (r : TReq) : Bool := r.src == 8 && r.due.2.b == l && [Instr.fwds, .fwdm, .inv, .backinv].contains r.due.1
  x.offers.any is || x.tether.any (fun r => is r.2) || s.events.any fun e =>
    e.2.2.a == d && e.2.2.b == l && [Instr.fwds, .fwdm, .inv, .backinv].contains e.2.1

/-- The effect of one coherence step. -/
def cohStep (i : Due) (s : State) : State :=
  let d := i.2.a
  let l := i.2.b
  match i.1 with
  | .gets | .getm => observe s i
  | .upg => if i.2.c = 1 then homeRequest s l (dieTxn s .upg d l) else observe s i
  | .rds => homeRequest s l (dieTxn s .rds d l)
  | .rdm => homeRequest s l (dieTxn s .rdm d l)
  | .fwds | .fwdm | .inv | .backinv =>
    let own := i.1 != .fwds
    if snoopWaitsIn s (onDie d none) own l then after s 1 i else homeSnoop (snoopIn s (onDie d none) own l) i.1 d l
  | .fwdack =>
    homeAnswer (if i.2.flag then modCoh s l fun c => { c with dir := if c.dir.st = .e then { c.dir with st := .m } else c.dir } else s) l
  | .invack => homeAnswer s l
  | .fwdmiss => homeMiss s l
  | .data => dataArrive s d l false
  | .datae => dataArrive s d l true
  | .complete => if i.2.flag then finishFill s d l (if i.2.c = 1 then .e else .m) else s
  | .evictm => evictM s d l
  | .wbdata => homeWritten s d l
  | .wback => if snoopUnderWay s d l then after s 1 i else homeGo (modCoh s l fun c => { c with wb := none }) l
  | _ => s

/-! ## How a cluster comes to hold a line (R97, R99) -/

/-- The cluster of a hart holds the line in a state that lets it read, or write. A read whose hint allocates nothing in the
cluster cache, or for which its set has no way left, is served by the die's LLC (R50, R97). -/
def clusterHolds (s : State) (cl l hint : Nat) (own : Bool) : Bool :=
  let st := cacheSt (getCoh s l) (clKey cl)
  if own then st == .m || st == .e
  else st != .i || ((l2Place hint false == .none || l2Full s cl l) && cacheSt (getCoh s l) (llcKey (cl / 8)) != .i)

/-- What a read, or a write of a part of a line, asks for. -/
def fillFor (own : Bool) : FillKind := if own then .write else .read

/-- What a request that another joins is for, as long as it has not been observed: a prefetch becomes the other's request, and
one to write a line whole one to write. -/
def joint (f : Fill) (kind : FillKind) : FillKind :=
  if f.active || f.kind == kind || kind.pref then f.kind else if f.own then .write else .read

/-- A cluster asks for a line on Tether for a hart, or for its engines under the number that no hart has, or for the L1
instruction caches of cores; others of the cluster join a request that is under way. -/
def askFor (s : State) (h cl l hint td : Nat) (kind : FillKind) (code : List Nat) : State :=
  let own := kind.own
  match (getCoh s l).fills.find? fun f => f.cl == cl with
  | some f =>
    if f.harts.contains (h, own) && code.all f.code.contains then s
    else modCoh s l fun c => setFill c f { f with
      harts := if f.harts.contains (h, own) then f.harts else f.harts ++ [(h, own)], kind := joint f kind, code := f.code ++ code }
  | none =>
    let s := modCoh s l fun c => { c with fills := c.fills ++ [⟨cl, kind, [(h, own)], hint, td, false, false, code⟩] }
    let i : Instr := if !own then .gets else if cacheSt (getCoh s l) (clKey cl) == .i then .getm else .upg
    offer s (cl / 8) (cl % 8) (two i cl l)

/-- A cluster asks for a line. -/
def askLine (s : State) (h cl l hint td : Nat) (kind : FillKind) : State := askFor s h cl l hint td kind []

/-- A write moves the line to M, and no other cache of the die keeps a copy (R96, R97). -/
def toM (s : State) (cl l : Nat) : State :=
  let s := if cacheSt (getCoh s l) (llcKey (cl / 8)) == .i then s else agentLoses s l (llcKey (cl / 8))
  modCoh s l fun c => setCache c (clKey cl) .m

end Sys2Proof.Machine
end

