-- ==== Sys2Proof/Machine/Chunks.lean ====
section
/-!
DEFINITION. Chunks: what a commit does, admission by Cornice, and the truncation of a hart's chunks (R61-R63, R118-R126,
R139, R143, R211, R371, R394).
-/

namespace Sys2Proof.Machine

/-! ## Shared handles (R60-R63, R423) -/

/-- The key of a shared handle of an address space. -/
def shKey (asid n : Nat) : Nat := 8 * asid + n

def getShared (s : State) (cl key : Nat) : ShTile := tabGet ShTile.reset (getCluster s cl).shared key
def setShared (s : State) (cl key : Nat) (x : ShTile) : State :=
  modCluster s cl fun c => { c with shared := tabPut ShTile.reset c.shared key x }

/-- A step or a transfer of a shared handle is applied: chunks that read its contents, and after a step those that
only checked it, are squashed (R62, R63, R423). -/
def squashShared (s : State) (cl key : Nat) (step : Bool) : State :=
  squashWhere s none fun _ c => c.shReads.any fun r => r.1 == cl && r.2.1 == key && (step || r.2.2)

/-- A TCFG or TREL of a shared handle is applied (R62). -/
def applyShStep (s : State) (cl key : Nat) (t : Option Tile) : State :=
  let x := getShared s cl key
  squashShared (setShared s cl key { x with tile := t, steps := x.steps + 1 }) cl key true

/-! ## Multicast requests (R143, R168) -/

/-- The request of a held operation (R168). -/
def mreqMsg (s : State) (g : Group) (o : HeldOp) : Msg :=
  { mkMsg s g.seqdev 0x06 (o.off / 128) with
    td := g.td, mask := o.mask, data := o.data, aux := [g.gid, o.kind, o.op, o.size] }

/-- The group's entry takes an operation of a writer; it is sent unless the group is frozen or re-forming, or has been
deactivated since the instruction executed: then it is counted and held (R168, R169, R424; assumption log, entry 85). -/
def holdOp (s : State) (grp : Nat) (o : HeldOp) : State :=
  let g := getGroup s grp
  let o := { o with id := s.nextReq, sent := g.state == 1 }
  let s := modGroup s grp fun g => { g with held := g.held ++ [o] }
  if o.sent then request s (mreqMsg s g o) [] else { s with nextReq := nextId s.nextReq }

/-! ## Start counters (R211) -/

/-- Nodes that wait for one of these counters become ready, in their order of posting: an observed write has left the
counter zero (R211). -/
def wakeNodes (s : State) (pas : List Nat) : State :=
  if pas.isEmpty then s
  else
    [0, 1, 2, 3].foldl (fun s d =>
      let waits (n : Node) : Bool := n.start.any pas.contains
      let pool := (getDie s d).pool
      if pool.any waits then
        let woken := (pool.filter waits).map fun n => { n with start := none, readyAt := s.cycle }
        modDie s d fun x => { x with pool := pool.filter (fun n => !waits n) ++ woken }
      else s) s

/-! ## Commit (R125) -/

/-- One effect that a member left to the commit. -/
def commitOp (h : Nat) (s : State) (o : CommitOp) : State :=
  match o with
  | .shWrite cl key ver t =>
    let s := modCluster s cl fun c => { c with transfers := c.transfers ++ [⟨h, key, ver, false, some t, false⟩] }
    modHart s h fun x => { x with tileCnt := x.tileCnt + 1 }
  | .shStep cl key _ t => applyShStep s cl key t
  | .mst grp off mask data op size =>
    let s := modHart s h fun x => { x with mcastCnt := x.mcastCnt + 1 }
    holdOp s grp ⟨h, 0, 1, op, size, off, mask, data, none, false⟩
  | .touch d => modHart s h fun x => touchDev x d
  | .atom _ | .poison _ | .engine _ | .rename _ => s

/-- The counters that the atomics of a chunk have left zero (R211). -/
def Chunk.zeroed (c : Chunk) : List Nat := c.ops.filterMap fun o => match o with | .atom pa => some pa | _ => none

/-- The bytes that a chunk has written in a line: which ones, and their values. -/
def chunkLine (c : Chunk) (l : Nat) : LineMask × LineData := tabGet (0, 0) c.bytes l

/-- Bytes become the committed value of a coherent line of the module. A cluster whose copy has been cleaned since the store
holds it in M again (R97, R280). Where no cache of the module owns the line, memory takes them at once (R131). -/
def writeOwn (s : State) (h l : Nat) (d : LineData) (m : LineMask) : State :=
  let s := mergeMem s l d m
  if cacheSt (getCoh s l) (clKey (clusterOf h)) == .e then modCoh s l fun c => setCache c (clKey (clusterOf h)) .m
  else if cacheSt (getCoh s l) (clKey (clusterOf h)) == .i && !(getCoh s l).caches.any (fun k => k.2 == .m) then writeBack s l else s

/-- Bytes become the committed value of a coherent line; of a peer line, the cluster keeps its copy in S where it held the
whole line, and drops what its L1 caches hold otherwise (R97, R109). -/
def writeCommitted (s : State) (h l : Nat) (d : LineData) (m : LineMask) : State :=
  if lineDev l = s.dev then writeOwn s h l d m
  else
    let cl := clusterOf h
    let s := if cacheSt (getCoh s l) (clKey cl) == .i then dropL1s s l cl else s
    holdPosted (commitPeer s h l false d m) l

/-- The bytes of one line become its committed value, with the poison that they carry (R53, R346). -/
def commitLine (h : Nat) (c : Chunk) (s : State) (l : Nat) : State :=
  let (m, d) := chunkLine c l
  let s := { s with poison :=
    if c.ops.contains (.poison l) then setInsert s.poison l else if c.cleared.contains l then s.poison.filter (· != l) else s.poison }
  match c.ncs.find? (fun x => x.1 == l) with
  | some (_, lvl, hint) =>
    let s := if c.tlines.contains l then evictNc1 s (coreOf h) l else s
    ncStore (ncWays s h lvl l hint) h lvl l d m (hint == 3)
  | none => writeCommitted s h l d m

/-- A chunk of a hart commits: its bytes, then the effects left to the commit; a commit clears SQ (R125, R130). -/
def commitChunk (s : State) (h : Nat) (c : Chunk) : State :=
  let s := (tabKeys c.bytes).foldl (commitLine h c) s
  let s := wakeNodes (c.ops.foldl (commitOp h) s) c.zeroed
  modHart s h fun x => { x with sq := 0 }

/-! ## Cornice (R122-R125) -/

/-- The four bits that a line sets in a signature (R123). -/
def sigBits (l : Nat) : List Nat := [0, 1, 2, 3].map fun k => Config.sigHash l k % 2048

/-- A signature reports a line: it holds the line, or the line's four bits are all set (R123). -/
def sigHas (ls : List Nat) (l : Nat) : Bool := ls.contains l || (!ls.isEmpty && (sigBits l).all (ls.flatMap sigBits).contains)

/-- Two signatures meet: one reports a line of the other (R123, R124; assumption log, entry 41). -/
def sigMeet (a b : List Nat) : Bool := a.any (sigHas b) || b.any (sigHas a)

/-- A chunk conflicts with a held one (R124). -/
def conflicts (c : Chunk) (y : Held) : Bool := sigMeet c.writes y.reads || sigMeet c.writes y.writes || sigMeet c.reads y.writes

/-- What Cornice has admitted: the held chunks, and the pre-admitted one (R124, R130). -/
def admittedNow (s : State) : List Held :=
  match s.soloHart with
  | some h => s.held ++ ((openChunks s h).filter fun c => !c.isEmpty).map fun c => ⟨h, c.reads, c.writes⟩
  | none => s.held

/-- The open chunk of the moving hart ends; a chunk with no member is not presented (R121). -/
def closeChunk (s : State) : State :=
  updHart s fun x => { x with
    inflight := if x.chunk.isEmpty then x.inflight else x.inflight ++ [x.chunk]
    chunk := Chunk.fresh x.arch }

/-- Engine operations of a cluster that have not completed. -/
def liveOps (s : State) (cl : Nat) : List EngOp :=
  let c := getCluster s cl
  c.undispatched ++ c.engines.flatMap fun e => e.2.queue.map (·.op) ++ (match e.2.run with | some r => [r.1.op] | none => [])

/-- A member of a chunk has not completed in its engine, so that it has not retired (R347). -/
def working (s : State) (h : Nat) (c : Chunk) : Bool := c.engineOps.any (liveOps s (clusterOf h)).contains

/-- The oldest ended chunk of a hart that Cornice has not admitted. -/
def toPresent (s : State) (h : Nat) : Option Chunk := (getHart s h).inflight[admittedOf s h]?

/-- Every older member of the moving hart has committed. -/
def isDrained (s : State) : Bool := s.cur.chunk.isEmpty && s.cur.inflight.isEmpty

/-! ## Truncation (R121, R371, R394) -/

/-- A chunk as it stood at a cut. -/
def Chunk.cutAt (c : Chunk) (k : Cut) : Chunk :=
  ⟨c.save, k.count, k.reads, k.writes, k.bytes, k.cleared, k.tlines, k.trans, k.shReads, k.ncs, k.mseqs, k.ops,
    c.cuts.takeWhile (· != k)⟩

/-- The cut before a member that an engine operation belongs to, from the state before that member. -/
def Hart.cut (x : Hart) (op : EngOp) : Cut :=
  let c := x.chunk
  ⟨op, x.arch, c.count, c.reads, c.writes, c.bytes, c.cleared, c.tlines, c.trans, c.shReads, c.ncs, c.mseqs, c.ops⟩

/-- An engine operation has been queued and not begun. -/
def notBegun (s : State) (cl : Nat) (op : EngOp) : Bool :=
  let c := getCluster s cl
  c.undispatched.contains op || c.engines.any fun e => e.2.queue.any fun q => q.op == op

/-- The cuts in a hart's chunks that Cornice has not admitted, oldest first, each with the number of its chunk. -/
def cutsOf (s : State) (h : Nat) : List (Nat × Chunk × Cut) :=
  let x := getHart s h
  (((x.inflight ++ [x.chunk]).mapIdx fun j c => (j, c)).drop (admittedOf s h)).flatMap fun p => p.2.cuts.map fun k => (p.1, p.2, k)

/-- Where the moving hart's chunks are cut: every member whose operation has begun completes, with every older one, so the cut
stands before the oldest member after the youngest of them whose operation has not begun (R347, R394). -/
def cutPoint (s : State) (h : Nat) : Option (Nat × Chunk × Cut) :=
  ((cutsOf s h).reverse.takeWhile fun p => notBegun s (clusterOf h) p.2.2.op).getLast?

/-- An interrupt or parking squashes the members from its cut on. -/
def cutBack (s : State) : State :=
  match cutPoint s s.curId with
  | some (j, c, k) => rewind s s.curId j k.arch (c.cutAt k)
  | none => s

/-- The moving hart's chunk is truncated at its boundary; it is presented and commits (R121). -/
def truncate (s : State) : State := closeChunk (cutBack s)

end Sys2Proof.Machine
end

