-- ==== Sys2Proof/Machine/Translate.lean ====
section
/-!
DEFINITION. Translation of an address and the checks of an access: regions and the aperture (R15-R20), the walk,
the TLBs and the walk cache (R24-R32, R37-R39), the order of the checks (R35), engine windows (R33), trust domains (R161, R162), the
module control region (R422) and the matching of non-coherent ranges (R44, R45).
-/

namespace Sys2Proof.Machine

/-- Whose access it is: hart id, mode, address space and root table; `ranges` where non-coherent ranges apply. -/
structure Who where
  hart : Nat
  mode : Mode
  asid : Nat
  root : Word
  ranges : Bool
  deriving DecidableEq, Repr

/-- The moving hart. -/
def whoCur (s : State) : Who := ⟨s.curId, s.cur.arch.mode, s.cur.arch.asid, s.cur.arch.ptroot, true⟩

/-- A request for translation: the kind of access, its bytes, whether its address breaks its alignment. -/
structure AccReq where
  kind : AccKind
  n : Nat
  misaligned : Bool := false
  ctl : CtlUse := .refused
  deriving DecidableEq, Repr

/-- A translated access: physical address, trust domain (0: none), lowest level of a non-coherent range, and the
translation that it used. -/
structure Acc where
  pa : Nat
  td : Nat
  lvl : Option Nat
  used : Option (Nat × Nat)
  deriving DecidableEq, Repr

/-! ## Kinds -/

def kWrites : AccKind → Bool | .store | .atomic | .vstore | .tstore | .copyWrite | .engWrite => true | _ => false
def kReads : AccKind → Bool | .load | .atomic | .vload | .tload | .copyRead | .engRead => true | _ => false
def kEng : AccKind → Bool | .engRead | .engWrite => true | _ => false

/-! ## Page-table entries (R28-R32) -/

def pteField (e hi lo : Nat) : Nat := e >>> lo % 2 ^ (hi + 1 - lo)
def pteBit (e i : Nat) : Bool := e.testBit i
/-- The physical address that PPN gives (R28). -/
def ptePpn (e : Nat) : Nat := (e >>> 16) % 2 ^ 44 * 4096
def pteSize (e : Nat) : Nat := (e >>> 10) % 8

/-- log2 of the page size of a size code, and the level where it may stand (R27, R29). -/
def sizeBits : Nat → Nat | 0 => 12 | 1 => 16 | 2 => 21 | 3 => 25 | 4 => 30 | 5 => 34 | _ => 39
def sizeLevel : Nat → Nat | 0 => 0 | 1 => 0 | 2 => 1 | 3 => 1 | 4 => 2 | 5 => 2 | _ => 3

/-- A frame lies, wholly or in part, in a region marked None (R23). -/
def frameNone (pa bits : Nat) : Bool :=
  decide (offOf pa < 0x3FF00000000) && decide (0x07800000000 < offOf pa + 2 ^ bits)

/-- A leaf at a level is well formed (R23, R32). -/
def leafOk (e lvl : Nat) : Bool :=
  decide (e >>> 60 = 0) && !(pteBit e 2 && !pteBit e 1) && decide (pteSize e ≠ 7) && decide (sizeLevel (pteSize e) = lvl) &&
    decide (ptePpn e % 2 ^ sizeBits (pteSize e) = 0) &&
    (if pteBit e 8 then pteSize e == 0 && pteBit e 1 && pteBit e 2 && !pteBit e 3
     else !frameNone (ptePpn e) (sizeBits (pteSize e)))

/-- A pointer entry is well formed (R28, R32). -/
def pointerOk (dev e : Nat) : Bool :=
  decide (e >>> 60 = 0) && decide ((e >>> 1) % 2 ^ 12 = 0) && decide (devOf (ptePpn e) = dev)

/-! ## TLBs (R37) -/

/-- An entry translates an address in an address space. -/
def TlbEnt.hits (e : TlbEnt) (asid va : Nat) : Bool := (pteBit e.pte 5 || e.asid == asid) && va / 2 ^ e.bits == e.page / 2 ^ e.bits

/-- The entry of a leaf. -/
def tlbEntry (asid va pte addr : Nat) : TlbEnt :=
  let b := sizeBits (pteSize pte)
  ⟨asid, va / 2 ^ b * 2 ^ b, b, pte, addr⟩

/-- The set of the second-level TLB for an address under a page size: the page's number modulo 512 (R37; assumption log, entry
76). -/
def tlbSet (va bits : Nat) : Nat := va / 2 ^ bits % 512

/-- A lookup of the second level probes every size. -/
def tlb2Find (c : Core) (asid va : Nat) : Option TlbEnt :=
  [0, 1, 2, 3, 4, 5, 6].findSome? fun k =>
    let b := sizeBits k
    (tabGet [] c.tlb2 (tlbSet va b)).find? fun e => e.bits == b && e.hits asid va

/-- A new entry of a TLB or of one of its sets takes the place of the oldest one. -/
def fifoPut (n : Nat) (e : TlbEnt) (l : List TlbEnt) : List TlbEnt :=
  let l := l.filter (fun x => !(x.pteAddr == e.pteAddr && x.asid == e.asid && x.page == e.page)) ++ [e]
  l.drop (l.length - n)

def tlb1Put (s : State) (core : Nat) (e : TlbEnt) : State := modCore s core fun c => { c with tlb1 := fifoPut 128 e c.tlb1 }

/-- A leaf fills both TLBs of a core. -/
def tlbPut (s : State) (core : Nat) (e : TlbEnt) : State :=
  modCore (tlb1Put s core e) core fun c => { c with tlb2 := tabMod [] c.tlb2 (tlbSet e.page e.bits) (fifoPut 8 e) }

/-- The translation that a core's TLBs hold; one found in the second level goes to the first. Where the 16 entries of a group
page differ, the one held serves the whole group (R30; assumption log, entry 77). -/
def tlbFind (s : State) (core asid va : Nat) : State × Option TlbEnt :=
  let c := getCore s core
  match c.tlb1.find? (fun e => e.hits asid va) with
  | some e => (s, some e)
  | none => match tlb2Find c asid va with
    | some e => (tlb1Put s core e, some e)
    | none => (s, none)

/-! ## Walks (R27, R31, R37-R39) -/

/-- Where a walk stands: a leaf and its address, a fault, or the line of an entry that the cluster has yet to obtain, for
reading or for the update of the entry. -/
inductive Walk
  | leaf (pte addr : Nat)
  | fault (code : Nat)
  | need (line : Nat) (own : Bool)
  deriving DecidableEq, Repr

/-- The walk cache of a cluster takes an entry. -/
def walkPut (s : State) (cl : Nat) (e : WalkEnt) : State :=
  modCluster s cl fun c =>
    let l := c.walkCache.filter (fun x => x.pa != e.pa) ++ [e]
    { c with walkCache := l.drop (l.length - 32768) }

def walkDrop (s : State) (cl pa : Nat) : State := modCluster s cl fun c => { c with walkCache := c.walkCache.filter fun x => x.pa != pa }

/-- In stage 1 the data region beyond the 96 MiB that die 0 serves is refused (R415). -/
def stageRefused (s : State) (pa : Nat) : Bool :=
  s.stage == 1 && devOf pa == s.dev && isData (offOf pa) && decide (0x6000000 ≤ offOf pa)

/-- A cluster can read an entry of a page table: the entry's line is in its cache. R38 keeps page tables in the module's own
memory and says nothing of a root elsewhere: such an entry is read at once, from the module's own map of bytes, which holds
nothing there (assumption log, entry 75). -/
def entryHeld (s : State) (cl addr : Nat) (own : Bool) : Bool := devOf addr != s.dev || clusterHolds s cl (addr / 128) 0 own

/-- The walk from a table at a level downwards: each entry comes from the walk cache, or is read as a coherent double
word. Valid, well-formed entries go into the walk cache (R27, R32, R37, R38). A walk cache, like a TLB, keeps an entry until
an invalidation removes it (assumption log, entry 44). -/
def walkFrom (cl va : Nat) : Nat → Nat → State → State × Walk
  | lvl, table, s =>
    let addr := table + 8 * (va / 2 ^ (12 + 9 * lvl) % 512)
    let kept := (getCluster s cl).walkCache.find? fun x => x.pa == addr
    if stageRefused s addr then (s, .fault cPerm)
    else if kept.isNone && !entryHeld s cl addr false then (s, .need (addr / 128) false)
    else
      let e := match kept with | some x => x.val | none => readBytes s.mem addr 8
      let keep (s : State) : State := if kept.isSome then s else walkPut s cl ⟨addr, lvl, e⟩
      if !pteBit e 0 then (s, .fault cNotPresent)
      else if pteBit e 1 || pteBit e 2 || pteBit e 3 then
        if leafOk e lvl then (keep s, .leaf e addr) else (s, .fault cPerm)
      else match lvl with
        | 0 => (s, .fault cPerm)
        | l + 1 => if pointerOk s.dev e then walkFrom cl va l (ptePpn e) (keep s) else (s, .fault cPerm)

/-- The walk of an address under a root (R24, R27). -/
def walk (s : State) (cl : Nat) (root : Word) (va : Nat) : State × Walk := walkFrom cl va 4 (root.toNat % 2 ^ 56 / 4096 * 4096) s

/-- A walker updates a leaf by compare and set: where the entry in memory is no longer the one walked, the entry leaves the
walk cache and the walk starts again (R31). -/
def updateLeaf (s : State) (cl addr old new : Nat) : State × Walk :=
  if new = old then (s, .leaf old addr)
  else if !entryHeld s cl addr true then (s, .need (addr / 128) true)
  else if readBytes s.mem addr 8 ≠ old then (walkDrop s cl addr, .need (addr / 128) false)
  else
    let l := addr / 128
    if snoopWaits s none true l then (s, .need l true)
    else
      let s := toM (snoop s none true l) cl l
      let s := if (getCluster s cl).walkCache.any (fun x => x.pa == addr) then walkPut s cl ⟨addr, (sizeLevel (pteSize new)), new⟩ else s
      ({ s with mem := writeBytes s.mem addr 8 new }, .leaf new addr)

/-! ## Regions (R15, R19, R20) -/

def apertureLo : Nat := 0x00F0000000000000
/-- An address lies in the private aperture (R15). -/
def inAperture (a : Nat) : Bool := decide (apertureLo ≤ a) && decide (a < apertureLo + 2 ^ 32)

/-- An access lies partly in the private aperture (R20). -/
def straddles (s : State) (a : Word) (n : Nat) : Bool :=
  s.cur.arch.mode != .m && inAperture a.toNat != inAperture (a.toNat + n - 1)
/-- The alias address of an aperture address (R19). -/
def aliasOf (hid a : Nat) : Nat := 0x01F0000000000000 + hid * 2 ^ 32 + (a - apertureLo)

/-! ## Trust domains (R161, R162) -/

/-- The trust domain of an address space on an ENC page; none where the access is refused (R162). -/
def trustDomain (s : State) (asid : Nat) : Option Nat :=
  if !s.tdbase.getLsbD 0 then none
  else
    let n := (tableByte s (field 55 16 s.tdbase * 2 ^ 16 + asid)).toNat
    if n = 0 ∨ (tabGet none s.keys n).isNone then none else some n

/-! ## Non-coherent ranges (R44, R45) -/

/-- Range i of a hart matches an address. -/
def rangeMatch (a : Arch) (va i : Nat) : Bool :=
  match a.ncattr[i]?, a.ncbase[i]?, a.nclim[i]? with
  | some t, some b, some l =>
    t.getLsbD 0 && field 2 1 t != 3 && decide (field 56 12 b ≤ va / 4096 % 2 ^ 45) && decide (va / 4096 % 2 ^ 45 ≤ field 56 12 l)
  | _, _, _ => false

/-- LVL and RO of the range that an address matches; the lowest-numbered one applies (R45). -/
def ncMatch (a : Arch) (va : Nat) : Option (Nat × Bool) :=
  match (List.range 16).find? (rangeMatch a va) with
  | some i => (a.ncattr[i]?).map fun t => (field 2 1 t, t.getLsbD 3)
  | none => none

/-! ## The checks (R17, R35, R422) -/

/-- The permission bits that a kind of access needs (R35 step 7). -/
def permOk (k : AccKind) (pte : Nat) : Bool :=
  match k with
  | .fetch => pteBit pte 3
  | k => (!(kReads k) || pteBit pte 1) && (!(kWrites k) || pteBit pte 2)

/-- An access to the module control region is refused for its kind or its device id (R422). -/
def ctlRefused (s : State) (r : AccReq) (pa : Nat) : Bool :=
  isControl (offOf pa) && r.ctl != .noAccess && (r.ctl == .refused || devOf pa != s.dev)

/-- The trap of a failed check on an address. -/
def perm {α : Type} (a : Word) : Res α := .trap { code := cPerm, tval := a }

/-- An access in M mode (R17, R23, R422). -/
def translateM (s : State) (r : AccReq) (a : Word) : Res Acc :=
  need (a.toNat < 2 ^ 56) { code := cPerm, tval := a } <|
  need (!r.misaligned) { code := cMisalign, tval := a } <|
  need (!isNone (offOf a.toNat) && !ctlRefused s r a.toNat && !stageRefused s a.toNat && !(kEng r.kind)) { code := cPerm, tval := a } <|
  .val ⟨a.toNat, 0, none, none⟩

/-- Steps 5 to 8 of R35 on a leaf, with the trust domain of R162 after step 7. Removing a line, as CINV and CWBI do, is no
write for step 8 (assumption log, entry 42). Step 6 refuses the control region to U mode, to CWB, CINV and CWBI too (R267, R422;
assumption log, entry 78). -/
def checkLeaf (s : State) (w : Who) (r : AccReq) (a : Word) (va : Nat) (e : TlbEnt) : Res Acc :=
  let eng := pteBit e.pte 8
  let pa := ptePpn e.pte + va % 2 ^ e.bits
  let ctl := !eng && isControl (offOf pa)
  let nc := if w.ranges && !eng && !ctl then ncMatch (getHart s w.hart).arch va else none
  let td := if pteBit e.pte 9 && !eng then trustDomain s w.asid else some 0
  need (eng == kEng r.kind) { code := cPerm, tval := a } <|
  need (match w.mode with
    | .u => pteBit e.pte 4 && !ctl
    | _ => !(r.kind == .fetch && pteBit e.pte 4)) { code := cPerm, tval := a } <|
  need (permOk r.kind e.pte && !(ctl && ctlRefused s r pa) && (eng || !stageRefused s pa)) { code := cPerm, tval := a } <|
  need td.isSome { code := cPerm, tval := a } <|
  need (!(kWrites r.kind && r.ctl != .noAccess && nc.any (·.2))) { code := cPerm, tval := a } <|
  .val ⟨if eng then 0 else pa, td.getD 0, nc.map (·.1),
    some (if pteBit e.pte 5 then 2 ^ 16 else w.asid, e.page * 64 + e.bits)⟩

/-- A checked access needs D in its leaf: a write to memory (R31). -/
def needsD (r : AccReq) : Bool := kWrites r.kind && !kEng r.kind && r.ctl != .noAccess

/-- The whole walk for an access: the leaf, with A set, and with D where a write has passed its checks on that very leaf
(R31, R35). The fuel counts restarts. -/
def walkFor (w : Who) (r : AccReq) (a : Word) (va : Nat) (s : State) : State × Walk :=
  let cl := clusterOf w.hart
  match walk s cl w.root va with
  | (s, .leaf e addr) =>
    match updateLeaf s cl addr e (e ||| 2 ^ 6) with
    | (s, .leaf e addr) =>
      match needsD r, checkLeaf s w r a va (tlbEntry w.asid va e addr) with
      | true, .val _ => updateLeaf s cl addr e (e ||| 2 ^ 7)
      | _, _ => (s, .leaf e addr)
    | x => x
  | x => x

/-- The leaf that a walk from a table downwards comes to in memory, as the bits of its page. -/
def leafBits (s : State) (va : Nat) : Nat → Nat → Option Nat
  | lvl, table =>
    let e := readBytes s.mem (table + 8 * (va / 2 ^ (12 + 9 * lvl) % 512)) 8
    if !pteBit e 0 then none
    else if pteBit e 1 || pteBit e 2 || pteBit e 3 then some (sizeBits (pteSize e))
    else match lvl with
      | 0 => none
      | l + 1 => leafBits s va l (ptePpn e)

/-- A request for a walk is one for the leaf that an address needs: in the same 4 KiB page, or in the page of that leaf (R39). -/
def sameLeaf (s : State) (q : WalkReq) (asid : Nat) (root : Word) (va : Nat) : Bool :=
  q.asid == asid && q.root == root && (q.va / 4096 == va / 4096 ||
    ((leafBits s q.va 4 (root.toNat % 2 ^ 56 / 4096 * 4096)).any fun b => q.va / 2 ^ b == va / 2 ^ b))

/-- The harts that wait for a walk, and those whose commands do. -/
def WalkReq.forHarts (q : WalkReq) : List Nat := if q.cmd then q.joined else q.hart :: q.joined
def WalkReq.forCmds (q : WalkReq) : List Nat := if q.cmd then q.hart :: q.cmds else q.cmds

/-- A request for a walk of a hart, or of a command of it: it joins one for the same leaf, or waits in order (R39). -/
def askWalk (s : State) (w : Who) (cmd : Bool) (r : AccReq) (a : Word) (va : Nat) : State :=
  let same (q : WalkReq) : Bool := sameLeaf s q w.asid w.root va
  let waits (q : WalkReq) : Bool := (if cmd then q.forCmds else q.forHarts).contains w.hart
  let join (q : WalkReq) : WalkReq := if cmd then { q with cmds := q.cmds ++ [w.hart] } else { q with joined := q.joined ++ [w.hart] }
  modCluster s (clusterOf w.hart) fun c =>
    if c.walks.any fun q => same q && waits q then c
    else match c.walks.find? same with
      | some q => { c with walks := c.walks.map fun x => if x = q then join x else x }
      | none => { c with walks := c.walks ++ [⟨w.hart, cmd, w.mode, w.asid, w.root, r.kind, r.ctl, a, va, [], []⟩] }

/-- The answer of a walk is one for an address. -/
def Walked.answers (x : Walked) (w : Who) (va : Nat) : Bool :=
  x.asid == w.asid && x.root == w.root && (x.page == va / 4096 || x.leaf.any fun e => va / 2 ^ e.bits == e.page / 2 ^ e.bits)

/-- The answers that a hart's instruction, or the command at the head of its FIFO, has waited for. -/
def walkedOf (s : State) (h : Nat) (cmd : Bool) : List Walked :=
  let x := getHart s h
  if cmd then (x.fifo.cmds.head?.map (·.walked)).getD [] else x.walked

def modWalked (s : State) (h : Nat) (cmd : Bool) (f : List Walked → List Walked) : State :=
  modHart s h fun x =>
    if cmd then { x with fifo := { x.fifo with cmds := match x.fifo.cmds with | c :: r => { c with walked := f c.walked } :: r | [] => [] } }
    else { x with walked := f x.walked }

/-- The answer of a walk that a hart's instruction, or its command, has waited for. -/
def walkAnswer (s : State) (w : Who) (cmd : Bool) (va : Nat) : Option Walked := (walkedOf s w.hart cmd).find? fun x => x.answers w va

/-- An access waits for a walk. -/
def walkMore (s : State) (w : Who) (cmd : Bool) (r : AccReq) (a : Word) (va : Nat) : State × Res Acc :=
  (askWalk (modWalked s w.hart cmd fun l => l.filter fun y => !y.answers w va) w cmd r a va, .wait (.miss .walk))

/-- An access under a leaf; one that needs D waits for a walk that sets it (R31). -/
def useLeaf (s : State) (w : Who) (cmd : Bool) (r : AccReq) (a : Word) (va : Nat) (e : TlbEnt) : State × Res Acc :=
  match checkLeaf s w r a va e with
  | .val x => if needsD r && !pteBit e.pte 7 then walkMore s w cmd r a va else (s, .val x)
  | x => (s, x)

/-- The translation of an access: a hart's by the TLBs of its core; by the answer of a walk, else it waits for a walk. The
copy engine has no TLB and uses the cluster's walkers (R31, R37, R39, R69). -/
def lookup (s : State) (w : Who) (cmd : Bool) (r : AccReq) (a : Word) (va : Nat) : State × Res Acc :=
  match walkAnswer s w cmd va with
  | some ⟨_, _, _, some e, _⟩ => useLeaf s w cmd r a va e
  | some ⟨_, _, _, none, c⟩ => (s, .trap { code := c, tval := a })
  | none =>
    if cmd then walkMore s w cmd r a va
    else match tlbFind s (coreOf w.hart) w.asid va with
      | (s, some e) => useLeaf s w cmd r a va e
      | (s, none) => walkMore s w cmd r a va

/-- The translation of one access that lies in one page, with the effects on the TLBs and on A and D. -/
def translate (s : State) (w : Who) (r : AccReq) (a : Word) : State × Res Acc :=
  if w.mode = .m then (s, translateM s r a)
  else
    let n := a.toNat
    let ap := inAperture n
    let va := if ap then aliasOf w.hart n else n
    if 2 ^ 57 ≤ n then (s, perm a)
    else if r.misaligned || ap != inAperture (n + r.n - 1) then (s, .trap { code := cMisalign, tval := a })
    else if w.mode = .u ∧ !ap ∧ 2 ^ 56 ≤ va then (s, perm a)
    else lookup s w (r.kind == .copyRead || r.kind == .copyWrite) r a va

end Sys2Proof.Machine
end

