-- ==== Sys2Proof/Machine/Control.lean ====
section
/-!
DEFINITION. The registers of the module control region (R80-R82, R88, R93, R113, R157, R160, R161, R165, R172, R392,
R393, R402, R411, R412, R419), and the pending bits of interrupts (R387, R392).
-/

namespace Sys2Proof.Machine

/-! ## Pending interrupts (R387, R388, R392) -/

def sipOf (s : State) (h : Nat) : Bool := (getHart s h).swint
def tipOf (s : State) (h : Nat) : Bool := decide ((getHart s h).timecmp ≤ s.mtime)
def eipOf (s : State) (h : Nat) : Bool := h == s.extroute && s.extstat &&& s.extena != 0

/-- hstat as it reads: the writable fields with the pending bits (R387). -/
def hstatOf (s : State) (h : Nat) : Word :=
  let x := getHart s h
  let b (c : Bool) (k : Nat) : Word := if c then BitVec.ofNat 64 (2 ^ k) else 0
  x.arch.hstat ||| b x.wdp.isSome 11 ||| b (eipOf s h) 10 ||| b (tipOf s h) 9 ||| b (sipOf s h) 8

/-- The writable bits of hstat (R387); a write of PM = 2 stores 0. -/
def hstatStore (x : Word) : Word :=
  let y := x &&& 0x01FFFFFFFFFFF0FB
  if field 1 0 y = 2 then y &&& ~~~(3 : Word) else y

/-! ## ustat (R358, R393) -/

/-- ustat as it reads. -/
def ustatOf (x : Hart) : Word :=
  BitVec.ofNat 64 ((if x.arch.uie then 1 else 0) + (if x.uip then 2 else 0) + (if x.arch.inh then 4 else 0))

/-- The set that g56-g63 name and the other one change places (R359). -/
def swapNamed (a : Arch) : Arch :=
  { a with
    g := Vector.ofFn fun i : Fin 64 => if h : 56 ≤ i.val then a.shadow[i.val - 56]'(by have := i.isLt; omega) else a.g[i]
    shadow := Vector.ofFn fun i : Fin 8 => a.g[56 + i.val]'(by have := i.isLt; omega) }

/-- A write of the ustat image; a change of INH changes which set g56-g63 name (R393). -/
def ustatImage (x : Hart) (v : Word) : Hart :=
  let a := if x.arch.inh != v.getLsbD 2 then swapNamed x.arch else x.arch
  { x with uip := v.getLsbD 1, arch := { a with uie := v.getLsbD 0, inh := v.getLsbD 2 } }

/-- g60-g63 as named exchanged with a bank (R390). -/
def withBank (a : Arch) (bank : Vector Word 4) : Arch × Vector Word 4 :=
  ({ a with g := Vector.ofFn fun i : Fin 64 =>
      if h : 60 ≤ i.val then bank[i.val - 60]'(by have := i.isLt; omega) else a.g[i] },
   Vector.ofFn fun i : Fin 4 => a.g[60 + i.val]'(by have := i.isLt; omega))

/-! ## Control registers that the hart's own state holds (R10, R361) -/

def setAt {n : Nat} (x : Vector Word n) (i : Nat) (v : Word) : Vector Word n := x.setIfInBounds i v

/-- Bits [56:12], and [56:3], of a register. -/
def maskPage : Word := 0x01FFFFFFFFFFF000
def maskWord : Word := 0x01FFFFFFFFFFFFF8

/-- The fields of a control register that hold what is written, by its number (R10, R361). -/
def csrStore (a : Arch) (n : Nat) (v : Word) : Arch :=
  match n with
  | 0x000 => { a with fcsr := fcsrStore v }
  | 0x001 => { a with vcsr := v &&& 3 }
  | 0x002 => { a with fstat := v &&& 0xFF013FFF }
  | 0x003 => { a with short := v.getLsbD 0 }
  | 0x008 => { a with uvec := v &&& maskWord }
  | 0x009 => { a with uie := v.getLsbD 0 }
  | 0x00A => { a with uepc := v &&& maskWord }
  | 0x012 => { a with hreq := v &&& 1 }
  | 0x100 => { a with hstat := hstatStore v }
  | 0x101 => { a with hcause := v &&& 0x80000000000000FF }
  | 0x102 => { a with hepc := v &&& ~~~(7 : Word) }
  | 0x103 => { a with htval := v }
  | 0x104 => { a with htrow := v &&& 0xFF }
  | 0x110 => { a with asid := v.toNat % 65536 }
  | 0x111 => { a with ptroot := v &&& 0x00FFFFFFFFFFF000 }
  | n =>
    if 0x120 ≤ n ∧ n < 0x130 then { a with ncbase := setAt a.ncbase (n - 0x120) (v &&& maskPage) }
    else if 0x130 ≤ n ∧ n < 0x140 then { a with nclim := setAt a.nclim (n - 0x130) (v &&& maskPage) }
    else if 0x140 ≤ n ∧ n < 0x150 then { a with ncattr := setAt a.ncattr (n - 0x140) (v &&& 0xF) }
    else a

/-! ## Local offsets (R411) -/

def w64 (n : Nat) : Word := BitVec.ofNat 64 n
def bitN (c : Bool) (k : Nat) : Nat := if c then 2 ^ k else 0
/-- A number kept between two bounds. -/
def clamp (x lo hi : Nat) : Nat := if x < lo then lo else if hi < x then hi else x

/-- The management and power block (R402, R412, R419). -/
def mgmtRead (s : State) (o : Nat) : Word :=
  if o = 0 then w64 (s.stage * 256 + bitN s.fatal 3 + bitN s.capFlag 2 + bitN s.throtFlag 1 + bitN s.replace 0)
  else if o = 8 then w64 (s.pwr * 65536 + s.cap)
  else if o = 0x10 then w64 (Nat.min s.retired.length 0xFFFF)
  else if 0x20 ≤ o ∧ o < 0x40 then
    let d := getDie s ((o - 0x20) / 8)
    w64 (d.fclk * 65536 + d.tj * 256 + d.tlim)
  else if 0x1000 ≤ o ∧ o < 0x2000 then
    match s.retired[(o - 0x1000) / 16]? with
    | some r => if o % 16 = 0 then r.word else w64 r.time
    | none => 0
  else 0

/-- Bits of a map of device ids: the register that holds ids 64 * i on (R160). -/
def mapWord (l : List Nat) (i : Nat) : Nat := packNat 1 ((List.range 64).map fun k => if l.contains (64 * i + k) then 1 else 0)

/-- A controller's registers (R80-R82, R88, R93). -/
def hbmRead (x : Hbm) (o : Nat) : Word :=
  if o = 0 then w64 (x.mth * 256 + bitN x.auto 0)
  else if o = 8 then
    w64 (x.temp * 256 + bitN x.thold 5 + bitN x.catt 4 + bitN x.ue 3 + bitN x.marg 2 + bitN x.repair 1 + bitN x.spout 0)
  else if o = 0x10 then w64 (x.pos * 2 ^ 32 + x.period)
  else if o = 0x18 then w64 (x.ce * 2 ^ 32 + x.ues)
  else if 0x100 ≤ o ∧ o < 0x200 then
    let c := tabGet Chan.reset x.chans ((o - 0x100) / 8)
    w64 (c.spused * 256 + bitN c.hold 1)
  else if 0x1000 ≤ o ∧ o < 0x9000 then
    let k := (o - 0x1000) / 8
    if 72 ≤ k % 128 then 0
    else
      let l := tabGet Lane.reset x.lanes k
      w64 ((if 64 ≤ k % 128 then 0xF else l.spare) * 65536 + l.width * 256 + l.height)
  else 0

/-- A group entry's double words (R165). -/
def groupRead (g : Group) (k : Nat) : Word :=
  match k with
  | 0 => w64 (g.state * 2 ^ 62 + g.gid * 2 ^ 48 + g.seqdev * 2 ^ 32 + g.nmem * 2 ^ 24 + g.rdep * 2 ^ 20 + g.rstat * 2 ^ 16 + g.td * 2 ^ 8)
  | 1 => w64 (g.base * 2 ^ 16 + g.log2sz)
  | 2 => w64 g.listAddr
  | 3 => w64 g.replay
  | 4 => w64 g.applied
  | 5 => w64 g.stamped
  | _ => 0

/-- The fabric block (R157, R160, R161, R165, R172). -/
def fabricRead (s : State) (o : Nat) : Word :=
  if o = 0 then w64 s.dev
  else if o = 8 then w64 (s.fto * 65536 + bitN s.join 1 + bitN s.adapt 0)
  else if o = 0x10 then s.tdbase
  else if 0x1000 ≤ o ∧ o < 0x1800 then w64 (mapWord s.lostMap ((o - 0x1000) / 8))
  else if 0x1800 ≤ o ∧ o < 0x2000 then w64 (2 ^ 64 - 1 - mapWord s.domainClear ((o - 0x1800) / 8))
  else if 0x2000 ≤ o ∧ o < 0x2080 then
    let p := getPort s (31 + (o - 0x2000) / 8)
    w64 (bitN (p.forced || p.farForced) 33 + bitN p.parked 32 + p.idle * 65536 + p.wth * 256 + bitN p.pen 0)
  else if 0x4000 ≤ o ∧ o < 0x5000 then groupRead (getGroup s ((o - 0x4000) / 64)) (o % 64 / 8)
  else 0

/-- The bits of a double word of the M save record that its register has: hstat, hcause, hepc, htval, htrow (R11, R331,
R386, R387). -/
def recordStore (i : Nat) (v : Word) : Word :=
  match i with
  | 0 => hstatStore v
  | 1 => v &&& 0x80000000000000FF
  | 2 => v &&& ~~~(7 : Word)
  | 3 => v
  | _ => v &&& 0xFF

/-- Software accesses the block of another hart while that hart is Issuing: the values read and written are unspecified
(R12, R393); the model answers and stores free values. -/
def blockOpen (s : State) (h : Nat) : Bool := h != s.curId && (getHart s h).slot == .issuing

/-- A slot's 256-byte block (R393). -/
def slotRead (x : Hart) (m : Bool) (o : Nat) : Word :=
  if o < 0x40 then (x.arch.shadow[o / 8]?).getD 0
  else if o < 0x60 then (x.arch.sbank[(o - 0x40) / 8]?).getD 0
  else if o = 0x60 then ustatOf x
  else if !m then 0
  else if 0x80 ≤ o ∧ o < 0xA0 then (x.arch.mbank[(o - 0x80) / 8]?).getD 0
  else if 0xA0 ≤ o ∧ o < 0xC8 then (x.arch.mrec[(o - 0xA0) / 8]?).getD 0
  else 0

/-- The interrupt block (R392). -/
def intRead (s : State) (m : Bool) (o : Nat) : Word :=
  if o = 0 then w64 s.mtime
  else if o = 8 then if m then s.mtvec else 0
  else if o = 0x10 then w64 s.extroute
  else if o = 0x18 then s.extstat.setWidth 64
  else if o = 0x20 then s.extena.setWidth 64
  else if 0x10000 ≤ o ∧ o < 0x18000 then w64 (getHart s ((o - 0x10000) / 8)).timecmp
  else if 0x20000 ≤ o ∧ o < 0x28000 then w64 (bitN (getHart s ((o - 0x20000) / 8)).swint 0)
  else 0

/-- A double word of the control region as it reads, in M mode or not; an offset that no block names reads zero (R411). -/
def ctlRead (s : State) (m : Bool) (off : Nat) : Word :=
  let o := off - 0x3FF00000000
  if o < 0x10000 then mgmtRead s o
  else if 0x100000 ≤ o ∧ o < 0x180000 then hbmRead (getHbm s ((o - 0x100000) / 0x10000)) (o % 0x10000)
  else if o = 0x180000 then w64 (bitN s.memLock 1 + bitN s.ilv 0)
  else if o = 0x200000 then w64 (s.salvBase + s.salvSz)
  else if o = 0x200008 then w64 (s.salvHead * 2 ^ 32 + s.salvTail)
  else if o = 0x200010 then w64 (s.salvOvf * 2 ^ 32 + bitN s.salvEn 0)
  else if 0x300000 ≤ o ∧ o < 0x310000 then fabricRead s (o - 0x300000)
  else if 0x400000 ≤ o ∧ o < 0x440000 then intRead s m (o - 0x400000)
  else if 0x500000 ≤ o ∧ o < 0x600000 then
    let h := (o - 0x500000) / 256
    if blockOpen s h then Config.freeWord s.freeCtr else slotRead (getHart s h) m (o % 256)
  else 0

/-- A read of the control region, with the free value that it may have taken (R393, R411). -/
def ctlLoad (s : State) (m : Bool) (off : Nat) : State × Word :=
  let o := off - 0x3FF00000000
  (if 0x500000 ≤ o ∧ o < 0x600000 ∧ blockOpen s ((o - 0x500000) / 256) then spend s 1 else s, ctlRead s m off)

/-- A write of the management block (R419). -/
def mgmtWrite (s : State) (o : Nat) (v : Word) : State :=
  if o = 8 then { s with cap := clamp (field 15 0 v) 1200 2600 }
  else if 0x20 ≤ o ∧ o < 0x40 then modDie s ((o - 0x20) / 8) fun d => { d with tlim := clamp (field 7 0 v) 70 95 }
  else s

/-- A write of a controller's register (R82, R88, R93, R94). -/
def hbmWrite (s : State) (n o : Nat) (v : Word) : State :=
  let keep (x k : Bool) : Bool := x && !k
  if o = 0 then modHbm s n fun x => { x with mth := field 15 8 v, auto := v.getLsbD 0 }
  else if o = 8 then modHbm s n fun x => { x with
    catt := keep x.catt (v.getLsbD 4), ue := keep x.ue (v.getLsbD 3), marg := keep x.marg (v.getLsbD 2)
    repair := keep x.repair (v.getLsbD 1), spout := keep x.spout (v.getLsbD 0) }
  else if o = 0x10 then modHbm s n fun x => { x with
    period := field 7 0 v, scrubAt := if x.period = 0 then s.mtime + scrubInterval (field 7 0 v) else x.scrubAt }
  else if o = 0x18 then modHbm s n fun x => { x with ce := field 63 32 v, ues := field 31 0 v }
  else if 0x100 ≤ o ∧ o < 0x200 ∧ v.getLsbD 0 then after s 0 (two .chstatTrainreq n ((o - 0x100) / 8))
  else s

/-- A write of a group entry's double word: fields where STATE is 0 or 2, then the command (R165, R424). -/
def groupWrite (s : State) (n k : Nat) (v : Word) : State :=
  let free := (getGroup s n).state == 0 || (getGroup s n).state == 2
  match k with
  | 0 =>
    let s := if free then modGroup s n fun g => { g with
        gid := field 59 48 v, seqdev := field 45 32 v, nmem := field 31 24 v, rdep := field 23 20 v, td := field 15 8 v } else s
    match field 61 60 v with
    | 1 => after s 0 (.groupActivate, { a := n })
    | 2 => after s 0 (.groupReform, { a := n })
    | 3 => after s 0 (.groupDeactivate, { a := n })
    | _ => s
  | 1 => if free then modGroup s n fun g => { g with base := field 41 16 v, log2sz := field 5 0 v } else s
  | 2 => if free then modGroup s n fun g => { g with listAddr := field 55 6 v * 64 } else s
  | 3 => if free then modGroup s n fun g => { g with replay := field 55 12 v * 4096 } else s
  | _ => s

/-- Ids of a map register that a word names. -/
def mapIds (i : Nat) (v : Word) : List Nat := ((List.range 64).filter (fun k => v.getLsbD k)).map (· + 64 * i)

/-- A write of the fabric block (R157, R160, R161, R172). -/
def fabricWrite (s : State) (o : Nat) (v : Word) : State :=
  if o = 8 then
    let t := field 31 16 v
    { s with fto := if t = 0 then 40 else Nat.min t 10000, adapt := v.getLsbD 0 }
  else if o = 0x10 then { s with tdbase := v &&& 0x00FFFFFFFFFF0001 }
  else if 0x1000 ≤ o ∧ o < 0x1800 then
    let ids := mapIds ((o - 0x1000) / 8) v
    { s with lostMap := s.lostMap.filter (fun d => !ids.contains d) }
  else if 0x1800 ≤ o ∧ o < 0x2000 then
    let i := (o - 0x1800) / 8
    let clear := mapIds i (~~~v)
    { s with domainClear := clear.foldl setInsert (s.domainClear.filter (fun d => d / 64 != i)) }
  else if 0x2000 ≤ o ∧ o < 0x2080 then
    modPort s (31 + (o - 0x2000) / 8) fun p => { p with
      idle := clamp (field 23 16 v) 1 255, wth := clamp (field 15 8 v) 1 255, pen := v.getLsbD 0 }
  else if 0x4000 ≤ o ∧ o < 0x5000 then groupWrite s ((o - 0x4000) / 64) (o % 64 / 8) v
  else s

/-- A write of the interrupt block (R392). -/
def intWrite (s : State) (m : Bool) (o : Nat) (v : Word) : State :=
  if o = 8 then if m then { s with mtvec := v &&& 0x00FFFFFFFFFFFFF8 } else s
  else if o = 0x10 then { s with extroute := field 11 0 v }
  else if o = 0x18 then { s with extstat := s.extstat &&& ~~~(v.setWidth 6) }
  else if o = 0x20 then { s with extena := v.setWidth 6 }
  else if 0x10000 ≤ o ∧ o < 0x18000 then
    let h := (o - 0x10000) / 8
    let s := modHart s h fun x => { x with timecmp := v.toNat }
    { s with events := insertEvent v.toNat (.timecmpMatch, { a := h }) s.events }
  else if 0x20000 ≤ o ∧ o < 0x28000 then
    modHart s ((o - 0x20000) / 8) fun x => { x with swint := v.getLsbD 0 }
  else s

/-- A write of a slot's block (R393). -/
def slotWrite (s : State) (h : Nat) (m : Bool) (o : Nat) (v : Word) : State :=
  let arch (f : Arch → Arch) : State := modHart s h fun x => { x with arch := f x.arch }
  if o < 0x40 then arch fun a => { a with shadow := setAt a.shadow (o / 8) v }
  else if o < 0x60 then arch fun a => { a with sbank := setAt a.sbank ((o - 0x40) / 8) v }
  else if o = 0x60 then modHart s h fun x => ustatImage x v
  else if !m then s
  else if 0x80 ≤ o ∧ o < 0xA0 then arch fun a => { a with mbank := setAt a.mbank ((o - 0x80) / 8) v }
  else if 0xA0 ≤ o ∧ o < 0xC8 then arch fun a => { a with mrec := setAt a.mrec ((o - 0xA0) / 8) (recordStore ((o - 0xA0) / 8) v) }
  else s

/-- A double word of the control region written, in M mode or not; an offset that no block names ignores it (R411). -/
def ctlWrite (s : State) (m : Bool) (off : Nat) (v : Word) : State :=
  let o := off - 0x3FF00000000
  if o < 0x10000 then mgmtWrite s o v
  else if 0x100000 ≤ o ∧ o < 0x180000 then hbmWrite s ((o - 0x100000) / 0x10000) (o % 0x10000) v
  else if o = 0x180000 then if s.memLock then s else { s with ilv := v.getLsbD 0 }
  else if o = 0x200000 then { s with salvBase := field 55 12 v * 4096, salvSz := field 3 0 v }
  else if o = 0x200008 then { s with salvTail := field 31 0 v }
  else if o = 0x200010 then { s with salvOvf := field 63 32 v, salvEn := v.getLsbD 0 }
  else if 0x300000 ≤ o ∧ o < 0x310000 then fabricWrite s (o - 0x300000) v
  else if 0x400000 ≤ o ∧ o < 0x440000 then intWrite s m (o - 0x400000) v
  else if 0x500000 ≤ o ∧ o < 0x600000 then
    let h := (o - 0x500000) / 256
    if blockOpen s h then slotWrite (spend s 1) h m (o % 256) (Config.freeWord s.freeCtr) else slotWrite s h m (o % 256) v
  else s

end Sys2Proof.Machine
end

