-- ==== Sys2Proof/Machine/Ops.lean ====
section
/-!
DEFINITION. The named operations over memory and registers: reading and writing a line of memory as a member of a
chunk (R97, R98, R109, R112, R118, R127, R135), retiring an instruction and leaving a block (R118, R229-R233),
taking a trap or interrupt and returning from one (R359, R390-R393), and the frames of plain and serialising
instructions (R120, R121, R130, R224, R389).
-/

namespace Sys2Proof.Machine

/-! ## Bytes as a hart sees them (R126, R127) -/

/-- The byte that a chunk has written at an address. -/
def chunkByte (c : Chunk) (pa : Nat) : Option (BitVec 8) :=
  let x := chunkLine c (pa / 128)
  if x.1.getLsbD (pa % 128) then some (lineByte x.2 (pa % 128)) else none

/-- The byte that an uncommitted chunk of a hart has written, the youngest first. -/
def specByte (x : Hart) (pa : Nat) : Option (BitVec 8) := (x.chunk :: x.inflight.reverse).findSome? fun c => chunkByte c pa

/-- The committed byte at an address, at a level of a non-coherent range where one applies. -/
def committedByte (s : State) (lvl : Option Nat) (pa : Nat) : BitVec 8 :=
  match lvl with
  | some k => lineByte (ncData s s.curId k (pa / 128)) (pa % 128)
  | none =>
    if devOf pa = s.dev then readByte s.mem pa
    else lineByte (committedLine s (pa / 128)) (pa % 128)

/-- The byte that the moving hart reads. -/
def byteAt (s : State) (lvl : Option Nat) (pa : Nat) : BitVec 8 := (specByte s.cur pa).getD (committedByte s lvl pa)

/-- The n bytes at an address as the moving hart reads them, little-endian. -/
def valueAt (s : State) (lvl : Option Nat) (pa : Nat) : Nat → Nat
  | 0 => 0
  | n + 1 => (byteAt s lvl pa).toNat + 256 * valueAt s lvl (pa + 1) n

/-! ## Marks and room (R49, R97, R118) -/

def modChunk (s : State) (f : Chunk → Chunk) : State := updHart s fun x => { x with chunk := f x.chunk }

/-- The translation that an access used is kept with the chunk (R41). -/
def noteUsed (s : State) (u : Option (Nat × Nat)) : State :=
  match u with
  | some p => modChunk s fun c => if c.trans.contains p then c else { c with trans := c.trans ++ [p] }
  | none => s

def markRead (s : State) (l : Nat) : State := modChunk s fun c => { c with reads := setInsert c.reads l }
def markWrite (s : State) (l : Nat) : State := modChunk s fun c => { c with writes := setInsert c.writes l }

/-- The lines of a list that the open chunk has not written yet. -/
def newLines (s : State) (ls : List Nat) : List Nat :=
  ls.foldl (fun r l => if s.cur.chunk.writes.contains l || r.contains l then r else r ++ [l]) []

/-- A set of the cluster cache has room for the speculative copies that chunks of the cluster hold there, at most half of
its ways, beside the committed copies of the lines that they have written (R47, R49, R97, R401; assumption log, entry 63). -/
def setHolds (s : State) (l : Nat) : Bool :=
  let cl := clusterOf s.curId
  let ways := 16 - (getCluster s cl).waysRetired.length
  let here (k : Nat) : Bool := l2Set k == l2Set l && cacheSt (getCoh s k) (clKey cl) != .i
  let near (h : Nat) : Bool := clusterOf h == cl
  let spec := specWays s cl l
  let lines := (specLines s near false here ++ specLines s near true here).eraseDups.length
  decide (spec ≤ ways / 2) && decide (spec + lines ≤ ways)

/-- The open chunk with further lines written. -/
def withLines (s : State) (tile : Bool) (ls : List Nat) : State :=
  modChunk s fun c => { c with writes := ls.foldl setInsert c.writes, tlines := if tile then ls.foldl setInsert c.tlines else c.tlines }

/-- Whether an instruction finds room for the lines that it writes (R49, R118, R131). -/
inductive Room
  | free         -- there is room, or the chunk has been pre-admitted
  | after        -- the chunk ends before the instruction
  | wait         -- other chunks of the cluster take the room
  | alone        -- no chunk has room for the instruction: it needs a pre-admission
  deriving DecidableEq, Repr

def roomFor (s : State) (tile : Bool) (ls : List Nat) : Room :=
  let new := newLines s ls
  let wide (s : State) : Bool := decide (512 < s.cur.chunk.writes.length + (newLines s ls).length)
  let fits (s : State) : Bool := let t := withLines s tile ls; (newLines s ls).all (setHolds t)
  if new.isEmpty || preAdmitted s s.curId || (!wide s && fits s) then .free
  else if s.cur.chunk.count ≠ 0 then .after
  else
    let bare := { s with harts := [], cur := { s.cur with inflight := [], chunk := Chunk.fresh s.cur.arch } }
    if wide bare || !fits bare then .alone else .wait

/-- A write of lines as a member of the chunk, once there is room for them. A pre-admission covers one chunk, so it is asked
for when the older ones have committed (R130). -/
def withRoom {α : Type} (s : State) (tile : Bool) (ls : List Nat) (k : State → State × Res α) : State × Res α :=
  match roomFor s tile ls with
  | .free => k s
  | .after => (s, .again)
  | .wait => (s, .wait .commit)
  | .alone => (if s.cur.inflight.isEmpty then askSolo s s.curId else s, .wait .commit)

/-! ## Reaching a line (R97, R98, R108, R109, R112, R135, R155) -/

/-- What an access does with a line: reads bytes, stores (posted on peer lines), writes it whole with zeros (R273), or needs
it alone. -/
inductive Use | read | store | zero | atomic
  deriving DecidableEq, Repr

/-- Who reaches for a line: the hart whose own marks the access does not meet (none for an engine), the number that a
request carries, the cluster, the hint, and the trust domain of the access. -/
structure Agent where
  self : Option Nat
  hart : Nat
  cl : Nat
  hint : Nat
  td : Nat
  deriving DecidableEq, Repr

/-- The moving hart as the agent of an access. -/
def agentCur (s : State) (td : Nat) : Agent := ⟨some s.curId, s.curId, clusterOf s.curId, hintOf s, td⟩

/-- An access meets the marks of other harts' chunks: those that Cornice has not admitted are squashed, for the others it
waits, and for the end of a prefetch of the line (R98, R272). -/
def meet (s : State) (g : Agent) (own : Bool) (l : Nat) (k : State → State) : State × Res Unit :=
  if snoopWaits s g.self own l || prefetching s l then (s, .wait .commit) else (k (snoop s g.self own l), .val ())

/-- What a use asks for. -/
def Use.fill : Use → FillKind | .read => .read | .zero => .zero | _ => .write

/-- A cluster asks for a line, and its agent waits. Where lines that chunks have written take every way of the set, a line to
write finds no room: the hart's chunk ends before the instruction, or it waits for the commit of others; for a pre-admitted
chunk the others are squashed (R47, R49, R97, R130). -/
def fetchLine (s : State) (g : Agent) (u : Use) (l : Nat) : State × Res Unit :=
  let alone := g.self.isSome && preAdmitted s s.curId
  let s := if u != .read && alone && l2Full s g.cl l then
      squashIn s (onCluster g.cl g.self) fun _ c => c.writes.any fun k => l2Set k == l2Set l
    else s
  if u != .read && l2Full s g.cl l then
    if g.self.isSome && !alone && decide (s.cur.chunk.count ≠ 0) then (s, .again) else (s, .wait .commit)
  else (askLine s g.hart g.cl l g.hint g.td u.fill, .wait (.miss (.line l)))

/-- A line is used through a cluster cache. Where two leaves give one frame different ENC bits the data read are
unspecified (R34): the model answers the line as the caches hold it, under the trust domain of the access that brought it
there (assumption log, entry 45). -/
def viaCluster (s : State) (g : Agent) (u : Use) (l : Nat) : State × Res Unit :=
  let own := u != .read
  if clusterHolds s g.cl l g.hint own then meet s g own l fun s => if own then toM s g.cl l else s
  else fetchLine s g u l

/-- The moving hart's use: a line that its chunk has read already, or that a pre-admitted chunk has written, stays with it
(R97, R98, R131). -/
def reachCluster (s : State) (u : Use) (l td : Nat) : State × Res Unit :=
  let c := s.cur.chunk
  if (u == .read && c.reads.contains l) || (u != .read && preAdmitted s s.curId && c.writes.contains l) then (s, .val ())
  else viaCluster s (agentCur s td) u l

/-- HOME_LOST at an address (R112). -/
def homeLost (a : Word) : Res Unit := .trap { code := cLost, tval := a }

/-- The other clusters lose their copies of a peer line that an agent of a cluster is about to post to (R109). -/
def dropOthers (s : State) (cl l : Nat) : State :=
  (List.range 32).foldl (fun s k =>
    if k = cl ∨ agentHolds (getCoh s l) (clKey k) = false then s else agentLoses s l (clKey k)) s

/-- A peer line is brought to where a use can take place; `whole` reaches a line that the module holds whole (R109, R112,
R158, R277). An atomic needs an orphaned copy in E, O or M (R277; assumption log, entry 46). The permission of a posted store
takes effect at once (assumption log, entry 86). -/
def reachPeerBy (s : State) (g : Agent) (whole : State → Use → State × Res Unit) (u : Use) (l : Nat) (mask : LineMask) (a : Word) :
    State × Res Unit :=
  let p := (tabGet none s.peers l).getD { PeerLine.none with st := .i }
  let gone := s.lostMap.contains (lineDev l) || p.orphan
  let all := p.valid == BitVec.allOnes 128
  let owned := p.st == .m || p.st == .e || (p.orphan && p.st == .o)
  match u with
  | .read =>
    if all then whole s u
    else if p.valid &&& mask = mask then meet s g false l id
    else if gone then (s, homeLost a)
    else fetchLine s g u l
  | .store | .zero =>
    if owned then if all then whole s u else meet s g true l id
    else if gone then (s, homeLost a)
    else if p.st == .o then fetchLine s g u l
    else meet s g true l fun s => dropOthers s g.cl l
  | .atomic =>
    if owned then
      if all then whole s u
      else if p.valid &&& mask = mask then meet s g true l id
      else (s, homeLost a)
    else if gone then (s, homeLost a)
    else fetchLine s g u l

def reachPeer (s : State) (u : Use) (l td : Nat) (mask : LineMask) (a : Word) : State × Res Unit :=
  reachPeerBy s (agentCur s td) (fun s u => reachCluster s u l td) u l mask a

/-- The line of a non-coherent range at a level: the hart's copy at the level or the next one, else home memory, which for
a line of another module answers with an uncached read (R46, R135, R155). A store into a level that caches brings the line
there. An atomic whose read waited for a hold is performed whole when its hart moves again (R91; assumption log, entry 74). -/
def reachLevel (s : State) (u : Use) (lvl l td : Nat) (a : Word) : State × Res Unit :=
  let h := s.curId
  let held := (decide (lvl = 0) && (ncCopy s h 0 l).isSome) || (decide (lvl ≤ 1) && (ncCopy s h 1 l).isSome)
  let fill (s : State) : State := if u == .read || decide (1 < lvl) then s else ncFill s h lvl l
  if held then (fill s, .val ())
  else if u == .read && s.cur.got.any (fun x => x.1 == l) then (s, .val ())
  else if lineDev l = s.dev then
    let st := (getCoh s l).dir.st
    if memHeld s l then (if u == .read then awaitStack s l td (hintOf s == 3) (.read h) else s, .wait (.miss (.held l)))
    else (fill (if st == .i || st == .s then readGranule s l td (hintOf s == 3) else s), .val ())
  else if s.lostMap.contains (lineDev l) then (s, homeLost a)
  else if ((u == .store || u == .zero) && decide (1 < lvl)) || s.cur.got.any (fun x => x.1 == l) then (fill s, .val ())
  else if s.reqs.any (fun r => r.msg.line == l && r.msg.code == 0x01 && r.msg.unc && r.harts.contains h) then (s, .wait (.miss (.past l)))
  else (request s { mkMsg s (lineDev l) 0x01 l with td := td, unc := true, lr := hintOf s == 3 } [h], .wait (.miss (.past l)))

/-- A line is brought to where the use can take place (R97, R98). -/
def reach (s : State) (u : Use) (x : Acc) (mask : LineMask) (a : Word) : State × Res Unit :=
  let l := x.pa / 128
  match x.lvl with
  | some k => reachLevel s u k l x.td a
  | none => if lineDev l = s.dev then reachCluster s u l x.td else reachPeer s u l x.td mask a

/-- A line's data are poisoned for the moving hart (R53). -/
def poisoned (s : State) (l : Nat) : Bool :=
  (s.poison.contains l && !(s.cur.chunk :: s.cur.inflight).any fun c => c.cleared.contains l) || s.cur.got.any (fun x => x.1 == l && x.2.2) ||
    (s.cur.chunk :: s.cur.inflight).any fun c => c.ops.contains (.poison l)

/-- Bytes of a peer line that wait for their home count as read from it (R139). -/
def touchPending (s : State) (l : Nat) (mask : LineMask) : State :=
  match tabGet none s.peers l with
  | some p =>
    if (p.pend ||| p.fly) &&& mask = 0 then s
    else modChunk s fun c => { c with ops := c.ops ++ [.touch (lineDev l)] }
  | none => s

/-- The bytes of a line that the moving hart's own chunks hold. -/
def ownMask (s : State) (l : Nat) : LineMask :=
  (s.cur.chunk :: s.cur.inflight).foldl (fun m c => m ||| (chunkLine c l).1) 0

/-- The address of the lowest byte of an access that an orphaned line does not hold (R291). -/
def lowestLost (s : State) (l pa n : Nat) (a : Word) : Word :=
  let valid := ((tabGet none s.peers l).map (·.valid)).getD 0
  a + BitVec.ofNat 64 (((List.range n).find? fun i => !(valid ||| ownMask s l).getLsbD (pa % 128 + i)).getD 0)

/-- Where the line that an access has read stays: an access to a non-coherent range fills the levels that its range
allows, a coherent one the L1 data cache; a tile access fills no L1 cache (R48, R50, R97, R135). -/
def keepRead (s : State) (tile : Bool) (lvl : Option Nat) (l : Nat) : State :=
  let h := s.curId
  match lvl with
  | some k =>
    let k := if tile then Nat.max 1 k else k
    ncWays (ncFill s h k l) h k l (hintOf s)
  | none =>
    let s := markRead s l
    if tile || s.cur.chunk.tlines.contains l || cacheSt (getCoh s l) (clKey (clusterOf h)) == .i then s else useL1d s (coreOf h) l (hintOf s) false

/-- A read of n bytes inside one line as a member of the chunk; of a peer line, the bytes that the hart's own chunks hold
need not be valid (R109). A trap of a vector or tile access names the lowest byte that fails (R291). -/
def readLine (s : State) (k : AccKind) (x : Acc) (n : Nat) (a : Word) : State × Res Nat :=
  let l := x.pa / 128
  let mask := byteMask x.pa n
  match reach s .read x (mask &&& ~~~ownMask s l) a with
  | (s, .trap t) => (s, .trap (if k == .vload || k == .tload then { t with tval := lowestLost s l x.pa n a } else t))
  | (s, .wait c) => (s, .wait c)
  | (s, .again) => (s, .again)
  | (s, .val _) =>
    if poisoned s l then (s, .trap { code := cPoison, tval := a })
    else
      let s := keepRead s (k == .tload) x.lvl l
      (touchPending s l mask, .val (valueAt s x.lvl x.pa n))

/-- n bytes put into the open chunk at an address of one line. -/
def putBytes (c : Chunk) (pa x n : Nat) : Chunk :=
  let old := chunkLine c (pa / 128)
  let m := byteMask pa n
  { c with bytes := tabInsert c.bytes (pa / 128) (old.1 ||| m, maskMerge old.2 (inLine pa x) m) }

/-- The group entry whose window holds a physical address (R166, R167). -/
def windowOf (s : State) (pa : Nat) : Option Nat :=
  if devOf pa ≠ s.dev then none
  else (tabKeys s.groups).find? fun n =>
    let g := getGroup s n
    g.state != 0 && g.log2sz != 0 && decide (g.base * 65536 ≤ offOf pa) && decide (offOf pa < g.base * 65536 + 2 ^ g.log2sz)

/-- n bytes put into a line that has been reached, with the marks of the write. The other L1 caches lose a coherent line,
and the core's own holds its speculative bytes; those of a tile store, of a line that it has written before, and of a store
whose hint allocates nothing in the L1 cache stand in the cluster cache (R48-R50, R97, R118, R135). -/
def putAcc (s : State) (tile : Bool) (x : Acc) (n v : Nat) : State :=
  let l := x.pa / 128
  let core := coreOf s.curId
  let s := modChunk s fun c => putBytes c x.pa v n
  match x.lvl with
  | some k =>
    let k := Nat.max k (((s.cur.chunk.ncs.find? fun y => y.1 == l).map (·.2.1)).getD 0)
    modChunk (ncWays s s.curId k l (hintOf s)) fun c => { c with
      ncs := c.ncs.filter (·.1 != l) ++ [(l, k, hintOf s)], tlines := if tile then setInsert c.tlines l else c.tlines }
  | none =>
    let low := tile || s.cur.chunk.tlines.contains l ||
      (l1Place (hintOf s) == .none && !(l1dWays s core l).any fun w => w.line == l)
    let s := soleL1 (markWrite s l) core l low
    let s := if low then modChunk s fun c => { c with tlines := setInsert c.tlines l } else useL1d s core l (hintOf s) true
    fitL2 s (clusterOf s.curId) l

/-- The access as a tile store makes it: it fills no L1 data cache, so inside a range it acts at the cluster cache or above
(R48, R135; assumption log, entry 65). -/
def Acc.forTile (x : Acc) (tile : Bool) : Acc := if tile then { x with lvl := x.lvl.map (Nat.max 1) } else x

/-- One instruction writes a line whole: its poison goes (R53). -/
def clearLine (s : State) (l : Nat) : State :=
  modChunk s fun c => { c with cleared := setInsert c.cleared l, ops := c.ops.filter (· != .poison l) }

/-- A write of n bytes inside one line as a member of the chunk; a group address is refused (R167). -/
def writeLine (s : State) (tile : Bool) (u : Use) (x : Acc) (n v : Nat) (a : Word) : State × Res Unit :=
  let l := x.pa / 128
  let x := x.forTile tile
  if (windowOf s x.pa).isSome then (s, perm a)
  else match reach s u x (byteMask x.pa n) a with
  | (s, .val _) =>
    withRoom s tile (if x.lvl.isNone then [l] else []) fun s =>
      let s := putAcc s tile x n v
      (if n = 128 then clearLine s l else s, .val ())
  | r => r

/-- One piece of an instruction that writes many: its address and the bytes of its lines that the instruction writes
in all. -/
def checkPiece (s : State) (k : AccKind) (n : Nat) (mask : LineMask) (a : Word) : State × Res Acc :=
  match translate s (whoCur s) ⟨k, n, false, .refused⟩ a with
  | (s, .val x) =>
    let s := noteUsed s x.used
    let x := x.forTile (k == .tstore)
    if (windowOf s x.pa).isSome then (s, perm a)
    else match reach s .store x mask a with
      | (s, .val _) => (s, .val x)
      | (s, .trap t) => (s, .trap t)
      | (s, .wait c) => (s, .wait c)
      | (s, .again) => (s, .again)
  | r => r

/-- The bytes of an address's line that a list of pieces (address, size) covers. -/
def coverOf (l : List (Word × Nat)) (a : Word) : LineMask :=
  l.foldl (fun m p => if p.1.toNat / 128 = a.toNat / 128 then m ||| byteMask p.1.toNat p.2 else m) 0

/-- The pieces of a write checked in order; `all` are the pieces of the whole instruction (R291, R327). -/
def checkPieces (s : State) (k : AccKind) (all : List (Word × Nat)) : List (Word × Nat) → State × Res (List Acc)
  | [] => (s, .val [])
  | (a, n) :: r =>
    match checkPiece s k n (coverOf all a) a with
    | (s, .val x) =>
      match checkPieces s k all r with
      | (s, .val l) => (s, .val (x :: l))
      | e => e
    | (s, .trap t) => (s, .trap t)
    | (s, .wait c) => (s, .wait c)
    | (s, .again) => (s, .again)

/-- The checked pieces written in order, each (place, size, value), unless the chunk has to end first (R49, R118). -/
def writePieces (s : State) (tile : Bool) (l : List (Acc × Nat × Nat)) : State × Res Unit :=
  let lines := l.foldl (fun r p => if p.1.lvl.isNone then setInsert r (p.1.pa / 128) else r) []
  withRoom s tile lines fun s =>
    let s := l.foldl (fun s p => putAcc s tile p.1 p.2.1 p.2.2) s
    let cover (k : Nat) : LineMask := l.foldl (fun m p => if p.1.pa / 128 = k then m ||| byteMask p.1.pa p.2.1 else m) 0
    let all := l.foldl (fun r p => setInsert r (p.1.pa / 128)) []
    (all.foldl (fun s k => if cover k = BitVec.allOnes 128 then clearLine s k else s) s, .val ())

/-! ## Accesses (R266-R269) -/

/-- A read of n bytes at a virtual address. -/
def load (s : State) (r : AccReq) (a : Word) : State × Res Nat :=
  match translate s (whoCur s) r a with
  | (s, .val x) =>
    let s := noteUsed s x.used
    if isControl (offOf x.pa) then
      let (s, v) := ctlLoad s (s.cur.arch.mode == .m) (offOf x.pa)
      (s, .val v.toNat)
    else readLine s r.kind x r.n a
  | (s, .trap t) => (s, .trap t)
  | (s, .wait c) => (s, .wait c)
  | (s, .again) => (s, .again)

/-- A write of n bytes at a virtual address, outside the module control region. -/
def store (s : State) (tile : Bool) (r : AccReq) (a : Word) (v : Nat) : State × Res Unit :=
  match translate s (whoCur s) r a with
  | (s, .val x) => writeLine (noteUsed s x.used) tile .store x r.n v a
  | (s, .trap t) => (s, .trap t)
  | (s, .wait c) => (s, .wait c)
  | (s, .again) => (s, .again)

/-- A scalar request: aligned to its size, a double word may reach the control region (R267, R422). -/
def scalarReq (k : AccKind) (n : Nat) (ctl : Bool) (a : Word) : AccReq :=
  ⟨k, n, decide (a.toNat % n ≠ 0), if ctl && n == 8 then .allowed else .refused⟩

/-- A load as the end of a body. -/
def loadEff (s : State) (ctl : Bool) (n : Nat) (a : Word) (k : State → Nat → Eff) : Eff := thenDo (load s (scalarReq .load n ctl a) a) k

/-- An effect that the body makes after the older members of its chunk have committed (R120). -/
def drained (s : State) (k : State → Eff) : Eff := if isDrained s then k s else .wait .commit (closeChunk s)

/-- A release up to package scope, made after the older members have committed: the hart's non-coherent stores and
write-backs on their way to other homes are awaited (R134). -/
def released (s : State) (k : State → Eff) : Eff :=
  drained s fun s => if s.cur.ncWait.isEmpty then k s else .wait (.miss (.acks false)) s

/-- The hart owes a release non-coherent stores that other homes, or stacks in a hold, have not acknowledged, or that its
chunks hold yet (R92, R134, R135). -/
def owesNc (s : State) : Bool :=
  !s.cur.ncWait.isEmpty || (s.cur.chunk :: s.cur.inflight).any fun c => c.ncs.any fun x =>
    decide (1 < x.2.1) && (lineDev x.1 != s.dev || memHeld s x.1)

/-- A store of a use as the end of a body. A store to the control region is made once, after the older members of its chunk
have committed (assumption log, entry 21). -/
def storeAs (s : State) (u : Use) (ctl : Bool) (n : Nat) (a : Word) (v : Nat) (k : State → Eff) : Eff :=
  match translate s (whoCur s) (scalarReq .store n ctl a) a with
  | (s, .val x) =>
    if isControl (offOf x.pa) then
      drained s fun s => .fin (ctlWrite s (s.cur.arch.mode == .m) (offOf x.pa) (BitVec.ofNat 64 v))
    else thenDo (writeLine (noteUsed s x.used) false u x n v a) fun s _ => k s
  | (s, .trap t) => .trap t s
  | (s, .wait c) => .wait c s
  | (_, .again) => .again

def storeEff (s : State) (ctl : Bool) (n : Nat) (a : Word) (v : Nat) (k : State → Eff) : Eff := storeAs s .store ctl n a v k

/-! ## Retiring (R118, R224, R229-R233, R331, R398) -/

def htrowV (a : Arch) : Bool := a.htrow.getLsbD 7

/-- An instruction retired in U mode pulses the watchdog of its address space (R398). -/
def pulse (s : State) (asid : Nat) : State :=
  if s.dogs.any (fun d => d.2.asid == some asid) then
    { s with dogs := tabMap Dog.reset (fun _ d =>
      if d.asid = some asid then { d with pulseAt := s.mtime, stopped := d.stopped.map fun _ => 0 } else d) s.dogs }
  else s

/-- The pulse of the moving hart's instruction as it retires (R398). -/
def pulseCur (s : State) : State := if s.cur.arch.mode = .u then pulse s s.cur.arch.asid else s

/-- The registers whose group a block does not keep hold a free value after it (R231). -/
def freeDead (ctr : Nat) (gl : BitVec 16) (vl : BitVec 8) (a : Arch) : Arch :=
  { a with
    g := Vector.ofFn fun i : Fin 64 => if gl.getLsbD (i.val / 4) then a.g[i] else Config.freeWord (ctr + i.val)
    v := Vector.ofFn fun i : Fin 32 => if vl.getLsbD (i.val / 4) then a.v[i] else Config.freeVec (ctr + i.val) }

/-- Control leaves a block: its dead registers, and a header must follow (R229, R231, R233). -/
def leaveBlock (s : State) : State :=
  match s.cur.arch.blk with
  | .body _ gl vl =>
    let n := s.freeCtr
    spend (updArch s fun a => { freeDead n gl vl a with blk := .header .any }) 64
  | _ => updArch s fun a => { a with blk := .header .any }

/-- The limit on the members of a chunk (R118). -/
def chunkLimit (a : Arch) : Nat := if a.short then 64 else 256

/-- The pc moves to `next`, control leaves the block where the block ends there or the transfer is taken, htrow.V is
consumed after a return (R331), and the instruction is counted as a member. -/
def advance (s : State) (next : Word) (jumped : Bool) : State :=
  let fell := match s.cur.arch.blk with | .body fin _ _ => next.toNat == fin | _ => false
  let s := if jumped || fell then leaveBlock s else s
  let s := updArch s fun a => { a with
    pc := next, htrow := if a.resume then a.htrow &&& ~~~(0x80 : Word) else a.htrow, resume := false }
  let s := pulseCur s
  updHart s fun x => { x with
    stall := none, walked := [], got := [], sfu := none, begun := false, chunk := { x.chunk with count := x.chunk.count + 1 } }

/-- The open chunk of the moving hart commits at once: nothing older of the hart is in flight, and each line that the
chunk holds has waited for the admitted chunks that meet it (R98, R120, R130, R131). -/
def commitOpen (s : State) : State :=
  let c := s.cur.chunk
  commitChunk (updHart s fun x => { x with chunk := Chunk.fresh x.arch }) s.curId c

/-- The pre-admission of the moving hart has served; in solo mode the hart asks for the next one (R130). -/
def passSolo (s : State) : State :=
  let s := leaveQueue s s.curId
  if s.cur.solo then askSolo s s.curId else s

/-- The moving hart's solo mode has ended, and SQ is clear (R130). -/
def leaveSolo (s : State) : State :=
  leaveQueue (updHart s fun x => { x with solo := false, sq := 0, soloCount := 0, soloLines := [] }) s.curId

/-- A chunk of the moving hart that wrote these lines would find room in the cluster's cache (R49). -/
def linesFit (s : State) (ls : List Nat) : Bool :=
  let bare := { s with harts := [], cur := { s.cur with inflight := [], chunk := { Chunk.fresh s.cur.arch with writes := ls } } }
  decide (ls.length ≤ 512) && ls.all (setHolds bare)

/-- The chunk of one instruction that Cornice has pre-admitted commits at once, or when its engine operation completes; in
solo mode its members and lines count towards the end of the squashed chunk (R118, R130, R131). -/
def settleAlone (c : Ctl) (s : State) : State :=
  let n := s.cur.soloCount + 1
  let ls := s.cur.chunk.writes.foldl setInsert s.cur.soloLines
  let full := c.cb || decide (chunkLimit s.cur.arch ≤ n) || !linesFit s ls
  if working s s.curId s.cur.chunk then
    closeChunk (updHart s fun x => { x with solo := x.solo && !full, soloCount := n, soloLines := ls })
  else
    let s := commitOpen s
    if s.cur.solo && full then leaveSolo s else passSolo (updHart s fun x => { x with soloCount := n, soloLines := ls })

/-- After an instruction: the chunk ends at its limit or at CB = 1 (R118). -/
def settle (c : Ctl) (s : State) : State :=
  if preAdmitted s s.curId then settleAlone c s
  else if c.cb || decide (chunkLimit s.cur.arch ≤ s.cur.chunk.count) then closeChunk s
  else s

/-- An instruction retires and the next word follows. -/
def retire (c : Ctl) (s : State) : State := settle c (advance s (s.cur.arch.pc + 8) false)

/-- A taken transfer retires. -/
def retireTo (c : Ctl) (target : Word) (s : State) : State := settle c (advance s target true)

/-- Homes whose pending bytes a member has read count as touched, also when its chunk is no other member's (R139). -/
def touchAll (s : State) : State :=
  s.cur.chunk.ops.foldl (fun s o => match o with | .touch d => updHart s fun x => touchDev x d | _ => s) s

/-- A serialising instruction has retired after its chunk committed: the next instruction opens a chunk (R120). -/
def freshChunk (s : State) : State := updHart (leaveSolo (touchAll s)) fun x => { x with chunk := Chunk.fresh x.arch }

/-! ## Traps and returns (R389-R393) -/

/-- The rank of a mode. -/
def Mode.rank : Mode → Nat | .u => 0 | .s => 1 | .m => 2
/-- The code of a mode in hstat.PM (R387). -/
def Mode.code : Mode → Nat | .u => 0 | .s => 1 | .m => 3
def Mode.ofCode (n : Nat) : Mode := if n = 0 then .u else if n = 1 then .s else .m

/-- The mode that receives a cause (R385, R392). -/
def receiver (r : TrapRec) (now : Mode) : Mode :=
  if r.int then if r.code = cMcheck ∧ field 63 60 r.tval = 3 then .m else .s
  else if now = .m ∨ (r.code = cEcall ∧ now = .s) then .m
  else .s

/-- Bits of hstat after delivery: PM, PIE, IE (R390). -/
def hstatDeliver (h : Word) (now : Mode) : Word :=
  let y := h &&& ~~~(0x1B : Word)
  y ||| BitVec.ofNat 64 (now.code + (if h.getLsbD 3 then 16 else 0))

/-- The requests of a hart to its cluster's special-function unit are cancelled: the instruction that made one issues it
again when the hart resumes (R75). -/
def cancelSfu (s : State) (h : Nat) : State :=
  modHart (modCluster s (clusterOf h) fun c => { c with
    sfuQ := c.sfuQ.filter (· != h), sfuOut := c.sfuOut.filter fun r => r.1 != h }) h fun x => { x with sfu := none }

/-- A trap or interrupt delivered to the moving hart after its chunk has been truncated (R390). It clears SQ and SOLO, whether
or not a member of the chunk has committed (R130; assumption log, entry 80). -/
def deliver (s0 : State) (r : TrapRec) : State :=
  let s := leaveSolo s0
  let now := s.cur.arch.mode
  let x := receiver r now
  let old := hstatOf s s.curId
  let vec := if x = .m then s.mtvec else BitVec.ofNat 64 (field 56 12 s.cur.arch.hstat * 4096)
  let s := updArch s fun a =>
    let a := if x = .m then { a with mrec := #v[old, a.hcause, a.hepc, a.htval, a.htrow] } else a
    let a := { a with
      hepc := r.epc, hcause := BitVec.ofNat 64 (r.code + (if r.int then 2 ^ 63 else 0)), htval := r.tval, htrow := r.row
      hstat := hstatDeliver a.hstat now, resume := false }
    let a :=
      if now.rank < x.rank then
        if x = .m then let p := withBank a a.mbank; { p.1 with mbank := p.2 }
        else let p := withBank a a.sbank; { p.1 with sbank := p.2 }
      else a
    { a with mode := x, pc := vec, blk := .header (if x = .m then .mHandler else .sHandler) }
  let id := s.curId
  let s := { s with invs := s.invs.map fun i => if i.hart = id then { i with hart := noHart } else i }
  let s := cancelSfu s id
  updHart s fun h => { h with
    stall := none, leave := none, due := none, walked := [], got := [], begun := false, wdp := if r.int && r.code == cWatchdog then none else h.wdp, mck := if r.int && r.code == cMcheck && field 63 60 r.tval != 3 then h.mck.drop 1 else h.mck
    chunk := Chunk.fresh h.arch }

/-- Something is delivered to the moving hart once everything of its truncated chunk has committed; until then the hart
waits with its last chunk presented (R121, R390). -/
def afterChunk (s : State) (wait deliver : State → State) : State :=
  if preAdmitted s s.curId && !working s s.curId s.cur.chunk && s.cur.inflight.isEmpty then deliver (commitOpen s)
  else if isDrained s then deliver s
  else wait (closeChunk s)

/-- A trap of an instruction: the members before it, with what a restartable instruction has done, form a chunk that
commits first; until then the trap is due (R121, R331, R390). -/
def raiseAt (s : State) (epc : Word) (t : Trap) : State :=
  let r : TrapRec := ⟨t.code, false, epc, t.tval, t.row⟩
  afterChunk s (fun s => updHart s fun x => { x with due := some r, stall := some .commit, stallAt := s.cycle }) fun s => deliver s r

/-- SRET and MRET after their checks (R391). -/
def trapReturn (s : State) (m : Bool) : State :=
  updArch s fun a =>
    let target := a.hepc
    let n := Mode.ofCode (field 1 0 a.hstat)
    let h := a.hstat &&& ~~~(0x18 : Word) ||| (if a.hstat.getLsbD 4 then 8 else 0) ||| 16
    let a := { a with hstat := h }
    let a :=
      if n.rank < a.mode.rank then
        if a.mode = .m then let p := withBank a a.mbank; { p.1 with mbank := p.2 }
        else let p := withBank a a.sbank; { p.1 with sbank := p.2 }
      else a
    let a := if m then { a with
        hstat := hstatStore a.mrec[0], hcause := a.mrec[1], hepc := a.mrec[2], htval := a.mrec[3], htrow := a.mrec[4] } else a
    { a with mode := n, pc := target, blk := .resumed, resume := true }

/-- Delivery of a user-level interrupt after the chunk has been truncated (R359). -/
def deliverUser (s0 : State) : State :=
  let s := updArch (leaveSolo s0) fun a => { swapNamed a with uepc := a.pc &&& maskWord, inh := true, pc := a.uvec, blk := .header .entry }
  let s := cancelSfu s s.curId
  updHart s fun x => { x with uip := false, stall := none, leave := none, due := none, walked := [], got := [], begun := false, chunk := Chunk.fresh x.arch }

/-- UIRET (R360). -/
def userReturn (s : State) : State := updArch s fun a => { swapNamed a with inh := false, pc := a.uepc, blk := .resumed }

/-! ## The frames of instructions (R120, R121, R130, R224, R389) -/

abbrev Out := Host.Outcome State Fault Refusal

/-- The first member of a chunk starts from the hart's state as it stands (R126). -/
def openChunk (s : State) : State :=
  if s.cur.chunk.isEmpty then updHart s fun x => { x with chunk := Chunk.fresh x.arch } else s

/-- A stall in which the instruction has begun its chunk: its pre-admission stands (R130). A wait for other harts or for
the copy engine holds no chunk. -/
def Stall.inChunk : Stall → Bool
  | .miss _ | .commit | .sfu => true
  | .counter .. | .barrier .. | .fifoFree | .fifoRecord | .irq | .inv | .exit => false

/-- The slot switcher counts the stall (R370). -/
def Stall.counts : Stall → Bool
  | .counter .. | .barrier .. | .fifoFree | .fifoRecord | .miss _ | .irq => true
  | .sfu | .commit | .inv | .exit => false

/-- The moving hart stalls; a stall that the slot switcher counts counts from its first moment (R370). -/
def stallOn (c : Stall) (s : State) : State :=
  let s := updHart s fun x => { x with stall := some c, stallAt := if c.counts && x.stall.any Stall.counts then x.stallAt else s.cycle }
  if c.inChunk then s else leaveQueue s s.curId

/-- The chunk ends before the instruction, which starts the next one (R49, R118). -/
def endBefore (s : State) : State := closeChunk s

/-- The chunk keeps how it stood before a member that has handed operations to the engines (R121, R371). -/
def noteCuts (s0 s : State) : State :=
  let ops := s.cur.chunk.engineOps.drop s0.cur.chunk.engineOps.length
  modChunk s fun c => { c with cuts := c.cuts ++ ops.map s0.cur.cut }

/-- The body of an instruction that hands an operation to an engine; `s0` is the state before it. -/
def inEngine (s0 : State) (e : Eff) : Eff :=
  match e with
  | .ok s => .ok (noteCuts s0 s)
  | e => e

/-- What the end of a body means for the hart: `s0` is the state before the body. An effect that has begun a write-back is
followed by the next instruction once its home has acknowledged that (R277). -/
def finish (c : Ctl) (s0 : State) (e : Eff) : State :=
  match e with
  | .ok s => retire c s
  | .fin s =>
    let t := freshChunk (advance s (s.cur.arch.pc + 8) false)
    if s.cur.begun && !t.cur.ncWait.isEmpty then stallOn (.miss (.acks false)) t else t
  | .trap t s => raiseAt s s0.cur.arch.pc t
  | .wait w s => stallOn w s
  | .again => endBefore s0

/-- A decode fault is taken whatever the guard gives (R224). -/
def decodeFault (t : Option Trap) (s : State) (k : State → Out) : Out :=
  match t with
  | some t => .next (raiseAt s s.cur.arch.pc t)
  | none => k s

/-- An instruction that is an ordinary member of its chunk. -/
def plain (c : Ctl) (s : State) (body : State → Eff) : Out :=
  let s := openChunk s
  .next (if guardOf s.cur.arch c then finish c s (body s) else retire c s)

/-- A serialising instruction: its chunk commits, then it takes effect, which ends as `done` says (R120). A
predicated-off one only ends its chunk (R224). -/
def serialThen (done : State → State) (c : Ctl) (s : State) (body : State → Eff) : Out :=
  let s := openChunk s
  .next (if guardOf s.cur.arch c then
      if isDrained s then
        match body s with
        | .ok s2 => done s2
        | e => finish c s e
      else stallOn .commit (closeChunk s)
    else
      let s := advance s (s.cur.arch.pc + 8) false
      if preAdmitted s s.curId then leaveSolo (commitOpen s) else closeChunk s)

/-- The serialising instruction has taken effect and the next word follows. -/
def retireSerial (s : State) : State := freshChunk (advance s (s.cur.arch.pc + 8) false)

/-- A serialising instruction that the next word follows. -/
def serial (c : Ctl) (s : State) (body : State → Eff) : Out := serialThen retireSerial c s body

/-- A change of memory that a body makes after its chunk has committed commits at once (R120). -/
def commitNow (e : Eff) : Eff :=
  match e with
  | .ok s => .ok (commitOpen s)
  | .fin s => .ok s
  | e => e

/-- The word of the instruction, which ILLEGAL, PRIV and the checks of R350-R366 report. -/
def wordTrap (code : Nat) (s : State) : Trap := { code := code, tval := s.cur.arch.iw }

/-- PRIV below a mode (R199, R361, R363). -/
def privFault (lowest : Mode) (s : State) : Option Trap :=
  if s.cur.arch.mode.rank < lowest.rank then some (wordTrap cPriv s) else none

/-- A system instruction of a lowest mode. -/
def systemThen (done : State → State) (lowest : Mode) (c : Ctl) (s : State) (body : State → Eff) : Out :=
  decodeFault (privFault lowest s) s fun s => serialThen done c s body
def system (lowest : Mode) (c : Ctl) (s : State) (body : State → Eff) : Out := systemThen retireSerial lowest c s body

/-- The features of a core (R201). -/
def featmask (s : State) (core : Nat) : Word :=
  if (getCore s core).retired then 0 else if Config.coreHasVF64 core then 1 else 0

/-- FEATURE for a vector instruction of type f64 on a core without it (R180, R202). -/
def featureFault (f64 : Bool) (s : State) : Option Trap :=
  if f64 && !(featmask s (coreOf s.curId)).getLsbD 0 then some { code := cFeature, tval := 1 } else none

/-- An ordinary vector instruction; `f64` where it works on f64 lanes. -/
def vector (f64 : Bool) (c : Ctl) (s : State) (body : State → Eff) : Out :=
  decodeFault (featureFault f64 s) s fun s => plain c s body

end Sys2Proof.Machine
end

