-- ==== Sys2Proof/Machine/Slots.lean ====
section
/-!
DEFINITION. Slots: interrupts pending for a hart (R388, R389), the stalls and their ends (R370), parking and bringing
in (R371-R373), the state of a created hart (R200, R204, R393), and the choice of a slot (R374).
-/

namespace Sys2Proof.Machine

/-! ## Interrupts (R388, R389) -/

/-- The interrupt that a hart would take at a boundary: the highest enabled one (R388, R389). -/
def interruptFor (s : State) (h : Nat) : Option TrapRec :=
  let x := getHart s h
  let a := x.arch
  let irq (code : Nat) (tval : Word) : Option TrapRec := some ⟨code, true, a.pc, tval, 0⟩
  if a.mode = .m then none
  else
    let check (k : Nat) : Word := w64 (k * 2 ^ 60 + if k = 1 then x.mckOld else h)
    if !x.mck.isEmpty then irq cMcheck (check (x.mck.headD 0))
    else if a.mode = .s ∧ !a.hstat.getLsbD 3 then none
    else if x.wdp.isSome then irq cWatchdog (w64 (x.wdp.getD 0))
    else if eipOf s h && a.hstat.getLsbD 7 then irq cExtern (w64 (s.extstat.toNat + s.extena.toNat * 2 ^ 32))
    else if tipOf s h && a.hstat.getLsbD 6 then irq cTimer 0
    else if sipOf s h && a.hstat.getLsbD 5 then irq cSoft 0
    else none

/-- A user-level interrupt is deliverable (R359). -/
def userIrq (x : Hart) : Bool := x.uip && x.arch.uie && !x.arch.inh && x.arch.mode == .u

/-- An interrupt is enabled for a hart (R359, R370, R388). -/
def interrupted (s : State) (h : Nat) : Bool := (interruptFor s h).isSome || userIrq (getHart s h)

/-- An interrupt is pending for a hart, enabled or not: a user-level one too (R359, R363, R385). -/
def pendingIrq (s : State) (h : Nat) : Bool :=
  let x := getHart s h
  !x.mck.isEmpty || x.wdp.isSome || eipOf s h || tipOf s h || sipOf s h || x.uip

/-! ## Stalls (R65, R354, R356, R370) -/

/-- Entries of a hart's FIFOs: commands not complete, records, free entries (R65). -/
def infl (x : Hart) : Nat := x.fifo.cmds.length
def doneRecs (x : Hart) : Nat := x.fifo.recs.length
def freeEntries (x : Hart) : Nat := 16 - infl x - doneRecs x

/-- The counters of a WAITC stand at or below their limits; 63 names no limit (R354). -/
def countersOk (x : Hart) (lim : List Nat) : Bool :=
  (List.zip lim [infl x, x.tileCnt, x.postedCnt, x.mcastCnt]).all fun p => p.1 == 63 || decide (p.2 ≤ p.1)

def getBar (s : State) (cl b : Nat) : Barrier := tabGet Barrier.reset (getCluster s cl).bars b
def setBar (s : State) (cl b : Nat) (x : Barrier) : State :=
  modCluster s cl fun c => { c with bars := tabPut Barrier.reset c.bars b x }

/-- Lines whose bytes still wait behind an update under way. -/
def stillLate (s : State) (ls : List Nat) : List Nat :=
  ls.filter fun l => match tabGet none s.peers l with | some p => p.pend != 0 && !p.orphan | none => false

/-- The counter word of a WAITC may read zero: it is zero where the hart's load would find it in the module, or the load has
to be repeated to know (R213). -/
def counterMayBeZero (s : State) (h pa : Nat) (lvl : Option Nat) : Bool :=
  let l := pa / 128
  let zero (d : LineData) : Bool := d.toNat >>> (8 * (pa % 128)) % 2 ^ 64 == 0
  match lvl with
  | none =>
    if lineDev l = s.dev then (getCoh s l).dir.rown || zero (lineData s.mem l)
    else match tabGet none s.peers l with
      | some p => p.valid &&& byteMask pa 8 != byteMask pa 8 || zero p.data
      | none => true
  | some k =>
    if lineDev l = s.dev || (ncCopy s h k l).isSome || (decide (k ≤ 1) && (ncCopy s h 1 l).isSome) then zero (ncData s h k l)
    else match (getHart s h).got.find? (fun x => x.1 == l) with
      | some x => zero x.2.1 || x.2.2
      | none => (getHart s h).slot == .issuing || s.lostMap.contains (lineDev l)

/-- A read of another home past the caches is under way for a hart (R155). -/
def readsPast (s : State) (h l : Nat) : Bool :=
  s.reqs.any fun r => r.msg.line == l && r.msg.code == 0x01 && r.msg.unc && r.harts.contains h

/-- A WAITC reads its word past the caches from another home, which tells nobody of a write (R155, R213). -/
def polls (s : State) (h : Nat) (c : Stall) : Bool :=
  match c with
  | .counter _ (some (pa, some k)) => lineDev (pa / 128) != s.dev && (ncCopy s h k (pa / 128)).isNone
  | _ => false

/-- A walk is under way for a hart, or waits for a walker (R39). -/
def walksFor (s : State) (h : Nat) : Bool := (getCluster s (clusterOf h)).walks.any fun q => q.forHarts.contains h

/-- What a hart waits for in a long miss has come (R39, R92, R97, R135, R140, R155, R280, R285, R370). -/
def awaitOver (s : State) (h : Nat) (c : Await) : Bool :=
  let x := getHart s h
  match c with
  | .line l => !(getCoh s l).fills.any fun f => f.cl == clusterOf h && f.harts.any fun k => k.1 == h || k.1 == noHart
  | .held l => !memHeld s l
  | .walk => !walksFor s h
  | .past l => !readsPast s h l
  | .echo => match x.drain with | some d => if d.sent then d.probes.isEmpty else (stillLate s d.late).isEmpty | none => true
  | .acks salvage => x.ncWait.isEmpty && (!salvage || s.salvAcks.isEmpty)
  | .mamo => match x.mamo with | some (_, none) => false | _ => true

/-- The wait of a stalled hart has ended (R370). -/
def stallOver (s : State) (h : Nat) (c : Stall) : Bool :=
  let x := getHart s h
  match c with
  | .counter lim ctr => countersOk x lim && (match ctr with | some (pa, lvl) => counterMayBeZero s h pa lvl | none => true)
  | .barrier b tok => (getBar s (clusterOf h) b).gen != tok
  | .fifoFree => decide (0 < freeEntries x) || infl x == 0
  | .fifoRecord => decide (0 < doneRecs x) || infl x == 0
  | .miss a => awaitOver s h a
  | .irq => pendingIrq s h
  | .sfu => x.sfu == some true
  | .commit => true
  | .inv => !s.invs.any fun i => i.hart == h && !i.done
  | .exit => countersOk x [0, 0, 63, 0]

/-! ## Creating and removing harts (R59, R200, R204, R212, R363, R393) -/

/-- A request for a walk without a hart, or without its command too; none where nobody waits for it any more (R39). -/
def WalkReq.without (q : WalkReq) (h : Nat) (cmds : Bool) : Option WalkReq :=
  match q.forHarts.filter (· != h), q.forCmds.filter fun k => !(cmds && k == h) with
  | k :: r, c => some { q with hart := k, cmd := false, joined := r, cmds := c }
  | [], k :: r => some { q with hart := k, cmd := true, joined := [], cmds := r }
  | [], [] => none

/-- What still names a hart that leaves its slot names it no longer: transfers, walks, lines on their way, posted bytes,
multicast operations, invalidations and watchdogs (R41, R61, R109, R144, R398). The commands of the slot's FIFO go on, and
what they have begun keeps its number (R70, R363). -/
def forget (s0 : State) (h : Nat) : State :=
  let s := cancelSfu (leaveQueue s0 h) h
  let gone (k : Nat) : Nat := if k = h then noHart else k
  { s with
    clusters := tabMap Cluster.reset (fun _ c => { c with
      transfers := c.transfers.map fun t => if t.cmd then t else { t with hart := gone t.hart }
      renames := c.renames.filter fun r => r.1 != h
      walks := c.walks.filterMap fun w => w.without h false })
      s.clusters
    coh := tabMap LineCoh.reset (fun _ c => { c with fills := c.fills.map fun f => { f with harts := f.harts.filter fun x => x.1 != h } }) s.coh
    reqs := s.reqs.map fun r => { r with harts := r.harts.filter (· != h) }
    peers := tabMap none (fun _ p => p.map fun l => { l with
      pendHarts := l.pendHarts.filter (· != h), flyHarts := l.flyHarts.filter (· != h) }) s.peers
    groups := tabMap Group.reset (fun _ g => { g with held := g.held.map fun o => if o.kind = 3 then o else { o with hart := gone o.hart } }) s.groups
    invs := s.invs.map fun i => { i with hart := gone i.hart }
    dogs := tabMap Dog.reset (fun _ d => if d.hart = some h then { d with hart := none } else d) s.dogs }

/-- A slot becomes Free; its block, timer and FIFOs stay with it (R73, R363, R393). -/
def vacate (s0 : State) (h : Nat) (fifo : Bool) : State :=
  let s := forget s0 h
  let x := getHart s h
  let s := if fifo then s else { s with
    invs := s.invs.map fun i => { i with cmds := i.cmds.map fun k => if k.1 = h then (h, 0) else k } }
  setHart s h { Hart.reset with
    arch := { Arch.reset with
      sbank := x.arch.sbank, mbank := x.arch.mbank, mrec := x.arch.mrec, shadow := x.arch.shadow
      uie := x.arch.uie, inh := x.arch.inh }
    uip := x.uip, timecmp := x.timecmp, swint := x.swint
    fifo := if fifo then x.fifo else ⟨[], []⟩ }

/-- The registers of a hart created by one with state `p`; it starts at the entry point, whose header it must enter
(R200, R203, R204, R217). -/
def childArch (p : Arch) (entry : Word) : Arch :=
  { Arch.reset with
    pc := entry &&& ~~~(7 : Word), blk := .header (if entry.toNat % 8 = 0 then .entry else .badEntry (entry.toNat % 8)), mode := p.mode, fcsr := p.fcsr &&& 0xF3E0, vcsr := p.vcsr &&& 1, hreq := p.hreq
    asid := p.asid, ptroot := p.ptroot, ncbase := p.ncbase, nclim := p.nclim, ncattr := p.ncattr
    uvec := p.uvec, short := p.short }

/-- A hart placed in a Free slot becomes Ready (R197, R377, R393). -/
def placeHart (s : State) (h : Nat) (a : Arch) (prio : Nat) (cc : Word) : State :=
  let x := getHart s h
  let a := { a with sbank := x.arch.sbank, mbank := x.arch.mbank, mrec := x.arch.mrec }
  setHart s h { Hart.reset with
    arch := a, slot := .ready, prio := prio, cc := cc, chunk := Chunk.fresh a, readyAt := s.cycle
    fifo := x.fifo, timecmp := x.timecmp, swint := x.swint }

/-! ## The choice of a slot (R206, R374, R415) -/

/-- A core can hold a hart that requires features (R202, R401). -/
def coreCovers (s : State) (hreq : Word) (core : Nat) : Bool := (hreq == 0 || hreq &&& ~~~(featmask s core) == 0) && !(getCore s core).retired
/-- Slots of dies 1-3 are never Free in stage 1 (R415). -/
def slotFree (s : State) (h : Nat) : Bool := (getHart s h).slot == .free && !(s.stage == 1 && decide (1024 ≤ h))

def freeInCore (s : State) (hreq : Word) (core : Nat) : List Nat :=
  if coreCovers s hreq core then ((List.range 8).map (· + 8 * core)).filter (slotFree s) else []
def freeInCluster (s : State) (hreq : Word) (cl : Nat) : Nat :=
  ((List.range 16).map fun i => (freeInCore s hreq (16 * cl + i)).length).sum
def freeInDie (s : State) (hreq : Word) (d : Nat) : Nat :=
  ((List.range 8).map fun i => freeInCluster s hreq (8 * d + i)).sum

/-- The member of a list with the largest count; ties go to a preferred one, then to the first. None where every
count is zero. -/
def pickMost (l : List Nat) (count : Nat → Nat) (pref : Nat) : Option Nat :=
  let best := (l.map count).foldl Nat.max 0
  if best = 0 then none
  else if l.contains pref ∧ count pref = best then some pref
  else l.find? fun x => count x == best

/-- The slot that a placement chooses from the place of a core (R374). -/
def pickSlot (s : State) (hreq : Word) (core : Nat) : Nat → Option Nat
  | 0 => (freeInCore s hreq core).head?
  | 1 => inCluster (core / 16)
  | 2 => inDie (core / 128)
  | _ => (pickMost (List.range 4) (freeInDie s hreq) (core / 128)).bind inDie
where
  inCluster (cl : Nat) : Option Nat :=
    (pickMost ((List.range 16).map (· + 16 * cl)) (fun c => (freeInCore s hreq c).length) core).bind
      fun c => (freeInCore s hreq c).head?
  inDie (d : Nat) : Option Nat :=
    (pickMost ((List.range 8).map (· + 8 * d)) (freeInCluster s hreq) (core / 16)).bind inCluster

/-! ## Gangs (R207-R209, R375) -/

def ruleAxis (r : Word) : Nat := field 47 46 r
/-- Elements that each member covers: granules per member, times the granule (R208). -/
def ruleSpan (r : Word) (e : Nat) : Nat :=
  let g := 2 ^ field 44 40 r
  (((field 39 0 r + g - 1) / g) + e - 1) / e * g

/-- Members along a dimension of extent e: in the partitioned one those whose first element lies inside the tensor (R208). -/
def membersAlong (r : Word) (axis e : Nat) : Nat :=
  if ruleAxis r ≠ axis ∨ e = 0 then e
  else
    let w := ruleSpan r e
    if w = 0 then 0 else Nat.min e ((field 39 0 r + w - 1) / w)

/-- The number of members that a gang creates (R208). -/
def gangSize (r : Word) (ext : Vector Nat 3) : Nat :=
  membersAlong r 0 ext[0] * membersAlong r 1 ext[1] * membersAlong r 2 ext[2]

/-- Member k of those created, in ascending linear index: its place in each dimension (R208, R209). -/
def memberAt (r : Word) (ext : Vector Nat 3) (k : Nat) : Vector Nat 3 :=
  let a := membersAlong r 0 ext[0]
  let b := membersAlong r 1 ext[1]
  #v[k % a, k / a % b, k / (a * b)]

/-- The sub-range of a member: first element and length (R208). -/
def memberPart (r : Word) (ext at_ : Vector Nat 3) : Nat × Nat :=
  match ruleAxis r with
  | 3 => (0, 0)
  | x =>
    let m := if x = 0 then at_[0] else if x = 1 then at_[1] else at_[2]
    let e := if x = 0 then ext[0] else if x = 1 then ext[1] else ext[2]
    let w := ruleSpan r e
    (m * w, Nat.min w (field 39 0 r - m * w))

/-- The next member of a gang as a hart's state (R204, R207). -/
def memberArch (g : Gang) : Arch :=
  let at_ := memberAt g.rule g.ext g.next
  let p := memberPart g.rule g.ext at_
  { g.tmpl with gid := at_, gext := g.ext, partLo := p.1, partLen := p.2 }

/-- The slot for the next member of a gang (R375). -/
def gangSlot (s : State) (g : Gang) : Option Nat := pickSlot s g.tmpl.hreq (coreOf g.creator) g.place

/-- The generator of a die that places a member next: of those that can, the one whose gang was accepted first (R377). -/
def gangChoice (s : State) (d : Nat) : Option Nat :=
  ((getDie s d).gens.foldl (fun b e => match e.2 with
    | some g => if (gangSlot s g).isNone then b
      else match b with
        | some (_, t) => if g.since < t then some (e.1, g.since) else b
        | none => some (e.1, g.since)
    | none => b) none).map (·.1)

/-! ## The ready pool (R376) -/

/-- The effective level of a ready node. -/
def nodeLevel (s : State) (n : Node) : Nat := Nat.min 7 (n.prio + (s.cycle - n.readyAt) / 50000)

/-- The slot for a ready node now: in its affinity cluster, after 2,000 cycles or without affinity in its die. -/
def nodeSlot (s : State) (d : Nat) (n : Node) : Option Nat :=
  match n.aff with
  | some cl =>
    (pickSlot s n.hreq (16 * cl) 1) <|> (if n.readyAt + 2000 ≤ s.cycle then pickSlot s n.hreq (128 * d) 2 else none)
  | none => pickSlot s n.hreq (128 * d) 2

/-- The node of a die's pool that is placed next, by its place in the pool, and its slot. -/
def nodeChoice (s : State) (d : Nat) : Option (Nat × Nat) :=
  let ready := (getDie s d).pool.mapIdx fun i n => (i, n)
  [7, 6, 5, 4, 3, 2, 1, 0].findSome? fun lv =>
    ready.findSome? fun e =>
      if e.2.start.isNone ∧ nodeLevel s e.2 = lv then (nodeSlot s d e.2).map fun h => (e.1, h) else none

/-- The cores that a placement considers (R206). -/
def coresFor (core : Nat) : Nat → List Nat
  | 0 => [core]
  | 1 => (List.range 16).map (· + 16 * (core / 16))
  | 2 => (List.range 128).map (· + 128 * (core / 128))
  | _ => List.range 512

/-- Some core that a placement considers covers the features (R206, R209). -/
def coveredIn (s : State) (hreq : Word) (core place : Nat) : Bool := (coresFor core place).any (coreCovers s hreq)

/-- A ready node that no core of its die can hold and that has not been reported (R376). -/
def stuckNode (s : State) (d : Nat) (n : Node) : Bool := n.start.isNone && !n.logged && !coveredIn s n.hreq (128 * d) 2

/-! ## Contexts that a command moves (R72) -/

/-- A SAVE or RESTORE of a hart that is not complete. -/
def contextOf (c : FifoCmd) (target : Nat) : Bool :=
  let op := field 7 0 c.cmd.d0
  (op == 0x0A || op == 0x0B) && field 11 0 c.cmd.d2 == target && c.fin.isNone

/-- A hart whose own context a command of it moves waits (R72; assumption log, entry 31). -/
def contextBusy (x : Hart) (h : Nat) : Bool := x.fifo.cmds.any fun c => contextOf c h

/-- A parked hart whose context a command moves is not brought in (R72). -/
def contextHeld (s : State) (h : Nat) : Bool :=
  (hartIds s).any fun k => match (getHart s k).fifo.cmds with | c :: _ => c.prog != 0 && contextOf c h | [] => false

/-! ## Parking and bringing in (R371-R373) -/

/-- Harts of a core in a slot state. -/
def inState (s : State) (core : Nat) (st : Slot) : List Nat :=
  (hartIds s).filter fun h => coreOf h == core && (getHart s h).slot == st

/-- What a hart that is Ready again keeps of its wait: a WFI has parked it, and a BARW that waits is released by any change
of the generation (R356, R363). -/
def keptStall (c : Option Stall) : Option Stall :=
  match c with
  | some .irq | some (.barrier _ _) => c
  | _ => none

/-- The moving hart is parked once everything of its truncated chunk has committed; engine operations that have begun
complete first, members whose operation has not begun are squashed (R121, R371, R394). Its request to the special-function
unit is cancelled (R75). -/
def parkCur (s : State) (ready : Bool) : State :=
  afterChunk (cutBack s) (fun s => updHart s fun x => { x with leave := some ready }) fun s =>
    let ended := match s.cur.stall with | some c => stallOver s s.curId c && !polls s s.curId c | none => true
    let s := updHart s fun x => { x with
      slot := if ready || ended then .ready else .waiting
      leave := none, walked := [], got := [], begun := false
      readyAt := if ready || ended then s.cycle else x.readyAt
      stall := if ready || ended then keptStall x.stall else x.stall
      chunk := Chunk.fresh x.arch }
    cancelSfu (leaveQueue s s.curId) s.curId

/-- A hart that leaves its issue position can leave it now: nothing of it is uncommitted. -/
def canLeave (s : State) (h : Nat) : Bool :=
  let x := getHart s h
  x.slot == .issuing && x.leave.isSome && x.inflight.isEmpty

/-- The oldest Ready hart of a core; on equal times the lower slot (R372). -/
def oldestReady (s : State) (core : Nat) : Option Nat :=
  if (getCore s core).retired then none
  else ((inState s core .ready).filter fun h => !contextHeld s h).foldl (fun b h => match b with
    | none => some h
    | some k => if (getHart s h).readyAt < (getHart s k).readyAt then some h else some k) none

/-- A free issue position brings in the oldest Ready hart; the switch takes 40 cycles (R372). -/
def bringInCore (s : State) (core : Nat) : State :=
  if 2 ≤ (inState s core .issuing).length then s
  else match oldestReady s core with
    | none => s
    | some h =>
      let s := modHart s h fun x => { x with slot := .issuing, issuedAt := s.cycle + 40, stallAt := s.cycle + 40 }
      modCore s core fun c => { c with switchUntil := s.cycle + 40 }

/-- The Issuing hart of a core that a pre-emption would park (R373). -/
def victimOf (s : State) (core : Nat) : Option Nat :=
  ((inState s core .issuing).filter fun h => decide ((getHart s h).issuedAt + 2000 ≤ s.cycle)).foldl (fun b h => match b with
    | none => some h
    | some k => if (getHart s h).issuedAt < (getHart s k).issuedAt then some h else some k) none

end Sys2Proof.Machine
end

