-- ==== Sys2Proof/Machine/Engines.lean ====
section
/-!
DEFINITION. The tile engines' queues and slot tables (R378-R381) and the queue of the special-function unit (R74).
-/

namespace Sys2Proof.Machine

/-! ## Dispatch (R378, R379) -/

/-- Operations of an engine that have not completed, oldest first in the queue. -/
def engineOps (e : Engine) : List QOp := (match e.run with | some r => [r.1] | none => []) ++ e.queue

/-- The engine can take an operation of an address space (R379, R401). -/
def hasRoom (e : Engine) (asid : Nat) : Bool :=
  !e.retired && decide (e.queue.length < 32) && decide ((e.queue.filter (fun q => q.op.asid == asid)).length < 24)

/-- The accumulator of a tile multiply is bound to the engine (R378). -/
def bound (e : Engine) (op : EngOp) : Bool :=
  match op.acc with
  | some a => e.latch == some a || (engineOps e).any fun q => q.op.acc.isSome && (q.op.acc == some a || q.op.out == some a)
  | none => false

/-- The engine that takes an operation: its accumulator's, else the one with the fewest queued operations (R378). -/
def engineFor (s : State) (cl : Nat) (op : EngOp) : Option Nat :=
  let open_ := (List.range 4).filter fun e => hasRoom (getEngine s cl e) op.asid
  (open_.find? fun e => bound (getEngine s cl e) op) <|>
    open_.foldl (fun b e => match b with
      | none => some e
      | some k => if (getEngine s cl e).queue.length < (getEngine s cl k).queue.length then some e else some k) none

/-! ## Starts (R380, R381) -/

/-- The handles that an operation reads. -/
def sourcesOf (op : EngOp) : List Nat := if op.acc.isSome || op.dst.isNone then op.uses else op.uses.drop 1

/-- Every operation that produces one of its sources, or a tile that a source was copied from, has completed, whether it
has been dispatched or not; what produces a physical tile is older than what reads it (R56, R381). -/
def opReady (s : State) (cl : Nat) (q : QOp) : Bool :=
  let from_ := (getCluster s cl).derived.filterMap fun x => if q.op.reads.contains x.1 then some x.2 else none
  (liveOps s cl).all fun p => !p.out.any fun d => q.op.reads.contains d || from_.contains d

/-- The first address space after `last`, in ascending order with wrap-around, of a list. -/
def nextAsid (last : Nat) (l : List Nat) : Option Nat :=
  let least (k : List Nat) : Option Nat := k.foldl (fun b a => match b with | none => some a | some x => some (Nat.min a x)) none
  (least (l.filter (fun a => decide (last < a)))) <|> (least l)

/-- The slot-table entry that governs a cycle (R380). -/
def entryOf (cycle : Nat) : Nat := cycle % 8192 / 128

/-- The entry in force: one that has been written in its own period still governs as it stood (R365, R380). -/
def governing (x : Engine) (cycle : Nat) : SlotEnt :=
  match x.past with
  | some (p, e) => if p = cycle / 128 then e else tabGet SlotEnt.reset x.slots (entryOf cycle)
  | none => tabGet SlotEnt.reset x.slots (entryOf cycle)

/-- The address space whose turn it is at an engine, and whether the engine is lent to it (R381). -/
def turnOf (s : State) (cl e : Nat) : Option (Nat × Bool) :=
  let x := getEngine s cl e
  let ready := (x.queue.filter (opReady s cl)).map (·.op.asid)
  let k := governing x s.cycle
  if k.own && ready.contains k.asid then some (k.asid, false) else (nextAsid x.lend ready).map fun a => (a, true)

/-- The operation that an engine starts (R381). -/
def startOf (s : State) (cl e : Nat) : Option (QOp × Nat × Bool) :=
  (turnOf s cl e).bind fun t =>
    (((getEngine s cl e).queue.filter fun q => opReady s cl q && q.op.asid == t.1).foldl (fun b q => match b with
      | none => some q
      | some k => if q.age < k.age then some q else some k) none).map fun q => (q, t)

/-- A cluster with engine work: an operation to dispatch, to complete, or to start. -/
def engineWork (s : State) : Option (Instr × Arg) :=
  s.clusters.findSome? fun c =>
    let send := (c.2.undispatched.find? fun o => (engineFor s c.1 o).isSome).map fun o =>
      (Instr.engineDispatch, ({ a := c.1, op := some o } : Arg))
    send <|> (c.2.engines.findSome? fun e => match e.2.run with
      | some (_, t) => if t ≤ s.cycle then some (Instr.engineOpComplete, ({ a := c.1, b := e.1 } : Arg)) else none
      | none => if (startOf s c.1 e.1).isSome then some (Instr.engineOpStart, ({ a := c.1, b := e.1 } : Arg)) else none)

/-! ## The special-function unit (R74) -/

/-- A cluster whose unit takes requests or returns a result. -/
def sfuWork (s : State) : Option (Instr × Arg) :=
  s.clusters.findSome? fun c =>
    match c.2.sfuOut with
    | (_, t) :: _ => if t ≤ s.cycle then some (Instr.sfuResult, ({ a := c.1 } : Arg)) else if c.2.sfuQ.isEmpty then none else some (Instr.sfuDequeue, ({ a := c.1 } : Arg))
    | [] => if c.2.sfuQ.isEmpty then none else some (Instr.sfuDequeue, ({ a := c.1 } : Arg))

end Sys2Proof.Machine
end

