-- ==== Sys2Proof/Machine/Routing.lean ====
section
/-!
DEFINITION. The fabric's wiring (R147), the path that a message takes (R150, R152, R154, R156), the queues of the ports and
the flits that leave on them (R148, R149, R173).
-/

namespace Sys2Proof.Machine

/-! ## The wiring (R147) -/

/-- The device and port at the far end of a port of a device; local ports are 0-30 and global ports 31-46, in a
domain of n groups (R147). Of the parallel links of a smaller domain, a group port meets the one of its own block of n - 1, and
one whose partner would be beyond 511 meets none (assumption log, entry 81). -/
def wiringIn (n dev port : Nat) : Option (Nat × Nat) :=
  let g := dev / 32
  let m := dev % 32
  if port < 31 then some (32 * g + (m + port + 1) % 32, 30 - port)
  else
    let k := 16 * m + (port - 31)
    if n < 2 ∨ (n = 512 ∧ k = 511) then none
    else
      let r := k % (n - 1)
      let far := k / (n - 1) * (n - 1) + (n - 2 - r)
      if 512 ≤ far then none else some (32 * ((g + r + 1) % n) + far / 16, 31 + far % 16)

/-- The wiring of the module's own domain. -/
def wiring (dev port : Nat) : Option (Nat × Nat) := wiringIn Config.domainGroups dev port

/-- The local port of a device that leads to another member of its group. -/
def localPort (dev far : Nat) : Nat := (far % 32 + 31 - dev % 32) % 32

/-- The devices that the global links of a device lead to. -/
def farEnds (d : Nat) : List Nat := (List.range 16).filterMap fun p => (wiring d (31 + p)).map (·.1)

/-! ## Links (R148, R152, R154, R156) -/

/-- A link: a device and one of its ports. -/
abbrev Link := Nat × Nat

/-- A link can carry messages: of its own ports the module knows it, of the others what it learns (assumption log,
entry 48). -/
def linkUp (s : State) (k : Link) : Bool :=
  let own (p : Nat) : Bool := (getPort s p).trained && (getPort s p).up
  if k.1 = s.dev then own k.2
  else match wiring k.1 k.2 with
    | some (d, p) => if d = s.dev then own p else Config.farLink k.1 k.2 s.mtime
    | none => false

def pathUp (s : State) (path : List Link) : Bool := path.all (linkUp s)

/-- The flits that wait at a port. -/
def portDepth (x : Port) : Nat := (x.queue.map fun m => (flitsOf m).length).foldl (· + ·) 0

/-- The queue depth of a link's port in flits (R152). -/
def linkDepth (s : State) (k : Link) : Nat := if k.1 = s.dev then portDepth (getPort s k.2) else Config.farDepth k.1 k.2 s.mtime

/-! ## Paths (R152, R154) -/

/-- The local link from one member of a group to another; none from a device to itself. -/
def localHop (d far : Nat) : List Link := if d = far then [] else [(d, localPort d far)]

/-- The parallel links from the group of a device to another group (R147). -/
def globalLinks (d grp : Nat) : List Link :=
  let n := Config.domainGroups
  let r := (grp + n - groupOf d - 1) % n
  ((List.range 512).filter fun k => k % (n - 1) == r).map fun k => (32 * groupOf d + k / 16, 31 + k % 16)

/-- Of parallel links the lowest one that is up, else the lowest (assumption log, entry 48). -/
def pickLink (s : State) (l : List Link) : Option Link := (l.find? (linkUp s)) <|> l.head?

/-- The minimal way from a device to another group: its links and the device where it arrives. -/
def toGroup (s : State) (d grp : Nat) : Option (List Link × Nat) :=
  (pickLink s (globalLinks d grp)).bind fun k => (wiring k.1 k.2).map fun e => (localHop d k.1 ++ [k], e.1)

/-- The minimal path from a device to another one (R152). -/
def minimalPath (s : State) (d far : Nat) : Option (List Link) :=
  if groupOf d = groupOf far then some (localHop d far)
  else (toGroup s d (groupOf far)).map fun r => r.1 ++ localHop r.2 far

/-- The path over an intermediate group (R152). -/
def overGroup (s : State) (d far grp : Nat) : Option (List Link) :=
  (toGroup s d grp).bind fun r => (minimalPath s r.2 far).map fun q => r.1 ++ q

/-- The live members of a group whose links to two other members are both up, in ascending order; the lowest one relays a
detour (R154). -/
def relayMembers (s : State) (d far : Nat) : List Nat :=
  ((List.range 32).map (· + 32 * groupOf d)).filter fun x =>
    x != d && x != far && !s.lostMap.contains x && pathUp s [(d, localPort d x), (x, localPort x far)]
def relayMember (s : State) (d far : Nat) : Option Nat := (relayMembers s d far).head?

/-- The detour between two members of a group (R154). -/
def memberDetour (s : State) (d far : Nat) : Option (Nat × List Link) :=
  (relayMember s d far).map fun x => (x, [(d, localPort d x), (x, localPort x far)])

/-- A path is another one than that of the first sending (R158). -/
def another (m : Msg) (path : List Link) : Bool := match m.via with | .other p => path != p | _ => true

/-- The groups other than those of two devices. -/
def otherGroups (d far : Nat) : List Nat := (List.range Config.domainGroups).filter fun g => g != groupOf d && g != groupOf far

/-- One of a list, chosen at random (R152, R154). -/
def randomOf (s : State) (l : List Nat) : Option Nat := l[(Config.freeWord s.freeCtr).toNat % l.length]?

/-- The first global link of a path. -/
def firstGlobal (path : List Link) : Option Link := path.find? fun k => decide (31 ≤ k.2)

/-- How a message is to travel and the links of that path. -/
abbrev Route := Via × List Link

/-- A path over an intermediate group chosen at random among those whose links on it are all up (R154). -/
def detourGroup (s : State) (far : Nat) (ok : Nat → List Link → Bool) : Option Route :=
  let open_ := (otherGroups s.dev far).filter fun g => match overGroup s s.dev far g with
    | some q => pathUp s q && ok g q
    | none => false
  (randomOf s open_).bind fun g => (overGroup s s.dev far g).map fun q => (Via.group g, q)

/-- The last link of a path is a global one: it enters its device over one of the device's own global links. -/
def endsGlobal (path : List Link) : Bool := path.getLast?.any fun k => decide (31 ≤ k.2)

/-- The way of a liveness question or its answer: over the global links of the device asked or answering (R151, R159). -/
def globalWay (s : State) (far : Nat) : Option Route :=
  let direct := match minimalPath s s.dev far with
    | some q => if groupOf far != groupOf s.dev && endsGlobal q && pathUp s q then some (Via.direct, q) else none
    | none => none
  direct <|> detourGroup s far fun _ q => endsGlobal q

/-- The way of a message within the group: its link, else the detour over the lowest member that can relay it. A message
that is resent takes the first of these ways that is not its first one, and only for want of it the same again (R154, R158;
assumption log, entry 68). -/
def localWay (s : State) (m : Msg) : Option Route :=
  let q := localHop s.dev m.dst
  let min : List Route := if pathUp s q then [(Via.direct, q)] else []
  let ways := min ++ (relayMembers s s.dev m.dst).map fun x => (Via.member x, [(s.dev, localPort s.dev x), (x, localPort x m.dst)])
  (ways.find? fun r => another m r.2) <|> ways.head?

/-- The adaptive choice: over a group chosen at random where the minimal path's first global port is that much deeper
(R152). -/
def adaptWay (s : State) (m : Msg) (q : List Link) : Route :=
  let cls := (msgClass m.code).getD 3
  if cls = 1 ∨ cls = 2 ∨ s.adapt = false then (Via.direct, q)
  else match randomOf s (otherGroups s.dev m.dst) with
    | none => (Via.direct, q)
    | some g =>
      match overGroup s s.dev m.dst g with
      | none => (Via.direct, q)
      | some r =>
        let depth (p : List Link) : Nat := match firstGlobal p with | some k => linkDepth s k | none => 0
        if pathUp s r && decide (2 * depth r + 32 < depth q) then (Via.group g, r) else (Via.direct, q)

/-- The minimal path where only its last local link is down, with the detour inside the destination group (R154). -/
def lastHopDetour (s : State) (m : Msg) (q : List Link) : Option Route :=
  match q.getLast? with
  | some (d, p) =>
    if p < 31 ∧ linkUp s (d, p) = false ∧ pathUp s q.dropLast = true then
      (memberDetour s d m.dst).map fun r => (Via.direct, q.dropLast ++ r.2)
    else none
  | none => none

/-- The way of a message to another group (R152, R154, R158). -/
def farWay (s : State) (m : Msg) : Option Route :=
  let detour := (detourGroup s m.dst fun _ r => another m r) <|> (detourGroup s m.dst fun _ _ => true)
  match minimalPath s s.dev m.dst with
  | none => detour
  | some q =>
    if pathUp s q then
      match m.via with
      | .other p => if q != p then some (Via.direct, q) else detour <|> some (Via.direct, q)
      | _ => some (adaptWay s m q)
    else match lastHopDetour s m q with
      | some r => if another m r.2 then some r else detour <|> some r
      | none => detour

/-- The way of a message of the module: a message of one link takes that link while it is up. None: it waits (R152,
R154). -/
def choosePath (s : State) (m : Msg) : Option Route :=
  match m.port with
  | some p => if linkUp s (s.dev, p) then some (Via.direct, [(s.dev, p)]) else localOrFar
  | none => localOrFar
where
  localOrFar : Option Route :=
    if m.code = 0x32 ∨ m.code = 0x33 then globalWay s m.dst
    else if groupOf m.dst = groupOf s.dev then localWay s m else farWay s m

/-- The first link of the way that a message of another module still has before it: what it carries says how (R152,
R154). -/
def relayLink (s : State) (m : Msg) : Option Link :=
  let first (q : Option (List Link)) : Option Link := q.bind List.head?
  let k := match m.via with
    | .group g => first ((toGroup s s.dev g).map Prod.fst)
    | .member d => first (some (localHop s.dev d))
    | _ => first (minimalPath s s.dev m.dst)
  match k with
  | some k =>
    if linkUp s k then some k
    else if groupOf m.dst = groupOf s.dev then first ((memberDetour s s.dev m.dst).map Prod.snd) else none
  | none => none

/-! ## Failure detection (R159) -/

/-- A device that a module carries and that is not recorded lost. -/
def live (s : State) (d : Nat) : Bool := d == s.dev || (Config.carried d && !s.lostMap.contains d)
/-- The live members of a device's group, and the live modules at the far ends of its global links. -/
def groupLive (s : State) (d : Nat) : List Nat := ((List.range 32).map (· + 32 * groupOf d)).filter fun x => x != d && live s x
def farLive (s : State) (d : Nat) : List Nat := (farEnds d).filter (live s)

/-- The module that declares a device lost; none where neither kind of module exists: a device that no module carries has no
far ends (R159). -/
def declarer (s : State) (d : Nat) : Option Nat :=
  let least (l : List Nat) : Option Nat := l.foldl (fun b x => match b with | none => some x | some y => some (Nat.min x y)) none
  least (groupLive s d) <|> (if Config.carried d then least (farLive s d) else none)

/-- The local links to a device. -/
def localLinks (d : Nat) : List Link := (((List.range 32).map (· + 32 * groupOf d)).filter (· != d)).map fun x => (x, localPort x d)

/-- Every local link to a device is down, and since when the last one has been: a link that has never trained from reset on
(R159). -/
def localDown (s : State) (d : Nat) : Bool := (localLinks d).all fun k => !linkUp s k
def lastDown (s : State) (d : Nat) : Nat :=
  ((localLinks d).map fun k =>
    if k.1 = s.dev then (if (getPort s k.2).trained then (getPort s k.2).downAt else 0) else Config.farDown k.1 k.2 s.mtime).foldl Nat.max 0

/-- A device of the group, whether or not a module carries it, or a live far end, whose local links are all down and that has
not been asked, or that has been asked and has a link again, where this module would declare it; modules outside the domain
watch no one (R148, R159; assumption log, entry 50). -/
def aliveWork (s : State) : Option (Instr × Arg) :=
  if !s.join then none
  else
    let near := ((List.range 32).map (· + 32 * groupOf s.dev)).filter (fun d => d != s.dev && !s.lostMap.contains d) ++
      (farEnds s.dev).filter (live s)
    (near.find? fun d => declarer s d == some s.dev && localDown s d == (tabGet none s.hbWait d).isNone).map
      fun d => (Instr.deviceLostTimeout, { a := d })

/-! ## Idle ports (R173, R174) -/

def portForced (x : Port) : Bool := x.forced || x.farForced

/-- The sending queue of a port has held nothing but heartbeats for IDLE µs (R173; assumption log, entry 51). -/
def portIdle (s : State) (x : Port) : Bool :=
  x.queue.all (fun m => m.code == 0x31) && decide (x.idleSince + x.idle * 1000 ≤ s.mtime)

/-- A global port whose queue lets it park or makes it wake (R173, R174). -/
def parkWork (s : State) : Option (Instr × Arg) :=
  s.ports.findSome? fun (p, x) =>
    if p < 31 ∨ x.up = false then none
    else if x.pen && !x.parked && portIdle s x && !s.net.any (fun m => m.port == some p) then some (Instr.portIdlePark, { a := p })
    else if x.parked && !portForced x && !x.wakes.contains false && x.rejoinAt.isNone && decide (x.wth ≤ portDepth x) then some (Instr.portWake, { a := p })
    else none

/-! ## Relays (R150, R152) -/

/-- A message that goes on from this module: the way that it has reached its intermediate group or member is done, and its
phase is 1 once it has crossed a global link or is on the second hop of a detour (R150, R154). -/
def relayed (s : State) (m : Msg) : State :=
  let arrived := match m.via with
    | .group g => g == groupOf s.dev
    | .member d => d == s.dev
    | _ => false
  let second := match m.via with | .member d => d == s.dev | _ => false
  let crossed := m.port.any fun p => decide (31 ≤ p)
  let vc := if m.vc % 2 = 0 ∧ (crossed = true ∨ second = true) then m.vc + 1 else m.vc
  { s with net := s.net ++ [{ m with vc := vc, hops := m.hops + 1, via := if arrived then .direct else m.via, port := none }] }

/-! ## Queues (R148, R150, R153, R156, R173) -/

/-- A message put in the queue of a port. -/
def enqueue (s : State) (p : Nat) (m : Msg) : State := modPort s p fun x => { x with queue := x.queue ++ [m] }

/-- The path of an unacknowledged message, and of the request that it is, is recorded. -/
def recordPath (s : State) (m : Msg) (path : List Link) : State :=
  let same (x : Msg) : Bool := x.dst == m.dst && x.code == m.code && x.seq == m.seq
  { s with
    pairs := tabMod Pair.reset s.pairs (pairKey m.dst ((msgClass m.code).getD 3)) fun x =>
      { x with unacked := x.unacked.map fun u => if u.msg.seq = m.seq then { u with path := path } else u }
    reqs := s.reqs.map fun r => if same r.msg then { r with path := path } else r }

/-- A message of the module takes its path, or waits for one; one of another module goes on, or is left to its source. -/
def routeOne (s : State) (m : Msg) : State :=
  if m.src = s.dev then
    match choosePath s m with
    | some (via, k :: path) =>
      let nonMin := match via with | .group _ => true | _ => false
      let s := spend (recordPath s m (k :: path)) 1
      enqueue s k.2 { m with via := via, nonMin := nonMin, port := some k.2 }
    | _ => { s with net := s.net ++ [m] }
  else match relayLink s m with
    | some k => enqueue s k.2 { m with port := some k.2 }
    | none => s

def routeAll (s : State) : State := s.net.foldl routeOne { s with net := [] }

/-- Messages of the module whose path has a link that has gone down look for another path (R156). -/
def resendLost (s : State) : State :=
  let lost (u : Sent) : Bool := !u.path.isEmpty && !pathUp s u.path
  let again := s.pairs.flatMap fun p => (p.2.unacked.filter lost).map (·.msg)
  if again.isEmpty then s
  else { s with
    net := s.net ++ again
    pairs := tabMap Pair.reset (fun _ p => { p with unacked := p.unacked.map fun u => if lost u then { u with path := [] } else u }) s.pairs }

/-- The cycles that a port takes for so many flits: 3,281,250,000 flits in a second on a local port, 2,929,687,500 on a
global one, a quarter of that while it is parked (R148, R173). -/
def flitCycles (p n : Nat) (x : Port) : Nat :=
  if p < 31 then (n * 24 + 34) / 35 else if x.parked then (n * 384 + 124) / 125 else (n * 96 + 124) / 125

/-- The first message of a port's queue whose channel has credit leaves on its link (R150). -/
def drainPort (s : State) (p : Nat) : State :=
  let x := getPort s p
  if x.queue.isEmpty || s.cycle < x.freeAt || !linkUp s (s.dev, p) then s
  else match x.queue.find? fun m => Config.linkCredit p m.vc s.cycle with
    | none => s
    | some m =>
      let s := modPort s p fun x => { x with
        queue := x.queue.erase m, freeAt := s.cycle + flitCycles p (flitsOf m).length x
        idleSince := if m.code = 0x31 then x.idleSince else s.mtime }
      { s with wire := s.wire ++ [(p, m)] }

def drainPorts (s : State) : State := (tabKeys s.ports).foldl drainPort s

/-- What the fabric does in a cycle. -/
def fabricTick (s : State) : State := drainPorts (routeAll (resendLost s))

end Sys2Proof.Machine
end

