-- ==== Sys2Proof/Machine/Run.lean ====
section
/-!
DEFINITION. What the machine does next: time passes, a due hardware step happens, the hardware does the work that waits
for it, or a hart takes an interrupt, enters a block and executes the next word (R203, R227-R233, R385-R393;
assumption log, entries 3 and 4).
-/

namespace Sys2Proof.Machine

/-- What a step executes: an instruction or hardware step on a state, nothing more than a change of state, or a hardware
step whose argument names nothing that exists. -/
inductive Move
  | run (i : Instr) (s : State)
  | go (s : State)
  | bad
  deriving Repr

/-! ## Time (R4, R392) -/

/-- One cycle of 2.25 GHz passes: four nanoseconds are nine cycles. The Tethers accept requests, and the fabric's ports
take and send messages (R99, R148, R152). -/
def tick (s0 : State) : State :=
  let s := fabricTick (acceptAll s0)
  let n := s.cycle + 1
  { s with cycle := n, mtime := s.mtime + (if n * 4 / 9 = s.cycle * 4 / 9 then 0 else 1) }

/-! ## Fetch (R35, R45, R47, R53, R112, R129, R422) -/

/-- The line of an instruction word: the L1 instruction cache holds it, or the cluster cache, which is asked for it under a
number that no hart has, as a fetch is no member of a chunk (R123, R129). In a range the fetch acts at the cluster cache or
above, as no instruction line stands in the L1 data cache (R45, R135). -/
def fetchReach (s : State) (x : Acc) (a : Word) : State × Res Unit :=
  let l := x.pa / 128
  let cl := clusterOf s.curId
  let core := coreOf s.curId
  match x.lvl with
  | some k =>
    let k := Nat.max 1 k
    match reachLevel s .read k l x.td a with
    | (s, .val _) => (ncWays (ncFill s s.curId k l) s.curId k l 0, .val ())
    | r => r
  | none =>
    if cacheSt (getCoh s l) (l1iKey core) != .i then (useL1i s core l, .val ())
    else if clusterHolds s cl l 0 false then (useL1i s core l, .val ())
    else
      let ask : State × Res Unit := (askLine s noHart cl l 0 x.td .read, .wait (.miss (.line l)))
      if lineDev l = s.dev then ask
      else match tabGet none s.peers l with
        | some p =>
          let mask := byteMask x.pa 8
          if p.valid == BitVec.allOnes 128 then ask
          else if p.valid &&& mask = mask then (s, .val ())
          else if p.orphan || s.lostMap.contains (lineDev l) then (s, homeLost a)
          else ask
        | none => if s.lostMap.contains (lineDev l) then (s, homeLost a) else ask

/-- The word at the pc: translated, and read from committed memory. -/
def fetchWord (s : State) : State × Res Word :=
  let a := s.cur.arch.pc
  match translate s (whoCur s) ⟨.fetch, 8, decide (a.toNat % 8 ≠ 0), .refused⟩ a with
  | (s, .val x) =>
    match fetchReach (noteUsed s x.used) x a with
    | (s, .val _) =>
      let l := x.pa / 128
      let d := match x.lvl with | some k => ncData s s.curId (Nat.max 1 k) l | none => committedLine s l
      if poisoned s l then (s, .trap { code := cPoison, tval := a })
      else (s, .val (BitVec.ofNat 64 (d.toNat >>> (8 * (x.pa % 128)))))
    | (s, .trap t) => (s, .trap t)
    | (s, .wait c) => (s, .wait c)
    | (s, .again) => (s, .again)
  | (s, .trap t) => (s, .trap t)
  | (s, .wait c) => (s, .wait c)
  | (s, .again) => (s, .again)

/-! ## Headers (R228, R229, R392) -/

def isHeader (w : Word) : Bool := w.extractLsb' 54 10 == 0x3FF
/-- A header with a length and no reserved bit set (R227, R228). -/
def headerOk (w : Word) : Bool := w.extractLsb' 48 6 != 0 && w.extractLsb' 0 6 == 0
def headerEntry (w : Word) : Bool := w.getLsbD 7
def headerBreak (w : Word) : Bool := w.getLsbD 6

/-- The address of an instruction to prefetch, by what the TLBs of the core hold: without a leaf there, and where a check
fails, there is none (R232; assumption log, entry 67). -/
def prefetchAcc (s : State) (a : Word) : Option Acc :=
  let w := whoCur s
  let r : AccReq := ⟨.fetch, 8, false, .refused⟩
  let va := if inAperture a.toNat then aliasOf w.hart a.toNat else a.toNat
  let x : Res Acc :=
    if w.mode = .m then translateM s r a
    else if 2 ^ 57 ≤ a.toNat ∨ (w.mode = .u ∧ ¬ inAperture a.toNat = true ∧ 2 ^ 56 ≤ va) then perm a
    else match (tlbFind s (coreOf w.hart) w.asid va).2 with
      | some e => checkLeaf s w r a va e
      | none => .again
  match x with | .val x => some x | _ => none

/-- One line of instructions is prefetched into the L1 instruction cache of the core (R232). -/
def prefetchLine (s : State) (a : Word) : State :=
  match prefetchAcc s a with
  | none => s
  | some x =>
    let l := x.pa / 128
    let core := coreOf s.curId
    let cl := clusterOf s.curId
    if x.lvl.isSome || cacheSt (getCoh s l) (l1iKey core) != .i || meetsMark s .hint l then s
    else if clusterHolds s cl l 0 false then useL1i s core l
    else askFor s noHart cl l 0 x.td .hint [core]

/-- The 512 bytes that a header at the pc names are prefetched (R232). -/
def prefetchCode (s : State) (w : Word) : State :=
  let k := w.extractLsb' 8 8
  if k = 0 then s
  else
    let a := s.cur.arch.pc + k.signExtend 64 * 512
    (List.range ((a.toNat % 128 + 511) / 128 + 1)).foldl (fun s i => prefetchLine s (BitVec.ofNat 64 (a.toNat / 128 * 128 + 128 * i))) s

/-- The moving hart enters the block of a header at the pc (R228, R118, R232). -/
def enterBlock (s : State) (w : Word) : State :=
  let s := prefetchCode s w
  let s := if headerBreak w then closeChunk (if s.cur.solo then leaveSolo s else s) else s
  updArch s fun a => { a with
    pc := a.pc + 8
    blk := .body ((a.pc.toNat + 8 + 8 * field 53 48 w) % 2 ^ 64) (w.extractLsb' 32 16) (w.extractLsb' 24 8) }

/-- A trap with the pc as hepc. -/
def trapHere (s : State) (t : Trap) : Move := .go (raiseAt s s.cur.arch.pc t)

/-- The S-mode handler cannot be entered: MACHINE_CHECK of kind 3, received in M mode (R392). -/
def badHandler (s : State) : Move :=
  .go (deliver s ⟨cMcheck, true, s.cur.arch.pc, w64 (3 * 2 ^ 60 + s.curId), 0⟩)

/-- The M-mode handler cannot be entered: the hart leaves its slot, and the event is logged (R392). -/
def badMHandler (s : State) : Move := .go (logEv (vacate s s.curId true) evHandler)

/-- The hart cannot enter a block at the pc: what that means where it came from (R203, R230, R359, R392). -/
def noEntry (s : State) (t : Trap) : Move :=
  match s.cur.arch.blk with
  | .header .sHandler => badHandler s
  | .header .mHandler => badMHandler s
  | _ => trapHere s t

/-! ## Execution of a word (R227, R229) -/

/-- A control-flow instruction must be the last word of its block (R229). -/
def isFlow : Instr → Bool
  | .br .. | .call .. | .callr .. | .jr .. | .ret .. => true
  | _ => false

/-- A control-flow word stands where the block does not end. -/
def misplaced (a : Arch) (i : Instr) : Bool :=
  isFlow i && (match a.blk with | .body fin _ _ => (a.pc + 8).toNat != fin | _ => false)

/-- A word is executed: it decodes to an instruction, or raises ILLEGAL (R227). -/
def runWord (s : State) (w : Word) : Move :=
  let s := updArch s fun a => { a with iw := w }
  match decode w with
  | some i => if misplaced s.cur.arch i then trapHere s (wordTrap cIllegal s) else .run i s
  | none => trapHere s (wordTrap cIllegal s)

/-- The stalled or trapped end of a fetch. -/
def fetchEnd (s : State) (r : Res Word) (k : Word → Move) : Move :=
  match r with
  | .val w => k w
  | .trap t => noEntry s t
  | .wait c => .go (stallOn c s)
  | .again => .go s

/-- The next word inside a block. -/
def runBody (s : State) : Move :=
  let (s, r) := fetchWord s
  fetchEnd s r (runWord s)

/-- A header is entered and the block's first word executed, unless the chunk that the header ends is the second one in flight
(R122); `entry` where the header must have ENTRY = 1. -/
def runHeader (s : State) (w : Word) (entry : Bool) : Move :=
  let target : Trap := { code := cTarget, tval := s.cur.arch.pc }
  if !isHeader w || (entry && !headerEntry w) then noEntry s target
  else if !headerOk w then
    let s := updArch s fun a => { a with iw := w }
    noEntry s (wordTrap cIllegal s)
  else
    let s := enterBlock s w
    if 2 ≤ s.cur.inflight.length then .go s else runBody s

/-- The moving hart executes its next word. -/
def runHart (s : State) : Move :=
  match s.cur.arch.blk with
  | .body _ _ _ => runBody s
  | .resumed =>
    let (s, r) := fetchWord s
    fetchEnd s r fun w => if isHeader w then runHeader s w false else runWord s w
  | .header (.badEntry low) => trapHere s { code := cTarget, tval := s.cur.arch.pc + w64 low }
  | .header need =>
    let (s, r) := fetchWord s
    fetchEnd s r fun w => runHeader s w (need != .any)

/-- The entry point at which a created hart stands, as it was given (R203, R217). -/
def atEntry (s : State) : State :=
  match s.cur.arch.blk with
  | .header (.badEntry low) => updArch s fun a => { a with pc := a.pc + w64 low }
  | _ => s

/-- The interrupt that ranks highest, or the user-level one, is taken (R359, R389). -/
def takeInterrupt (s : State) : Move :=
  if (interruptFor s s.curId).isSome then .run .interruptDelivery { s with arg := { a := s.curId } }
  else .run .userInterrupt { s with arg := { a := s.curId } }

/-- A hart at an instruction boundary: a trap that is due, then an interrupt, else its next instruction (R389, R390). The
interrupt comes before anything of the next word is checked, also where that word is a header, whose address hepc then holds
(assumption log, entry 59). One that arrives while a system fence, a MAMO or a WFI waits is taken after it (R279, R285,
R363). -/
def boundary (s : State) : Move :=
  match s.cur.due with
  | some r => .go (if isDrained s then deliver s r else s)
  | none =>
    if s.cur.drain.isSome || s.cur.mamo.isSome || s.cur.stall == some .irq then runHart s
    else if interrupted s s.curId then takeInterrupt (atEntry s)
    else runHart s

/-! ## The choice of a hart (R226, R369, R384; assumption log, entry 3) -/

/-- A hart can move: it issues, its switch has ended, its wait has ended or an interrupt is enabled for it, and fewer
than two of its chunks are in flight (R122, R370, R372). -/
def canMove (s : State) (h : Nat) : Bool :=
  let x := getHart s h
  x.slot == .issuing && decide (x.issuedAt ≤ s.cycle) && decide (x.inflight.length < 2) && !contextBusy x h && x.leave.isNone &&
    (match x.stall with
      | none => true
      | some c => stallOver s h c || interrupted s h) &&
    (!x.solo || s.soloHart == some h) && (s.soloHart != some h || x.inflight.isEmpty)

/-- Harts in solo mode that can go on, and whose older chunks have committed, ask for the pre-admission of their next
instruction, and Cornice grants the oldest request once no pre-admission stands (R130). -/
def askAll (s : State) : State :=
  grantSolo ((hartIds s).foldl (fun s h =>
    let x := getHart s h
    if x.solo && x.slot == .issuing && x.leave.isNone && x.inflight.isEmpty && (match x.stall with | none => true | some c => stallOver s h c || interrupted s h)
    then askSolo s h else s) s)

/-- The word at an address as a hart would fetch it; zero where it cannot. -/
def peek (s : State) (h : Nat) (a : Word) : Word :=
  match fetchWord (setPc (focus s h) a) with | (_, .val w) => w | _ => 0

/-- The PRI field of the next instruction of a hart: that of the first word of a block at its header (R226). -/
def nextPri (s : State) (h : Nat) : Nat :=
  let a := (getHart s h).arch
  let w := peek s h a.pc
  field 39 38 (if isHeader w then peek s h (a.pc + 8) else w)

/-- P' of R369. -/
def loadPrio (p pri : Nat) : Nat := if pri = 2 then Nat.min 7 (p + 2) else if pri = 1 then p - 2 else p

/-- The instructions of a hart that have not retired: from the oldest member on that works in an engine, and the one that
waits (R347, R369). -/
def unretired (s : State) (h : Nat) : Nat :=
  let x := getHart s h
  let live := liveOps s (clusterOf h)
  let all := x.inflight ++ [x.chunk]
  let rec behind : List Chunk → Nat
    | [] => 0
    | c :: r => match c.cuts.find? fun k => live.contains k.op with
      | some k => c.count - k.count + (r.map (·.count)).sum
      | none => behind r
  behind all + (if x.stall.isSome then 1 else 0)

/-- The load of a candidate (R369). -/
def decodeLoad (s : State) (h : Nat) : Nat := unretired s h * (8 - loadPrio (getHart s h).prio (nextPri s h))

/-- A hart is a candidate: it can move, and holds fewer than 256 entries of the reorder buffer (R369). -/
def candidate (s : State) (h : Nat) : Bool := canMove s h && decide (unretired s h < 256)

/-- The candidate of a core that decodes: one that was passed over for 32 cycles, else the one with the smaller load,
else the one not chosen last, else the lower slot (R369, R384). -/
def decodeChoice (s : State) (core : Nat) : Option Nat :=
  match (inState s core .issuing).filter (candidate s) with
  | [] => none
  | [h] => some h
  | cands =>
    (cands.find? fun h => decide (32 ≤ (getHart s h).starve)) <|>
      cands.foldl (fun b h => match b with
        | none => some h
        | some k =>
          if decodeLoad s h < decodeLoad s k ∨ (decodeLoad s h = decodeLoad s k ∧ (getCore s core).chosen = some k) then some h else some k) none

/-- A hart decodes: the other candidates of its core have been passed over once more (R369). -/
def noteDecode (s : State) (h : Nat) : State :=
  let core := coreOf h
  let cands := (inState s core .issuing).filter (candidate s)
  let s := (inState s core .issuing).foldl (fun s k => modHart s k fun x => { x with
    starve := if k ≠ h ∧ cands.contains k then x.starve + 1 else 0 }) s
  modCore s core fun c => { c with chosen := some h }

/-- The choice of the next core's decoder: the cores take turns by number (R369; assumption log, entry 3). -/
def decodeTurn (s : State) : Option Nat :=
  let l := (hartIds s).filter (candidate s)
  let here := coreOf s.curId
  ((l.find? fun h => decide (here < coreOf h)) <|> l.head?).bind fun h => decodeChoice s (coreOf h)

/-- The hart that moves: the first of the schedule, else the choice of the next core's decoder. -/
def nextHart (s : State) : Option Nat :=
  match s.sched with
  | h :: _ => if canMove s h then some h else decodeTurn s
  | [] => decodeTurn s

/-- The hart that moves has the state; where no step has chosen it before, its decoder's choice counts (R369). -/
def takeTurn (s : State) (h : Nat) : State :=
  let t := if s.sched.head? = some h then s else noteDecode s h
  { focus t h with sched := s.sched.drop 1 }

/-! ## Work that waits for the hardware (assumption log, entry 3) -/

/-- A presented chunk whose wait has ended (R124). -/
def recheckable (s : State) : Option Nat :=
  (s.presented.find? fun p => match p.on with | some y => !s.held.contains y && s.soloHart != some y.hart | none => decide (s.held.length < 128)).map (·.hart)

/-- A hart whose oldest ended chunk is neither presented nor admitted (R122, R124). -/
def presentable (s : State) : Option Nat :=
  (hartIds s).find? fun h =>
    (toPresent s h).any (fun c => !working s h c) && !s.presented.any (fun p => p.hart == h)

/-- A hart with a copy-engine command to perform: the harts are served in turn (R69). -/
def commandHart (s : State) : Option Nat :=
  let l := (hartIds s).filter fun h => match (getHart s h).fifo.cmds with | c :: _ => !c.held && c.fin.isNone | [] => false
  (l.find? fun h => decide (s.engTurn < h)) <|> l.head?

/-- A parked hart's WAITC has an answer from another home that is not zero, or none under way: it reads again (R213). -/
def pollDue (s : State) (h : Nat) (c : Stall) : Bool :=
  match c with
  | .counter _ (some (pa, _)) => polls s h c && !readsPast s h (pa / 128)
  | _ => false

/-- A parked hart whose wait has ended, or for which an interrupt is enabled (R197, R370). -/
def waitOverHart (s : State) : Option Nat :=
  (hartIds s).find? fun h =>
    let x := getHart s h
    x.slot == .waiting && ((match x.stall with | some c => stallOver s h c || pollDue s h c | none => true) || interrupted s h)

/-- A core with a free issue position and a Ready hart (R372). -/
def freePosition (s : State) : Option Nat :=
  ((hartIds s).find? fun h =>
    (getHart s h).slot == .ready && !contextHeld s h && !(getCore s (coreOf h)).retired && decide ((inState s (coreOf h) .issuing).length < 2)).map coreOf

/-- No older instruction of a hart works in an engine: the one that waits is its oldest unretired one (R370). -/
def oldestWaits (s : State) (h : Nat) : Bool := !(liveOps s (clusterOf h)).any fun o => o.hart == h

/-- A hart has been stalled for 200 cycles, and a hart of its core is Ready (R370, R371). -/
def mustPark (s : State) (h : Nat) : Bool :=
  let x := getHart s h
  x.slot == .issuing && x.leave.isNone && (match x.stall with | some c => c.counts && (!stallOver s h c || polls s h c) | none => false) &&
    oldestWaits s h && decide (x.stallAt + 200 ≤ s.cycle) && !(inState s (coreOf h) .ready).isEmpty

/-- The hart that is parked next: the one stalled longest, then the lower slot (R371). -/
def parkable (s : State) : Option Nat :=
  ((hartIds s).filter (mustPark s)).foldl (fun b h => match b with
    | none => some h
    | some k => if (getHart s h).stallAt < (getHart s k).stallAt then some h else some k) none

/-- A core where a Ready hart pre-empts (R373), with the victim; while a hart leaves its position the Ready one waits for
that. -/
def preemptable (s : State) : Option Nat :=
  (hartIds s).findSome? fun h =>
    let x := getHart s h
    if x.slot = .ready ∧ x.readyAt + 100000 ≤ s.cycle ∧ 2 ≤ (inState s (coreOf h) .issuing).length ∧
      (inState s (coreOf h) .issuing).all (fun k => (getHart s k).leave.isNone) = true then victimOf s (coreOf h) else none

/-- A die with a gang member or a ready node to place, in turn, or with a node to report (R375-R377). -/
def placeable (s : State) : Option (Instr × Arg) :=
  (tabKeys s.dies).findSome? fun d =>
    let x := getDie s d
    let gang := (gangChoice s d).map fun g => (Instr.gangMemberPlace, ({ a := d, b := g } : Arg))
    let node := if (nodeChoice s d).isSome || x.pool.any (stuckNode s d) then some (Instr.readyPoolPlace, ({ a := d } : Arg)) else none
    if x.poolTurn then node <|> gang else gang <|> node

/-- A watchdog unit whose window has passed (R398). -/
def dogDue (s : State) : Option Nat :=
  (s.dogs.find? fun d => d.2.asid.isSome && !d.2.spent && d.2.stopped.isNone && decide (d.2.pulseAt + d.2.win * 1000 ≤ s.mtime)).map (·.1)

/-- The walk of a request, as a hart's access makes it. -/
def WalkReq.who (q : WalkReq) : Who := ⟨q.hart, q.mode, q.asid, q.root, !q.cmd⟩
def WalkReq.acc (q : WalkReq) : AccReq := ⟨q.kind, 1, false, q.ctl⟩

/-- A walk under way waits for a line that its cluster has asked for, or for the commit of an admitted chunk (R38, R98). -/
def walkBlocked (s : State) (cl : Nat) (q : WalkReq) : Bool :=
  match (walkFor q.who q.acc q.addr q.va s).2 with
  | .need l own => (getCoh s l).fills.any (fun f => f.cl == cl) || snoopWaits s none own l
  | _ => false

/-- A walk that goes on: one of the first 16 requests of a cluster (R39). -/
def walkWork (s : State) : Option (Instr × Arg) :=
  s.clusters.findSome? fun c =>
    ((c.2.walks.take 16).find? fun q => !walkBlocked s c.1 q).map fun q => (Instr.pageWalk, { a := q.hart, word := q.addr, kind := q.kind })

/-- An invalidation removes a translation (R40). -/
def invHits (i : Inv) (u : Nat × Nat) : Bool :=
  let bits := u.2 % 64
  let page := u.2 / 64
  match i.form with
  | 0 => (u.1 == i.asid || u.1 == 2 ^ 16) && decide (i.va.toNat / 2 ^ bits = page / 2 ^ bits)
  | 1 => u.1 == i.asid
  | _ => true

def Chunk.usesInv (c : Chunk) (i : Inv) : Bool := c.trans.any (invHits i)

/-- The mark of a chunk that an invalidation waits for, among its translations. -/
def invMark (i : Inv) : Nat × Nat := (2 ^ 17, i.id)

/-- Every condition of an invalidation holds: the four dies have observed it, the commands that it waits for have completed
and the marked chunks have committed or been squashed (R41). -/
def invSettled (s : State) (i : Inv) : Bool :=
  decide (i.dies.length = 4) && i.cmds.all (fun c => c.2 == 0) &&
    (hartIds s).all fun h => !((getHart s h).inflight.any fun c => c.trans.contains (invMark i))

/-- The step of the invalidation sequencer that is due. -/
def invWork (s : State) : Option (Instr × Arg) :=
  (s.invs.findIdx? fun i => !i.done && invSettled s i).map fun k => (Instr.tlbinvComplete, ({ a := k } : Arg))

/-- A cluster with a pending transfer (R61). -/
def transferCluster (s : State) : Option Nat := (s.clusters.find? fun c => !c.2.transfers.isEmpty).map (·.1)

/-- A hart of a retired core that waits for a slot (R404). -/
def relocatable (s : State) : Option Nat :=
  s.relocating.find? fun h => (pickSlot s (getHart s h).arch.hreq (coreOf h) 3).isSome

def one (i : Instr) (a : Nat) : Instr × Arg := (i, { a := a })

/-- The hardware step that is ready to happen, in the order of the log's entry 3. -/
def pendingStep (s : State) : Option (Instr × Arg) :=
  (s.held.head?.map fun y => one .chunkCommit y.hart) <|>
  ((recheckable s).map (one .corniceRecheck)) <|>
  ((presentable s).map (one .chunkPresent)) <|>
  (invWork s) <|>
  (walkWork s) <|>
  ((transferCluster s).map (one .sharedTransferApply)) <|>
  (sfuWork s) <|>
  (engineWork s) <|>
  (scrubWork s) <|>
  (aliveWork s) <|>
  (parkWork s) <|>
  ((dogDue s).map (one .watchdog)) <|>
  ((waitOverHart s).map (one .waitEnd)) <|>
  ((relocatable s).map (one .hartRelocate)) <|>
  (placeable s) <|>
  ((freePosition s).map (one .bringIn)) <|>
  (((hartIds s).find? (canLeave s)).map (one .park)) <|>
  ((parkable s).map (one .park)) <|>
  ((preemptable s).map (one .preempt))

/-- The record of a copy-engine command is written; UI raises the user interrupt (R70, R71, R359, R398). -/
def writeRecord (s : State) (h : Nat) (status count : Nat) : State :=
  let x := getHart s h
  match x.fifo.cmds with
  | [] => s
  | c :: r =>
    let rec_ := w64 (field 31 16 c.cmd.d0 * 2 ^ 48 + status * 2 ^ 40 + count % 2 ^ 40)
    let s := setHart s h { x with fifo := ⟨r, x.fifo.recs ++ [rec_]⟩, uip := x.uip || c.cmd.d0.getLsbD 8 }
    let s := { s with invs := s.invs.map fun i => { i with cmds := i.cmds.map fun k => if k.1 = h then (h, k.2 - 1) else k } }
    pulse s c.asid

/-- The next command of a hart: a code that R67 does not name completes with BADCMD (R68). -/
def runCommand (s : State) (h : Nat) : Move :=
  match (getHart s h).fifo.cmds with
  | c :: _ =>
    match decodeCmd h c.cmd with
    | some i =>
      let op := field 7 0 c.cmd.d0
      if c.prog ≠ 0 ∧ (op = 0x06 ∨ op = 0x07) then .run .rowBlockStep { s with arg := { a := h } } else .run i s
    | none => .go (writeRecord s h 0x04 0)
  | [] => .go s

/-! ## One step -/

/-- The machine after a fatal error answers only the resets (R403). -/
def isReset : Instr → Bool
  | .perst | .mgmtReset => true
  | _ => false

/-- The first due step is taken off the list. -/
def dueStep (s : State) : Option ((Instr × Arg) × State) :=
  match s.events with
  | (t, d) :: r => if t ≤ s.mtime then some (d, { s with events := r }) else none
  | [] => none

/-- A step that is due, or a request that the agents of a die observe on their Tether (R99). -/
def nextDue (s : State) : Option ((Instr × Arg) × State) := dueStep s <|> observed s

/-- What happens next. No time passes while a request that the agents of a die observe in this cycle is left (R99). -/
def choose (s0 : State) : Move :=
  let s := if (observed s0).isSome then s0 else tick s0
  match nextDue s with
  | some ((i, x), s) =>
    if !stepOk i x then .bad else if s.fatal && !isReset i then .go s else .run i { s with arg := x }
  | none =>
    if s.fatal then .go s
    else match pendingStep s with
      | some (i, x) => .run i { s with arg := x }
      | none =>
        let s := askAll s
        let command : Option Move := (commandHart s).map fun h => runCommand { s with engTurn := h } h
        let hart : Option Move := (nextHart s).map fun h => boundary (takeTurn s h)
        ((if s.cycle % 2 = 1 then command <|> hart else hart <|> command)).getD (.go { s with sched := s.sched.drop 1 })

/-! ## A state with an instruction placed (assumption log, entry 9) -/

/-- Core 0 holds a line of the module in its L1 instruction cache, and cluster 0 and the home know of it. -/
def holdCode (s : State) (l : Nat) : State :=
  useL1i (setDir (putL2 s 0 l 0 false .s) l { DirEnt.none with st := .s, sharers := [0] }) 0 l

/-- Hart 0 issuing in M mode at the module's first address, where a header with ENTRY and one word stand, in the L1
instruction cache of its core. -/
def placeWord (s0 : State) (w : Word) : State :=
  let s := focus s0 0
  let pc := s.dev * 2 ^ 42
  let m := writeBytes (writeBytes s.mem pc 8 0xFFC1FFFFFF000080) (pc + 8) 8 w.toNat
  holdCode { s with
    mem := m, stage := 1, events := [], sched := []
    cur := { s.cur with
      slot := .issuing, stall := none, issuedAt := 0
      arch := { s.cur.arch with mode := .m, pc := w64 pc, blk := .header .entry } } } (pc / 128)

/-- Hart 0 with a command at the head of its FIFO. -/
def placeCommand (s0 : State) (d : Cmd) : State :=
  let s := focus s0 0
  { s with
    stage := 1, events := [], sched := []
    cur := { s.cur with
      slot := .issuing
      fifo := ⟨[.new d 0 .s 0], []⟩ } }

end Sys2Proof.Machine
end

