-- ==== Sys2Proof/Machine/MemoryInstr.lean ====
section
/-!
DEFINITION. Scalar memory, atomic, fence, cache-maintenance, engine-window and multicast instructions (R113-R115,
R133-R145, R266-R286).
-/

namespace Sys2Proof.Machine

/-! ## Loads and stores (R269, R270, R273) -/

/-- A scalar load into a register. -/
def loadTo (s : State) (n : Nat) (sg : Bool) (rd : GReg) (a : Word) : Eff :=
  loadEff s true n a fun s x => .ok (setG s rd (extend n sg x))

def execLd (c : Ctl) (rd rb : GReg) (sz : Size) (sg : Bool) (off : BitVec 20) (s : State) : Out :=
  plain c s fun s => loadTo s sz.bytes sg rd (eaM s.cur.arch rb off)
def execSt (c : Ctl) (rs rb : GReg) (sz : Size) (off : BitVec 20) (s : State) : Out :=
  plain c s fun s => storeEff s true sz.bytes (eaM s.cur.arch rb off) (gOf s rs).toNat .ok
def execLdx (c : Ctl) (rd rb rx : GReg) (sz : Size) (sg : Bool) (n : BitVec 3) (s : State) : Out :=
  plain c s fun s => loadTo s sz.bytes sg rd (eaX s.cur.arch rb rx n)
def execStx (c : Ctl) (rs rb rx : GReg) (sz : Size) (n : BitVec 3) (s : State) : Out :=
  plain c s fun s => storeEff s true sz.bytes (eaX s.cur.arch rb rx n) (gOf s rs).toNat .ok

def execLdp (c : Ctl) (rd rb : GReg) (sz : Size) (sg : Bool) (off : BitVec 20) (s : State) : Out :=
  plain c s fun s =>
    let n := sz.bytes
    loadEff s false (2 * n) (eaM s.cur.arch rb off) fun s x =>
      .ok (setG (setG s rd (extend n sg (x % 2 ^ (8 * n)))) (gNext rd) (extend n sg (x >>> (8 * n))))
def execStp (c : Ctl) (rs rb : GReg) (sz : Size) (off : BitVec 20) (s : State) : Out :=
  plain c s fun s =>
    let n := sz.bytes
    let v := (gOf s rs).toNat % 2 ^ (8 * n) + (gOf s (gNext rs)).toNat % 2 ^ (8 * n) * 2 ^ (8 * n)
    storeEff s false (2 * n) (eaM s.cur.arch rb off) v .ok

/-- The line of a prefetch is asked for, unless its cluster holds it: none on an ENG page, in a range, the control region or a
group window, and none that a chunk has marked (R272). -/
def prefetch (s : State) (w : Bool) (x : Acc) : State :=
  let l := x.pa / 128
  let cl := clusterOf s.curId
  let kind : FillKind := if w then .excl else .hint
  if isControl (offOf x.pa) || x.lvl.isSome || (windowOf s x.pa).isSome || meetsMark s kind l || clusterHolds s cl l (hintOf s) w then s
  else askLine s noHart cl l (hintOf s) x.td kind

/-- prf has no architectural effect: where its address translates, its line is fetched for reading or obtained in E (R272;
assumption log, entry 66). -/
def execPrf (c : Ctl) (w : Bool) (rb : GReg) (off : BitVec 20) (s : State) : Out :=
  plain c s fun s =>
    match translate s (whoCur s) ⟨if w then .store else .load, 1, false, .noAccess⟩ (eaM s.cur.arch rb off) with
    | (s, .val x) => .ok (prefetch s w x)
    | (s, .wait k) => .wait k s
    | (s, _) => .ok s

/-- The line is obtained without a read of its memory (R273). -/
def execCzero (c : Ctl) (rb : GReg) (off : BitVec 20) (s : State) : Out :=
  plain c s fun s => storeAs s .zero false 128 (eaM s.cur.arch rb off) 0 .ok

/-! ## System drain (R139-R142) -/

/-- The homes that a drain concerns: the touched set, and the modules of the masked groups in the domain (R140). -/
def drainHomes (s : State) : List Nat :=
  let mates := s.cur.groupMask.flatMap fun g => ((List.range 32).map (· + 32 * g)).filter fun d => !s.domainClear.contains d
  (s.cur.touched ++ mates.filter (fun d => !s.cur.touched.contains d)).filter (· != s.dev)

/-- The probes of a drain leave, each with a number of its own and its timer (R140). -/
def startProbes (s : State) (homes : List Nat) : State :=
  let ask := homes.filter fun d => !s.lostMap.contains d
  let s := ask.foldl (fun s d =>
    let id := s.nextReq
    let s := after (send { s with nextReq := nextId id } { mkMsg s d 0x05 0 with aux := [id] }) (ftoNs s)
      (.probeTimeout, { a := s.curId, b := d, c := id })
    updHart s fun x => { x with drain := x.drain.map fun r => { r with probes := r.probes ++ [(id, d)] } }) s
  updHart s fun x => { x with drain := x.drain.map fun r => { r with lost := homes.filter s.lostMap.contains, sent := true } }

/-- SystemDrain: the posted bytes of the homes concerned are sent, those that wait behind an update once it is
acknowledged, then the probes; the lost homes once every probe has its echo or its timer has expired (R140). -/
def systemDrain (s : State) : State × Option (List Nat) :=
  let s := match s.cur.drain with
    | some _ => s
    | none =>
      let homes := drainHomes s
      let lines := (tabKeys s.peers).filter fun l => homes.contains (lineDev l)
      let s := lines.foldl sendPosted s
      updHart s fun x => { x with drain := some ⟨stillLate s lines, homes, [], [], false⟩ }
  let s := match s.cur.drain with
    | some d =>
      let late := stillLate s d.late
      let s := updHart s fun x => { x with drain := some { d with late := late } }
      if late.isEmpty && !d.sent then startProbes s d.homes else s
    | none => s
  match s.cur.drain with
  | some d => (s, if d.sent && d.probes.isEmpty then some d.lost else none)
  | none => (s, none)

/-- fstat after a system fence (R141). -/
def fstatOf (lost : List Nat) : Word :=
  w64 (Nat.min lost.length 255 * 2 ^ 24 + (if lost.isEmpty then 0 else 2 ^ 16) + lost.foldl Nat.min (lost.headD 0))

/-- The end of a drain: fstat says what it found, and the touched-device set and the group mask are clear (R139, R141). -/
def endDrain (s : State) (lost : List Nat) : State :=
  updHart s fun x => { x with drain := none, touched := [], groupMask := [], arch := { x.arch with fstat := fstatOf lost } }

/-- A drain that stands although what follows it waits: nothing of its end shows (R14, R141). -/
def holdDrain (s t : State) : State :=
  updHart t fun x => { x with
    drain := s.cur.drain, touched := s.cur.touched, groupMask := s.cur.groupMask, arch := { x.arch with fstat := s.cur.arch.fstat } }

/-- Release(5), then the rest, which ends the drain; a trap or a wait of the rest leaves fstat and the set as they were
(R14, R134, R141). The drain is under way from the commit of the older members on, so that an interrupt that arrives in any
part of it is taken after the instruction (R279). -/
def releaseSys (s : State) (k : State → List Nat → Eff) : Eff :=
  drained s fun s =>
    match systemDrain s with
    | (s, some lost) =>
      if !s.cur.ncWait.isEmpty then .wait (.miss (.acks false)) s
      else match k s lost with
      | .trap t u => .trap t (updHart (holdDrain s u) fun x => { x with drain := none })
      | .wait c u => .wait c (holdDrain s u)
      | e => e
    | (s, none) => .wait (.miss .echo) s

/-! ## lda and strl (R135, R141, R271) -/

/-- The level at which an access of a scope acts in a range (R135, R277). -/
def actLevel (sc : Scope) (lvl : Nat) : Nat := Nat.max (scopeLevel sc) lvl

/-- Pending bytes that an instruction reads after its chunk has committed count as read from their home (R139). -/
def touchNow (s : State) (l : Nat) (mask : LineMask) : State :=
  match tabGet none s.peers l with
  | some p => if (p.pend ||| p.fly) &&& mask = 0 then s else updHart s fun x => touchDev x (lineDev l)
  | none => s

/-- A read at the level of a scope inside a non-coherent range, or of home memory, without filling (R135). -/
def readAtLevel (s : State) (sc : Scope) (x : Acc) (lvl n : Nat) (a : Word) : State × Res Nat :=
  let l := x.pa / 128
  let k := actLevel sc lvl
  match reach s .read { x with lvl := some k } (byteMask x.pa n) a with
  | (s, .val _) =>
    if poisoned s l then (s, .trap { code := cPoison, tval := a })
    else (touchNow s l (byteMask x.pa n), .val ((ncData s s.curId k l).toNat >>> (8 * (x.pa % 128)) % 2 ^ (8 * n)))
  | (s, .trap t) => (s, .trap t)
  | (s, .wait c) => (s, .wait c)
  | (s, .again) => (s, .again)

/-- A write at the level of a scope inside a non-coherent range; the hart's copies below it stay clean (R135). -/
def writeAtLevel (s : State) (sc : Scope) (x : Acc) (lvl n v : Nat) : State :=
  let l := x.pa / 128
  let k := actLevel sc lvl
  let d := inLine x.pa v
  let m := byteMask x.pa n
  ncClean (ncStore (ncWays s s.curId k l (hintOf s)) s.curId k l d m (hintOf s == 3)) s.curId lvl k l d m

/-- A load performed after the older members have committed. -/
def ldaLate (s : State) (x : Acc) (n : Nat) (sg : Bool) (sc : Scope) (rd : GReg) (a : Word) : Eff :=
  match x.lvl with
  | some k => thenDo (readAtLevel s sc x k n a) fun s v => .fin (setG s rd (extend n sg v))
  | none => thenDo (readLine s .load x n a) fun s v => .fin (setG s rd (extend n sg v))

def ldaBody (s : State) (rd rb : GReg) (sz : Size) (sg : Bool) (sc : Scope) (off : BitVec 20) : Eff :=
  let a := eaM s.cur.arch rb off
  let n := sz.bytes
  thenDo (translate s (whoCur s) (scalarReq .load n false a) a) fun s x =>
    if sc = .sys ∨ x.lvl.isSome then drained s fun s => ldaLate s x n sg sc rd a
    else thenDo (readLine (noteUsed s x.used) .load x n a) fun s v => .ok (setG s rd (extend n sg v))

def execLda (c : Ctl) (rd rb : GReg) (sz : Size) (sg : Bool) (sc : Scope) (off : BitVec 20) (s : State) : Out :=
  if sc = .sys then serial c s fun s => ldaBody s rd rb sz sg sc off
  else plain c s fun s => ldaBody s rd rb sz sg sc off

/-- A write that commits at once, in a chunk of its own. -/
def storeNow (s : State) (x : Acc) (n v : Nat) (a : Word) : Eff :=
  thenDo (writeLine s false .store x n v a) fun s _ => .fin (commitOpen s)

/-- The store of strl once its release has been performed. -/
def strlWrite (s : State) (x : Acc) (sc : Scope) (n v : Nat) (a : Word) : Eff :=
  match x.lvl with
  | some k =>
    thenDo (reach s .store { x with lvl := some (actLevel sc k) } (byteMask x.pa n) a) fun s _ => .fin (writeAtLevel s sc x k n v)
  | none => storeNow s x n v a

/-- strl: on coherent memory below system scope an ordinary member, unless the release has non-coherent stores to await
(R134, R271). -/
def strlBody (s : State) (rs rb : GReg) (sz : Size) (sc : Scope) (off : BitVec 20) : Eff :=
  let a := eaM s.cur.arch rb off
  let n := sz.bytes
  let v := (gOf s rs).toNat % 2 ^ (8 * n)
  thenDo (translate s (whoCur s) (scalarReq .store n false a) a) fun s x =>
    if (windowOf s x.pa).isSome then .trap { code := cPerm, tval := a } s
    else if sc = .sys then releaseSys s fun s lost => strlWrite (endDrain s lost) x sc n v a
    else if x.lvl.isSome || owesNc s then released s fun s => strlWrite s x sc n v a
    else thenDo (writeLine (noteUsed s x.used) false .store x n v a) fun s _ => .ok s

def execStrl (c : Ctl) (rs rb : GReg) (sz : Size) (sc : Scope) (off : BitVec 20) (s : State) : Out :=
  if sc = .sys then serial c s fun s => strlBody s rs rb sz sc off
  else plain c s fun s => strlBody s rs rb sz sc off

/-! ## Cache maintenance (R113-R115, R135, R280) -/

/-- What the line's copies come to. -/
inductive Maint | clean | remove
  deriving DecidableEq, Repr

/-- Something of the coherence protocol is under way for a line. -/
def inFlux (s : State) (l : Nat) : Bool :=
  let c := getCoh s l
  c.busy.isSome || c.wb.isSome || c.fills.any (·.active)

/-- Dirty copies in the caches become clean (R280). -/
def cleanCaches (s : State) (l : Nat) : State :=
  modCoh s l fun c => { c with caches := c.caches.map fun k => (k.1, match k.2 with | .m => .e | .o => .s | x => x) }

/-- The module's copies of a line of its own memory are written back, and removed or kept clean. A write-back that a hold of
the stack delays is awaited (R92, R280). -/
def maintainOwn (s : State) (m : Maint) (l : Nat) : State :=
  let dirty := (getCoh s l).caches.any (fun c => decide (512 ≤ c.1) && (c.2 == .m || c.2 == .o))
  let id := s.nextReq
  let s := if !dirty then s
    else if memHeld s l then
      writeBackFor (updHart { s with nextReq := nextId id } fun x => { x with ncWait := x.ncWait ++ [id] }) l false (.store id)
    else writeBack s l
  match m with
  | .clean => modCoh (cleanCaches s l) l fun c => { c with
      dir := if c.dir.rown then c.dir else match c.dir.st with
        | .m => { c.dir with st := .e }
        | .o => { c.dir with st := .s, owner := 0, sharers := setInsert c.dir.sharers c.dir.owner }
        | _ => c.dir }
  | .remove =>
    let s := dropAll (snoop s none true l) l
    modCoh s l fun c => { c with
      dir := if c.dir.rown || c.dir.bcast || !c.dir.rem.isEmpty then
          { c.dir with sharers := [], owner := 0, st := if c.dir.rown then c.dir.st else .s }
        else DirEnt.none }

/-- Lines of another home: a write-back travels as PWb and is awaited; posted bytes stay queued and are sent as they
would be; a dirty orphaned line goes to the salvage ring (R113, R115, R280). -/
def maintainPeer (s : State) (m : Maint) (l : Nat) : State :=
  match tabGet none s.peers l with
  | none => s
  | some p =>
    let dirty := p.st == .m || p.st == .o
    let put (s : State) (q : Option PeerLine) : State := { s with peers := tabPut none s.peers l q }
    let id := s.nextReq
    let s := if !dirty then s
      else if p.orphan then salvage s l p
      else updHart (request s (writeBackMsg s l p (m == .clean)) [s.curId]) fun x => { x with ncWait := x.ncWait ++ [id] }
    match m with
    | .clean => put (cleanCaches s l) (some { p with st := if p.st = .m then .e else if p.st = .o then .s else p.st })
    | .remove =>
      let s := dropAll (snoop s none true l) l
      let kept := p.pend ||| p.fly
      setDir (put s (if kept = 0 then none else some { p with st := .s, valid := kept })) l DirEnt.none

/-! ## Atomics (R211, R274-R277) -/

/-- The operation of an atomic on w-bit values (R274). -/
def amoOf (op : AmoOp) (w y x : Nat) : Nat :=
  match op with
  | .add => (y + x) % 2 ^ w
  | .and => y &&& x
  | .or => y ||| x
  | .xor => y ^^^ x
  | .min => if signExt w y < signExt w x then y else x
  | .max => if signExt w y < signExt w x then x else y
  | .minu => Nat.min y x
  | .maxu => Nat.max y x
  | .swap => x

/-- The release of an atomic in a non-coherent range, which at system scope drains (R134, R277). -/
def atomicRelease (s : State) (sc : Scope) (k : State → Eff) : Eff :=
  if sc = .sys then releaseSys s fun s _ => k (updHart s fun x => { x with drain := none }) else released s k

/-- The double words that an atomic on n bytes has left zero: counters that nodes may wait for (R211). -/
def zeroedBy (s : State) (pa n : Nat) : List CommitOp :=
  let words := if pa / 8 = (pa + n - 1) / 8 then [pa / 8 * 8] else [pa / 8 * 8, pa / 8 * 8 + 8]
  (words.filter fun w => valueAt s none w 8 == 0).map .atom

/-- An atomic on coherent memory of the module, as a member of its chunk; one that writes nothing needs no room for a
written line (R49, R118, R275, R277). -/
def atomicMember (s : State) (x : Acc) (n : Nat) (a : Word) (f : Nat → Option Nat) (k : State → Nat → State) : Eff :=
  let l := x.pa / 128
  thenDo (reach (noteUsed s x.used) .atomic x (byteMask x.pa n) a) fun s _ =>
    if poisoned s l then .trap { code := cPoison, tval := a } s
    else
      let y := valueAt s none x.pa n
      match f y with
      | none => .ok (k (keepRead s false none l) y)
      | some z =>
        thenDo (withRoom s false [l] fun s => (putAcc (markRead s l) false x n z, .val ())) fun s _ =>
          .ok (k (modChunk s fun c => { c with ops := c.ops ++ zeroedBy s x.pa n }) y)

/-- An atomic at home level on a line of another home inside a range: the module obtains the line in M, performs the atomic on
its copy, and writes the line back at once, so that no other atomic at that level comes between; the hart's own copies below
receive the bytes (R135, R277; assumption log, entry 87). -/
def atomicHome (s : State) (x : Acc) (lvl n : Nat) (a : Word) (f : Nat → Option Nat) (k : State → Nat → State) : Eff :=
  let l := x.pa / 128
  let mask := byteMask x.pa n
  if s.lostMap.contains (lineDev l) then .trap { code := cLost, tval := a } s
  else thenDo (reach s .atomic { x with lvl := none } mask a) fun s _ =>
    if poisoned s l then .trap { code := cPoison, tval := a } s
    else
      let y := valueAt s none x.pa n
      match f y with
      | some z =>
        let s := maintainPeer (commitPeer s s.curId l false (inLine x.pa z) mask) .remove l
        .fin (k (updHart (ncClean s s.curId lvl 2 l (inLine x.pa z) mask) fun x => { x with begun := true }) y)
      | none => .fin (k s y)

/-- A read and a write as one step: `f` gives the value written, or none where nothing is written (R274-R277). -/
def rmw (s : State) (n : Nat) (sc : Scope) (a : Word) (f : Nat → Option Nat) (k : State → Nat → State) : Eff :=
  thenDo (translate s (whoCur s) (scalarReq .atomic n false a) a) fun s x =>
    let l := x.pa / 128
    let mask := byteMask x.pa n
    if (windowOf s x.pa).isSome then .trap { code := cPerm, tval := a } s
    else match x.lvl with
    | some lvl =>
      if lineDev l ≠ s.dev ∧ 2 ≤ actLevel sc lvl then atomicRelease s sc fun s => atomicHome s x lvl n a f k
      else atomicRelease s sc fun s => thenDo (reach s .atomic { x with lvl := some (actLevel sc lvl) } mask a) fun s _ =>
        thenDo (readAtLevel s sc x lvl n a) fun s y =>
          let s := match f y with | some z => writeAtLevel s sc x lvl n z | none => s
          .fin (k s y)
    | none =>
      if lineDev l ≠ s.dev then
        drained s fun s => thenDo (reach s .atomic x mask a) fun s _ =>
          if poisoned s l then .trap { code := cPoison, tval := a } s
          else
            let y := valueAt s none x.pa n
            let s := touchNow s l mask
            let s := match f y with | some z => commitPeer s s.curId l false (inLine x.pa z) mask | none => s
            .fin (k s y)
      else atomicMember s x n a f k

def execAmo (c : Ctl) (op : AmoOp) (rd rs rb : GReg) (sz : Size) (sg : Bool) (sc : Scope) (s : State) : Out :=
  plain c s fun s =>
    let n := sz.bytes
    let x := (gOf s rs).toNat % 2 ^ (8 * n)
    rmw s n sc (gOf s rb) (fun y => some (amoOf op (8 * n) y x)) fun s y => setG s rd (extend n sg y)

def execCas (c : Ctl) (rd rc rn rb : GReg) (sz : Size) (sg : Bool) (sc : Scope) (s : State) : Out :=
  plain c s fun s =>
    let n := sz.bytes
    let cmp := (gOf s rc).toNat % 2 ^ (8 * n)
    let new := (gOf s rn).toNat % 2 ^ (8 * n)
    rmw s n sc (gOf s rb) (fun y => if y = cmp then some new else none) fun s y => setG s rd (extend n sg y)

def execCasp (c : Ctl) (rd rc rn rb : GReg) (sc : Scope) (s : State) : Out :=
  plain c s fun s =>
    let two (r : GReg) : Nat := (gOf s r).toNat + (gOf s (gNext r)).toNat * 2 ^ 64
    let cmp := two rc
    let new := two rn
    rmw s 16 sc (gOf s rb) (fun y => if y = cmp then some new else none) fun s y =>
      setG (setG s rd (w64 y)) (gNext rd) (w64 (y / 2 ^ 64))

/-! ## Fences (R278, R279) -/

/-- Release(s) and Acquire(s) after the chunk has committed; nothing fetched beyond the fence is kept (R129, R134, R278). -/
def execFence (c : Ctl) (_sc : Scope) (s : State) : Out := serial c s fun s => released s .ok

def execSysfence (c : Ctl) (rd : GReg) (s : State) : Out :=
  serial c s fun s => releaseSys s fun s lost => .ok (setG (endDrain s lost) rd (if lost.isEmpty then 0 else 1))

/-! ## cwb, cinv, cwbi (R280) -/

/-- cwb, cinv and cwbi after their chunk has committed; the instruction completes when every write-back that it started has
been acknowledged (R280). -/
def maintain (s : State) (kind : AccKind) (wb inv : Bool) (rb : GReg) (sc : Scope) (off : BitVec 20) : Eff :=
  let a := eaM s.cur.arch rb off
  let complete (s : State) : Eff :=
    if s.cur.ncWait.isEmpty && s.salvAcks.isEmpty then .ok s else .wait (.miss (.acks true)) (updHart s fun x => { x with begun := true })
  if s.cur.begun then complete s
  else thenDo (translate s (whoCur s) ⟨kind, 1, false, .noAccess⟩ a) fun s x =>
    let l := x.pa / 128
    let h := s.curId
    if isControl (offOf x.pa) then .ok s
    else if (windowOf s x.pa).isSome then .trap { code := cPerm, tval := a } s
    else match x.lvl with
    | some lvl =>
      let s := if wb then ncWriteBack s h lvl (scopeLevel sc) l else s
      complete (if inv then ncInvalidate s h lvl (scopeLevel sc) l else s)
    | none =>
      if snoopWaits s (some h) inv l || inFlux s l then .wait .commit s
      else
        let m := if inv then Maint.remove else Maint.clean
        complete (if lineDev l = s.dev then maintainOwn s m l else maintainPeer s m l)

def execCwb (c : Ctl) (rb : GReg) (sc : Scope) (off : BitVec 20) (s : State) : Out :=
  serial c s fun s => maintain s .load true false rb sc off
def execCinv (c : Ctl) (rb : GReg) (sc : Scope) (off : BitVec 20) (s : State) : Out :=
  serial c s fun s => maintain s .store false true rb sc off
def execCwbi (c : Ctl) (rb : GReg) (sc : Scope) (off : BitVec 20) (s : State) : Out :=
  serial c s fun s => maintain s .store true true rb sc off

/-! ## Engine windows (R64, R65, R281-R283) -/

/-- The check of an engine-window address (R33, R35, R64). -/
def engineWindow (s : State) (kind : AccKind) (a : Word) : State × Res Acc :=
  translate s (whoCur s) ⟨kind, 8, decide (a.toNat % 4096 ≠ 0), .refused⟩ a

/-- A command is delivered to the hart's FIFO after Release(4), or the hart waits for an entry (R65, R69, R281). With it the
engine records the pusher's address space, mode and root table (assumption log, entry 43). -/
def pushCommand (s : State) (d : Cmd) (a : Word) : Eff :=
  let x := s.cur
  if freeEntries x = 0 then
    if infl x = 0 then .trap { code := cFifo, tval := a } s else .wait .fifoFree s
  else released s fun s => .ok (updHart s fun x => { x with fifo := { x.fifo with
    cmds := x.fifo.cmds ++ [.new d x.arch.asid x.arch.mode x.arch.ptroot] } })

def execEpush (c : Ctl) (rs rb : GReg) (off : BitVec 20) (s : State) : Out :=
  serial c s fun s =>
    let a := eaM s.cur.arch rb off
    let d (i : Nat) : Word := gOf s (rs + BitVec.ofNat 6 i)
    thenDo (engineWindow s .engWrite a) fun s _ => pushCommand s ⟨d 0, d 1, d 2, d 3, d 4, d 5, d 6, d 7⟩ a

def execEpop (c : Ctl) (rd rb : GReg) (off : BitVec 20) (s : State) : Out :=
  serial c s fun s =>
    let a := eaM s.cur.arch rb off
    thenDo (engineWindow s .engRead a) fun s _ =>
      match s.cur.fifo.recs with
      | r :: t => .ok (setG (updHart s fun x => { x with fifo := { x.fifo with recs := t } }) rd r)
      | [] => if infl s.cur = 0 then .trap { code := cFifo, tval := a } s else .wait .fifoRecord s

/-- The status word of a hart's FIFOs (R65). -/
def fifoStatus (x : Hart) : Word := w64 (freeEntries x * 65536 + infl x * 256 + doneRecs x)

def execEpeek (c : Ctl) (rd rb : GReg) (off : BitVec 20) (s : State) : Out :=
  serial c s fun s =>
    thenDo (engineWindow s .engRead (eaM s.cur.arch rb off)) fun s _ => .ok (setG s rd (fifoStatus s.cur))

/-! ## Multicast (R143-R145, R167, R284-R286) -/

/-- The operand of a multicast operation: offset of the line in the window, the bytes and their mask (R168). -/
def groupOperand (s : State) (grp pa n v : Nat) : Nat × LineMask × LineData :=
  let o := offOf pa - (getGroup s grp).base * 65536
  (o / 128 * 128, byteMask o n, inLine o (v % 2 ^ (8 * n)))

def execMst (c : Ctl) (rs rb : GReg) (sz : Size) (off : BitVec 20) (s : State) : Out :=
  plain c s fun s =>
    let a := eaM s.cur.arch rb off
    let n := sz.bytes
    thenDo (translate s (whoCur s) (scalarReq .store n false a) a) fun s x =>
      match windowOf s x.pa with
      | none => .trap { code := cPerm, tval := a } s
      | some g =>
        let (o, m, d) := groupOperand s g x.pa n (gOf s rs).toNat
        let s := noteUsed s x.used
        .ok (modChunk s fun k => { k with ops := k.ops ++ [.mst g o m d 0 sz.code.toNat] })

def execMamo (c : Ctl) (op : AmoOp) (rd rs rb : GReg) (sz : Size) (sg : Bool) (s : State) : Out :=
  serial c s fun s =>
    let a := gOf s rb
    let n := sz.bytes
    match s.cur.mamo with
    | some (_, some y) => .ok (setG (updHart s fun x => { x with mamo := none }) rd (extend n sg y.toNat))
    | some (_, none) => .wait (.miss .mamo) s
    | none =>
      thenDo (translate s (whoCur s) (scalarReq .atomic n false a) a) fun s x =>
        match windowOf s x.pa with
        | none => .trap { code := cPerm, tval := a } s
        | some g =>
          let (o, m, d) := groupOperand s g x.pa n (gOf s rs).toNat
          let id := s.nextReq
          let s := holdOp s g ⟨s.curId, 0, 2, op.code.toNat, sz.code.toNat + (if sg then 4 else 0), o, m, d, none, false⟩
          .wait (.miss .mamo) (updHart s fun x => { x with mamo := some (id, none) })

def execMseq (c : Ctl) (rd rb : GReg) (s : State) : Out :=
  plain c s fun s =>
    let a := gOf s rb
    thenDo (translate s (whoCur s) ⟨.load, 1, false, .refused⟩ a) fun s x =>
      match windowOf s x.pa with
      | none => .trap { code := cPerm, tval := a } s
      | some g =>
        let n := (getGroup s g).applied
        let s := modChunk (noteUsed s x.used) fun k => { k with mseqs := k.mseqs ++ [(g, n)] }
        .ok (setG s rd (w64 n))

end Sys2Proof.Machine
end

