-- ==== Sys2Proof/Machine/TileMath.lean ====
section
/-!
DEFINITION. Tiles as values: elements, block scales, descriptors, the tile dot product, element-wise arithmetic and
the error-carrying quantisation (R4, R55, R178, R179, R189-R196, R324-R327, R335-R341).
-/

namespace Sys2Proof.Machine

/-! ## Shapes and elements (R55, R178, R190, R326) -/

/-- The byte that fills a row of zero elements (R179, R324). -/
def zeroByte : TFmt → Nat | .dpt8 => 0x08 | .spt4 => 0x77 | _ => 0

/-- A row of zero elements. -/
def zeroRow (f : TFmt) (rb : Nat) : TRow := BitVec.ofNat 2048 (zeroByte f * ((2 ^ (8 * rb) - 1) / 255))

/-- The descriptor that TCFG and TZERO write (R327, R328). -/
def freshDesc (f : TFmt) : BitVec 16 := BitVec.ofNat 16 (0x7F00 + f.code.toNat)

def Tile.rows (t : Tile) : Nat := t.data.length
/-- Blocks of a row. -/
def Tile.blocks (t : Tile) : Nat := t.rb / 64
/-- Elements of a row. -/
def Tile.cols (t : Tile) : Nat := 8 * t.rb / t.fmt.width
/-- Units of a tile (R55). -/
def Tile.units (t : Tile) : Nat := ceilDiv (t.rows * t.rb) 1024

/-- A tile of zero elements (R327). -/
def Tile.blank (rows rb : Nat) (f : TFmt) (desc : Bool) : Tile where
  rb := rb
  fmt := f
  desc := desc
  scale := 0x7F
  poison := false
  data := List.replicate rows (zeroRow f rb)
  descs := if desc then List.replicate (rows * (rb / 64)) (freshDesc f) else []

/-- Row i; a row beyond the tile reads as zero bits. -/
def Tile.row (t : Tile) (i : Nat) : TRow := t.data.getD i 0
/-- The descriptor of block j of row i. -/
def Tile.descOf (t : Tile) (i j : Nat) : BitVec 16 := t.descs.getD (i * t.blocks + j) (freshDesc t.fmt)
/-- The format of a block (R190). -/
def Tile.blockFmt (t : Tile) (i j : Nat) : TFmt := if t.desc then TFmt.ofCode ((t.descOf i j).setWidth 4) else t.fmt
/-- The scale of a block (R189, R326). -/
def Tile.blockScale (t : Tile) (i j : Nat) : Nat := if t.desc then ((t.descOf i j).toNat >>> 8) % 256 else t.scale.toNat

/-- Element code j of a row in a format of width w (R178). -/
def elemCode (r : TRow) (w j : Nat) : Nat := (r.toNat >>> (w * j)) % 2 ^ w

/-- A row of elements of width w, element 0 first. -/
def packRow (w : Nat) (l : List Nat) : TRow := BitVec.ofNat 2048 (packNat w l)

/-- The value of an element code in a tile format and the flags of reading it; FZ reaches FP32, BF16 and FP16 (R183,
R184, R192). -/
def readElem (f : TFmt) (fz : Bool) (code : Nat) : FVal × Flags :=
  match f.num with
  | .flt g => let x := g.read fz code; (x, flIf x.isSig flNV)
  | n => n.decode code

/-- The value of element (i, j), which includes its block scale; a block of scale 0xFF reads as a quiet NaN (R189,
R326). -/
def Tile.elem (t : Tile) (fz : Bool) (i j : Nat) : FVal × Flags :=
  let w := t.fmt.width
  let b := j * w / 512
  let s := t.blockScale i b
  if s = 0xFF then (.nan false, 0)
  else
    let (x, fl) := readElem (t.blockFmt i b) fz (elemCode (t.row i) w j)
    (x.scale ((s : Int) - 127), fl)

/-- Rounding into FP32 with the output flush (R186, R192). -/
def toF32 (mode : RMode) (fz : Bool) (r : FVal × Flags) : Nat × Flags := fmtF32.finish mode fz false r

/-! ## Operand pairs (R4, R191, R335) -/

/-- The cycles of a full TMMA of two formats; none where the pair is not allowed. -/
def pairCycles (a b : TFmt) : Option Nat :=
  let special (f : TFmt) : Bool := f == .dpt8 || f == .spt4
  if a.width = 2 ∨ b.width = 2 then
    if (a = .trn2 ∧ (b.width = 8 ∨ b.width = 4)) ∨ (b = .trn2 ∧ (a.width = 8 ∨ a.width = 4)) then some 16 else none
  else if a.width ≠ b.width then none
  else if special a || special b then some 16
  else if a.width = 32 then some 64
  else some 32

/-- Elements of a group of R192: a quarter of K for the wider operand. -/
def groupLen (a b : Tile) : Nat := 512 / Nat.max a.fmt.width b.fmt.width

/-- The formats of the blocks of a tile that a group reads. -/
def groupFmts (t : Tile) (k g : Nat) : List TFmt :=
  let b := g * k * t.fmt.width / 512
  if t.blocks ≤ b then [] else (List.range t.rows).map fun i => t.blockFmt i b

/-- The cycles of the slowest pair of blocks that contribute to one group; none where some pair is not allowed (R191,
R335). -/
def tileCycles (a b : Tile) : Option Nat :=
  let k := groupLen a b
  let pairs := (List.range 4).flatMap fun g => (groupFmts a k g).flatMap fun x => (groupFmts b k g).map fun y => pairCycles x y
  if pairs.all Option.isSome then some ((pairs.map (·.getD 0)).foldl Nat.max 16) else none

/-! ## The dot product (R192, R193) -/

/-- The elements of group g of row i: zero values outside the tile's rows or row bytes. -/
def groupElems (t : Tile) (fz : Bool) (k i g : Nat) : List (FVal × Flags) :=
  if t.rows ≤ i ∨ t.rb * 8 ≤ g * k * t.fmt.width then List.replicate k (FVal.zero false, 0)
  else (List.range k).map fun n => t.elem fz i (g * k + n)

/-- What the products of a block come to. -/
structure Dot where
  nan : Bool
  pinf : Bool
  ninf : Bool
  sum : Int
  exp : Int
  allNeg : Bool                    -- every product so far is -0
  deriving DecidableEq, Repr

/-- One more product. -/
def Dot.add (d : Dot) (p : FVal) : Dot :=
  match p with
  | .nan _ => { d with nan := true }
  | .inf n => { d with pinf := d.pinf || !n, ninf := d.ninf || n }
  | .fin n m e =>
    if m = 0 then { d with allNeg := d.allNeg && n }
    else
      let e0 := min d.exp e
      { d with sum := d.sum * 2 ^ (d.exp - e0).toNat + scaledInt n m e e0, exp := e0, allNeg := false }

/-- The exact result of a block before rounding (R193). -/
def Dot.result (d : Dot) : FVal × Flags :=
  if d.nan then (.nan false, 0)
  else if d.pinf && d.ninf then (.nan false, flNV)
  else if d.pinf then (.inf false, 0)
  else if d.ninf then (.inf true, 0)
  else if d.sum = 0 then (FVal.zero d.allNeg, 0)
  else (.fin (decide (d.sum < 0)) d.sum.natAbs d.exp, 0)

/-- The block result bg of two groups of elements, rounded once (R192, R193). -/
def blockDot (fz : Bool) (x y : List (FVal × Flags)) : Nat × Flags :=
  let step (acc : Dot × Flags) (p : (FVal × Flags) × (FVal × Flags)) : Dot × Flags :=
    let (v, fl) := FVal.mul p.1.1 p.2.1
    (acc.1.add v, acc.2 ||| fl ||| p.1.2 ||| p.2.2)
  let (d, fl) := (List.zip x y).foldl step (⟨false, false, false, 0, 0, true⟩, 0)
  let (r, f2) := d.result
  toF32 .rne fz (r, fl ||| f2)

/-- One addition of a block result to the accumulator (R192). -/
def accumulate (fz : Bool) (acc : FVal × Nat × Flags) (bg : Nat × Flags) : FVal × Nat × Flags :=
  let (v, f1) := FVal.add .rne acc.1 (fmtF32.decode bg.1)
  let (c, f2) := toF32 .rne fz (v, f1)
  (fmtF32.decode c, c, acc.2.2 ||| bg.2 ||| f2)

/-- The accumulator element as the product starts from it: its value with the tile scale, flushed (R192, R326). -/
def accStart (c : Tile) (fz : Bool) (i j : Nat) : FVal × Flags :=
  let (x, fl) := c.elem false i j
  (if fz && fmtF32.subnormal x then x.flush else x, fl)

/-- Output element (i, j): the four blocks added in ascending order. -/
def dotElem (fz : Bool) (c : FVal × Flags) (x y : List (List (FVal × Flags))) : Nat × Flags :=
  let r := ((List.zip x y).map fun p => blockDot fz p.1 p.2).foldl (accumulate fz) (c.1, 0, c.2)
  (r.2.1, r.2.2)

/-- Which output elements a multiply computes: all of them, or those of the triangle of R336 with the rest filled or
kept. -/
inductive Cell | compute | fill | keep
  deriving DecidableEq, Repr

/-- The triangle of R336; no diagonal computes every element. -/
def cellOf (diag : Option Int) (i j : Nat) : Cell :=
  match diag with
  | none => .compute
  | some d =>
    let hi : Int := (i / 16 : Nat)
    let hj : Int := (j / 16 : Nat)
    if d < 16 * hj - (16 * hi + 15) then .keep
    else if d < (j : Int) - i then .fill
    else .compute

/-- Sub-tiles that a triangle does not skip (R336). -/
def subTiles (diag : Option Int) : Nat :=
  ((List.range 16).filter fun n => cellOf diag (16 * (n / 4)) (16 * (n % 4)) != .keep).length

/-- A skipped element keeps its value, which includes the tile scale that the multiply sets to 0x7F (R326, R336). Where FP32
does not hold that value, the spec states no encoding: `free` stands there (assumption log, entry 60). -/
def keptCode (c : Tile) (free i j : Nat) : Nat :=
  if c.scale = 0x7F then elemCode (c.row i) 32 j
  else
    let code := elemCode (c.row i) 32 j
    match (c.elem false i j).1 with
    | .fin n m e =>
      let (y, fl) := fmtF32.round .rne (.fin n m e)
      if fl = 0 then fmtF32.encode y else free % 2 ^ 32
    | .inf _ => code
    | .nan _ => if (fmtF32.decode code).isNaN then code else fmtF32.canonNaN

/-- C += A B^T, whole or in the triangle of a diagonal, with the flags (R192, R335, R336). A triangle that skips every
sub-tile leaves C as it is (R336). `free` gives the free value of each element. -/
def multiply (c a b : Tile) (fz : Bool) (diag : Option Int) (fill : Nat) (free : Nat → Nat) : Tile × Flags :=
  if diag.isSome && subTiles diag == 0 then (c, 0)
  else
    let k := groupLen a b
    let ga := (List.range c.rows).map fun i => (List.range 4).map fun g => groupElems a fz k i g
    let gb := (List.range c.cols).map fun j => (List.range 4).map fun g => groupElems b fz k j g
    let cells := (List.range c.rows).map fun i => (List.range c.cols).map fun j =>
      match cellOf diag i j with
      | .compute => dotElem fz (accStart c fz i j) (ga.getD i []) (gb.getD j [])
      | .fill => (fill, 0)
      | .keep => (keptCode c (free (64 * i + j)) i j, 0)
    ({ c with scale := 0x7F, poison := false, data := cells.map fun r => packRow 32 (r.map (·.1)) },
      unionFlags (cells.map fun r => unionFlags (r.map (·.2))))
where
  unionFlags (l : List Flags) : Flags := l.foldl (· ||| ·) 0

/-! ## Element-wise operations (R337, R338, R339, R341) -/

/-- A tile of a shape with every element computed, and the union of the flags. -/
def mapTile (rows cols rb : Nat) (f : TFmt) (g : Nat → Nat → Nat × Flags) : Tile × Flags :=
  let cells := (List.range rows).map fun i => (List.range cols).map fun j => g i j
  ({ Tile.blank rows rb f false with data := cells.map fun r => packRow f.width (r.map (·.1)) },
    (cells.flatMap fun r => r.map (·.2)).foldl (· ||| ·) 0)

/-- The sum, element by element (R337). -/
def addTiles (d x y : Tile) (mode : RMode) (fz : Bool) : Tile × Flags :=
  mapTile d.rows d.cols d.rb .fp32 fun i j =>
    let (a, f1) := x.elem fz i j
    let (b, f2) := y.elem fz i j
    let (r, f3) := FVal.add mode a b
    toF32 mode fz (r, f1 ||| f2 ||| f3)

/-- The product with a factor, element by element (R337). -/
def scaleTile (d x : Tile) (v : FVal) (mode : RMode) (fz : Bool) : Tile × Flags :=
  mapTile d.rows d.cols d.rb .fp32 fun i j =>
    let (a, f1) := x.elem fz i j
    let (r, f2) := FVal.mul a v
    toF32 mode fz (r, f1 ||| f2)

/-- The formats of 8 and 4 bits that FZ does not reach, as the target of a conversion (R183). -/
def narrowFloat (f : TFmt) : Bool := f == .e4m3 || f == .e5m2 || f == .e3m4 || f == .e2m1

/-- Element-by-element conversion (R338). FZ flushes neither the source nor the result of a conversion into an 8-bit or
4-bit floating-point format (R183). -/
def convertTile (d x : Tile) (mode : RMode) (sat fz : Bool) : Tile × Flags :=
  mapTile d.rows d.cols d.rb d.fmt fun i j =>
    let (v, f1) := x.elem (fz && !narrowFloat d.fmt) i j
    let (c, f2) := d.fmt.num.conv mode sat v
    match d.fmt.num with
    | .flt g => let (y, f3) := g.flushOut fz (g.decode c); (g.encode y, f1 ||| f2 ||| f3)
    | _ => (c, f1 ||| f2)

/-- The transpose (R339). -/
def transposeTile (d x : Tile) : Tile :=
  let w := x.fmt.width
  { (mapTile d.rows d.cols d.rb x.fmt fun i j => (elemCode (x.row j) w i, 0)).1 with scale := x.scale }

/-- An ordered sum from +0, rounded at each step without a flush (R186, R341); the flush of R183 is the result's. -/
def sumElems (mode : RMode) (fz : Bool) (l : List (FVal × Flags)) : Nat × Flags :=
  fmtF32.write fz (l.foldl (fun acc x =>
    let (y, f1) := FVal.add mode acc.1 x.1
    let (z, f2) := fmtF32.round mode y
    (z, acc.2 ||| x.2 ||| f1 ||| f2)) (FVal.zero false, 0))

/-- The maximum from -inf, unrounded. Where FP32 does not hold it, since a block scale moved it out of range, the spec
states no result: `free` stands there (R341; assumption log, entry 30). -/
def maxElems (fz : Bool) (free : Nat) (l : List (FVal × Flags)) : Nat × Flags :=
  let r := l.foldl (fun acc x => let (y, fl) := FVal.pick true acc.1 x.1; (y, acc.2 ||| fl ||| x.2)) (FVal.inf true, 0)
  if (fmtF32.round .rne r.1).2 = 0 then fmtF32.write fz r else (free % 2 ^ 32, r.2)

/-- The 64 lanes of a reduction along rows or down columns (R341). -/
def reduceTile (x : Tile) (col : Bool) (f : Nat → List (FVal × Flags) → Nat × Flags) (fz : Bool) : List (Nat × Flags) :=
  (List.range 64).map fun k =>
    if col then
      if k < x.cols then f k ((List.range x.rows).map fun i => x.elem fz i k) else (0, 0)
    else if k < x.rows then f k ((List.range x.cols).map fun j => x.elem fz k j) else (0, 0)

/-! ## Error-carrying quantisation (R194, R195) -/

/-- NaNCode(f) (R194). -/
def nanCode (f : TFmt) : Nat :=
  match f.num with
  | .flt g => g.canonNaN
  | n => n.zero

/-- M(f) (R195). -/
def maxMagnitude (f : TFmt) : FVal :=
  match f.num with
  | .flt g => g.maxVal false
  | .int sg w => .fin false (intMax sg w).natAbs 0
  | .dpt8 => .fin false 2 0
  | .spt4 => FVal.one
  | .trn2 => FVal.one

/-- The magnitude of a value. -/
def FVal.abs : FVal → FVal
  | .fin _ m e => .fin false m e
  | .inf _ => .inf false
  | x => x

/-- The scale code that automatic scaling gives a block, and the flags (R195). -/
def autoScale (f : TFmt) (l : List FVal) : Nat × Flags :=
  let bad := l.any fun x => match x with | .fin .. => false | _ => true
  if bad then (0xFF, flNV)
  else
    let mx := l.foldl (fun b x => if b.lt x.abs then x.abs else b) (FVal.zero false)
    let lim := maxMagnitude f
    (((List.range 255).find? fun (s : Nat) => !lim.lt (mx.scale (127 - (s : Int)))).getD 254, 0)

/-- One element of R194 in a block of a scale: its code, the residue it leaves, the flags. With k = 0 the product k * e is a
zero of e's sign, and a NaN where e is a NaN or an infinity (assumption log, entry 29). -/
def quantElem (f : TFmt) (k : KFactor) (scale : Nat) (x : FVal) (e : Nat) : Nat × Nat × Flags :=
  if scale = 0xFF then (nanCode f, e, 0)
  else
    let ex : Int := (scale : Int) - 127
    let (s, f0) := match k with
      | .zero => FVal.add .rne x (FVal.mul (FVal.zero false) (fmtF32.decode e)).1
      | .half => FVal.add .rne x ((fmtF32.decode e).scale (-1))
      | .one => FVal.add .rne x (fmtF32.decode e)
    let (v, f1) := fmtF32.round .rne s
    match v with
    | .fin .. =>
      let (y, f2) := f.num.conv .rne true (v.scale (-ex))
      let back := (readElem f false y).1.scale ex
      let (d, f3) := FVal.add .rne v back.neg
      let (r, f4) := fmtF32.round .rne d
      (y, fmtF32.encode r, f0 ||| f1 ||| f2 ||| f3 ||| f4)
    | _ => (nanCode f, 0, f0 ||| f1 ||| flNV)

/-- The elements of a row quantised along the row: each takes the residue that the one before it leaves. -/
def quantAlong (f : TFmt) (k : KFactor) (scales : List Nat) (per : Nat) : List FVal → Nat → Nat → List (Nat × Flags) × Nat
  | [], _, e => ([], e)
  | x :: r, j, e =>
    let (y, e', fl) := quantElem f k (scales.getD (j / per) 0) x e
    let (l, z) := quantAlong f k scales per r (j + 1) e'
    ((y, fl) :: l, z)

/-- What one output row comes to: its elements, its scales, the 64 lanes after it, the flags. -/
structure QuantRow where
  codes : List Nat
  scales : List Nat
  lanes : List Nat
  flags : Flags
  deriving DecidableEq, Repr

/-- One output row of TQST (R194, R195, R343): `lanes` are the residues before it. -/
def quantRow (x : Tile) (f : TFmt) (col : Bool) (k : KFactor) (auto : Bool) (scale : Nat) (i : Nat) (carry : Bool)
    (lanes : List Nat) : QuantRow :=
  let per := 512 / f.width
  let xs := (List.range x.cols).map fun j => (x.elem false i j).1
  let nblk := ceilDiv x.cols per
  let sc := (List.range nblk).map fun b => if auto then autoScale f ((xs.drop (b * per)).take per) else (scale, 0)
  let scales := sc.map (·.1)
  let f0 := (sc.map (·.2)).foldl (· ||| ·) 0
  if col then
    let l := (List.range x.cols).map fun j => quantElem f k (scales.getD (j / per) 0) (xs.getD j (FVal.zero false)) (if carry then lanes.getD j 0 else 0)
    ⟨l.map (·.1), scales, (l.map (·.2.1)) ++ lanes.drop x.cols, (l.map (·.2.2)).foldl (· ||| ·) f0⟩
  else
    let (l, e) := quantAlong f k scales per xs 0 (if carry then lanes.getD i 0 else 0)
    ⟨l.map (·.1), scales, lanes.set i e, (l.map (·.2)).foldl (· ||| ·) f0⟩

/-- The output rows from row i on, as many as the count. On the column axis each row carries on from the one before it. -/
def quantRows (x : Tile) (f : TFmt) (col : Bool) (k : KFactor) (auto : Bool) (scale : Nat) (cont : Bool) :
    Nat → Nat → Bool → List Nat → List QuantRow
  | 0, _, _, _ => []
  | n + 1, i, carry, lanes =>
    let r := quantRow x f col k auto scale i carry lanes
    r :: quantRows x f col k auto scale cont n (i + 1) (if col then true else cont) r.lanes

end Sys2Proof.Machine
end

