-- ==== Sys2Proof/Machine/CopyEngine.lean ====
section
/-!
DEFINITION. The commands of the copy engine and the in-array step (R66-R73, R85-R87, R128, R167, R423).
-/

namespace Sys2Proof.Machine

/-! ## Accesses of the engine (R67-R71) -/

/-- Whose accesses a command makes (R67, R69): the root table is the one that its pusher had at the push (assumption log,
entry 43). -/
def whoCmd (h : Nat) (c : FifoCmd) : Who := ⟨h, c.mode, c.asid, c.ptroot, false⟩

/-- A line is brought to where the engine's access can take place; any hart's chunk may be squashed for it (R66, R71). -/
def engineReach (s : State) (h : Nat) (c : FifoCmd) (own : Bool) (x : Acc) (mask : LineMask) (a : Word) : State × Res Unit :=
  let l := x.pa / 128
  let g : Agent := ⟨none, noHart, clusterOf h, field 14 12 c.cmd.d0, x.td⟩
  let u : Use := if own then .store else .read
  if lineDev l = s.dev then viaCluster s g u l
  else reachPeerBy s g (fun s u => viaCluster s g u l) u l mask a

/-- A piece of an access range lies on one side of the edge of the private aperture with the range's first byte (R67). -/
def sameSide (first a : Word) : Bool := inAperture a.toNat == inAperture first.toNat

/-- n bytes inside one line read by a command. -/
def engineRead (s : State) (h : Nat) (c : FifoCmd) (first a : Word) (n : Nat) : State × Res Nat :=
  if !sameSide first a then (s, .trap { code := cMisalign, tval := a })
  else match translate s (whoCmd h c) ⟨.copyRead, n, false, .refused⟩ a with
  | (s, .val x) =>
    match engineReach s h c false x (byteMask x.pa n) a with
    | (s, .val _) =>
      if s.poison.contains (x.pa / 128) then (s, .trap { code := cPoison, tval := a })
      else (s, .val ((committedLine s (x.pa / 128)).toNat >>> (8 * (x.pa % 128)) % 2 ^ (8 * n)))
    | (s, .trap t) => (s, .trap t)
    | (s, .wait k) => (s, .wait k)
    | (s, .again) => (s, .again)
  | (s, .trap t) => (s, .trap t)
  | (s, .wait k) => (s, .wait k)
  | (s, .again) => (s, .again)

def modHead (s : State) (h : Nat) (f : FifoCmd → FifoCmd) : State :=
  modHart s h fun x => { x with fifo := { x.fifo with cmds := match x.fifo.cmds with | c :: r => f c :: r | [] => [] } }

/-- A command has bytes on their way to the home of a peer line (R70). -/
def postsFor (s : State) (h l : Nat) : Bool :=
  (tabGet none s.peers l).any fun p => p.pendCmds.contains h || p.flyCmds.contains h

/-- n bytes inside one line become committed; a write of the whole line clears its poison, and poisoned data leave it. The L1
caches of the engine's cluster lose the line. Where the bytes are posted, the command keeps how much it had done before them
(R53, R69, R71, R96, R109). -/
def enginePut (s : State) (h pa n v : Nat) (bad : Bool) : State :=
  let l := pa / 128
  let s := dropL1s s l (clusterOf h)
  let s := { s with poison := if bad then setInsert s.poison l else if n = 128 then s.poison.filter (· != l) else s.poison }
  if lineDev l ≠ s.dev then
    let s := modHead s h fun c => { c with posted := c.posted ++ [(l, c.prog, false)] }
    let s := holdPosted (commitPeer s h l true (inLine pa v) (byteMask pa n)) l
    if postsFor s h l then s else modHead s h fun c => { c with posted := c.posted.filter fun x => x.1 != l }
  else writeOwn s h l (inLine pa v) (byteMask pa n)

/-- n bytes inside one line written by a command; `bad` where they carry poison. -/
def engineWrite (s : State) (h : Nat) (c : FifoCmd) (first a : Word) (n v : Nat) (bad : Bool) : State × Res Unit :=
  if !sameSide first a then (s, .trap { code := cMisalign, tval := a })
  else match translate s (whoCmd h c) ⟨.copyWrite, n, false, .refused⟩ a with
  | (s, .val x) =>
    if (windowOf s x.pa).isSome then (s, perm a)
    else match engineReach s h c true x (byteMask x.pa n) a with
      | (s, .val _) => (enginePut s h x.pa n v bad, .val ())
      | r => r
  | (s, .trap t) => (s, .trap t)
  | (s, .wait k) => (s, .wait k)
  | (s, .again) => (s, .again)

/-- A read, then what follows it. -/
def readThen {α : Type} (r : State × Res Nat) (k : State → Nat → State × Res α) : State × Res α :=
  match r with
  | (s, .val v) => k s v
  | (s, .trap t) => (s, .trap t)
  | (s, .wait w) => (s, .wait w)
  | (s, .again) => (s, .again)

/-- A write of n bytes, then the count of the bytes performed. -/
def countDone (r : State × Res Unit) (n : Nat) : State × Res Nat :=
  match r with
  | (s, .val _) => (s, .val n)
  | (s, .trap t) => (s, .trap t)
  | (s, .wait w) => (s, .wait w)
  | (s, .again) => (s, .again)

/-! ## The end of a command (R68, R70) -/

/-- The status of a failed access (R68). -/
def statusOf (code : Nat) : Nat :=
  if code = cNotPresent then 0x01 else if code = cPerm then 0x02 else if code = cMisalign then 0x03
  else if code = cPoison then 0x05 else 0x06

/-- Work of a hart's command that other units have not confirmed: posted bytes, lines of a group, a transfer (R70). -/
def unconfirmed (s : State) (h : Nat) : Bool :=
  (s.peers.any fun p => match p.2 with | some l => l.pendCmds.contains h || l.flyCmds.contains h | none => false) ||
    (s.groups.any fun g => g.2.held.any fun o => o.hart == h && o.kind == 3) ||
    (s.clusters.any fun c => c.2.transfers.any fun t => t.hart == h && t.cmd)

/-- The record of a decided command is written once everything it did is confirmed (R70). -/
def confirm (s : State) (h : Nat) : State :=
  match (getHart s h).fifo.cmds with
  | c :: _ =>
    match c.fin with
    | some (st, n) => if unconfirmed s h then s else writeRecord s h st n
    | none => s
  | [] => s

/-- The same for every hart. -/
def confirmAll (s : State) : State := (hartIds s).foldl confirm s

/-- A command has its status and count. -/
def decide_ (s : State) (h st n : Nat) : State := confirm (modHead s h fun c => { c with fin := some (st, n) }) h

/-- What a piece of a command's work ends in: all done, the next piece to come, a failure, or a wait; with the bytes
done. -/
def conclude (h : Nat) (r : State × Nat × Res Unit) (len : Nat) : State :=
  match r with
  | (s, d, .val _) => if len ≤ d then decide_ s h 0x00 d else modHead s h fun c => { c with prog := d, walked := [] }
  | (s, d, .trap t) => decide_ s h (statusOf t.code) d
  | (s, d, .wait w) => modHead s h fun c => { c with prog := d, held := w != .commit }
  | (s, d, .again) => modHead s h fun c => { c with prog := d }

/-- Accesses performed in ascending order from `d` bytes on, until `stop` bytes are done; the command keeps how far it is. -/
def pieces (h : Nat) (f : State → Nat → State × Res Nat) (stop : Nat) : Nat → State → Nat → State × Nat × Res Unit
  | 0, s, d => (s, d, .val ())
  | k + 1, s, d =>
    if stop ≤ d then (s, d, .val ())
    else match f (modHead s h fun c => { c with prog := d }) d with
      | (s, .val n) => pieces h f stop k s (d + n)
      | (s, .trap t) => (s, d, .trap t)
      | (s, .wait w) => (s, d, .wait w)
      | (s, .again) => (s, d, .again)

/-- The next piece of a command, of at most 4 KiB (R69). -/
def piece (h : Nat) (f : State → Nat → State × Res Nat) (len : Nat) (s : State) (d : Nat) : State × Nat × Res Unit :=
  pieces h f (Nat.min len (d + 4096)) 4096 s d

/-- The bytes from an address to the end of its line. -/
def toLineEnd (a : Word) : Nat := 128 - a.toNat % 128

/-- D0 has no reserved bit set and no hint 7 (R66, R68). -/
def d0Ok (d : Word) : Bool := d &&& 0xFFFFFFFF00008E00 == 0 && field 14 12 d != 7

/-- The frame of a command: it is the oldest of its hart, and its words are checked first (R68, R69). -/
def command (h : Nat) (d : Cmd) (s : State) (ok : Bool) (body : State → FifoCmd → State) : Out :=
  match (getHart s h).fifo.cmds with
  | c :: _ =>
    if c.cmd ≠ d ∨ c.fin.isSome then .next s
    else if !(d0Ok d.d0 && ok) then .next (decide_ s h 0x04 0)
    else .next (body s c)
  | [] => .next s

/-! ## COPY, COPY2D, FILL (R67) -/

/-- Two ranges of as many bytes meet. -/
def rangesMeet (a b : Word) (n : Nat) : Bool := decide (a.toNat < b.toNat + n) && decide (b.toNat < a.toNat + n)

/-- The operands of a COPY or COPY2D overlap: a row of the source meets a row of the destination (R69). -/
def operandsMeet (d : Cmd) : Bool :=
  if d.d0.extractLsb' 0 8 = 0x01 then rangesMeet d.d1 d.d2 d.d3.toNat
  else
    let row := field 31 0 d.d3
    let at_ (base step : Word) (i : Nat) : Word := base + w64 i * step
    let rows := List.range (field 63 32 d.d3)
    rows.any fun i => rows.any fun j => rangesMeet (at_ d.d1 d.d4 i) (at_ d.d2 d.d5 j) row

/-- The bytes that a copy writes: those of its source, or free values where the operands overlap (R12, R69; assumption log,
entry 14). -/
def copiedBytes (s : State) (d : Cmd) (n v : Nat) : State × Nat :=
  if operandsMeet d then (spend s n, packNat 8 ((List.range n).map fun i => (Config.freeByte (s.freeCtr + i)).toNat)) else (s, v)

/-- The bytes of a destination line copied, at most n: its source may span two lines; where the second of them fails, the
bytes before it are written (R69). -/
def copyPiece (h : Nat) (c : FifoCmd) (src0 dst0 src dst : Word) (n : Nat) (s : State) : State × Res Nat :=
  let k := Nat.min n (toLineEnd dst)
  let j := Nat.min k (toLineEnd src)
  let put (s : State) (k v : Nat) : State × Res Nat :=
    let (s, w) := copiedBytes s c.cmd k v
    countDone (engineWrite s h c dst0 dst k w false) k
  readThen (engineRead s h c src0 src j) fun s v =>
    if k ≤ j then put s k v
    else match engineRead s h c src0 (src + w64 j) (k - j) with
      | (s, .val w) => put s k (v + w * 2 ^ (8 * j))
      | (s, .trap _) => put s j v
      | (s, .wait w) => (s, .wait w)
      | (s, .again) => (s, .again)

def execCopy (h : Nat) (cmd : Cmd) (s : State) : Out :=
  command h cmd s (cmd.d3.toNat < 2 ^ 40 && cmd.d4 == 0 && cmd.d5 == 0 && cmd.d6 == 0 && cmd.d7 == 0) fun s c =>
    let len := cmd.d3.toNat
    conclude h (piece h (fun s d =>
      copyPiece h c cmd.d1 cmd.d2 (cmd.d1 + w64 d) (cmd.d2 + w64 d) (len - d) s) len s c.prog) len

/-- Rows of a strided copy (R67). -/
def execCopy2d (h : Nat) (cmd : Cmd) (s : State) : Out :=
  command h cmd s (cmd.d6 == 0 && cmd.d7 == 0) fun s c =>
    let row := field 31 0 cmd.d3
    let len := row * field 63 32 cmd.d3
    conclude h (piece h (fun s d =>
      let src0 := cmd.d1 + w64 (d / row) * cmd.d4
      let dst0 := cmd.d2 + w64 (d / row) * cmd.d5
      copyPiece h c src0 dst0 (src0 + w64 (d % row)) (dst0 + w64 (d % row)) (row - d % row) s) len s c.prog) len

/-- A pattern of 8 bytes repeated over n bytes, n a multiple of 8. -/
def patternBytes (p : Word) (n : Nat) : Nat := packNat 64 (List.replicate (n / 8) p.toNat)

def execFill (h : Nat) (cmd : Cmd) (s : State) : Out :=
  command h cmd s (cmd.d1 == 0 && cmd.d3.toNat < 2 ^ 40 && cmd.d3.toNat % 8 == 0 && cmd.d5 == 0 && cmd.d6 == 0 && cmd.d7 == 0)
    fun s c =>
    let len := cmd.d3.toNat
    if cmd.d2.toNat % 8 ≠ 0 ∧ len ≠ 0 then decide_ s h 0x03 0
    else conclude h (piece h (fun s d =>
      let dst := cmd.d2 + w64 d
      let k := Nat.min (len - d) (toLineEnd dst)
      countDone (engineWrite s h c cmd.d2 dst k (patternBytes cmd.d4 k) false) k) len s c.prog) len

/-! ## GATHER and SCATTER (R67) -/

/-- One indexed element: its index is read, the alignments checked in order, and the element moved. -/
def indexedPiece (h : Nat) (c : FifoCmd) (scatter : Bool) (d : Nat) (s : State) : State × Res Nat :=
  let cmd := c.cmd
  let size := 2 ^ field 34 32 cmd.d3
  let ia := cmd.d1 + w64 (d / size * 4)
  let line := cmd.d2 + w64 d
  let bad (a : Word) (k : Nat) : Bool := a.toNat % k != 0
  let mis (a : Word) : Res Nat := .trap { code := cMisalign, tval := a }
  if bad ia 4 then (s, mis ia)
  else readThen (engineRead s h c cmd.d1 ia 4) fun s i =>
    let at_ := cmd.d4 + w64 (i * size)
    if bad at_ size then (s, mis at_)
    else if bad line size then (s, mis line)
    else if scatter then
      readThen (engineRead s h c cmd.d2 line size) fun s v => countDone (engineWrite s h c at_ at_ size v false) size
    else readThen (engineRead s h c at_ at_ size) fun s v => countDone (engineWrite s h c cmd.d2 line size v false) size

def indexedCmd (h : Nat) (cmd : Cmd) (scatter : Bool) (s : State) : Out :=
  command h cmd s (cmd.d3.toNat < 2 ^ 35 && cmd.d5 == 0 && cmd.d6 == 0 && cmd.d7 == 0) fun s c =>
    let len := field 31 0 cmd.d3 * 2 ^ field 34 32 cmd.d3
    conclude h (piece h (fun s d => indexedPiece h c scatter d s) len s c.prog) len

def execGather (h : Nat) (cmd : Cmd) (s : State) : Out := indexedCmd h cmd false s
def execScatter (h : Nat) (cmd : Cmd) (s : State) : Out := indexedCmd h cmd true s

/-! ## MCOPY (R143, R144, R167, R168) -/

/-- The bytes of one source piece: read line by line. -/
def sourceBytes (h : Nat) (c : FifoCmd) (first a : Word) (n : Nat) (s : State) : State × Res Nat :=
  let k := Nat.min n (toLineEnd a)
  readThen (engineRead s h c first a k) fun s v =>
    if n ≤ k then (s, .val v)
    else readThen (engineRead s h c first (a + w64 k) (n - k)) fun s w => (s, .val (v + w * 2 ^ (8 * k)))

/-- One line of a group window, held as one operation of the group. -/
def groupPiece (h : Nat) (c : FifoCmd) (len d : Nat) (s : State) : State × Res Nat :=
  let dst := c.cmd.d2 + w64 d
  let n := Nat.min (len - d) (toLineEnd dst)
  let mcast : Res Nat := .trap { code := 0x100, tval := dst }
  readThen (sourceBytes h c c.cmd.d1 (c.cmd.d1 + w64 d) n s) fun s v =>
    if !sameSide c.cmd.d2 dst then (s, .trap { code := cMisalign, tval := dst })
    else match translate s (whoCmd h c) ⟨.copyWrite, n, false, .refused⟩ dst with
    | (s, .val x) =>
      match windowOf s x.pa with
      | none => (s, mcast)
      | some g =>
        let (o, m, dat) := groupOperand s g x.pa n v
        let s := modHart s h fun y => { y with mcastCnt := y.mcastCnt + 1 }
        (holdOp s g ⟨h, 0, 3, 0, 0, o, m, dat, none, false⟩, .val n)
    | (s, .trap t) => (s, .trap t)
    | (s, .wait w) => (s, .wait w)
    | (s, .again) => (s, .again)

/-- The end of an MCOPY: a destination outside a usable window has a status of its own (R68). -/
def concludeGroup (h : Nat) (r : State × Nat × Res Unit) (len : Nat) : State :=
  match r with
  | (s, d, .trap t) => if t.code = 0x100 then decide_ s h 0x0B d else conclude h (s, d, .trap t) len
  | r => conclude h r len

def execMcopy (h : Nat) (cmd : Cmd) (s : State) : Out :=
  command h cmd s (cmd.d3.toNat < 2 ^ 40 && cmd.d4 == 0 && cmd.d5 == 0 && cmd.d6 == 0 && cmd.d7 == 0) fun s c =>
    let len := cmd.d3.toNat
    concludeGroup h (piece h (fun s d => groupPiece h c len d s) len s c.prog) len

/-! ## SHLOAD (R60, R67, R69, R423) -/

/-- The rows of a tile read in order; a row is at most 256 bytes. -/
def shloadRows (h : Nat) (c : FifoCmd) (rb : Nat) : List Nat → State → State × Res (List TRow)
  | [], s => (s, .val [])
  | i :: r, s =>
    let row := c.cmd.d1 + w64 i * c.cmd.d4
    let piece (k : Nat) (s : State) : State × Res Nat := sourceBytes h c row (row + w64 (64 * k)) 64 s
    let rec bytes : List Nat → Nat → State → State × Res Nat
      | [], v, s => (s, .val v)
      | k :: l, v, s => readThen (piece k s) fun s x => bytes l (v + x * 2 ^ (512 * k)) s
    readThen (bytes (List.range (rb / 64)) 0 s) fun s v =>
      match shloadRows h c rb r s with
      | (s, .val l) => (s, .val (BitVec.ofNat 2048 v :: l))
      | e => e

/-- The load of a shared handle: its shape is read when the command starts; the tile is one transfer (R67, R69, R423). -/
def execShload (h : Nat) (cmd : Cmd) (s : State) : Out :=
  command h cmd s (cmd.d2.toNat < 8 && cmd.d3 == 0 && cmd.d5 == 0 && cmd.d6 == 0 && cmd.d7 == 0) fun s c =>
    let cl := clusterOf h
    let key := shKey c.asid cmd.d2.toNat
    let x := getShared s cl key
    match x.tile with
    | none => decide_ s h 0x08 0
    | some t =>
      let todo := (List.range (t.rows - c.rows.length)).map (· + c.rows.length)
      if c.prog ≠ 0 ∧ c.prog ≠ x.steps + 1 then decide_ s h 0x08 0
      else match shloadRows h c t.rb (todo.take (4096 / t.rb)) s with
      | (s, .val got) =>
        let rows := c.rows ++ got
        if rows.length < t.rows then modHead s h fun c => { c with prog := x.steps + 1, rows := rows }
        else
        let new : Tile := { Tile.blank t.rows t.rb t.fmt t.desc with data := rows }
        let s := modCluster s cl fun k => { k with transfers := k.transfers ++ [⟨h, key, x.steps, false, some new, true⟩] }
        decide_ s h 0x00 (t.rows * t.rb)
      | (s, .trap e) => decide_ s h (statusOf e.code) 0
      | (s, .wait w) => modHead s h fun c => { c with held := w != .commit, prog := x.steps + 1 }
      | (s, .again) => s

/-! ## SAVE and RESTORE (R72) -/

/-- The target: the pushing hart or a parked hart of its cluster (R72). -/
def contextTarget (s : State) (h t : Nat) : Bool :=
  t == h || (clusterOf t == clusterOf h && ((getHart s t).slot == .ready || (getHart s t).slot == .waiting))

/-- The lines of a save area that a mask selects, in order: V, P, Q, then vcsr and the reserved bytes (R72). -/
def contextLines (v p q : Bool) : List Nat :=
  (if v then List.range 16 else []) ++ (if p then [16] else []) ++ (if q then (List.range 16).map (· + 17) else []) ++ [33]

/-- Line k of the save area of a hart's state. -/
def contextLine (a : Arch) (v : Bool) (k : Nat) : Nat :=
  if k < 16 then (rdV a (BitVec.ofNat 5 (2 * k))).toNat + (rdV a (BitVec.ofNat 5 (2 * k + 1))).toNat * 2 ^ 512
  else if k = 16 then packNat 64 ((List.range 16).map fun i => (rdP a (BitVec.ofNat 4 i)).toNat)
  else if k < 33 then (rdQ a (BitVec.ofNat 3 ((k - 17) / 2))).lanes.toNat / 2 ^ (1024 * ((k - 17) % 2)) % 2 ^ 1024
  else if v then a.vcsr.toNat else 0

/-- Line k carries the poison of a qc register. -/
def contextPoison (a : Arch) (k : Nat) : Bool := decide (17 ≤ k ∧ k < 33) && (rdQ a (BitVec.ofNat 3 ((k - 17) / 2))).poison

/-- A hart's state with line k of a save area restored; p0 keeps its value. -/
def restoreLine (a : Arch) (k x : Nat) : Arch :=
  if k < 16 then wrV (wrV a (BitVec.ofNat 5 (2 * k)) (BitVec.ofNat 512 x)) (BitVec.ofNat 5 (2 * k + 1)) (BitVec.ofNat 512 (x / 2 ^ 512))
  else if k = 16 then (List.range 16).foldl (fun a i => wrP a (BitVec.ofNat 4 i) (BitVec.ofNat 64 (x / 2 ^ (64 * i)))) a
  else if k < 33 then
    let q := BitVec.ofNat 3 ((k - 17) / 2)
    let old := (rdQ a q).lanes.toNat
    let new := if (k - 17) % 2 = 0 then old / 2 ^ 1024 * 2 ^ 1024 + x else old % 2 ^ 1024 + x * 2 ^ 1024
    wrQ a q ⟨BitVec.ofNat 2048 new, false⟩
  else { a with vcsr := BitVec.ofNat 64 (x % 4) }

/-- The place of line k that the command touches: without V the last line holds the reserved bytes alone. -/
def contextSpan (v : Bool) (k : Nat) : Nat × Nat := if k = 33 ∧ !v then (8, 120) else (0, 128)

/-- One line of a SAVE; a poisoned qc register poisons its lines (R72). -/
def saveLine (h : Nat) (c : FifoCmd) (t : Nat) (v : Bool) (k : Nat) (s : State) : State × Res Unit :=
  let a := c.cmd.d1 + w64 (128 * k)
  let (o, n) := contextSpan v k
  let x := (getHart s t).arch
  engineWrite s h c c.cmd.d1 (a + w64 o) n (contextLine x v k) (contextPoison x k)

/-- One line of a RESTORE. -/
def loadLine (h : Nat) (c : FifoCmd) (t : Nat) (v : Bool) (k : Nat) (s : State) : State × Res Unit :=
  if k = 33 ∧ !v then (s, .val ())
  else
    let a := c.cmd.d1 + w64 (128 * k)
    let n := if k = 33 then 8 else 128
    readThen (engineRead s h c c.cmd.d1 a n) fun s x =>
      (modHart s t fun y => { y with arch := restoreLine y.arch k x }, .val ())

/-- The lines of a context moved in order from the one that `d` counts, one piece of 32 lines at a time (R69). -/
def contextMove (f : Nat → State → State × Res Unit) : Nat → List Nat → Nat → State → State × Nat × Res Unit
  | _, [], d, s => (s, d, .val ())
  | 0, _, d, s => (s, d, .again)
  | n + 1, k :: l, d, s =>
    match f k s with
    | (s, .val _) => contextMove f n l (d + 1) s
    | (s, .trap t) => (s, d, .trap t)
    | (s, .wait w) => (s, d, .wait w)
    | (s, .again) => (s, d, .again)

/-- SAVE and RESTORE: the checks in the order of R69, then the lines; COUNT is that of the parts on OK, without the reserved
bytes, else 0 (R70; assumption log, entry 79). -/
def context (h : Nat) (cmd : Cmd) (load : Bool) (s : State) : Out :=
  let t := field 11 0 cmd.d2
  let v := cmd.d2.getLsbD 16
  let p := cmd.d2.getLsbD 17
  let q := cmd.d2.getLsbD 18
  let size := (if v then 2056 else 0) + (if p then 128 else 0) + (if q then 2048 else 0)
  command h cmd s (cmd.d2 &&& ~~~(0x70FFF : Word) == 0 && cmd.d3 == 0 && cmd.d4 == 0 && cmd.d5 == 0 && cmd.d6 == 0 && cmd.d7 == 0)
    fun s c =>
    if c.mode = .u then decide_ s h 0x09 0
    else if c.prog = 0 && !contextTarget s h t then decide_ s h 0x0A 0
    else if cmd.d1.toNat % 256 ≠ 0 then decide_ s h 0x03 0
    else
      let f := if load then loadLine h c t v else saveLine h c t v
      match contextMove f 32 ((contextLines v p q).drop (c.prog - 1)) (c.prog - 1) s with
      | (s, _, .val _) => decide_ s h 0x00 size
      | (s, _, .trap e) => decide_ s h (statusOf e.code) 0
      | (s, d, .wait w) => modHead s h fun c => { c with prog := d + 1, held := w != .commit }
      | (s, d, .again) => modHead s h fun c => { c with prog := d + 1 }

def execSave (h : Nat) (cmd : Cmd) (s : State) : Out := context h cmd false s
def execRestore (h : Nat) (cmd : Cmd) (s : State) : Out := context h cmd true s

/-! ## ROWCOPY and ROWINIT (R85-R87) -/

/-- The size of a row block (R85). -/
def rowBlock (ilv : Bool) : Nat := if ilv then 0x20000 else 0x80000

/-- The physical address of a page that a command may copy in the array: in the module's data region, not encrypted. A
destination in a group's window fails its checks (R85, R167). -/
def rowPage (s : State) (h : Nat) (c : FifoCmd) (k : AccKind) (first a : Word) : State × Res (Option Nat) :=
  if !sameSide first a then (s, .trap { code := cMisalign, tval := a })
  else match translate s (whoCmd h c) ⟨k, 1, false, .refused⟩ a with
  | (s, .val x) =>
    if k == .copyWrite && (windowOf s x.pa).isSome then (s, perm a)
    else (s, .val (if x.td = 0 ∧ devOf x.pa = s.dev ∧ isData (offOf x.pa) then some x.pa else none))
  | (s, .trap t) => (s, .trap t)
  | (s, .wait w) => (s, .wait w)
  | (s, .again) => (s, .again)

/-- Every page of a range, in order: the physical address of each, or none (R85). -/
def rowPages (h : Nat) (c : FifoCmd) (k : AccKind) (base : Word) : List Nat → State → State × Res (List (Option Nat))
  | [], s => (s, .val [])
  | i :: r, s =>
    match rowPage s h c k base (base + w64 (4096 * i)) with
    | (s, .val x) =>
      match rowPages h c k base r s with
      | (s, .val l) => (s, .val (x :: l))
      | e => e
    | (s, .trap t) => (s, .trap t)
    | (s, .wait w) => (s, .wait w)
    | (s, .again) => (s, .again)

/-- The offset inside the die window, or the whole local offset (R77). -/
def windowOff (ilv : Bool) (o : Nat) : Nat := if ilv then o % 0x1E00000000 else o

/-- The pages of a range are whole row blocks, in order (R85). -/
def wholeBlocks (ilv : Bool) (l : List (Option Nat)) : Bool :=
  let n := rowBlock ilv / 4096
  (List.range l.length).all fun i =>
    match l[i]?, l[i / n * n]? with
    | some (some pa), some (some b) => windowOff ilv (offOf b) % rowBlock ilv == 0 && pa == b + 4096 * (i % n)
    | _, _ => false

/-- Two row blocks form an eligible pair (R85). -/
def eligible (ilv : Bool) (a b : Nat) : Bool :=
  let bits (x hi lo : Nat) : Nat := x / 2 ^ lo % 2 ^ (hi + 1 - lo)
  let x := windowOff ilv (offOf a)
  let y := windowOff ilv (offOf b)
  if ilv then
    offOf a / 0x1E00000000 == offOf b / 0x1E00000000 && bits x 22 17 == bits y 22 17 && bits x 36 33 == bits y 36 33 &&
      bits x 32 23 != bits y 32 23
  else bits x 24 19 == bits y 24 19 && bits x 38 35 == bits y 38 35 && bits x 34 25 != bits y 34 25

/-- The pages that a range of addresses touches (R85). -/
def pageCount (base : Word) (len : Nat) : Nat := (base.toNat % 4096 + len + 4095) / 4096

/-- The pages of a command's ranges in order; no source range for ROWINIT. -/
def rowRanges (s : State) (h : Nat) (c : FifoCmd) (copy : Bool) : State × Res (List (Option Nat) × List (Option Nat)) :=
  let n (base : Word) : Nat := pageCount base c.cmd.d3.toNat
  let src := if copy then rowPages h c .copyRead c.cmd.d1 (List.range (n c.cmd.d1)) s else (s, .val [])
  match src with
  | (s, .val a) =>
    match rowPages h c .copyWrite c.cmd.d2 (List.range (n c.cmd.d2)) s with
    | (s, .val b) => (s, .val (a, b))
    | (s, .trap t) => (s, .trap t)
    | (s, .wait w) => (s, .wait w)
    | (s, .again) => (s, .again)
  | (s, .trap t) => (s, .trap t)
  | (s, .wait w) => (s, .wait w)
  | (s, .again) => (s, .again)

/-- A command is row-eligible (R85). -/
def rowEligible (ilv copy : Bool) (c : FifoCmd) (a b : List (Option Nat)) : Bool :=
  let n := rowBlock ilv / 4096
  c.cmd.d3.toNat % rowBlock ilv == 0 && wholeBlocks ilv b && (!copy || wholeBlocks ilv a) &&
    (!copy || (List.range b.length).all fun i =>
      i % n != 0 || (match a[i]?, b[i]? with | some (some x), some (some y) => eligible ilv x y | _, _ => false)) &&
    c.cmd.d1.toNat % 4096 == 0 && c.cmd.d2.toNat % 4096 == 0

/-- ROWCOPY and ROWINIT: an eligible command goes on with the step of its first row block (R85, R86). -/
def rowCommand (h : Nat) (cmd : Cmd) (copy : Bool) (s : State) : Out :=
  command h cmd s (cmd.d3.toNat < 2 ^ 40 && (copy || cmd.d1 == 0) && (!copy || cmd.d4 == 0) && cmd.d5 == 0 && cmd.d6 == 0 && cmd.d7 == 0)
    fun s c =>
    if cmd.d3 = 0 then decide_ s h 0x00 0
    else if !copy && cmd.d2.toNat % 8 ≠ 0 then decide_ s h 0x03 0
    else match rowRanges s h c copy with
      | (s, .val (a, b)) => if rowEligible s.ilv copy c a b then modHead s h fun c => { c with prog := 1 } else decide_ s h 0x07 0
      | (s, .trap t) => decide_ s h (statusOf t.code) 0
      | (s, .wait _) => s
      | (s, .again) => s

def execRowcopy (h : Nat) (cmd : Cmd) (s : State) : Out := rowCommand h cmd true s
def execRowinit (h : Nat) (cmd : Cmd) (s : State) : Out := rowCommand h cmd false s

/-- The lines of a row block. -/
def blockLines (ilv : Bool) (pa : Nat) : List Nat := (List.range (rowBlock ilv / 128)).map (· + pa / 128)

/-- A line can take part in an in-array step: no mark of an admitted chunk, no transaction and no data on their way. -/
def atRest (s : State) (own : Bool) (l : Nat) : Bool := !snoopWaits s none own l && !inFlux s l

/-- A source line is current in the module; a copy that another module owns is written back first and stays there, clean
and shared (R86). -/
def sourceReady (s : State) (l : Nat) : State × Bool :=
  if !atRest s false l then (s, false)
  else if (getCoh s l).dir.rown then (homeRequest s l ⟨.clean, homeDie s l, 0, none, tabGet 0 s.lineTd l, 0, false, false⟩, false)
  else (s, true)

/-- A destination line has no copy in another module; one that has is recalled (R86). -/
def targetReady (s : State) (l : Nat) : State × Bool :=
  let e := (getCoh s l).dir
  if !atRest s true l then (s, false)
  else if e.rown || e.bcast || !e.rem.isEmpty then
    (homeRequest s l ⟨.evict, homeDie s l, 0, none, tabGet 0 s.lineTd l, 0, false, false⟩, false)
  else (s, true)

/-- A check of lines in order; the effects of every check stay. -/
def allReady (f : State → Nat → State × Bool) (l : List Nat) (s : State) : State × Bool :=
  l.foldl (fun r k => let (s, b) := f r.1 k; (s, r.2 && b)) (s, true)

/-- The copies of a source line are written back and stay, clean and shared (R86). -/
def settleSource (s : State) (l : Nat) : State :=
  let dirty := (getCoh s l).caches.any fun c => decide (512 ≤ c.1) && (c.2 == .m || c.2 == .o)
  let s := snoop s none false l
  modCoh (if dirty then writeBack s l else s) l fun c => { c with
    caches := c.caches.map fun k => (k.1, match k.2 with | .m | .o | .e => .s | x => x)
    dir := match c.dir.st with
      | .i | .s => c.dir
      | _ => { c.dir with st := .s, owner := 0, sharers := setInsert c.dir.sharers c.dir.owner } }

/-- Every copy of a destination line goes without write-back, with those of non-coherent ranges (R86). -/
def settleTarget (s : State) (l : Nat) : State :=
  let s := setDir (dropAll (snoop s none true l) l) l DirEnt.none
  { s with
    cores := tabMap Core.reset (fun _ c => { c with ncl1 := ncDrop l c.ncl1 }) s.cores
    clusters := tabMap Cluster.reset (fun _ c => { c with ncl2 := ncDrop l c.ncl2 }) s.clusters
    lineTd := tabPut 0 s.lineTd l 0 }

/-- The row of a line's bank is closed by the precharge of an in-array step (R83, R86). -/
def precharge (s : State) (l : Nat) : State :=
  let (k, sa) := placeOf s l
  modHbm s k fun x => { x with openRows := tabPut none x.openRows (bankOf sa) none }

/-- The bits of a line as its stack holds them. -/
def storedBits (s : State) (l : Nat) : LineData := if trained s then lineData s.hbm l else lineData s.mem l

/-- A line's granule takes stored bits and check bits, which mark poison or not; as its pages are not encrypted, the bits
are its data (R79, R87). -/
def putStored (s : State) (l : Nat) (x : LineData) (bad : Bool) : State :=
  let (k, sa) := placeOf s l
  let s := precharge (modHbm s k fun y => cancelScrub y sa) l
  { s with
    mem := writeBytes s.mem (l * 128) 128 x.toNat
    hbm := if trained s then writeBytes s.hbm (l * 128) 128 x.toNat else s.hbm
    badGran := if bad then setInsert s.badGran l else s.badGran.filter (· != l)
    poison := if bad then setInsert s.poison l else s.poison.filter (· != l) }

/-- The in-array copy of one line: its stored bits and its mark of poison (R87). -/
def copyLine (s : State) (src dst : Nat) : State :=
  putStored (precharge s src) dst (storedBits s src) (if trained s then s.badGran.contains src else s.poison.contains src)

/-- The in-array fill of one line (R87). -/
def fillLine (s : State) (p : Word) (dst : Nat) : State := putStored s dst (BitVec.ofNat 1024 (patternBytes p 128)) false

/-- One in-array step on a pair of row blocks; none while a line waits (R86). -/
def blockStep (s : State) (src : Option Nat) (dst : Nat) (p : Word) : State × Bool :=
  let from_ := match src with | some a => blockLines s.ilv a | none => []
  let to_ := blockLines s.ilv dst
  let (s, r1) := allReady sourceReady from_ s
  let (s, r2) := allReady targetReady to_ s
  if (to_ ++ from_).any (memHeld s) then (s, false)
  else if r1 && r2 then
    let s := to_.foldl settleTarget (from_.foldl settleSource s)
    (match src with
      | some a => to_.foldl (fun s l => copyLine s (l - dst / 128 + a / 128) l) s
      | none => to_.foldl (fun s l => fillLine s p l) s, true)
  else (s, false)

/-- The next row block of a hart's command (R86). -/
def execRowBlockStep (s : State) : Out :=
  let h := s.arg.a
  match (getHart s h).fifo.cmds with
  | c :: _ =>
    let size := rowBlock s.ilv
    let off := (c.prog - 1) * size
    let copy := c.cmd.d0.extractLsb' 0 8 == 0x06
    if c.prog = 0 ∨ c.fin.isSome then .next s
    else
      let src := if copy then rowPage s h c .copyRead c.cmd.d1 (c.cmd.d1 + w64 off) else (s, .val none)
      match src with
      | (s, .val a) =>
        if copy && a.isNone then .next (decide_ s h 0x07 off)
        else match rowPage s h c .copyWrite c.cmd.d2 (c.cmd.d2 + w64 off) with
        | (s, .val (some b)) =>
          let (s, ok) := blockStep s a b c.cmd.d4
          .next (if !ok then s
            else if c.cmd.d3.toNat ≤ off + size then decide_ s h 0x00 c.cmd.d3.toNat
            else modHead s h fun c => { c with prog := c.prog + 1 })
        | (s, .trap t) => .next (decide_ s h (statusOf t.code) off)
        | (s, .val none) => .next (decide_ s h 0x07 off)
        | (s, _) => .next s
      | (s, .trap t) => .next (decide_ s h (statusOf t.code) off)
      | (s, _) => .next s
  | [] => .next s

end Sys2Proof.Machine
end

