-- ==== Sys2Proof/Machine/Peer.lean ====
section
/-!
DEFINITION. Messages of the fabric: their acceptance in order (R151, R153, R160), peer lines and posted writes
(R107-R111, R138), probes (R139-R142), hold responses (R92) and timeouts (R158).
-/

namespace Sys2Proof.Machine

/-! ## Acceptance (R151, R153, R156, R160) -/

/-- The key of what has arrived from a device in a class. -/
def inKey (dev cls : Nat) : Nat := 2 ^ 17 + pairKey dev cls

/-- The message that a step handles again after a wait. -/
def laterMsg (s : State) (m : Msg) : State := after s 1 (msgStep m.code, { msg := some m, flag := true })

/-- A message that has arrived is handled in the order of its pair and class: one that comes too early is kept, a
duplicate is discarded (R153, R156). -/
def inOrder (s : State) (m : Msg) (k : State → Msg → State) : State :=
  let key := inKey m.src ((msgClass m.code).getD 3)
  let p := tabGet Pair.reset s.pairs key
  if m.seq < p.expect then s
  else if p.expect < m.seq then
    if p.waiting.any (fun x => x.seq == m.seq) then s
    else { s with pairs := tabPut Pair.reset s.pairs key { p with waiting := p.waiting ++ [m] } }
  else
    let next := p.waiting.filter fun x => x.seq == m.seq + 1
    let q := { p with expect := m.seq + 1, waiting := p.waiting.filter fun x => x.seq != m.seq + 1 }
    let s := { s with pairs := tabPut Pair.reset s.pairs key q }
    next.foldl (fun s x => after s 0 (msgInstr x)) (k s m)

/-- Flits of a message have come in on a link: it is alive (R156). -/
def noteFlit (s : State) (m : Msg) : State :=
  match m.port with
  | some p => modPort s p fun x => { x with lastFlit := s.mtime, fails := 0 }
  | none => s

/-- The step of an arriving message: one on a channel of another class is discarded and logged, one from a device recorded
lost, management messages apart, is discarded, and one for another module goes on (R151, R160). -/
def onMsg (s : State) (k : State → Msg → State) : Out :=
  match s.arg.msg with
  | none => .next s
  | some m =>
    let cls := (msgClass m.code).getD 3
    if s.arg.flag || m.src == s.dev then .next (k s m)
    else
      let s := noteFlit s m
      if m.vc / 2 ≠ cls then .next (logEv s evMessage m.code m.src)
      else if cls ≠ 3 ∧ s.lostMap.contains m.src then .next s
      else if m.dst ≠ s.dev then .next (relayed s m)
      else .next (inOrder s m k)

/-! ## Requests and their answers (R158) -/

/-- The request id that a message carries. -/
def msgId (m : Msg) : Nat := m.aux.headD 0

/-- An item of a message is 1. -/
def msgFlag (m : Msg) (i : Nat) : Bool := m.aux[i]? == some 1

/-- A request has its answer: it and its timer go. -/
def answered (s : State) (id : Nat) : State :=
  { s with
    reqs := s.reqs.filter fun r => r.id != id
    events := s.events.filter fun e => !(e.2.1 == .requestTimeout && e.2.2.a == id) }

/-! ## Failure detection (R158, R159) -/

/-- The liveness question and its time (R159). -/
def askAlive (s : State) (d : Nat) : State :=
  let s := send { s with hbWait := tabPut none s.hbWait d (some (s.mtime, false)) } (mkMsg s d 0x32 0)
  after s (ftoNs s) (.deviceLostTimeout, { a := d })

/-- A device that does not answer is reported to failure detection: this module asks it where it is the one that would
declare it, or watches its paths where no other module would (R158, R159). -/
def report (s : State) (d : Nat) : State :=
  if s.lostMap.contains d then s
  else match declarer s d with
  | some x => if x = s.dev ∧ localDown s d = true ∧ !((tabGet none s.hbWait d).any fun q => !q.2) then askAlive s d else s
  | none => after s 0 (.deviceLostTimeout, { a := d, b := s.mtime, flag := true })

/-- A request has had no answer within the timeout: it is resent once on another path, and the second time its home is
reported. One to a device recorded lost is not sent (R158). -/
def execRequestTimeout (s : State) : Out :=
  let id := s.arg.a
  match s.reqs.find? (fun r => r.id == id) with
  | none => .next s
  | some r =>
    if s.mtime < r.due ∨ s.lostMap.contains r.msg.dst = true then .next s
    else
      let put (f : Req → Req) : State := { s with reqs := s.reqs.map fun x => if x.id = id then f x else x }
      if !r.resent then
        let s := put fun x => { x with resent := true, due := s.mtime + ftoNs s }
        let queued := (tabGet Pair.reset s.pairs (pairKey r.msg.dst ((msgClass r.msg.code).getD 3))).waiting.any fun m => m.seq == r.msg.seq
        let s := if r.msg.dst = s.dev ∨ queued = true then s else { s with net := s.net ++ [{ sealMsg s r.msg with via := .other r.path }] }
        .next (after s (ftoNs s) (.requestTimeout, { a := id }))
      else if r.reported then .next s
      else .next (report (put fun x => { x with reported := true }) r.msg.dst)

/-! ## The home's side (R104, R105, R110, R155) -/

/-- A transaction of another module reaches its home. A line that is not of this module's memory is refused and
logged. -/
def atHome (s : State) (m : Msg) (k : State → State) : State :=
  if lineDev m.line = s.dev then k s else logEv s evMessage m.code m.src

/-- The transaction of a request of another module, with the hint that it carries (R84, R105). -/
def modTxn (kind : TxnKind) (m : Msg) : Txn := ⟨kind, m.src, 0, some m, m.td, if m.lr then 3 else 0, false, false⟩

/-- The data of an arriving message, and whether they are poisoned: a poisoned line's tag is not checked, and one whose tag
does not fit is poisoned and logged (R53, R164). -/
def msgData (s : State) (m : Msg) (bad : Bool) : State × LineData × Bool :=
  let (d, ok) := openMsg s m
  (if bad || ok then s else logEv s evIntegrity m.line m.td, d, bad || !ok)

def execPrds (s : State) : Out := onMsg s fun s m => atHome s m fun s => homeRequest s m.line (modTxn .prds m)
def execPrdm (s : State) : Out := onMsg s fun s m => atHome s m fun s => homeRequest s m.line (modTxn .prdm m)

/-- The posted bytes of another module: opened under their trust domain, poisoned where that fails, and merged when
the home's transaction ends (R110, R138, R164). -/
def execPwrupd (s : State) : Out :=
  onMsg s fun s m => atHome s m fun s =>
    let (s, d, bad) := msgData s m (msgFlag m 1)
    homeRequest s m.line (modTxn .pwr { m with data := d, aux := [msgId m, if bad then 1 else 0] ++ m.aux.drop 2 })

/-- The entry of a line after its remote owner has written it back: an owner that keeps its copy holds it in E, or in S
beside other holders; one that drops it leaves it (R105, R280). -/
def entryWritten (e : DirEnt) (keep : Bool) : DirEnt :=
  let rest := if keep then e.rem else e.rem.drop 1
  if e.st = .o then
    { e with st := if e.sharers.isEmpty && rest.isEmpty then .i else .s, rown := false, rem := rest }
  else if keep then { e with st := .e }
  else DirEnt.none

/-- A line written back by another module: the home takes it from the owner, and answers in every case (R102, R105). An
owner to which the home granted E may have written the line (assumption log, entry 37). A write-back that an invalidation
has caused is also its answer. -/
def execPwb (s : State) : Out :=
  onMsg s fun s m => atHome s m fun s =>
    let l := m.line
    let e := (getCoh s l).dir
    let ack : Msg := { mkMsg s m.src 0x26 l with aux := [msgId m] }
    let s :=
      if ownerMod e = some m.src then
        let (s, d, bad) := msgData s m (msgFlag m 2)
        let s := { s with
          poison := if bad then setInsert s.poison l else s.poison.filter (· != l)
          lineTd := tabPut 0 s.lineTd l m.td }
        let s := mergeMem s l d (BitVec.allOnes 128)
        let s := if (getCoh s l).busy.isSome then s else setDir s l (entryWritten e (msgFlag m 1))
        writeBackFor s l false (.answer ack)
      else send s ack
    if msgFlag m 3 then wakeCommands (homeAnswer s l) else s

/-- A module has answered a snoop of the home; an owner that had written a line granted to it in E says so (R105;
assumption log, entry 37). -/
def execPack (s : State) : Out :=
  onMsg s fun s m => atHome s m fun s =>
    let s := if msgFlag m 1 then modCoh s m.line fun c => { c with dir :=
      if c.dir.st = .e then { c.dir with st := .m } else c.dir } else s
    wakeCommands (homeAnswer s m.line)

/-- A module asked to forward a line holds no copy: the home serves the request from memory (R102). -/
def execPfwdmiss (s : State) : Out := onMsg s fun s m => atHome s m fun s => wakeCommands (homeMiss s m.line)

/-! ## The peer agent's side (R101, R105, R106, R108-R110) -/

/-- The module's own answer to a home; it says whether the copy was dirty. -/
def reply (s : State) (m : Msg) (code : Nat) (dirty : Bool) : State :=
  send s { mkMsg s m.src code m.line with aux := [msgId m, if dirty then 1 else 0] }

/-- A line sent to the requester that a forward names. -/
def supply (s : State) (m : Msg) (excl : Bool) (d : LineData) : State :=
  send s { mkMsg s ((m.aux[1]?).getD m.src) (if excl then 0x22 else 0x21) m.line with
    data := d, td := tabGet 0 s.lineTd m.line, aux := [msgId m, if s.poison.contains m.line then 1 else 0] }

/-- The module's copies of a peer line go; posted bytes stay queued and valid in the peer agent's LLC (R110). -/
def dropPeer (s : State) (l : Nat) (p : PeerLine) : State :=
  let kept := p.pend ||| p.fly
  let s := setDir (dropAll s l) l DirEnt.none
  holdPosted { s with peers := tabPut none s.peers l (if kept = 0 then none else some { p with st := .s, valid := kept }) } l

/-- The module's caches share a line: a supplier in E keeps it in S, one in M in O; for a clean sharing all keep it in S
(R86, R101). -/
def shareCaches (s : State) (l : Nat) (clean : Bool) : State :=
  let st (x : Moesi) : Moesi := if clean && x != .i then .s else afterShare x
  modCoh s l fun c =>
    let c := ([0, 1, 2, 3].flatMap agentsOf).foldl (fun c k => if ownState (cacheSt c k) then shareAgent c k (st (cacheSt c k)) else c) c
    { c with dir := if ownState c.dir.st then { entryForwarded c.dir with st := st c.dir.st } else c.dir }

/-- The copy of a peer line that the module owns whole. -/
def ownedPeer (s : State) (l : Nat) : Option PeerLine :=
  (tabGet none s.peers l).bind fun p => if ownState p.st && p.valid == BitVec.allOnes 128 then some p else none

/-- A line that the module writes back and whose answer it awaits (R102). -/
def backBuffer (s : State) (l : Nat) : Option LineData :=
  (s.reqs.find? fun r => r.msg.code == 0x04 && r.msg.line == l).map (·.msg.data)

/-- A forward that finds no owned copy is answered from the write-back buffer, or as missed (R102). -/
def fromBuffer (s : State) (m : Msg) (excl : Bool) : State :=
  match backBuffer s m.line with
  | some d => reply (supply s m excl d) m 0x23 false
  | none => reply s m 0x24 false

/-- The dies of the module that hold a peer line. -/
def peerDies (s : State) (l : Nat) : List Nat :=
  [0, 1, 2, 3].filter fun d => (otherDies s l (getCoh s l).dir none).contains d || (agentsOf d).any (agentHolds (getCoh s l))

/-- A snoop of a peer line waits for a transaction of the module's own dies, and goes out on the Tether of each die that
holds the line; the agent answers the home once they have answered (R98, R99, R104, R111). -/
def onSnoop (i : Instr) (k : State → Msg → State) (s : State) : Out :=
  onMsg s fun s m =>
    let l := m.line
    let own := i != .fwds
    if s.arg.c = 1 then homeWake (homeGo (k (setBusy s l none) m) l) l
    else if (getCoh s l).busy.isSome then laterMsg s m
    else match peerDies s l with
      | [] => if snoopWaits s none own l then laterMsg s m else k (snoop s none own l) m
      | dies => startSnoops s l ⟨.snoop, 0, 0, some m, 0, 0, false, false⟩ i i 0 0 dies [] (getCoh s l).dir

/-- PFwdS: the owner shares the line with the requester; before an in-array step of the home it stays clean (R86, R101,
R105). -/
def execPfwds (s : State) : Out :=
  onSnoop .fwds (fun s m =>
    let l := m.line
    match ownedPeer s l with
    | some p =>
      let clean := msgFlag m 2
      let s := shareCaches { s with peers := tabPut none s.peers l (some { p with st := if clean then .s else afterShare p.st }) } l clean
      reply (supply s m false p.data) m 0x23 (p.st == .m)
    | none => fromBuffer s m false) s

/-- PFwdM: the owner gives the line up (R101, R105, R110). -/
def execPfwdm (s : State) : Out :=
  onSnoop .fwdm (fun s m =>
    let l := m.line
    match ownedPeer s l, tabGet none s.peers l with
    | some p, _ => reply (supply (dropPeer s l p) m true p.data) m 0x23 (p.st == .m)
    | none, some p => fromBuffer (dropPeer s l p) m true
    | none, none => fromBuffer s m true) s

/-- An invalidation of a peer line; the write-back of a dirty one is the answer (R101, R105, R106, R110). -/
def invalidatePeer (s : State) (m : Msg) : State :=
  let l := m.line
  match tabGet none s.peers l with
  | some p =>
    let s' := dropPeer s l p
    if p.st = .m ∨ p.st = .o then
      let w := writeBackMsg s l p false
      request s' { w with aux := w.aux ++ [1] } []
    else reply s' m 0x23 false
  | none => reply s m 0x23 false

def execPinv (s : State) : Out := onSnoop .inv invalidatePeer s
def execPbackinv (s : State) : Out := onSnoop .backinv invalidatePeer s

/-- Data for a line of this module's memory, from the module that owned it: for a transaction of the home itself they are
written to memory, for a die they are its answer (R86, R105, R110). -/
def dataHome (s : State) (m : Msg) (d : LineData) : State :=
  let s := { s with mem := writeBytes s.mem (m.line * 128) 128 d.toNat }
  match (getCoh s m.line).busy with
  | some t =>
    if t.kind = .pwr ∨ t.kind = .clean then writeBack s m.line
    else match t.die with
      | some k => dataArrive s k m.line false
      | none => s
  | none => s

/-- Data for a peer line: merged under the bytes that are already valid; the answer to a request for ownership makes the
module the owner (R108, R109). The requests of the module's dies go on. -/
def dataPeer (s : State) (m : Msg) (excl : Bool) (d : LineData) : State :=
  let asM := s.reqs.any fun r => r.id == msgId m && r.msg.code == 0x02
  let p := (tabGet none s.peers m.line).getD PeerLine.none
  let st : Moesi := if asM then .m else if ownState p.st then p.st else if excl then .e else .s
  let data := maskMerge d p.data p.valid
  let s := { s with peers := tabPut none s.peers m.line (some { p with st := st, data := data, valid := BitVec.allOnes 128 }) }
  homeGo (answered s (msgId m)) m.line

/-- Data for an access past the caches go to the hart that waits for them (R155). -/
def dataPast (s : State) (m : Msg) (d : LineData) (bad : Bool) : State :=
  let hs := (s.reqs.filter fun r => r.id == msgId m).flatMap (·.harts)
  let s := answered s (msgId m)
  hs.foldl (fun s h => if h = noHart then s else giveLine s h m.line d bad) s

/-- A line arrives: decrypted and its tag checked; on a mismatch it is delivered poisoned (R105, R111, R163, R164). -/
def lineArrives (excl : Bool) (s : State) : Out :=
  onMsg s fun s m =>
    let l := m.line
    let (s, d, bad) := msgData s m (msgFlag m 1)
    if m.unc then wakeCommands (dataPast s m d bad)
    else
      let part := (tabGet none s.peers l).any fun p => p.valid != 0
      let s := { s with
        poison := if bad then setInsert s.poison l else if part then s.poison else s.poison.filter (· != l)
        lineTd := tabPut 0 s.lineTd l m.td }
      wakeCommands (if lineDev l = s.dev then dataHome s m d else dataPeer s m excl d)

def execPdata (s : State) : Out := lineArrives false s
def execPdatae (s : State) : Out := lineArrives true s

/-- Posted bytes of harts leave their counters (R109). -/
def countPosted (s : State) (hs : List Nat) : State :=
  hs.foldl (fun s h => modHart s h fun x => { x with postedCnt := x.postedCnt - 1 }) s

/-- The home has applied a posted write: the counters fall, and bytes committed since then leave (R109). One that left no
entry is acknowledged to the hart whose store it was (R134, R155). -/
def execPwrack (s : State) : Out :=
  onMsg s fun s m =>
    let s := answered s (msgId m)
    if m.unc then wakeCommands (ncDone s (msgId m))
    else match tabGet none s.peers m.line with
      | some p =>
        let s := p.flyCmds.foldl (fun s h => modHead s h fun c => { c with posted := c.posted.filter fun w => !(w.1 == m.line && w.2.2) })
          (countPosted s p.flyHarts)
        let s := { s with peers := tabPut none s.peers m.line (some { p with fly := 0, flyHarts := [], flyCmds := [] }) }
        wakeCommands (confirmAll (tidyPeer (sendPosted s m.line) m.line))
      | none => wakeCommands s

/-- A write-back has been applied (R102, R280). -/
def execPwback (s : State) : Out := onMsg s fun s m => wakeCommands (ncDone (answered s (msgId m)) (msgId m))

/-! ## Probes (R139-R142) -/

/-- Posted writes of a module that this home has not yet applied, by request id. -/
def pendingFrom (s : State) (d : Nat) : List Nat :=
  let of (t : Txn) : List Nat := if t.kind = .pwr ∧ t.req = d then [match t.msg with | some m => msgId m | none => 0] else []
  let held (w : Waiting) : List Nat := match w.owed with | .answer m => if m.code = 0x25 ∧ m.dst = d then [msgId m] else [] | _ => []
  (s.coh.flatMap fun c => (match c.2.busy with | some t => of t | none => []) ++ c.2.queue.flatMap of) ++
    s.hbms.flatMap fun x => x.2.waiting.flatMap held

/-- A probe is answered once every posted write that came before it has been applied and acknowledged (R140); it looks
again every microsecond. -/
def execFprobe (s : State) : Out :=
  let again := s.arg.flag
  let known := s.arg.nums
  onMsg s fun s m =>
    let now := pendingFrom s m.src
    let wait := if again then known.filter now.contains else now
    if wait.isEmpty then send s { mkMsg s m.src 0x28 0 with aux := m.aux }
    else after s 1000 (.fprobe, { msg := some m, flag := true, nums := wait })

/-- A probe has been answered, or has failed: the drain that it belongs to goes on. -/
def endProbe (s : State) (id d : Nat) (lost : Bool) : State :=
  let s := { s with events := s.events.filter fun e => !(e.2.1 == .probeTimeout && e.2.2.c == id && e.2.2.b == d) }
  let end_ (r : Drain) : Drain :=
    if r.probes.contains (id, d) then { r with probes := r.probes.erase (id, d), lost := if lost then setInsert r.lost d else r.lost } else r
  let out (x : Hart) : Hart := { x with drain := x.drain.map end_ }
  wakeCommands ((hartIds s).foldl (fun s h => modHart s h out) s)

/-- A drain awaits a probe. -/
def awaitsProbe (s : State) (id d : Nat) : Bool :=
  (hartIds s).any fun h => match (getHart s h).drain with | some r => r.probes.contains (id, d) | none => false

/-- The answer to a probe, by its number (R140). -/
def execFecho (s : State) : Out := onMsg s fun s m => endProbe s (msgId m) m.src false

/-- A probe's timer expires: its home is lost to the fence, and is reported (R140, R142, R158). -/
def execProbeTimeout (s : State) : Out :=
  let id := s.arg.c
  let d := s.arg.b
  .next (if awaitsProbe s id d then report (endProbe s id d true) d else s)

/-! ## Hold responses (R92) -/

/-- A hold response restarts the timers of the request that it names and of the probes sent to its sender (R92). -/
def execPhold (s : State) : Out :=
  onMsg s fun s m =>
    let id := m.aux.head?
    let mine (r : Req) : Bool := r.msg.dst == m.src && id == some r.id
    let probes := s.events.filter fun e => e.2.1 == .probeTimeout && e.2.2.b == m.src
    let timers := s.events.filter fun e => e.2.1 == .requestTimeout && s.reqs.any fun r => mine r && r.id == e.2.2.a
    let due := s.mtime + ftoNs s
    let s := { s with
      reqs := s.reqs.map fun r => if mine r then { r with due := due } else r
      events := s.events.filter fun e => !(probes.contains e) && !(timers.contains e) }
    (probes ++ timers).foldl (fun s e => after s (ftoNs s) e.2) s

/-- Requests of other modules that wait for a stack: line, module and request id. -/
def heldRequests (s : State) (stack : Nat) : List (Nat × Nat × Nat) :=
  (s.coh.flatMap fun c =>
    if memHeld s c.1 && (placeOf s c.1).1 == stack then c.2.queue.filterMap fun t => t.msg.map fun m => (c.1, m.src, msgId m) else []) ++
  (getHbm s stack).waiting.filterMap fun w => match w.owed with | .answer m => some (w.req.line, m.dst, msgId m) | _ => none

/-- Every 10 µs of a thermal hold, each waiting request and probe of another module is answered with PHold (R92). -/
def execHoldResponseTimer (s : State) : Out :=
  let k := s.arg.a
  if !stackHeld (getHbm s k) then .next s
  else
    let hold (s : State) (r : Nat × Nat × Nat) : State := send s { mkMsg s r.2.1 0x27 r.1 with aux := [r.2.2] }
    let s := (heldRequests s k).foldl hold s
    let probes := s.events.filterMap fun e => if e.2.1 = .fprobe ∧ e.2.2.flag = true then e.2.2.msg.map fun m => (0, m.src, msgId m) else none
    .next (after (probes.foldl hold s) 10000 (.holdResponseTimer, { a := k }))

end Sys2Proof.Machine
end

