-- ==== Sys2Proof/Machine/Group.lean ====
section
/-!
DEFINITION. Multicast groups: stamping, application in stamp order, completion (R143-R145, R165-R168, R286), the freeze
and the re-forming (R146, R169-R171), and the commands of a group entry (R424).
-/

namespace Sys2Proof.Machine

/-! ## Entries (R165, R166) -/

/-- The members of a group, from its list in memory (R165). -/
def membersOf (s : State) (g : Group) : List Nat :=
  (List.range g.nmem).map fun i =>
    ((tableByte s (g.listAddr + 2 * i)).toNat + 256 * (tableByte s (g.listAddr + 2 * i + 1)).toNat) % 2 ^ 14

/-- The entry of the module that governs a group id: the lowest one that is not inactive (R166, R424). -/
def entryOfGid (s : State) (gid : Nat) : Option Nat := (s.groups.find? fun g => g.2.state != 0 && g.2.gid == gid).map (·.1)

/-- The replay depth (R165). -/
def depthOf (g : Group) : Nat := 2 ^ (g.rdep + 8)

/-- Field i of a group message: 0 request id, 1 group id, 2 operation, 3 code of a MAMO, 4 size code, 5 stamp, 6 origin,
7 whether the unit is poisoned. -/
def gField (m : Msg) (i : Nat) : Nat := (m.aux[i]?).getD 0

/-- A message of a group that an entry of the module holds; others are discarded (R424). -/
def onGroup (i : Nat) (s : State) (k : State → Msg → Nat → State) : Out :=
  onMsg s fun s m => match entryOfGid s (gField m i) with
    | some n => k s m n
    | none => s

/-! ## The sequencer (R143, R168) -/

/-- The lowest stamp that every member has acknowledged. -/
def allAcked (s : State) (g : Group) : Nat :=
  match (membersOf s g).map (tabGet 0 g.acked) with
  | [] => g.stamped
  | x :: l => l.foldl Nat.min x

/-- The next request is stamped and sent to every member, as far as the flow control allows (R168). -/
def stampNext (s : State) (n : Nat) : State :=
  let g := getGroup s n
  match g.waitReqs with
  | [] => s
  | m :: r =>
    let stamp := g.stamped + 1
    if g.state ≠ 1 ∨ allAcked s g + depthOf g < stamp then s
    else
      let s := modGroup s n fun g => { g with
        stamped := stamp, waitReqs := r, origins := g.origins ++ [(stamp, m.src, gField m 0)] }
      (membersOf s g).foldl (fun s d => send s { mkMsg s d 0x15 m.line with
        td := g.td, mask := m.mask, data := m.data
        aux := [gField m 0, g.gid, gField m 2, gField m 3, gField m 4, stamp, m.src, gField m 7] }) s

/-- Requests stamped one after the other. -/
def stampAll (n : Nat) : Nat → State → State
  | 0, s => s
  | k + 1, s => stampAll n k (stampNext s n)

def stampWaiting (s : State) (n : Nat) : State := stampAll n (getGroup s n).waitReqs.length s

/-- A request at the sequencer; while the group is frozen nothing is stamped, and writers send again afterwards (R146,
R168, R171). -/
def execMreq (s : State) : Out :=
  onGroup 1 s fun s m n =>
    let g := getGroup s n
    let known := g.waitReqs.any (fun x => x.src == m.src && gField x 0 == gField m 0) ||
      g.origins.any (fun o => o.2.1 == m.src && o.2.2 == gField m 0)
    if g.seqdev ≠ s.dev ∨ g.state ≠ 1 ∨ known = true then s
    else
      let (s, d, bad) := msgData s m (gField m 7 == 1)
      let m := { m with data := d, aux := m.aux.take 5 ++ [0, 0, if bad then 1 else 0] }
      stampWaiting (modGroup s n fun g => { g with waitReqs := g.waitReqs ++ [m] }) n

/-! ## The members (R144, R145, R168, R286) -/

/-- The number of the lowest byte of a mask. -/
def maskLow (m : LineMask) : Nat := ((List.range 128).find? fun i => m.getLsbD i).getD 0

/-- The window line of an operation on this module. -/
def windowLine (s : State) (g : Group) (m : Msg) : Nat := (s.dev * 2 ^ 42 + g.base * 65536) / 128 + m.line

/-- The n bytes of a line from byte k on. -/
def bytesAt (d : LineData) (k n : Nat) : Nat := d.toNat >>> (8 * k) % 2 ^ (8 * n)

/-- What an operation writes to the member copy, and the old value of its bytes (R145, R274). -/
def groupEffect (m : Msg) (old : LineData) : LineData × Nat :=
  let k := maskLow m.mask
  let n := 2 ^ (gField m 4 % 4)
  let y := bytesAt old k n
  if gField m 2 = 2 then
    match AmoOp.ofCode (BitVec.ofNat 8 (gField m 3)) with
    | some op => (BitVec.ofNat 1024 (amoOf op (8 * n) y (bytesAt m.data k n) <<< (8 * k)), y)
    | none => (old, y)
  else (m.data, y)

/-- Lines that a unit of the module has written in memory: their holders lose them (R110). -/
def unitWrote (s : State) (ls : List Nat) : State := ls.foldl (fun s l => invalidateHolders (writeBack s l) l) s

/-- The slot of the replay area takes the operation, with its poison (R53, R168). -/
def recordReplay (s : State) (g : Group) (m : Msg) : State :=
  let stamp := gField m 5
  let a := g.replay + 256 * (stamp % depthOf g)
  if devOf a ≠ s.dev then s
  else
    let unit := (sealLine s g.td (g.gid * 2 ^ 64 + stamp) m.data).1
    let tail := m.line * 128 + m.mask.toNat * 2 ^ 64 + gField m 2 * 2 ^ 192 + gField m 3 * 2 ^ 200 + gField m 4 * 2 ^ 208 +
      gField m 6 * 2 ^ 224 + gField m 0 * 2 ^ 256
    let k := a / 128
    let s := snoop (snoop s none true k) none true (k + 1)
    let clean := s.poison.filter fun l => l != k && l != k + 1
    unitWrote { s with
      mem := writeBytes (writeBytes s.mem a 128 unit.toNat) (a + 128) 128 tail
      poison := if gField m 7 = 1 then setInsert clean k else clean } [k, k + 1]

/-- A writer's held operation: its stamp is recorded; a MAMO completes with the old value (R145, R168, R171). -/
def ownApplied (s : State) (n : Nat) (m : Msg) (old : Nat) : State :=
  if gField m 6 ≠ s.dev then s
  else
    let id := gField m 0
    match (getGroup s n).held.find? (fun o => o.id == id) with
    | none => s
    | some o =>
      if o.kind = 2 then
        let s := modGroup s n fun g => { g with held := g.held.filter fun x => x.id != id }
        if o.hart = noHart then s
        else modHart s o.hart fun x => { x with mamo := x.mamo.map fun p => if p.1 = id then (id, some (w64 old)) else p }
      else
        let held := (getGroup s n).held.map fun x => if x.id = id then { x with stamp := some (gField m 5) } else x
        modGroup s n fun g => { g with held := held }

/-- A stamped operation applied to the member copy, with its poison: chunks that read APPLIED of the group are squashed
(R53, R144, R168, R286). -/
def applyOp (s : State) (n : Nat) (m : Msg) : State :=
  let g := getGroup s n
  let l := windowLine s g m
  let stamp := gField m 5
  let s := snoop s none true l
  let (d, old) := groupEffect m (lineData s.mem l)
  let s := mergeMem s l d m.mask
  let s := { s with
    poison := if gField m 7 = 1 then setInsert s.poison l
      else if m.mask = BitVec.allOnes 128 then s.poison.filter (· != l) else s.poison
    lineTd := tabPut 0 s.lineTd l g.td }
  let s := recordReplay (unitWrote s [l]) g m
  let s := modGroup s n fun g => { g with applied := stamp }
  let s := squashWhere s none fun _ c => c.mseqs.any fun q => q.1 == n
  let s := ownApplied s n m old
  send s { mkMsg s g.seqdev 0x29 0 with aux := [stamp, g.gid] }

/-- The kept operation of the next stamp is applied next: a member applies one operation of a group in a cycle. -/
def nextEarly (s : State) (n : Nat) : State :=
  let g := getGroup s n
  match if g.state = 2 then none else g.early.find? (fun m => gField m 5 == g.applied + 1) with
  | some m =>
    let s := modGroup s n fun g => { g with early := g.early.filter fun x => gField x 5 != gField m 5 }
    after s 0 (.mapply, { msg := some m, flag := true })
  | none => s

/-- An operation waits for the commit of chunks that Cornice has admitted or pre-admitted: those that carry marks of its line,
and those that have read APPLIED of the group (R98, R286). -/
def applyWaits (s : State) (n l : Nat) : Bool :=
  let read (c : Chunk) : Bool := c.mseqs.any fun q => q.1 == n
  snoopWaits s none true l ||
    (hartIds s).any fun h => (admittedChunks s h).any read || (preAdmitted s h && (openChunks s h).any read)

/-- A stamped operation at a member: applied in stamp order; one above the next stamp is kept, and in a frozen entry
stays kept until the re-forming discards it (R143, R168, R169). -/
def execMapply (s : State) : Out :=
  onGroup 1 s fun s m n =>
    let g := getGroup s n
    let stamp := gField m 5
    if g.log2sz = 0 ∨ stamp ≤ g.applied then s
    else if stamp = g.applied + 1 ∧ applyWaits s n (windowLine s g m) = true then laterMsg s m
    else
      let (s, d, bad) := msgData s m (gField m 7 == 1)
      let plain : Msg := { m with data := d, src := s.dev, aux := m.aux.take 7 ++ [if bad then 1 else 0] }
      if stamp = g.applied + 1 then wakeCommands (nextEarly (applyOp s n plain) n)
      else if g.early.any (fun x => gField x 5 == stamp) then s
      else modGroup s n fun g => { g with early := g.early ++ [plain] }

/-! ## Completion (R144, R168) -/

/-- A held MST or MCOPY line leaves its hart's counter (R144). -/
def countHeld (s : State) (o : HeldOp) : State :=
  if o.kind = 2 ∨ o.hart = noHart then s else modHart s o.hart fun x => { x with mcastCnt := x.mcastCnt - 1 }

/-- Operations leave the hold of an entry as done. -/
def releaseHeld (s : State) (n : Nat) (f : HeldOp → Bool) : State :=
  let gone := (getGroup s n).held.filter f
  let s := modGroup s n fun g => { g with held := g.held.filter fun o => !f o }
  let s := gone.foldl (fun s o => answered (countHeld s o) o.id) s
  wakeCommands (confirmAll s)

/-- Every member has applied the writer's operation (R144, R168). -/
def execMdone (s : State) : Out :=
  onMsg s fun s m =>
    let s := answered s (gField m 0)
    match entryOfGid s (gField m 1) with
    | some n => releaseHeld s n fun o => o.id == gField m 0
    | none => s

/-! ## Re-forming (R169-R171) -/

/-- The lowest and the highest APPLIED of the survivors that have answered. -/
def reformRange (g : Group) : Nat × Nat :=
  match g.answers.map (·.2) with
  | [] => (0, 0)
  | x :: l => (l.foldl Nat.min x, l.foldl Nat.max x)

/-- The 256 bytes of a replay slot of a member; none while they are on their way. A member's area stands at the local
offset of the sequencer's own (assumption log, entry 33). -/
def replaySlot (s : State) (g : Group) (src stamp : Nat) : Option Nat :=
  let a := src * 2 ^ 42 + offOf g.replay + 256 * (stamp % depthOf g)
  if src = s.dev then some (readBytes s.mem a 256)
  else match tabGet none s.peers (a / 128), tabGet none s.peers (a / 128 + 1) with
    | some p, some q =>
      if p.valid = BitVec.allOnes 128 ∧ q.valid = BitVec.allOnes 128 then some (p.data.toNat + q.data.toNat * 2 ^ 1024) else none
    | _, _ => none

/-- The first line of a replay slot of a member. -/
def slotLine (g : Group) (src stamp : Nat) : Nat := (src * 2 ^ 42 + offOf g.replay + 256 * (stamp % depthOf g)) / 128

/-- The lines of a slot are asked for, and a copy that the module holds from before is given up for it. -/
def askSlot (s : State) (g : Group) (src stamp : Nat) : State :=
  let want (s : State) (l : Nat) : State :=
    let s := match tabGet none s.peers l with
      | some p => if ownState p.st then s else dropPeer s l p
      | none => s
    askHome s 0x01 l ⟨.prds, s.dev, 0, none, 0, 0, false, false⟩
  let l := slotLine g src stamp
  if src = s.dev then s else want (want s l) (l + 1)

/-- The operation that a replay slot holds, as a message of this module. -/
def slotMsg (s : State) (g : Group) (src stamp x : Nat) : Msg :=
  let f (lo n : Nat) : Nat := x / 2 ^ (8 * lo) % 2 ^ (8 * n)
  let unit : LineData := BitVec.ofNat 1024 x
  let k := keysOf s g.td
  let plain := if g.td = 0 then unit else xtsDecrypt k.key1 k.key2 (g.gid * 2 ^ 64 + stamp) unit
  { mkMsg s s.dev 0x15 (f 128 8 / 128) with
    td := g.td, mask := BitVec.ofNat 128 (f 136 16), data := plain
    aux := [f 160 8, g.gid, f 152 1, f 153 1, f 154 1, stamp, f 156 2 % 2 ^ 14, if s.poison.contains (slotLine g src stamp) then 1 else 0] }

/-- The new sequencer has every MAck through M: the group goes on (R170). -/
def reformDone (s : State) (n top : Nat) : State :=
  let g := getGroup s n
  let s := modGroup s n fun g => { g with stamped := top, state := 1, rstat := 0, answers := [], target := 0 }
  (membersOf s g).foldl (fun s d => send s { mkMsg s d 0x17 0 with aux := [top, g.gid] }) s

/-- One stamp of the replay sent to the survivors that lack it (R170). -/
def replayOne (s : State) (g : Group) (src stamp : Nat) : State :=
  match replaySlot s g src stamp with
  | none => s
  | some x =>
    let m := slotMsg s g src stamp x
    (g.answers.filter fun a => decide (a.2 < stamp)).foldl (fun s a => send s { m with dst := a.1 }) s

/-- The re-forming goes on as far as the answers allow (R170). -/
def reformTry (s : State) (n : Nat) : State :=
  let g := getGroup s n
  let all := membersOf s g
  if g.state ≠ 3 ∨ g.rstat ≠ 3 ∨ !(all.all fun d => g.answers.any fun a => a.1 == d) then s
  else
    let (lo, top) := reformRange g
    if depthOf g < top - lo then modGroup s n fun g => { g with rstat := 1, state := 2 }
    else
      let src := ((g.answers.filter fun a => a.2 == top).map (·.1)).foldl Nat.min (2 ^ 14)
      let stamps := (List.range (top - lo)).map (· + lo + 1)
      if g.target = 0 then
        if (g.fetching || src == s.dev) && stamps.all fun k => (replaySlot s g src k).isSome then
          let s := stamps.foldl (fun s k => replayOne s g src k) s
          let s := modGroup s n fun g => { g with target := top + 1, acked := g.answers.foldl (fun t a => tabPut 0 t a.1 a.2) [] }
          if lo = top then reformDone s n top else s
        else
          let s := if g.fetching then s else
            stamps.foldl (fun s k => askSlot s g src k) (modGroup s n fun g => { g with fetching := true })
          after s 1000 (.groupReform, { a := n, flag := true })
      else if top ≤ allAcked s g then reformDone s n top
      else s

/-- A member has applied a stamp (R168, R170). -/
def execMack (s : State) : Out :=
  onGroup 1 s fun s m n =>
    let stamp := gField m 0
    let s := modGroup s n fun g => { g with acked := tabPut 0 g.acked m.src (Nat.max stamp (tabGet 0 g.acked m.src)) }
    let g := getGroup s n
    if g.state = 3 then reformTry s n
    else
      let low := allAcked s g
      let done := g.origins.filter fun o => decide (o.1 ≤ low)
      let s := modGroup s n fun g => { g with origins := g.origins.filter fun o => !decide (o.1 ≤ low) }
      let s := done.foldl (fun s o => send s { mkMsg s o.2.1 0x2A 0 with aux := [o.2.2, g.gid] }) s
      stampWaiting s n

/-- A survivor is asked for its APPLIED: its entry is re-forming, and what it kept above APPLIED is discarded (R169,
R170). -/
def execMstate (s : State) : Out :=
  onGroup 1 s fun s m n =>
    let s := modGroup s n fun g => { g with state := 3, early := [] }
    let g := getGroup s n
    send s { mkMsg s m.src 0x2B 0 with aux := [gField m 0, g.gid, g.applied] }

/-- A survivor has answered (R170). -/
def execMstateack (s : State) : Out :=
  onMsg s fun s m =>
    match entryOfGid s (gField m 1) with
    | none => s
    | some n =>
      let g := getGroup s n
      if g.state ≠ 3 ∨ g.rstat ≠ 3 ∨ g.answers.any (fun a => a.1 == m.src) then s
      else reformTry (modGroup s n fun g => { g with answers := g.answers ++ [(m.src, gField m 2)] }) n

/-- An operation of a writer is sent to the sequencer again (R171). -/
def resendHeld (s : State) (n : Nat) (o : HeldOp) : State :=
  let g := getGroup s n
  let s := answered s o.id
  let id := s.nextReq
  let held := g.held.map fun x => if x.id = o.id then { x with id := id, sent := true } else x
  let s := modGroup s n fun g => { g with held := held }
  let s := if o.hart = noHart then s else
    modHart s o.hart fun x => { x with mamo := x.mamo.map fun p => if p.1 = o.id then (id, p.2) else p }
  request s (mreqMsg s g o) []

/-- The group goes on at stamp M: held operations that were applied are done, the others are sent again in order (R170,
R171). -/
def execMresume (s : State) : Out :=
  onGroup 1 s fun s _ n =>
    let s := modGroup s n fun g => { g with state := 1 }
    let s := releaseHeld s n fun o => o.stamp.isSome
    (getGroup s n).held.foldl (fun s o => resendHeld s n o) s

/-! ## Commands of an entry (R166, R424) -/

/-- CMD = 1: the entry becomes active; nothing is stamped or applied yet. -/
def execGroupActivate (s : State) : Out :=
  let n := s.arg.a
  if (getGroup s n).state ≠ 0 then .next s
  else .next (modGroup s n fun g => { g with
    state := 1, applied := 0, stamped := 0, held := [], waitReqs := [], early := [], acked := [], origins := [], answers := [], target := 0 })

/-- CMD = 2: this module re-forms the frozen group as its new sequencer (R170). -/
def execGroupReform (s : State) : Out :=
  let n := s.arg.a
  let g := getGroup s n
  if s.arg.flag then .next (reformTry s n)
  else if g.state ≠ 2 then .next s
  else
    let s := modGroup s n fun g => { g with
      state := 3, rstat := 3, early := [], waitReqs := [], origins := [], answers := [], target := 0, fetching := false, since := s.cycle }
    let s := (membersOf s g).foldl (fun s d => send s { mkMsg s d 0x16 0 with aux := [0, g.gid] }) s
    .next (after s (ftoNs s) (.survivorUnreachable, { a := n, b := s.cycle }))

/-- A survivor has not answered within the timeout of this re-forming: the group of the new sequencer is frozen again, and
survivors that have answered stay re-forming (R170; assumption log, entry 84). -/
def execSurvivorUnreachable (s : State) : Out :=
  let n := s.arg.a
  let g := getGroup s n
  if g.state = 3 ∧ g.rstat = 3 ∧ g.since = s.arg.b ∧ ¬ ((membersOf s g).all fun d => g.answers.any fun a => a.1 == d) = true then
    .next (modGroup s n fun g => { g with state := 2, rstat := 2 })
  else .next s

/-- A waiting MAMO of a deactivated group completes with a free value (R285, R424). -/
def freeMamo (s : State) (o : HeldOp) : State :=
  if o.kind ≠ 2 ∨ o.hart = noHart then s
  else
    let v := Config.freeWord s.freeCtr
    spend (modHart s o.hart fun x => { x with mamo := x.mamo.map fun p => if p.1 = o.id then (o.id, some v) else p }) 1

/-- CMD = 3: the entry is inactive, and what it holds for writers is discarded as done (R424). -/
def execGroupDeactivate (s : State) : Out :=
  let n := s.arg.a
  let s := (getGroup s n).held.foldl freeMamo s
  let s := releaseHeld s n fun _ => true
  .next (modGroup s n fun g => { g with state := 0, waitReqs := [], early := [], origins := [], answers := [], target := 0 })

end Sys2Proof.Machine
end

