-- ==== Sys2Proof/Machine/Spdm.lean ====
section
/-!
DEFINITION. The security processor's side of SPDM 1.2 (R148, R161, R417): key exchange over secp384r1 (SEC 2, FIPS 186), the
keys of a session (DSP0274), signatures of SHA3-512 transcripts, measurement blocks, and the challenges that attest a port. The
layouts of the messages are those of SPDM where it gives them (assumption log, entry 70).
-/

namespace Sys2Proof.Machine

/-! ## The curve of the key exchange -/

/-- The prime, the constant and the base point of the curve y² = x³ - 3 x + b, and the order of the base point. -/
def ecP : Nat := 2 ^ 384 - 2 ^ 128 - 2 ^ 96 + 2 ^ 32 - 1
def ecB : Nat := 0xb3312fa7e23ee7e4988e056be3f82d19181d9c6efe8141120314088f5013875ac656398d8a2ed19d2a85c8edd3ec2aef
def ecN : Nat := 0xffffffffffffffffffffffffffffffffffffffffffffffffc7634d81f4372ddf581a0db248b0a77aecec196accc52973
/-- A point of the curve; none is the neutral one. -/
abbrev EcPoint := Option (Nat × Nat)
def ecBase : EcPoint := some
  (0xaa87ca22be8b05378eb1c71ef320ad746e1d3b628ba79b9859f741e082542a385502f25dbf55296c3a545e3872760ab7,
   0x3617de4a96262c6f5d9e98bf9292dc29f8f41dbd289a147ce9da3113b5f0b8c00a60b1ce1d7e819d7a431d7c90ea0e5f)

def ecSub (a b : Nat) : Nat := (a + (ecP - b % ecP)) % ecP
def ecInv (a : Nat) : Nat := powMod ecP a 384 (ecP - 2)

def ecAdd (p q : EcPoint) : EcPoint :=
  match p, q with
  | none, q => q
  | p, none => p
  | some (x, y), some (u, v) =>
    if x = u ∧ (y + v) % ecP = 0 then none
    else
      let m := if x = u then ecSub (3 * x * x) 3 * ecInv (2 * y % ecP) % ecP else ecSub v y * ecInv (ecSub u x) % ecP
      let w := ecSub (ecSub (m * m) x) u
      some (w, ecSub (m * ecSub x w) y)

/-- A multiple of a point; the first argument is how many bits the factor has. -/
def ecMul (p : EcPoint) : Nat → Nat → EcPoint
  | 0, _ => none
  | n + 1, k =>
    let q := ecMul p n (k / 2)
    if k % 2 = 1 then ecAdd (ecAdd q q) p else ecAdd q q

/-- A point as 96 bytes, x before y, each highest byte first; and the point of the curve that 96 bytes name. -/
def ecEncode : EcPoint → List Byte
  | some (x, y) => bigBytes x 48 ++ bigBytes y 48
  | none => []
def ecDecode (b : List Byte) : EcPoint :=
  let x := ofBig (b.take 48)
  let y := ofBig (b.drop 48)
  if b.length = 96 ∧ x < ecP ∧ y < ecP ∧ y * y % ecP = (ecSub (x * x * x) (3 * x) + ecB) % ecP then some (x, y) else none

/-! ## Keys of a session -/

/-- HMAC with SHA3-512, whose blocks have 72 bytes; no key here is longer than one. -/
def hmac (key x : List Byte) : List Byte :=
  let k := key ++ List.replicate (72 - key.length) 0
  sha3 (k.map (· ^^^ 0x5C) ++ sha3 (k.map (· ^^^ 0x36) ++ x))

/-- Bytes derived from a secret for a label and a context, at most 64. -/
def deriveBytes (secret : List Byte) (n : Nat) (label : String) (context : List Byte) : List Byte :=
  (hmac secret (bytesOf n 2 ++ asciiBytes "spdm1.2 " ++ asciiBytes label ++ context ++ [1])).take n

/-- The key and the initial value for what the requester sends, from the shared secret and the hash of the transcript. -/
def sessionKeys (shared th : List Byte) : Nat × List Byte :=
  let zeros : List Byte := List.replicate 64 0
  let master := hmac (deriveBytes (hmac zeros shared) 64 "derived" []) zeros
  let data := deriveBytes master 64 "req app data" th
  (ofBytes (deriveBytes data 32 "key" []), deriveBytes data 12 "iv" [])

/-! ## Signatures -/

/-- What a signature of a transcript covers, for a context (SPDM 1.2). -/
def spdmSigned (context : String) (transcript : List Byte) : List Byte :=
  let prefix_ := asciiBytes "dmtf-spdm-v1.2.*dmtf-spdm-v1.2.*dmtf-spdm-v1.2.*dmtf-spdm-v1.2.*"
  let c := asciiBytes context
  prefix_ ++ List.replicate (36 - c.length) 0 ++ c ++ sha3 transcript

/-- The signing key of a certificate slot: the device identity key in slot 0, in slot 1 the alias key, derived for the booted
version (R417). -/
def slotKey (s : State) (slot : Nat) : List Byte := if slot = 1 then Config.aliasKey (tabGet 0 s.meas 2) else Config.deviceKey

/-! ## Measurements (R417) -/

/-- The blocks that stand: 1 and 5 in every stage, 2 and 3 once an image has booted, 4 once the operating system has been
loaded; each with the DMTF type of its value. -/
def measured (s : State) : List (Nat × Nat × BitVec 512) :=
  let recorded (i t : Nat) : List (Nat × Nat × BitVec 512) := if (s.meas.any fun m => m.1 == i) then [(i, t, tabGet 0 s.meas i)] else []
  [(1, 0, Config.romDigest)] ++ recorded 2 1 ++ recorded 3 3 ++ recorded 4 1 ++ [(5, 2, Config.fuseDigest s.fusedFloor)]

/-- A measurement block: index, the DMTF specification, its size, its type as a raw bit stream, and the digest. -/
def measBlock (m : Nat × Nat × BitVec 512) : List Byte :=
  [BitVec.ofNat 8 m.1, 1] ++ bytesOf 67 2 ++ [BitVec.ofNat 8 (0x80 + m.2.1)] ++ bytesOf 64 2 ++ bytesOf m.2.2.toNat 64

/-! ## Attestation of a port (R148, R151) -/

/-- A message of the security processor as the data flits of an Attest. -/
def packFlits : Nat → List Byte → List (BitVec 512)
  | 0, _ => []
  | n + 1, b => if b.isEmpty then [] else BitVec.ofNat 512 (ofBytes (b.take 64)) :: packFlits n (b.drop 64)

/-- An Attest over a port with an SPDM message of at most 1,024 bytes, whose length is in bytes 48-49 (R151). -/
def attestMsg (s : State) (p : Nat) (b : List Byte) : Msg :=
  { mkMsg s (getPort s p).peer 0x3A 0 with aux := [b.length], body := packFlits 16 b, port := some p }

/-- The SPDM message that an Attest carries. -/
def attestBytes (m : Msg) : List Byte := (m.body.flatMap fun f => bytesOf f.toNat 64).take (m.aux.headD 0)

/-- 32 free bytes. -/
def freeNonce (n : Nat) : List Byte := (List.range 4).flatMap fun i => bytesOf (Config.freeWord (n + i)).toNat 8

/-- The challenge that a port sends, and the answer to one: the device's public key, bytes of its own and a signature of
both messages. -/
def challenge (nonce : List Byte) : List Byte := [0x12, 0x83, 0, 0] ++ nonce
def challengeAuth (nonce : List Byte) : List Byte := [0x12, 0x03, 0, 0] ++ ed448Public Config.deviceKey ++ nonce
def challengeContext : String := "responder-challenge_auth signing"

/-- An answer proves that the far end is a module: the maker vouches for its key, and the signature is right. -/
def answerProves (ask x : List Byte) : Bool :=
  let key := (x.drop 4).take 57
  Config.moduleKey key && ed448Verify key (spdmSigned challengeContext (ask ++ x.take (x.length - 114))) (x.drop (x.length - 114))

end Sys2Proof.Machine
end

