-- ==== Sys2Proof/Machine/Links.lean ====
section
/-!
DEFINITION. Links: training and joining (R147, R148), link failure (R156), lost devices (R112, R159, R160, R169),
wavelength parking (R172-R174), and the relay and acknowledgement of messages (R150-R153).
-/

namespace Sys2Proof.Machine

/-! ## Messages on one link -/

/-- A message to the far end of a link, over that link (R151). -/
def linkMsg (s : State) (p code : Nat) (force : Bool) : State :=
  send s { mkMsg s (getPort s p).peer code 0 with aux := [if force then 1 else 0], port := some p }

/-- The port that a message of a link has arrived on. -/
def onLink (s : State) (k : State → Nat → Bool → State) : Out := onMsg s fun s m => k s (m.port.getD 0) (msgFlag m 0)

/-- The ports that are up. -/
def upPorts (s : State) : List Nat := (s.ports.filter fun p => p.2.up).map (·.1)
def globalUp (s : State) : List Nat := (upPorts s).filter fun p => decide (31 ≤ p)

/-! ## Lost devices (R112, R146, R159, R160, R169) -/

/-- A peer line of a lost home: orphaned, and its posted bytes stay in a copy that counts as M (R112). -/
def orphanLine (p : PeerLine) : PeerLine :=
  if p.pend ||| p.fly = 0 then { p with orphan := true }
  else { p with st := .m, orphan := true, discarded := true, pend := 0, fly := 0, pendHarts := [], flyHarts := [], pendCmds := [], flyCmds := [] }

/-- A command whose posted bytes the lost home has not acknowledged fails at the first of them (R69, R70). -/
def failPosted (d : Nat) (s : State) (h : Nat) : State :=
  match (getHart s h).fifo.cmds with
  | c :: _ =>
    match (c.posted.filter fun w => lineDev w.1 == d).map (·.2.1) with
    | [] => s
    | n :: r =>
      let n := r.foldl Nat.min (match c.fin with | some f => Nat.min f.2 n | none => n)
      modHead s h fun c => { c with
        fin := some (0x06, if field 7 0 c.cmd.d0 = 0x0A then 0 else n), posted := c.posted.filter fun w => lineDev w.1 != d }
  | [] => s

/-- The lines of a lost home are orphaned, the counters of its posted bytes fall, and requests for its lines end (R112). -/
def orphanHome (s0 : State) (d : Nat) : State :=
  let s := (hartIds s0).foldl (failPosted d) s0
  let mine := s.peers.filter fun p => lineDev p.1 == d
  let hs := mine.flatMap fun p => match p.2 with | some l => l.pendHarts ++ l.flyHarts | none => []
  let s := countPosted { s with peers := tabMap none (fun l p => if lineDev l = d then p.map orphanLine else p) s.peers } hs
  (((tabKeys s.coh).filter fun l => lineDev l == d && !(getCoh s l).fills.isEmpty).foldl dropFills s)

/-- A group whose sequencer or member list names a lost device freezes; an inactive entry stays inactive (R146, R169;
assumption log, entry 83). -/
def freezeGroups (s : State) (d : Nat) : State :=
  (tabKeys s.groups).foldl (fun s n =>
    let g := getGroup s n
    if g.state ≠ 0 ∧ (g.seqdev = d ∨ (membersOf s g).contains d = true) then modGroup s n fun g => { g with state := 2 } else s) s

/-- A device is recorded lost: requests to it end, and what waits for a path to it is not sent (R112, R158-R160, R421). -/
def recordLost (s : State) (d : Nat) : State :=
  if s.lostMap.contains d ∨ d = s.dev then s
  else
    let gone := (s.reqs.filter fun r => r.msg.dst == d).map (·.id)
    let s := gone.foldl (fun s id => ncDone (answered s id) id) { s with
      net := s.net.filter fun m => m.src != s.dev || m.dst != d
      lostMap := setInsert s.lostMap d
      extstat := s.extstat ||| 4
      hbWait := tabErase s.hbWait d }
    let s := freezeGroups (orphanHome s d) d
    wakeCommands (confirmAll (announce s evLost 5 d))

/-- LostDecl goes out over every link that is up (R159). -/
def floodLost (s : State) (d : Nat) : State :=
  (upPorts s).foldl (fun s p => send s { mkMsg s (getPort s p).peer 0x34 0 with aux := [d], port := some p }) s

/-- This module declares a device lost (R159). -/
def declare (s : State) (d : Nat) : State := if s.lostMap.contains d ∨ d = s.dev then s else floodLost (recordLost s d) d

/-- The first copy of a declaration is recorded and forwarded, later ones are ignored (R159). -/
def execLostdecl (s : State) : Out := onMsg s fun s m => declare s (msgId m % 2 ^ 14)

/-- A module has announced itself lost: its declarer declares it (R151, R159). -/
def execLostself (s : State) : Out := onMsg s fun s m => if declarer s m.src = some s.dev then declare s m.src else s

/-- A liveness question is answered by the device that it addresses (R151, R159). -/
def execHbreq (s : State) : Out := onMsg s fun s m => send s (mkMsg s m.src 0x33 0)

/-- A device has answered (R159). -/
def execHbans (s : State) : Out :=
  onMsg s fun s m => { s with hbWait := tabMod none s.hbWait m.src fun q => q.map fun x => (x.1, true) }

/-- A device that this module has reported and that no other would declare: it declares it once it has had no path to it for
100 µs, and no declaration has come within the timeout after its report (R159). -/
def watchPath (s : State) (d since : Nat) (noPath : Nat) : State :=
  if s.lostMap.contains d then s
  else if (choosePath s (mkMsg s d 0x01 0)).isSome then
    after s 1000 (.deviceLostTimeout, { a := d, b := since, flag := true })
  else
    let from_ := if noPath = 0 then s.mtime else noPath - 1
    if from_ + 100000 ≤ s.mtime ∧ since + ftoNs s ≤ s.mtime then declare s d
    else after s 1000 (.deviceLostTimeout, { a := d, b := since, c := from_ + 1, flag := true })

/-- The question about a device whose local links are all down: asked at once; without an answer, the device is declared
lost when both times have passed. A local link that is up again ends it (R159). -/
def askDown (s : State) (d : Nat) : State :=
  if declarer s d ≠ some s.dev then s
  else if !localDown s d then { s with hbWait := tabErase s.hbWait d }
  else match tabGet none s.hbWait d with
    | none => askAlive s d
    | some (t, answered) =>
      let due := Nat.max (lastDown s d + 100000) (t + ftoNs s)
      if answered then s
      else if due ≤ s.mtime then declare s d
      else after s (due - s.mtime) (.deviceLostTimeout, { a := d })

/-- A device has not answered in time, or must be asked (R158, R159). -/
def execDeviceLostTimeout (s : State) : Out :=
  .next (if s.arg.flag then watchPath s s.arg.a s.arg.b s.arg.c else askDown s s.arg.a)

/-! ## Links (R147, R148, R156) -/

/-- A link goes down: it leaves the parked state and retrains, and its queue is left to the sources of its messages (R156,
R173). -/
def linkDown (s : State) (p : Nat) : State :=
  let s := modPort s p fun x => { x with
    up := false, downAt := s.mtime, fails := 0, parked := false, forced := false, farForced := false, rejoinAt := none, mayRetrain := true
    queue := [], wakes := [] }
  after s 1000000 (.linkRetrainTimeout, { a := p })

/-- A timer of a port starts unless it runs. -/
def portTimer (s : State) (dt : Nat) (i : Instr) (p : Nat) : State :=
  if s.events.any fun e => e.2.1 == i && e.2.2.a == p && e.2.2.msg.isNone then s else after s dt (i, { a := p })

/-- A port trains, by itself within 1 ms of its going down, or at the request of the management controller: an end whose peer
does not fit the wiring keeps the port down and logs it. The attestation of a new far end follows (R147, R148, R156). -/
def execLinkTrain (s : State) : Out :=
  let p := s.arg.a
  if !(getPort s p).mayRetrain && !s.arg.flag then .next s
  else if wiring s.dev p = some (s.arg.b, s.arg.c) then
    let s := modPort s p fun x => { x with
      trained := true, up := true, attested := x.attested && x.peer == s.arg.b, peer := s.arg.b, lastFlit := s.mtime, fails := 0
      mayRetrain := true, freeAt := s.cycle, idleSince := s.mtime }
    let s := portTimer (portTimer s 1000 .heartbeat p) 16000 .heartbeatTimeout p
    .next (if (getPort s p).attested then s else after s 0 (.attest, { a := p }))
  else .next (logEv (modPort s p fun x => { x with up := false }) evMismatch p s.arg.b)

/-- A heartbeat leaves on a link every microsecond; one that comes in is a sign of life as every flit is (R156). -/
def execHeartbeat (s : State) : Out :=
  if s.arg.msg.isSome then onLink s fun s _ _ => s
  else
    let p := s.arg.a
    if (getPort s p).up then .next (after (linkMsg s p 0x31 false) 1000 (.heartbeat, { a := p })) else .next s

/-- A flit's CRC fails: it is sent again, and the eighth failure in a row takes the link down (R156). -/
def execFlitCrcFail (s : State) : Out :=
  let p := s.arg.a
  let x := getPort s p
  if !x.up then .next s
  else if 7 ≤ x.fails then .next (linkDown s p)
  else .next (modPort s p fun x => { x with fails := x.fails + 1 })

/-- No flit for 16 µs: the link is down; else it is looked at again when that time has passed (R156). -/
def execHeartbeatTimeout (s : State) : Out :=
  let p := s.arg.a
  let x := getPort s p
  if !x.up then .next s
  else if x.lastFlit + 16000 ≤ s.mtime then .next (linkDown s p)
  else .next (after s (x.lastFlit + 16000 - s.mtime) (.heartbeatTimeout, { a := p }))

/-- A link that has not retrained within 1 ms stays down until training is requested again (R156). -/
def execLinkRetrainTimeout (s : State) : Out :=
  let p := s.arg.a
  let x := getPort s p
  if !x.up && decide (x.downAt + 1000000 ≤ s.mtime) then .next (modPort s p fun x => { x with mayRetrain := false }) else .next s

/-- A message of the far end's security processor: a challenge is answered, and the right answer to this end's challenge
attests the port (R148, R417). -/
def onAttest (s : State) (p : Nat) (x : List Byte) : State :=
  if x.getD 1 0 = 0x83 then
    let b := challengeAuth (freeNonce s.freeCtr)
    let sig := ed448Sign Config.deviceKey (spdmSigned challengeContext (x ++ b))
    send (spend s 4) (attestMsg s p (b ++ sig))
  else if x.getD 1 0 = 0x03 ∧ (getPort s p).asked ≠ [] then
    modPort s p fun y => { y with attested := y.trained && answerProves y.asked x, asked := [] }
  else s

/-- The two security processors of a trained port attest each other over management messages: without a message, this end
sends its challenge (R148, R151, R417). -/
def execAttest (s : State) : Out :=
  if s.arg.msg.isSome then onMsg s fun s m => onAttest s (m.port.getD 0) (attestBytes m)
  else
    let p := s.arg.a
    if !(getPort s p).up then .next s
    else
      let b := challenge (freeNonce s.freeCtr)
      .next (send (modPort (spend s 4) p fun x => { x with asked := b }) (attestMsg s p b))

/-! ## Wavelength parking (R172-R174) -/

/-- The parked wavelengths of a port rejoin within 2 µs. -/
def startRejoin (s : State) (p : Nat) : State :=
  let x := getPort s p
  if x.parked && !portForced x && x.rejoinAt.isNone then
    after (modPort s p fun x => { x with rejoinAt := some (s.mtime + 2000) }) 2000 (.wavelengthRejoin, { a := p })
  else s

/-- The queue of a port has been empty for IDLE µs: this end asks to park (R173). -/
def execPortIdlePark (s : State) : Out :=
  let x := getPort s s.arg.a
  if decide (31 ≤ s.arg.a) && x.up && x.pen && !x.parked && portIdle s x then .next (linkMsg s s.arg.a 0x36 false) else .next s

/-- A park request: a forced one cannot be refused, and no wake request of this end that crosses it is answered; another needs
PEN and an empty queue at this end too (R173, R174). -/
def execParkreq (s : State) : Out :=
  onLink s fun s p force =>
    let x := getPort s p
    if x.up && (force || (x.pen && portIdle s x)) then
      linkMsg (modPort s p fun x => { x with
        parked := true, farForced := x.farForced || force, wakes := if force then x.wakes.filter id else x.wakes }) p 0x37 force
    else s

/-- A park request of this end has been accepted (R173, R174). -/
def execParkack (s : State) : Out :=
  onLink s fun s p force => if (getPort s p).up then modPort s p fun x => { x with parked := true, forced := x.forced || force } else s

/-- A wake request: a forced one releases the far end's forcing; another lets the wavelengths rejoin unless the port is
forced (R173, R174). -/
def execWakereq (s : State) : Out :=
  onLink s fun s p force =>
    if force then linkMsg (modPort s p fun x => { x with farForced := false }) p 0x39 false
    else if portForced (getPort s p) then s
    else startRejoin (linkMsg s p 0x39 false) p

/-- The oldest wake request of this end has been accepted; the release of a forced port wakes nothing (R151, R173, R174). -/
def execWakeack (s : State) : Out :=
  onLink s fun s p _ =>
    let t := modPort s p fun x => { x with wakes := x.wakes.tail }
    if (getPort s p).wakes.head? = some false then startRejoin t p else t

/-- A sending queue has reached WTH flits: an unforced parked port asks to wake (R173, R174). -/
def execPortWake (s : State) : Out :=
  let x := getPort s s.arg.a
  if x.parked && !portForced x && !x.wakes.contains false && decide (x.wth ≤ portDepth x) then
    .next (linkMsg (modPort s s.arg.a fun x => { x with wakes := x.wakes ++ [false] }) s.arg.a 0x38 false)
  else .next s

/-- The parked wavelengths have rejoined (R173). -/
def execWavelengthRejoin (s : State) : Out :=
  let p := s.arg.a
  let x := getPort s p
  match x.rejoinAt with
  | some t =>
    if t ≤ s.mtime ∧ portForced x = false then .next (modPort s p fun x => { x with parked := false, rejoinAt := none })
    else if portForced x then .next (modPort s p fun x => { x with rejoinAt := none })
    else .next s
  | none => .next s

/-- The I/O die has reached 95 °C: every global port is asked to park, forced (R174). -/
def execForcedPark (s : State) : Out :=
  .next ((globalUp s).foldl (fun s p => linkMsg s p 0x36 true) { s with coolAt := none })

/-- The I/O die has stayed at or below 90 °C for 1 ms: the ports that this end forced are released (R174). -/
def execForcedParkRelease (s : State) : Out :=
  match s.coolAt with
  | some t =>
    if t + 1000000 ≤ s.mtime then
      .next ((globalUp s).foldl (fun s p => if (getPort s p).forced then
        linkMsg (modPort s p fun x => { x with forced := false, wakes := x.wakes ++ [true] }) p 0x38 true else s) s)
    else .next s
  | none => .next s

/-! ## Relay and acknowledgement (R150-R153) -/

/-- A message for another module is forwarded on its next hop, unless its code or its channel is wrong or it comes from a
device recorded lost; one for this module is handled (R150-R152, R160). -/
def execMessageRelay (s : State) : Out :=
  match s.arg.msg with
  | none => .next s
  | some m =>
    if m.dst = s.dev then .next (after s 0 (msgInstr m))
    else
      let t := noteFlit s m
      match msgClass m.code with
      | none => .next (logEv t evMessage m.code m.src)
      | some cls =>
        if m.vc / 2 ≠ cls then .next (logEv t evMessage m.code m.src)
        else if cls ≠ 3 ∧ s.lostMap.contains m.src then .next t
        else .next (relayed t m)

/-- A message of an unknown code, or on a channel of another class, is discarded and logged (R151). -/
def execUnknownMessageCode (s : State) : Out :=
  match s.arg.msg with
  | some m => .next (logEv (noteFlit s m) evMessage m.code m.src)
  | none => .next (logEv s evMessage)

/-- The oldest messages of a pair and class have been acknowledged, and waiting ones leave (R153). -/
def execPairAcknowledgement (s : State) : Out :=
  let k := pairKey s.arg.a s.arg.b
  let p := tabGet Pair.reset s.pairs k
  let left := p.unacked.drop s.arg.c
  let room := maxUnacked - left.length
  let go := p.waiting.take room
  .next { s with
    pairs := tabPut Pair.reset s.pairs k { p with unacked := left ++ go.map (fun m => ⟨m, []⟩), waiting := p.waiting.drop room }
    net := s.net ++ go }

end Sys2Proof.Machine
end

