-- ==== Sys2Proof/Machine/Thread.lean ====
section
/-!
DEFINITION. Thread, task and synchronisation instructions (R203-R213, R350-R360).
-/

namespace Sys2Proof.Machine

/-! ## Creating harts (R203-R209, R350, R351) -/

/-- Registers l to h of a creator in a child; g0 stays zero (R204). -/
def copyG (p c : Arch) (l h : Nat) : Arch :=
  { c with g := Vector.ofFn fun i : Fin 64 => if i.val ≠ 0 ∧ l ≤ i.val ∧ i.val ≤ h then p.g[i] else c.g[i] }
def copyV (p c : Arch) (l h : Nat) : Arch :=
  { c with v := Vector.ofFn fun i : Fin 32 => if l ≤ i.val ∧ i.val ≤ h then p.v[i] else c.v[i] }

/-- A completion-counter address is a multiple of 8 (R205). -/
def counterOk (a : Word) : Bool := a.toNat % 8 == 0
def counterTrap (a : Word) : Trap := { code := cMisalign, tval := a }

/-- The control word of spawn has no reserved bit set (R350). -/
def spawnCtlOk (x : Word) (place : Nat) : Bool := decide (x.toNat < 2 ^ 23) && (place == 4 || field 11 0 x == 0)

/-- The child of a spawn (R204, R350). -/
def spawnArch (p : Arch) (entry ctl : Word) (lo hi : GReg) : Arch :=
  let a := copyG p (childArch p entry) lo.toNat hi.toNat
  if ctl.getLsbD 22 then copyV p a (field 16 12 ctl) (field 21 17 ctl) else a

/-- The status of a spawn, and the slot that it takes (R206, R374). -/
def spawnSlot (s : State) (hreq : Word) (place hid : Nat) : Nat × Option Nat :=
  if place = 4 then
    if !coreCovers s hreq (coreOf hid) then (2, none) else if slotFree s hid then (0, some hid) else (1, none)
  else if !coveredIn s hreq (coreOf s.curId) place then (2, none)
  else match pickSlot s hreq (coreOf s.curId) place with
    | some h => (0, some h)
    | none => (1, none)

def spawnBody (rd rpair rctl lo hi : GReg) (place : BitVec 3) (s : State) : Eff :=
  let p := s.cur.arch
  let cc := rdG p (gNext rpair)
  let ctl := rdG p rctl
  guardTrap (spawnCtlOk ctl place.toNat) (wordTrap cIllegal s) s <|
  guardTrap (counterOk cc) (counterTrap cc) s <|
  released s fun s =>
  let r := spawnSlot s p.hreq place.toNat (field 11 0 ctl)
  let s := match r.2 with
    | some h => placeHart s h (spawnArch p (rdG p rpair) ctl lo hi) s.cur.prio cc
    | none => s
  .ok (setG s rd (w64 r.1))

def execSpawn (c : Ctl) (rd rpair rctl lo hi : GReg) (place : BitVec 3) (s : State) : Out :=
  serial c s (spawnBody rd rpair rctl lo hi place)

/-- The extents of an extent word (R351). -/
def extOf (x : Word) : Vector Nat 3 := #v[field 12 0 x, field 28 16 x, field 44 32 x]

/-- The rule and extent words have no reserved bit set and no extent above 4,096 (R207, R351). -/
def gangWordsOk (rule ext : Word) : Bool :=
  decide (rule.toNat < 2 ^ 48) && !rule.getLsbD 45 && ext &&& ~~~(0x1FFF1FFF1FFF : Word) == 0 &&
    (extOf ext).toList.all fun e => decide (e ≤ 4096)

/-- A free generator for a gang: of the creator's die, and for placement 3 of any die (R209, R375). -/
def freeGenerator (s : State) (place : Nat) : Option (Nat × Nat) :=
  let own := dieOf s.curId
  let inDie (d : Nat) : Option (Nat × Nat) :=
    ((List.range 16).find? fun g => (tabGet none (getDie s d).gens g).isNone).map fun g => (d, g)
  (inDie own) <|> (if place = 3 then (List.range 4).findSome? inDie else none)

/-- The adjustment of a completion counter by one atomic at package scope (R205, R351); no counter, no access. -/
def adjustCounter (s : State) (cc : Word) (d : Nat → Nat) (k : State → State) : Eff :=
  if cc = 0 then .ok (k s) else commitNow (rmw s 8 .pkg cc (fun y => some (d y % 2 ^ 64)) fun s _ => k s)

/-- A gang recorded in a generator (R209). -/
def recordGang (s : State) (at_ : Nat × Nat) (g : Gang) : State :=
  modDie s at_.1 fun d => { d with gens := tabPut none d.gens at_.2 (some g) }

def spawngBody (rd rpair rrule rext hi : GReg) (place : BitVec 3) (s : State) : Eff :=
  let p := s.cur.arch
  let cc := rdG p (gNext rpair)
  let rule := rdG p rrule
  let ext := extOf (rdG p rext)
  let n := gangSize rule ext
  guardTrap (gangWordsOk rule (rdG p rext)) (wordTrap cIllegal s) s <|
  guardTrap (counterOk cc) (counterTrap cc) s <|
  released s fun s =>
  let reject (st : Nat) : Eff :=
    if cc = 0 then .ok (setG s rd (w64 st))
    else thenDo (translate s (whoCur s) (scalarReq .atomic 8 false cc) cc) fun s _ => .ok (setG s rd (w64 st))
  if n = 0 then adjustCounter s cc (fun y => y + 2 ^ 64 - 1) fun s => setG s rd 0
  else if !coveredIn s p.hreq (coreOf s.curId) place.toNat then reject 2
  else match freeGenerator s place.toNat with
    | none => reject 1
    | some g =>
      adjustCounter s cc (fun y => y + n - 1) fun s =>
        let tmpl := copyG p (childArch p (rdG p rpair)) 1 hi.toNat
        setG (recordGang s g ⟨rule, ext, 0, place.toNat, s.curId, s.cur.prio, rdG p rpair, cc, tmpl, s.cycle⟩) rd 0

def execSpawng (c : Ctl) (rd rpair rrule rext : GReg) (hi : GReg) (place : BitVec 3) (s : State) : Out :=
  serial c s (spawngBody rd rpair rrule rext hi place)

/-! ## Task nodes (R210, R211, R352) -/

/-- The double word at an offset of a descriptor. -/
def descWord (x off : Nat) : Word := BitVec.ofNat 64 (x >>> (8 * off))

/-- The start counter of TASKW, which must lie in the module's own coherent memory: its place, where it does not read
zero (R211). -/
def startCounter (s : State) (a : Word) : State × Res (Option Nat) :=
  match translate s (whoCur s) (scalarReq .load 8 false a) a with
  | (s, .val x) =>
    if devOf x.pa ≠ s.dev ∨ x.lvl.isSome then (s, perm a)
    else match readLine (noteUsed s x.used) .load x 8 a with
      | (s, .val y) => (s, .val (if y = 0 then none else some x.pa))
      | (s, .trap t) => (s, .trap t)
      | (s, .wait c) => (s, .wait c)
      | (s, .again) => (s, .again)
  | (s, .trap t) => (s, .trap { t with tval := a })
  | (s, .wait c) => (s, .wait c)
  | (s, .again) => (s, .again)

/-- The reserved fields of a descriptor are zero, those of its hreq word too (R201; assumption log, entry 61), and TASK names
no start counter (R210, R211). -/
def descOk (x : Nat) (waiting : Bool) : Bool :=
  descWord x 0x58 &&& ~~~(0x3F07 : Word) == 0 && descWord x 0x60 &&& ~~~(1 : Word) == 0 && x >>> (8 * 0x68) % 2 ^ 192 == 0 && (waiting || descWord x 0x48 == 0)

/-- The node hart as its creator's child (R204, R210). -/
def nodeArch (p : Arch) (x : Nat) (addr : Word) : Arch :=
  let a := { childArch p (descWord x 0) with hreq := descWord x 0x60 }
  { a with g := Vector.ofFn fun i : Fin 64 =>
      if 1 ≤ i.val ∧ i.val ≤ 8 then descWord x (8 * i.val) else if i.val = 9 then addr else 0 }

/-- The node of a descriptor; `start` is the physical address of the counter that it waits for. -/
def nodeOf (s : State) (x : Nat) (addr : Word) (start : Option Nat) : Node :=
  let ctl := descWord x 0x58
  { entry := descWord x 0, args := (List.range 8).map fun i => descWord x (8 + 8 * i), addr := addr, start := start
    cc := descWord x 0x50, prio := field 2 0 ctl, aff := if ctl.getLsbD 13 then some (field 12 8 ctl) else none
    hreq := descWord x 0x60, readyAt := s.cycle, logged := false, tmpl := nodeArch s.cur.arch x addr }

/-- The node is posted in the pool of its die, or not; the status says which (R211). -/
def postNode (s : State) (n : Node) : State × Nat :=
  let d := match n.aff with | some cl => cl / 8 | none => dieOf s.curId
  if !coveredIn s n.hreq (128 * d) 2 then (s, 2)
  else if 4096 ≤ (getDie s d).pool.length then (s, 1)
  else (modDie s d fun x => { x with pool := x.pool ++ [n] }, 0)

def taskBody (waiting : Bool) (rd rdesc : GReg) (s : State) : Eff :=
  let a := gOf s rdesc
  thenDo (load s ⟨.load, 128, decide (a.toNat % 128 ≠ 0), .refused⟩ a) fun s x =>
    let cc := descWord x 0x50
    let start := descWord x 0x48
    let post (s : State) (pa : Option Nat) : Eff :=
      let (s, st) := postNode s (nodeOf s x a pa)
      .ok (setG s rd (w64 st))
    guardTrap (descOk x waiting) (wordTrap cIllegal s) s <|
    guardTrap (counterOk cc) (counterTrap cc) s <|
    if waiting then thenDo (startCounter s start) fun s pa => released s fun s => post s pa
    else released s fun s => post s none

def execTask (c : Ctl) (rd rdesc : GReg) (s : State) : Out := serial c s (taskBody false rd rdesc)
def execTaskw (c : Ctl) (rd rdesc : GReg) (s : State) : Out := serial c s (taskBody true rd rdesc)

/-! ## Exit and waiting (R212, R213, R353, R354) -/

/-- EXIT: the counters, then the decrement, then the slot is Free; in U mode it is a retired instruction (R212, R398). -/
def exitBody (s : State) : Eff :=
  let cc := s.cur.cc
  if !countersOk s.cur [0, 0, 63, 0] then .wait .exit s
  else guardTrap (counterOk cc) (counterTrap cc) s <|
    match adjustCounter s cc (fun y => y + 2 ^ 64 - 1) id with
    | .ok t => released s fun _ => .ok (vacate (pulseCur t) t.curId false)
    | e => e

def execExit (c : Ctl) (s : State) : Out := serialThen id c s exitBody

/-- The wait of WAITC: its load is repeated when the word may have become zero (R213). -/
def waitcBody (rctr : GReg) (lim : List Nat) (s : State) : Eff :=
  if rctr = 0 then if countersOk s.cur lim then .ok s else .wait (.counter lim none) s
  else
    let a := gOf s rctr
    thenDo (translate s (whoCur s) (scalarReq .load 8 false a) a) fun s x =>
      thenDo (readLine s .load x 8 a) fun s y =>
        if countersOk s.cur lim && y == 0 then .ok s
        else .wait (.counter lim (some (x.pa, x.lvl))) (updHart (touchAll s) fun x => { x with got := [], chunk := Chunk.fresh x.arch })

def execWaitc (c : Ctl) (rctr : GReg) (la lb lc ld : BitVec 6) (s : State) : Out :=
  serial c s (waitcBody rctr [la.toNat, lb.toNat, lc.toNat, ld.toNat])

/-! ## Barriers (R355, R356) -/

/-- The generation after the next (R355). -/
def genNext (g : Nat) : Nat := (g + 1) % 2 ^ 32

/-- The barrier is in use by the hart's address space (R356). -/
def barOk (s : State) (b : BitVec 4) : Bool :=
  let x := getBar s (clusterOf s.curId) b.toNat
  x.n != 0 && x.owner == s.cur.arch.asid

/-- One arrival (R356). -/
def arrive (x : Barrier) : Barrier :=
  if x.arr + 1 = x.n then { x with arr := 0, gen := genNext x.gen } else { x with arr := x.arr + 1 }

def baraBody (rd : GReg) (b : BitVec 4) (s : State) : Eff :=
  let cl := clusterOf s.curId
  let x := getBar s cl b.toNat
  guardTrap (barOk s b) (wordTrap cPriv s) s (released s fun s => .ok (setG (setBar s cl b.toNat (arrive x)) rd (w64 x.gen)))

def execBara (c : Ctl) (rd : GReg) (b : BitVec 4) (s : State) : Out := serial c s (baraBody rd b)

/-- A hart that waits already is released by any change of the generation, whoever owns the barrier then (R356). -/
def barwBody (rt : GReg) (b : BitVec 4) (s : State) : Eff :=
  let tok := (gOf s rt).toNat % 2 ^ 32
  let waiting := s.cur.stall == some (.barrier b.toNat tok)
  guardTrap (barOk s b || waiting) (wordTrap cPriv s) s <|
    if (getBar s (clusterOf s.curId) b.toNat).gen = tok then .wait (.barrier b.toNat tok) s else .ok s

def execBarw (c : Ctl) (rt : GReg) (b : BitVec 4) (s : State) : Out := serial c s (barwBody rt b)

def barinitBody (rn : GReg) (b : BitVec 4) (s : State) : Eff :=
  let cl := clusterOf s.curId
  let x := getBar s cl b.toNat
  let n := gOf s rn
  guardTrap (decide (n.toNat ≤ 128)) (wordTrap cIllegal s) s <|
  guardTrap (s.cur.arch.mode != .u || x.n == 0 || x.owner == s.cur.arch.asid) (wordTrap cPriv s) s <|
    .ok (setBar s cl b.toNat ⟨s.cur.arch.asid, n.toNat, 0, genNext x.gen⟩)

def execBarinit (c : Ctl) (rn : GReg) (b : BitVec 4) (s : State) : Out := serial c s (barinitBody rn b)

/-! ## Yield and user interrupts (R357-R360) -/

/-- At the boundary after a yield the hart is parked where another hart of its core is Ready (R357, R371). -/
def yieldPark (s : State) : State := if (inState s (coreOf s.curId) .ready).isEmpty then s else parkCur s true

def execYield (c : Ctl) (s : State) : Out :=
  let s := openChunk s
  .next (if guardOf s.cur.arch c then yieldPark (retire c s) else retire c s)

def execUiret (c : Ctl) (s : State) : Out :=
  let s := openChunk s
  .next (if guardOf s.cur.arch c then
      if s.cur.arch.inh then let s := userReturn s; settle c (advance s s.cur.arch.pc false)
      else raiseAt s s.cur.arch.pc (wordTrap cIllegal s)
    else retire c s)

def execUien (c : Ctl) (v : Bool) (s : State) : Out := plain c s fun s => .ok (updArch s fun a => { a with uie := v })

end Sys2Proof.Machine
end

