-- ==== Sys2Proof/Machine/System.lean ====
section
/-!
DEFINITION. Control registers, returns and the privileged instructions (R10, R40, R41, R119, R198, R361-R366, R391,
R398, R399).
-/

namespace Sys2Proof.Machine

/-! ## Watchdogs (R398, R399) -/

/-- The unit bound to an address space. -/
def dogOf (s : State) (asid : Nat) : Option (Nat × Dog) := s.dogs.find? fun d => d.2.asid == some asid

/-- wdwin and wdstat as they read for an address space. -/
def wdwinRead (s : State) (asid : Nat) : Word :=
  match dogOf s asid with | some (_, d) => w64 (2 ^ 24 + d.win) | none => 0
def wdstatRead (s : State) (asid : Nat) : Word :=
  let no := bitN (s.noUnit.contains asid) 3
  match dogOf s asid with
  | some (n, d) => w64 (asid * 65536 + n * 16 + no + bitN d.fired 2 + 2)
  | none => w64 no

/-- A write of wdwin with EN = 1 binds the unit of the hart's address space, or the lowest free one (R399). -/
def bindDog (s : State) (h win : Nat) : State :=
  let asid := (getHart s h).arch.asid
  let w := if win = 0 then 1 else Nat.min win 10000000
  let d : Dog := ⟨some asid, w, some h, s.mtime, if thermalHold s then some 0 else none, false, false⟩
  let free := (List.range 64).find? fun n => (tabGet Dog.reset s.dogs n).asid.isNone
  match ((dogOf s asid).map (·.1)) <|> free with
  | some n =>
    { s with dogs := tabPut Dog.reset s.dogs n { d with fired := (tabGet Dog.reset s.dogs n).fired && (dogOf s asid).isSome } }
  | none => { s with noUnit := setInsert s.noUnit asid }

/-- A write of wdwin with EN = 0 unbinds the unit of the hart's address space (R399). -/
def unbindDog (s : State) (h : Nat) : State :=
  match dogOf s (getHart s h).arch.asid with
  | some (n, _) => { s with dogs := tabPut Dog.reset s.dogs n Dog.reset }
  | none => s

/-! ## The registers (R10, R361) -/

/-- The lowest modes that may read and write a register; none where writes are ignored (R361). -/
def csrModes (n : Nat) : Mode × Option Mode :=
  if n = 0x010 ∨ n = 0x011 then (.u, none)
  else if n = 0x012 then (.u, some .s)
  else if 0x020 ≤ n ∧ n ≤ 0x027 then (.u, none)
  else if 0x100 ≤ n then (.s, some .s)
  else (.u, some .u)

/-- A control register of the moving hart as it reads (R361). -/
def csrRead (s : State) (n : Nat) : Word :=
  let x := s.cur
  let a := x.arch
  let nth (v : Vector Word 16) (i : Nat) : Word := (v[i]?).getD 0
  match n with
  | 0x000 => a.fcsr
  | 0x001 => a.vcsr
  | 0x002 => a.fstat
  | 0x003 => w64 (x.sq * 4096 + bitN x.solo 1 + bitN a.short 0)
  | 0x008 => a.uvec
  | 0x009 => ustatOf x
  | 0x00A => a.uepc
  | 0x010 => w64 s.curId
  | 0x011 => featmask s (coreOf s.curId)
  | 0x012 => a.hreq
  | 0x020 => w64 a.gid[0]
  | 0x021 => w64 a.gid[1]
  | 0x022 => w64 a.gid[2]
  | 0x023 => w64 a.gext[0]
  | 0x024 => w64 a.gext[1]
  | 0x025 => w64 a.gext[2]
  | 0x026 => w64 a.partLo
  | 0x027 => w64 a.partLen
  | 0x100 => hstatOf s s.curId
  | 0x101 => a.hcause
  | 0x102 => a.hepc
  | 0x103 => a.htval
  | 0x104 => a.htrow
  | 0x110 => w64 a.asid
  | 0x111 => a.ptroot
  | 0x150 => wdwinRead s a.asid
  | 0x151 => wdstatRead s a.asid
  | n => if n < 0x130 then nth a.ncbase (n - 0x120) else if n < 0x140 then nth a.nclim (n - 0x130) else nth a.ncattr (n - 0x140)

/-- A value written to a control register, under its access codes; `ones` are the bits that clear W1C fields (R10, R361,
R362). -/
def csrWrite (s : State) (n : Nat) (v ones : Word) : State :=
  match n with
  | 0x150 => if v.getLsbD 24 then bindDog s s.curId (field 23 0 v) else unbindDog s s.curId
  | 0x151 =>
    let asid := s.cur.arch.asid
    let s := if ones.getLsbD 3 then { s with noUnit := s.noUnit.filter (· != asid) } else s
    if ones.getLsbD 2 then
      { s with dogs := tabMap Dog.reset (fun _ d => if d.asid = some asid then { d with fired := false } else d) s.dogs }
    else s
  | n => updArch s fun a => csrStore a n v

/-- PRIV for an access below the register's modes (R361). -/
def csrFault (n : Nat) (writes : Bool) (s : State) : Option Trap :=
  let m := csrModes n
  let low := match m.2 with | some w => if writes && decide (m.1.rank < w.rank) then w else m.1 | none => m.1
  privFault low s

/-- The frame of the register-access instructions: SQ and SOLO have ended with the commit of the chunk (R130, R361,
R362). -/
def csrAccess (c : Ctl) (n : Nat) (writes : Bool) (s : State) (body : State → State) : Out :=
  decodeFault (csrFault n writes s) s fun s => serial c s fun s => .ok (body (leaveSolo s))

def execCsrr (c : Ctl) (rd : GReg) (n : BitVec 12) (s : State) : Out :=
  csrAccess c n.toNat false s fun s => setG s rd (csrRead s n.toNat)
def execCsrw (c : Ctl) (rd rs : GReg) (n : BitVec 12) (s : State) : Out :=
  csrAccess c n.toNat true s fun s =>
    setG (csrWrite s n.toNat (gOf s rs) (gOf s rs)) rd (csrRead s n.toNat)
def execCsrs (c : Ctl) (rd rs : GReg) (n : BitVec 12) (s : State) : Out :=
  csrAccess c n.toNat (rs != 0) s fun s =>
    let old := csrRead s n.toNat
    setG (if rs = 0 then s else csrWrite s n.toNat (old ||| gOf s rs) (gOf s rs)) rd old
def execCsrc (c : Ctl) (rd rs : GReg) (n : BitVec 12) (s : State) : Out :=
  csrAccess c n.toNat (rs != 0) s fun s =>
    let old := csrRead s n.toNat
    setG (if rs = 0 then s else csrWrite s n.toNat (old &&& ~~~(gOf s rs)) 0) rd old

/-! ## Traps, returns, waits (R363, R390, R391) -/

/-- ECALL: the trap, with the address of the next word (R363). -/
def execEcall (c : Ctl) (s : State) : Out :=
  serialThen id c s fun s => .ok (deliver s ⟨cEcall, false, s.cur.arch.pc + 8, 0, 0⟩)
def execEbreak (c : Ctl) (s : State) : Out := serial c s fun s => .trap { code := cBreak, tval := 0 } s

/-- A return: the instruction itself consumes htrow.V as any other does, then control resumes (R331, R391). -/
def returnEff (m : Bool) (s : State) : Eff :=
  let s := updArch s fun a => if a.resume then { a with htrow := a.htrow &&& ~~~(0x80 : Word) } else a
  .ok (updHart (trapReturn s m) fun x => { x with stall := none })

def execSret (c : Ctl) (s : State) : Out :=
  systemThen freshChunk .s c s fun s =>
    if field 1 0 s.cur.arch.hstat = 3 then .trap (wordTrap cPriv s) s else returnEff false s
def execMret (c : Ctl) (s : State) : Out := systemThen freshChunk .m c s (returnEff true)

/-- WFI completes when an interrupt is pending; until then the hart is parked at once (R363, R371). -/
def wfiBody (s : State) : Eff := if pendingIrq s s.curId then .ok s else .wait .irq s

/-- A hart that waits for an interrupt is parked. -/
def parkIrq (s : State) : State := if s.cur.stall = some .irq ∧ s.cur.slot = .issuing then parkCur s false else s

def execWfi (c : Ctl) (s : State) : Out :=
  match system .s c s wfiBody with
  | .next t => .next (parkIrq t)
  | o => o

def execChunkbrk (c : Ctl) (s : State) : Out := serial c s .ok

/-- HALT: Release(4), then the hart leaves its slot; no counter is decremented (R134, R363). -/
def execHalt (c : Ctl) (s : State) : Out := systemThen id .m c s fun s => released s fun s => .ok (vacate s s.curId true)

/-! ## Invalidation (R40, R41, R364) -/

/-- The invalidation that the moving hart has issued and not yet retired. -/
def invOf (s : State) : Option Inv := s.invs.find? fun i => i.hart == s.curId

/-- An invalidation takes a slot of its die's Tether on its way to the sequencer, and the instruction retires once it is
complete (R41, R99). -/
def invalidate (form asid : Nat) (va : Word) (s : State) : Eff :=
  match invOf s with
  | some i => if i.done then .ok { s with invs := s.invs.filter (fun j => j.id != i.id) } else .wait .inv s
  | none =>
    let id := s.nextReq
    let s := { s with nextReq := nextId id, invs := s.invs ++ [⟨id, form, asid, va, s.curId, false, false, [], []⟩] }
    .wait .inv (offer s (dieOf s.curId) (clusterOf s.curId % 8) (.tlbinvSequence, { a := 4, b := id, flag := true }))

def execTlbinv (c : Ctl) (rasid raddr : GReg) (s : State) : Out :=
  system .s c s fun s => invalidate 0 (field 15 0 (gOf s rasid)) (gOf s raddr &&& 0x01FFFFFFFFFFFFFF) s
def execTlbinvAs (c : Ctl) (rasid : GReg) (s : State) : Out :=
  system .s c s fun s => invalidate 1 (field 15 0 (gOf s rasid)) 0 s
def execTlbinvall (c : Ctl) (s : State) : Out := system .s c s fun s => invalidate 2 0 0 s

/-! ## Slot tables and the save engine (R365, R366) -/

/-- A slot-table entry in the format of its register (R380). A new entry takes effect from the next period that it governs
(R365). -/
def slotWord (x : SlotEnt) : Word := w64 (bitN x.own 16 + x.asid)

def slotcfgBody (rd rsel rval : GReg) (s : State) : Eff :=
  let sel := gOf s rsel
  let val := gOf s rval
  let cl := clusterOf s.curId
  let k := field 5 0 sel
  let ents := if sel.getLsbD 10 then [0, 1, 2, 3] else [field 9 8 sel]
  let now := s.cycle / 128
  let old := tabGet SlotEnt.reset (getEngine s cl (ents.headD 0)).slots k
  guardTrap (sel &&& ~~~(0x73F : Word) == 0 && decide (val.toNat < 2 ^ 17)) (wordTrap cIllegal s) s <|
  let s := ents.foldl (fun s e => modEngine s cl e fun x =>
    if x.retired then x
    else { x with
      slots := tabPut SlotEnt.reset x.slots k ⟨val.getLsbD 16, field 15 0 val⟩
      past := if k = entryOf s.cycle then some (now, governing x s.cycle) else x.past }) s
  .ok (setG s rd (slotWord old))

def execSlotcfg (c : Ctl) (rd rsel rval : GReg) (s : State) : Out := system .s c s (slotcfgBody rd rsel rval)

/-- A SAVE or RESTORE command pushed to the hart's own FIFO (R366). -/
def contextCmd (opc : Nat) (rb rh : GReg) (v p q other : Bool) (s : State) : Eff :=
  let a := gOf s rb
  let target := if other then field 11 0 (gOf s rh) else s.curId
  let d2 := target + bitN v 16 + bitN p 17 + bitN q 18
  guardTrap (a.toNat % 256 == 0) { code := cMisalign, tval := a } s <|
    pushCommand s ⟨w64 (0xFFFF0000 + opc), a, w64 d2, 0, 0, 0, 0, 0⟩ a

/-- An S instruction that M mode may not execute either (R366). -/
def contextPriv (s : State) : Option Trap := if s.cur.arch.mode = .s then none else some (wordTrap cPriv s)

def execVsavectx (c : Ctl) (rb rh : GReg) (v p q other : Bool) (s : State) : Out :=
  decodeFault (contextPriv s) s fun s => serial c s (contextCmd 0x0A rb rh v p q other)
def execVrestctx (c : Ctl) (rb rh : GReg) (v p q other : Bool) (s : State) : Out :=
  decodeFault (contextPriv s) s fun s => serial c s (contextCmd 0x0B rb rh v p q other)

end Sys2Proof.Machine
end

