-- ==== Sys2Proof/Machine/HbmCtl.lean ====
section
/-!
DEFINITION. The HBM controllers: requests and pages (R76-R79, R83, R84), the scrubber (R88-R90), thermal holds (R91,
R92, R420), margins, retraining and repair (R93-R95), the end of training (R415), and the record of retired units
(R401, R402).
-/

namespace Sys2Proof.Machine

/-! ## Addresses of a stack (R77, R78) -/

/-- The local offset that a stack address of a stack holds. -/
def offsetOf (ilv : Bool) (stack sa : Nat) : Nat :=
  if ilv then stack / 2 * 0x1E00000000 + (sa % 2 ^ 12 + stack % 2 * 2 ^ 12 + sa / 2 ^ 12 * 2 ^ 13)
  else sa % 2 ^ 12 + stack * 2 ^ 12 + sa / 2 ^ 12 * 2 ^ 15

/-- The line of the module that a granule of a stack holds. -/
def granuleLine (s : State) (stack gran : Nat) : Nat := (s.dev * 2 ^ 42 + offsetOf s.ilv stack (gran * 128)) / 128

/-! ## Retirement (R401, R402, R421) -/

/-- A unit enters the retirement record and is announced. -/
def retireUnit (s : State) (kind cause unit : Nat) : State :=
  announce { s with
    retired := s.retired ++ [⟨w64 (kind * 2 ^ 60 + cause * 2 ^ 56 + unit), s.mtime⟩]
    extstat := s.extstat ||| 1, replace := true } evReplace kind unit

/-! ## Requests (R76, R79, R83, R84, R89) -/

/-- A demand write: the whole granule, or one read, merge and write of part of it. Copies that no cache owns take the new
bytes too (R79, R89). -/
def writeGranule (s : State) (r : HbmReq) : State :=
  let l := r.line
  let owned := ownState (getCoh s l).dir.st
  let mask := if r.op = .write then BitVec.allOnes 128 else r.mask
  let (old, _) := unsealLine s r.td l (lineData s.hbm l) (tabGet 0 s.tags (tagPlace s l))
  let new := maskMerge old r.data mask
  let bad := r.poison || (mask != BitVec.allOnes 128 && s.badGran.contains l)
  let s := putGranule s l r.td new bad r.lr
  if owned then s
  else
    let s := if lineData s.mem l = new then s else mergeMem (snoop s none true l) l new (BitVec.allOnes 128)
    { s with lineTd := tabPut 0 s.lineTd l r.td, poison := if bad then setInsert s.poison l else s.poison.filter (· != l) }

/-- A controller serves a request: a read under correction and with its tag checked, a write of all or part of a
granule (R76, R79, R89, R163, R164). A read of a line that a cache owns leaves the caches' data alone. -/
def serveHbm (s : State) (k : Nat) (r : HbmReq) : State :=
  match r.op with
  | .read =>
    let s := readError s k r.err
    let s := if r.err = 2 then { s with badGran := setInsert s.badGran r.line } else s
    if ownState (getCoh s r.line).dir.st then pageAccess s k (placeOf s r.line).2 r.lr else readGranule s r.line r.td r.lr
  | .write | .partialWrite => writeGranule s r

/-- The stack or the channel of a request is in a hold (R91, R94). -/
def requestHeld (s : State) (k : Nat) (r : HbmReq) : Bool :=
  let x := getHbm s k
  stackHeld x || (tabGet Chan.reset x.chans (chanOf (placeOf s r.line).2)).hold

/-- Two requests of a stack go to one row. -/
def sameRow (s : State) (a b : HbmReq) : Bool :=
  let x := (placeOf s a.line).2
  let y := (placeOf s b.line).2
  bankOf x == bankOf y && rowOf x == rowOf y

/-- A waiting request with or without the hint. -/
def Waiting.hinted (w : Waiting) (lr : Bool) : Waiting := { w with req := { w.req with lr := lr } }

/-- The precharge of a hinted access goes to the last of the queued accesses to its row (R84). -/
def moveHint (s : State) (r : Waiting) (rest : List Waiting) : Waiting × List Waiting :=
  match if r.req.lr then (rest.reverse.find? fun q => sameRow s r.req q.req) else none with
  | some q => (r.hinted false, rest.map fun y => if y = q then y.hinted true else y)
  | none => (r, rest)

/-- A request that has waited is served: what waits at the line's home makes its own access, under the hint that the
request carries (R84, R91). -/
def serveWaiting (s : State) (k : Nat) (r : Waiting) : State :=
  let l := r.req.line
  if r.req.op = .read ∧ r.owed = .nothing ∧ (getCoh s l).queue ≠ [] then
    homeGo (modCoh s l fun c => { c with queue := match c.queue with
      | t :: q => { t with hint := if r.req.lr then 3 else 0 } :: q
      | [] => [] }) l
  else homeGo (settleOwed (serveHbm s k r.req) l r.owed) l

/-- Queued requests of a stack served in their order of arrival. -/
def serveAll (k : Nat) : Nat → List Waiting → State → State
  | 0, _, s => s
  | _, [], s => s
  | n + 1, r :: rest, s =>
    let (r, rest) := moveHint s r rest
    serveAll k n rest (serveWaiting s k r)

def execHbmRequest (s : State) : Out :=
  let k := s.arg.a
  match s.arg.req with
  | none => .next s
  | some r =>
    let o := offOf (r.line * 128)
    if lineDev r.line ≠ s.dev ∨ ¬ isData o = true ∨ (stackOf s.ilv o).1 ≠ k ∨ ¬ trained s = true then .next s
    else if requestHeld s k r then .next (modHbm s k fun x => { x with waiting := x.waiting ++ [⟨r, .nothing⟩] })
    else .next (serveHbm s k r)

/-- The requests of a stack that no hold keeps any longer are accepted in arrival order (R91, R94), and harts look again. -/
def acceptWaiting (s : State) (k : Nat) : State :=
  let go := (getHbm s k).waiting.filter fun r => !requestHeld s k r.req
  let stay := (getHbm s k).waiting.filter fun r => requestHeld s k r.req
  wakeCommands (serveAll k go.length go (modHbm s k fun x => { x with waiting := stay }))

/-- A row without an access for 100 ns is closed (R83). -/
def execRowIdleClose (s : State) : Out :=
  let b := s.arg.b
  match tabGet none (getHbm s s.arg.a).openRows b with
  | some (_, t) =>
    if t + 100 ≤ s.mtime then .next (modHbm s s.arg.a fun x => { x with openRows := tabPut none x.openRows b none }) else .next s
  | none => .next s

/-- A refresh closes the bank's row (R83). -/
def execBankRefresh (s : State) : Out :=
  .next (modHbm s s.arg.a fun x => { x with openRows := tabPut none x.openRows s.arg.b none })

/-! ## The scrubber (R88-R90) -/

/-- Stack addresses below this one hold data, those above it tags (R77, R79). -/
def dataTop : Nat := 0xF00000000

/-- The scrubber reads its next granule into the buffer of its pseudo-channel; the argument says whether the read meets an
error. A pending write of that buffer comes first. -/
def execScrubRead (s : State) : Out :=
  let k := s.arg.a
  let x := getHbm s k
  let err := s.arg.c
  let sa := x.pos * 128
  let p := pcOf sa
  let held := stackHeld x || (tabGet Chan.reset x.chans (p / 2)).hold
  let pending := (tabGet none x.scrub p).any (·.write)
  if x.period = 0 ∨ held = true ∨ pending = true ∨ p ≠ s.arg.b then .next s
  else
    let s := modHbm (pageAccess s k sa false) k fun x => { x with
      pos := (x.pos + 1) % 2 ^ 29, scrubAt := s.mtime + scrubInterval x.period
      scrub := tabPut none x.scrub p (some ⟨sa / 128, err != 0, err == 2⟩) }
    .next (readError s k err)

/-- What the poison mark of a granule is kept under: the line that it holds, or its own number for a granule of tags. -/
def granuleMark (s : State) (k gran : Nat) : Nat :=
  if gran * 128 < dataTop then granuleLine s k gran else 2 ^ 50 + k * 2 ^ 29 + gran

/-- A pending scrub write is performed: corrected data change nothing, an uncorrectable granule is marked poisoned in its
stack (R88, R90). -/
def execScrubWrite (s : State) : Out :=
  let k := s.arg.a
  let p := s.arg.b
  match tabGet none (getHbm s k).scrub p with
  | none => .next s
  | some b =>
    if !b.write then .next s
    else
      let s := modHbm (pageAccess s k (b.gran * 128) false) k fun x => { x with scrub := tabPut none x.scrub p (some { b with write := false }) }
      .next (if b.poison then { s with badGran := setInsert s.badGran (granuleMark s k b.gran) } else s)

/-! ## Margins and repair (R82, R93-R95) -/

/-- The measured eyes of a channel's lanes. -/
def setEyes (c : Nat) (eyes : List LaneEye) (x : Hbm) : Hbm :=
  { x with lanes := eyes.foldl (fun t e =>
      if e.lane < 72 then tabMod Lane.reset t (128 * c + e.lane) fun l => { l with width := e.width, height := e.height } else t) x.lanes }

/-- The measured data lanes of a channel whose width is below the threshold. -/
def weakLanes (x : Hbm) (eyes : List LaneEye) : List Nat := (eyes.filter fun e => decide (e.lane < 64) && decide (e.width < x.mth)).map (·.lane)

/-- A measurement of every lane of a channel that the controller makes by itself: the eyes are free values. -/
def freeEyes (n : Nat) : List LaneEye :=
  (List.range 72).map fun i => let w := (Config.freeWord (n + i)).toNat; ⟨i, w % 256, w / 256 % 256⟩

/-- The spares of a channel that are in use: they carry a lane, or a lane has been moved away from them. -/
def usedSpares (x : Hbm) (c : Nat) : List Nat :=
  (tabGet Chan.reset x.chans c).worn ++
    (List.range 64).filterMap fun i => let sp := (tabGet Lane.reset x.lanes (128 * c + i)).spare; if sp < 8 then some sp else none

/-- A lane as the retirement record names it (R402). -/
def laneUnit (k c lane : Nat) : Nat := k * 2 ^ 21 + c * 2 ^ 16 + lane

/-- A weak lane is moved to the lowest-numbered free spare, or stays in service and is retired and reported (R94, R95). -/
def repairLane (k c : Nat) (s : State) (lane : Nat) : State :=
  let x := getHbm s k
  match (List.range 8).find? fun i => !(usedSpares x c).contains i with
  | some sp =>
    let old := (tabGet Lane.reset x.lanes (128 * c + lane)).spare
    memEvent (modHbm s k fun x => { x with
      lanes := tabMod Lane.reset x.lanes (128 * c + lane) fun l => { l with spare := sp }
      chans := tabMod Chan.reset x.chans c fun y => { y with
        spused := y.spused + 1, worn := if old < 8 then setInsert y.worn old else y.worn }
      repair := true })
  | none => retireUnit (memEvent (modHbm s k fun x => { x with spout := true })) 4 4 (laneUnit k c lane)

/-- A channel is retrained: its lanes are measured again, and weak ones moved to spares (R94, R95). -/
def trainChannel (k c : Nat) (eyes : List LaneEye) (s : State) : State :=
  let weak := weakLanes (getHbm s k) eyes
  weak.foldl (repairLane k c) (modHbm s k (setEyes c eyes))

/-- A channel is retrained with a measurement of the controller's own. -/
def trainFree (k : Nat) (s : State) (c : Nat) : State := trainChannel k c (freeEyes s.freeCtr) (spend s 72)

/-! ## Thermal holds (R91, R92, R420) -/

/-- Scrub writes of some channels are discarded (R89). -/
def dropScrub (f : Nat → Bool) (x : Hbm) : Hbm := { x with scrub := x.scrub.filter fun b => !f (b.1 / 2) }

/-- The counts of the watchdogs stop at the first thermal hold of the module, and resume after the last (R92, R398). -/
def stopDogs (s : State) : State :=
  { s with dogs := tabMap Dog.reset (fun _ d =>
    if d.asid.isSome && d.stopped.isNone then { d with stopped := some (s.mtime - d.pulseAt) } else d) s.dogs }
def resumeDogs (s : State) : State :=
  if thermalHold s then s
  else { s with dogs := tabMap Dog.reset (fun _ d => match d.stopped with
    | some n => { d with stopped := none, pulseAt := s.mtime - n }
    | none => d) s.dogs }

/-- The critical signal: the controller accepts no more requests, and the stack goes on to self-refresh; the requests
that it had accepted are complete (R91, R421). -/
def execCriticalTempAssert (s : State) : Out :=
  let k := s.arg.a
  let s := modHbm s k fun x => { dropScrub (fun _ => true) x with crit := true, exitAt := none }
  .next (after (announce s evThermal 7 k) 0 (.selfRefreshEnter, { a := k }))

/-- The stack enters self-refresh: THOLD and CATT (R91, R92). -/
def execSelfRefreshEnter (s : State) : Out :=
  let k := s.arg.a
  if !(getHbm s k).crit || (getHbm s k).selfRef then .next s
  else
    let s := modHbm s k fun x => { x with selfRef := true, thold := true, catt := true }
    .next (after (memEvent (stopDogs s)) 10000 (.holdResponseTimer, { a := k }))

/-- The signal has gone: the stack leaves self-refresh 1 ms later (R91). -/
def execCriticalTempDeassert (s : State) : Out :=
  let k := s.arg.a
  let s := modHbm s k fun x => { x with crit := false, exitAt := some (s.mtime + 1000000) }
  .next (after s 1000000 (.selfRefreshExit, { a := k }))

/-- A retraining hold of every channel begins, which serves the requests that stand, or ends (R94). -/
def allHold (b : Bool) (x : Hbm) : Hbm :=
  { x with chans := (List.range 32).foldl (fun t c => tabMod Chan.reset t c fun y => { y with hold := b, trainReq := y.trainReq && !b }) x.chans }

/-- The stack leaves self-refresh into a retraining hold of every channel, which retrains each, and clears THOLD after it; a
request made during that hold has its own hold then (R91, R92, R94). -/
def execSelfRefreshExit (s : State) : Out :=
  let k := s.arg.a
  if s.arg.flag then
    if (getHbm s k).crit || (getHbm s k).selfRef then .next s
    else
      let asked := (List.range 32).filter fun c => (tabGet Chan.reset (getHbm s k).chans c).trainReq
      let s := acceptWaiting (resumeDogs (modHbm s k fun x => { allHold false x with thold := false })) k
      .next (asked.foldl (fun s c => after s 0 (two .retrainingHold k c)) s)
  else match (getHbm s k).exitAt with
  | some t =>
    if t ≤ s.mtime ∧ (getHbm s k).crit = false then
      let s := modHbm s k fun x => { allHold true x with selfRef := false, exitAt := none }
      let s := (List.range 32).foldl (trainFree k) s
      .next (after s 2000 (.selfRefreshExit, { a := k, flag := true }))
    else .next s
  | none => .next s

/-- The temperature of a stack: above 85 °C it halves its refresh interval, and its critical signal stands from 95 °C on (R82,
R91, R420). -/
def hbmTemp (s : State) (k t : Nat) : State :=
  let crit := (getHbm s k).crit
  let s := modHbm s k fun x => { x with temp := t % 256, halved := decide (85 < t) }
  if 95 ≤ t ∧ crit = false then after s 0 (.criticalTempAssert, { a := k })
  else if t < 95 ∧ crit = true then after s 0 (.criticalTempDeassert, { a := k })
  else s

/-- A stack's temperature has passed 85 °C, or has come back to it (R420). -/
def execHbmThrottle (s : State) : Out := .next (hbmTemp s s.arg.a s.arg.b)
def execHbmThrottleEnd (s : State) : Out := .next (hbmTemp s s.arg.a s.arg.b)

/-! ## Measurements and retraining (R93-R95) -/

/-- A request for a retraining hold of a channel: the hold is due at once (R94). -/
def askHold (s : State) (k c : Nat) : State :=
  after (modHbm s k fun x => { x with chans := tabMod Chan.reset x.chans c fun y => { y with trainReq := true } }) 0 (two .retrainingHold k c)

/-- The measurement of every millisecond: a weak lane sets MARG, and with AUTO = 1 triggers a hold (R93, R94). -/
def execMarginMeasure (s : State) : Out :=
  let k := s.arg.a
  let c := s.arg.b
  let eyes := s.arg.eyes
  let weak := !(weakLanes (getHbm s k) eyes).isEmpty
  let auto := (getHbm s k).auto
  let s := modHbm s k fun x => setEyes c eyes { x with marg := x.marg || weak }
  .next (if weak then memEvent (if auto then askHold s k c else s) else s)

/-- Software asks for a retraining hold (R94). -/
def execChstatTrainreq (s : State) : Out := .next (askHold s s.arg.a s.arg.b)

/-- A retraining hold of a channel for which there is a request: its lanes are measured again and weak ones moved to
spares; it ends 2 µs later, and what waited is accepted. A request during a hold has its own hold after it; one during a
thermal hold is served by the hold at its end (R89, R91, R94, R95). -/
def execRetrainingHold (s : State) : Out :=
  let k := s.arg.a
  let c := s.arg.b
  let x := getHbm s k
  let y := tabGet Chan.reset x.chans c
  if s.arg.flag then
    let s := acceptWaiting (modHbm s k fun x => { x with chans := tabMod Chan.reset x.chans c fun y => { y with hold := false } }) k
    .next (if y.trainReq then after s 0 (two .retrainingHold k c) else s)
  else if !y.trainReq || y.hold || stackHeld x then .next s
  else
    let s := modHbm s k fun x => dropScrub (fun j => j == c) { x with
      chans := tabMod Chan.reset x.chans c fun y => { y with hold := true, trainReq := false } }
    let s := if s.arg.eyes.isEmpty then trainFree k s c else trainChannel k c s.arg.eyes s
    .next (after s 2000 (.retrainingHold, { a := k, b := c, flag := true }))

/-! ## The end of training (R81, R95, R402, R413, R415) -/

/-- Training measures a repaired lane: the repair of one that has recovered may be undone, and a lane that still needs its
spare is entered in the record again. Whether a recovered lane's repair is undone, and the CAUSE of the entry, are free
(R95, R402; assumption log, entry 47). -/
def retrainLane (k c : Nat) (s : State) (lane : Nat) : State :=
  let x := getHbm s k
  let l := tabGet Lane.reset x.lanes (128 * c + lane)
  let n := s.freeCtr
  if 8 ≤ l.spare then s
  else
    let s := spend s 1
    let free := (Config.freeWord n).toNat
    if x.mth ≤ l.width ∧ free % 2 = 1 then
      modHbm s k fun x => { x with
        lanes := tabMod Lane.reset x.lanes (128 * c + lane) fun l => { l with spare := 0xF }
        chans := tabMod Chan.reset x.chans c fun y => { y with spused := y.spused - 1 } }
    else if x.mth ≤ l.width then s
    else retireUnit s 4 (free / 2 % 16) (laneUnit k c lane)

/-- Training of one channel: every lane is measured, the repairs are looked at again, and a lane that needs a spare is moved
to one (R94, R95). -/
def trainAtBoot (k : Nat) (s : State) (c : Nat) : State :=
  let eyes := freeEyes s.freeCtr
  let s := modHbm (spend s 72) k (setEyes c eyes)
  let weak := (weakLanes (getHbm s k) eyes).filter fun i => decide (8 ≤ (tabGet Lane.reset (getHbm s k).lanes (128 * c + i)).spare)
  let s := (List.range 64).foldl (retrainLane k c) s
  weak.foldl (repairLane k c) s

/-- The training of all stacks ends: ILV is locked, the stage-1 memory is written into HBM, encrypted lines and poison with
it, the scrubbers start, and stage 2 begins (R163, R413, R415). -/
def execTrainingEnd (s : State) : Out :=
  if s.stage ≠ 1 then .next s
  else
    let s := (List.range 8).foldl (fun s k => (List.range 32).foldl (trainAtBoot k) s) s
    let low := s.mem.filter fun b => devOf b.1 == s.dev && decide (offOf b.1 < 0x6000000)
    let s := (List.range 8).foldl (fun s k => modHbm s k fun x => { x with scrubAt := s.mtime + scrubInterval x.period }) s
    let s := { s with memLock := true, stage := 2, hbm := low.foldl (fun m b => writeByte m b.1 b.2) s.hbm }
    let marked := (tabKeys s.lineTd ++ s.poison).eraseDups.filter fun l => lineDev l == s.dev && decide (offOf (l * 128) < 0x6000000)
    .next (marked.foldl (fun s l => putGranule s l (tabGet 0 s.lineTd l) (lineData s.mem l) (s.poison.contains l) false) s)

end Sys2Proof.Machine
end

