-- ==== Sys2Proof/Machine/Tile.lean ====
section
/-!
DEFINITION. Tile instructions (R53-R63, R324-R347, R423).
-/

namespace Sys2Proof.Machine

/-! ## Handles (R54-R63, R218) -/

/-- The key of a shared handle in the address space of the moving hart (R60). -/
def handleKey (s : State) (h : THandle) : Nat := shKey s.cur.arch.asid (h.toNat - 16)
def curCluster (s : State) : Nat := clusterOf s.curId

/-- The mapping of a handle as the moving hart reads it. -/
def tileAt (s : State) (h : THandle) : Option Tile :=
  if h.priv then tabGet none s.cur.arch.tiles h.toNat else (getShared s (curCluster s) (handleKey s h)).tile

/-- A shared handle that the chunk has checked, or whose contents it has read (R62, R63, R423). -/
def noteShared (s : State) (h : THandle) (contents : Bool) : State :=
  if h.priv then s
  else
    let r := (curCluster s, handleKey s h, contents)
    modChunk s fun c => if c.shReads.contains r then c else { c with shReads := c.shReads ++ [r] }

def handleTrap (code : Nat) (h : THandle) : Trap := { code := code, tval := w64 h.toNat }

/-- The handle must be mapped (R324). -/
def needTile (s : State) (h : THandle) (contents : Bool) (k : State → Tile → Eff) : Eff :=
  match tileAt s h with
  | some t => k (noteShared s h contents) t
  | none => .trap (handleTrap cUnmapped h) s

/-- A shape or format check that names a handle (R324, R385). -/
def shape (ok : Bool) (h : THandle) (s : State) (k : Eff) : Eff := guardTrap ok (handleTrap cShape h) s k

/-- A tile that the instruction reads must not be poisoned (R53, R385). -/
def clean (t : Tile) (h : THandle) (s : State) (k : Eff) : Eff :=
  guardTrap (!t.poison) { code := cPoison, tval := w64 (2 ^ 63 + h.toNat) } s k

/-- Units and descriptors that a list of tiles occupies. -/
def costOf (l : List Tile) : Nat × Nat := ((l.map Tile.units).sum, l.length)

/-- The private tiles that a hart's registers map. -/
def archTiles (a : Arch) : List Tile := a.tiles.filterMap (·.2)

/-- Harts of a cluster. -/
def hartsOf (s : State) (cl : Nat) : List Nat := (hartIds s).filter fun h => clusterOf h == cl

/-- The states that a hart can come back to: where its uncommitted chunks start, and before a member that works in an
engine yet (R56, R126, R371). -/
def restorable (s : State) (h : Nat) : List Arch :=
  let x := getHart s h
  let ops := liveOps s (clusterOf h)
  ((x.inflight ++ [x.chunk]).filter fun c => !c.isEmpty).flatMap fun c =>
    c.save :: (c.cuts.filter fun k => ops.contains k.op).map (·.arch)

/-- The larger of two costs, in units and in descriptors. -/
def costMax (a b : Nat × Nat) : Nat × Nat := (Nat.max a.1 b.1, Nat.max a.2 b.2)

/-- The mappings that a hart has given up, that a state of it does not name, and that an operation works on yet (R59). -/
def leftOf (s : State) (h : Nat) (a : Arch) : List Left :=
  let cl := clusterOf h
  (getCluster s cl).left.filter fun x => x.hart == h && x.ops.any (liveOps s cl).contains &&
    !(tabGet 0 a.phys x.handle == x.phys && (tabGet none a.tiles x.handle).isSome)

/-- What a hart takes of the private pool in a state of it: its mappings, and those given up that are still worked on (R54,
R59). -/
def archUse (s : State) (h : Nat) (a : Arch) : Nat × Nat :=
  let x := costOf (archTiles a)
  let l := leftOf s h a
  (x.1 + (l.map (·.units)).sum, x.2 + l.length)

/-- What a hart takes of the private pool: in its present state, or in one that a squash would bring back (R54, R56, R59). -/
def hartUse (s : State) (h : Nat) : Nat × Nat :=
  (restorable s h).foldl (fun b a => costMax b (archUse s h a)) (archUse s h (getHart s h).arch)

/-- What a cluster's other harts take of the private pool. -/
def othersUse (s : State) (cl : Nat) : Nat × Nat :=
  ((hartsOf s cl).filter (· != s.curId)).foldl (fun b h => (b.1 + (hartUse s h).1, b.2 + (hartUse s h).2)) (0, 0)

/-- The mappings that uncommitted TCFGs have reserved in the shared-tile area (R62). -/
def reserved (s : State) (cl : Nat) : List Tile :=
  (hartsOf s cl).flatMap fun h =>
    let x := getHart s h
    (x.inflight ++ [x.chunk]).flatMap fun c => c.ops.filterMap fun o => match o with | .shStep _ _ _ t => t | _ => none

/-- What the shared-tile area of a cluster holds (R54). -/
def sharedUse (s : State) (cl : Nat) : Nat × Nat := costOf ((getCluster s cl).shared.filterMap (·.2.tile) ++ reserved s cl)

/-- A handle is in use: a private one while an operation of the hart reads or writes it, a shared one while a transfer to it
is outstanding or an operation reads it (R58). -/
def inUse (s : State) (h : THandle) : Bool :=
  let ops := liveOps s (curCluster s)
  if h.priv then ops.any fun o => o.hart == s.curId && o.uses.contains h.toNat
  else (getCluster s (curCluster s)).transfers.any (fun t => t.key == handleKey s h) ||
    ops.any fun o => o.asid == s.cur.arch.asid && (sourcesOf o).contains h.toNat

/-! ## Renaming and writing a handle (R56, R57, R61) -/

/-- Units and descriptors of the rename reserve that a core's harts hold. -/
def coreReserve (l : List (Nat × Nat)) (core : Nat) : Nat × Nat :=
  let x := l.filter fun r => coreOf r.1 == core
  ((x.map (·.2)).sum, x.length)

/-- The reserve can hold these entries: 32 units and 2 descriptors belong to each core, the rest to all (R57). -/
def reserveFits (cl : Nat) (l : List (Nat × Nat)) : Bool :=
  let cores := (List.range 16).map (· + 16 * cl)
  decide ((cores.map fun c => (coreReserve l c).1 - 32).sum ≤ 2048 - 512) &&
    decide ((cores.map fun c => (coreReserve l c).2 - 2).sum ≤ 256 - 32)

/-- The units of the rename reserve that a hart's tile instructions hold: those from the oldest one on that still works in
an engine have not retired (R56, R57). -/
def renameHeld (s : State) (h : Nat) : List (Nat × Nat) :=
  let x := getHart s h
  let live := liveOps s (clusterOf h)
  let ops := (x.inflight ++ [x.chunk]).flatMap (·.ops)
  (ops.dropWhile fun o => match o with | .engine op => !live.contains op | _ => true).filterMap fun o =>
    match o with | .rename u => some (h, u) | _ => none

/-- What a cluster's rename reserve has given, by hart. -/
def reserveUse (s : State) (cl : Nat) : List (Nat × Nat) :=
  (getCluster s cl).renames ++ (hartsOf s cl).flatMap (renameHeld s)

/-- A writer of a private handle takes its new mapping from the reserve, where it may hold units already, or waits at
rename. It holds them until it retires; then the mapping counts in the private pool, and the one that it replaces in the
reserve: by then every older instruction of the hart that reads the old one has completed (R56, R57). -/
def renamed (s : State) (h : THandle) (units : Nat) (k : State → Eff) : Eff :=
  if !h.priv then k s
  else
    let cl := curCluster s
    let t := modCluster s cl fun c => { c with renames := c.renames.filter fun r => r.1 != s.curId }
    let taken := (getCluster s cl).renames.any fun r => r.1 == s.curId && decide (units ≤ r.2)
    if taken || reserveFits cl (reserveUse t cl ++ [(s.curId, units)]) then k t else .wait .commit s

/-- A private handle names a new physical tile with these contents (R56). -/
def mapHandle (s : State) (h : THandle) (t : Tile) : State :=
  { updArch s fun a => { a with
      tiles := tabPut none a.tiles h.toNat (some t), phys := tabPut 0 a.phys h.toNat s.nextPhys } with nextPhys := s.nextPhys + 1 }

/-- The physical tile that a private handle names (R56). -/
def physOf (s : State) (h : THandle) : Option Nat := if h.priv then some (tabGet 0 s.cur.arch.phys h.toNat) else none

/-- The handle takes a new value: a private one at once, in a mapping of the reserve; a shared one by a transfer when the
chunk commits (R56, R61). -/
def putTile (s : State) (h : THandle) (t : Tile) : State :=
  if h.priv then modChunk (mapHandle s h t) fun c => { c with ops := c.ops ++ [.rename t.units] }
  else
    let key := handleKey s h
    let ver := (getShared s (curCluster s) key).steps
    modChunk (noteShared s h false) fun c => { c with ops := c.ops ++ [.shWrite (curCluster s) key ver t] }

/-- The physical tiles that an engine still works on and that a handle's contents come from (R381). -/
def workedOn (s : State) (h : THandle) : List Nat :=
  let c := getCluster s (curCluster s)
  match physOf s h with
  | some p => (p :: c.derived.filterMap fun x => if x.1 = p then some x.2 else none).filter ((liveOps s (curCluster s)).filterMap (·.out)).contains
  | none => []

/-- A handle takes contents that come from another: an engine reads them once what they come from has completed (R381). -/
def putFrom (s : State) (h src : THandle) (t : Tile) : State :=
  let l := workedOn s src
  let new := s.nextPhys
  let s := putTile s h t
  if h.priv && !l.isEmpty then modCluster s (curCluster s) fun c => { c with derived := c.derived ++ l.map fun p => (new, p) } else s

/-- A TCFG or TREL of a shared handle is left to the commit (R62). -/
def stepShared (s : State) (h : THandle) (t : Option Tile) : State :=
  let key := handleKey s h
  let ver := (getShared s (curCluster s) key).steps
  modChunk (noteShared s h false) fun c => { c with ops := c.ops ++ [.shStep (curCluster s) key ver t] }

/-- A mapping that operations of the hart still work on is given up: its units stay counted until they complete (R59). -/
def giveUp (s : State) (h : THandle) : State :=
  let cl := curCluster s
  let live := liveOps s cl
  let p := tabGet 0 s.cur.arch.phys h.toNat
  let ops := live.filter fun o => o.hart == s.curId && (o.reads.contains p || o.acc == some p || o.out == some p)
  match tileAt s h with
  | some t =>
    if ops.isEmpty then s
    else modCluster s cl fun c => { c with
      left := c.left.filter (fun x => x.ops.any live.contains && !(x.hart == s.curId && x.handle == h.toNat && x.phys == p)) ++
        [⟨s.curId, h.toNat, p, t.units, ops⟩] }
  | none => s

/-- The handle is unmapped. Its units stay counted while an older operation works on the old mapping, or a squash can bring
it back (R59). -/
def release (s : State) (h : THandle) : State :=
  if h.priv then updArch (giveUp s h) fun a => { a with tiles := tabErase a.tiles h.toNat }
  else if (tileAt s h).isNone then noteShared s h false
  else stepShared s h none

/-- The private pool can hold these units and descriptors (R54). -/
def privateFits (a b : Nat × Nat) : Bool := decide (a.1 + b.1 ≤ 8192) && decide (a.2 + b.2 ≤ 640)

/-- The handle is configured with a tile (R58). A private handle's check counts what the replaced mapping frees; units of a
mapping that operations work on yet, or that a squash of another hart would bring back, are not free (R59). -/
def configure (s : State) (h : THandle) (force : Bool) (t : Tile) (k : State → Eff) : Eff :=
  let cl := curCluster s
  let busy := inUse s h
  if force && ((liveOps s cl).any (fun o => o.hart == s.curId) || (!h.priv && busy)) then .wait .commit s
  else if !force && busy then .trap (handleTrap cBusy h) s
  else
    let s1 := if force then updArch s fun a => { a with tiles := [] } else s
    if h.priv then
      let s2 := mapHandle s1 h t
      if privateFits (archUse s2 s.curId s2.cur.arch) (othersUse s cl) then k s2 else .trap (handleTrap cFull h) s
    else
      let (u, d) := sharedUse s cl
      if 2048 < u + t.units ∨ 128 < d + 1 then .trap (handleTrap cFull h) s else k (stepShared s1 h (some t))

def execTcfg (c : Ctl) (h : THandle) (rows1 : BitVec 6) (rb : BitVec 2) (f : TFmt) (desc force : Bool) (s : State) : Out :=
  plain c s fun s => configure s h force (Tile.blank (rows1.toNat + 1) (64 * (rb.toNat + 1)) f desc) .ok

def execTzero (c : Ctl) (h : THandle) (s : State) : Out :=
  plain c s fun s => needTile s h false fun s t => renamed s h t.units fun s =>
    .ok (putTile s h (Tile.blank t.rows t.rb t.fmt t.desc))

def execTrel (c : Ctl) (h : THandle) (s : State) : Out := plain c s fun s => .ok (release s h)

/-- The word of R329. -/
def infoWord (h : THandle) : Option Tile → Word
  | none => 0
  | some t => w64 ((if t.desc then 0x7F else t.scale.toNat) * 2 ^ 16 + 2 ^ 15 + bitN t.poison 14 + bitN (!h.priv) 13 +
      bitN t.desc 12 + t.fmt.code.toNat * 2 ^ 8 + (t.rb / 64 - 1) * 2 ^ 6 + (t.rows - 1))

def execTinfo (c : Ctl) (rd : GReg) (h : THandle) (s : State) : Out :=
  plain c s fun s => .ok (setG (noteShared s h true) rd (infoWord h (tileAt s h)))

/-! ## Rows in memory (R330, R331) -/

/-- n bytes from an address cut at the ends of lines; the first argument bounds the pieces. -/
def splitLines : Nat → Word → Nat → List (Word × Nat)
  | 0, _, _ => []
  | k + 1, a, n =>
    if n = 0 then []
    else
      let m := Nat.min n (128 - a.toNat % 128)
      (a, m) :: splitLines k (a + w64 m) (n - m)

/-- The pieces of a row translated in order (R35). -/
def translatePieces (s : State) (k : AccKind) : List (Word × Nat) → State × Res (List Acc)
  | [] => (s, .val [])
  | (a, n) :: r =>
    match translate s (whoCur s) ⟨k, n, false, .refused⟩ a with
    | (s, .val x) =>
      match translatePieces (noteUsed s x.used) k r with
      | (s, .val l) => (s, .val (x :: l))
      | e => e
    | (s, .trap t) => (s, .trap t)
    | (s, .wait c) => (s, .wait c)
    | (s, .again) => (s, .again)

/-- Translated pieces read as one little-endian number. -/
def readPieces (s : State) : List (Acc × Word × Nat) → State × Res Nat
  | [] => (s, .val 0)
  | (x, a, n) :: r =>
    match readLine s .tload x n a with
    | (s, .val v) =>
      match readPieces s r with
      | (s, .val y) => (s, .val (v + 2 ^ (8 * n) * y))
      | e => e
    | e => e

/-- The accesses of a row cut at the ends of lines. -/
def splitAll (l : List (Word × Nat)) : List (Word × Nat) := l.flatMap fun p => splitLines 8 p.1 p.2

/-- The accesses of a row (its data, and its descriptors) translated in order (R20, R35, R330). -/
def translateRow (s : State) (k : AccKind) : List (Word × Nat) → State × Res (List Acc)
  | [] => (s, .val [])
  | (a, n) :: r =>
    if straddles s a n then (s, .trap { code := cMisalign, tval := a })
    else
      match translatePieces s k (splitLines 8 a n) with
      | (s, .val xs) =>
        match translateRow s k r with
        | (s, .val l) => (s, .val (xs ++ l))
        | e => e
      | e => e

/-- A row read: its checks first, then its data. -/
def readRow (s : State) (p : List (Word × Nat)) : State × Res Nat :=
  match translateRow s .tload p with
  | (s, .val xs) => readPieces s (List.zip xs (splitAll p))
  | (s, .trap t) => (s, .trap t)
  | (s, .wait c) => (s, .wait c)
  | (s, .again) => (s, .again)

/-- Rows read in order until one fails: the rows read, and how the reading ended. `bad` is a check on the data. -/
def readRows (s : State) (bad : Nat → Option Trap) : List (List (Word × Nat)) → State × List Nat × Res Unit
  | [] => (s, [], .val ())
  | p :: r =>
    match readRow s p with
    | (s, .val v) =>
      match bad v with
      | some t => (s, [], .trap t)
      | none => let (s, l, e) := readRows s bad r; (s, v :: l, e)
    | (s, .trap t) => (s, [], .trap t)
    | (s, .wait c) => (s, [], .wait c)
    | (s, .again) => (s, [], .again)

/-- Translated pieces of a row that is written: none in a group's window, each line reached (R112, R167). -/
def reachPieces (s : State) (all : List (Word × Nat)) : List (Acc × Word × Nat) → State × Res Unit
  | [] => (s, .val ())
  | (x, a, _) :: r =>
    if (windowOf s x.pa).isSome then (s, perm a)
    else match reach s .store x (coverOf all a) a with
      | (s, .val _) => reachPieces s all r
      | e => e

/-- Rows checked for writing until one fails: the places of those that can be written, and how the checks ended. -/
def checkRows (s : State) (all : List (Word × Nat)) : List (List (Word × Nat)) → State × List (List Acc) × Res Unit
  | [] => (s, [], .val ())
  | p :: r =>
    match translateRow s .tstore p with
    | (s, .val xs) =>
      match reachPieces s all (List.zip xs (splitAll p)) with
      | (s, .val _) => let (s, l, e) := checkRows s all r; (s, xs :: l, e)
      | (s, e) => (s, [], e)
    | (s, .trap t) => (s, [], .trap t)
    | (s, .wait c) => (s, [], .wait c)
    | (s, .again) => (s, [], .again)

/-- A row's value laid on its pieces. -/
def layPieces : List Acc → List (Word × Nat) → Nat → List (Acc × Nat × Nat)
  | x :: xs, (_, n) :: ps, v => (x, n, v % 2 ^ (8 * n)) :: layPieces xs ps (v / 2 ^ (8 * n))
  | _, _, _ => []

/-- Rows written in order. -/
def writeRows (s : State) (xs : List (List Acc)) (ps : List (List (Word × Nat))) (vs : List Nat) : State × Res Unit :=
  writePieces s true (((List.zip xs (List.zip ps vs)).map fun r => layPieces r.1 (splitAll r.2.1) r.2.2).flatten)

/-- The row at which a resumed instruction starts (R331). -/
def startRow (a : Arch) : Nat := if a.resume && htrowV a then field 6 0 a.htrow else 0

/-- htrow for a fault at a row of a restartable instruction (R331). -/
def restartAt (i : Nat) : Word := w64 (0x80 + i)

/-- The number of rows that an access takes (R330). -/
def rowCount (s : State) (rc : GReg) (rows : Nat) : Nat := if rc = 0 then rows else Nat.min (gOf s rc).toNat rows

/-- The address of row i (R330). -/
def rowAddr (s : State) (rb rs : GReg) (i : Nat) : Word := gOf s rb + w64 i * gOf s rs

/-- Rows i with start ≤ i < n. -/
def rowsFrom (start n : Nat) : List Nat := (List.range (n - start)).map (· + start)

/-- Every row address keeps the alignment (R330, R342). -/
def rowsAligned (s : State) (rb rs : GReg) (n : Nat) (l : List Nat) (k : Eff) : Eff :=
  match l.find? fun i => decide ((rowAddr s rb rs i).toNat % n ≠ 0) with
  | some i => .trap { code := cMisalign, tval := rowAddr s rb rs i } s
  | none => k

/-- The accesses of row i of a tile: its data, and for a described tile its descriptors (R330, R334). -/
def rowPieces (s : State) (t : Tile) (rb rs : GReg) (rd : Option GReg) (i : Nat) : List (Word × Nat) :=
  (rowAddr s rb rs i, t.rb) ::
    match rd with
    | some r => [(gOf s r + w64 (2 * t.blocks * i), 2 * t.blocks)]
    | none => []

/-- The descriptors of a row as one number: byte 0 of each holds FMT and byte 1 SCALE (R190, R334). -/
def descNat (t : Tile) (i : Nat) : Nat := packNat 16 ((List.range t.blocks).map fun j => (t.descOf i j).toNat)

/-- A descriptor is malformed for a format (R190). -/
def badDesc (f : TFmt) (d : Nat) : Bool := d / 16 % 16 != 0 || (TFmt.ofCode (BitVec.ofNat 4 d)).width != f.width

/-- The row and descriptors of a row value read for a described tile. -/
def descsIn (t : Tile) (v : Nat) : List Nat := (List.range t.blocks).map fun j => v / 2 ^ (8 * t.rb + 16 * j) % 2 ^ 16

/-- The g register that holds the descriptor base is even (R334). -/
def evenBase (s : State) (rd : Option GReg) (k : Eff) : Eff :=
  match rd with
  | some r => guardTrap (!(gOf s r).getLsbD 0) { code := cMisalign, tval := gOf s r } s k
  | none => k

/-- tld and tldd (R330-R332, R334). One that completes writes the whole tile and clears its poison; a faulting one leaves
the poison (R53). -/
def tileLoad (s : State) (h : THandle) (rb rs : GReg) (rd : Option GReg) (rc : GReg) (f : TFmt) (chk : Bool) (scale : BitVec 8) : Eff :=
  needTile s h false fun s t =>
  shape (t.desc == rd.isSome && (!chk || t.fmt == f)) h s <|
  let n := rowCount s rc t.rows
  let start := if h.priv then Nat.min (startRow s.cur.arch) t.rows else 0
  rowsAligned s rb rs 64 (rowsFrom start n) <| evenBase s rd <|
  renamed s h t.units fun s =>
  let bad (v : Nat) : Option Trap :=
    if rd.isSome && (descsIn t v).any (badDesc t.fmt) then some (handleTrap cShape h) else none
  let blank := Tile.blank t.rows t.rb t.fmt t.desc
  let (s, vs, e) := readRows s bad ((rowsFrom start n).map (rowPieces s t rb rs rd))
  let got := start + vs.length
  let new : Tile := { blank with
    scale := if t.desc then 0x7F else scale
    data := t.data.take start ++ vs.map (fun v => BitVec.ofNat 2048 (v % 2 ^ (8 * t.rb))) ++ blank.data.drop got
    descs := if t.desc then
        t.descs.take (start * t.blocks) ++ vs.flatMap (fun v => (descsIn t v).map (BitVec.ofNat 16)) ++ blank.descs.drop (got * t.blocks)
      else [] }
  match e with
  | .val _ => .ok (putTile s h new)
  | .trap tr => if h.priv then .trap { tr with row := restartAt got } (putTile s h { new with poison := t.poison }) else .trap { tr with row := w64 got } s
  | .wait c => .wait c s
  | .again => .again

def execTld (c : Ctl) (h : THandle) (rb rs : GReg) (f : TFmt) (chk : Bool) (rc : GReg) (scale : BitVec 8) (s : State) : Out :=
  plain c s fun s => tileLoad s h rb rs none rc f chk scale
def execTldd (c : Ctl) (h : THandle) (rb rs rdsc rc : GReg) (f : TFmt) (chk : Bool) (s : State) : Out :=
  plain c s fun s => tileLoad s h rb rs (some rdsc) rc f chk 0x7F

/-- Rows written from `start` on; a row that fails keeps those before it (R331, R343). `flags` are those that so many rows
raise, which may raise FP_EXC before anything is written, and `keep` is what the hart keeps after so many rows: a write
that waits for room has changed neither, so that the instruction can be executed again. -/
def storeFrom (s : State) (start : Nat) (ps : List (List (Word × Nat))) (vs : List Nat) (flags : Nat → Flags)
    (keep : Nat → Arch → Arch) : Eff :=
  let (s, xs, e) := checkRows s (splitAll ps.flatten) ps
  let done (k : State → Eff) : Eff :=
    withFlags (flags xs.length) s fun _ => thenDo (writeRows s xs ps vs) fun s _ =>
      withFlags (flags xs.length) s fun s => k (updArch s (keep xs.length))
  match e with
  | .val _ => done .ok
  | .trap tr => done fun s => .trap { tr with row := restartAt (start + xs.length) } s
  | .wait c => .wait c s
  | .again => .again

/-- tst and tstd (R330, R331, R333, R334). -/
def tileStore (s : State) (h : THandle) (rb rs : GReg) (rd : Option GReg) (rc : GReg) (f : TFmt) (chk : Bool) : Eff :=
  needTile s h true fun s t =>
  shape (t.desc == rd.isSome && (!chk || t.fmt == f)) h s <| clean t h s <|
  let n := rowCount s rc t.rows
  let start := Nat.min (startRow s.cur.arch) n
  rowsAligned s rb rs 64 (rowsFrom start n) <| evenBase s rd <|
  let value (i : Nat) : Nat := (t.row i).toNat % 2 ^ (8 * t.rb) + if t.desc then descNat t i * 2 ^ (8 * t.rb) else 0
  storeFrom s start ((rowsFrom start n).map (rowPieces s t rb rs rd)) ((rowsFrom start n).map value) (fun _ => 0) fun _ a => a

def execTst (c : Ctl) (h : THandle) (rb rs : GReg) (f : TFmt) (chk : Bool) (rc : GReg) (s : State) : Out :=
  plain c s fun s => tileStore s h rb rs none rc f chk
def execTstd (c : Ctl) (h : THandle) (rb rs rdsc rc : GReg) (f : TFmt) (chk : Bool) (s : State) : Out :=
  plain c s fun s => tileStore s h rb rs (some rdsc) rc f chk

/-! ## Quantising store (R194-R196, R342, R343) -/

/-- The 64 lanes of a residue register. -/
def lanesOf (q : QcReg) : List Nat := (List.range 64).map fun i => (q.lanes.toNat >>> (32 * i)) % 2 ^ 32
/-- A residue register from its lanes. -/
def ofLanes (l : List Nat) (poison : Bool) : QcReg := ⟨BitVec.ofNat 2048 (packNat 32 l), poison⟩

def qcTrap (q : QReg) : Trap := { code := cPoison, tval := w64 (2 ^ 63 + 0x100 + q.toNat) }

def execTqst (c : Ctl) (h : THandle) (rb rs : GReg) (q : QReg) (auto : Bool) (re : GReg) (f : TFmt) (col : Bool) (k : KFactor)
    (cont : Bool) (s : State) : Out :=
  plain c s fun s =>
    needTile s h true fun s t =>
    shape (t.fmt == .fp32) h s <| clean t h s <|
    let reg := rdQ s.cur.arch q
    guardTrap (!(cont && reg.poison)) (qcTrap q) s <|
    let resumed := s.cur.arch.resume && htrowV s.cur.arch
    let start := Nat.min (startRow s.cur.arch) t.rows
    rowsAligned s rb rs 4 (rowsFrom start t.rows) <| evenBase s (if auto then some re else none) <|
    let bytes := t.cols * f.width / 8
    let nblk := ceilDiv bytes 64
    let lanes := lanesOf reg
    let first := if col && !cont && !resumed then List.replicate t.cols 0 ++ lanes.drop t.cols else lanes
    let out := quantRows t f col k auto ((gOf s re).toNat % 256) cont (t.rows - start) start (if col then true else cont) first
    let pieces (i : Nat) : List (Word × Nat) :=
      (rowAddr s rb rs i, bytes) :: if auto then [(gOf s re + w64 (2 * nblk * i), 2 * nblk)] else []
    let value (r : QuantRow) : Nat :=
      packNat f.width r.codes + if auto then packNat 16 (r.scales.map fun x => f.code.toNat + 256 * x) * 2 ^ (8 * bytes) else 0
    storeFrom s start ((rowsFrom start t.rows).map pieces) (out.map value)
      (fun n => unionFlags ((out.take n).map (·.flags))) fun n a =>
        let after_ := match (out.take n).getLast? with | some r => r.lanes | none => first
        let whole := n + start == t.rows && !cont && (if col then t.cols else t.rows) == 64
        wrQ a q (ofLanes after_ (reg.poison && !whole))

def execQcclr (c : Ctl) (mask : BitVec 8) (s : State) : Out :=
  plain c s fun s => .ok (updArch s fun a => { a with
    qc := Vector.ofFn fun i : Fin 8 => if mask.getLsbD i.val then ⟨0, false⟩ else a.qc[i]
    qgen := Vector.ofFn fun i : Fin 8 => if mask.getLsbD i.val then a.qgen[i] + 1 else a.qgen[i] })

/-- 64 lanes in a group of four vector registers, and back. -/
def putLanes64 (s : State) (v : VReg) (x : BitVec 2048) : State :=
  [0, 1, 2, 3].foldl (fun s k => setV s (vNext v k) (x.extractLsb' (512 * k) 512)) s
def lanes64 (s : State) (v : VReg) : BitVec 2048 :=
  vOf s (vNext v 3) ++ vOf s (vNext v 2) ++ vOf s (vNext v 1) ++ vOf s v

def execQcrd (c : Ctl) (v : VReg) (q : QReg) (s : State) : Out :=
  plain c s fun s =>
    let r := rdQ s.cur.arch q
    guardTrap (!r.poison) (qcTrap q) s (.ok (putLanes64 s v r.lanes))
def execQcwr (c : Ctl) (v : VReg) (q : QReg) (s : State) : Out :=
  plain c s fun s => .ok (updArch s fun a => wrQ a q ⟨lanes64 s v, false⟩)

/-! ## Engine operations (R335-R341, R347, R378) -/

/-- The operation is handed to the engines; its result stands at once, in the physical tile that its destination is renamed
to next (R56; assumption log, entry 8). -/
def submit (s : State) (acc dst : Option THandle) (cycles : Nat) (uses : List THandle) : State :=
  let sources := if acc.isSome || dst.isNone then uses else uses.drop 1
  let op : EngOp := {
    hart := s.curId, asid := s.cur.arch.asid, acc := acc.bind (physOf s), dst := dst.map (·.toNat)
    out := dst.bind fun h => if h.priv then some s.nextPhys else none
    cycles := cycles, uses := uses.map (·.toNat), reads := sources.filterMap (physOf s), issued := s.cycle }
  modCluster (modChunk s fun c => { c with ops := c.ops ++ [.engine op] }) (curCluster s) fun c =>
    { c with undispatched := c.undispatched ++ [op] }

/-- An earlier operation of the hart still waits at dispatch, and the instruction waits behind it (R378). -/
def dispatchable (s : State) (k : State → Eff) : Eff :=
  if (getCluster s (curCluster s)).undispatched.any (fun o => o.hart == s.curId) then .wait .commit s else k s

def fcsrOf (s : State) : Word := s.cur.arch.fcsr

/-- A tile multiply (R335, R336). -/
def multiplyEff (s : State) (hc ha hb : THandle) (diag : Option Int) (fill : Nat) : Eff :=
  needTile s hc true fun s tc => needTile s ha true fun s ta => needTile s hb true fun s tb =>
  shape (tc.fmt == .fp32 && !tc.desc) hc s <|
  match tileCycles ta tb with
  | none => .trap (handleTrap cShape ha) s
  | some cyc =>
    clean tc hc s <| clean ta ha s <| clean tb hb s <| renamed s hc tc.units fun s => dispatchable s fun s =>
    let n := s.freeCtr
    let (new, fl) := multiply tc ta tb (fzOf s.cur.arch) diag fill fun k => (Config.freeWord (n + k)).toNat
    withFlags fl (spend s (if diag.isSome && tc.scale != 0x7F then 4096 else 0)) fun s => .ok (putTile (submit s (some hc) (some hc) (cyc * subTiles diag / 16) [hc, ha, hb]) hc new)

def execTmma (c : Ctl) (hc ha hb : THandle) (s : State) : Out := plain c s fun s => inEngine s <| multiplyEff s hc ha hb none 0
def execTmmat (c : Ctl) (hc ha hb : THandle) (rfill : GReg) (fill : FillCode) (diag : BitVec 8) (s : State) : Out :=
  plain c s fun s =>
    let v := match fill with
      | .posZero => 0 | .negInf => 0xFF800000 | .posInf => 0x7F800000 | .reg => (gOf s rfill).toNat % 2 ^ 32
    inEngine s <| multiplyEff s hc ha hb (some diag.toInt) v

/-- The result of an element-wise operation (R337-R339, R347). -/
def elementwise (s : State) (hd : THandle) (rows : Nat) (r : Tile × Flags) (uses : List THandle) : Eff :=
  dispatchable s fun s => withFlags r.2 s fun s => .ok (putTile (submit s none (some hd) (rows + 4) (hd :: uses)) hd r.1)

/-- The destination and source of an FP32 operation have one shape (R337). -/
def sameShape (d x : Tile) : Bool := d.rows == x.rows && d.rb == x.rb

def execTadd (c : Ctl) (hd ha hb : THandle) (m : RMode) (s : State) : Out :=
  plain c s fun s => inEngine s <|
    needTile s hd false fun s td => needTile s ha true fun s ta => needTile s hb true fun s tb =>
    shape (td.fmt == .fp32 && !td.desc) hd s <| shape (ta.fmt == .fp32) ha s <| shape (tb.fmt == .fp32) hb s <|
    shape (sameShape td ta && sameShape td tb) hd s <| clean ta ha s <| clean tb hb s <| renamed s hd td.units fun s =>
    elementwise s hd td.rows (addTiles td ta tb (m.resolve (fcsrOf s)) (fzOf s.cur.arch)) [ha, hb]

def execTscale (c : Ctl) (hd ha : THandle) (rs : GReg) (m : RMode) (s : State) : Out :=
  plain c s fun s => inEngine s <|
    needTile s hd false fun s td => needTile s ha true fun s ta =>
    shape (td.fmt == .fp32 && !td.desc) hd s <| shape (ta.fmt == .fp32) ha s <| shape (sameShape td ta) hd s <|
    clean ta ha s <| renamed s hd td.units fun s =>
    let v := fmtF32.read (fzOf s.cur.arch) ((gOf s rs).toNat % 2 ^ 32)
    elementwise s hd td.rows (scaleTile td ta v (m.resolve (fcsrOf s)) (fzOf s.cur.arch)) [ha]

def execTcvt (c : Ctl) (hd ha : THandle) (m : RMode) (sat : Bool) (s : State) : Out :=
  plain c s fun s => inEngine s <|
    needTile s hd false fun s td => needTile s ha true fun s ta =>
    shape (!td.desc && td.rows == ta.rows && td.cols == ta.cols) hd s <| clean ta ha s <| renamed s hd td.units fun s =>
    elementwise s hd td.rows (convertTile td ta (m.resolve (fcsrOf s)) sat (fzOf s.cur.arch)) [ha]

def execTtrans (c : Ctl) (hd ha : THandle) (s : State) : Out :=
  plain c s fun s => inEngine s <|
    needTile s hd false fun s td => needTile s ha true fun s ta =>
    shape (!td.desc) hd s <| shape (!ta.desc && decide (8 ≤ ta.fmt.width)) ha s <|
    shape (td.fmt == ta.fmt && td.rows == ta.cols && td.cols == ta.rows) hd s <| clean ta ha s <|
    renamed s hd td.units fun s => elementwise s hd td.rows (transposeTile td ta, 0) [ha]

def execTmov (c : Ctl) (hd ha : THandle) (s : State) : Out :=
  plain c s fun s =>
    needTile s hd false fun s td => needTile s ha true fun s ta =>
    shape (td.rows == ta.rows && td.rb == ta.rb && td.desc == ta.desc) hd s <| clean ta ha s <|
    renamed s hd td.units fun s => .ok (putFrom s hd ha ta)

/-- trow and trowi (R340). -/
def moveRow (s : State) (h : THandle) (v : VReg) (i : Nat) (toV : Bool) : Eff :=
  needTile s h true fun s t =>
  let n := t.blocks
  shape (decide (i < t.rows) && decide (v.toNat + n ≤ 32)) h s <| clean t h s <|
  if toV then .ok ((List.range n).foldl (fun s k => setV s (vNext v k) ((t.row i).extractLsb' (512 * k) 512)) s)
  else renamed s h t.units fun s =>
    let r := packRow 512 ((List.range n).map fun k => (vOf s (vNext v k)).toNat)
    .ok (putFrom s h h { t with data := t.data.set i r })

def execTrow (c : Ctl) (h : THandle) (v : VReg) (ri : GReg) (toV : Bool) (s : State) : Out :=
  plain c s fun s => moveRow s h v (gOf s ri).toNat toV
def execTrowi (c : Ctl) (h : THandle) (v : VReg) (i : BitVec 6) (toV : Bool) (s : State) : Out :=
  plain c s fun s => moveRow s h v i.toNat toV

def execTred (c : Ctl) (v : VReg) (ha : THandle) (m : RMode) (max col : Bool) (s : State) : Out :=
  plain c s fun s =>
    inEngine s <| needTile s ha true fun s t => shape (t.fmt == .fp32) ha s <| clean t ha s <| dispatchable s fun s =>
    let fz := fzOf s.cur.arch
    let mode := m.resolve (fcsrOf s)
    let n := s.freeCtr
    let l := reduceTile t col (fun k l => if max then maxElems fz (Config.freeWord (n + k)).toNat l else sumElems mode fz l) fz
    withFlags (unionFlags (l.map (·.2))) s fun s =>
      .ok (spend (submit (putLanes64 s v (BitVec.ofNat 2048 (packNat 32 (l.map (·.1))))) none none (t.rows + 4) [ha]) (if max then 64 else 0))

/-! ## Save and restore (R345, R346) -/

/-- The save area of a tile as bytes: header, rows, descriptors. -/
def saveImage (h : THandle) (t : Tile) : Nat × Nat :=
  let body := packNat (8 * t.rb) (t.data.map (·.toNat))
  let n := t.rows * t.rb
  let descs := packNat 16 (t.descs.map (·.toNat))
  ((infoWord h (some t)).toNat + body * 2 ^ 512 + descs * 2 ^ (512 + 8 * n), 64 + n + 2 * t.descs.length)

/-- A save area is one access (R20). -/
def wholeArea (s : State) (a : Word) (n : Nat) (k : Eff) : Eff :=
  guardTrap (!straddles s a n) { code := cMisalign, tval := a } s k

/-- The bytes of an area cut into lines. -/
def areaPieces (a : Word) (n : Nat) : List (Word × Nat) := splitLines 140 a n

/-- An area written; lines that hold bytes from `from_` to `upto` of a poisoned tile are poisoned (R346). -/
def saveArea (s : State) (a : Word) (v n : Nat) (poison : Option (Nat × Nat)) : Eff :=
  let ps := areaPieces a n
  thenDo (checkPieces s .tstore ps ps) fun s xs =>
  thenDo (writePieces s true (layPieces xs ps v)) fun s _ =>
    match poison with
    | none => .ok s
    | some (lo, hi) =>
      let bad := (List.zip xs ps).filter fun p => decide (lo < (p.2.1 - a).toNat + p.2.2 ∧ (p.2.1 - a).toNat < hi)
      .ok (modChunk s fun c => { c with ops := c.ops ++ bad.map fun p => .poison (p.1.pa / 128) })

def execTsave (c : Ctl) (h : THandle) (rb : GReg) (s : State) : Out :=
  plain c s fun s =>
    let a := gOf s rb
    guardTrap (decide (a.toNat % 64 = 0)) { code := cMisalign, tval := a } s <|
    let s := noteShared s h true
    match tileAt s h with
    | none => saveArea s a 0 8 none
    | some t =>
      let (v, n) := saveImage h t
      wholeArea s a n <| saveArea s a v n (if t.poison then some (64, 64 + t.rows * t.rb) else none)

/-- Bytes of an area read. -/
def readArea (s : State) (a : Word) (n : Nat) : State × Res Nat :=
  let ps := areaPieces a n
  match translatePieces s .tload ps with
  | (s, .val xs) => readPieces s (List.zip xs ps)
  | (s, .trap t) => (s, .trap t)
  | (s, .wait c) => (s, .wait c)
  | (s, .again) => (s, .again)

/-- The tile that a header announces, without contents (R329). -/
def headerTile (w : Word) : Tile :=
  let t := Tile.blank (field 5 0 w + 1) (64 * (field 7 6 w + 1)) (TFmt.ofCode (w.extractLsb' 8 4)) (w.getLsbD 12)
  { t with scale := if t.desc then 0x7F else w.extractLsb' 16 8 }

def execTrest (c : Ctl) (h : THandle) (rb : GReg) (s : State) : Out :=
  plain c s fun s =>
    let a := gOf s rb
    guardTrap (decide (a.toNat % 64 = 0)) { code := cMisalign, tval := a } s <|
    thenDo (readArea s a 64) fun s hd =>
    let w := w64 hd
    if !w.getLsbD 15 then .ok (release s h)
    else
      let t := headerTile w
      shape (decide (hd < 2 ^ 24)) h s <|
      configure s h false t fun _ =>
      let n := t.rows * t.rb
      let m := 2 * t.descs.length
      wholeArea s a (64 + n + m) <|
      thenDo (readArea s (a + 64) (n + m)) fun s v =>
      let full : Tile := { t with
        data := (List.range t.rows).map fun i => BitVec.ofNat 2048 (v / 2 ^ (8 * t.rb * i) % 2 ^ (8 * t.rb))
        descs := (List.range t.descs.length).map fun j => BitVec.ofNat 16 (v / 2 ^ (8 * n + 16 * j)) }
      shape (full.descs.all fun d => !badDesc t.fmt d.toNat) h s <|
      configure s h false full .ok

end Sys2Proof.Machine
end

