-- ==== Sys2Proof/Machine/Errors.lean ====
section
/-!
DEFINITION. Hardware errors: what each comes to (R51-R53, R400), the retirement of units (R401, R402), the moving of harts
of a retired core (R404), and fatal errors (R116, R403, R420).
-/

namespace Sys2Proof.Machine

/-! ## Fatal errors (R403) -/

/-- A hart of a stopped module: its uncommitted chunks, its commands and its tile work are discarded. -/
def haltHart (x : Hart) : Hart :=
  let a := match x.inflight with | c :: _ => c.save | [] => x.chunk.save
  let a := if x.slot = .free ∨ (x.inflight.isEmpty && x.chunk.isEmpty) = true then x.arch else a
  { x with arch := a, inflight := [], chunk := Chunk.fresh a, fifo := ⟨[], x.fifo.recs⟩ }

/-- A fatal error: every hart stops, the work under way is discarded, LostSelf leaves on every link, and the host is told
(R116, R403, R418, R421). -/
def failFatal (s0 : State) (cause : Nat) : State :=
  let s := { s0 with
    fatal := true
    cur := haltHart s0.cur
    harts := tabMap Hart.reset (fun _ x => haltHart x) s0.harts
    held := [], presented := [], soloHart := none, soloQ := []
    coh := tabMap LineCoh.reset (fun _ c => { c with fills := [], later := [] }) s0.coh
    clusters := tabMap Cluster.reset (fun _ c => { c with
      transfers := [], renames := [], undispatched := [], sfuQ := [], sfuOut := [], walks := []
      engines := tabMap Engine.reset (fun _ e => { e with queue := [], run := none }) c.engines }) s0.clusters
    groups := tabMap Group.reset (fun _ g => { g with held := [], waitReqs := [], early := [] }) s0.groups
    virtio := { s0.virtio with needsReset := [0, 1, 2, 3] } }
  let s := (upPorts s).foldl (fun s p => linkMsg s p 0x35 false) s
  announce s evFatal 0 cause

def execFatalError (s : State) : Out := .next (failFatal s s.arg.a)

/-- A die or the I/O die has reached 110 °C: announced, and fatal; the management controller then removes power from the dies
(R420, R421). -/
def execDieCriticalTemp (s : State) : Out := .next { failFatal (announce s evThermal 6 s.arg.a) 110 with powered := false }

/-! ## Retirement (R401) -/

/-- The chunks of a hart that Cornice has not admitted are squashed; a committed hart loses nothing. -/
def squashOpen (s : State) (h : Nat) (counts : Bool) : State := squashFrom s h (admittedOf s h) counts

/-- A core is retired: its harts go back to their last committed chunks and wait for new slots (R401, R404). -/
def retireCore (s : State) (core cause : Nat) : State :=
  if (getCore s core).retired then s
  else
    let hs := (hartIds s).filter fun h => coreOf h == core && (getHart s h).slot != .free
    let s := hs.foldl (fun s h =>
      let s := squashOpen s h true
      modHart (leaveQueue s h) h fun x => { x with slot := .ready, stall := none, leave := none, readyAt := s.cycle }) s
    let s := retireUnit (modCore s core fun c => { c with retired := true }) 1 cause (8 * core)
    { s with relocating := s.relocating ++ hs }

/-- A tile engine is retired: what it had is dispatched again, and with the last engine of a cluster its cores go (R378,
R401). -/
def retireEngine (s : State) (cl e : Nat) : State :=
  if (getEngine s cl e).retired then s
  else
    let ops := (engineOps (getEngine s cl e)).map (·.op)
    let s := modEngine s cl e fun x => { x with retired := true, queue := [], run := none, latch := none }
    let s := modCluster s cl fun c => { c with undispatched := ops ++ c.undispatched }
    let s := retireUnit s 2 2 (128 * cl + e)
    if (List.range 4).all fun k => (getEngine s cl k).retired then
      ((List.range 16).map (· + 16 * cl)).foldl (fun s c => retireCore s c 2) s
    else s

/-- A way of a cluster cache is retired: its lines are written back or invalidated (R49, R401). -/
def retireWay (s : State) (cl way cause : Nat) : State :=
  if (getCluster s cl).waysRetired.contains way then s
  else
    let s := modCluster s cl fun c => { c with waysRetired := setInsert c.waysRetired way }
    let s := (getCluster s cl).l2.foldl (fun s x => match x.2 with | w :: _ => fitL2 s cl w.line | [] => s) s
    retireUnit s 3 cause (128 * cl + way)

/-- A corrected error in a way: the sixteenth in 24 hours retires it (R401). -/
def correctedWay (s : State) (cl way : Nat) : State :=
  let day := 24 * 3600 * 1000000000
  let times := (tabGet [] (getCluster s cl).wayErrs way).filter (fun t => decide (s.mtime < t + day)) ++ [s.mtime]
  let s := modCluster s cl fun c => { c with wayErrs := tabPut [] c.wayErrs way times }
  if 16 ≤ times.length then retireWay s cl way 2 else s

/-- A second error within a second (R401). -/
def recent (s : State) (t : Option Nat) : Bool := match t with | some t => decide (s.mtime < t + 1000000000) | none => false

/-! ## The errors (R51, R52, R400) -/

/-- Every field of a control register that the hart's own state holds, writable or not, takes a value; ustat's UIP is the
hart's (R204, R358, R361, R400). -/
def csrForce (a : Arch) (i : Nat) (v : Word) : Arch :=
  if i = 0x009 then
    let b := if a.inh != v.getLsbD 2 then swapNamed a else a
    { b with uie := v.getLsbD 0, inh := v.getLsbD 2 }
  else if 0x020 ≤ i ∧ i < 0x023 then { a with gid := a.gid.setIfInBounds (i - 0x020) (field 11 0 v) }
  else if 0x023 ≤ i ∧ i < 0x026 then { a with gext := a.gext.setIfInBounds (i - 0x023) (field 12 0 v) }
  else if i = 0x026 then { a with partLo := field 39 0 v }
  else if i = 0x027 then { a with partLen := field 39 0 v }
  else csrStore a i v

/-- A register of a hart holds a free value after an uncorrectable error in it: bank 0 g, 1 v, 2 p, 3 the control registers
(R400). -/
def loseReg (bank i n : Nat) (a : Arch) : Arch :=
  match bank with
  | 0 => wrG a (BitVec.ofNat 6 i) (Config.freeWord n)
  | 1 => wrV a (BitVec.ofNat 5 i) (Config.freeVec n)
  | 2 => wrP a (BitVec.ofNat 4 i) (Config.freeWord n)
  | _ => csrForce a i (Config.freeWord n)

/-- The state of a hart that its committed instructions have left. -/
def committedArch (x : Hart) : Arch := match x.inflight with | c :: _ => c.save | [] => if x.chunk.isEmpty then x.arch else x.chunk.save

/-- A change of every state of a hart that holds the same committed value: its own, and those that a squash or a truncation
brings back. -/
def everyArch (x : Hart) (f : Arch → Arch) : Hart :=
  let cut (c : Chunk) : Chunk := { c with save := f c.save, cuts := c.cuts.map fun k => { k with arch := f k.arch } }
  { x with arch := f x.arch, chunk := cut x.chunk, inflight := x.inflight.map cut }

/-- A committed private tile, or residue register, is poisoned wherever the hart's states still name the same physical tile,
or hold the register unwritten since (R52, R53). -/
def poisonTile (x : Hart) (t : Nat) : Hart :=
  let p := tabGet 0 (committedArch x).phys t
  if (tabGet none (committedArch x).tiles t).isNone then x
  else everyArch x fun a =>
    match tabGet none a.tiles t with
    | some y => if tabGet 0 a.phys t = p then { a with tiles := tabPut none a.tiles t (some { y with poison := true }) } else a
    | none => a

def poisonQc (x : Hart) (q : QReg) : Hart :=
  let n := (committedArch x).qgen.get (Fin.mk q.toNat q.isLt)
  everyArch x fun a =>
    if a.qgen.get (Fin.mk q.toNat q.isLt) = n then
      { a with qc := a.qc.set q.toNat { rdQ a q with poison := true } q.isLt }
    else a

/-- A clean line leaves the one cache that has a parity error in it, with the caches below; a copy of a non-coherent line
without dirty bytes goes too (R48, R51, R135). -/
def dropClean (s : State) (l k : Nat) : State :=
  let st := cacheSt (getCoh s l) k
  let clean := st == .s || st == .e
  let keep (t : List NcLine) : List NcLine := t.filter fun x => x.line != l || x.dirty != 0
  let s := if k < 512 then modCore s k fun c => { c with ncl1 := keep c.ncl1 }
    else if k < 544 then modCluster s (k - 512) fun c => { c with ncl2 := keep c.ncl2 } else s
  if !clean then s
  else if k < 512 then dropL1d s l k
  else if 560 ≤ k then dropL1i s l (k - 560)
  else tidyPeer (agentLoses s l k) l

/-- A cache that a number names is a cluster cache, whose ways can be retired (R401). -/
def cacheCluster (k : Nat) : Option Nat := if 512 ≤ k ∧ k < 544 then some (k - 512) else none

/-- A clean line with a parity error is fetched again; memory may hold it with an uncorrectable error. In a cluster cache the
corrected error counts in its way (R51, R401). -/
def parityError (s : State) (l k way : Nat) (bad : Bool) : State :=
  let s := dropClean s l k
  let s := if bad && lineDev l == s.dev then { s with badGran := setInsert s.badGran l } else s
  match cacheCluster k with
  | some cl => correctedWay s cl way
  | none => s

/-- One more corrected error (R51, R52). -/
def countCorrected (s : State) : State := { s with corrected := s.corrected + 1 }

/-- What an error comes to (R400). -/
def handleError (s : State) (e : HwError) : State :=
  match e with
  | .corrected => countCorrected s
  | .parity l k way bad => parityError (countCorrected s) l k way bad
  | .speculative h => squashOpen s h true
  | .coreLogic h rep =>
    let core := coreOf h
    let again := rep || recent s (getCore s core).lastErr
    let s := squashOpen s h true
    let s := modCore s core fun c => { c with lastErr := some s.mtime }
    if again then retireCore s core (if rep then 1 else 2) else s
  | .committedLine l k way =>
    let s := { s with poison := setInsert s.poison l }
    match cacheCluster k with
    | some cl => retireWay s cl way 3
    | none => s
  | .committedTile h t => modHart s h fun x => poisonTile x t
  | .committedShared cl asid n =>
    let x := getShared s cl (shKey asid n)
    setShared s cl (shKey asid n) { x with tile := x.tile.map fun t => { t with poison := true } }
  | .committedQc h q => modHart s h fun x => poisonQc x (BitVec.ofNat 3 q)
  | .hartRegs h bank i =>
    if (getHart s h).slot = .free then s
    else
      let n := s.freeCtr
      let uip (x : Hart) : Bool := if bank = 3 ∧ i = 0x009 then (Config.freeWord n).getLsbD 1 else x.uip
      spend (modHart s h fun x => { everyArch x (loseReg bank i n) with mck := x.mck ++ [2], uip := uip x }) 1
  | .copyPath h =>
    match (getHart s h).fifo.cmds with
    | [] => s
    | c :: _ =>
      if c.retried then failFatal s 1
      else modHead s h fun c =>
        if c.fin.isSome then c else { c with prog := 0, rows := [], walked := [], held := false, retried := true }
  | .engine cl e =>
    let x := getEngine s cl e
    let again := recent s x.lastErr
    let s := match x.run with | some r => squashOpen s r.1.op.hart true | none => s
    let s := modEngine s cl e fun y => { y with lastErr := some s.mtime, run := none }
    if again then retireEngine s cl e else s
  | .cacheWay cl way => correctedWay (countCorrected s) cl way
  | .fatal code => failFatal s code

/-- The number under which the log names a kind of error. -/
def errorCode : HwError → Nat
  | .corrected => 1 | .parity .. => 2 | .speculative _ => 3 | .coreLogic .. => 4 | .committedLine .. => 5 | .committedTile .. => 6
  | .committedShared .. => 7 | .committedQc .. => 8 | .hartRegs .. => 9 | .copyPath .. => 10 | .engine .. => 11 | .cacheWay .. => 12
  | .fatal _ => 13

/-- A detected error is handled and logged (R400). -/
def execHardwareError (s : State) : Out :=
  match s.arg.err with
  | some e => .next (logEv (handleError s e) evError (errorCode e))
  | none => .next s

/-! ## Moving a hart (R404) -/

/-- The slot for a hart of a retired core: placements 1, 2 and 3 from its old place, in that order. -/
def moveSlot (s : State) (h : Nat) : Option Nat :=
  let r := (getHart s h).arch.hreq
  pickSlot s r (coreOf h) 1 <|> pickSlot s r (coreOf h) 2 <|> pickSlot s r (coreOf h) 3

/-- The steps whose argument names a hart by its first number. -/
def aboutHart (i : Instr) : Bool :=
  [Instr.timecmpMatch, .swintWrite, .wdwinBind, .wdwinUnbind, .ustatImageWrite, .probeTimeout, .trapDelivery, .interruptDelivery,
    .userInterrupt, .machineCheck, .registerWrite].contains i

/-- Everything that names a hart names its new slot. -/
def renameHart (s : State) (h n : Nat) : State :=
  let to_ (k : Nat) : Nat := if k = h then n else k
  { s with
    held := s.held.map fun y => { y with hart := to_ y.hart }
    presented := s.presented.map fun p => { p with hart := to_ p.hart, on := p.on.map fun y => { y with hart := to_ y.hart } }
    soloHart := s.soloHart.map to_
    soloQ := s.soloQ.map to_
    clusters := tabMap Cluster.reset (fun _ c => { c with transfers := c.transfers.map fun t => { t with hart := to_ t.hart } }) s.clusters
    dies := tabMap Die.reset (fun _ d => { d with gens := d.gens.map fun g => (g.1, g.2.map fun x => { x with creator := to_ x.creator }) }) s.dies
    peers := tabMap none (fun _ p => p.map fun l => { l with
      pendHarts := l.pendHarts.map to_, flyHarts := l.flyHarts.map to_, pendCmds := l.pendCmds.map to_, flyCmds := l.flyCmds.map to_ }) s.peers
    reqs := s.reqs.map fun r => { r with harts := r.harts.map to_ }
    groups := tabMap Group.reset (fun _ g => { g with held := g.held.map fun o => { o with hart := to_ o.hart } }) s.groups
    invs := s.invs.map fun i => { i with hart := to_ i.hart, cmds := i.cmds.map fun c => (to_ c.1, c.2) }
    dogs := tabMap Dog.reset (fun _ d => { d with hart := d.hart.map to_ }) s.dogs
    events := s.events.map fun e => if aboutHart e.2.1 ∧ e.2.2.a = h then (e.1, e.2.1, { e.2.2 with a := n }) else e }

/-- A hart of a retired core moves to a Free slot with its whole state, its FIFOs, its block and its timer, and becomes
Ready with MACHINE_CHECK of kind 1 pending; with none free it waits (R404). -/
def execHartRelocate (s : State) : Out :=
  let h := s.arg.a
  if !s.relocating.contains h then .next s
  else match moveSlot s h with
  | none => .next s
  | some n =>
    let x := getHart s h
    let x := { x with fifo := { x.fifo with cmds := x.fifo.cmds.map fun (c : FifoCmd) => { c with held := false, walked := [] } } }
    let s := { s with
      relocating := s.relocating.filter (· != h)
      clusters := tabMap Cluster.reset (fun _ c => { c with walks := c.walks.filterMap fun q => q.without h true }) s.clusters }
    let s := renameHart s h n
    let s := setHart s n { x with slot := .ready, readyAt := s.cycle, stall := none, mck := x.mck ++ [1], mckOld := h }
    .next (setHart s h Hart.reset)

end Sys2Proof.Machine
end

