-- ==== Sys2Proof/Machine/Boot.lean ====
section
/-!
DEFINITION. Boot and reset (R413-R416), attestation and key slots (R161, R417), the host's functions (R418), power and
temperature (R174, R419, R420), and the sensors (R421).
-/

namespace Sys2Proof.Machine

/-! ## Reset (R413) -/

/-- The module returns to stage 0: what is fused, in flash or provisioned stays, and the spares of lanes until the next
training (R95, R402, R413, R416). -/
def resetModule (s : State) : State :=
  { State.reset with
    dev := s.provDev, provDev := s.provDev, flash := s.flash, fusedFloor := s.fusedFloor, fusedKey := s.fusedKey
    log := s.log, freeCtr := s.freeCtr
    hbms := tabMap Hbm.reset (fun _ x => { Hbm.reset with
      lanes := x.lanes
      chans := tabMap Chan.reset (fun _ c => { Chan.reset with spused := c.spused, worn := c.worn }) x.chans }) s.hbms }

def execPerst (s : State) : Out := .next (resetModule s)
def execMgmtReset (s : State) : Out := .next (resetModule s)

/-! ## The boot ROM (R414, R416) -/

/-- The bytes of an image slot: 128 MiB of flash each, the manifest first and the image from byte 4,096 on (R416, R418;
assumption log, entry 20). -/
def slotBase (slot : Nat) : Nat := slot * 0x40000 * 512
def flashBytes (s : State) (a n : Nat) : List Byte := (List.range n).map fun i => readByte s.flash (a + i)
def manifestOf (s : State) (slot : Nat) : List Byte := flashBytes s (slotBase slot) 4096
def imageOf (s : State) (slot : Nat) : List Byte := flashBytes s (slotBase slot + 4096) (Config.manifestSize (manifestOf s slot))

/-- The entry offset names a block header with ENTRY = 1 inside the image (R416). -/
def entryOk (s : State) (slot : Nat) : Bool :=
  let m := manifestOf s slot
  let e := Config.manifestEntry m
  let w := readBytes s.flash (slotBase slot + 4096 + e) 8
  decide (e % 8 = 0) && decide (e + 8 ≤ Config.manifestSize m) && decide (w / 2 ^ 54 = 0x3FF) && w.testBit 7

/-- A slot passes every check of R414 and R416. -/
def slotBoots (s : State) (slot : Nat) : Bool :=
  let m := manifestOf s slot
  shake256 (Config.manifestKey m) == s.fusedKey && decide (s.fusedFloor ≤ Config.manifestVersion m) &&
    ed448Verify (Config.manifestKey m) (Config.manifestSigned m) (Config.manifestSignature m) &&
    decide (Config.manifestSize m ≤ 96 * 2 ^ 20 - 4096) && shake256 (imageOf s slot) == Config.manifestDigest m && entryOk s slot

/-- The slots in descending order of version, A first among equals. -/
def bootOrder (s : State) : List Nat :=
  if Config.manifestVersion (manifestOf s 0) < Config.manifestVersion (manifestOf s 1) then [1, 0] else [0, 1]

/-- Bytes put into memory from an address on; zero bytes need no entry. -/
def putAll (m : Memory) (a : Nat) : List Byte → Memory
  | [] => m
  | b :: r => putAll (writeByte m a b) (a + 1) r

/-- Hart 0 at the start of stage 1 (R416). -/
def firstHart (s : State) (slot : Nat) : Hart :=
  let base := s.dev * 2 ^ 42
  let g : Vector Word 64 := Vector.ofFn fun i : Fin 64 =>
    match i.val with
    | 1 => w64 base
    | 2 => w64 s.dev
    | 3 => 0x6000000
    | 4 => w64 slot
    | _ => 0
  let a := { Arch.reset with pc := w64 (base + 0x1000 + Config.manifestEntry (manifestOf s slot)), g := g }
  { Hart.reset with arch := a, slot := .ready, prio := 4, chunk := Chunk.fresh a, readyAt := s.cycle }

/-- Stage 1 begins with the image of a slot (R414-R417). -/
def startStage1 (s : State) (slot : Nat) : State :=
  let m := manifestOf s slot
  let base := s.dev * 2 ^ 42
  let letter : Byte := if slot = 0 then 0x41 else 0x42
  let meas := [(2, Config.manifestDigest m), (3, shake256 (m ++ [letter]))]
  setHart { s with
    stage := 1, booted := some slot, mem := putAll (putAll [] base m) (base + 0x1000) (imageOf s slot)
    meas := meas.foldl (fun t x => tabPut 0 t x.1 x.2) s.meas
    virtio := { s.virtio with blkWriteProtect := some slot } } 0 (firstHart s slot)

def execBootRom (s : State) : Out :=
  if s.stage ≠ 0 then .next s
  else match (bootOrder s).find? (slotBoots s) with
  | some slot => .next (startStage1 s slot)
  | none => .next { s with stage := 5 }

/-- The rollback floor of the manifest that has booted. -/
def bootedFloor (s : State) : Nat := match s.booted with | some k => Config.manifestFloor (manifestOf s k) | none => 0

/-- Every trained port is attested: the module joins the domain, and stage 3 begins. At the end of stage 2 the fused rollback
floor is raised to the booted manifest's, and never lowered (R148, R157, R413, R414). -/
def execFabricJoin (s : State) : Out :=
  let trained := s.ports.filter fun p => p.2.trained
  if s.stage = 2 ∧ ¬ trained.isEmpty = true ∧ (trained.all fun p => p.2.attested) = true then
    .next { s with join := true, stage := 3, fusedFloor := Nat.max s.fusedFloor (bootedFloor s) }
  else .next s

/-- The device id comes over the management bus, and takes effect at the next reset; before stage 0 ends it is the
module's at once (R416). -/
def execProvisioningRequest (s : State) : Out :=
  let d := s.arg.a
  .next (if s.stage = 0 then { s with provDev := d, dev := d } else { s with provDev := d })

/-! ## Attestation (R161, R417) -/

/-- A key exchange of a requester: its 96 bytes of exchange data name a point of secp384r1, and the module answers with its own
point and a signature of the transcript. With the flag, the requester finishes it: its Ed448 key, 57 bytes, and its signature,
114 bytes, open a mutually authenticated session of AES-256-GCM (R417). -/
def execSpdmKeyExchange (s : State) : Out :=
  let b := s.arg.bytes
  if s.arg.flag then
    match s.exchange with
    | none => .next s
    | some x =>
      let key := b.take 57
      if ed448Verify key (spdmSigned "requester-finish signing" (x.transcript ++ key)) (b.drop 57) then
        let k := sessionKeys x.shared (sha3 (x.transcript ++ b))
        .next { s with exchange := none, session := some ⟨shake256 key, k.1, k.2, 0⟩ }
      else .next { s with exchange := none }
  else
    let d := Config.exchangeSecret s.freeCtr % ecN
    match ecMul (ecDecode b) 384 d with
    | none => .next s
    | some (x, _) =>
      let body := ecEncode (ecMul ecBase 384 d)
      let t := Config.negotiated ++ b ++ body
      let sig := ed448Sign (slotKey s s.arg.a) (spdmSigned "responder-key_exchange_rsp signing" t)
      .next { spend s 1 with exchange := some ⟨bigBytes x 48, t ++ sig⟩, hostOut := s.hostOut ++ [body ++ sig] }

/-- Celowell has loaded the operating system's image from the flash: block 4 is recorded once (R417; assumption log, entry 71). -/
def recordSystem (s : State) (sec n : Nat) : State :=
  if (s.stage = 2 ∨ s.stage = 3) ∧ ¬ (s.meas.any fun m => m.1 == 4) = true then
    { s with meas := tabPut 0 s.meas 4 (shake256 (flashBytes s (sec * 512) (n * 512))) }
  else s

/-- The measurement blocks with a signature of the request and of them; with the flag, Celowell first reports the sectors from
which it has loaded the operating system (R417). -/
def execSpdmMeasurements (s : State) : Out :=
  let s := if s.arg.flag then recordSystem s s.arg.b s.arg.c else s
  let body := (measured s).flatMap measBlock
  let t := Config.negotiated ++ s.arg.bytes ++ body
  .next { s with hostOut := s.hostOut ++ [body ++ ed448Sign (slotKey s s.arg.a) (spdmSigned "responder-measurements signing" t)] }

/-- The request that a message of the session holds: a slot, whether it is loaded or cleared, and its three keys. -/
def slotRequest (s : State) (x : Session) : Option (Nat × Option KeySlot) :=
  let n := bytesOf x.seq 8
  match gcmOpen x.key (xorBytes x.iv (n ++ List.replicate 4 0)) n s.arg.bytes with
  | none => none
  | some r =>
    let at_ (i : Nat) : Nat := ofBytes ((r.drop (2 + 32 * i)).take 32)
    let slot := (r.getD 0 0).toNat
    if r.length = 98 ∧ 1 ≤ slot then some (slot, if r.getD 1 0 = 0 then none else some ⟨at_ 0, at_ 1, at_ 2⟩) else none

/-- A request in a session of a provisioned requester loads or clears a key slot (R161, R417). -/
def execKeySlotLoad (s : State) : Out :=
  match s.session with
  | none => .next s
  | some x =>
    match slotRequest s x with
    | none => .next s
    | some (slot, key) =>
      let s := { s with session := some { x with seq := x.seq + 1 } }
      if Config.requesterProvisioned x.digest then .next { s with keys := tabPut none s.keys slot key } else .next s

/-! ## The host's functions (R418) -/

/-- The virtio functions: the PCI id of the device under vendor 0x1AF4, and how many queues it has. -/
def virtioDevice : Nat → Nat | 0 => 0x1041 | 1 => 0x1042 | 2 => 0x1043 | _ => 0x1053
def virtioQueues : Nat → Nat | 0 => 33 | 1 => 4 | 2 => 6 | _ => 3
/-- One MSI-X vector per queue and one for configuration changes. -/
def virtioVectors (f : Nat) : Nat := virtioQueues f + 1

/-- The net function's link is up in stages 2 and 3 only. -/
def netLinkUp (s : State) : Bool := s.stage == 2 || s.stage == 3

def featureBits (l : List Nat) : Nat := l.foldl (fun x i => x ||| 2 ^ i) 0

/-- The features that a function offers, by the bit numbers of virtio 1.2 (assumption log, entry 35). -/
def offered (f : Nat) : Nat :=
  featureBits ([28, 29, 32, 33, 34] ++ (match f with
    | 0 => [0, 1, 3, 5, 16, 17, 22]
    | 1 => [2, 6, 9, 12]
    | 2 => [0, 1, 2]
    | _ => [1]))

/-- The configuration that a function shows, laid out by virtio 1.2: of net the address, STATUS, 16 pairs and the MTU; of blk
the capacity, SEG_MAX, BLK_SIZE and 4 queues; of console its size and 2 ports; of vsock the CID of the guest (assumption log,
entry 35). -/
def virtioConfig (s : State) : Nat → List Byte
  | 0 => bytesOf Config.macAddress 6 ++ bytesOf (if netLinkUp s then 1 else 0) 2 ++ bytesOf 16 2 ++ bytesOf 9216 2
  | 1 => bytesOf 33554432 8 ++ bytesOf 0 4 ++ bytesOf 128 4 ++ bytesOf 0 4 ++ bytesOf 4096 4 ++ bytesOf 0 8 ++ bytesOf 0 2 ++ bytesOf 4 2
  | 2 => bytesOf Config.consoleSize 4 ++ bytesOf 2 4 ++ bytesOf 0 4
  | _ => bytesOf 3 8

/-- What a driver finds at a function: vendor and device, its features, its queues and vectors, and its configuration. -/
def virtioShows (s : State) (f : Nat) : List Byte :=
  bytesOf 0x1AF4 2 ++ bytesOf (virtioDevice f) 2 ++ bytesOf (offered f) 8 ++ bytesOf (virtioQueues f) 2 ++ bytesOf (virtioVectors f) 2 ++
    virtioConfig s f

/-- A driver looks at a function and accepts features; one that accepts a feature not offered finds FEATURES_OK clear. -/
def execVirtioFeaturesOk (s : State) : Out :=
  let f := s.arg.a
  let ok := s.arg.word.toNat ||| offered f == offered f
  let l := if ok then setInsert s.virtio.featuresOk f else s.virtio.featuresOk.filter (· != f)
  .next { s with virtio := { s.virtio with featuresOk := l }, hostOut := s.hostOut ++ [virtioShows s f] }

/-- A function answers with a status. -/
def answer (s : State) (f st : Nat) : State := { s with virtio := { s.virtio with answers := s.virtio.answers ++ [(f, st)] } }

/-- The host's data reach the module's software, or its receive buffer waits for data from there (assumption log, entry 73). -/
def takeData (s : State) (f q : Nat) (b : List Byte) : State :=
  { s with virtio := { s.virtio with toModule := s.virtio.toModule ++ [(f, q, b)] } }
def takeBuffer (s : State) (f q : Nat) : State := { s with virtio := { s.virtio with waiting := s.virtio.waiting ++ [(f, q)] } }

/-- A request on a net queue: of the 33, the even ones below 32 receive, the odd ones send and the last one controls. It is
served in stages 2 and 3 only, where the link is up; a frame longer than the MTU with its headers is dropped. -/
def execVirtioNetRequest (s : State) : Out :=
  let q := s.arg.a
  if virtioQueues 0 ≤ q then .next s
  else if !netLinkUp s then .next (answer s 0 1)
  else if q = 32 then .next (answer s 0 0)
  else if q % 2 = 0 then .next (takeBuffer s 0 q)
  else if 12 + 14 + 9216 < s.arg.bytes.length then .next (answer s 0 1)
  else .next (answer (takeData s 0 q s.arg.bytes) 0 0)

/-- The sectors of the slot that has booted. -/
def sectorProtected (s : State) (sec n : Nat) : Bool :=
  match s.virtio.blkWriteProtect with
  | some k => decide (sec < (k + 1) * 0x40000) && decide (k * 0x40000 < sec + n)
  | none => false

/-- A block request on the flash: a = 0 read, 1 write, 2 flush; b the first sector; c the number of sectors of a read. -/
def execVirtioBlkRequest (s : State) : Out :=
  let sec := s.arg.b
  let n := if s.arg.a = 1 then (s.arg.bytes.length + 511) / 512 else s.arg.c
  if s.arg.a = 2 then .next (answer s 1 0)
  else if 33554432 < sec + n then .next (answer s 1 1)
  else if s.arg.a = 0 then .next (answer { s with hostOut := s.hostOut ++ [flashBytes s (sec * 512) (n * 512)] } 1 0)
  else if s.stage = 1 ∨ sectorProtected s sec n = true ∨ s.arg.bytes.length % 512 ≠ 0 then .next (answer s 1 1)
  else .next (answer { s with flash := putAll s.flash (sec * 512) s.arg.bytes } 1 0)

/-- Kept lines are written while the console has a free buffer (R421). -/
def writeLines : Nat → Virtio → List (Nat × Nat × Nat) → Virtio × List (Nat × Nat × Nat)
  | 0, v, l => (v, l)
  | _, v, [] => (v, [])
  | n + 1, v, x :: l =>
    if v.buffers = 0 then (v, x :: l) else writeLines n { v with buffers := v.buffers - 1, port1 := v.port1 ++ [eventLine x] } l

/-- A buffer exchange on a console port: with the flag the host sends bytes, which port 1 has no use for; else it gives a
receive buffer. On port 1 kept lines are written then (R418, R421). -/
def execVirtioConsoleRequest (s : State) : Out :=
  if s.arg.flag then .next (answer (if s.arg.a = 0 then takeData s 2 0 s.arg.bytes else s) 2 0)
  else if s.arg.a = 1 then
    let (v, l) := writeLines 64 { s.virtio with buffers := s.virtio.buffers + 1 } s.console
    .next (answer { s with virtio := v, console := l } 2 0)
  else .next (takeBuffer s 2 0)

/-- The header of a vsock packet from the module, CID 2, to the guest, CID 3: ports, the type of SEQPACKET, and the operation. -/
def vsockHeader (src dst op : Nat) : List Byte :=
  bytesOf 2 8 ++ bytesOf 3 8 ++ bytesOf src 4 ++ bytesOf dst 4 ++ bytesOf 0 4 ++ bytesOf 2 2 ++ bytesOf op 2 ++ bytesOf 0 12

/-- A connection request from a port of the guest to one of the module: answered, or reset in stages 1 and 5. -/
def execVsockConnect (s : State) : Out :=
  let closed := s.stage = 1 ∨ s.stage = 5
  let s := { s with hostOut := s.hostOut ++ [vsockHeader s.arg.b s.arg.a (if closed then 3 else 2)] }
  .next (answer (if closed then s else { s with virtio := { s.virtio with conns := setInsert s.virtio.conns s.arg.b } }) 3 (if closed then 1 else 0))

/-- One function is reset alone (R413). -/
def execFunctionLevelReset (s : State) : Out :=
  let f := s.arg.a
  .next { s with virtio := { s.virtio with
    featuresOk := s.virtio.featuresOk.filter (· != f), needsReset := s.virtio.needsReset.filter (· != f)
    buffers := if f = 2 then 0 else s.virtio.buffers, conns := if f = 3 then [] else s.virtio.conns
    waiting := s.virtio.waiting.filter fun a => a.1 != f, answers := s.virtio.answers.filter fun a => a.1 != f } }

/-! ## Power and temperature (R174, R419-R421) -/

/-- A die steps its clock down, up, or not (R419). -/
def stepClock (pwr cap : Nat) (d : Die) : Die :=
  if d.tlim ≤ d.tj ∨ cap < pwr then { d with fclk := Nat.max 16 (d.fclk - 1) }
  else if d.tj + 5 ≤ d.tlim ∧ pwr + 50 < cap then { d with fclk := Nat.min 30 (d.fclk + 1) }
  else d

/-- The I/O die's junction: the ports park, forced, at 95 °C and are released after 1 ms at or below 90 °C (R174, R420). -/
def ioTemp (s : State) (t : Nat) : State :=
  if 95 ≤ t then
    let s := { s with coolAt := none }
    if (globalUp s).all fun p => (getPort s p).forced then s else after s 0 (.forcedPark, {})
  else if 90 < t then { s with coolAt := none }
  else match s.coolAt with
    | some _ => s
    | none => after { s with coolAt := some s.mtime } 1000000 (.forcedParkRelease, {})

/-- Every millisecond: power and temperatures are taken, and from stage 2 each die steps its clock; at 110 °C the module
stops (R82, R419, R420). The argument's numbers are the junctions of the four dies and of the I/O die, and the temperatures
of the eight stacks. -/
def execPowerTick (s : State) : Out :=
  let pwr := s.arg.a
  let temps := s.arg.nums
  let at_ (i : Nat) : Nat := (temps[i]?).getD 0
  let s := { s with pwr := pwr }
  let s := [0, 1, 2, 3].foldl (fun s d => modDie s d fun x => { x with tj := at_ d }) s
  let s := (List.range 8).foldl (fun s k => hbmTemp s k (at_ (5 + k))) s
  let s :=
    if 2 ≤ s.stage ∧ s.stage ≤ 3 ∧ s.powered = true then
      let dies := [0, 1, 2, 3].map (getDie s)
      let s := { s with
        throtFlag := dies.any fun d => decide (16 < d.fclk) && decide (d.tlim ≤ d.tj)
        capFlag := dies.any fun d => decide (16 < d.fclk) && decide (s.cap < pwr) }
      [0, 1, 2, 3].foldl (fun s d => modDie s d (stepClock pwr s.cap)) s
    else s
  let s := ioTemp s (at_ 4)
  match (List.range 5).find? fun i => s.powered && decide (110 ≤ at_ i) with
  | some i => .next (after s 0 (.dieCriticalTemp, { a := i }))
  | none => .next s

/-- The coolant inlet's temperature: at 45 °C it is announced, with no action (R420). -/
def execCoolantInletAlert (s : State) : Out := .next (if 45 ≤ s.arg.a then announce s evThermal 8 0 else s)

/-- The management controller's answer: every temperature, the power and the management status as sensors, the featmask of
every core, and the units retired in service (R2, R402, R421; assumption log, entry 52). -/
def execPldmSensorRequest (s : State) : Out :=
  let dies := ([0, 1, 2, 3].map fun d => BitVec.ofNat 8 (getDie s d).tj)
  let hbms := (List.range 8).map fun k => BitVec.ofNat 8 (getHbm s k).temp
  let cores := (List.range 512).flatMap fun c => bytesOf (featmask s c).toNat 8
  let units := s.retired.flatMap fun r => bytesOf r.word.toNat 8
  .next { s with hostOut := s.hostOut ++ [dies ++ hbms ++ bytesOf s.pwr 2 ++ bytesOf (mgmtRead s 0).toNat 8, cores, units] }

end Sys2Proof.Machine
end

