-- ==== Sys2Proof/Machine/Coherence.lean ====
section
/-!
DEFINITION. The requests and answers of coherence inside the module as steps of their own (R98-R106, R111): one step of the
protocol each, as the die, the home or the slice that takes it acts.
-/

namespace Sys2Proof.Machine

/-- A step of the protocol with the argument of the hardware step that moves. -/
def cohNow (i : Instr) (s : State) : Out := .next (cohStep (i, s.arg) s)

/-- Requests on Tether (R98-R101). -/
def execGets (s : State) : Out := cohNow .gets s
def execGetm (s : State) : Out := cohNow .getm s
def execUpg (s : State) : Out := cohNow .upg s

/-- Snoops of a home on a die (R98, R101, R105, R106). -/
def execInv (s : State) : Out := cohNow .inv s
def execFwds (s : State) : Out := cohNow .fwds s
def execFwdm (s : State) : Out := cohNow .fwdm s
def execBackinv (s : State) : Out := cohNow .backinv s

/-- Data and answers on the mesh and between dies (R100, R102, R105, R111). -/
def execData (s : State) : Out := cohNow .data s
def execDatae (s : State) : Out := cohNow .datae s
def execFwdmiss (s : State) : Out := cohNow .fwdmiss s
def execEvictm (s : State) : Out := cohNow .evictm s

/-- The answer of an agent that holds no data: the requester waits for the one that does (R101, R111). -/
def execAck (s : State) : Out := .next s

/-- Requests and answers at the home directory (R103-R106). -/
def execRds (s : State) : Out := cohNow .rds s
def execRdm (s : State) : Out := cohNow .rdm s
def execFwdack (s : State) : Out := cohNow .fwdack s
def execInvack (s : State) : Out := cohNow .invack s
def execComplete (s : State) : Out := cohNow .complete s
def execWbdata (s : State) : Out := cohNow .wbdata s
def execWback (s : State) : Out := cohNow .wback s

end Sys2Proof.Machine
end

