-- ==== Sys2Proof/Machine/ControlFlow.lean ====
section
/-!
DEFINITION. Control-flow instructions (R229-R231, R262-R265).
-/

namespace Sys2Proof.Machine

/-- The check of a transfer's target: its bits, the fetch of its word, a header, and ENTRY where the transfer needs it
(R230). On failure the trap names the target. -/
def checkTarget (s : State) (target : Word) (entry : Bool) : State × Res Unit :=
  let bad : Trap := { code := cTarget, tval := target }
  if target.toNat % 8 ≠ 0 ∨ 2 ^ 57 ≤ target.toNat then (s, .trap bad)
  else
    let pc := s.cur.arch.pc
    let (s, r) := fetchWord (setPc s target)
    (setPc s pc, r.bind fun w => if isHeader w && (!entry || headerEntry w) then .val () else .trap bad)

/-- The return-address predictor takes a link; it keeps 16 (R265). -/
def pushRas (a : Arch) (x : Word) : Arch := { a with ras := (x :: a.ras).take 16 }
def popRas (a : Arch) : Arch := { a with ras := a.ras.drop 1 }

/-- A transfer: predicated off it falls through, else its target is checked, and its effect on the registers and the
jump follow (R223, R230, R263). -/
def transfer (c : Ctl) (s : State) (entry : Bool) (target : State → Word) (effect : State → State) : Out :=
  let s := openChunk s
  .next (if guardOf s.cur.arch c then
      match checkTarget s (target s) entry with
      | (s1, .val _) => retireTo c (target s) (effect s1)
      | (s1, .trap t) => raiseAt s1 s.cur.arch.pc t
      | (s1, .wait w) => stallOn w s1
      | (_, .again) => endBefore s
    else retire c s)

/-- The link is the address of the next word (R263). -/
def link (rl : GReg) (s : State) : State :=
  let x := s.cur.arch.pc + 8
  setG (updArch s fun a => pushRas a x) rl x

def execBr (c : Ctl) (off : BitVec 38) (s : State) : Out :=
  transfer c s false (fun s => s.cur.arch.pc + off.signExtend 64 <<< 3) id
def execCall (c : Ctl) (rl : GReg) (off : BitVec 32) (s : State) : Out :=
  transfer c s false (fun s => s.cur.arch.pc + off.signExtend 64 <<< 3) (link rl)
def execCallr (c : Ctl) (rl rt : GReg) (s : State) : Out := transfer c s true (fun s => gOf s rt) (link rl)
def execJr (c : Ctl) (rt : GReg) (s : State) : Out := transfer c s true (fun s => gOf s rt) id
def execRet (c : Ctl) (rt : GReg) (s : State) : Out :=
  transfer c s true (fun s => gOf s rt) (fun s => updArch s popRas)

end Sys2Proof.Machine
end

