-- ==== Sys2Proof/Machine/Cornice.lean ====
section
/-!
DEFINITION. The steps of Cornice and of the shared-handle transfers (R60-R63, R122-R126, R130, R423).
-/

namespace Sys2Proof.Machine

/-- A chunk is no longer among those that wait. -/
def unpresent (s : State) (h : Nat) : State := { s with presented := s.presented.filter (fun p => p.hart != h) }

/-- A chunk waits: one that has been presented before keeps its place (R124, R132). -/
def waitFor (s : State) (p : Pres) : State :=
  if s.presented.any (fun q => q.hart == p.hart) then
    { s with presented := s.presented.map fun q => if q.hart = p.hart then p else q }
  else { s with presented := s.presented ++ [p] }

/-- A chunk is admitted: its place in the commit order is fixed (R124). -/
def admitChunk (s : State) (h : Nat) (c : Chunk) : State :=
  let s := unpresent s h
  { s with held := s.held ++ [⟨h, c.reads, c.writes⟩] }

/-- Cornice checks a chunk of a hart against what it has admitted: the chunk is admitted, or waits for room or for the first
admitted chunk that it conflicts with (R124). A pre-admitted chunk has its place already (R130). -/
def check (s : State) (h : Nat) (c : Chunk) : State :=
  if preAdmitted s h then admitChunk s h c
  else if 128 ≤ s.held.length then waitFor s ⟨h, none, false⟩
  else match (admittedNow s).find? (conflicts c) with
  | some y => waitFor s ⟨h, some y, sigMeet c.reads y.writes⟩
  | none => admitChunk s h c

/-- An earlier presentation waits for room, and the later ones behind it (R124). -/
def roomAwaited (s : State) : Bool := s.presented.any fun p => p.on.isNone

/-- Presentation of a hart's chunk (R122, R124). -/
def execChunkPresent (s : State) : Out :=
  let h := s.arg.a
  match toPresent s h with
  | some c =>
    if s.presented.any (fun p => p.hart == h) || working s h c then .next s
    else if roomAwaited s && !preAdmitted s h then .next (waitFor s ⟨h, none, false⟩)
    else .next (check s h c)
  | none => .next s

/-- A presented chunk still waits for the held chunk, for the pre-admitted one, or for room. -/
def stillWaits (s : State) (p : Pres) : Bool :=
  match p.on with
  | some y => s.held.contains y || s.soloHart == some y.hart
  | none => decide (128 ≤ s.held.length)

/-- A chunk whose wait has ended is squashed if it read what the held chunk wrote, and is checked again otherwise (R124). -/
def execCorniceRecheck (s : State) : Out :=
  let h := s.arg.a
  match s.presented.find? (fun p => p.hart == h) with
  | none => .next s
  | some p =>
    if stillWaits s p then .next s
    else if p.readHit then .next (squashFrom s h (admittedOf s h) true)
    else match toPresent s h with
      | some c => .next (check s h c)
      | none => .next (unpresent s h)

/-- The first entry of a hart taken out of a list of held chunks. -/
def unhold (h : Nat) : List Held → List Held
  | [] => []
  | y :: r => if y.hart = h then r else y :: unhold h r

/-- The commit of a pre-admitted chunk: the next request is served, and a hart that stays in solo mode asks again (R130). -/
def passAlone (s : State) (h : Nat) : State :=
  if preAdmitted s h then
    let s := leaveQueue s h
    if (getHart s h).solo then askSolo s h else modHart s h fun x => { x with soloCount := 0, soloLines := [] }
  else s

/-- The oldest admitted chunk of a hart commits (R125). -/
def execChunkCommit (s : State) : Out :=
  let h := s.arg.a
  let x := getHart s h
  match x.inflight with
  | c :: r =>
    if admittedOf s h = 0 then .next s
    else
      let s := { setHart s h { x with inflight := r } with held := unhold h s.held }
      .next (passAlone (commitChunk s h c) h)
  | [] => .next s

/-- A transfer leaves the shared-tile counter of its hart (R61). -/
def countTransfer (s : State) (h : Nat) : State :=
  if h = noHart then s else modHart s h fun x => { x with tileCnt := x.tileCnt - 1 }

/-- The oldest transfer of a cluster is applied as one step, or discarded where a TCFG or TREL step of its handle has
come after its writer (R61, R63, R423). -/
def execSharedTransferApply (s : State) : Out :=
  let cl := s.arg.a
  match (getCluster s cl).transfers with
  | [] => .next s
  | t :: r =>
    let s := modCluster s cl fun c => { c with transfers := r }
    let x := getShared s cl t.key
    let keeps := x.steps == t.ver
    let s := if keeps then
        squashShared (setShared s cl t.key { x with tile := t.tile, writes := x.writes + 1 }) cl t.key false
      else s
    let s := if t.cmd then s else countTransfer s t.hart
    .next (if t.cmd && t.hart != noHart then
        confirm (if keeps then s else modHead s t.hart fun c => { c with fin := c.fin.map fun _ => (0x08, 0) }) t.hart
      else s)

end Sys2Proof.Machine
end

