-- ==== Sys2Proof/Machine/Scalar.lean ====
section
/-!
DEFINITION. Scalar integer instructions (R242-R255).
-/

namespace Sys2Proof.Machine

/-- A member that writes one general register. -/
def putG (c : Ctl) (rd : GReg) (f : State → Word) (s : State) : Out := plain c s fun s => .ok (setG s rd (f s))
/-- A member that writes one predicate. -/
def putP (c : Ctl) (pd : PReg) (f : State → Word) (s : State) : Out := plain c s fun s => .ok (setP s pd (f s))

/-! ## Arithmetic and logic (R243-R245) -/

/-- Bits [127:64] of the signed product (R243). -/
def mulHigh (a b : Word) : Word := BitVec.ofInt 64 (a.toInt * b.toInt / 2 ^ 64)
/-- Bits [127:64] of the unsigned product (R243). -/
def mulHighU (a b : Word) : Word := BitVec.ofNat 64 (a.toNat * b.toNat / 2 ^ 64)
/-- The amount of a shift or rotation: bits [5:0] (R243). -/
def amount (b : Word) : Nat := b.toNat % 64

/-- The signed quotient: -1 for a divisor of zero, wrapping for -2^63 / -1 (R245). -/
def divS (a b : Word) : Word := if b = 0 then BitVec.allOnes 64 else BitVec.ofInt 64 (a.toInt.tdiv b.toInt)
/-- The signed remainder (R245). -/
def remS (a b : Word) : Word := if b = 0 then a else BitVec.ofInt 64 (a.toInt.tmod b.toInt)
/-- The unsigned quotient (R245). -/
def divU (a b : Word) : Word := if b = 0 then BitVec.allOnes 64 else BitVec.ofNat 64 (a.toNat / b.toNat)
/-- The unsigned remainder (R245). -/
def remU (a b : Word) : Word := if b = 0 then a else BitVec.ofNat 64 (a.toNat % b.toNat)

def execAdd (c : Ctl) (rd ra rb : GReg) (s : State) : Out := putG c rd (fun s => gOf s ra + gOf s rb) s
def execSub (c : Ctl) (rd ra rb : GReg) (s : State) : Out := putG c rd (fun s => gOf s ra - gOf s rb) s
def execMul (c : Ctl) (rd ra rb : GReg) (s : State) : Out := putG c rd (fun s => gOf s ra * gOf s rb) s
def execMulh (c : Ctl) (rd ra rb : GReg) (s : State) : Out := putG c rd (fun s => mulHigh (gOf s ra) (gOf s rb)) s
def execMulhu (c : Ctl) (rd ra rb : GReg) (s : State) : Out := putG c rd (fun s => mulHighU (gOf s ra) (gOf s rb)) s
def execMadd (c : Ctl) (rd ra rb rc : GReg) (s : State) : Out := putG c rd (fun s => gOf s ra * gOf s rb + gOf s rc) s
def execDiv (c : Ctl) (rd ra rb : GReg) (s : State) : Out := putG c rd (fun s => divS (gOf s ra) (gOf s rb)) s
def execDivu (c : Ctl) (rd ra rb : GReg) (s : State) : Out := putG c rd (fun s => divU (gOf s ra) (gOf s rb)) s
def execRem (c : Ctl) (rd ra rb : GReg) (s : State) : Out := putG c rd (fun s => remS (gOf s ra) (gOf s rb)) s
def execRemu (c : Ctl) (rd ra rb : GReg) (s : State) : Out := putG c rd (fun s => remU (gOf s ra) (gOf s rb)) s
def execAnd (c : Ctl) (rd ra rb : GReg) (s : State) : Out := putG c rd (fun s => gOf s ra &&& gOf s rb) s
def execOr (c : Ctl) (rd ra rb : GReg) (s : State) : Out := putG c rd (fun s => gOf s ra ||| gOf s rb) s
def execXor (c : Ctl) (rd ra rb : GReg) (s : State) : Out := putG c rd (fun s => gOf s ra ^^^ gOf s rb) s
def execAndn (c : Ctl) (rd ra rb : GReg) (s : State) : Out := putG c rd (fun s => gOf s ra &&& ~~~(gOf s rb)) s
def execOrn (c : Ctl) (rd ra rb : GReg) (s : State) : Out := putG c rd (fun s => gOf s ra ||| ~~~(gOf s rb)) s
def execSll (c : Ctl) (rd ra rb : GReg) (s : State) : Out := putG c rd (fun s => gOf s ra <<< amount (gOf s rb)) s
def execSrl (c : Ctl) (rd ra rb : GReg) (s : State) : Out := putG c rd (fun s => gOf s ra >>> amount (gOf s rb)) s
def execSra (c : Ctl) (rd ra rb : GReg) (s : State) : Out := putG c rd (fun s => (gOf s ra).sshiftRight (amount (gOf s rb))) s
def execRol (c : Ctl) (rd ra rb : GReg) (s : State) : Out := putG c rd (fun s => (gOf s ra).rotateLeft (amount (gOf s rb))) s
def execRor (c : Ctl) (rd ra rb : GReg) (s : State) : Out := putG c rd (fun s => (gOf s ra).rotateRight (amount (gOf s rb))) s
def execMin (c : Ctl) (rd ra rb : GReg) (s : State) : Out :=
  putG c rd (fun s => if (gOf s ra).slt (gOf s rb) then gOf s ra else gOf s rb) s
def execMax (c : Ctl) (rd ra rb : GReg) (s : State) : Out :=
  putG c rd (fun s => if (gOf s ra).slt (gOf s rb) then gOf s rb else gOf s ra) s
def execMinu (c : Ctl) (rd ra rb : GReg) (s : State) : Out :=
  putG c rd (fun s => if (gOf s ra).ult (gOf s rb) then gOf s ra else gOf s rb) s
def execMaxu (c : Ctl) (rd ra rb : GReg) (s : State) : Out :=
  putG c rd (fun s => if (gOf s ra).ult (gOf s rb) then gOf s rb else gOf s ra) s

/-! ## Bits (R246-R250) -/

/-- Zero bits above the highest one bit; the width for 0 (R246). -/
def leadingZeros (w x : Nat) : Nat := if x = 0 then w else w - 1 - Nat.log2 x
/-- Zero bits below the lowest one bit; 64 for 0 (R246). -/
def trailingZeros (x : Word) : Nat := ((List.range 64).find? (fun i => x.getLsbD i)).getD 64
/-- One bits among the low w bits (R246). -/
def oneBits (w x : Nat) : Nat := ((List.range w).filter (fun i => x.testBit i)).length
/-- The eight bytes in reverse order (R246). -/
def swapBytes (x : Word) : Word :=
  BitVec.ofNat 64 (packNat 8 ((List.range 8).map fun i => (x.toNat >>> (8 * (7 - i))) % 256))

/-- `SignExt` and `ZeroExt` of the low n bits to 64 (R14, R247). -/
def extendBits (n : Nat) (sg : Bool) (x : Nat) : Word :=
  if sg then BitVec.ofInt 64 (signExt n x) else BitVec.ofNat 64 (x % 2 ^ n)

/-- A word with bits [pos + len - 1 : pos] replaced (R248). -/
def insertBits (x y : Word) (pos len : Nat) : Word :=
  let m : Word := BitVec.ofNat 64 ((2 ^ len - 1) * 2 ^ pos)
  (x &&& ~~~m) ||| ((y <<< pos) &&& m)

def execClz (c : Ctl) (rd ra : GReg) (s : State) : Out := putG c rd (fun s => w64 (leadingZeros 64 (gOf s ra).toNat)) s
def execCtz (c : Ctl) (rd ra : GReg) (s : State) : Out := putG c rd (fun s => w64 (trailingZeros (gOf s ra))) s
def execPopc (c : Ctl) (rd ra : GReg) (s : State) : Out := putG c rd (fun s => w64 (oneBits 64 (gOf s ra).toNat)) s
def execBswap (c : Ctl) (rd ra : GReg) (s : State) : Out := putG c rd (fun s => swapBytes (gOf s ra)) s
def execSext (c : Ctl) (rd ra : GReg) (n1 : BitVec 6) (s : State) : Out :=
  putG c rd (fun s => extendBits (n1.toNat + 1) true (gOf s ra).toNat) s
def execZext (c : Ctl) (rd ra : GReg) (n1 : BitVec 6) (s : State) : Out :=
  putG c rd (fun s => extendBits (n1.toNat + 1) false (gOf s ra).toNat) s
def execBfx (c : Ctl) (rd ra : GReg) (sg : Bool) (pos len1 : BitVec 6) (s : State) : Out :=
  putG c rd (fun s => extendBits (len1.toNat + 1) sg ((gOf s ra).toNat >>> pos.toNat)) s
def execBfi (c : Ctl) (rd ra : GReg) (pos len1 : BitVec 6) (s : State) : Out :=
  putG c rd (fun s => insertBits (gOf s rd) (gOf s ra) pos.toNat (len1.toNat + 1)) s
def execAddsh (c : Ctl) (rd ra rb : GReg) (sh : BitVec 3) (s : State) : Out :=
  putG c rd (fun s => gOf s ra + gOf s rb <<< sh.toNat) s
def execSel (c : Ctl) (rd : GReg) (pn : PReg) (ra rb : GReg) (s : State) : Out :=
  putG c rd (fun s => if (pOf s pn).getLsbD 0 then gOf s ra else gOf s rb) s

/-! ## Comparison and predicates (R251, R252) -/

/-- A condition on two words (R251). -/
def condHolds (cond : Cond) (a b : Word) : Bool :=
  match cond with
  | .eq => a == b
  | .ne => a != b
  | .lt => a.slt b
  | .ge => !a.slt b
  | .ltu => a.ult b
  | .geu => !a.ult b

/-- The operation of plog (R252). -/
def plogOf (op : PlogOp) (a b : Word) : Word :=
  match op with
  | .and => a &&& b
  | .or => a ||| b
  | .xor => a ^^^ b
  | .andn => a &&& ~~~b

def execCmp (c : Ctl) (cond : Cond) (pd : PReg) (ra rb : GReg) (s : State) : Out :=
  putP c pd (fun s => predOf (condHolds cond (gOf s ra) (gOf s rb))) s
def execPlog (c : Ctl) (op : PlogOp) (pd pa pb : PReg) (s : State) : Out :=
  putP c pd (fun s => plogOf op (pOf s pa) (pOf s pb)) s

/-! ## Immediate forms (R253-R255) -/

def execAddi (c : Ctl) (rd ra : GReg) (imm : BitVec 26) (s : State) : Out := putG c rd (fun s => gOf s ra + imm.signExtend 64) s
def execAndi (c : Ctl) (rd ra : GReg) (imm : BitVec 26) (s : State) : Out := putG c rd (fun s => gOf s ra &&& imm.signExtend 64) s
def execOri (c : Ctl) (rd ra : GReg) (imm : BitVec 26) (s : State) : Out := putG c rd (fun s => gOf s ra ||| imm.signExtend 64) s
def execXori (c : Ctl) (rd ra : GReg) (imm : BitVec 26) (s : State) : Out := putG c rd (fun s => gOf s ra ^^^ imm.signExtend 64) s
def execSlli (c : Ctl) (rd ra : GReg) (sh : BitVec 6) (s : State) : Out := putG c rd (fun s => gOf s ra <<< sh.toNat) s
def execSrli (c : Ctl) (rd ra : GReg) (sh : BitVec 6) (s : State) : Out := putG c rd (fun s => gOf s ra >>> sh.toNat) s
def execSrai (c : Ctl) (rd ra : GReg) (sh : BitVec 6) (s : State) : Out := putG c rd (fun s => (gOf s ra).sshiftRight sh.toNat) s
def execMuli (c : Ctl) (rd ra : GReg) (imm : BitVec 26) (s : State) : Out := putG c rd (fun s => gOf s ra * imm.signExtend 64) s
def execCmpi (c : Ctl) (cond : Cond) (pd : PReg) (ra : GReg) (imm : BitVec 18) (s : State) : Out :=
  putP c pd (fun s => predOf (condHolds cond (gOf s ra) (imm.signExtend 64))) s
def execLi (c : Ctl) (rd : GReg) (imm : BitVec 32) (s : State) : Out := putG c rd (fun _ => imm.signExtend 64) s
def execLui (c : Ctl) (rd : GReg) (imm : BitVec 32) (s : State) : Out :=
  putG c rd (fun s => imm ++ (gOf s rd).extractLsb' 0 32) s
def execLpc (c : Ctl) (rd : GReg) (imm : BitVec 32) (s : State) : Out :=
  putG c rd (fun s => s.cur.arch.pc + imm.signExtend 64) s

end Sys2Proof.Machine
end

