-- ==== Sys2Proof/Machine/ScalarFp.lean ====
section
/-!
DEFINITION. Scalar floating-point instructions (R182-R187, R256-R261).
-/

namespace Sys2Proof.Machine

/-- `ReadF`: the low bits of a register as a value of a type (R256). -/
def readF (s : State) (t : VType) (r : GReg) : FVal := t.fmt.read (fzOf s.cur.arch) ((gOf s r).toNat % 2 ^ t.width)

/-- A rounded result is written with its flags, or FP_EXC is raised (R184, R256, R257). -/
def roundTo (s : State) (t : VType) (m : RMode) (rd : GReg) (r : RMode → FVal × Flags) : Eff :=
  let mode := m.resolve s.cur.arch.fcsr
  let (y, fl) := t.fmt.finish mode (fzOf s.cur.arch) false (r mode)
  withFlags fl s fun s => .ok (setG s rd (BitVec.ofNat 64 y))

def execFadd (c : Ctl) (t : VType) (m : RMode) (rd ra rb : GReg) (s : State) : Out :=
  plain c s fun s => roundTo s t m rd fun k => FVal.add k (readF s t ra) (readF s t rb)
def execFsub (c : Ctl) (t : VType) (m : RMode) (rd ra rb : GReg) (s : State) : Out :=
  plain c s fun s => roundTo s t m rd fun k => FVal.add k (readF s t ra) (readF s t rb).neg
def execFmul (c : Ctl) (t : VType) (m : RMode) (rd ra rb : GReg) (s : State) : Out :=
  plain c s fun s => roundTo s t m rd fun _ => FVal.mul (readF s t ra) (readF s t rb)
def execFma (c : Ctl) (t : VType) (m : RMode) (rd ra rb rc : GReg) (s : State) : Out :=
  plain c s fun s => roundTo s t m rd fun k => FVal.fma k (readF s t ra) (readF s t rb) (readF s t rc)
def execFdiv (c : Ctl) (t : VType) (m : RMode) (rd ra rb : GReg) (s : State) : Out :=
  plain c s fun s => roundTo s t m rd fun _ => FVal.div (readF s t ra) (readF s t rb)
def execFsqrt (c : Ctl) (t : VType) (m : RMode) (rd ra : GReg) (s : State) : Out :=
  plain c s fun s => roundTo s t m rd fun _ => FVal.sqrt (readF s t ra)

/-- The smaller or larger operand, unrounded (R258). -/
def pickTo (s : State) (t : VType) (larger : Bool) (rd ra rb : GReg) : Eff :=
  let (y, fl) := t.fmt.write (fzOf s.cur.arch) (FVal.pick larger (readF s t ra) (readF s t rb))
  withFlags fl s fun s => .ok (setG s rd (BitVec.ofNat 64 y))

def execFmin (c : Ctl) (t : VType) (rd ra rb : GReg) (s : State) : Out := plain c s fun s => pickTo s t false rd ra rb
def execFmax (c : Ctl) (t : VType) (rd ra rb : GReg) (s : State) : Out := plain c s fun s => pickTo s t true rd ra rb

def execFcmp (c : Ctl) (t : VType) (cond : Cond) (pd : PReg) (ra rb : GReg) (s : State) : Out :=
  plain c s fun s =>
    let (b, fl) := FVal.compare cond (readF s t ra) (readF s t rb)
    withFlags fl s fun s => .ok (setP s pd (predOf b))

/-- A converted value as a register holds it: an integer extended, a float with zeros above (R260). -/
def fcvtWord (t : VType) (y : Nat) : Word := extend (t.width / 8) (t.isInt && t.isSigned) y

def execFcvt (c : Ctl) (t : VType) (m : RMode) (src : VType) (rd ra : GReg) (s : State) : Out :=
  plain c s fun s =>
    let a := s.cur.arch
    let (y, fl) := convert t src (m.resolve a.fcsr) (fzOf a) (sat8Of a) ((gOf s ra).toNat % 2 ^ src.width)
    withFlags fl s fun s => .ok (setG s rd (fcvtWord t y))

def execFclass (c : Ctl) (t : VType) (rd ra : GReg) (s : State) : Out :=
  plain c s fun s => .ok (setG s rd (w64 (t.fmt.classify ((gOf s ra).toNat % 2 ^ t.width))))

end Sys2Proof.Machine
end

