-- ==== Sys2Proof/Machine/Traps.lean ====
section
/-!
DEFINITION. The delivery of traps and interrupts as steps of their own (R359, R385-R392), and what raises them: the
timer, software interrupts, watchdogs (R398, R399), the register block of a slot and the module's registers (R80, R393,
R411).
-/

namespace Sys2Proof.Machine

/-- The read of a parked hart's WAITC is made again: another home tells nobody of a write (R155, R213; assumption log,
entry 62). -/
def pollAgain (s : State) (h : Nat) : State :=
  match (getHart s h).stall with
  | some (.counter _ (some (pa, _))) =>
    let l := pa / 128
    if readsPast s h l then s
    else request (modHart s h fun x => { x with got := x.got.filter fun g => g.1 != l })
      { mkMsg s (lineDev l) 0x01 l with unc := true } [h]
  | _ => s

/-- The wait of a parked hart has ended, or an interrupt is enabled for it: it becomes Ready (R197, R370). -/
def endWait (s : State) (h : Nat) : State :=
  let x := getHart s h
  let ended := match x.stall with | some c => stallOver s h c | none => true
  if x.slot ≠ .waiting then s
  else if ended || interrupted s h then
    setHart s h { x with slot := .ready, readyAt := s.cycle, stall := keptStall x.stall }
  else if x.stall.any (polls s h) then pollAgain s h
  else s

/-- A synchronous trap delivered to an Issuing hart (R385, R390). -/
def execTrapDelivery (s : State) : Out :=
  let h := s.arg.a
  match s.arg.trap with
  | some r =>
    if (getHart s h).slot = .issuing then .next (afterChunk (focus s h) (fun s => updHart s fun x => { x with due := some r, stall := some .commit }) fun s => deliver s r)
    else .next s
  | none => .next s

/-- The highest enabled interrupt of an Issuing hart is delivered, at the boundary that its chunks are cut to (R388-R390,
R394). One that cannot be delivered yet is found again at the hart's next turn. -/
def execInterruptDelivery (s : State) : Out :=
  let h := s.arg.a
  let u := cutBack (focus s h)
  match interruptFor u h with
  | some r => .next (if (getHart s h).slot = .issuing ∧ (getHart s h).due.isNone then afterChunk u id fun t => deliver t r else s)
  | none => .next s

/-- A user-level interrupt is delivered where no other interrupt is enabled (R359, R389). -/
def execUserInterrupt (s : State) : Out :=
  let h := s.arg.a
  if (getHart s h).slot = .issuing ∧ userIrq (getHart s h) = true ∧ (interruptFor s h).isNone = true then
    .next (afterChunk (cutBack (focus s h)) id deliverUser)
  else .next s

/-- A MACHINE_CHECK arises: kinds 1 and 2 stay pending until the hart can take them; kind 3 goes to M mode (R392, R404). -/
def execMachineCheck (s : State) : Out :=
  let h := s.arg.a
  let k := s.arg.b
  if (getHart s h).slot = .free then .next s
  else if k = 3 then
    .next (afterChunk (cutBack (focus s h)) (fun t => after t 1 (.machineCheck, s.arg)) fun s =>
      deliver s ⟨cMcheck, true, s.cur.arch.pc, w64 (3 * 2 ^ 60 + h), 0⟩)
  else .next (endWait (modHart s h fun x => { x with mck := x.mck ++ [k] }) h)

/-- mtime has reached a hart's timecmp: TIP is 1, which ends the wait of a parked hart (R370, R392). -/
def execTimecmpMatch (s : State) : Out := .next (endWait s s.arg.a)

/-- A write of a hart's swint (R392). -/
def execSwintWrite (s : State) : Out :=
  let h := s.arg.a
  .next (endWait (modHart s h fun x => { x with swint := s.arg.flag }) h)

/-- The count of a watchdog unit has reached its window (R398). -/
def dogExpired (s : State) (d : Dog) : Bool :=
  d.asid.isSome && !d.spent && d.stopped.isNone && decide (d.pulseAt + d.win * 1000 ≤ s.mtime)

/-- A watchdog unit fires: its binding hart has WDP set, with the ASID of the unit that fired first until it is delivered
(R385); where that hart has exited the unit is unbound (R398). -/
def execWatchdog (s : State) : Out :=
  let n := s.arg.a
  let d := tabGet Dog.reset s.dogs n
  if !dogExpired s d then .next s
  else match d.hart with
  | some h =>
    let s := { s with dogs := tabPut Dog.reset s.dogs n { d with fired := true, spent := true } }
    .next (endWait (modHart s h fun x => { x with wdp := x.wdp <|> d.asid }) h)
  | none => .next { s with dogs := tabPut Dog.reset s.dogs n Dog.reset, extstat := s.extstat ||| 16 }

/-- A hart binds a watchdog unit to its address space (R399). -/
def execWdwinBind (s : State) : Out := .next (bindDog s s.arg.a s.arg.b)

/-- A hart unbinds the watchdog unit of its address space (R399). -/
def execWdwinUnbind (s : State) : Out := .next (unbindDog s s.arg.a)

/-- A write of the ustat image in a slot's block (R393). -/
def execUstatImageWrite (s : State) : Out := .next (modHart s s.arg.a fun x => ustatImage x s.arg.word)

/-- A hart writes a register of the module control region, in S or M mode (R80, R411). -/
def execRegisterWrite (s : State) : Out :=
  let mode := (getHart s s.arg.a).arch.mode
  if mode = .u then .next s else .next (ctlWrite s (mode == .m) (0x3FF00000000 + s.arg.b) s.arg.word)

end Sys2Proof.Machine
end

