-- ==== Sys2Proof/Machine/Schedule.lean ====
section
/-!
DEFINITION. The steps of the decoder, the slot switcher, the placement of created harts, the tile engines and the
special-function unit (R57, R74, R226, R369-R384, R398).
-/

namespace Sys2Proof.Machine

/-! ## The choice of the decoder (R226, R369) -/

/-- The decoder of a core takes its next instructions from the chosen hart, which moves next (R369). -/
def execDecodeSelect (s : State) : Out :=
  let core := s.arg.a
  match decodeChoice s core with
  | none => .next s
  | some h => .next (let t := noteDecode s h; { t with sched := t.sched ++ [h] })

/-! ## The slot switcher (R370-R373) -/

/-- A hart stalled for 200 cycles is parked while another of its core is Ready (R371); one that leaves its position already
does so once nothing of it is uncommitted (R121). -/
def execPark (s : State) : Out :=
  let h := s.arg.a
  match (getHart s h).leave with
  | some ready => if canLeave s h then .next (parkCur (focus s h) ready) else .next s
  | none => if mustPark s h then .next (parkCur (focus s h) false) else .next s

/-- A free issue position of a core brings in its oldest Ready hart (R372). -/
def execBringIn (s : State) : Out := .next (bringInCore s s.arg.a)

/-- A hart that has been Ready for 100,000 cycles takes the place of the Issuing hart of its core that has been Issuing
longest (R373). -/
def execPreempt (s : State) : Out :=
  let v := s.arg.a
  let core := coreOf v
  let due := (inState s core .ready).any fun h => decide ((getHart s h).readyAt + 100000 ≤ s.cycle)
  if due ∧ 2 ≤ (inState s core .issuing).length ∧ victimOf s core = some v then
    .next (bringInCore (parkCur (focus s v) true) core)
  else .next s

/-- The wait of a parked hart has ended (R370). -/
def execWaitEnd (s : State) : Out := .next (endWait s s.arg.a)

/-! ## Placement (R207-R209, R375-R377) -/

/-- A generator places the next member of its gang, and is free after the last one (R207, R375). -/
def execGangMemberPlace (s : State) : Out :=
  let d := s.arg.a
  let b := s.arg.b
  match tabGet none (getDie s d).gens b with
  | none => .next s
  | some g =>
    match gangSlot s g with
    | none => .next s
    | some h =>
      let s := placeHart s h (memberArch g) g.prio g.cc
      let left := if g.next + 1 < gangSize g.rule g.ext then some { g with next := g.next + 1 } else none
      .next (modDie s d fun x => { x with gens := tabPut none x.gens b left, poolTurn := true })

/-- The ready nodes of a die that no core of it can hold are reported (R376). -/
def reportNodes (s : State) (d : Nat) : State :=
  let stuck := (getDie s d).pool.filter (stuckNode s d)
  if stuck.isEmpty then s
  else
    let pool := (getDie s d).pool.map fun n => if stuckNode s d n then { n with logged := true } else n
    let s := modDie s d fun x => { x with pool := pool }
    { s with extstat := s.extstat ||| 32, log := s.log ++ stuck.map fun _ => (evNode, d, 0) }

/-- The ready pool of a die places a node (R376). -/
def execReadyPoolPlace (s : State) : Out :=
  let d := s.arg.a
  let s := reportNodes s d
  match nodeChoice s d with
  | none => .next s
  | some (i, h) =>
    match (getDie s d).pool[i]? with
    | some n =>
      let s := placeHart s h n.tmpl n.prio n.cc
      .next (modDie s d fun x => { x with pool := x.pool.eraseIdx i, poolTurn := false })
    | none => .next s

/-! ## Tile engines (R56, R57, R378-R381) -/

/-- A tile instruction of a hart takes units and a descriptor from the rename reserve, or waits (R57). -/
def execTileRename (s : State) : Out :=
  let h := s.arg.a
  let cl := clusterOf h
  let r := (h, s.arg.b)
  .next (if reserveFits cl (reserveUse s cl ++ [r]) then modCluster s cl fun c => { c with renames := c.renames ++ [r] } else s)

/-- An operation is dispatched to an engine of its hart's cluster, with the next age stamp (R378, R379). -/
def execEngineDispatch (s : State) : Out :=
  match s.arg.op with
  | none => .next s
  | some op =>
    let cl := clusterOf op.hart
    match engineFor s cl op with
    | none => .next s
    | some e =>
      if !(getCluster s cl).undispatched.contains op then .next s
      else
        let age := (getCluster s cl).age
        let s := modCluster s cl fun c => { c with age := c.age + 1, undispatched := c.undispatched.erase op }
        .next (modEngine s cl e fun x => { x with queue := x.queue ++ [⟨op, age⟩] })

/-- An idle engine starts the ready operation that its slot table and the lending rule give (R380, R381). -/
def execEngineOpStart (s : State) : Out :=
  let cl := s.arg.a
  let e := s.arg.b
  let x := getEngine s cl e
  match x.run, startOf s cl e with
  | none, some (q, a, lent) =>
    let miss := q.op.acc.isSome && x.latch != q.op.acc
    let s := modEngine s cl e fun x => { x with
      queue := x.queue.erase q
      run := some (q, s.cycle + q.op.cycles + (if miss then 8 else 0))
      lend := if lent then a else x.lend
      latch := if q.op.acc.isSome then q.op.out else x.latch }
    .next (pulse s a)
  | _, _ => .next s

/-- The running operation of an engine ends (R381). The instruction behind it that waits is its hart's oldest unretired one
from now on (R370). -/
def execEngineOpComplete (s : State) : Out :=
  let cl := s.arg.a
  let e := s.arg.b
  match (getEngine s cl e).run with
  | some (q, t) =>
    if t ≤ s.cycle then
      let s := modEngine s cl e fun x => { x with run := none }
      let live := (liveOps s cl).filterMap (·.out)
      let s := modCluster s cl fun c => { c with derived := c.derived.filter fun x => live.contains x.2 }
      .next (modHart s q.op.hart fun x => { x with stallAt := if x.stall.isSome then s.cycle else x.stallAt })
    else .next s
  | none => .next s

/-! ## The special-function unit (R74) -/

/-- Up to four requests leave the queue in arrival order; each returns 12 cycles later (R74). -/
def execSfuDequeue (s : State) : Out :=
  let t := s.cycle + 12
  .next (modCluster s s.arg.a fun c => { c with
    sfuQ := c.sfuQ.drop 4, sfuOut := c.sfuOut ++ (c.sfuQ.take 4).map fun h => (h, t) })

/-- The oldest result returns to its hart, whose instruction goes on (R74). -/
def execSfuResult (s : State) : Out :=
  match (getCluster s s.arg.a).sfuOut with
  | (h, t) :: r =>
    if t ≤ s.cycle then
      let s := modCluster s s.arg.a fun c => { c with sfuOut := r }
      .next (if (getHart s h).sfu = some false then modHart s h fun x => { x with sfu := some true } else s)
    else .next s
  | [] => .next s

end Sys2Proof.Machine
end

