-- ==== Sys2Proof/Machine/VectorInt.lean ====
section
/-!
DEFINITION. Vector integer instructions (R287-R289, R299-R302).
-/

namespace Sys2Proof.Machine

/-! ## Lanes written under a mask -/

/-- The active lanes of v[vd] replaced (R221, R287). -/
def putLanes (s : State) (t : VType) (m : VMask) (vd : VReg) (f : Nat → Nat) : State :=
  setV s vd (mergeLanes t.width (pOf s m.mask) m.zm (vOf s vd) f)

/-- The elements of the group v[vd] of n registers replaced, each active under the mask bit of its source lane of type
t (R288, R300). -/
def putGroup (s : State) (t : VType) (w n : Nat) (m : VMask) (vd : VReg) (f : Nat → Nat) : State :=
  let mask := pOf s m.mask
  updArch s fun a => mergeGroup a w vd n (active t.width mask) m.zm f

/-- The predicate bits of the active lanes replaced (R301). -/
def putPred (s : State) (t : VType) (m : VMask) (pd : PReg) (f : Nat → Bool) : State :=
  setP s pd (mergePred t.width (pOf s m.mask) m.zm (pOf s pd) f)

/-- The active lanes of a type. -/
def activeLanes (s : State) (t : VType) (p : PReg) : List Nat := (List.range t.lanes).filter (active t.width (pOf s p))

/-- A lane of a register as an integer of the type. -/
def vInt (s : State) (t : VType) (r : VReg) (i : Nat) : Int := laneInt t (vOf s r) i
/-- A lane of a register as its bits. -/
def vBits (s : State) (t : VType) (r : VReg) (i : Nat) : Nat := lane t.width (vOf s r) i

/-- An integer operation of each active lane, modulo 2^w (R299). -/
def intOp (c : Ctl) (t : VType) (m : VMask) (vd : VReg) (f : State → Nat → Int) (s : State) : Out :=
  vector false c s fun s => .ok (putLanes s t m vd fun i => lowBits t.width (f s i))

/-- The same, or widened into a pair with lanes of twice the width (R300). -/
def intOpW (c : Ctl) (t : VType) (m : VMask) (w : Bool) (vd : VReg) (f : State → Nat → Int) (s : State) : Out :=
  if w then vector false c s fun s => .ok (putGroup s t (2 * t.width) 2 m vd fun i => lowBits (2 * t.width) (f s i))
  else intOp c t m vd f s

/-- An operation on the bits of each active lane. -/
def bitOp (c : Ctl) (t : VType) (m : VMask) (vd : VReg) (f : State → Nat → Nat) (s : State) : Out :=
  vector false c s fun s => .ok (putLanes s t m vd (f s))

/-! ## Arithmetic (R299, R300) -/

def execVadd (c : Ctl) (m : VMask) (t : VType) (w : Bool) (vd va vb : VReg) (s : State) : Out :=
  intOpW c t m w vd (fun s i => vInt s t va i + vInt s t vb i) s
def execVsub (c : Ctl) (m : VMask) (t : VType) (w : Bool) (vd va vb : VReg) (s : State) : Out :=
  intOpW c t m w vd (fun s i => vInt s t va i - vInt s t vb i) s
def execVmul (c : Ctl) (m : VMask) (t : VType) (w : Bool) (vd va vb : VReg) (s : State) : Out :=
  intOpW c t m w vd (fun s i => vInt s t va i * vInt s t vb i) s
def execVmulh (c : Ctl) (m : VMask) (t : VType) (vd va vb : VReg) (s : State) : Out :=
  intOp c t m vd (fun s i => vInt s t va i * vInt s t vb i / 2 ^ t.width) s

/-- The addend of vmadd: a lane, or for a widening form an element of the pair; only its bits matter. -/
def addend (s : State) (t : VType) (w : Bool) (vc : VReg) (i : Nat) : Nat :=
  if w then groupLane s.cur.arch (2 * t.width) vc 2 i else vBits s t vc i

def execVmadd (c : Ctl) (m : VMask) (t : VType) (w : Bool) (vd va vb vc : VReg) (s : State) : Out :=
  intOpW c t m w vd (fun s i => vInt s t va i * vInt s t vb i + addend s t w vc i) s

/-- A saturating operation: vcsr.QS is set when an active lane saturates (R289, R299). -/
def satOp (c : Ctl) (t : VType) (m : VMask) (vd : VReg) (f : State → Nat → Int) (s : State) : Out :=
  vector false c s fun s =>
    let lo := intMin t.isSigned t.width
    let hi := intMax t.isSigned t.width
    let over_ := (activeLanes s t m.mask).any fun i => f s i < lo || hi < f s i
    .ok (updArch (putLanes s t m vd fun i => lowBits t.width (sat (f s i) lo hi)) (withSat over_))

def execVaddsat (c : Ctl) (m : VMask) (t : VType) (vd va vb : VReg) (s : State) : Out :=
  satOp c t m vd (fun s i => vInt s t va i + vInt s t vb i) s
def execVsubsat (c : Ctl) (m : VMask) (t : VType) (vd va vb : VReg) (s : State) : Out :=
  satOp c t m vd (fun s i => vInt s t va i - vInt s t vb i) s
def execVmin (c : Ctl) (m : VMask) (t : VType) (vd va vb : VReg) (s : State) : Out :=
  intOp c t m vd (fun s i => Min.min (vInt s t va i) (vInt s t vb i)) s
def execVmax (c : Ctl) (m : VMask) (t : VType) (vd va vb : VReg) (s : State) : Out :=
  intOp c t m vd (fun s i => Max.max (vInt s t va i) (vInt s t vb i)) s
def execVabs (c : Ctl) (m : VMask) (t : VType) (vd va : VReg) (s : State) : Out :=
  intOp c t m vd (fun s i => (vInt s t va i).natAbs) s

/-! ## Logic and shifts (R299) -/

def execVand (c : Ctl) (m : VMask) (t : VType) (vd va vb : VReg) (s : State) : Out :=
  bitOp c t m vd (fun s i => vBits s t va i &&& vBits s t vb i) s
def execVor (c : Ctl) (m : VMask) (t : VType) (vd va vb : VReg) (s : State) : Out :=
  bitOp c t m vd (fun s i => vBits s t va i ||| vBits s t vb i) s
def execVxor (c : Ctl) (m : VMask) (t : VType) (vd va vb : VReg) (s : State) : Out :=
  bitOp c t m vd (fun s i => vBits s t va i ^^^ vBits s t vb i) s
def execVandn (c : Ctl) (m : VMask) (t : VType) (vd va vb : VReg) (s : State) : Out :=
  bitOp c t m vd (fun s i => vBits s t va i &&& (2 ^ t.width - 1 - vBits s t vb i)) s

/-- The amount of a vector shift: the C field, or the low log2(w) bits of the lane of v[C] (R299). -/
def vAmount (s : State) (t : VType) (imm : Bool) (amt : BitVec 6) (i : Nat) : Nat :=
  if imm then amt.toNat else vBits s t (amt.setWidth 5) i % t.width

def execVshl (c : Ctl) (m : VMask) (t : VType) (imm : Bool) (vd va : VReg) (amt : BitVec 6) (s : State) : Out :=
  bitOp c t m vd (fun s i => vBits s t va i * 2 ^ vAmount s t imm amt i) s
def execVshr (c : Ctl) (m : VMask) (t : VType) (imm : Bool) (vd va : VReg) (amt : BitVec 6) (s : State) : Out :=
  bitOp c t m vd (fun s i => vBits s t va i / 2 ^ vAmount s t imm amt i) s
def execVsra (c : Ctl) (m : VMask) (t : VType) (imm : Bool) (vd va : VReg) (amt : BitVec 6) (s : State) : Out :=
  intOp c t m vd (fun s i => signExt t.width (vBits s t va i) / 2 ^ vAmount s t imm amt i) s

/-- The number of one bits of a lane. -/
def onesIn (w x : Nat) : Nat := ((List.range w).filter x.testBit).length

def execVpopc (c : Ctl) (m : VMask) (t : VType) (vd va : VReg) (s : State) : Out :=
  bitOp c t m vd (fun s i => onesIn t.width (vBits s t va i)) s

/-! ## Comparison and selection (R301, R302) -/

/-- A condition on the bits of two lanes: signed for lt and ge, unsigned for ltu and geu (R251, R301). -/
def laneCond (cond : Cond) (w x y : Nat) : Bool :=
  match cond with
  | .eq => x == y
  | .ne => x != y
  | .lt => signExt w x < signExt w y
  | .ge => !(signExt w x < signExt w y : Bool)
  | .ltu => x < y
  | .geu => y ≤ x

def execVcmp (c : Ctl) (m : VMask) (t : VType) (cond : Cond) (pd : PReg) (va vb : VReg) (s : State) : Out :=
  vector false c s fun s => .ok (putPred s t m pd fun i => laneCond cond t.width (vBits s t va i) (vBits s t vb i))

def execVsel (c : Ctl) (m : VMask) (t : VType) (pn : PReg) (vd va vb : VReg) (s : State) : Out :=
  bitOp c t m vd (fun s i => if active t.width (pOf s pn) i then vBits s t va i else vBits s t vb i) s

end Sys2Proof.Machine
end

