-- ==== Sys2Proof/Machine/VectorFp.lean ====
section
/-!
DEFINITION. Vector floating-point, special-function and conversion instructions (R74, R188, R289, R303-R311).
-/

namespace Sys2Proof.Machine

/-! ## Lanes with flags (R289) -/

/-- The results of the active lanes, each a code with its flags. -/
def laneResults (s : State) (t : VType) (mask : PReg) (f : Nat → Nat × Flags) : List (Nat × Flags) :=
  (List.range t.lanes).map fun i => if active t.width (pOf s mask) i then f i else (0, 0)

/-- The union of the lanes' flags is set, or FP_EXC is raised; then the lanes are written (R184, R289). -/
def fpLanes (s : State) (t : VType) (m : VMask) (f : Nat → Nat × Flags) (k : State → (Nat → Nat) → State) : Eff :=
  let l := laneResults s t m.mask f
  withFlags (unionFlags (l.map (·.2))) s fun s => .ok (k s fun i => (l.getD i (0, 0)).1)

/-- A lane of a register as a value of its type, with the input flush (R256, R289). -/
def vVal (s : State) (t : VType) (r : VReg) (i : Nat) : FVal := t.fmt.read (fzOf s.cur.arch) (vBits s t r i)

/-- The type of twice the width that a widening form writes (R303). -/
def widerType : VType → VType | .bf16 => .f32 | .f16 => .f32 | _ => .f64

/-- A rounding operation of each active lane, in its type or widened into a pair (R303). -/
def fpOp (c : Ctl) (m : VMask) (t : VType) (rm : RMode) (w : Bool) (vd : VReg) (f : State → RMode → Nat → FVal × Flags)
    (s : State) : Out :=
  vector (t == .f64 || (w && t == .f32)) c s fun s =>
    let a := s.cur.arch
    let mode := rm.resolve a.fcsr
    let u := if w then widerType t else t
    fpLanes s t m (fun i => u.fmt.finish mode (fzOf a) (sat8Of a) (f s mode i)) fun s g =>
      if w then putGroup s t u.width 2 m vd g else putLanes s t m vd g

def execVfadd (c : Ctl) (m : VMask) (t : VType) (rm : RMode) (w : Bool) (vd va vb : VReg) (s : State) : Out :=
  fpOp c m t rm w vd (fun s k i => FVal.add k (vVal s t va i) (vVal s t vb i)) s
def execVfsub (c : Ctl) (m : VMask) (t : VType) (rm : RMode) (w : Bool) (vd va vb : VReg) (s : State) : Out :=
  fpOp c m t rm w vd (fun s k i => FVal.add k (vVal s t va i) (vVal s t vb i).neg) s
def execVfmul (c : Ctl) (m : VMask) (t : VType) (rm : RMode) (w : Bool) (vd va vb : VReg) (s : State) : Out :=
  fpOp c m t rm w vd (fun s _ i => FVal.mul (vVal s t va i) (vVal s t vb i)) s

/-- The third operand of vfma: a lane, or for a widening form an element of the pair (R303). -/
def fmaAddend (s : State) (t : VType) (w : Bool) (vc : VReg) (i : Nat) : FVal :=
  if w then (widerType t).fmt.read (fzOf s.cur.arch) (groupLane s.cur.arch (2 * t.width) vc 2 i) else vVal s t vc i

def execVfma (c : Ctl) (m : VMask) (t : VType) (rm : RMode) (w : Bool) (vd va vb vc : VReg) (s : State) : Out :=
  fpOp c m t rm w vd (fun s k i => FVal.fma k (vVal s t va i) (vVal s t vb i) (fmaAddend s t w vc i)) s
def execVfdiv (c : Ctl) (m : VMask) (t : VType) (rm : RMode) (vd va vb : VReg) (s : State) : Out :=
  fpOp c m t rm false vd (fun s _ i => FVal.div (vVal s t va i) (vVal s t vb i)) s
def execVfsqrt (c : Ctl) (m : VMask) (t : VType) (rm : RMode) (vd va : VReg) (s : State) : Out :=
  fpOp c m t rm false vd (fun s _ i => FVal.sqrt (vVal s t va i)) s

/-! ## Minimum, maximum, sign, comparison (R304, R305) -/

/-- The smaller or larger operand of each active lane, unrounded. -/
def fpPick (larger : Bool) (c : Ctl) (m : VMask) (t : VType) (vd va vb : VReg) (s : State) : Out :=
  vector (t == .f64) c s fun s =>
    fpLanes s t m (fun i => t.fmt.write (fzOf s.cur.arch) (FVal.pick larger (vVal s t va i) (vVal s t vb i))) fun s g =>
      putLanes s t m vd g

def execVfmin (c : Ctl) (m : VMask) (t : VType) (vd va vb : VReg) (s : State) : Out := fpPick false c m t vd va vb s
def execVfmax (c : Ctl) (m : VMask) (t : VType) (vd va vb : VReg) (s : State) : Out := fpPick true c m t vd va vb s

/-- The encoding of each active lane with its sign bit changed; a NaN gives the canonical NaN (R304). -/
def signOp (c : Ctl) (m : VMask) (t : VType) (vd va : VReg) (f : Nat → Nat) (s : State) : Out :=
  vector (t == .f64) c s fun s => .ok (putLanes s t m vd fun i =>
    let x := vBits s t va i
    if (t.fmt.decode x).isNaN then t.fmt.canonNaN else f x)

def execVfabs (c : Ctl) (m : VMask) (t : VType) (vd va : VReg) (s : State) : Out :=
  signOp c m t vd va (fun x => x % 2 ^ (t.width - 1)) s
def execVfneg (c : Ctl) (m : VMask) (t : VType) (vd va : VReg) (s : State) : Out :=
  signOp c m t vd va (fun x => x ^^^ 2 ^ (t.width - 1)) s

def execVfcmp (c : Ctl) (m : VMask) (t : VType) (cond : Cond) (pd : PReg) (va vb : VReg) (s : State) : Out :=
  vector (t == .f64) c s fun s =>
    let r (i : Nat) : Nat × Flags := let (b, fl) := FVal.compare cond (vVal s t va i) (vVal s t vb i); (if b then 1 else 0, fl)
    fpLanes s t m r fun s g => putPred s t m pd fun i => g i != 0

/-! ## Special functions (R74, R306) -/

/-- The request takes its place in the queue of the cluster's unit, and the instruction waits for its result; it waits at
issue behind eight requests of the hart or in front of a full queue (R74). A request that is cancelled is made again when
the instruction is issued again (R75). -/
def sfuRequest (s : State) (k : State → Eff) : Eff :=
  match s.cur.sfu with
  | some true => k s
  | some false => .wait .sfu s
  | none =>
    let q := (getCluster s (clusterOf s.curId)).sfuQ
    if 8 ≤ (q.filter (· == s.curId)).length ∨ 64 ≤ q.length then .wait .commit s
    else
      let s := modCluster s (clusterOf s.curId) fun c => { c with sfuQ := c.sfuQ ++ [s.curId] }
      .wait .sfu (updHart s fun x => { x with sfu := some false })

/-- A function of each active FP32 lane, rounded once (R306). -/
def special (c : Ctl) (m : VMask) (rm : RMode) (vd va : VReg) (f : FVal → FVal × Flags) (s : State) : Out :=
  plain c s fun s => sfuRequest s fun s =>
    let a := s.cur.arch
    fpLanes s .f32 m (fun i => fmtF32.finish (rm.resolve a.fcsr) (fzOf a) false (f (vVal s .f32 va i))) fun s g =>
      putLanes s .f32 m vd g

def execVrcp (c : Ctl) (m : VMask) (rm : RMode) (vd va : VReg) (s : State) : Out := special c m rm vd va spRcp s
def execVrsqrt (c : Ctl) (m : VMask) (rm : RMode) (vd va : VReg) (s : State) : Out := special c m rm vd va spRsqrt s
def execVexp2 (c : Ctl) (m : VMask) (rm : RMode) (vd va : VReg) (s : State) : Out := special c m rm vd va spExp2 s
def execVlog2 (c : Ctl) (m : VMask) (rm : RMode) (vd va : VReg) (s : State) : Out := special c m rm vd va spLog2 s
def execVsin (c : Ctl) (m : VMask) (rm : RMode) (vd va : VReg) (s : State) : Out := special c m rm vd va spSin s
def execVcos (c : Ctl) (m : VMask) (rm : RMode) (vd va : VReg) (s : State) : Out := special c m rm vd va spCos s
def execVtanh (c : Ctl) (m : VMask) (rm : RMode) (vd va : VReg) (s : State) : Out := special c m rm vd va spTanh s

/-! ## Conversion (R308-R310) -/

def execVcvt (c : Ctl) (m : VMask) (t : VType) (rm : RMode) (src : VType) (vd va : VReg) (s : State) : Out :=
  vector (t == .f64 || src == .f64) c s fun s =>
    let a := s.cur.arch
    fpLanes s t m (fun i => convert t src (rm.resolve a.fcsr) (fzOf a) (sat8Of a) (vBits s src va i)) fun s g =>
      putLanes s t m vd g

/-- A lane's code with a subnormal operand of the formats that FZ reaches read as a zero (R183). -/
def flushCode (src : VType) (fz : Bool) (x : Nat) : Nat :=
  match src.num with
  | .flt f => if fz && f.flushes && f.subnormal (f.decode x) then f.encode (f.decode x).flush else x
  | _ => x

/-- A lane widened: exact, whatever FZ says of a subnormal result, and without a flag but NV (R309). An n4 value that e5m2
does not hold leaves a free value (assumption log, entry 24). -/
def widen (s : State) (t src : VType) (i x : Nat) : Nat × Flags :=
  if t.isInt then (lowBits t.width (if src.isSigned then signExt src.width x else (x : Int)), 0)
  else
    let (y, fl) := convert t src .rne false (sat8Of s.cur.arch) (flushCode src (fzOf s.cur.arch) x)
    if t = .e5m2 ∧ src = .n4 ∧ fl ≠ 0 then ((Config.freeWord (s.freeCtr + i)).toNat % 256, 0) else (y, fl)

def execVwiden (c : Ctl) (m : VMask) (t src : VType) (vd va : VReg) (s : State) : Out :=
  vector (t == .f64 || src == .f64) c s fun s =>
    let n := t.width / src.width
    fpLanes s src m (fun i => widen s t src i (vBits s src va i)) fun s g =>
      spend (putGroup s src t.width n m vd g) (if t = .e5m2 ∧ src = .n4 then src.lanes else 0)

/-- An integer narrowed by saturation, or by keeping its low bits (R310). -/
def narrowInt (t src : VType) (keep : Bool) (x : Nat) : Nat × Bool :=
  let y : Int := if src.isSigned then signExt src.width x else (x : Int)
  let lo := intMin t.isSigned t.width
  let hi := intMax t.isSigned t.width
  if keep then (lowBits t.width y, false) else (lowBits t.width (sat y lo hi), y < lo || hi < y)

def execVnarrow (c : Ctl) (m : VMask) (t : VType) (f : BitVec 4) (src : VType) (vd va : VReg) (s : State) : Out :=
  vector (t == .f64 || src == .f64) c s fun s =>
    let n := src.width / t.width
    let a := s.cur.arch
    let x (i : Nat) : Nat := groupLane a src.width va n i
    if t.isInt && src.isInt then
      let r (i : Nat) := narrowInt t src (f.getLsbD 3) (x i)
      .ok (updArch (putLanes s t m vd fun i => (r i).1) (withSat ((activeLanes s t m.mask).any fun i => (r i).2)))
    else
      let mode := ((RMode.ofCode (f.setWidth 3)).getD .dyn).resolve a.fcsr
      fpLanes s t m (fun i => convert t src mode (fzOf a) (sat8Of a) (x i)) fun s g => putLanes s t m vd g

/-! ## Packing (R178, R311) -/

/-- Bits of a packed field: 1, 2 or 4. -/
def packWidth (b : BitVec 2) : Nat := 2 ^ b.toNat

def execVpack (c : Ctl) (_t : VType) (b : BitVec 2) (vd va vb : VReg) (s : State) : Out :=
  vector false c s fun s =>
    let low (r : VReg) : List Nat := (List.range 64).map fun i => lane 8 (vOf s r) i
    .ok (setV s vd (packLanes (packWidth b) (low va ++ low vb)))

def execVunpack (c : Ctl) (m : VMask) (t : VType) (b : BitVec 2) (q : BitVec 3) (vd va : VReg) (s : State) : Out :=
  vector false c s fun s =>
    let w := packWidth b
    .ok (putLanes s t m vd fun i =>
      let x := lane w (vOf s va) (64 * q.toNat + i)
      lowBits 8 (if t.isSigned then signExt w x else (x : Int)))

end Sys2Proof.Machine
end

