-- ==== Sys2Proof/Machine/VectorMem.lean ====
section
/-!
DEFINITION. Vector memory instructions (R291-R298).
-/

namespace Sys2Proof.Machine

/-! ## Lanes in memory (R291) -/

/-- The addresses of lanes; none where the lane is inactive. -/
abbrev LaneAddrs := List (Option Word)

/-- A lane's address aligned to its element, before the other checks (R291). -/
def laneAligned (n : Nat) (a : Word) : Bool := decide (a.toNat % n = 0)
def misalign {α : Type} (a : Word) : Res α := .trap { code := cMisalign, tval := a }

/-- One lane read. -/
def laneLoad (s : State) (n : Nat) (a : Word) : State × Res Nat :=
  if laneAligned n a then load s ⟨.vload, n, false, .refused⟩ a else (s, misalign a)

/-- The active lanes read in order; an inactive one reads as zero. -/
def loadLanes (s : State) (n : Nat) : LaneAddrs → State × Res (List Nat)
  | [] => (s, .val [])
  | none :: r =>
    match loadLanes s n r with
    | (s, .val l) => (s, .val (0 :: l))
    | e => e
  | some a :: r =>
    match laneLoad s n a with
    | (s, .val x) =>
      match loadLanes s n r with
      | (s, .val l) => (s, .val (x :: l))
      | e => e
    | (s, .trap t) => (s, .trap t)
    | (s, .wait c) => (s, .wait c)
    | (s, .again) => (s, .again)

/-- Lanes with their alignment checked one by one as they are written: the checks of the lanes before a misaligned one
come first. -/
def checkLanes (s : State) (n : Nat) (l : List Word) : State × Res (List Acc) :=
  let good := l.takeWhile (laneAligned n)
  let all := l.map fun a => (a, n)
  match checkPieces s .vstore all (good.map fun a => (a, n)), l[good.length]? with
  | (s, .val _), some a => (s, misalign a)
  | r, _ => r

/-- The active lanes (address, value) written in order. -/
def storeLanes (s : State) (n : Nat) (l : List (Word × Nat)) : Eff :=
  thenDo (checkLanes s n (l.map (·.1))) fun s xs =>
    thenDo (writePieces s false ((xs.zip l).map fun p => (p.1, n, p.2.2))) fun s _ => .ok s

/-- The lanes of a masked access with their addresses. -/
def lanesAt (n : Nat) (mask : Word) (f : Nat → Word) : LaneAddrs :=
  (List.range (64 / n)).map fun i => if active (8 * n) mask i then some (f i) else none

/-- A masked load into a vector register. -/
def maskedLoad (s : State) (n : Nat) (m : VMask) (vd : VReg) (f : Nat → Word) : Eff :=
  let mask := pOf s m.mask
  thenDo (loadLanes s n (lanesAt n mask f)) fun s l =>
    .ok (setV s vd (mergeLanes (8 * n) mask m.zm (vOf s vd) fun i => l.getD i 0))

/-- A masked store of a vector register. -/
def maskedStore (s : State) (n : Nat) (pm : PReg) (vs : VReg) (f : Nat → Word) : Eff :=
  let x := vOf s vs
  let mask := pOf s pm
  storeLanes s n (((List.range (64 / n)).filter (active (8 * n) mask)).map fun i => (f i, lane (8 * n) x i))

/-! ## The instructions -/

def execVld (c : Ctl) (vd : VReg) (rb : GReg) (off : BitVec 20) (s : State) : Out :=
  plain c s fun s => thenDo (laneLoad s 64 (eaM s.cur.arch rb off)) fun s x => .ok (setV s vd (BitVec.ofNat 512 x))
def execVst (c : Ctl) (vs : VReg) (rb : GReg) (off : BitVec 20) (s : State) : Out :=
  plain c s fun s => storeLanes s 64 [(eaM s.cur.arch rb off, (vOf s vs).toNat)]

/-- The address of element i of a strided access (R294). -/
def strided (s : State) (rb rs : GReg) (i : Nat) : Word := gOf s rb + w64 i * gOf s rs
/-- The address of element i of an indexed access (R295). -/
def indexed (s : State) (rb : GReg) (vi : VReg) (n k i : Nat) : Word := gOf s rb + w64 (lane (8 * n) (vOf s vi) i) <<< k

def execVlds (c : Ctl) (m : VMask) (vd : VReg) (rb rs : GReg) (sz : Size) (s : State) : Out :=
  plain c s fun s => maskedLoad s sz.bytes m vd (strided s rb rs)
def execVsts (c : Ctl) (pm : PReg) (vs : VReg) (rb rs : GReg) (sz : Size) (s : State) : Out :=
  plain c s fun s => maskedStore s sz.bytes pm vs (strided s rb rs)
def execVldx (c : Ctl) (m : VMask) (vd : VReg) (rb : GReg) (vi : VReg) (sz : Size) (n : BitVec 3) (s : State) : Out :=
  plain c s fun s => maskedLoad s sz.bytes m vd (indexed s rb vi sz.bytes n.toNat)
def execVstx (c : Ctl) (pm : PReg) (vs : VReg) (rb : GReg) (vi : VReg) (sz : Size) (n : BitVec 3) (s : State) : Out :=
  plain c s fun s => maskedStore s sz.bytes pm vs (indexed s rb vi sz.bytes n.toNat)

/-- The address of an element of a contiguous access. -/
def elemAt (a : Word) (n i : Nat) : Word := a + w64 (i * n)

/-- The k registers of a segment access are one access, aligned to its elements (R20, R296). -/
def wholeSegment (s : State) (n k : Nat) (a : Word) (f : Eff) : Eff :=
  guardTrap (laneAligned n a && !straddles s a (64 * k)) { code := cMisalign, tval := a } s f

def execVldseg (c : Ctl) (vd : VReg) (rb : GReg) (sz : Size) (k1 : BitVec 2) (off : BitVec 20) (s : State) : Out :=
  plain c s fun s =>
    let n := sz.bytes
    let k := k1.toNat + 1
    let a := eaM s.cur.arch rb off
    wholeSegment s n k a <| thenDo (loadLanes s n ((List.range (k * (64 / n))).map fun i => some (elemAt a n i))) fun s l =>
      .ok ((List.range k).foldl (fun s f =>
        setV s (vNext vd f) (packLanes (8 * n) ((List.range (64 / n)).map fun j => l.getD (j * k + f) 0))) s)
def execVstseg (c : Ctl) (vs : VReg) (rb : GReg) (sz : Size) (k1 : BitVec 2) (off : BitVec 20) (s : State) : Out :=
  plain c s fun s =>
    let n := sz.bytes
    let k := k1.toNat + 1
    let a := eaM s.cur.arch rb off
    wholeSegment s n k a <| storeLanes s n ((List.range (k * (64 / n))).map fun i =>
      (elemAt a n i, lane (8 * n) (vOf s (vNext vs (i % k))) (i / k)))

def execVldb (c : Ctl) (vd : VReg) (rb : GReg) (sz : Size) (off : BitVec 20) (s : State) : Out :=
  plain c s fun s =>
    let n := sz.bytes
    thenDo (laneLoad s n (eaM s.cur.arch rb off)) fun s x =>
      .ok (setV s vd (packLanes (8 * n) (List.replicate (64 / n) x)))

/-- The lanes of vldf up to the first one that fails (R298). -/
def loadFirst (s : State) (n : Nat) (a : Word) : Nat → Nat → State × Res (List Nat)
  | 0, _ => (s, .val [])
  | k + 1, i =>
    match laneLoad s n (elemAt a n i) with
    | (s, .val x) =>
      match loadFirst s n a k (i + 1) with
      | (s, .val l) => (s, .val (x :: l))
      | e => e
    | (s, .trap t) => (s, if i = 0 then .trap t else .val [])
    | (s, .wait c) => (s, .wait c)
    | (s, .again) => (s, .again)

def execVldf (c : Ctl) (vd : VReg) (rb : GReg) (sz : Size) (off : BitVec 20) (s : State) : Out :=
  plain c s fun s =>
    let n := sz.bytes
    thenDo (loadFirst s n (eaM s.cur.arch rb off) (64 / n) 0) fun s l =>
      .ok (setP (setV s vd (packLanes (8 * n) l)) 15 (w64 (2 ^ (l.length * n) - 1)))

end Sys2Proof.Machine
end

