-- ==== Sys2Proof/Machine/VectorMisc.lean ====
section
/-!
DEFINITION. Vector reductions and scans, permutations, dot products, histograms, sorting and masks (R312-R322).
-/

namespace Sys2Proof.Machine

/-! ## Reductions (R312, R313) -/

/-- A result in lane 0 with zeros in every other lane. -/
def putFirst (s : State) (t : VType) (vd : VReg) (x : Nat) : State := setV s vd (packLanes t.width [x])

/-- The values of the active lanes combined in ascending order with the starting value. -/
def reduceInt (s : State) (t src : VType) (pm : PReg) (va vi : VReg) (f : Int → Int → Int) : Int :=
  (activeLanes s src pm).foldl (fun x i => f x (vInt s src va i)) (vInt s t vi 0)

def execVredadd (c : Ctl) (pm : PReg) (t src : VType) (vd va vi : VReg) (s : State) : Out :=
  vector false c s fun s => .ok (putFirst s t vd (lowBits t.width (reduceInt s t src pm va vi (· + ·))))
def execVredmin (c : Ctl) (pm : PReg) (t : VType) (vd va vi : VReg) (s : State) : Out :=
  vector false c s fun s => .ok (putFirst s t vd (lowBits t.width (reduceInt s t t pm va vi Min.min)))
def execVredmax (c : Ctl) (pm : PReg) (t : VType) (vd va vi : VReg) (s : State) : Out :=
  vector false c s fun s => .ok (putFirst s t vd (lowBits t.width (reduceInt s t t pm va vi Max.max)))

/-- One rounded addition of an ordered sum (R313). -/
def sumStep (t : VType) (mode : RMode) (acc : FVal × Flags) (x : FVal) : FVal × Flags :=
  let (y, f1) := FVal.add mode acc.1 x
  let (z, f2) := t.fmt.round mode y
  (z, acc.2 ||| f1 ||| f2)

def execVfredadd (c : Ctl) (pm : PReg) (t : VType) (rm : RMode) (src : VType) (vd va vi : VReg) (s : State) : Out :=
  vector (t == .f64 || src == .f64) c s fun s =>
    let mode := rm.resolve s.cur.arch.fcsr
    let r := (activeLanes s src pm).foldl (fun acc i => sumStep t mode acc (vVal s src va i)) (vVal s t vi 0, 0)
    let (y, fl) := t.fmt.write (fzOf s.cur.arch) r
    withFlags fl s fun s => .ok (putFirst s t vd y)

def execVfredmax (c : Ctl) (pm : PReg) (t : VType) (vd va vi : VReg) (s : State) : Out :=
  vector (t == .f64) c s fun s =>
    let r := (activeLanes s t pm).foldl (fun acc i =>
      let (y, fl) := FVal.pick true acc.1 (vVal s t va i)
      (y, acc.2 ||| fl)) (vVal s t vi 0, 0)
    let (y, fl) := t.fmt.write (fzOf s.cur.arch) r
    withFlags fl s fun s => .ok (putFirst s t vd y)

/-! ## Scans (R314) -/

/-- The running results of a list, the first after the first element. -/
def running {α β : Type} (f : α → β → α) : α → List β → List α
  | _, [] => []
  | a, x :: r => let b := f a x; b :: running f b r

def execVscan (c : Ctl) (m : VMask) (t : VType) (rm : RMode) (vd va vi : VReg) (s : State) : Out :=
  vector (t == .f64) c s fun s =>
    let mask := pOf s m.mask
    let lanes := List.range t.lanes
    if t.isInt then
      let l := running (fun (x : Int) i => if active t.width mask i then x + vInt s t va i else x) (vInt s t vi 0) lanes
      .ok (putLanes s t m vd fun i => lowBits t.width (l.getD i 0))
    else
      let mode := rm.resolve s.cur.arch.fcsr
      let l := running (fun (acc : FVal × Flags) i =>
        if active t.width mask i then sumStep t mode (acc.1, 0) (vVal s t va i) else (acc.1, 0)) (vVal s t vi 0, 0) lanes
      fpLanes s t m (fun i => t.fmt.write (fzOf s.cur.arch) (l.getD i (FVal.zero false, 0))) fun s g => putLanes s t m vd g

/-! ## Permutation (R315-R317) -/

/-- A lane of two registers, one after the other. -/
def lane2 (s : State) (t : VType) (va vb : VReg) (j : Nat) : Nat :=
  if j < t.lanes then vBits s t va j else vBits s t vb (j - t.lanes)

def execVperm (c : Ctl) (m : VMask) (t : VType) (vd va vb vi : VReg) (s : State) : Out :=
  bitOp c t m vd (fun s i => lane2 s t va vb (vBits s t vi i % (2 * t.lanes))) s
def execVslide (c : Ctl) (m : VMask) (t : VType) (vd va vb : VReg) (n : BitVec 6) (s : State) : Out :=
  bitOp c t m vd (fun s i => lane2 s t va vb (i + n.toNat)) s
def execVrot (c : Ctl) (m : VMask) (t : VType) (vd va : VReg) (n : BitVec 6) (s : State) : Out :=
  bitOp c t m vd (fun s i => vBits s t va ((i + n.toNat) % t.lanes)) s
def execVzip (c : Ctl) (m : VMask) (t : VType) (hi : Bool) (vd va vb : VReg) (s : State) : Out :=
  bitOp c t m vd (fun s i => vBits s t (if i % 2 = 0 then va else vb) ((if hi then t.lanes / 2 else 0) + i / 2)) s
def execVunzip (c : Ctl) (m : VMask) (t : VType) (odd : Bool) (vd va vb : VReg) (s : State) : Out :=
  bitOp c t m vd (fun s i => lane2 s t va vb (2 * i + if odd then 1 else 0)) s

/-- The first lanes of a register written with a list; the others are kept or cleared (R316, R321). -/
def putFront (s : State) (t : VType) (zm : Bool) (vd : VReg) (l : List Nat) : State :=
  let old := vOf s vd
  setV s vd (packLanes t.width ((List.range t.lanes).map fun i =>
    match l[i]? with | some x => x | none => if zm then 0 else lane t.width old i))

def execVcompress (c : Ctl) (m : VMask) (t : VType) (vd va : VReg) (s : State) : Out :=
  vector false c s fun s => .ok (putFront s t m.zm vd ((activeLanes s t m.mask).map (vBits s t va)))
def execVexpand (c : Ctl) (m : VMask) (t : VType) (vd va : VReg) (s : State) : Out :=
  bitOp c t m vd (fun s i => vBits s t va ((activeLanes s t m.mask).filter (· < i)).length) s

def execVbcast (c : Ctl) (m : VMask) (t : VType) (fromG : Bool) (vd : VReg) (src n : BitVec 6) (s : State) : Out :=
  bitOp c t m vd (fun s _ => if fromG then (gOf s src).toNat % 2 ^ t.width else vBits s t (src.setWidth 5) n.toNat) s

def execVins (c : Ctl) (t : VType) (vd : VReg) (ra : GReg) (n : BitVec 6) (s : State) : Out :=
  vector false c s fun s =>
    let x := (gOf s ra).toNat % 2 ^ t.width
    .ok (setV s vd (packLanes t.width ((List.range t.lanes).map fun i => if i = n.toNat then x else vBits s t vd i)))
def execVext (c : Ctl) (t : VType) (rd : GReg) (va : VReg) (n : BitVec 6) (s : State) : Out :=
  vector false c s fun s => .ok (setG s rd (extend (t.width / 8) t.isSigned (vBits s t va n.toNat)))

/-! ## Dot products (R318) -/

/-- The unsigned type of a width of 8 or 16. -/
def unsignedOf : VType → VType | .i8 => .n8 | .i16 => .n16 | t => t

def execVdot4 (c : Ctl) (m : VMask) (t src : VType) (mix : Bool) (vd va vb : VReg) (s : State) : Out :=
  let u := if mix then unsignedOf src else src
  intOp c t m vd (fun s i => vInt s t vd i +
    ([0, 1, 2, 3].map fun k => vInt s src va (4 * i + k) * vInt s u vb (4 * i + k)).sum) s

/-! ## Histograms (R319, R320) -/

/-- Bin b of lane l of a group of four registers. -/
def binOf (s : State) (vg : VReg) (l b : Nat) : Nat :=
  let k := 16 * l + b
  lane 8 (vOf s (vNext vg (k / 64))) (k % 64)

/-- The bin that an active lane counts. -/
def binHit (s : State) (pm : PReg) (va : VReg) (q : Nat) (l b : Nat) : Bool :=
  active 32 (pOf s pm) l && lane 32 (vOf s va) l / 2 ^ q % 16 == b

def execVhist (c : Ctl) (pm : PReg) (_t : VType) (q : BitVec 5) (vg va : VReg) (s : State) : Out :=
  vector false c s fun s =>
    let bin (k : Nat) : Nat :=
      let old := binOf s vg (k / 16) (k % 16)
      if binHit s pm va q.toNat (k / 16) (k % 16) then Nat.min 255 (old + 1) else old
    let full := (List.range 256).any fun k => binHit s pm va q.toNat (k / 16) (k % 16) && binOf s vg (k / 16) (k % 16) == 255
    let regs := [0, 1, 2, 3].map fun r => packLanes 8 ((List.range 64).map fun j => bin (64 * r + j))
    .ok (updArch ((List.zip [0, 1, 2, 3] regs).foldl (fun s r => setV s (vNext vg r.1) r.2) s) (withSat full))

def execVhmerge (c : Ctl) (m : VMask) (acc : Bool) (vd vg : VReg) (s : State) : Out :=
  bitOp c .n32 m vd (fun s b =>
    ((List.range 16).map fun l => binOf s vg l b).sum + if acc then vBits s .n32 vd b else 0) s

/-! ## Sorting and masks (R321, R322) -/

/-- A key put after the keys that do not come after it: equal keys keep their order. -/
def insertKey (before : Int → Int → Bool) (x : Int × Nat) : List (Int × Nat) → List (Int × Nat)
  | [] => [x]
  | y :: r => if before x.1 y.1 then x :: y :: r else y :: insertKey before x r

def sortKeys (desc : Bool) (l : List (Int × Nat)) : List (Int × Nat) :=
  l.foldl (fun acc x => insertKey (fun a b => if desc then decide (b < a) else decide (a < b)) x acc) []

def execVsortk (c : Ctl) (m : VMask) (t : VType) (desc : Bool) (vd va vi : VReg) (s : State) : Out :=
  vector false c s fun s =>
    let l := sortKeys desc ((activeLanes s t m.mask).map fun i => (vInt s t va i, i))
    .ok (putFront (putFront s t m.zm vd (l.map fun p => lowBits t.width p.1)) t m.zm vi (l.map (·.2)))

def execVmask (c : Ctl) (m : VMask) (t : VType) (sign : Bool) (pd : PReg) (va : VReg) (s : State) : Out :=
  vector false c s fun s => .ok (putPred s t m pd fun i =>
    let x := vBits s t va i
    x != 0 || (sign && x.testBit (t.width - 1)))

end Sys2Proof.Machine
end

