-- ==== Sys2Proof/Machine/Walks.lean ====
section
/-!
DEFINITION. Page walks and the invalidation sequencer as steps of their own (R27-R32, R37-R43).
-/

namespace Sys2Proof.Machine

/-- The harts and commands that wait for a walk have its answer, and the harts' cores' TLBs hold its leaf (R37, R39). -/
def answerWalk (s : State) (q : WalkReq) (leaf : Option TlbEnt) (code : Nat) : State :=
  let answer (cmd : Bool) (s : State) (h : Nat) : State := modWalked s h cmd fun l => l ++ [⟨q.asid, q.root, q.va / 4096, leaf, code⟩]
  let s := q.forHarts.foldl (fun s h => answer false (match leaf with | some e => tlbPut s (coreOf h) e | none => s) h) s
  wakeCommands (q.forCmds.foldl (answer true) s)

/-- A walk goes on: its leaf answers the harts that wait, a fault too, and a line of a table that the cluster does not hold
is asked for (R27, R31, R32, R38, R39). -/
def advanceWalk (s : State) (cl : Nat) (q : WalkReq) : State :=
  let finish (s : State) (leaf : Option TlbEnt) (code : Nat) : State :=
    answerWalk (modCluster s cl fun c => { c with walks := c.walks.erase q }) q leaf code
  match walkFor q.who q.acc q.addr q.va s with
  | (s, .leaf e addr) => finish s (some (tlbEntry q.asid q.va e addr)) 0
  | (s, .fault c) => finish s none c
  | (s, .need l own) => if clusterHolds s cl l 0 own then s else askLine s noHart cl l 0 0 (fillFor own)

/-- A walk for a hart's access: that of its request, or one that the hart makes now (R27, R37-R39). -/
def execPageWalk (s : State) : Out :=
  let h := s.arg.a
  let cl := clusterOf h
  let a := (getHart s h).arch
  let n := s.arg.word.toNat
  let va := if inAperture n then aliasOf h n else n
  match (getCluster s cl).walks.find? fun q => q.hart == h && q.addr == s.arg.word && q.kind == s.arg.kind with
  | some q => .next (advanceWalk s cl q)
  | none =>
    if s.arg.kind = .copyRead ∨ s.arg.kind = .copyWrite ∨ a.mode = .m ∨ 2 ^ 57 ≤ n ∨ (a.mode = .u ∧ ¬ inAperture n = true ∧ 2 ^ 56 ≤ va) then .next s
    else .next (askWalk s ⟨h, a.mode, a.asid, a.ptroot, true⟩ false ⟨s.arg.kind, 1, false, .refused⟩ s.arg.word va)

/-- An entry of a TLB as an invalidation names it. -/
def entUse (e : TlbEnt) : Nat × Nat := (if pteBit e.pte 5 then 2 ^ 16 else e.asid, e.page * 64 + e.bits)

/-- The chunks of a hart that an invalidation meets: those not presented are squashed, the others marked (R41). -/
def invChunks (i : Inv) (s : State) (h : Nat) : State :=
  let n := admittedOf s h + (if s.presented.any (fun p => p.hart == h) then 1 else 0)
  let x := getHart s h
  let mark (c : Chunk) : Chunk := if c.usesInv i then { c with trans := c.trans ++ [invMark i] } else c
  let s := setHart s h { x with inflight := (x.inflight.take n).map mark ++ x.inflight.drop n }
  match ((x.inflight ++ [x.chunk]).drop n).findIdx? (fun c => c.usesInv i) with
  | some j => squashFrom s h (n + j) true
  | none => s

/-- The commands of a die's copy engines that an invalidation waits for: of each hart, how many stand in its FIFO up to the
last one of the address space (R41). -/
def invCmds (s : State) (i : Inv) (d : Nat) : List (Nat × Nat) :=
  (hartIds s).filterMap fun h =>
    let l := (getHart s h).fifo.cmds
    let n := (l.mapIdx fun k c => if i.form = 2 ∨ c.asid = i.asid then k + 1 else 0).foldl Nat.max 0
    if n = 0 ∨ dieOf h ≠ d then none else some (h, n)

/-- A walk-cache entry stands on the path of an address (R27, R40). -/
def onPath (va : Nat) (e : WalkEnt) : Bool := e.pa / 8 % 512 == va / 2 ^ (12 + 9 * e.lvl) % 512

/-- The units of a die observe an invalidation: its TLBs and walk caches remove what it selects, a walk's answer that a
hart has not used yet goes too (R40, R41). -/
def invUnits (s : State) (i : Inv) (d : Nat) : State :=
  let keep (e : TlbEnt) : Bool := !invHits i (entUse e)
  let s := { s with
    cores := tabMap Core.reset (fun k c => if k / 128 ≠ d then c else { c with
      tlb1 := c.tlb1.filter keep, tlb2 := tabMap [] (fun _ w => w.filter keep) c.tlb2 }) s.cores
    clusters := tabMap Cluster.reset (fun k c => if k / 8 ≠ d then c else { c with
      walkCache := if i.form = 0 then c.walkCache.filter fun e => !onPath i.va.toNat e else [] }) s.clusters }
  ((hartIds s).filter fun h => dieOf h == d).foldl (fun s h => modWalked (modWalked s h false fun _ => []) h true fun _ => []) s

/-- An invalidation takes its slot on the Tether of a die (R41, R99). -/
def invOnDie (s : State) (k : Nat) (i : Inv) (d : Nat) : State :=
  let s := invUnits s i d
  let s := { s with invs := s.invs.set k { i with dies := setInsert i.dies d, cmds := i.cmds ++ invCmds s i d } }
  ((hartIds s).filter fun h => dieOf h == d && h != i.hart).foldl (invChunks i) s

/-- The sequencer sends an invalidation to the four dies (R41). -/
def invSend (s : State) (k : Nat) (i : Inv) : State :=
  [0, 1, 2, 3].foldl (fun s d => offer s d 8 (.tlbinvSequence, { a := d, b := i.id, flag := true }))
    { s with invs := s.invs.set k { i with sent := true } }

/-- An invalidation arrives at the sequencer, or at a die (R41). -/
def execTlbinvSequence (s : State) : Out :=
  let at_ := s.invs.findIdx? fun i => if s.arg.flag then i.id == s.arg.b else !i.sent
  match at_.bind fun k => (s.invs[k]?).map fun i => (k, i) with
  | none => .next s
  | some (k, i) =>
    .next (if !i.sent then invSend s k i
      else if s.arg.flag && decide (s.arg.a < 4) && !i.dies.contains s.arg.a then invOnDie s k i s.arg.a
      else s)

/-- An invalidation whose conditions hold is complete: its instruction retires when its hart looks again (R41). -/
def execTlbinvComplete (s : State) : Out :=
  match s.invs[s.arg.a]? with
  | none => .next s
  | some i =>
    if !i.sent || i.done || !invSettled s i then .next s
    else
      let invs := if i.hart = noHart then s.invs.eraseIdx s.arg.a else s.invs.set s.arg.a { i with done := true }
      .next (wakeCommands { s with invs := invs })

end Sys2Proof.Machine
end

