-- ==== Sys2Proof/Machine/Dispatch.lean ====
section
/-!
DEFINITION. One arm per instruction and hardware step of the opcode table.
-/

namespace Sys2Proof.Machine

def exec (i : Instr) (s : State) : Host.Outcome State Fault Refusal :=
  match i with
  | .add c rd ra rb => Sys2Proof.Machine.execAdd c rd ra rb s
  | .sub c rd ra rb => Sys2Proof.Machine.execSub c rd ra rb s
  | .mul c rd ra rb => Sys2Proof.Machine.execMul c rd ra rb s
  | .mulh c rd ra rb => Sys2Proof.Machine.execMulh c rd ra rb s
  | .mulhu c rd ra rb => Sys2Proof.Machine.execMulhu c rd ra rb s
  | .madd c rd ra rb rc => Sys2Proof.Machine.execMadd c rd ra rb rc s
  | .div c rd ra rb => Sys2Proof.Machine.execDiv c rd ra rb s
  | .divu c rd ra rb => Sys2Proof.Machine.execDivu c rd ra rb s
  | .rem c rd ra rb => Sys2Proof.Machine.execRem c rd ra rb s
  | .remu c rd ra rb => Sys2Proof.Machine.execRemu c rd ra rb s
  | .and c rd ra rb => Sys2Proof.Machine.execAnd c rd ra rb s
  | .or c rd ra rb => Sys2Proof.Machine.execOr c rd ra rb s
  | .xor c rd ra rb => Sys2Proof.Machine.execXor c rd ra rb s
  | .andn c rd ra rb => Sys2Proof.Machine.execAndn c rd ra rb s
  | .orn c rd ra rb => Sys2Proof.Machine.execOrn c rd ra rb s
  | .sll c rd ra rb => Sys2Proof.Machine.execSll c rd ra rb s
  | .srl c rd ra rb => Sys2Proof.Machine.execSrl c rd ra rb s
  | .sra c rd ra rb => Sys2Proof.Machine.execSra c rd ra rb s
  | .rol c rd ra rb => Sys2Proof.Machine.execRol c rd ra rb s
  | .ror c rd ra rb => Sys2Proof.Machine.execRor c rd ra rb s
  | .min c rd ra rb => Sys2Proof.Machine.execMin c rd ra rb s
  | .max c rd ra rb => Sys2Proof.Machine.execMax c rd ra rb s
  | .minu c rd ra rb => Sys2Proof.Machine.execMinu c rd ra rb s
  | .maxu c rd ra rb => Sys2Proof.Machine.execMaxu c rd ra rb s
  | .clz c rd ra => Sys2Proof.Machine.execClz c rd ra s
  | .ctz c rd ra => Sys2Proof.Machine.execCtz c rd ra s
  | .popc c rd ra => Sys2Proof.Machine.execPopc c rd ra s
  | .bswap c rd ra => Sys2Proof.Machine.execBswap c rd ra s
  | .sext c rd ra n1 => Sys2Proof.Machine.execSext c rd ra n1 s
  | .zext c rd ra n1 => Sys2Proof.Machine.execZext c rd ra n1 s
  | .bfx c rd ra sg pos len1 => Sys2Proof.Machine.execBfx c rd ra sg pos len1 s
  | .bfi c rd ra pos len1 => Sys2Proof.Machine.execBfi c rd ra pos len1 s
  | .addsh c rd ra rb sh => Sys2Proof.Machine.execAddsh c rd ra rb sh s
  | .sel c rd pn ra rb => Sys2Proof.Machine.execSel c rd pn ra rb s
  | .cmp c cond pd ra rb => Sys2Proof.Machine.execCmp c cond pd ra rb s
  | .plog c op pd pa pb => Sys2Proof.Machine.execPlog c op pd pa pb s
  | .fadd c t m rd ra rb => Sys2Proof.Machine.execFadd c t m rd ra rb s
  | .fsub c t m rd ra rb => Sys2Proof.Machine.execFsub c t m rd ra rb s
  | .fmul c t m rd ra rb => Sys2Proof.Machine.execFmul c t m rd ra rb s
  | .fma c t m rd ra rb rc => Sys2Proof.Machine.execFma c t m rd ra rb rc s
  | .fdiv c t m rd ra rb => Sys2Proof.Machine.execFdiv c t m rd ra rb s
  | .fsqrt c t m rd ra => Sys2Proof.Machine.execFsqrt c t m rd ra s
  | .fmin c t rd ra rb => Sys2Proof.Machine.execFmin c t rd ra rb s
  | .fmax c t rd ra rb => Sys2Proof.Machine.execFmax c t rd ra rb s
  | .fcmp c t cond pd ra rb => Sys2Proof.Machine.execFcmp c t cond pd ra rb s
  | .fcvt c t m src rd ra => Sys2Proof.Machine.execFcvt c t m src rd ra s
  | .fclass c t rd ra => Sys2Proof.Machine.execFclass c t rd ra s
  | .addi c rd ra imm => Sys2Proof.Machine.execAddi c rd ra imm s
  | .andi c rd ra imm => Sys2Proof.Machine.execAndi c rd ra imm s
  | .ori c rd ra imm => Sys2Proof.Machine.execOri c rd ra imm s
  | .xori c rd ra imm => Sys2Proof.Machine.execXori c rd ra imm s
  | .slli c rd ra sh => Sys2Proof.Machine.execSlli c rd ra sh s
  | .srli c rd ra sh => Sys2Proof.Machine.execSrli c rd ra sh s
  | .srai c rd ra sh => Sys2Proof.Machine.execSrai c rd ra sh s
  | .muli c rd ra imm => Sys2Proof.Machine.execMuli c rd ra imm s
  | .cmpi c cond pd ra imm => Sys2Proof.Machine.execCmpi c cond pd ra imm s
  | .li c rd imm => Sys2Proof.Machine.execLi c rd imm s
  | .lui c rd imm => Sys2Proof.Machine.execLui c rd imm s
  | .lpc c rd imm => Sys2Proof.Machine.execLpc c rd imm s
  | .br c off => Sys2Proof.Machine.execBr c off s
  | .call c rl off => Sys2Proof.Machine.execCall c rl off s
  | .callr c rl rt => Sys2Proof.Machine.execCallr c rl rt s
  | .jr c rt => Sys2Proof.Machine.execJr c rt s
  | .ret c rt => Sys2Proof.Machine.execRet c rt s
  | .ld c rd rb sz sg off => Sys2Proof.Machine.execLd c rd rb sz sg off s
  | .st c rs rb sz off => Sys2Proof.Machine.execSt c rs rb sz off s
  | .ldx c rd rb rx sz sg n => Sys2Proof.Machine.execLdx c rd rb rx sz sg n s
  | .stx c rs rb rx sz n => Sys2Proof.Machine.execStx c rs rb rx sz n s
  | .lda c rd rb sz sg sc off => Sys2Proof.Machine.execLda c rd rb sz sg sc off s
  | .strl c rs rb sz sc off => Sys2Proof.Machine.execStrl c rs rb sz sc off s
  | .ldp c rd rb sz sg off => Sys2Proof.Machine.execLdp c rd rb sz sg off s
  | .stp c rs rb sz off => Sys2Proof.Machine.execStp c rs rb sz off s
  | .prf c w rb off => Sys2Proof.Machine.execPrf c w rb off s
  | .amo c op rd rs rb sz sg sc => Sys2Proof.Machine.execAmo c op rd rs rb sz sg sc s
  | .cas c rd rc rn rb sz sg sc => Sys2Proof.Machine.execCas c rd rc rn rb sz sg sc s
  | .casp c rd rc rn rb sc => Sys2Proof.Machine.execCasp c rd rc rn rb sc s
  | .fence c sc => Sys2Proof.Machine.execFence c sc s
  | .sysfence c rd => Sys2Proof.Machine.execSysfence c rd s
  | .cwb c rb sc off => Sys2Proof.Machine.execCwb c rb sc off s
  | .cinv c rb sc off => Sys2Proof.Machine.execCinv c rb sc off s
  | .cwbi c rb sc off => Sys2Proof.Machine.execCwbi c rb sc off s
  | .czero c rb off => Sys2Proof.Machine.execCzero c rb off s
  | .epush c rs rb off => Sys2Proof.Machine.execEpush c rs rb off s
  | .epop c rd rb off => Sys2Proof.Machine.execEpop c rd rb off s
  | .epeek c rd rb off => Sys2Proof.Machine.execEpeek c rd rb off s
  | .mst c rs rb sz off => Sys2Proof.Machine.execMst c rs rb sz off s
  | .mamo c op rd rs rb sz sg => Sys2Proof.Machine.execMamo c op rd rs rb sz sg s
  | .mseq c rd rb => Sys2Proof.Machine.execMseq c rd rb s
  | .vld c vd rb off => Sys2Proof.Machine.execVld c vd rb off s
  | .vst c vs rb off => Sys2Proof.Machine.execVst c vs rb off s
  | .vlds c m vd rb rs sz => Sys2Proof.Machine.execVlds c m vd rb rs sz s
  | .vsts c pm vs rb rs sz => Sys2Proof.Machine.execVsts c pm vs rb rs sz s
  | .vldx c m vd rb vi sz n => Sys2Proof.Machine.execVldx c m vd rb vi sz n s
  | .vstx c pm vs rb vi sz n => Sys2Proof.Machine.execVstx c pm vs rb vi sz n s
  | .vldseg c vd rb sz k1 off => Sys2Proof.Machine.execVldseg c vd rb sz k1 off s
  | .vstseg c vs rb sz k1 off => Sys2Proof.Machine.execVstseg c vs rb sz k1 off s
  | .vldb c vd rb sz off => Sys2Proof.Machine.execVldb c vd rb sz off s
  | .vldf c vd rb sz off => Sys2Proof.Machine.execVldf c vd rb sz off s
  | .vadd c m t w vd va vb => Sys2Proof.Machine.execVadd c m t w vd va vb s
  | .vsub c m t w vd va vb => Sys2Proof.Machine.execVsub c m t w vd va vb s
  | .vmul c m t w vd va vb => Sys2Proof.Machine.execVmul c m t w vd va vb s
  | .vmulh c m t vd va vb => Sys2Proof.Machine.execVmulh c m t vd va vb s
  | .vmadd c m t w vd va vb vc => Sys2Proof.Machine.execVmadd c m t w vd va vb vc s
  | .vaddsat c m t vd va vb => Sys2Proof.Machine.execVaddsat c m t vd va vb s
  | .vsubsat c m t vd va vb => Sys2Proof.Machine.execVsubsat c m t vd va vb s
  | .vmin c m t vd va vb => Sys2Proof.Machine.execVmin c m t vd va vb s
  | .vmax c m t vd va vb => Sys2Proof.Machine.execVmax c m t vd va vb s
  | .vabs c m t vd va => Sys2Proof.Machine.execVabs c m t vd va s
  | .vand c m t vd va vb => Sys2Proof.Machine.execVand c m t vd va vb s
  | .vor c m t vd va vb => Sys2Proof.Machine.execVor c m t vd va vb s
  | .vxor c m t vd va vb => Sys2Proof.Machine.execVxor c m t vd va vb s
  | .vandn c m t vd va vb => Sys2Proof.Machine.execVandn c m t vd va vb s
  | .vshl c m t imm vd va amt => Sys2Proof.Machine.execVshl c m t imm vd va amt s
  | .vshr c m t imm vd va amt => Sys2Proof.Machine.execVshr c m t imm vd va amt s
  | .vsra c m t imm vd va amt => Sys2Proof.Machine.execVsra c m t imm vd va amt s
  | .vcmp c m t cond pd va vb => Sys2Proof.Machine.execVcmp c m t cond pd va vb s
  | .vsel c m t pn vd va vb => Sys2Proof.Machine.execVsel c m t pn vd va vb s
  | .vpopc c m t vd va => Sys2Proof.Machine.execVpopc c m t vd va s
  | .vfadd c m t rm w vd va vb => Sys2Proof.Machine.execVfadd c m t rm w vd va vb s
  | .vfsub c m t rm w vd va vb => Sys2Proof.Machine.execVfsub c m t rm w vd va vb s
  | .vfmul c m t rm w vd va vb => Sys2Proof.Machine.execVfmul c m t rm w vd va vb s
  | .vfma c m t rm w vd va vb vc => Sys2Proof.Machine.execVfma c m t rm w vd va vb vc s
  | .vfdiv c m t rm vd va vb => Sys2Proof.Machine.execVfdiv c m t rm vd va vb s
  | .vfsqrt c m t rm vd va => Sys2Proof.Machine.execVfsqrt c m t rm vd va s
  | .vfmin c m t vd va vb => Sys2Proof.Machine.execVfmin c m t vd va vb s
  | .vfmax c m t vd va vb => Sys2Proof.Machine.execVfmax c m t vd va vb s
  | .vfcmp c m t cond pd va vb => Sys2Proof.Machine.execVfcmp c m t cond pd va vb s
  | .vfabs c m t vd va => Sys2Proof.Machine.execVfabs c m t vd va s
  | .vfneg c m t vd va => Sys2Proof.Machine.execVfneg c m t vd va s
  | .vrcp c m rm vd va => Sys2Proof.Machine.execVrcp c m rm vd va s
  | .vrsqrt c m rm vd va => Sys2Proof.Machine.execVrsqrt c m rm vd va s
  | .vexp2 c m rm vd va => Sys2Proof.Machine.execVexp2 c m rm vd va s
  | .vlog2 c m rm vd va => Sys2Proof.Machine.execVlog2 c m rm vd va s
  | .vsin c m rm vd va => Sys2Proof.Machine.execVsin c m rm vd va s
  | .vcos c m rm vd va => Sys2Proof.Machine.execVcos c m rm vd va s
  | .vtanh c m rm vd va => Sys2Proof.Machine.execVtanh c m rm vd va s
  | .vcvt c m t rm src vd va => Sys2Proof.Machine.execVcvt c m t rm src vd va s
  | .vwiden c m t src vd va => Sys2Proof.Machine.execVwiden c m t src vd va s
  | .vnarrow c m t f src vd va => Sys2Proof.Machine.execVnarrow c m t f src vd va s
  | .vpack c t b vd va vb => Sys2Proof.Machine.execVpack c t b vd va vb s
  | .vunpack c m t b q vd va => Sys2Proof.Machine.execVunpack c m t b q vd va s
  | .vredadd c pm t src vd va vi => Sys2Proof.Machine.execVredadd c pm t src vd va vi s
  | .vredmin c pm t vd va vi => Sys2Proof.Machine.execVredmin c pm t vd va vi s
  | .vredmax c pm t vd va vi => Sys2Proof.Machine.execVredmax c pm t vd va vi s
  | .vfredadd c pm t rm src vd va vi => Sys2Proof.Machine.execVfredadd c pm t rm src vd va vi s
  | .vfredmax c pm t vd va vi => Sys2Proof.Machine.execVfredmax c pm t vd va vi s
  | .vscan c m t rm vd va vi => Sys2Proof.Machine.execVscan c m t rm vd va vi s
  | .vperm c m t vd va vb vi => Sys2Proof.Machine.execVperm c m t vd va vb vi s
  | .vslide c m t vd va vb n => Sys2Proof.Machine.execVslide c m t vd va vb n s
  | .vrot c m t vd va n => Sys2Proof.Machine.execVrot c m t vd va n s
  | .vzip c m t hi vd va vb => Sys2Proof.Machine.execVzip c m t hi vd va vb s
  | .vunzip c m t odd vd va vb => Sys2Proof.Machine.execVunzip c m t odd vd va vb s
  | .vcompress c m t vd va => Sys2Proof.Machine.execVcompress c m t vd va s
  | .vexpand c m t vd va => Sys2Proof.Machine.execVexpand c m t vd va s
  | .vbcast c m t fromG vd src n => Sys2Proof.Machine.execVbcast c m t fromG vd src n s
  | .vins c t vd ra n => Sys2Proof.Machine.execVins c t vd ra n s
  | .vext c t rd va n => Sys2Proof.Machine.execVext c t rd va n s
  | .vdot4 c m t src mix vd va vb => Sys2Proof.Machine.execVdot4 c m t src mix vd va vb s
  | .vhist c pm t q vg va => Sys2Proof.Machine.execVhist c pm t q vg va s
  | .vhmerge c m acc vd vg => Sys2Proof.Machine.execVhmerge c m acc vd vg s
  | .vsortk c m t desc vd va vi => Sys2Proof.Machine.execVsortk c m t desc vd va vi s
  | .vmask c m t sign pd va => Sys2Proof.Machine.execVmask c m t sign pd va s
  | .tcfg c h rows1 rb f desc force => Sys2Proof.Machine.execTcfg c h rows1 rb f desc force s
  | .tzero c h => Sys2Proof.Machine.execTzero c h s
  | .tld c h rb rs f chk rc scale => Sys2Proof.Machine.execTld c h rb rs f chk rc scale s
  | .tst c h rb rs f chk rc => Sys2Proof.Machine.execTst c h rb rs f chk rc s
  | .tldd c h rb rs rdsc rc f chk => Sys2Proof.Machine.execTldd c h rb rs rdsc rc f chk s
  | .tstd c h rb rs rdsc rc f chk => Sys2Proof.Machine.execTstd c h rb rs rdsc rc f chk s
  | .tqst c h rb rs q auto re f col k cont => Sys2Proof.Machine.execTqst c h rb rs q auto re f col k cont s
  | .tmma c hc ha hb => Sys2Proof.Machine.execTmma c hc ha hb s
  | .tmmat c hc ha hb rfill fill diag => Sys2Proof.Machine.execTmmat c hc ha hb rfill fill diag s
  | .tadd c hd ha hb m => Sys2Proof.Machine.execTadd c hd ha hb m s
  | .tscale c hd ha rs m => Sys2Proof.Machine.execTscale c hd ha rs m s
  | .tcvt c hd ha m sat => Sys2Proof.Machine.execTcvt c hd ha m sat s
  | .ttrans c hd ha => Sys2Proof.Machine.execTtrans c hd ha s
  | .tmov c hd ha => Sys2Proof.Machine.execTmov c hd ha s
  | .trow c h v ri toV => Sys2Proof.Machine.execTrow c h v ri toV s
  | .trowi c h v idx toV => Sys2Proof.Machine.execTrowi c h v idx toV s
  | .tred c v ha m max col => Sys2Proof.Machine.execTred c v ha m max col s
  | .trel c h => Sys2Proof.Machine.execTrel c h s
  | .tinfo c rd h => Sys2Proof.Machine.execTinfo c rd h s
  | .tsave c h rb => Sys2Proof.Machine.execTsave c h rb s
  | .trest c h rb => Sys2Proof.Machine.execTrest c h rb s
  | .qcclr c mask => Sys2Proof.Machine.execQcclr c mask s
  | .qcrd c v q => Sys2Proof.Machine.execQcrd c v q s
  | .qcwr c v q => Sys2Proof.Machine.execQcwr c v q s
  | .spawn c rd rpair rctl lo hi place => Sys2Proof.Machine.execSpawn c rd rpair rctl lo hi place s
  | .spawng c rd rpair rrule rext hi place => Sys2Proof.Machine.execSpawng c rd rpair rrule rext hi place s
  | .exit c => Sys2Proof.Machine.execExit c s
  | .task c rd rdesc => Sys2Proof.Machine.execTask c rd rdesc s
  | .taskw c rd rdesc => Sys2Proof.Machine.execTaskw c rd rdesc s
  | .waitc c rctr la lb lc ld => Sys2Proof.Machine.execWaitc c rctr la lb lc ld s
  | .bara c rd b => Sys2Proof.Machine.execBara c rd b s
  | .barw c rt b => Sys2Proof.Machine.execBarw c rt b s
  | .barinit c rn b => Sys2Proof.Machine.execBarinit c rn b s
  | .yield c => Sys2Proof.Machine.execYield c s
  | .uiret c => Sys2Proof.Machine.execUiret c s
  | .uien c v => Sys2Proof.Machine.execUien c v s
  | .csrr c rd n => Sys2Proof.Machine.execCsrr c rd n s
  | .csrw c rd rs n => Sys2Proof.Machine.execCsrw c rd rs n s
  | .csrs c rd rs n => Sys2Proof.Machine.execCsrs c rd rs n s
  | .csrc c rd rs n => Sys2Proof.Machine.execCsrc c rd rs n s
  | .ecall c => Sys2Proof.Machine.execEcall c s
  | .ebreak c => Sys2Proof.Machine.execEbreak c s
  | .sret c => Sys2Proof.Machine.execSret c s
  | .mret c => Sys2Proof.Machine.execMret c s
  | .wfi c => Sys2Proof.Machine.execWfi c s
  | .tlbinv c rasid raddr => Sys2Proof.Machine.execTlbinv c rasid raddr s
  | .tlbinvAs c rasid => Sys2Proof.Machine.execTlbinvAs c rasid s
  | .tlbinvall c => Sys2Proof.Machine.execTlbinvall c s
  | .slotcfg c rd rsel rval => Sys2Proof.Machine.execSlotcfg c rd rsel rval s
  | .vsavectx c rb rh v p q other => Sys2Proof.Machine.execVsavectx c rb rh v p q other s
  | .vrestctx c rb rh v p q other => Sys2Proof.Machine.execVrestctx c rb rh v p q other s
  | .chunkbrk c => Sys2Proof.Machine.execChunkbrk c s
  | .halt c => Sys2Proof.Machine.execHalt c s
  | .copy h cmd => Sys2Proof.Machine.execCopy h cmd s
  | .copy2d h cmd => Sys2Proof.Machine.execCopy2d h cmd s
  | .gather h cmd => Sys2Proof.Machine.execGather h cmd s
  | .scatter h cmd => Sys2Proof.Machine.execScatter h cmd s
  | .fill h cmd => Sys2Proof.Machine.execFill h cmd s
  | .rowcopy h cmd => Sys2Proof.Machine.execRowcopy h cmd s
  | .rowinit h cmd => Sys2Proof.Machine.execRowinit h cmd s
  | .mcopy h cmd => Sys2Proof.Machine.execMcopy h cmd s
  | .shload h cmd => Sys2Proof.Machine.execShload h cmd s
  | .save h cmd => Sys2Proof.Machine.execSave h cmd s
  | .restore h cmd => Sys2Proof.Machine.execRestore h cmd s
  | .rowBlockStep => Sys2Proof.Machine.execRowBlockStep s
  | .chunkPresent => Sys2Proof.Machine.execChunkPresent s
  | .corniceRecheck => Sys2Proof.Machine.execCorniceRecheck s
  | .chunkCommit => Sys2Proof.Machine.execChunkCommit s
  | .sharedTransferApply => Sys2Proof.Machine.execSharedTransferApply s
  | .trapDelivery => Sys2Proof.Machine.execTrapDelivery s
  | .interruptDelivery => Sys2Proof.Machine.execInterruptDelivery s
  | .userInterrupt => Sys2Proof.Machine.execUserInterrupt s
  | .machineCheck => Sys2Proof.Machine.execMachineCheck s
  | .timecmpMatch => Sys2Proof.Machine.execTimecmpMatch s
  | .swintWrite => Sys2Proof.Machine.execSwintWrite s
  | .watchdog => Sys2Proof.Machine.execWatchdog s
  | .wdwinBind => Sys2Proof.Machine.execWdwinBind s
  | .wdwinUnbind => Sys2Proof.Machine.execWdwinUnbind s
  | .ustatImageWrite => Sys2Proof.Machine.execUstatImageWrite s
  | .decodeSelect => Sys2Proof.Machine.execDecodeSelect s
  | .park => Sys2Proof.Machine.execPark s
  | .bringIn => Sys2Proof.Machine.execBringIn s
  | .preempt => Sys2Proof.Machine.execPreempt s
  | .waitEnd => Sys2Proof.Machine.execWaitEnd s
  | .gangMemberPlace => Sys2Proof.Machine.execGangMemberPlace s
  | .readyPoolPlace => Sys2Proof.Machine.execReadyPoolPlace s
  | .tileRename => Sys2Proof.Machine.execTileRename s
  | .engineDispatch => Sys2Proof.Machine.execEngineDispatch s
  | .engineOpStart => Sys2Proof.Machine.execEngineOpStart s
  | .engineOpComplete => Sys2Proof.Machine.execEngineOpComplete s
  | .sfuDequeue => Sys2Proof.Machine.execSfuDequeue s
  | .sfuResult => Sys2Proof.Machine.execSfuResult s
  | .pageWalk => Sys2Proof.Machine.execPageWalk s
  | .tlbinvSequence => Sys2Proof.Machine.execTlbinvSequence s
  | .tlbinvComplete => Sys2Proof.Machine.execTlbinvComplete s
  | .gets => Sys2Proof.Machine.execGets s
  | .getm => Sys2Proof.Machine.execGetm s
  | .upg => Sys2Proof.Machine.execUpg s
  | .inv => Sys2Proof.Machine.execInv s
  | .fwds => Sys2Proof.Machine.execFwds s
  | .fwdm => Sys2Proof.Machine.execFwdm s
  | .backinv => Sys2Proof.Machine.execBackinv s
  | .data => Sys2Proof.Machine.execData s
  | .datae => Sys2Proof.Machine.execDatae s
  | .ack => Sys2Proof.Machine.execAck s
  | .fwdmiss => Sys2Proof.Machine.execFwdmiss s
  | .evictm => Sys2Proof.Machine.execEvictm s
  | .rds => Sys2Proof.Machine.execRds s
  | .rdm => Sys2Proof.Machine.execRdm s
  | .fwdack => Sys2Proof.Machine.execFwdack s
  | .invack => Sys2Proof.Machine.execInvack s
  | .complete => Sys2Proof.Machine.execComplete s
  | .wbdata => Sys2Proof.Machine.execWbdata s
  | .wback => Sys2Proof.Machine.execWback s
  | .prds => Sys2Proof.Machine.execPrds s
  | .prdm => Sys2Proof.Machine.execPrdm s
  | .pwrupd => Sys2Proof.Machine.execPwrupd s
  | .pwrack => Sys2Proof.Machine.execPwrack s
  | .pfwds => Sys2Proof.Machine.execPfwds s
  | .pfwdm => Sys2Proof.Machine.execPfwdm s
  | .pinv => Sys2Proof.Machine.execPinv s
  | .pbackinv => Sys2Proof.Machine.execPbackinv s
  | .pdata => Sys2Proof.Machine.execPdata s
  | .pdatae => Sys2Proof.Machine.execPdatae s
  | .pack => Sys2Proof.Machine.execPack s
  | .pfwdmiss => Sys2Proof.Machine.execPfwdmiss s
  | .pwb => Sys2Proof.Machine.execPwb s
  | .pwback => Sys2Proof.Machine.execPwback s
  | .phold => Sys2Proof.Machine.execPhold s
  | .holdResponseTimer => Sys2Proof.Machine.execHoldResponseTimer s
  | .fprobe => Sys2Proof.Machine.execFprobe s
  | .fecho => Sys2Proof.Machine.execFecho s
  | .probeTimeout => Sys2Proof.Machine.execProbeTimeout s
  | .requestTimeout => Sys2Proof.Machine.execRequestTimeout s
  | .mreq => Sys2Proof.Machine.execMreq s
  | .mapply => Sys2Proof.Machine.execMapply s
  | .mack => Sys2Proof.Machine.execMack s
  | .mdone => Sys2Proof.Machine.execMdone s
  | .mstate => Sys2Proof.Machine.execMstate s
  | .mstateack => Sys2Proof.Machine.execMstateack s
  | .mresume => Sys2Proof.Machine.execMresume s
  | .groupActivate => Sys2Proof.Machine.execGroupActivate s
  | .groupReform => Sys2Proof.Machine.execGroupReform s
  | .groupDeactivate => Sys2Proof.Machine.execGroupDeactivate s
  | .heartbeat => Sys2Proof.Machine.execHeartbeat s
  | .hbreq => Sys2Proof.Machine.execHbreq s
  | .hbans => Sys2Proof.Machine.execHbans s
  | .lostdecl => Sys2Proof.Machine.execLostdecl s
  | .lostself => Sys2Proof.Machine.execLostself s
  | .deviceLostTimeout => Sys2Proof.Machine.execDeviceLostTimeout s
  | .linkTrain => Sys2Proof.Machine.execLinkTrain s
  | .fabricJoin => Sys2Proof.Machine.execFabricJoin s
  | .flitCrcFail => Sys2Proof.Machine.execFlitCrcFail s
  | .heartbeatTimeout => Sys2Proof.Machine.execHeartbeatTimeout s
  | .linkRetrainTimeout => Sys2Proof.Machine.execLinkRetrainTimeout s
  | .attest => Sys2Proof.Machine.execAttest s
  | .portIdlePark => Sys2Proof.Machine.execPortIdlePark s
  | .parkreq => Sys2Proof.Machine.execParkreq s
  | .parkack => Sys2Proof.Machine.execParkack s
  | .wakereq => Sys2Proof.Machine.execWakereq s
  | .wakeack => Sys2Proof.Machine.execWakeack s
  | .portWake => Sys2Proof.Machine.execPortWake s
  | .wavelengthRejoin => Sys2Proof.Machine.execWavelengthRejoin s
  | .forcedPark => Sys2Proof.Machine.execForcedPark s
  | .forcedParkRelease => Sys2Proof.Machine.execForcedParkRelease s
  | .hbmRequest => Sys2Proof.Machine.execHbmRequest s
  | .rowIdleClose => Sys2Proof.Machine.execRowIdleClose s
  | .bankRefresh => Sys2Proof.Machine.execBankRefresh s
  | .scrubRead => Sys2Proof.Machine.execScrubRead s
  | .scrubWrite => Sys2Proof.Machine.execScrubWrite s
  | .criticalTempAssert => Sys2Proof.Machine.execCriticalTempAssert s
  | .selfRefreshEnter => Sys2Proof.Machine.execSelfRefreshEnter s
  | .criticalTempDeassert => Sys2Proof.Machine.execCriticalTempDeassert s
  | .selfRefreshExit => Sys2Proof.Machine.execSelfRefreshExit s
  | .marginMeasure => Sys2Proof.Machine.execMarginMeasure s
  | .chstatTrainreq => Sys2Proof.Machine.execChstatTrainreq s
  | .retrainingHold => Sys2Proof.Machine.execRetrainingHold s
  | .trainingEnd => Sys2Proof.Machine.execTrainingEnd s
  | .hardwareError => Sys2Proof.Machine.execHardwareError s
  | .hartRelocate => Sys2Proof.Machine.execHartRelocate s
  | .fatalError => Sys2Proof.Machine.execFatalError s
  | .powerTick => Sys2Proof.Machine.execPowerTick s
  | .dieCriticalTemp => Sys2Proof.Machine.execDieCriticalTemp s
  | .hbmThrottle => Sys2Proof.Machine.execHbmThrottle s
  | .coolantInletAlert => Sys2Proof.Machine.execCoolantInletAlert s
  | .perst => Sys2Proof.Machine.execPerst s
  | .mgmtReset => Sys2Proof.Machine.execMgmtReset s
  | .bootRom => Sys2Proof.Machine.execBootRom s
  | .provisioningRequest => Sys2Proof.Machine.execProvisioningRequest s
  | .spdmKeyExchange => Sys2Proof.Machine.execSpdmKeyExchange s
  | .spdmMeasurements => Sys2Proof.Machine.execSpdmMeasurements s
  | .keySlotLoad => Sys2Proof.Machine.execKeySlotLoad s
  | .virtioFeaturesOk => Sys2Proof.Machine.execVirtioFeaturesOk s
  | .virtioNetRequest => Sys2Proof.Machine.execVirtioNetRequest s
  | .virtioBlkRequest => Sys2Proof.Machine.execVirtioBlkRequest s
  | .virtioConsoleRequest => Sys2Proof.Machine.execVirtioConsoleRequest s
  | .vsockConnect => Sys2Proof.Machine.execVsockConnect s
  | .functionLevelReset => Sys2Proof.Machine.execFunctionLevelReset s
  | .pldmSensorRequest => Sys2Proof.Machine.execPldmSensorRequest s
  | .registerWrite => Sys2Proof.Machine.execRegisterWrite s
  | .survivorUnreachable => Sys2Proof.Machine.execSurvivorUnreachable s
  | .messageRelay => Sys2Proof.Machine.execMessageRelay s
  | .unknownMessageCode => Sys2Proof.Machine.execUnknownMessageCode s
  | .pairAcknowledgement => Sys2Proof.Machine.execPairAcknowledgement s
  | .hbmThrottleEnd => Sys2Proof.Machine.execHbmThrottleEnd s

end Sys2Proof.Machine
end

