-- ==== Sys2Proof/Machine/Step.lean ====
section
/-!
DEFINITION. One step of the machine, and a state with an instruction placed where the next step finds it (assumption
log, entry 9).
-/

namespace Sys2Proof.Machine

/-- One step: what happens next, executed. -/
def step (s : State) : Host.Outcome State Fault Refusal :=
  match choose s with
  | .run i t => exec i t
  | .go t => .next t
  | .bad => .fault .illFormedStep

/-- The state with an instruction where `step` fetches its next one: a word in a block of hart 0, or for more than 64
bits a copy-engine command. -/
def State.withFetchWord (s : State) (nbits w : Nat) : State :=
  if nbits ≤ 64 then placeWord s (BitVec.ofNat 64 (w % 2 ^ nbits)) else placeCommand s (Cmd.ofNat (w % 2 ^ nbits))

end Sys2Proof.Machine
end

