-- ==== Sys2Proof/Safety.lean ====
section
/-!
DEFINITION. What counts as a safe run, and the vocabulary in which the statements say where an instruction completes and
what it leaves as it was.
-/

namespace Sys2Proof.Safety

open Sys2Proof.Machine

/-- The outcome is a next state: the machine neither faults nor refuses. -/
def goesOn (o : Host.Outcome State Fault Refusal) : Prop := ∃ s, o = .next s

/-- A property that every step keeps. -/
def keeps (inv : State → Prop) : Prop := ∀ s t, inv s → step s = .next t → inv t

/-! ## Tables in canonical form -/

/-- The register states of a hart: its own, and those that a squash or a truncation brings back (R121, R126). -/
def hartArchs (x : Hart) : List Arch := x.arch :: (x.chunk :: x.inflight).flatMap fun c => c.save :: c.cuts.map (·.arch)

/-- The register states that the module holds: those of the harts, and those that new harts start from (R203, R210). -/
def archs (s : State) : List Arch :=
  hartArchs s.cur ++ s.harts.flatMap (fun h => hartArchs h.2) ++
    s.dies.flatMap fun d => d.2.pool.map (·.tmpl) ++ d.2.gens.filterMap fun g => g.2.map (·.tmpl)

/-- Every table that the statements read is in canonical form: keys rise strictly, and no entry holds what an unlisted key
reads as. -/
structure TablesWf (s : State) : Prop where
  harts : tabWf Hart.reset s.harts = true
  cores : tabWf Core.reset s.cores = true
  clusters : tabWf Cluster.reset s.clusters = true
  engines : ∀ c ∈ s.clusters, tabWf Engine.reset c.2.engines = true ∧ ∀ e ∈ c.2.engines, tabWf SlotEnt.reset e.2.slots = true
  dies : tabWf Die.reset s.dies = true
  coh : tabWf LineCoh.reset s.coh = true
  caches : ∀ c ∈ s.coh, tabWf Moesi.i c.2.caches = true
  peers : tabWf none s.peers = true
  lineTd : tabWf 0 s.lineTd = true
  tags : tabWf 0 s.tags = true
  hbms : tabWf Hbm.reset s.hbms = true
  channels : ∀ x ∈ s.hbms, tabWf Chan.reset x.2.chans = true ∧ tabWf Lane.reset x.2.lanes = true ∧ tabWf none x.2.openRows = true
  groups : tabWf Group.reset s.groups = true
  ports : tabWf Port.reset s.ports = true
  pairs : tabWf Pair.reset s.pairs = true
  dogs : tabWf Dog.reset s.dogs = true
  meas : tabWf 0 s.meas = true
  tiles : ∀ a ∈ archs s, tabWf none a.tiles = true

/-! ## Completion of an instruction -/

/-- The guards of an instruction hold (R223). -/
def guarded (c : Ctl) (s : State) : Prop := guardOf s.cur.arch c = true

/-- The instruction has an effect as an ordinary member of its chunk and retires; the next word follows. -/
def retires (c : Ctl) (s : State) (f : State → State) : Out := .next (retire c (f (openChunk s)))

/-- The instruction writes one general register and retires; a write of g0 is discarded (R200). -/
def writesG (c : Ctl) (s : State) (rd : GReg) (x : Word) : Out := retires c s fun t => setG t rd x
/-- The instruction writes one predicate and retires; a write of p0 is discarded (R200). -/
def writesP (c : Ctl) (s : State) (pd : PReg) (x : Word) : Out := retires c s fun t => setP t pd x
/-- The instruction writes one vector register and retires. -/
def writesV (c : Ctl) (s : State) (vd : VReg) (x : Vec) : Out := retires c s fun t => setV t vd x

/-- The hart's members before this instruction have committed; it takes effect in the state `u` (R120). -/
def commitsTo (s u : State) : Prop := isDrained s = true ∧ u = openChunk s

/-- An instruction that acts after its older members have committed retires; one that has begun a write-back is followed by
the next instruction once that is acknowledged (R120, R277). -/
def finishes (s : State) : Out :=
  let t := retireSerial s
  .next (if s.cur.begun = true ∧ t.cur.ncWait ≠ [] then stallOn (.miss (.acks false)) t else t)

/-- No flag of a set is enabled to trap (R184). -/
def quietFlags (s : State) (fl : Flags) : Prop := s.cur.arch.fcsr.extractLsb' 5 5 &&& fl = 0

/-- The flags of a set, in fcsr (R182, R184). -/
def raiseFlags (fl : Flags) (s : State) : State := updArch s fun a => { a with fcsr := a.fcsr ||| fl.setWidth 64 }

/-- The core of the moving hart implements the features that a vector instruction needs (R202). -/
def featureHeld (f64 : Bool) (s : State) : Prop := featureFault f64 s = none

/-- The instruction raises a trap at its own address; what it did before the trap stands in `t` (R121, R390). -/
def traps (s t : State) (code : Nat) (tval row : Word) : Out := .next (raiseAt t s.cur.arch.pc ⟨code, tval, row⟩)

/-! ## Accesses -/

/-- A byte is one of n from an address on. -/
abbrev within (pa n b : Nat) : Prop := pa ≤ b ∧ b < pa + n

/-- The state is the same outside the moving hart's open chunk, the caches, and what lines that leave them carry to their
homes, or to the salvage ring (R97, R102, R113, R135): no register of a hart changes. -/
def sameBesideCaches (s t : State) : Prop :=
  t = { s with
    cur := { s.cur with chunk := t.cur.chunk }, cores := t.cores, clusters := t.clusters, dies := t.dies, coh := t.coh
    mem := t.mem, poison := t.poison, hbm := t.hbm, hbms := t.hbms, tags := t.tags, badGran := t.badGran
    peers := t.peers, reqs := t.reqs, nextReq := t.nextReq, net := t.net, pairs := t.pairs, events := t.events
    salvOvf := t.salvOvf, salvAcks := t.salvAcks, log := t.log }

/-- No cache of the moving hart's cluster holds a copy of a line of a non-coherent range, which could leave it, dirty, while
another line comes in (R135). -/
def noRangeCopy (s : State) (l : Nat) : Prop :=
  let cl := clusterOf s.curId
  ncFind l (getCluster s cl).ncl2 = none ∧ ∀ k, k < 16 → ncFind l (getCore s (16 * cl + k)).ncl1 = none

/-- A byte that a write elsewhere leaves as it reads: one of the module's own memory, or of a line of another home that the
module has not given up for the written one (R102). -/
def staysPut (s t : State) (b : Nat) : Prop :=
  s.mem.wf = true ∧ tabWf Core.reset s.cores = true ∧ tabWf Cluster.reset s.clusters = true ∧ tabWf none s.peers = true ∧
    (devOf b = s.dev ∨ tabGet none t.peers (b / 128) ≠ none)

/-- The n bytes at a place, as the moving hart reads them, are those of `v`, lowest first; every other byte reads as in `s`:
also of the line itself in a non-coherent range, and elsewhere of lines without copies of such a range. -/
def wroteBytes (s t : State) (x : Acc) (n v : Nat) : Prop :=
  sameBesideCaches s t ∧
  (∀ lvl b, within x.pa n b → byteAt t lvl b = BitVec.ofNat 8 (v / 2 ^ (8 * (b - x.pa)))) ∧
  ∀ lvl b, ¬ within x.pa n b → staysPut s t b → noRangeCopy s (b / 128) ∨ (x.lvl ≠ none ∧ b / 128 = x.pa / 128) →
    byteAt t lvl b = byteAt s lvl b

/-- The byte that a list of pieces (place, size, value) writes at an address: that of the last piece which covers it. -/
def pieceByte (l : List (Acc × Nat × Nat)) (b : Nat) : Option Byte :=
  l.foldl (fun r p => if within p.1.pa p.2.1 b then some (BitVec.ofNat 8 (p.2.2 / 2 ^ (8 * (b - p.1.pa)))) else r) none

/-- The pieces are written in order, as the moving hart reads them, and every other byte reads as in `s`. -/
def wrotePieces (s t : State) (l : List (Acc × Nat × Nat)) : Prop :=
  sameBesideCaches s t ∧
  (∀ lvl b x, pieceByte l b = some x → byteAt t lvl b = x) ∧
  ∀ lvl b, pieceByte l b = none → staysPut s t b → noRangeCopy s (b / 128) → byteAt t lvl b = byteAt s lvl b

/-- The lines of coherent memory among some places. -/
def coherentLines (xs : List Acc) : List Nat := xs.foldl (fun r x => if x.lvl.isNone then setInsert r (x.pa / 128) else r) []

/-- The chunk has room for the line of a coherent place (R49, R118). -/
def hasRoomFor (s : State) (x : Acc) : Prop := x.lvl = none → roomFor s false [x.pa / 128] = .free

/-- An access of a member of the open chunk that may write ends its checks in the state `s1` at the place `x`, outside the
control region and every group window, and reaches its line, which leaves the state `u` (R35, R97, R167). -/
def reaches (s : State) (use : Use) (r : AccReq) (a : Word) (x : Acc) (s1 u : State) : Prop :=
  translate s (whoCur s) r a = (s1, .val x) ∧ isControl (offOf x.pa) = false ∧ windowOf (noteUsed s1 x.used) x.pa = none ∧
    x.pa % 128 + r.n ≤ 128 ∧ reach (noteUsed s1 x.used) use x (byteMask x.pa r.n) a = (u, .val ())

/-! ## Vector lanes -/

/-- Lane i of width w is active under a predicate: its bit i * lb is set (R287). -/
def laneOn (s : State) (w : Nat) (p : PReg) (i : Nat) : Bool := (pOf s p).getLsbD (i * w / 8)

/-- The lanes of `x`: an active one holds `f i` modulo 2^w, an inactive one is kept, or zero under ZM (R221, R287). -/
def lanesBecome (s : State) (w : Nat) (m : VMask) (vd : VReg) (x : Vec) (f : Nat → Nat) : Prop :=
  ∀ i, i < 512 / w → lane w x i =
    if laneOn s w m.mask i then f i % 2 ^ w else if m.zm then 0 else lane w (vOf s vd) i

/-- The instruction writes the lanes of v[vd] and retires. -/
def writesLanes (c : Ctl) (m : VMask) (w : Nat) (vd : VReg) (s : State) (o : Out) (f : Nat → Nat) : Prop :=
  ∃ x, o = writesV c s vd x ∧ lanesBecome s w m vd x f

/-- The registers of a group of n from v[vd] on, written one after the other. -/
def setGroup (n : Nat) (vd : VReg) (x : Nat → Vec) (u : State) : State :=
  (List.range n).foldl (fun u k => setV u (vd + BitVec.ofNat 5 k) (x k)) u

/-- The elements of a group of n registers in interleaved order, each active under the mask bit of its source lane of
width `src` (R288, R300). -/
def groupBecomes (s : State) (w src n : Nat) (m : VMask) (vd : VReg) (x : Nat → Vec) (f : Nat → Nat) : Prop :=
  ∀ i, i < 512 / src → lane w (x (i % n)) (i / n) =
    if laneOn s src m.mask i then f i % 2 ^ w
    else if m.zm then 0 else lane w (vOf s (vd + BitVec.ofNat 5 (i % n))) (i / n)

/-- The lb bits of each lane in a predicate (R301). -/
def predBecomes (s : State) (w : Nat) (m : VMask) (pd : PReg) (x : Word) (f : Nat → Bool) : Prop :=
  ∀ i j, i < 512 / w → j < w / 8 → x.getLsbD (i * (w / 8) + j) =
    if laneOn s w m.mask i then f i else if m.zm then false else (pOf s pd).getLsbD (i * (w / 8) + j)

/-- `fl` is the union of the flags that the active lanes raise (R184, R289). -/
def isUnion (s : State) (w : Nat) (p : PReg) (r : Nat → Nat × Flags) (fl : Flags) : Prop :=
  ∀ k, k < 5 → (fl.getLsbD k = true ↔ ∃ i, i < 512 / w ∧ laneOn s w p i = true ∧ (r i).2.getLsbD k = true)

/-- The instruction raises the union of its lanes' flags and has the effect that `eff` describes, or traps with FP_EXC
where one of them is enabled; `pre` is what it does before (R184, R289). -/
def flagsThen (c : Ctl) (w : Nat) (p : PReg) (r : Nat → Nat × Flags) (pre : State → State) (s : State) (o : Out)
    (eff : (State → State) → Prop) : Prop :=
  ∃ fl, isUnion s w p r fl ∧
    (quietFlags s fl → ∃ f, eff f ∧ o = retires c s fun u => f (raiseFlags fl (pre u))) ∧
    (¬ quietFlags s fl → o = traps (openChunk s) (pre (openChunk s)) cFpExc (fl.setWidth 64) 0)

/-- The same where the effect is to write the lanes of v[vd] with the results. -/
def writesFpLanes (c : Ctl) (m : VMask) (w : Nat) (vd : VReg) (pre : State → State) (s : State) (o : Out)
    (r : Nat → Nat × Flags) : Prop :=
  flagsThen c w m.mask r pre s o fun f => ∃ x, f = (fun u => setV u vd x) ∧ lanesBecome s w m vd x fun i => (r i).1

/-! ## Tiles -/

/-- The handle holds a new tile: a private one at once, a shared one by a transfer left to the commit (R56, R61); of the
hart's other registers only fcsr changes, by the flags raised. -/
def tileBecomes (s t : State) (h : THandle) (x : Tile) (fl : Flags) : Prop :=
  let a := { s.cur.arch with fcsr := s.cur.arch.fcsr ||| fl.setWidth 64 }
  if h.priv then
    t.cur.arch = { a with tiles := tabPut none a.tiles h.toNat (some x), phys := tabPut 0 a.phys h.toNat s.nextPhys } ∧
      t.nextPhys = s.nextPhys + 1
  else t.cur.arch = a ∧
    ∃ ver, CommitOp.shWrite (clusterOf s.curId) (8 * s.cur.arch.asid + (h.toNat - 16)) ver x ∈ t.cur.chunk.ops

/-- A tile instruction of the moving hart can be renamed: a private destination has room in the reserve beside what the
other instructions hold, or holds what it took (R57). -/
def renames (s : State) (h : THandle) (units : Nat) : Prop :=
  let cl := clusterOf s.curId
  let others := modCluster s cl fun c => { c with renames := c.renames.filter fun r => r.1 != s.curId }
  h.priv = true → (∃ n, units ≤ n ∧ (s.curId, n) ∈ (getCluster s cl).renames) ∨
    reserveFits cl (reserveUse others cl ++ [(s.curId, units)]) = true

/-- A member that hands an operation to an engine retires; its chunk keeps how it stood before the member (R121, R371,
R379). -/
def retiresInEngine (c : Ctl) (s u : State) : Out := .next (retire c (noteCuts (openChunk s) u))

/-- No earlier engine operation of the moving hart waits at dispatch (R378). -/
def dispatches (s : State) : Prop :=
  ∀ o ∈ (getCluster s (clusterOf s.curId)).undispatched, o.hart ≠ s.curId

/-! ## Placement -/

/-- A slot can take a hart that requires features: it is Free, in stage 1 of the boot die's, and its core is not retired and
implements them (R202, R206, R374, R415). -/
def takesHart (s : State) (hreq : Word) (h : Nat) : Bool :=
  decide ((getHart s h).slot = .free ∧ (s.stage = 1 → h < 1024) ∧ (getCore s (coreOf h)).retired = false ∧
    (hreq = 0 ∨ hreq &&& ~~~(featmask s (coreOf h)) = 0))

/-- How many slots of a core, of a cluster and of a die can take it. -/
def coreRoom (s : State) (hreq : Word) (c : Nat) : Nat := (List.range 8).countP fun i => takesHart s hreq (8 * c + i)
def clusterRoom (s : State) (hreq : Word) (cl : Nat) : Nat := ((List.range 16).map fun i => coreRoom s hreq (16 * cl + i)).sum
def dieRoom (s : State) (hreq : Word) (d : Nat) : Nat := ((List.range 8).map fun i => clusterRoom s hreq (8 * d + i)).sum

/-- `x` has the largest count of those in a scope; a tie goes to `own`, then to the lowest number. -/
def mostOf (count : Nat → Nat) (scope : Nat → Prop) (own x : Nat) : Prop :=
  scope x ∧ ∀ y, scope y → count y ≤ count x ∧ (count y = count x → y = x ∨ (y ≠ own ∧ (x = own ∨ x < y)))

/-- The cores that a placement from a core considers (R206). -/
def inScope (core place c : Nat) : Prop :=
  match place with
  | 0 => c = core
  | 1 => c / 16 = core / 16
  | 2 => c / 128 = core / 128
  | _ => c < 512

/-- The scan of R374: the slot is the lowest of its core that can take the hart; its core has the most such slots of its
cluster, its cluster of its die, and its die of the module, as far as the placement leaves the choice. -/
def scanned (s : State) (hreq : Word) (core place h : Nat) : Prop :=
  takesHart s hreq h = true ∧ inScope core place (coreOf h) ∧
  (∀ k, k < h → coreOf k = coreOf h → takesHart s hreq k = false) ∧
  (1 ≤ place → mostOf (coreRoom s hreq) (fun c => c / 16 = clusterOf h) core (coreOf h)) ∧
  (2 ≤ place → mostOf (clusterRoom s hreq) (fun c => c / 8 = dieOf h) (core / 16) (clusterOf h)) ∧
  (3 ≤ place → mostOf (dieRoom s hreq) (fun d => d < 4) (core / 128) (dieOf h))

/-- A choice of a slot is that of R374, and there is none only where no slot in the scope can take the hart. -/
def placesBy (s : State) (hreq : Word) (core place : Nat) (o : Option Nat) : Prop :=
  (∀ h, o = some h → scanned s hreq core place h) ∧
  (o = none → ∀ h, inScope core place (coreOf h) → takesHart s hreq h = false)

/-! ## Messages -/

/-- The class of a message. -/
def clsOf (m : Msg) : Nat := (msgClass m.code).getD 3

/-- A message of another module is for this one, came on a channel of its class, and its sender is not recorded lost (R151,
R160). -/
def arrives (s : State) (m : Msg) : Prop :=
  s.arg.msg = some m ∧ s.arg.flag = false ∧ m.src ≠ s.dev ∧ m.vc / 2 = clsOf m ∧ m.dst = s.dev ∧
    (clsOf m = 3 ∨ s.lostMap.contains m.src = false)

/-- What the module knows of the messages of a pair and class (R153). -/
def pairOf (s : State) (m : Msg) : Pair := tabGet Pair.reset s.pairs (inKey m.src (clsOf m))

/-- A message is handled now, which leaves the state `u` before its effect: it comes from this module or is handled again
after a wait, or it is the next of its pair and class and none that follows it has come before (R153, R156). -/
def accepts (s : State) (m : Msg) (u : State) : Prop :=
  (s.arg.msg = some m ∧ (s.arg.flag = true ∨ m.src = s.dev) ∧ u = s) ∨
    (arrives s m ∧ m.seq = (pairOf s m).expect ∧ (∀ x ∈ (pairOf s m).waiting, x.seq ≠ m.seq + 1) ∧
      u = { noteFlit s m with
        pairs := tabPut Pair.reset s.pairs (inKey m.src (clsOf m)) { pairOf s m with expect := m.seq + 1 } })

end Sys2Proof.Safety
end

