-- ==== Sys2Proof/Certificates/Slice0/Obligations.lean ====
section
/-!
DEFINITION. The statements for the provers. A completion statement says the next state in full: `retires c s f` is the
state in which the instruction has had the effect `f` as a member of its chunk and the next word follows. Names of values
that the manual leaves open (assumption log) stand in no statement as numbers.
-/

open Sys2Proof Sys2Proof.Machine Sys2Proof.Safety

/-! ## Scalar integer instructions -/

/-- R243, R244, R245: integer arithmetic. The high halves are taken from the 128-bit products; division truncates toward
zero, a divisor of zero gives all ones and leaves the dividend, and -2^63 / -1 wraps. -/
def Obligations.IntegerArithmeticWritesItsResult : Prop :=
  ∀ (c : Ctl) (rd ra rb rc : GReg) (s : State), guarded c s →
    let a := gOf s ra
    let b := gOf s rb
    exec (.add c rd ra rb) s = writesG c s rd (a + b) ∧
    exec (.sub c rd ra rb) s = writesG c s rd (a - b) ∧
    exec (.mul c rd ra rb) s = writesG c s rd (a * b) ∧
    exec (.mulh c rd ra rb) s = writesG c s rd ((a.signExtend 128 * b.signExtend 128).extractLsb' 64 64) ∧
    exec (.mulhu c rd ra rb) s = writesG c s rd ((a.setWidth 128 * b.setWidth 128).extractLsb' 64 64) ∧
    exec (.madd c rd ra rb rc) s = writesG c s rd (a * b + gOf s rc) ∧
    exec (.div c rd ra rb) s = writesG c s rd (if b = 0 then BitVec.allOnes 64 else a.sdiv b) ∧
    exec (.rem c rd ra rb) s = writesG c s rd (if b = 0 then a else a.srem b) ∧
    exec (.divu c rd ra rb) s = writesG c s rd (if b = 0 then BitVec.allOnes 64 else a / b) ∧
    exec (.remu c rd ra rb) s = writesG c s rd (if b = 0 then a else a % b)

/-- R243: logic, shifts and rotations by bits [5:0] of the second operand, smaller and larger of two words. -/
def Obligations.LogicAndShiftsWriteTheirResult : Prop :=
  ∀ (c : Ctl) (rd ra rb : GReg) (s : State), guarded c s →
    let a := gOf s ra
    let b := gOf s rb
    let n := (b.extractLsb' 0 6).toNat
    exec (.and c rd ra rb) s = writesG c s rd (a &&& b) ∧
    exec (.or c rd ra rb) s = writesG c s rd (a ||| b) ∧
    exec (.xor c rd ra rb) s = writesG c s rd (a ^^^ b) ∧
    exec (.andn c rd ra rb) s = writesG c s rd (a &&& ~~~b) ∧
    exec (.orn c rd ra rb) s = writesG c s rd (a ||| ~~~b) ∧
    exec (.sll c rd ra rb) s = writesG c s rd (a <<< n) ∧
    exec (.srl c rd ra rb) s = writesG c s rd (a >>> n) ∧
    exec (.sra c rd ra rb) s = writesG c s rd (a.sshiftRight n) ∧
    exec (.rol c rd ra rb) s = writesG c s rd (a.rotateLeft n) ∧
    exec (.ror c rd ra rb) s = writesG c s rd (a.rotateRight n) ∧
    exec (.min c rd ra rb) s = writesG c s rd (if a.toInt ≤ b.toInt then a else b) ∧
    exec (.max c rd ra rb) s = writesG c s rd (if a.toInt ≤ b.toInt then b else a) ∧
    exec (.minu c rd ra rb) s = writesG c s rd (if a.toNat ≤ b.toNat then a else b) ∧
    exec (.maxu c rd ra rb) s = writesG c s rd (if a.toNat ≤ b.toNat then b else a)

/-- R246 to R250: counts of bits, the reversal of bytes, extensions, bit fields, scaled addition and selection, each said
bit by bit. -/
def Obligations.BitInstructionsWriteTheirResult : Prop :=
  ∀ (c : Ctl) (rd ra rb : GReg) (pn : PReg) (n1 pos len1 : BitVec 6) (sh : BitVec 3) (s : State), guarded c s →
    let a := gOf s ra
    (∃ n, n ≤ 64 ∧ exec (.clz c rd ra) s = writesG c s rd (BitVec.ofNat 64 n) ∧
      (∀ i, i < n → a.getLsbD (63 - i) = false) ∧ (n < 64 → a.getLsbD (63 - n) = true)) ∧
    (∃ n, n ≤ 64 ∧ exec (.ctz c rd ra) s = writesG c s rd (BitVec.ofNat 64 n) ∧
      (∀ i, i < n → a.getLsbD i = false) ∧ (n < 64 → a.getLsbD n = true)) ∧
    exec (.popc c rd ra) s = writesG c s rd (BitVec.ofNat 64 ((List.range 64).countP fun i => a.getLsbD i)) ∧
    (∃ x, exec (.bswap c rd ra) s = writesG c s rd x ∧
      ∀ i, i < 8 → x.extractLsb' (8 * i) 8 = a.extractLsb' (8 * (7 - i)) 8) ∧
    (∃ x, exec (.sext c rd ra n1) s = writesG c s rd x ∧
      ∀ i, i < 64 → x.getLsbD i = a.getLsbD (Nat.min i n1.toNat)) ∧
    (∃ x, exec (.zext c rd ra n1) s = writesG c s rd x ∧
      ∀ i, i < 64 → x.getLsbD i = (decide (i ≤ n1.toNat) && a.getLsbD i)) ∧
    (pos.toNat + len1.toNat < 64 → ∀ sg, ∃ x, exec (.bfx c rd ra sg pos len1) s = writesG c s rd x ∧
      ∀ i, i < 64 → x.getLsbD i =
        if i ≤ len1.toNat then a.getLsbD (pos.toNat + i) else sg && a.getLsbD (pos.toNat + len1.toNat)) ∧
    (pos.toNat + len1.toNat < 64 → ∃ x, exec (.bfi c rd ra pos len1) s = writesG c s rd x ∧
      ∀ i, i < 64 → x.getLsbD i =
        if pos.toNat ≤ i ∧ i ≤ pos.toNat + len1.toNat then a.getLsbD (i - pos.toNat) else (gOf s rd).getLsbD i) ∧
    exec (.addsh c rd ra rb sh) s = writesG c s rd (a + gOf s rb * BitVec.twoPow 64 sh.toNat) ∧
    exec (.sel c rd pn ra rb) s = writesG c s rd (if (pOf s pn).getLsbD 0 then a else gOf s rb)

/-- R251 to R255: comparisons write all ones or zero to a predicate, plog acts on all 64 bits; the immediate forms. -/
def Obligations.ComparisonsAndImmediateFormsWriteTheirResult : Prop :=
  (∀ (c : Ctl) (cond : Cond) (pd pa pb : PReg) (ra rb : GReg) (imm : BitVec 18) (s : State), guarded c s →
    let holds (a b : Word) : Prop := match cond with
      | .eq => a = b | .ne => a ≠ b
      | .lt => a.toInt < b.toInt | .ge => b.toInt ≤ a.toInt
      | .ltu => a.toNat < b.toNat | .geu => b.toNat ≤ a.toNat
    let pred (o : Out) (t : Prop) : Prop :=
      (t → o = writesP c s pd (BitVec.allOnes 64)) ∧ (¬ t → o = writesP c s pd 0)
    pred (exec (.cmp c cond pd ra rb) s) (holds (gOf s ra) (gOf s rb)) ∧
    pred (exec (.cmpi c cond pd ra imm) s) (holds (gOf s ra) (imm.signExtend 64)) ∧
    exec (.plog c .and pd pa pb) s = writesP c s pd (pOf s pa &&& pOf s pb) ∧
    exec (.plog c .or pd pa pb) s = writesP c s pd (pOf s pa ||| pOf s pb) ∧
    exec (.plog c .xor pd pa pb) s = writesP c s pd (pOf s pa ^^^ pOf s pb) ∧
    exec (.plog c .andn pd pa pb) s = writesP c s pd (pOf s pa &&& ~~~pOf s pb)) ∧
  (∀ (c : Ctl) (rd ra : GReg) (imm : BitVec 26) (sh : BitVec 6) (w : BitVec 32) (s : State), guarded c s →
    let a := gOf s ra
    let i := imm.signExtend 64
    exec (.addi c rd ra imm) s = writesG c s rd (a + i) ∧
    exec (.andi c rd ra imm) s = writesG c s rd (a &&& i) ∧
    exec (.ori c rd ra imm) s = writesG c s rd (a ||| i) ∧
    exec (.xori c rd ra imm) s = writesG c s rd (a ^^^ i) ∧
    exec (.slli c rd ra sh) s = writesG c s rd (a <<< sh.toNat) ∧
    exec (.srli c rd ra sh) s = writesG c s rd (a >>> sh.toNat) ∧
    exec (.srai c rd ra sh) s = writesG c s rd (a.sshiftRight sh.toNat) ∧
    exec (.muli c rd ra imm) s = writesG c s rd (a * i) ∧
    exec (.li c rd w) s = writesG c s rd (w.signExtend 64) ∧
    exec (.lui c rd w) s = writesG c s rd (w ++ (gOf s rd).setWidth 32) ∧
    exec (.lpc c rd w) s = writesG c s rd (s.cur.arch.pc + w.signExtend 64))

/-! ## Scalar floating point -/

/-- R256 to R261: each arithmetic instruction rounds its exact result once and writes it with zeros above, and the flags
of the rounding and of the operands go to fcsr; fclass raises none. A result with an enabled flag writes nothing and traps
with FP_EXC (R184). -/
def Obligations.ScalarFloatWritesItsRoundedResult : Prop :=
  ∀ (c : Ctl) (t src : VType) (m : RMode) (cond : Cond) (rd ra rb rc : GReg) (pd : PReg) (s : State), guarded c s →
    let mode := m.resolve s.cur.arch.fcsr
    let fz := fzOf s.cur.arch
    let x (r : GReg) : FVal := t.fmt.read fz ((gOf s r).toNat % 2 ^ t.width)
    let flagged (o : Out) (fl : Flags) (effect : State → State) : Prop :=
      (quietFlags s fl → o = retires c s fun u => effect (raiseFlags fl u)) ∧
      (¬ quietFlags s fl → o = traps (openChunk s) (openChunk s) cFpExc (fl.setWidth 64) 0)
    let writes (o : Out) (r : Nat × Flags) : Prop := flagged o r.2 fun u => setG u rd (BitVec.ofNat 64 r.1)
    let rounded (o : Out) (r : FVal × Flags) : Prop := writes o (t.fmt.finish mode fz false r)
    rounded (exec (.fadd c t m rd ra rb) s) (FVal.add mode (x ra) (x rb)) ∧
    rounded (exec (.fsub c t m rd ra rb) s) (FVal.add mode (x ra) (x rb).neg) ∧
    rounded (exec (.fmul c t m rd ra rb) s) (FVal.mul (x ra) (x rb)) ∧
    rounded (exec (.fma c t m rd ra rb rc) s) (FVal.fma mode (x ra) (x rb) (x rc)) ∧
    rounded (exec (.fdiv c t m rd ra rb) s) (FVal.div (x ra) (x rb)) ∧
    rounded (exec (.fsqrt c t m rd ra) s) (FVal.sqrt (x ra)) ∧
    writes (exec (.fmin c t rd ra rb) s) (t.fmt.write fz (FVal.pick false (x ra) (x rb))) ∧
    writes (exec (.fmax c t rd ra rb) s) (t.fmt.write fz (FVal.pick true (x ra) (x rb))) ∧
    (let y := convert t src mode fz (sat8Of s.cur.arch) ((gOf s ra).toNat % 2 ^ src.width)
     flagged (exec (.fcvt c t m src rd ra) s) y.2 fun u => setG u rd (extend (t.width / 8) (t.isInt && t.isSigned) y.1)) ∧
    (let y := FVal.compare cond (x ra) (x rb)
     flagged (exec (.fcmp c t cond pd ra rb) s) y.2 fun u => setP u pd (if y.1 then BitVec.allOnes 64 else 0)) ∧
    exec (.fclass c t rd ra) s =
      writesG c s rd (BitVec.ofNat 64 (t.fmt.classify ((gOf s ra).toNat % 2 ^ t.width)))

/-- R181, R186: rounding a magnitude to a multiple of a power of two gives one of the two neighbours, the exact value where
it is one of them, the nearer one under the nearest modes, which take a tie to the even one or away from zero, and the one on
the side of a directed mode. -/
def Obligations.RoundingPicksTheRightNeighbour : Prop :=
  ∀ (mode : RMode) (neg : Bool) (m sh : Nat), 0 < sh →
    let r := roundAt mode neg m 0 sh
    (r.1 = m / 2 ^ sh ∨ r.1 = m / 2 ^ sh + 1) ∧
    (r.2 = false ↔ m % 2 ^ sh = 0) ∧
    (r.2 = false → r.1 * 2 ^ sh = m) ∧
    (mode = .rne ∨ mode = .rna → 2 * (r.1 * 2 ^ sh) ≤ 2 * m + 2 ^ sh ∧ 2 * m ≤ 2 * (r.1 * 2 ^ sh) + 2 ^ sh) ∧
    (mode = .rne → 2 * (m % 2 ^ sh) = 2 ^ sh → r.1 % 2 = 0) ∧
    (mode = .rna → 2 * (m % 2 ^ sh) = 2 ^ sh → r.1 = m / 2 ^ sh + 1) ∧
    (mode = .rtz → r.1 * 2 ^ sh ≤ m) ∧
    (mode = .rdn → if neg then m ≤ r.1 * 2 ^ sh else r.1 * 2 ^ sh ≤ m) ∧
    (mode = .rup → if neg then r.1 * 2 ^ sh ≤ m else m ≤ r.1 * 2 ^ sh)

/-! ## Control flow -/

/-- R230, R262 to R265: a transfer whose target passes the checks sets the pc to it, a call writes the address of the next
word, computed before the target register is overwritten, and a failing target traps with its address and writes no link.
R230: a target is refused with TARGET and its address where it is no multiple of 8 or has a bit above 56 set; a target
whose word can be fetched passes if and only if that word is a header, with ENTRY where the transfer needs it. -/
def Obligations.TransfersGoToTheirTarget : Prop :=
  (
  ∀ (c : Ctl) (rl rt : GReg) (off : BitVec 38) (o32 : BitVec 32) (s u : State), guarded c s →
    let pc := s.cur.arch.pc
    let goes (o : Out) (target : Word) (entry : Bool) (effect : State → State) : Prop :=
      (checkTarget (openChunk s) target entry = (u, .val ()) → o = .next (retireTo c target (effect u))) ∧
      (∀ x, checkTarget (openChunk s) target entry = (u, .trap x) → o = traps (openChunk s) u x.code x.tval x.row)
    let linked (t : State) : State :=
      setG (updArch t fun a => { a with ras := ((t.cur.arch.pc + 8) :: a.ras).take 16 }) rl (t.cur.arch.pc + 8)
    goes (exec (.br c off) s) (pc + off.signExtend 64 * 8) false id ∧
    goes (exec (.call c rl o32) s) (pc + o32.signExtend 64 * 8) false linked ∧
    goes (exec (.callr c rl rt) s) (gOf s rt) true linked ∧
    goes (exec (.jr c rt) s) (gOf s rt) true id ∧
    goes (exec (.ret c rt) s) (gOf s rt) true (fun t => updArch t fun a => { a with ras := a.ras.drop 1 })) ∧
  (
  ∀ (s : State) (target : Word) (entry : Bool),
    (target.toNat % 8 ≠ 0 ∨ 2 ^ 57 ≤ target.toNat →
      checkTarget s target entry = (s, .trap ⟨0x02, target, 0⟩)) ∧
    (∀ u w, target.toNat % 8 = 0 → target.toNat < 2 ^ 57 →
      fetchWord (updArch s fun a => { a with pc := target }) = (u, .val w) →
      (w.extractLsb' 54 10 = 0x3FF ∧ (entry = true → w.getLsbD 7 = true) →
        (checkTarget s target entry).2 = .val ()) ∧
      (¬ (w.extractLsb' 54 10 = 0x3FF ∧ (entry = true → w.getLsbD 7 = true)) →
        (checkTarget s target entry).2 = .trap ⟨0x02, target, 0⟩)))

/-! ## Memory -/

/-- R269, R270, R271: a load writes the loaded value, sign- or zero-extended, at the address of its form, and traps where
the access is refused. An acquire load of system scope, or inside a non-coherent range, is made after the older members have
committed, inside a range at the level of its scope (R135).
R7, R118, R126, R422: the value of a load is made of the bytes that the hart sees, the lowest address lowest, its own
uncommitted bytes before the committed ones; of the control region, the register's value. -/
def Obligations.LoadsWriteTheLoadedValue : Prop :=
  (
  ∀ (c : Ctl) (rd rb rx : GReg) (sz : Size) (sg : Bool) (off : BitVec 20) (sh : BitVec 3) (sc : Scope) (s u : State)
    (v : Nat), guarded c s →
    let n := sz.bytes
    let a := gOf s rb + off.signExtend 64
    let ax := gOf s rb + gOf s rx <<< sh.toNat
    let loads (o : Out) (r : AccReq) (a : Word) (effect : State → State) : Prop :=
      (load (openChunk s) r a = (u, .val v) → o = .next (retire c (effect u))) ∧
      (∀ t, load (openChunk s) r a = (u, .trap t) → o = traps (openChunk s) u t.code t.tval t.row)
    let one (t : State) : State := setG t rd (extend n sg v)
    let late (s1 : State) (x : Acc) : Prop := isDrained s1 = true ∧ match x.lvl with
      | some k => readAtLevel s1 sc x k n a = (u, .val v)
      | none => readLine s1 .load x n a = (u, .val v)
    loads (exec (.ld c rd rb sz sg off) s) (scalarReq .load n true a) a one ∧
    loads (exec (.ldx c rd rb rx sz sg sh) s) (scalarReq .load n true ax) ax one ∧
    loads (exec (.ldp c rd rb sz sg off) s) (scalarReq .load (2 * n) false a) a
      (fun t => setG (setG t rd (extend n sg v)) (rd + 1) (extend n sg (v / 2 ^ (8 * n)))) ∧
    (∀ s1 x, translate (openChunk s) (whoCur s) (scalarReq .load n false a) a = (s1, .val x) →
      (sc ≠ .sys → x.lvl = none → readLine (noteUsed s1 x.used) .load x n a = (u, .val v) →
        exec (.lda c rd rb sz sg sc off) s = .next (retire c (one u))) ∧
      (sc ≠ .sys → x.lvl ≠ none → late s1 x → exec (.lda c rd rb sz sg sc off) s = finishes (one u)) ∧
      (sc = .sys → isDrained s = true → late s1 x → exec (.lda c rd rb sz sg sc off) s = finishes (one u))) ∧
    (∀ s1 t, translate (openChunk s) (whoCur s) (scalarReq .load n false a) a = (s1, .trap t) → sc ≠ .sys ∨ isDrained s = true →
      exec (.lda c rd rb sz sg sc off) s = traps (openChunk s) s1 t.code t.tval t.row)) ∧
  (
  ∀ (s s1 u : State) (r : AccReq) (a : Word) (x : Acc) (v : Nat),
    translate s (whoCur s) r a = (s1, .val x) → load s r a = (u, .val v) →
    (isControl (offOf x.pa) = true →
      v = (ctlRead (noteUsed s1 x.used) ((noteUsed s1 x.used).cur.arch.mode == .m) (offOf x.pa)).toNat) ∧
    (isControl (offOf x.pa) = false → ∃ s2,
      reach (noteUsed s1 x.used) .read x (byteMask x.pa r.n &&& ~~~ownMask (noteUsed s1 x.used) (x.pa / 128)) a = (s2, .val ()) ∧
      poisoned s2 (x.pa / 128) = false ∧ v < 2 ^ (8 * r.n) ∧
      ∀ k b, k < r.n → b = BitVec.ofNat 8 (v / 2 ^ (8 * k)) →
        match specByte u.cur (x.pa + k) with
        | some y => b = y
        | none => b = committedByte u x.lvl (x.pa + k)))

/-- R269 to R271, R266, R422: a store writes exactly its bytes at the address of its form, and no other byte that the hart
reads changes; a double word to the control region writes its register once the older members have committed. A release
store takes effect once its release is complete: at system scope with the drain of R140, inside a non-coherent range at the
level of its scope (R134, R135). -/
def Obligations.StoresWriteExactlyTheirBytes : Prop :=
  ∀ (c : Ctl) (rs rb rx : GReg) (sz : Size) (off : BitVec 20) (sh : BitVec 3) (sc : Scope) (s s1 u : State) (x : Acc),
    guarded c s →
    let n := sz.bytes
    let a := gOf s rb + off.signExtend 64
    let ax := gOf s rb + gOf s rx <<< sh.toNat
    let low := (gOf s rs).toNat % 2 ^ (8 * n)
    let writes (o : Out) (use : Use) (r : AccReq) (a : Word) (v : Nat) : Prop :=
      reaches (openChunk s) use r a x s1 u → hasRoomFor u x → ∃ t, o = .next (retire c t) ∧ wroteBytes u t x r.n v
    let stores (o : Out) (r : AccReq) (a : Word) (v : Nat) : Prop := writes o .store r a v
    let ctl (o : Out) (r : AccReq) (a : Word) (v : Word) : Prop :=
      translate (openChunk s) (whoCur s) r a = (s1, .val x) → isControl (offOf x.pa) = true → isDrained s1 = true →
        o = finishes (ctlWrite s1 (s1.cur.arch.mode == .m) (offOf x.pa) v)
    let released (v : State) (w : State) : Prop := match x.lvl with
      | some k => reach v .store { x with lvl := some (actLevel sc k) } (byteMask x.pa n) a = (u, .val ()) ∧
        w = writeAtLevel u sc x k n low
      | none => writeLine v false .store x n low a = (u, .val ()) ∧ w = commitOpen u
    stores (exec (.st c rs rb sz off) s) (scalarReq .store n true a) a (gOf s rs).toNat ∧
    stores (exec (.stx c rs rb rx sz sh) s) (scalarReq .store n true ax) ax (gOf s rs).toNat ∧
    stores (exec (.stp c rs rb sz off) s) (scalarReq .store (2 * n) false a) a
      ((gOf s rs).toNat % 2 ^ (8 * n) + 2 ^ (8 * n) * ((gOf s (rs + 1)).toNat % 2 ^ (8 * n))) ∧
    writes (exec (.czero c rb off) s) .zero (scalarReq .store 128 false a) a 0 ∧
    ctl (exec (.st c rs rb .d off) s) (scalarReq .store 8 true a) a (gOf s rs) ∧
    ctl (exec (.stx c rs rb rx .d sh) s) (scalarReq .store 8 true ax) ax (gOf s rs) ∧
    (sc ≠ .sys → x.lvl = none → owesNc s1 = false →
      stores (exec (.strl c rs rb sz sc off) s) (scalarReq .store n false a) a low) ∧
    (∀ w, translate (openChunk s) (whoCur s) (scalarReq .store n false a) a = (s1, .val x) → windowOf s1 x.pa = none →
      isDrained s1 = true → s1.cur.ncWait = [] →
      (sc ≠ .sys → x.lvl ≠ none ∨ owesNc s1 = true → released s1 w → exec (.strl c rs rb sz sc off) s = finishes w) ∧
      (∀ s2 lost, sc = .sys → isDrained s = true → systemDrain s1 = (s2, some lost) → s2.cur.ncWait = [] →
        released (endDrain s2 lost) w → exec (.strl c rs rb sz sc off) s = finishes w))

/-- R274 to R277: an atomic on a line of the module's own coherent memory reads the old value and writes the new one as
one step; a compare that fails writes nothing; rd takes the old value, the pair rd and rd + 1 for casp. On a line of another
module, and inside a non-coherent range, it does so once the older members have committed; at home level on a line of another
module the module obtains the line, performs the atomic on it and writes it back at once. -/
def Obligations.AtomicsReadAndWriteAsOneStep : Prop :=
  ∀ (c : Ctl) (op : AmoOp) (rd rs rc rn rb : GReg) (sz : Size) (sg : Bool) (sc : Scope) (s s1 u : State) (x : Acc),
    guarded c s →
    let n := sz.bytes
    let w := 8 * n
    let l := x.pa / 128
    let a := gOf s rb
    let arg (r : GReg) : Nat := (gOf s r).toNat % 2 ^ w
    let quad (r : GReg) : Nat := (gOf s r).toNat + 2 ^ 64 * (gOf s (r + 1)).toNat
    let performs (o : Out) (k : Nat) (new : Nat → Option Nat) (effect : Nat → State → State) : Prop :=
      (x.lvl = none → lineDev l = s1.dev → reaches (openChunk s) .atomic (scalarReq .atomic k false a) a x s1 u →
        poisoned u l = false →
        let y := valueAt u none x.pa k
        (∀ z, new y = some z → hasRoomFor u x → ∃ t, o = .next (retire c (effect y t)) ∧ wroteBytes u t x k z) ∧
        (new y = none → ∃ t, o = .next (retire c (effect y t)) ∧ wroteBytes u t x 0 0)) ∧
      (translate (openChunk s) (whoCur s) (scalarReq .atomic k false a) a = (s1, .val x) → windowOf s1 x.pa = none →
        isDrained s1 = true →
        (x.lvl = none → lineDev l ≠ s1.dev → reach s1 .atomic x (byteMask x.pa k) a = (u, .val ()) → poisoned u l = false →
          let y := valueAt u none x.pa k
          let v := touchNow u l (byteMask x.pa k)
          o = finishes (effect y (match new y with
            | some z => commitPeer v v.curId l false (inLine x.pa z) (byteMask x.pa k)
            | none => v))) ∧
        (∀ lvl v v', x.lvl = some lvl →
          (sc ≠ .sys ∧ v = s1 ∧ s1.cur.ncWait = []) ∨ (sc = .sys ∧ ∃ d lost, systemDrain s1 = (d, some lost) ∧
            d.cur.ncWait = [] ∧ v = { d with cur := { d.cur with drain := none } }) →
          let m := byteMask x.pa k
          (lineDev l = s1.dev ∨ actLevel sc lvl < 2 → ∀ y,
            reach v .atomic { x with lvl := some (actLevel sc lvl) } m a = (v', .val ()) → readAtLevel v' sc x lvl k a = (u, .val y) →
            o = finishes (effect y (match new y with | some z => writeAtLevel u sc x lvl k z | none => u))) ∧
          (lineDev l ≠ s1.dev → 2 ≤ actLevel sc lvl → v.lostMap.contains (lineDev l) = false →
            reach v .atomic { x with lvl := none } m a = (u, .val ()) → poisoned u l = false →
            let y := valueAt u none x.pa k
            o = finishes (effect y (match new y with
              | some z => updHart (ncClean (maintainPeer (commitPeer u u.curId l false (inLine x.pa z) m) .remove l) u.curId lvl 2 l
                  (inLine x.pa z) m) fun h => { h with begun := true }
              | none => u)))))
    let z := arg rs
    performs (exec (.amo c op rd rs rb sz sg sc) s) n
      (fun y => some (match op with
        | .add => (y + z) % 2 ^ w
        | .and => y &&& z
        | .or => y ||| z
        | .xor => y ^^^ z
        | .min => if (y : Int).bmod (2 ^ w) < (z : Int).bmod (2 ^ w) then y else z
        | .max => if (y : Int).bmod (2 ^ w) < (z : Int).bmod (2 ^ w) then z else y
        | .minu => if y < z then y else z
        | .maxu => if y < z then z else y
        | .swap => z))
      (fun y t => setG t rd (extend n sg y)) ∧
    performs (exec (.cas c rd rc rn rb sz sg sc) s) n (fun y => if y = arg rc then some (arg rn) else none)
      (fun y t => setG t rd (extend n sg y)) ∧
    performs (exec (.casp c rd rc rn rb sc) s) 16 (fun y => if y = quad rc then some (quad rn) else none)
      (fun y t => setG (setG t rd (BitVec.ofNat 64 y)) (rd + 1) (BitVec.ofNat 64 (y / 2 ^ 64)))

/-- R272, R278, R279, R140, R141, R280: fences complete once the hart's chunks have committed and its non-coherent stores to
other homes are acknowledged (R134), a system fence with the status of its drain; a prefetch has no architectural effect, and
asks for its line where its cluster does not hold it; cache maintenance of a line of the module's own memory changes no
committed byte, writes a dirty line back to the stacks, and leaves no dirty copy, or none at all; it has no effect in the
control region, acts on the hart's copies of a non-coherent range, and completes once every write-back that it started has
been acknowledged. -/
def Obligations.FencesAndMaintenanceComplete : Prop :=
  ∀ (c : Ctl) (w : Bool) (rd rb : GReg) (sc : Scope) (off : BitVec 20) (s u : State), guarded c s →
    (∀ v p, translate (openChunk s) (whoCur s) ⟨if w then .store else .load, 1, false, .noAccess⟩ (gOf s rb + off.signExtend 64) =
        (v, p) →
      (∀ t, p = .trap t → exec (.prf c w rb off) s = .next (retire c v)) ∧
      (∀ x : Acc, p = .val x → ∃ t, exec (.prf c w rb off) s = .next (retire c t) ∧ t = { v with coh := t.coh, dies := t.dies } ∧
        let l := x.pa / 128
        let cl := clusterOf v.curId
        (isControl (offOf x.pa) = false → x.lvl = none → windowOf v x.pa = none →
          meetsMark v (if w then .excl else .hint) l = false → clusterHolds v cl l (hintOf v) w = false →
          ∃ f ∈ (getCoh t l).fills, f.cl = cl))) ∧
    (commitsTo s u →
      (u.cur.ncWait = [] → exec (.fence c sc) s = .next (retireSerial u)) ∧
      (∀ v lost, systemDrain u = (v, some lost) → v.cur.ncWait = [] → (∀ d ∈ lost, d < 2 ^ 14) →
          ∃ t, exec (.sysfence c rd) s = .next (retireSerial (setG t rd (if lost = [] then 0 else 1))) ∧
            t.cur.drain = none ∧ t.cur.touched = [] ∧ t.cur.groupMask = [] ∧
            field 31 24 t.cur.arch.fstat = Nat.min lost.length 255 ∧ (t.cur.arch.fstat.getLsbD 16 = true ↔ lost ≠ []) ∧
            (lost = [] → field 13 0 t.cur.arch.fstat = 0) ∧
            (lost ≠ [] → field 13 0 t.cur.arch.fstat ∈ lost ∧ ∀ d ∈ lost, field 13 0 t.cur.arch.fstat ≤ d)) ∧
      (u.cur.drain = none → drainHomes u = [] → (systemDrain u).2 = some []) ∧
      (∀ d, u.cur.drain = some d → d.sent = true → d.late = [] → (systemDrain u).2 = if d.probes = [] then some d.lost else none) ∧
      (∀ (s1 : State) (x : Acc),
        let l := x.pa / 128
        let h := s1.curId
        let a := gOf u rb + off.signExtend 64
        let acts (o : Out) (kind : AccKind) (wb inv : Bool) : Prop :=
          let completes (v : State) : Prop :=
            if v.cur.ncWait = [] ∧ v.salvAcks = [] then o = .next (retireSerial v)
            else o = .next (stallOn (.miss (.acks true)) { v with cur := { v.cur with begun := true } })
          (u.cur.begun = true → u.cur.ncWait = [] → u.salvAcks = [] → o = .next (retireSerial u)) ∧
          (u.cur.begun = false → translate u (whoCur u) ⟨kind, 1, false, .noAccess⟩ a = (s1, .val x) →
            (isControl (offOf x.pa) = true → o = .next (retireSerial s1)) ∧
            (isControl (offOf x.pa) = false → windowOf s1 x.pa ≠ none → o = traps u s1 0x07 a 0) ∧
            (isControl (offOf x.pa) = false → windowOf s1 x.pa = none →
              (∀ k, x.lvl = some k → completes (
                let y := if wb then ncWriteBack s1 h k (scopeLevel sc) l else s1
                if inv then ncInvalidate y h k (scopeLevel sc) l else y)) ∧
              (x.lvl = none → snoopWaits s1 (some h) inv l = false → inFlux s1 l = false →
                (lineDev l ≠ s1.dev → completes (maintainPeer s1 (if inv then .remove else .clean) l)) ∧
                (lineDev l = s1.dev → tabWf LineCoh.reset s1.coh = true → tabWf Moesi.i (getCoh s1 l).caches = true →
                  ∃ t, completes t ∧ t.mem = s1.mem ∧
                    (∀ k, 512 ≤ k → k < 548 → cacheSt (getCoh t l) k ≠ .m ∧ cacheSt (getCoh t l) k ≠ .o) ∧
                    (inv = true → ∀ k, 512 ≤ k → k < 548 → cacheSt (getCoh t l) k = .i) ∧
                    (let dirty := (getCoh s1 l).caches.any (fun k => decide (512 ≤ k.1) && (k.2 == .m || k.2 == .o))
                     (dirty = false ∨ memHeld s1 l = false → t.cur.ncWait = s1.cur.ncWait ∧ t.salvAcks = s1.salvAcks) ∧
                     (trained s1 = true → memHeld s1 l = false → dirty = true →
                      t.hbm = writeBytes s1.hbm (l * 128) 128
                        (sealLine s1 (tabGet 0 s1.lineTd l) l (lineData s1.mem l)).1.toNat))))))
        acts (exec (.cwb c rb sc off) s) .load true false ∧ acts (exec (.cinv c rb sc off) s) .store false true ∧
        acts (exec (.cwbi c rb sc off) s) .store true true))

/-- R281 to R283, R65: a push delivers the eight registers from rs on as a command, or where no entry is free waits for one,
and traps with FIFO where none is in flight either; a pop takes the oldest record, or waits for one in the same way; the
status word gives free entries, entries in flight and records. -/
def Obligations.EngineWindowInstructionsAct : Prop :=
  ∀ (c : Ctl) (rs rd rb : GReg) (off : BitVec 20) (s u t : State) (x : Acc), guarded c s → commitsTo s u →
    let a := gOf u rb + off.signExtend 64
    let at_ (kind : AccKind) : Prop := engineWindow u kind a = (t, .val x)
    (at_ .engWrite → freeEntries t.cur ≠ 0 → isDrained t = true → t.cur.ncWait = [] →
      ∃ v e, exec (.epush c rs rb off) s = .next (retireSerial v) ∧
      v = { t with cur := { t.cur with fifo := v.cur.fifo } } ∧ v.cur.fifo.recs = t.cur.fifo.recs ∧
      v.cur.fifo.cmds = t.cur.fifo.cmds ++ [e] ∧ e.fin = none ∧ e.asid = t.cur.arch.asid ∧ e.mode = t.cur.arch.mode ∧
      e.ptroot = t.cur.arch.ptroot ∧
      e.cmd = ⟨gOf u rs, gOf u (rs + 1), gOf u (rs + 2), gOf u (rs + 3), gOf u (rs + 4), gOf u (rs + 5), gOf u (rs + 6),
        gOf u (rs + 7)⟩) ∧
    (at_ .engWrite → freeEntries t.cur = 0 → exec (.epush c rs rb off) s =
      if infl t.cur = 0 then traps u t 0x0C a 0 else .next (stallOn .fifoFree t)) ∧
    (∀ r rest, at_ .engRead → t.cur.fifo.recs = r :: rest → exec (.epop c rd rb off) s =
      .next (retireSerial (setG { t with cur := { t.cur with fifo := { t.cur.fifo with recs := rest } } } rd r))) ∧
    (at_ .engRead → t.cur.fifo.recs = [] → exec (.epop c rd rb off) s =
      if infl t.cur = 0 then traps u t 0x0C a 0 else .next (stallOn .fifoRecord t)) ∧
    (at_ .engRead → ∃ y, exec (.epeek c rd rb off) s = .next (retireSerial (setG t rd y)) ∧
      y = BitVec.ofNat 64 (freeEntries t.cur * 2 ^ 16 + infl t.cur * 2 ^ 8 + doneRecs t.cur))

/-- R284 to R286, R168: a multicast store adds one operation of its group to the commit of its chunk; a multicast atomic
hands its operation to its group, which sends it to the sequencer while it is active, waits, and writes the old value once the
operation has been applied; mseq reads APPLIED of the group; outside every window each traps with PERM. -/
def Obligations.MulticastInstructionsAct : Prop :=
  ∀ (c : Ctl) (op : AmoOp) (rs rd rb : GReg) (sz : Size) (sg : Bool) (off : BitVec 20) (s t : State) (x : Acc),
    guarded c s →
    let n := sz.bytes
    let a := gOf s rb + off.signExtend 64
    (translate (openChunk s) (whoCur s) (scalarReq .store n false a) a = (t, .val x) →
      (∀ g, windowOf t x.pa = some g → ∃ v o, exec (.mst c rs rb sz off) s = .next (retire c v) ∧
        v = { noteUsed t x.used with cur := { (noteUsed t x.used).cur with
          chunk := { (noteUsed t x.used).cur.chunk with ops := (noteUsed t x.used).cur.chunk.ops ++ [o] } } } ∧
        let place := offOf x.pa - (getGroup t g).base * 65536
        o = .mst g (place / 128 * 128) (byteMask place n) (inLine place ((gOf t rs).toNat % 2 ^ (8 * n))) 0 sz.code.toNat) ∧
      (windowOf t x.pa = none → exec (.mst c rs rb sz off) s = traps (openChunk s) t 0x07 a 0)) ∧
    (translate (openChunk s) (whoCur s) ⟨.load, 1, false, .refused⟩ (gOf s rb) = (t, .val x) →
      (∀ g, windowOf t x.pa = some g → ∃ v, exec (.mseq c rd rb) s =
        .next (retire c (setG v rd (BitVec.ofNat 64 (getGroup t g).applied))) ∧
          v = { t with cur := { t.cur with chunk := v.cur.chunk } }) ∧
      (windowOf t x.pa = none → exec (.mseq c rd rb) s = traps (openChunk s) t 0x07 (gOf s rb) 0)) ∧
    (∀ u, commitsTo s u →
      (∀ id y, u.cur.mamo = some (id, some y) → exec (.mamo c op rd rs rb sz sg) s =
        .next (retireSerial (setG { u with cur := { u.cur with mamo := none } } rd (extend n sg y.toNat)))) ∧
      (u.cur.mamo = none → translate u (whoCur u) (scalarReq .atomic n false (gOf u rb)) (gOf u rb) = (t, .val x) →
        (∀ g, windowOf t x.pa = some g → ∃ v, exec (.mamo c op rd rs rb sz sg) s = .next (stallOn (.miss .mamo) v) ∧
          v.cur = { t.cur with mamo := some (t.nextReq, none) } ∧
          let grp := getGroup t g
          let place := offOf x.pa - grp.base * 65536
          let size := sz.code.toNat + (if sg then 4 else 0)
          let data := inLine place ((gOf t rs).toNat % 2 ^ (8 * n))
          let o : HeldOp := ⟨t.curId, t.nextReq, 2, op.code.toNat, size, place / 128 * 128, byteMask place n, data, none, grp.state == 1⟩
          (getGroup v g).held = grp.held ++ [o] ∧
            (grp.state = 1 → ∃ r, v.reqs = t.reqs ++ [r] ∧ r.id = t.nextReq ∧ r.msg.code = 0x06 ∧ r.msg.dst = grp.seqdev ∧
              r.msg.td = grp.td ∧ r.msg.line = place / 128 ∧ r.msg.mask = byteMask place n ∧ r.msg.data = data ∧
              r.msg.aux = [t.nextReq, grp.gid, 2, op.code.toNat, size]) ∧
            (grp.state ≠ 1 → v.reqs = t.reqs)) ∧
        (∀ id, u.cur.mamo = some (id, none) → exec (.mamo c op rd rs rb sz sg) s = .next (stallOn (.miss .mamo) u)) ∧
        (windowOf t x.pa = none → exec (.mamo c op rd rs rb sz sg) s = traps u t 0x07 (gOf u rb) 0)))

/-- R35, R32, R37, R39, R422: an access below M mode that passes its checks went through the leaf that a walk has answered, or
that the TLBs of its core hold for the address; the leaf's frame gives the physical address, and the leaf grants the kind: the
read, write or execute bit, the engine bit exactly for the engine's windows, and in U mode the U bit and never the control
region.
R31: one that writes memory went through a leaf whose D bit is set.
R17, R23, R422: an access in M mode uses the address as it is; it is refused beyond 2^56 and in a region marked None
with PERM, and off its alignment with MISALIGN. -/
def Obligations.AccessesAreChecked : Prop :=
  (
  ∀ (s t : State) (w : Who) (r : AccReq) (a : Word) (x : Acc),
    w.mode ≠ .m → translate s w r a = (t, .val x) →
    a.toNat < 2 ^ 57 ∧ r.misaligned = false ∧
    let va := if inAperture a.toNat then aliasOf w.hart a.toNat else a.toNat
    let cmd := r.kind == .copyRead || r.kind == .copyWrite
    ∃ e : TlbEnt,
      ((∃ y, walkAnswer s w cmd va = some y ∧ y.leaf = some e) ∨
        (walkAnswer s w cmd va = none ∧ cmd = false ∧ (tlbFind s (coreOf w.hart) w.asid va).2 = some e ∧ e.hits w.asid va = true)) ∧
      checkLeaf s w r a va e = .val x ∧
      let pte := e.pte
      x.pa = (if pteBit pte 8 then 0 else ptePpn pte + va % 2 ^ e.bits) ∧
      (kReads r.kind = true → pteBit pte 1 = true) ∧ (kWrites r.kind = true → pteBit pte 2 = true) ∧
      (r.kind = .fetch → pteBit pte 3 = true) ∧ (pteBit pte 8 = true ↔ r.kind = .engRead ∨ r.kind = .engWrite) ∧
      (w.mode = .u → pteBit pte 4 = true ∧ isControl (offOf x.pa) = false) ∧
      (r.kind = .fetch → w.mode = .s → pteBit pte 4 = false) ∧
      (r.kind ∈ [AccKind.store, .atomic, .vstore, .tstore, .copyWrite] → r.ctl ≠ .noAccess → pteBit pte 7 = true)) ∧
  (
  ∀ (s : State) (w : Who) (r : AccReq) (a : Word), w.mode = .m →
    let n := a.toNat
    let off := n % 2 ^ 42
    let dev := n / 2 ^ 42 % 2 ^ 14
    let perm : State × Res Acc := (s, .trap ⟨0x07, a, 0⟩)
    (2 ^ 56 ≤ n → translate s w r a = perm) ∧
    (n < 2 ^ 56 → r.misaligned = true → translate s w r a = (s, .trap ⟨0x05, a, 0⟩)) ∧
    (n < 2 ^ 56 → r.misaligned = false → 0x07800000000 ≤ off → off < 0x3FF00000000 → translate s w r a = perm) ∧
    (n < 2 ^ 56 → r.misaligned = false → 0x3FF00000000 ≤ off → r.ctl = .refused ∨ (r.ctl = .allowed ∧ dev ≠ s.dev) →
      translate s w r a = perm) ∧
    (n < 2 ^ 56 → r.misaligned = false → off < 0x07800000000 → s.stage ≠ 1 → r.kind ≠ .engRead → r.kind ≠ .engWrite →
      translate s w r a = (s, .val ⟨n, 0, none, none⟩)))

/-! ## Vector instructions -/

/-- R291 to R298: vector loads write the loaded lanes at the addresses of their form, an inactive lane is kept or zeroed;
vldf stops before the first element that cannot be read and says so in p15; vector stores write each active lane in
order, so that of two lanes that overlap the later one stands, and no other byte. -/
def Obligations.VectorMemoryInstructionsMoveTheirLanes : Prop :=
  ∀ (c : Ctl) (m : VMask) (pm : PReg) (vd vs vi : VReg) (rb rs : GReg) (sz : Size) (sh : BitVec 3) (k1 : BitVec 2)
    (off : BitVec 20) (s s1 u : State) (v : Nat) (l : List Nat) (xs : List Acc), guarded c s →
    let o := openChunk s
    let n := sz.bytes
    let w := 8 * n
    let k := k1.toNat + 1
    let a := gOf s rb + off.signExtend 64
    let at_ (i : Nat) : Word := a + BitVec.ofNat 64 (i * n)
    let stride (i : Nat) : Word := gOf s rb + BitVec.ofNat 64 i * gOf s rs
    let index (i : Nat) : Word := gOf s rb + BitVec.ofNat 64 (lane w (vOf s vi) i) <<< sh.toNat
    let masked (e : Out) (f : Nat → Word) : Prop :=
      loadLanes o n ((List.range (512 / w)).map fun i => if laneOn s w m.mask i then some (f i) else none) = (u, .val l) →
      ∃ x, e = .next (retire c (setV u vd x)) ∧ ∀ i, i < 512 / w → lane w x i =
        if laneOn s w m.mask i then l.getD i 0 % 2 ^ w else if m.zm then 0 else lane w (vOf u vd) i
    let stores (e : Out) (n : Nat) (lanes : List (Word × Nat)) : Prop :=
      checkLanes o n (lanes.map (·.1)) = (s1, .val xs) →
      roomFor s1 false (coherentLines xs) = .free → (∀ x ∈ xs, x.pa % 128 + n ≤ 128) → xs.length = lanes.length →
      ∃ t, e = .next (retire c t) ∧ wrotePieces s1 t ((xs.zip lanes).map fun p => (p.1, n, p.2.2))
    let whole : Prop := a.toNat % n = 0 ∧ straddles s a (64 * k) = false
    let active : List Nat := (List.range (512 / w)).filter (laneOn s w pm)
    (laneLoad o 64 a = (u, .val v) → exec (.vld c vd rb off) s = .next (retire c (setV u vd (BitVec.ofNat 512 v)))) ∧
    (∀ t, laneLoad o 64 a = (u, .trap t) → exec (.vld c vd rb off) s = traps o u t.code t.tval t.row) ∧
    masked (exec (.vlds c m vd rb rs sz) s) stride ∧
    masked (exec (.vldx c m vd rb vi sz sh) s) index ∧
    (whole → loadLanes o n ((List.range (k * (64 / n))).map fun i => some (at_ i)) = (u, .val l) →
      ∃ x : Nat → Vec, exec (.vldseg c vd rb sz k1 off) s = .next (retire c (setGroup k vd x u)) ∧
        ∀ f j, f < k → j < 512 / w → lane w (x f) j = l.getD (j * k + f) 0 % 2 ^ w) ∧
    (laneLoad o n a = (u, .val v) → ∃ x, exec (.vldb c vd rb sz off) s = .next (retire c (setV u vd x)) ∧
      ∀ i, i < 512 / w → lane w x i = v % 2 ^ w) ∧
    (loadFirst o n a (64 / n) 0 = (u, .val l) → l.length ≤ 64 / n → ∃ x p,
      exec (.vldf c vd rb sz off) s = .next (retire c (setP (setV u vd x) 15 p)) ∧
        (∀ i, i < 512 / w → lane w x i = l.getD i 0 % 2 ^ w) ∧ ∀ j, j < 64 → p.getLsbD j = decide (j < l.length * n)) ∧
    stores (exec (.vst c vs rb off) s) 64 [(a, (vOf s vs).toNat)] ∧
    stores (exec (.vsts c pm vs rb rs sz) s) n (active.map fun i => (stride i, lane w (vOf s vs) i)) ∧
    stores (exec (.vstx c pm vs rb vi sz sh) s) n (active.map fun i => (index i, lane w (vOf s vs) i)) ∧
    (whole → stores (exec (.vstseg c vs rb sz k1 off) s) n ((List.range (k * (64 / n))).map fun i =>
      (at_ i, lane w (vOf s (vs + BitVec.ofNat 5 (i % k))) (i / k)))) ∧
    (¬ whole → exec (.vldseg c vd rb sz k1 off) s = traps o o 0x05 a 0 ∧ exec (.vstseg c vs rb sz k1 off) s = traps o o 0x05 a 0)

/-- R299, R300: integer arithmetic on each active lane, modulo 2^w; the widening forms write the exact results into a
pair of registers; the saturating forms set vcsr.QS when an active lane saturates. -/
def Obligations.VectorIntegerArithmeticActsLaneByLane : Prop :=
  ∀ (c : Ctl) (m : VMask) (t : VType) (vd va vb vc : VReg) (s : State), guarded c s →
    let w := t.width
    let bits (r : VReg) (i : Nat) : Nat := lane w (vOf s r) i
    let z (r : VReg) (i : Nat) : Int := if t.isSigned then ((bits r i : Nat) : Int).bmod (2 ^ w) else bits r i
    let wide (r : VReg) (i : Nat) : Nat := lane (2 * w) (vOf s (r + BitVec.ofNat 5 (i % 2))) (i / 2)
    let low (k : Nat) (x : Int) : Nat := (x % 2 ^ k).toNat
    let is (o : Out) (f : Nat → Int) : Prop := writesLanes c m w vd s o fun i => low w (f i)
    let isWide (o : Out) (f : Nat → Int) : Prop := ∃ x : Nat → Vec, o = retires c s (setGroup 2 vd x) ∧
      groupBecomes s (2 * w) w 2 m vd x fun i => low (2 * w) (f i)
    let saturates (o : Out) (f : Nat → Int) : Prop :=
      let lo : Int := if t.isSigned then -2 ^ (w - 1) else 0
      let hi : Int := if t.isSigned then 2 ^ (w - 1) - 1 else 2 ^ w - 1
      let out (i : Nat) : Prop := f i < lo ∨ hi < f i
      ∃ x, lanesBecome s w m vd x (fun i => low w (if f i < lo then lo else if hi < f i then hi else f i)) ∧
        ((∃ i, i < 512 / w ∧ laneOn s w m.mask i = true ∧ out i) →
          o = retires c s fun u => updArch (setV u vd x) fun a => { a with vcsr := a.vcsr ||| 2 }) ∧
        ((∀ i, i < 512 / w → laneOn s w m.mask i = true → ¬ out i) → o = writesV c s vd x)
    is (exec (.vadd c m t false vd va vb) s) (fun i => z va i + z vb i) ∧
    is (exec (.vsub c m t false vd va vb) s) (fun i => z va i - z vb i) ∧
    is (exec (.vmul c m t false vd va vb) s) (fun i => z va i * z vb i) ∧
    is (exec (.vmulh c m t vd va vb) s) (fun i => z va i * z vb i / 2 ^ w) ∧
    is (exec (.vmadd c m t false vd va vb vc) s) (fun i => z va i * z vb i + bits vc i) ∧
    is (exec (.vmin c m t vd va vb) s) (fun i => if z va i ≤ z vb i then z va i else z vb i) ∧
    is (exec (.vmax c m t vd va vb) s) (fun i => if z va i ≤ z vb i then z vb i else z va i) ∧
    is (exec (.vabs c m t vd va) s) (fun i => if z va i < 0 then -z va i else z va i) ∧
    isWide (exec (.vadd c m t true vd va vb) s) (fun i => z va i + z vb i) ∧
    isWide (exec (.vsub c m t true vd va vb) s) (fun i => z va i - z vb i) ∧
    isWide (exec (.vmul c m t true vd va vb) s) (fun i => z va i * z vb i) ∧
    isWide (exec (.vmadd c m t true vd va vb vc) s) (fun i => z va i * z vb i + wide vc i) ∧
    saturates (exec (.vaddsat c m t vd va vb) s) (fun i => z va i + z vb i) ∧
    saturates (exec (.vsubsat c m t vd va vb) s) (fun i => z va i - z vb i)

/-- R299, R301, R302, R322: logic, shifts and bit counts of lanes, comparisons and masks into a predicate, selection. -/
def Obligations.VectorBitInstructionsActLaneByLane : Prop :=
  ∀ (c : Ctl) (m : VMask) (t : VType) (imm sign : Bool) (cond : Cond) (vd va vb : VReg) (pd pn : PReg) (amt : BitVec 6)
    (s : State), guarded c s →
    let w := t.width
    let bits (r : VReg) (i : Nat) : Nat := lane w (vOf s r) i
    let sg (r : VReg) (i : Nat) : Int := ((bits r i : Nat) : Int).bmod (2 ^ w)
    let n (i : Nat) : Nat := if imm then amt.toNat else bits (amt.setWidth 5) i % w
    let is (o : Out) (f : Nat → Nat) : Prop := writesLanes c m w vd s o f
    let pred (o : Out) (f : Nat → Bool) : Prop := ∃ x, o = writesP c s pd x ∧ predBecomes s w m pd x f
    is (exec (.vand c m t vd va vb) s) (fun i => bits va i &&& bits vb i) ∧
    is (exec (.vor c m t vd va vb) s) (fun i => bits va i ||| bits vb i) ∧
    is (exec (.vxor c m t vd va vb) s) (fun i => bits va i ^^^ bits vb i) ∧
    is (exec (.vandn c m t vd va vb) s) (fun i => bits va i - (bits va i &&& bits vb i)) ∧
    is (exec (.vshl c m t imm vd va amt) s) (fun i => bits va i * 2 ^ n i) ∧
    is (exec (.vshr c m t imm vd va amt) s) (fun i => bits va i / 2 ^ n i) ∧
    is (exec (.vsra c m t imm vd va amt) s) (fun i => ((sg va i / 2 ^ n i) % 2 ^ w).toNat) ∧
    is (exec (.vpopc c m t vd va) s) (fun i => (List.range w).countP (bits va i).testBit) ∧
    is (exec (.vsel c m t pn vd va vb) s) (fun i => if laneOn s w pn i then bits va i else bits vb i) ∧
    pred (exec (.vcmp c m t cond pd va vb) s) (fun i => match cond with
      | .eq => decide (bits va i = bits vb i) | .ne => decide (bits va i ≠ bits vb i)
      | .lt => decide (sg va i < sg vb i) | .ge => decide (sg vb i ≤ sg va i)
      | .ltu => decide (bits va i < bits vb i) | .geu => decide (bits vb i ≤ bits va i)) ∧
    pred (exec (.vmask c m t sign pd va) s) (fun i => decide (bits va i ≠ 0 ∨ (sign = true ∧ 2 ^ (w - 1) ≤ bits va i)))

/-- R303 to R305, R184, R202, R289: floating-point lanes are rounded once each, the union of the active lanes' flags goes
to fcsr or traps, and on a core without the f64 feature an instruction on f64 lanes traps with FEATURE. -/
def Obligations.VectorFloatActsLaneByLane : Prop :=
  ∀ (c : Ctl) (m : VMask) (t : VType) (rm : RMode) (cond : Cond) (vd va vb vc : VReg) (pd : PReg) (s : State), guarded c s →
    let w := t.width
    let fz := fzOf s.cur.arch
    let mode := rm.resolve s.cur.arch.fcsr
    let bits (r : VReg) (i : Nat) : Nat := lane w (vOf s r) i
    let x (r : VReg) (i : Nat) : FVal := t.fmt.read fz (bits r i)
    let u := widerType t
    let xw (r : VReg) (i : Nat) : FVal := u.fmt.read fz (lane (2 * w) (vOf s (r + BitVec.ofNat 5 (i % 2))) (i / 2))
    let is (o : Out) (r : Nat → Nat × Flags) : Prop :=
      (featureHeld (t == .f64) s → writesFpLanes c m w vd id s o r) ∧
      (¬ featureHeld (t == .f64) s → o = traps s s 0x04 1 0)
    let rounded (o : Out) (r : Nat → FVal × Flags) : Prop :=
      is o fun i => t.fmt.finish mode fz (sat8Of s.cur.arch) (r i)
    let wide (o : Out) (r : Nat → FVal × Flags) : Prop :=
      t = .bf16 ∨ t = .f16 ∨ t = .f32 →
      let y (i : Nat) : Nat × Flags := u.fmt.finish mode fz (sat8Of s.cur.arch) (r i)
      (featureHeld (t == .f32) s → flagsThen c w m.mask y id s o fun f =>
        ∃ g : Nat → Vec, f = setGroup 2 vd g ∧ groupBecomes s (2 * w) w 2 m vd g fun i => (y i).1) ∧
      (¬ featureHeld (t == .f32) s → o = traps s s 0x04 1 0)
    let signed (o : Out) (f : Nat → Nat) : Prop :=
      featureHeld (t == .f64) s →
      writesLanes c m w vd s o fun i => if (t.fmt.decode (bits va i)).isNaN then t.fmt.canonNaN else f (bits va i)
    rounded (exec (.vfadd c m t rm false vd va vb) s) (fun i => FVal.add mode (x va i) (x vb i)) ∧
    rounded (exec (.vfsub c m t rm false vd va vb) s) (fun i => FVal.add mode (x va i) (x vb i).neg) ∧
    rounded (exec (.vfmul c m t rm false vd va vb) s) (fun i => FVal.mul (x va i) (x vb i)) ∧
    rounded (exec (.vfma c m t rm false vd va vb vc) s) (fun i => FVal.fma mode (x va i) (x vb i) (x vc i)) ∧
    rounded (exec (.vfdiv c m t rm vd va vb) s) (fun i => FVal.div (x va i) (x vb i)) ∧
    rounded (exec (.vfsqrt c m t rm vd va) s) (fun i => FVal.sqrt (x va i)) ∧
    wide (exec (.vfadd c m t rm true vd va vb) s) (fun i => FVal.add mode (x va i) (x vb i)) ∧
    wide (exec (.vfsub c m t rm true vd va vb) s) (fun i => FVal.add mode (x va i) (x vb i).neg) ∧
    wide (exec (.vfmul c m t rm true vd va vb) s) (fun i => FVal.mul (x va i) (x vb i)) ∧
    wide (exec (.vfma c m t rm true vd va vb vc) s) (fun i => FVal.fma mode (x va i) (x vb i) (xw vc i)) ∧
    is (exec (.vfmin c m t vd va vb) s) (fun i => t.fmt.write fz (FVal.pick false (x va i) (x vb i))) ∧
    is (exec (.vfmax c m t vd va vb) s) (fun i => t.fmt.write fz (FVal.pick true (x va i) (x vb i))) ∧
    signed (exec (.vfabs c m t vd va) s) (fun b => b % 2 ^ (w - 1)) ∧
    signed (exec (.vfneg c m t vd va) s) (fun b => b ^^^ 2 ^ (w - 1)) ∧
    (featureHeld (t == .f64) s →
      let y (i : Nat) : Bool × Flags := FVal.compare cond (x va i) (x vb i)
      flagsThen c w m.mask (fun i => (0, (y i).2)) id s (exec (.vfcmp c m t cond pd va vb) s) fun f =>
        ∃ p, f = (fun v => setP v pd p) ∧ predBecomes s w m pd p fun i => (y i).1)

/-- R306, R74: a special function joins the queue of its cluster's unit, where the hart has less than eight requests and the
queue less than 64, and else waits at issue; once the unit's result has returned it writes its correctly rounded lanes; the
values at the special inputs are those of R306. -/
def Obligations.SpecialFunctionsWriteTheirLanes : Prop :=
  (∀ (c : Ctl) (m : VMask) (rm : RMode) (vd va : VReg) (s : State), guarded c s →
    let cl := clusterOf s.curId
    let q := (getCluster s cl).sfuQ
    let room : Prop := (q.filter (· == s.curId)).length < 8 ∧ q.length < 64
    let a := s.cur.arch
    let is (o : Out) (f : FVal → FVal × Flags) : Prop :=
      (s.cur.sfu = some true → writesFpLanes c m 32 vd id s o fun i =>
        fmtF32.finish (rm.resolve a.fcsr) (fzOf a) false (f (fmtF32.read (fzOf a) (lane 32 (vOf s va) i)))) ∧
      (s.cur.sfu = none → room → ∃ t, o = .next (stallOn .sfu t) ∧ t.cur.sfu = some false ∧ t.cur.arch = a ∧
        t.clusters = tabMod Cluster.reset s.clusters cl fun k => { k with sfuQ := k.sfuQ ++ [s.curId] }) ∧
      (s.cur.sfu = none → ¬ room → o = .next (stallOn .commit (openChunk s)))
    is (exec (.vrcp c m rm vd va) s) spRcp ∧ is (exec (.vrsqrt c m rm vd va) s) spRsqrt ∧
    is (exec (.vexp2 c m rm vd va) s) spExp2 ∧ is (exec (.vlog2 c m rm vd va) s) spLog2 ∧
    is (exec (.vsin c m rm vd va) s) spSin ∧ is (exec (.vcos c m rm vd va) s) spCos ∧
    is (exec (.vtanh c m rm vd va) s) spTanh) ∧
  (∀ (neg : Bool) (e : Int) (m : Nat), 0 < m →
    let zero : FVal := .fin neg 0 e
    let nan : FVal × Flags := (.nan false, flNV)
    spRcp zero = (.inf neg, flDZ) ∧ (spRcp (.inf neg)).1 = .fin neg 0 0 ∧
    spRsqrt zero = (.inf neg, flDZ) ∧ spRsqrt (.fin true m e) = nan ∧ spRsqrt (.inf false) = (.fin false 0 0, 0) ∧
    spExp2 (.inf true) = (.fin false 0 0, 0) ∧ spExp2 (.inf false) = (.inf false, 0) ∧
    spLog2 zero = (.inf true, flDZ) ∧ spLog2 (.fin true m e) = nan ∧ spLog2 (.inf false) = (.inf false, 0) ∧
    (spLog2 (.fin false 1 0)).1 = .fin false 0 0 ∧
    spSin (.inf neg) = nan ∧ spSin zero = (.fin neg 0 0, 0) ∧
    spCos (.inf neg) = nan ∧ spCos zero = (FVal.one, 0) ∧
    spTanh (.inf neg) = (.fin neg 1 0, 0) ∧ spTanh zero = (.fin neg 0 0, 0)) ∧
  (∀ (sig : Bool) (f : FVal → FVal × Flags), f ∈ [spRcp, spRsqrt, spExp2, spLog2, spSin, spCos, spTanh] →
    f (.nan sig) = (.nan false, if sig then flNV else 0))

/-- R308 to R311: conversions between types of one width, widening into a group, narrowing out of a group, and packing.
For a lane from n4 to e5m2 that e5m2 does not hold, the result is a free value (assumption log, entry 24) and nothing is
said of it. -/
def Obligations.VectorConversionsActLaneByLane : Prop :=
  ∀ (c : Ctl) (m : VMask) (t src : VType) (rm : RMode) (f b : BitVec 4) (q : BitVec 3) (vd va vb : VReg) (s : State),
    guarded c s → featureHeld (t == .f64 || src == .f64) s →
    let w := t.width
    let ws := src.width
    let fz := fzOf s.cur.arch
    let sat := sat8Of s.cur.arch
    let int (k : Nat) (sg : Bool) (x : Nat) : Int := if sg then (x : Int).bmod (2 ^ k) else x
    let low (k : Nat) (x : Int) : Nat := (x % 2 ^ k).toNat
    let srcBits (i : Nat) : Nat := lane ws (vOf s va) i
    let n := w / ws
    let e := ws / w
    let wideBits (i : Nat) : Nat := lane ws (vOf s (va + BitVec.ofNat 5 (i % e))) (i / e)
    writesFpLanes c m w vd id s (exec (.vcvt c m t rm src vd va) s)
      (fun i => convert t src (rm.resolve s.cur.arch.fcsr) fz sat (srcBits i)) ∧
    (ws < w → t.isInt = true → ∃ x : Nat → Vec,
      exec (.vwiden c m t src vd va) s = retires c s (fun u => setGroup n vd x (raiseFlags 0 u)) ∧
      groupBecomes s w ws n m vd x fun i => low w (int ws src.isSigned (srcBits i))) ∧
    (ws < w → t.isInt = false → ¬ (t = .e5m2 ∧ src = .n4) →
      let y (i : Nat) : Nat × Flags := convert t src .rne false sat (flushCode src fz (srcBits i))
      flagsThen c ws m.mask y id s (exec (.vwiden c m t src vd va) s) fun g =>
        ∃ x : Nat → Vec, g = setGroup n vd x ∧ groupBecomes s w ws n m vd x fun i => (y i).1) ∧
    (∃ x : Nat → Vec,
      exec (.vwiden c m .e5m2 .n4 vd va) s = retires c s (fun u => spend (setGroup 2 vd x (raiseFlags 0 u)) 128) ∧
      ∀ i, i < 128 → laneOn s 4 m.mask i = true →
        let y := convert .e5m2 .n4 .rne false sat (lane 4 (vOf s va) i)
        y.2 = 0 → lane 8 (x (i % 2)) (i / 2) = y.1 % 256) ∧
    (t.isInt = true → src.isInt = true →
      let lo : Int := if t.isSigned then -2 ^ (w - 1) else 0
      let hi : Int := if t.isSigned then 2 ^ (w - 1) - 1 else 2 ^ w - 1
      let z (i : Nat) : Int := int ws src.isSigned (wideBits i)
      let out (i : Nat) : Prop := f.getLsbD 3 = false ∧ (z i < lo ∨ hi < z i)
      let o := exec (.vnarrow c m t f src vd va) s
      ∃ x, lanesBecome s w m vd x
          (fun i => low w (if f.getLsbD 3 then z i else if z i < lo then lo else if hi < z i then hi else z i)) ∧
        ((∃ i, i < 512 / w ∧ laneOn s w m.mask i = true ∧ out i) →
          o = retires c s fun u => updArch (setV u vd x) fun a => { a with vcsr := a.vcsr ||| 2 }) ∧
        ((∀ i, i < 512 / w → laneOn s w m.mask i = true → ¬ out i) → o = writesV c s vd x)) ∧
    (¬ (t.isInt = true ∧ src.isInt = true) →
      writesFpLanes c m w vd id s (exec (.vnarrow c m t f src vd va) s) fun i =>
        convert t src (((RMode.ofCode (f.setWidth 3)).getD .dyn).resolve s.cur.arch.fcsr) fz sat (wideBits i)) ∧
    (let k := 2 ^ (b.setWidth 2).toNat
     ∃ x, exec (.vpack c t (b.setWidth 2) vd va vb) s = writesV c s vd x ∧
       ∀ i, i < 512 / k → lane k x i =
         if i < 64 then lane 8 (vOf s va) i % 2 ^ k else if i < 128 then lane 8 (vOf s vb) (i - 64) % 2 ^ k else 0) ∧
    (w = 8 → let k := 2 ^ (b.setWidth 2).toNat
     writesLanes c m 8 vd s (exec (.vunpack c m t (b.setWidth 2) q vd va) s) fun i =>
       low 8 (int k t.isSigned (lane k (vOf s va) (64 * q.toNat + i))))

/-- R312 to R314: reductions leave their result in lane 0 and zeros in the others; an ordered floating-point sum rounds
after every addition; a scan writes the running results. -/
def Obligations.ReductionsAndScansWriteTheirResult : Prop :=
  ∀ (c : Ctl) (m : VMask) (pm : PReg) (t src : VType) (rm : RMode) (vd va vi : VReg) (s : State), guarded c s →
    let w := t.width
    let fz := fzOf s.cur.arch
    let mode := rm.resolve s.cur.arch.fcsr
    let int (y : VType) (r : VReg) (i : Nat) : Int :=
      if y.isSigned then ((lane y.width (vOf s r) i : Nat) : Int).bmod (2 ^ y.width) else lane y.width (vOf s r) i
    let val (y : VType) (r : VReg) (i : Nat) : FVal := y.fmt.read fz (lane y.width (vOf s r) i)
    let on (y : VType) : List Nat := (List.range (512 / y.width)).filter (laneOn s y.width pm)
    let first (x : Vec) (y : Nat) : Prop := ∀ i, i < 512 / w → lane w x i = if i = 0 then y % 2 ^ w else 0
    let is (o : Out) (z : Int) : Prop := ∃ x, o = writesV c s vd x ∧ first x (z % 2 ^ w).toNat
    let flt (o : Out) (r : Nat × Flags) : Prop :=
      (quietFlags s r.2 → ∃ x, o = retires c s (fun u => setV (raiseFlags r.2 u) vd x) ∧ first x r.1) ∧
      (¬ quietFlags s r.2 → o = traps (openChunk s) (openChunk s) 0x0F (r.2.setWidth 64) 0)
    is (exec (.vredadd c pm t src vd va vi) s) (int t vi 0 + ((on src).map (int src va)).sum) ∧
    is (exec (.vredmin c pm t vd va vi) s) ((on t).foldl (fun y i => Min.min y (int t va i)) (int t vi 0)) ∧
    is (exec (.vredmax c pm t vd va vi) s) ((on t).foldl (fun y i => Max.max y (int t va i)) (int t vi 0)) ∧
    (featureHeld (t == .f64 || src == .f64) s → flt (exec (.vfredadd c pm t rm src vd va vi) s)
      (t.fmt.write fz ((on src).foldl (fun acc i => sumStep t mode acc (val src va i)) (val t vi 0, 0)))) ∧
    (featureHeld (t == .f64) s → flt (exec (.vfredmax c pm t vd va vi) s)
      (t.fmt.write fz ((on t).foldl (fun acc i =>
        ((FVal.pick true acc.1 (val t va i)).1, acc.2 ||| (FVal.pick true acc.1 (val t va i)).2)) (val t vi 0, 0)))) ∧
    (t.isInt = true → writesLanes c m w vd s (exec (.vscan c m t rm vd va vi) s) fun i =>
      ((int t vi 0 + (((List.range (i + 1)).filter (laneOn s w m.mask)).map (int t va)).sum) % 2 ^ w).toNat) ∧
    (t.isInt = false → featureHeld (t == .f64) s → ∀ acc : Nat → FVal × Flags, acc 0 = (val t vi 0, 0) →
      (∀ i, acc (i + 1) =
        if laneOn s w m.mask i then sumStep t mode ((acc i).1, 0) (val t va i) else ((acc i).1, 0)) →
      writesFpLanes c m w vd id s (exec (.vscan c m t rm vd va vi) s) fun i => t.fmt.write fz (acc (i + 1)))

/-- R315 to R322: permutations, insertion and extraction, dot products, histograms and sorting. -/
def Obligations.VectorRearrangementsWriteTheirResult : Prop :=
  ∀ (c : Ctl) (m : VMask) (pm : PReg) (t src : VType) (flag : Bool) (vd va vb vi vg : VReg) (ra rd : GReg) (n : BitVec 6)
    (q : BitVec 5) (s : State), guarded c s →
    let w := t.width
    let lanes := 512 / w
    let bits (r : VReg) (i : Nat) : Nat := lane w (vOf s r) i
    let int (y : VType) (r : VReg) (i : Nat) : Int :=
      if y.isSigned then ((lane y.width (vOf s r) i : Nat) : Int).bmod (2 ^ y.width) else lane y.width (vOf s r) i
    let both (j : Nat) : Nat := if j < lanes then bits va j else bits vb (j - lanes)
    let on : List Nat := (List.range lanes).filter (laneOn s w m.mask)
    let is (o : Out) (f : Nat → Nat) : Prop := writesLanes c m w vd s o f
    let low (x : Int) : Nat := (x % 2 ^ w).toNat
    let front (x : Vec) (l : List Nat) (old : Vec) : Prop := ∀ i, i < lanes → lane w x i =
      if i < l.length then l.getD i 0 % 2 ^ w else if m.zm then 0 else lane w old i
    is (exec (.vperm c m t vd va vb vi) s) (fun i => both (bits vi i % (2 * lanes))) ∧
    is (exec (.vslide c m t vd va vb n) s) (fun i => both (i + n.toNat)) ∧
    is (exec (.vrot c m t vd va n) s) (fun i => bits va ((i + n.toNat) % lanes)) ∧
    is (exec (.vzip c m t flag vd va vb) s)
      (fun i => bits (if i % 2 = 0 then va else vb) (if flag then lanes / 2 + i / 2 else i / 2)) ∧
    is (exec (.vunzip c m t flag vd va vb) s) (fun i => both (if flag then 2 * i + 1 else 2 * i)) ∧
    (∃ x, exec (.vcompress c m t vd va) s = writesV c s vd x ∧ front x (on.map (bits va)) (vOf s vd)) ∧
    is (exec (.vexpand c m t vd va) s) (fun i => bits va ((List.range i).countP (laneOn s w m.mask))) ∧
    is (exec (.vbcast c m t true vd ra n) s) (fun _ => (gOf s ra).toNat) ∧
    is (exec (.vbcast c m t false vd ra n) s) (fun _ => bits (ra.setWidth 5) n.toNat) ∧
    (∃ x, exec (.vins c t vd ra n) s = writesV c s vd x ∧
      ∀ i, i < lanes → lane w x i = if i = n.toNat then (gOf s ra).toNat % 2 ^ w else bits vd i) ∧
    (8 ≤ w → exec (.vext c t rd va n) s = writesG c s rd (BitVec.ofInt 64 (int t va n.toNat))) ∧
    is (exec (.vdot4 c m t src false vd va vb) s)
      (fun i => low (int t vd i + ((List.range 4).map fun k => int src va (4 * i + k) * int src vb (4 * i + k)).sum)) ∧
    is (exec (.vdot4 c m t src true vd va vb) s) (fun i => low (int t vd i + ((List.range 4).map fun k =>
      int src va (4 * i + k) * int (match src with | .i8 => .n8 | .i16 => .n16 | y => y) vb (4 * i + k)).sum)) ∧
    (let old (l b : Nat) : Nat := lane 8 (vOf s (vg + BitVec.ofNat 5 ((16 * l + b) / 64))) ((16 * l + b) % 64)
     let hit (l b : Nat) : Bool := laneOn s 32 pm l && decide (lane 32 (vOf s va) l / 2 ^ q.toNat % 16 = b)
     (∃ x : Nat → Vec,
        (∀ l b, l < 16 → b < 16 → lane 8 (x ((16 * l + b) / 64)) ((16 * l + b) % 64) =
          if hit l b then (if old l b = 255 then 255 else old l b + 1) else old l b) ∧
        ((∃ l b, l < 16 ∧ b < 16 ∧ hit l b = true ∧ old l b = 255) → exec (.vhist c pm t q vg va) s =
          retires c s fun u => updArch (setGroup 4 vg x u) fun a => { a with vcsr := a.vcsr ||| 2 }) ∧
        ((∀ l b, l < 16 → b < 16 → hit l b = true → old l b ≠ 255) →
          exec (.vhist c pm t q vg va) s = retires c s (setGroup 4 vg x))) ∧
     writesLanes c m 32 vd s (exec (.vhmerge c m flag vd vg) s) fun b =>
       ((List.range 16).map fun l => old l b).sum + if flag then lane 32 (vOf s vd) b else 0) ∧
    (∃ (l : List Nat) (x y : Vec), exec (.vsortk c m t flag vd va vi) s = retires c s (fun u => setV (setV u vd x) vi y) ∧
      l.Perm on ∧ l.Pairwise (fun i j => (if flag then int t va j < int t va i else int t va i < int t va j) ∨
        (int t va i = int t va j ∧ i < j)) ∧
      front x (l.map fun i => low (int t va i)) (vOf s vd) ∧ front y l (if vi = vd then x else vOf s vi))

/-! ## Tile instructions -/

/-- R54, R58, R59, R62, R327 to R329, R339, R340: configuration maps a handle to a tile of zeros, or traps with BUSY where the
handle is in use and with FULL where the pool has no room beside the mappings of the cluster and those given up that
operations still work on; release unmaps it; tzero clears it; tinfo describes it; tmov
copies it. -/
def Obligations.TileHandlesAreConfiguredAndReleased : Prop :=
  ∀ (c : Ctl) (h ha : THandle) (rd : GReg) (rows1 : BitVec 6) (rb : BitVec 2) (f : TFmt) (desc : Bool) (s : State),
    guarded c s →
    let o := openChunk s
    let cl := clusterOf s.curId
    let key := 8 * s.cur.arch.asid + (h.toNat - 16)
    let x := Tile.blank (rows1.toNat + 1) (64 * (rb.toNat + 1)) f desc
    let cfg (force : Bool) : Out := exec (.tcfg c h rows1 rb f desc force) s
    let busy : Bool := (liveOps o cl).any (fun p => p.hart == s.curId) || (!h.priv && inUse o h)
    let kept (force : Bool) : List (Nat × Option Tile) := if force then [] else s.cur.arch.tiles
    let mapped (force : Bool) : Arch := { s.cur.arch with
      tiles := tabPut none (kept force) h.toNat (some x), phys := tabPut 0 s.cur.arch.phys h.toNat s.nextPhys }
    let fits (force : Bool) : Prop :=
      (archUse o s.curId (mapped force)).1 + (othersUse o cl).1 ≤ 8192 ∧
      (archUse o s.curId (mapped force)).2 + (othersUse o cl).2 ≤ 640
    let steps (e : Out) (x : Option Tile) : Prop := ∃ t ver, e = .next (retire c t) ∧ t.cur.arch = s.cur.arch ∧
      CommitOp.shStep cl key ver x ∈ t.cur.chunk.ops
    (inUse o h = true → cfg false = traps o o 0x0A (BitVec.ofNat 64 h.toNat) 0) ∧
    (busy = true → cfg true = .next (stallOn .commit o)) ∧
    (∀ force, (if force then busy else inUse o h) = false → h.priv = true →
      (fits force → ∃ t, cfg force = .next (retire c t) ∧ t.cur.arch = mapped force ∧ t.nextPhys = s.nextPhys + 1) ∧
      (¬ fits force → cfg force = traps o o 0x0B (BitVec.ofNat 64 h.toNat) 0)) ∧
    (∀ force, (if force then busy else inUse o h) = false → h.priv = false →
      ((sharedUse o cl).1 + x.units ≤ 2048 → (sharedUse o cl).2 + 1 ≤ 128 → ∃ t ver, cfg force = .next (retire c t) ∧
        t.cur.arch = { s.cur.arch with tiles := kept force } ∧ CommitOp.shStep cl key ver (some x) ∈ t.cur.chunk.ops) ∧
      (2048 < (sharedUse o cl).1 + x.units ∨ 128 < (sharedUse o cl).2 + 1 →
        cfg force = traps o o 0x0B (BitVec.ofNat 64 h.toNat) 0)) ∧
    (∀ i j, i < x.rows → j < x.cols → (readElem f false (elemCode (x.row i) f.width j)).1.isZero = true) ∧
    (h.priv = true → ∃ t, exec (.trel c h) s = .next (retire c t) ∧
      t.cur.arch = { s.cur.arch with tiles := tabErase s.cur.arch.tiles h.toNat } ∧ (tabWf none s.cur.arch.tiles = true →
        ∀ k, tabGet none t.cur.arch.tiles k = if k = h.toNat then none else tabGet none s.cur.arch.tiles k)) ∧
    (h.priv = false → tileAt o h ≠ none → steps (exec (.trel c h) s) none) ∧
    (h.priv = false → tileAt o h = none → ∃ t, exec (.trel c h) s = .next (retire c t) ∧ t.cur.arch = s.cur.arch) ∧
    (∃ t w, exec (.tinfo c rd h) s = .next (retire c (setG t rd w)) ∧ t.cur.arch = s.cur.arch ∧
      (tileAt o h = none → w = 0) ∧
      ∀ y, tileAt o h = some y → 1 ≤ y.rows → y.rows ≤ 64 → y.rb ∈ [64, 128, 192, 256] →
        field 5 0 w = y.rows - 1 ∧ field 7 6 w = y.rb / 64 - 1 ∧ field 11 8 w = y.fmt.code.toNat ∧
        w.getLsbD 12 = y.desc ∧ w.getLsbD 13 = !h.priv ∧ w.getLsbD 14 = y.poison ∧ w.getLsbD 15 = true ∧
        field 23 16 w = (if y.desc then 0x7F else y.scale.toNat)) ∧
    (∀ y, tileAt o h = some y → renames o h y.units →
      (∃ t, exec (.tzero c h) s = .next (retire c t) ∧ tileBecomes s t h (Tile.blank y.rows y.rb y.fmt y.desc) 0) ∧
      (∀ z, tileAt o ha = some z → z.rows = y.rows → z.rb = y.rb → z.desc = y.desc → z.poison = false →
        ∃ t, exec (.tmov c h ha) s = .next (retire c t) ∧ tileBecomes s t h z 0)) ∧
    (tileAt o h = none → exec (.tzero c h) s = traps o o 0x08 (BitVec.ofNat 64 h.toNat) 0)

/-- R330 to R334: a tile load that reads all its rows leaves them in the handle, row i from the base plus i times the stride,
and zeros in the rows after them; a tile store writes the rows of the tile at the same addresses. A fault at a row keeps the
rows before it, in the destination or in memory, and says so in htrow; the instruction that resumes there starts at that row,
and a load leaves what an uninterrupted one leaves. A faulting load with a shared destination leaves the handle unchanged. -/
def Obligations.TileLoadsAndStoresMoveRows : Prop :=
  ∀ (c : Ctl) (h : THandle) (rb rs rdsc rc : GReg) (f : TFmt) (chk : Bool) (scale : BitVec 8) (s v u : State) (t : Tile)
    (vs : List Nat) (xs : List (List Acc)), guarded c s → tileAt (openChunk s) h = some t →
    (chk = true → t.fmt = f) →
    let n := if rc = 0 then t.rows else Nat.min (gOf s rc).toNat t.rows
    let restart := if s.cur.arch.resume = true ∧ s.cur.arch.htrow.getLsbD 7 = true then field 6 0 s.cur.arch.htrow else 0
    let addr (i : Nat) : Word := gOf s rb + BitVec.ofNat 64 i * gOf s rs
    let row (d : Bool) (i : Nat) : List (Word × Nat) :=
      (addr i, t.rb) :: if d then [(gOf s rdsc + BitVec.ofNat 64 (2 * t.blocks * i), 2 * t.blocks)] else []
    let rows (d : Bool) (start : Nat) : List (List (Word × Nat)) := ((List.range (n - start)).map (· + start)).map (row d)
    let descs (v : Nat) : List Nat := (List.range t.blocks).map fun j => v / 2 ^ (8 * t.rb + 16 * j) % 2 ^ 16
    let blank := Tile.blank t.rows t.rb t.fmt t.desc
    let full (d : Bool) (old : Tile) (start : Nat) (vs : List Nat) : Tile := { blank with
      scale := if d then 0x7F else scale
      data := old.data.take start ++ vs.map (fun v => BitVec.ofNat 2048 (v % 2 ^ (8 * t.rb))) ++ blank.data.drop (start + vs.length)
      descs := if d then old.descs.take (start * t.blocks) ++ vs.flatMap (fun v => (descs v).map (BitVec.ofNat 16)) ++
        blank.descs.drop ((start + vs.length) * t.blocks) else [] }
    let value (d : Bool) (i : Nat) : Nat :=
      (t.row i).toNat % 2 ^ (8 * t.rb) + if d then descNat t i * 2 ^ (8 * t.rb) else 0
    let loads (d : Bool) (o : Out) : Prop :=
      let start := if h.priv then Nat.min restart t.rows else 0
      ∀ e, renamed (noteShared (openChunk s) h false) h t.units .ok = .ok v →
      readRows v (fun y => if d && (descs y).any (badDesc t.fmt) then some ⟨0x09, BitVec.ofNat 64 h.toNat, 0⟩ else none)
        (rows d start) = (u, vs, e) →
      (e = .val () → o = .next (retire c (putTile u h (full d t start vs)))) ∧
      (∀ tr, e = .trap tr → o = if h.priv
        then traps (openChunk s) (putTile u h { full d t start vs with poison := t.poison }) tr.code tr.tval
          (BitVec.ofNat 64 (0x80 + (start + vs.length)))
        else traps (openChunk s) u tr.code tr.tval (BitVec.ofNat 64 (start + vs.length)))
    let stores (d : Bool) (o : Out) : Prop :=
      let start := Nat.min restart n
      ∀ e, t.poison = false →
      checkRows (noteShared (openChunk s) h true) (splitAll (rows d start).flatten) (rows d start) = (u, xs, e) →
      let vals := ((List.range (n - start)).map (· + start)).map (value d)
      let l := ((xs.zip ((rows d start).zip vals)).map fun r => layPieces r.1 (splitAll r.2.1) r.2.2).flatten
      roomFor u true (coherentLines (l.map (·.1))) = .free → (∀ p ∈ l, p.1.pa % 128 + p.2.1 ≤ 128) →
      e = .val () ∨ (∃ tr, e = .trap tr) → ∃ w, wrotePieces u w l ∧ (e = .val () → o = .next (retire c w)) ∧
        ∀ tr, e = .trap tr → o = traps (openChunk s) w tr.code tr.tval (BitVec.ofNat 64 (0x80 + (start + xs.length)))
    (∀ d l1 l2, l1.length + l2.length ≤ t.rows → full d (full d t 0 l1) l1.length l2 = full d t 0 (l1 ++ l2)) ∧
    ((∀ i, i < n → (addr i).toNat % 64 = 0) →
      (t.desc = false → loads false (exec (.tld c h rb rs f chk rc scale) s)) ∧
      (t.desc = false → stores false (exec (.tst c h rb rs f chk rc) s)) ∧
      (t.desc = true → (gOf s rdsc).getLsbD 0 = false → loads true (exec (.tldd c h rb rs rdsc rc f chk) s)) ∧
      (t.desc = true → (gOf s rdsc).getLsbD 0 = false → stores true (exec (.tstd c h rb rs rdsc rc f chk) s)))

/-- R335 to R341, R191, R192: a multiply leaves in each element of the accumulator tile the rounded sums of its four
blocks; the triangle form keeps the elements of a sub-tile wholly above the diagonal, and fills those above it in the others;
the element-wise operations leave the rounded sum, product or conversion of each element; ttrans exchanges rows and columns;
the operations queue for the engines. A result with an enabled flag writes nothing and traps with FP_EXC (R184); a format or
shape that the instruction does not allow traps with TILE_SHAPE, which names the handle. -/
def Obligations.TileArithmeticWritesItsElements : Prop :=
  ∀ (c : Ctl) (hd ha hb : THandle) (rs : GReg) (fill : FillCode) (diag : BitVec 8) (m : RMode) (sat : Bool) (s : State)
    (d a b : Tile), guarded c s → renames (openChunk s) hd d.units → dispatches s →
    tileAt (openChunk s) hd = some d → tileAt (openChunk s) ha = some a → tileAt (openChunk s) hb = some b →
    d.poison = false → a.poison = false → b.poison = false →
    let fz := fzOf s.cur.arch
    let mode := m.resolve s.cur.arch.fcsr
    let faults (o : Out) (code : Nat) (tval : Word) : Prop := ∃ t, t.cur.arch = s.cur.arch ∧ o = traps (openChunk s) t code tval 0
    let misshapen (o : Out) (h : THandle) : Prop := faults o 0x09 (BitVec.ofNat 64 h.toNat)
    let leaves (o : Out) (x : Tile) (fl : Flags) : Prop :=
      (quietFlags s fl → ∃ t, o = retiresInEngine c s t ∧ tileBecomes s t hd x fl) ∧
      (¬ quietFlags s fl → faults o 0x0F (fl.setWidth 64))
    let cells (r : Tile × Flags) (f : TFmt) (g : Nat → Nat → Nat × Flags) : Prop :=
      r.1.rows = d.rows ∧ r.1.rb = d.rb ∧ r.1.fmt = f ∧
      (∀ i j, i < d.rows → j < 8 * d.rb / f.width → elemCode (r.1.row i) f.width j = (g i j).1 % 2 ^ f.width) ∧
      ∀ k, k < 5 → (r.2.getLsbD k = true ↔ ∃ i j, i < d.rows ∧ j < 8 * d.rb / f.width ∧ (g i j).2.getLsbD k = true)
    let isF32 (t : Tile) : Prop := t.fmt = .fp32 ∧ t.desc = false
    let multiplies (o : Out) (dg : Option Int) (v : Nat) : Prop :=
      let skips (i j : Nat) : Bool := dg.any fun n => decide (n < 16 * (j / 16 : Nat) - (16 * (i / 16 : Nat) + 15 : Int))
      let fills (i j : Nat) : Bool := dg.any fun n => decide (n < (j : Int) - i)
      (¬ isF32 d → misshapen o hd) ∧ (isF32 d → (tileCycles a b).isNone = true → misshapen o ha) ∧
      (isF32 d → (tileCycles a b).isSome = true →
        (∀ n, dg = some n → n ≤ -64 → leaves o d 0) ∧
        (d.rb ≤ 256 → (∀ n, dg = some n → -64 < n) → ∃ (r : Tile × Flags) (free : Nat → Nat → Nat),
          r.1.scale = 0x7F ∧ leaves o r.1 r.2 ∧ cells r .fp32 fun i j =>
            if skips i j then (if d.scale = 0x7F then elemCode (d.row i) 32 j else keptCode d (free i j) i j, 0)
            else if fills i j then (v, 0)
            else
              let k := groupLen a b
              dotElem fz (accStart d fz i j) ((List.range 4).map (groupElems a fz k i)) ((List.range 4).map (groupElems b fz k j))))
    let v := match fill with
      | .posZero => 0 | .negInf => 0xFF800000 | .posInf => 0x7F800000 | .reg => (gOf s rs).toNat % 2 ^ 32
    multiplies (exec (.tmma c hd ha hb) s) none 0 ∧
    multiplies (exec (.tmmat c hd ha hb rs fill diag) s) (some diag.toInt) v ∧
    (let o := exec (.tadd c hd ha hb m) s
     let same : Prop := a.rows = d.rows ∧ a.rb = d.rb ∧ b.rows = d.rows ∧ b.rb = d.rb
     (¬ isF32 d → misshapen o hd) ∧ (isF32 d → a.fmt ≠ .fp32 → misshapen o ha) ∧
     (isF32 d → a.fmt = .fp32 → b.fmt ≠ .fp32 → misshapen o hb) ∧
     (isF32 d → a.fmt = .fp32 → b.fmt = .fp32 → ¬ same → misshapen o hd)) ∧
    (let o := exec (.tscale c hd ha rs m) s
     (¬ isF32 d → misshapen o hd) ∧ (isF32 d → a.fmt ≠ .fp32 → misshapen o ha) ∧
     (isF32 d → a.fmt = .fp32 → ¬ (a.rows = d.rows ∧ a.rb = d.rb) → misshapen o hd)) ∧
    (¬ (d.desc = false ∧ a.rows = d.rows ∧ a.cols = d.cols) → misshapen (exec (.tcvt c hd ha m sat) s) hd) ∧
    (let o := exec (.ttrans c hd ha) s
     (d.desc = true → misshapen o hd) ∧ (d.desc = false → a.desc = true ∨ a.fmt.width < 8 → misshapen o ha) ∧
     (d.desc = false → a.desc = false → 8 ≤ a.fmt.width → ¬ (a.fmt = d.fmt ∧ a.cols = d.rows ∧ a.rows = d.cols) →
       misshapen o hd)) ∧
    (isF32 d → a.fmt = .fp32 → b.fmt = .fp32 → a.rows = d.rows → a.rb = d.rb → b.rows = d.rows → b.rb = d.rb →
      d.rb ≤ 256 → ∃ r : Tile × Flags, leaves (exec (.tadd c hd ha hb m) s) r.1 r.2 ∧ cells r .fp32 fun i j =>
        toF32 mode fz ((FVal.add mode (a.elem fz i j).1 (b.elem fz i j).1).1,
          (a.elem fz i j).2 ||| (b.elem fz i j).2 ||| (FVal.add mode (a.elem fz i j).1 (b.elem fz i j).1).2)) ∧
    (isF32 d → a.fmt = .fp32 → a.rows = d.rows → a.rb = d.rb → d.rb ≤ 256 →
      ∃ r : Tile × Flags, leaves (exec (.tscale c hd ha rs m) s) r.1 r.2 ∧ cells r .fp32 fun i j =>
        let p := FVal.mul (a.elem fz i j).1 (fmtF32.read fz ((gOf s rs).toNat % 2 ^ 32))
        toF32 mode fz (p.1, (a.elem fz i j).2 ||| p.2)) ∧
    (d.desc = false → a.rows = d.rows → a.cols = d.cols → d.rb ≤ 256 →
      ∃ r : Tile × Flags, leaves (exec (.tcvt c hd ha m sat) s) r.1 r.2 ∧ r.1.scale = 0x7F ∧ cells r d.fmt fun i j =>
        let v := a.elem (fz && !narrowFloat d.fmt) i j
        let y := d.fmt.num.conv mode sat v.1
        match d.fmt.num with
        | .flt g => let z := g.flushOut fz (g.decode y.1); (g.encode z.1, v.2 ||| y.2 ||| z.2)
        | _ => (y.1, v.2 ||| y.2)) ∧
    (d.desc = false → a.desc = false → 8 ≤ a.fmt.width → a.fmt = d.fmt → a.cols = d.rows → a.rows = d.cols → d.rb ≤ 256 →
      ∃ x : Tile, leaves (exec (.ttrans c hd ha) s) x 0 ∧ x.scale = a.scale ∧
        cells (x, 0) d.fmt fun i j => (elemCode (a.row j) d.fmt.width i, 0))

/-- R340, R341, R344 to R346, R196: rows of a tile move to and from vector registers; a reduction writes its 64 lanes; the
residue registers are cleared, read and written; the save area holds what tinfo tells, the rows and the descriptors, and
a restore takes a tile from there. A lane of a maximum that FP32 does not hold is a free value (assumption log,
entry 30). -/
def Obligations.TileRowsAndResiduesMove : Prop :=
  ∀ (c : Ctl) (h : THandle) (v : VReg) (ri rb : GReg) (i : BitVec 6) (q : QReg) (mask : BitVec 8) (m : RMode)
    (col : Bool) (s : State), guarded c s →
    let o := openChunk s
    let lanes64 (x : Nat → Vec) (f : Nat → Nat) : Prop := ∀ k, k < 64 → lane 32 (x (k / 16)) (k % 16) = f k % 2 ^ 32
    (∀ t, tileAt o h = some t → t.poison = false →
      let fz := fzOf s.cur.arch
      (let row (e : Bool → Out) (n : Nat) : Prop := n < t.rows → v.toNat + t.blocks ≤ 32 →
          (∃ u, e true = .next (retire c (setGroup t.blocks v (fun k => (t.row n).extractLsb' (512 * k) 512) u)) ∧
            u = { o with cur := { o.cur with chunk := u.cur.chunk } }) ∧
          (renames o h t.units → t.blocks ≤ 4 → ∃ u x, e false = .next (retire c u) ∧
            tileBecomes s u h { t with data := t.data.set n x } 0 ∧
            ∀ k, k < t.blocks → x.extractLsb' (512 * k) 512 = vOf s (v + BitVec.ofNat 5 k))
       row (fun b => exec (.trow c h v ri b) s) (gOf s ri).toNat ∧ row (fun b => exec (.trowi c h v i b) s) i.toNat) ∧
      (t.fmt = .fp32 → dispatches s → ∀ mx, ∃ (l : Nat → Nat × Flags) (fl : Flags) (x : Nat → Vec),
        (∀ k, k < 5 → (fl.getLsbD k = true ↔ ∃ n, n < 64 ∧ (l n).2.getLsbD k = true)) ∧ lanes64 x (fun k => (l k).1) ∧
        (∀ k, k < 64 →
          let line : List (FVal × Flags) := if col then (List.range t.rows).map fun i => t.elem fz i k
            else (List.range t.cols).map fun j => t.elem fz k j
          if k < (if col then t.cols else t.rows) then
            (mx = false → l k = sumElems (m.resolve s.cur.arch.fcsr) fz line) ∧
            (∀ r : FVal × Flags, mx = true → r = line.foldl (fun (acc y : FVal × Flags) =>
                ((FVal.pick true acc.1 y.1).1, acc.2 ||| (FVal.pick true acc.1 y.1).2 ||| y.2)) (FVal.inf true, 0) →
              (fmtF32.round .rne r.1).2 = 0 → l k = fmtF32.write fz r)
          else l k = (0, 0)) ∧
        (quietFlags s fl → ∃ u, exec (.tred c v h m mx col) s = retiresInEngine c s u ∧
          ∃ w, u.cur.arch = (setGroup 4 v x w).cur.arch ∧ w.cur.arch = (raiseFlags fl s).cur.arch))) ∧
    (∃ f, exec (.qcclr c mask) s = retires c s f ∧ ∀ r, rdQ (f o).cur.arch r =
      if mask.getLsbD r.toNat then ⟨0, false⟩ else rdQ s.cur.arch r) ∧
    ((rdQ s.cur.arch q).poison = false → exec (.qcrd c v q) s =
      retires c s (setGroup 4 v fun k => (rdQ s.cur.arch q).lanes.extractLsb' (512 * k) 512)) ∧
    ((rdQ s.cur.arch q).poison = true → exec (.qcrd c v q) s =
      traps o o 0x0E (BitVec.ofNat 64 (2 ^ 63 + 0x100 + q.toNat)) 0) ∧
    (∃ x, exec (.qcwr c v q) s = retires c s (fun u => updArch u fun a => wrQ a q ⟨x, false⟩) ∧
      ∀ k, k < 4 → x.extractLsb' (512 * k) 512 = vOf s (v + BitVec.ofNat 5 k)) ∧
    (∀ (u : State) (xs : List Acc), (gOf s rb).toNat % 64 = 0 →
      let t := tileAt o h
      let img : Nat × Nat := match t with | some x => saveImage h x | none => (0, 8)
      let ps := areaPieces (gOf s rb) img.2
      (t ≠ none → straddles s (gOf s rb) img.2 = false) →
      checkPieces (noteShared o h true) .tstore ps ps = (u, .val xs) →
      let l := layPieces xs ps img.1
      roomFor u true (coherentLines (l.map (·.1))) = .free →
      (∀ p ∈ l, p.1.pa % 128 + p.2.1 ≤ 128) →
      ∃ w, exec (.tsave c h rb) s = .next (retire c w) ∧ wrotePieces u w l) ∧
    (∀ (u : State) (w y : Nat), (gOf s rb).toNat % 64 = 0 → readArea o (gOf s rb) 64 = (u, .val w) →
      ((BitVec.ofNat 64 w).getLsbD 15 = false → exec (.trest c h rb) s = .next (retire c (release u h))) ∧
      (∀ u1, (BitVec.ofNat 64 w).getLsbD 15 = true → w < 2 ^ 24 →
        let t := headerTile (BitVec.ofNat 64 w)
        let n := t.rows * t.rb
        (∃ z, configure u h false t .ok = .ok z) → straddles u (gOf s rb) (64 + n + 2 * t.descs.length) = false →
        readArea u (gOf s rb + 64) (n + 2 * t.descs.length) = (u1, .val y) →
        let full : Tile := { t with
          data := (List.range t.rows).map fun i => BitVec.ofNat 2048 (y / 2 ^ (8 * t.rb * i) % 2 ^ (8 * t.rb))
          descs := (List.range t.descs.length).map fun j => BitVec.ofNat 16 (y / 2 ^ (8 * n + 16 * j)) }
        (∀ e ∈ full.descs, badDesc t.fmt e.toNat = false) → ∀ z, configure u1 h false full .ok = .ok z →
        exec (.trest c h rb) s = .next (retire c z)))

/-- R342, R343, R194 to R196: a quantising store that checks all its rows writes the quantised codes, with the scales where
they are automatic, and the residues to its residue register; a fault at a row keeps the rows before it and their residues,
and the instruction that resumes there goes on as an uninterrupted one. An element is rounded from the exact sum of its value
and the carried residue, and leaves the rounded difference; the automatic scale of a block is the smallest one that fits. -/
def Obligations.QuantisingStoreWritesRowsAndResidues : Prop :=
  ∀ (c : Ctl) (h : THandle) (rb rs re : GReg) (q : QReg) (auto col cont : Bool) (f : TFmt) (k : KFactor) (s u : State)
    (t : Tile) (xs : List (List Acc)) (e : Res Unit), guarded c s → tileAt (openChunk s) h = some t →
    t.fmt = .fp32 → t.poison = false → ¬ (cont = true ∧ (rdQ s.cur.arch q).poison = true) →
    let addr (i : Nat) : Word := gOf s rb + BitVec.ofNat 64 i * gOf s rs
    (∀ i, i < t.rows → (addr i).toNat % 4 = 0) → (auto = true → (gOf s re).getLsbD 0 = false) →
    let resumed := s.cur.arch.resume && s.cur.arch.htrow.getLsbD 7
    let start := if resumed then Nat.min (field 6 0 s.cur.arch.htrow) t.rows else 0
    let bytes := t.cols * f.width / 8
    let blocks := ceilDiv bytes 64
    let lanes := lanesOf (rdQ s.cur.arch q)
    let first := if col && !cont && !resumed then List.replicate t.cols 0 ++ lanes.drop t.cols else lanes
    let carry := if col then true else cont
    let out := quantRows t f col k auto ((gOf s re).toNat % 256) cont (t.rows - start) start carry first
    let rows := ((List.range (t.rows - start)).map (· + start)).map fun i =>
      (addr i, bytes) :: if auto then [(gOf s re + BitVec.ofNat 64 (2 * blocks * i), 2 * blocks)] else []
    let value (r : QuantRow) : Nat :=
      packNat f.width r.codes + if auto then packNat 16 (r.scales.map fun x => f.code.toNat + 256 * x) * 2 ^ (8 * bytes) else 0
    let o := exec (.tqst c h rb rs q auto re f col k cont) s
    (checkRows (noteShared (openChunk s) h true) (splitAll rows.flatten) rows = (u, xs, e) → u.cur.arch = s.cur.arch →
      e = .val () ∨ (∃ tr, e = .trap tr) →
      let done := out.take xs.length
      let fl := unionFlags (done.map (·.flags))
      let l := ((xs.zip (rows.zip (out.map value))).map fun r => layPieces r.1 (splitAll r.2.1) r.2.2).flatten
      (¬ quietFlags s fl → o = traps (openChunk s) u 0x0F (fl.setWidth 64) 0) ∧
      (quietFlags s fl → roomFor u true (coherentLines (l.map (·.1))) = .free → (∀ p ∈ l, p.1.pa % 128 + p.2.1 ≤ 128) →
        let after_ := match done.getLast? with | some r => r.lanes | none => first
        ∃ v w p, wrotePieces u v l ∧
          w = { v with cur := { v.cur with arch := wrQ (raiseFlags fl s).cur.arch q (ofLanes after_ p) } } ∧
          (e = .val () → o = .next (retire c w)) ∧
          ∀ tr, e = .trap tr → o = traps (openChunk s) w tr.code tr.tval (BitVec.ofNat 64 (0x80 + (start + xs.length))))) ∧
    (∀ n m i l, let x := quantRows t f col k auto ((gOf s re).toNat % 256) cont n i carry l
      quantRows t f col k auto ((gOf s re).toNat % 256) cont (n + m) i carry l =
        x ++ quantRows t f col k auto ((gOf s re).toNat % 256) cont m (i + n) carry
          (match x.getLast? with | some r => r.lanes | none => l)) ∧
    (∀ l p, l.length = 64 → (∀ y ∈ l, y < 2 ^ 32) → lanesOf (ofLanes l p) = l) ∧
    (let val (n : Bool) (m : Nat) (e : Int) : ℚ := (if n then -1 else 1) * m * (2 : ℚ) ^ e
     (∀ (sc r : Nat) (n1 n2 : Bool) (m1 m2 : Nat) (e1 e2 : Int), sc ≠ 0xFF → fmtF32.decode r = .fin n2 m2 e2 →
       let z := quantElem f k sc (.fin n1 m1 e1) r
       ∃ n m e, val n m e = val n1 m1 e1 + (match k with | .zero => 0 | .half => 1 / 2 | .one => 1) * val n2 m2 e2 ∧
         let v := (fmtF32.round .rne (.fin n m e)).1
         ((¬ ∃ n m e, v = .fin n m e) → z.1 = nanCode f ∧ z.2.1 = 0) ∧
         ∀ n3 m3 e3, v = .fin n3 m3 e3 → z.1 = (f.num.conv .rne true (.fin n3 m3 (e3 + 127 - sc))).1 ∧
           ∃ n4 m4 e4 n5 m5 e5, (readElem f false z.1).1 = .fin n4 m4 e4 ∧
             val n5 m5 e5 = val n3 m3 e3 - val n4 m4 e4 * 2 ^ ((sc : Int) - 127) ∧
             z.2.1 = fmtF32.encode (fmtF32.round .rne (.fin n5 m5 e5)).1) ∧
     (∀ x r, quantElem f k 0xFF x r = (nanCode f, r, 0)) ∧
     (∀ l : List FVal, (∃ x ∈ l, ¬ ∃ n m e, x = .fin n m e) → autoScale f l = (0xFF, flNV)) ∧
     (∀ l : List (Bool × Nat × Int), ∃ sc, autoScale f (l.map fun x => .fin x.1 x.2.1 x.2.2) = (sc, 0) ∧ sc ≤ 254 ∧
       ∀ n m e, maxMagnitude f = .fin n m e →
         (sc < 254 → ∀ x ∈ l, val false x.2.1 x.2.2 ≤ val n m e * 2 ^ ((sc : Int) - 127)) ∧
         (0 < sc → ∃ x ∈ l, val n m e * 2 ^ ((sc : Int) - 128) < val false x.2.1 x.2.2)) ∧
     (∃ m e, maxMagnitude f = .fin false m e ∧ ∀ y : ℚ, (match f with
       | .e4m3 => y = 448 | .e5m2 => y = 57344 | .e3m4 => y = 30 | .e2m1 => y = 6 | .dpt8 => y = 2 | .spt4 => y = 1 | .trn2 => y = 1
       | .int16 => y = 32767 | .int8 => y = 127 | .uint8 => y = 255 | .int4 => y = 7 | .uint4 => y = 15 | .int2 => y = 1
       | .fp32 | .bf16 | .fp16 => False) → val false m e = y))

/-- R4, R187, R192, R193, R257, R258, R260, R306: sums and products of finite values are exact before they are rounded, and
so is the sum of the products of a block of a tile multiply; a quotient, a square root and a reciprocal square root are exact,
or lie with the exact value between two consecutive numbers of at least 64 bits, so that both round alike; powers and
logarithms that are exact are. A conversion into a floating-point format holds the value rounded to the format's precision,
one into an integer format the rounded value, clipped to its range. -/
def Obligations.ArithmeticIsExactBeforeItRounds : Prop :=
  let val (n : Bool) (m : Nat) (e : Int) : ℚ := (if n then -1 else 1) * m * (2 : ℚ) ^ e
  (∀ (mode : RMode) (n1 n2 : Bool) (m1 m2 : Nat) (e1 e2 : Int),
    (∃ n m e, (FVal.add mode (.fin n1 m1 e1) (.fin n2 m2 e2)).1 = .fin n m e ∧ val n m e = val n1 m1 e1 + val n2 m2 e2) ∧
    (∃ n m e, (FVal.mul (.fin n1 m1 e1) (.fin n2 m2 e2)).1 = .fin n m e ∧ val n m e = val n1 m1 e1 * val n2 m2 e2) ∧
    ∀ n3 m3 e3, ∃ n m e, (FVal.fma mode (.fin n1 m1 e1) (.fin n2 m2 e2) (.fin n3 m3 e3)).1 = .fin n m e ∧
      val n m e = val n1 m1 e1 * val n2 m2 e2 + val n3 m3 e3) ∧
  (∀ l : List (Bool × Nat × Int),
    let d := (l.map fun x => FVal.fin x.1 x.2.1 x.2.2).foldl Dot.add ⟨false, false, false, 0, 0, true⟩
    ∃ n m e, d.result.1 = .fin n m e ∧ val n m e = (l.map fun x => val x.1 x.2.1 x.2.2).sum) ∧
  (let alike (x : ℚ) (exact below above : ℚ → Prop) : Prop :=
     exact x ∨ ∃ (q : Nat) (k : Int), 2 ^ 64 ≤ q ∧ q * (2 : ℚ) ^ k < x ∧ x < (q + 1) * (2 : ℚ) ^ k ∧
       below (q * (2 : ℚ) ^ k) ∧ above ((q + 1) * (2 : ℚ) ^ k)
   (∀ (n1 n2 : Bool) (m1 m2 : Nat) (e1 e2 : Int), 0 < m2 → m2 < 2 ^ 64 →
     let x := val false m1 e1
     let y := val false m2 e2
     ∃ m e, FVal.div (.fin n1 m1 e1) (.fin n2 m2 e2) = (.fin (n1 != n2) m e, 0) ∧
       alike (val false m e) (fun z => z * y = x) (fun z => z * y < x) (fun z => x < z * y)) ∧
   (∀ (m : Nat) (e : Int), 0 < m → let x := val false m e
     (∃ m' e', FVal.sqrt (.fin false m e) = (.fin false m' e', 0) ∧
       alike (val false m' e') (fun z => z * z = x) (fun z => z * z < x) (fun z => x < z * z)) ∧
     (m < 2 ^ 64 → ∃ m' e', spRsqrt (.fin false m e) = (.fin false m' e', 0) ∧
       alike (val false m' e') (fun z => z * z * x = 1) (fun z => z * z * x < 1) (fun z => 1 < z * z * x))) ∧
   (∀ x, spRcp x = FVal.div FVal.one x)) ∧
  (∀ (n : Bool) (m : Nat) (e k : Int), val n m e = k → -512 < k → k < 512 →
    ∃ m' e', spExp2 (.fin n m e) = (.fin false m' e', 0) ∧ val false m' e' = (2 : ℚ) ^ k) ∧
  (∀ (j : Nat) (e : Int), ∃ n m' e', spLog2 (.fin false (2 ^ j) e) = (.fin n m' e', 0) ∧ val n m' e' = (j : ℚ) + e) ∧
  (let roundsTo (f : Fmt) (mode : RMode) (n : Bool) (m : Nat) (e : Int) (code : Nat) : Prop :=
     let q := max ((Nat.log2 m : Int) + e - f.mb) f.minExp
     let t := (roundAt mode n m e q).1
     val false t q ≤ val false f.maxMant f.maxExp →
     (f.sp = .nanOnly → val false m e < val false (2 * f.maxMant + 1) (f.maxExp - 1)) →
     ∃ m' e', f.decode code = .fin n m' e' ∧ val n m' e' = val n t q
   let clipped (sg : Bool) (w : Nat) (mode : RMode) (n : Bool) (m : Nat) (e : Int) : Nat :=
     let t := (roundAt mode n m e 0).1
     let y : Int := if n then -(t : Int) else t
     ((max (if sg then -2 ^ (w - 1) else 0) (min y (if sg then 2 ^ (w - 1) - 1 else 2 ^ w - 1))) % 2 ^ w).toNat
   ∀ (mode : RMode) (sat : Bool) (n : Bool) (m : Nat) (e : Int), 0 < m →
     (∀ f ∈ [fmtF64, fmtF32, fmtBF16, fmtF16, fmtE4M3, fmtE5M2, fmtE3M4, fmtE2M1],
       roundsTo f mode n m e ((NumFmt.flt f).conv mode sat (.fin n m e)).1) ∧
     (∀ sg w, 0 < w → ((NumFmt.int sg w).conv mode sat (.fin n m e)).1 = clipped sg w mode n m e) ∧
     ∀ (dst src : VType) (x : Nat), dst ≠ src → (src.num.decode x).1 = .fin n m e →
       (dst.isInt = true → (convert dst src mode false sat x).1 = clipped dst.isSigned dst.width mode n m e) ∧
       (dst.isInt = false → roundsTo dst.fmt mode n m e (convert dst src mode false sat x).1))

/-! ## Threads, tasks and synchronisation -/

/-- R203 to R211, R350 to R352, R374, R375: spawn places a child in the slot that its placement chooses, by the scan of R374,
with the creator's mode and the registers from lo to hi, or answers 1 where no slot considered is Free and 2 where no core
considered covers the features; spawng records a gang in a free generator of the creator's die, for placement 3 else of the
lowest die that has one; task and taskw post a node in the pool of a die. -/
def Obligations.HartsGangsAndTasksAreCreated : Prop :=
  ∀ (c : Ctl) (rd rpair r2 r3 lo hi : GReg) (place : BitVec 3) (s u : State), guarded c s → commitsTo s u →
    tabWf Hart.reset u.harts = true →
    let p := u.cur.arch
    let entry := gOf u rpair
    let cc := gOf u (rpair + 1)
    let answers (o : Out) (st : Nat) : Prop := o = .next (retireSerial (setG u rd (BitVec.ofNat 64 st)))
    let covers (hreq : Word) (k : Nat) : Prop :=
      (getCore u k).retired = false ∧ (hreq = 0 ∨ hreq &&& ~~~(featmask u k) = 0)
    (∀ hreq n hid, let core := coreOf u.curId
      (n ≤ 3 → placesBy u hreq core n (pickSlot u hreq core n) ∧
        (coveredIn u hreq core n = true ↔ ∃ k, inScope core n k ∧ covers hreq k) ∧
        spawnSlot u hreq n hid = if coveredIn u hreq core n then (if pickSlot u hreq core n = none then 1 else 0,
          pickSlot u hreq core n) else (2, none)) ∧
      (¬ covers hreq (coreOf hid) → spawnSlot u hreq 4 hid = (2, none)) ∧
      (covers hreq (coreOf hid) → takesHart u hreq hid = false → spawnSlot u hreq 4 hid = (1, none)) ∧
      (takesHart u hreq hid = true → spawnSlot u hreq 4 hid = (0, some hid))) ∧
    (∀ n, let free (d g : Nat) : Prop := g < 16 ∧ tabGet none (getDie u d).gens g = none
      let own := dieOf u.curId
      (∀ d g, freeGenerator u n = some (d, g) → free d g ∧ (∀ k, k < g → ¬ free d k) ∧
        (d = own ∨ (n = 3 ∧ d < 4 ∧ (∀ k, ¬ free own k) ∧ ∀ e k, e < d → ¬ free e k))) ∧
      (freeGenerator u n = none → (∀ k, ¬ free own k) ∧ (n = 3 → ∀ d k, d < 4 → ¬ free d k))) ∧
    (let ctl := gOf u r2
     let o := exec (.spawn c rd rpair r2 lo hi place) s
     (spawnCtlOk ctl place.toNat = false → o = traps u u 0x01 p.iw 0) ∧
     (spawnCtlOk ctl place.toNat = true → cc.toNat % 8 ≠ 0 → o = traps u u 0x05 cc 0) ∧
     (spawnCtlOk ctl place.toNat = true → cc.toNat % 8 = 0 → u.cur.ncWait = [] →
       (∀ st, spawnSlot u p.hreq place.toNat (field 11 0 ctl) = (st, none) → answers o st) ∧
       (∀ h, spawnSlot u p.hreq place.toNat (field 11 0 ctl) = (0, some h) → h ≠ u.curId →
         ∃ t x, o = .next (retireSerial (setG t rd 0)) ∧ t.cur = u.cur ∧ x = getHart t h ∧ x.slot = .ready ∧
           x.prio = u.cur.prio ∧ x.cc = cc ∧ x.arch.pc = entry &&& ~~~(7 : Word) ∧ x.arch.mode = p.mode ∧ x.arch.asid = p.asid ∧
           x.arch.ptroot = p.ptroot ∧ (entry.toNat % 8 = 0 → x.arch.blk = .header .entry) ∧
           (entry.toNat % 8 ≠ 0 → x.arch.blk = .header (.badEntry (entry.toNat % 8))) ∧
           (∀ r, rdG x.arch r = if lo.toNat ≤ r.toNat ∧ r.toNat ≤ hi.toNat then gOf u r else 0) ∧
           (∀ r, rdV x.arch r = if ctl.getLsbD 22 = true ∧ field 16 12 ctl ≤ r.toNat ∧ r.toNat ≤ field 21 17 ctl
             then vOf u r else 0)))) ∧
    (let rule := gOf u r2
     let ext := extOf (gOf u r3)
     let n := gangSize rule ext
     let o := exec (.spawng c rd rpair r2 r3 hi place) s
     let covered := coveredIn u p.hreq (coreOf u.curId) place.toNat
     let turnedAway (st : Nat) : Prop := (cc = 0 → answers o st) ∧
       ∀ v x, cc ≠ 0 → translate u (whoCur u) (scalarReq .atomic 8 false cc) cc = (v, .val x) →
         o = .next (retireSerial (setG v rd (BitVec.ofNat 64 st)))
     (gangWordsOk rule (gOf u r3) = false → o = traps u u 0x01 p.iw 0) ∧
     (gangWordsOk rule (gOf u r3) = true → cc.toNat % 8 ≠ 0 → o = traps u u 0x05 cc 0) ∧
     (gangWordsOk rule (gOf u r3) = true → cc.toNat % 8 = 0 → u.cur.ncWait = [] →
       (∀ w, n = 0 → adjustCounter u cc (fun y => y + 2 ^ 64 - 1) (fun v => setG v rd 0) = .ok w →
         o = .next (retireSerial w)) ∧
       (n ≠ 0 → covered = false → turnedAway 2) ∧
       (n ≠ 0 → covered = true → freeGenerator u place.toNat = none → turnedAway 1) ∧
       (∀ at_, n ≠ 0 → covered = true → freeGenerator u place.toNat = some at_ →
         ∃ g : Gang, (∀ w, adjustCounter u cc (fun y => y + n - 1) (fun v => setG (recordGang v at_
             { g with creator := v.curId, prio := v.cur.prio, since := v.cycle }) rd 0) = .ok w → o = .next (retireSerial w)) ∧
           g.rule = rule ∧ g.ext = ext ∧ g.next = 0 ∧ g.place = place.toNat ∧ g.entry = entry ∧
           g.cc = cc ∧ g.tmpl.pc = entry &&& ~~~(7 : Word) ∧ ∀ r, rdG g.tmpl r = if r.toNat ≤ hi.toNat then gOf u r else 0)) ∧
     ∀ v, ∃ w, adjustCounter u 0 (fun y => y) v = .ok w) ∧
    (∀ (v : State) (x : Nat),
      load u ⟨.load, 128, decide ((gOf u r2).toNat % 128 ≠ 0), .refused⟩ (gOf u r2) = (v, .val x) →
      (descWord x 0x50).toNat % 8 = 0 →
      let posts (o : Out) (v : State) (pa : Option Nat) : Prop := isDrained v = true → v.cur.ncWait = [] →
        ∃ n : Node, n.entry = descWord x 0 ∧ n.addr = gOf u r2 ∧ n.start = pa ∧ n.cc = descWord x 0x50 ∧
          n.prio = field 2 0 (descWord x 0x58) ∧ n.hreq = descWord x 0x60 ∧ n.readyAt = v.cycle ∧
          (∀ k, k < 8 → n.args.getD k 0 = descWord x (8 + 8 * k)) ∧
          let d := if (descWord x 0x58).getLsbD 13 then field 12 11 (descWord x 0x58) else dieOf v.curId
          let full := decide (4096 ≤ (getDie v d).pool.length)
          let covered := coveredIn v n.hreq (128 * d) 2
          (covered = false → o = .next (retireSerial (setG v rd 2))) ∧
          (covered = true → full = true → o = .next (retireSerial (setG v rd 1))) ∧
          (covered = true → full = false →
            o = .next (retireSerial (setG (modDie v d fun y => { y with pool := y.pool ++ [n] }) rd 0)))
      (descOk x false = true → posts (exec (.task c rd r2) s) v none) ∧
      (∀ w pa, descOk x true = true → startCounter v (descWord x 0x48) = (w, .val pa) → posts (exec (.taskw c rd r2) s) w pa))

/-- R212, R213, R353 to R360: a hart exits when its work is done and its slot becomes free; waitc goes on once the
counters stand at their limits; an arrival at a barrier returns its generation, and the last one starts the next; a wait
goes on when the generation has changed; uiret returns from a user interrupt.
R359, R360: a user-level interrupt saves the pc and names the other set of g56 to g63; the return restores both. -/
def Obligations.HartsExitWaitAndMeet : Prop :=
  (
  ∀ (c : Ctl) (rd ra : GReg) (la lb lc ld : BitVec 6) (b : BitVec 4) (v : Bool) (s u : State), guarded c s →
    exec (.uien c v) s = retires c s (fun t => updArch t fun a => { a with uie := v }) ∧
    ((inState (retire c (openChunk s)) (coreOf s.curId) .ready) = [] → (retire c (openChunk s)).curId = s.curId →
      exec (.yield c) s = retires c s id) ∧
    ((inState (retire c (openChunk s)) (coreOf s.curId) .ready) ≠ [] → (retire c (openChunk s)).curId = s.curId →
      exec (.yield c) s = .next (parkCur (retire c (openChunk s)) true)) ∧
    (s.cur.arch.inh = true → ∃ t, exec (.uiret c) s = .next (settle c (advance t s.cur.arch.uepc false)) ∧
      t.cur.arch.inh = false ∧ t.cur.arch.blk = .resumed ∧
      (∀ k : Fin 64, t.cur.arch.g[k] = if h : 56 ≤ k.val then s.cur.arch.shadow[k.val - 56]'(by omega) else s.cur.arch.g[k])) ∧
    (s.cur.arch.inh = false → exec (.uiret c) s = traps (openChunk s) (openChunk s) 0x01 s.cur.arch.iw 0) ∧
    (commitsTo s u →
      let lim := [la.toNat, lb.toNat, lc.toNat, ld.toNat]
      let cl := clusterOf u.curId
      let bar := getBar u cl b.toNat
      let ok := bar.n ≠ 0 ∧ bar.owner = u.cur.arch.asid
      let workDone := infl u.cur = 0 ∧ u.cur.tileCnt = 0 ∧ u.cur.mcastCnt = 0
      let leaves (t : State) : Prop := u.cur.ncWait = [] →
        let v := vacate (pulseCur t) t.curId false
        exec (.exit c) s = .next v ∧ v.curId = t.curId ∧ v.cur.slot = .free ∧ v.cur.fifo.recs = []
      (workDone → u.cur.cc = 0 → leaves u) ∧
      (workDone → u.cur.cc.toNat % 8 = 0 → ∀ t, adjustCounter u u.cur.cc (fun y => y + 2 ^ 64 - 1) id = .ok t → leaves t) ∧
      (workDone → u.cur.cc.toNat % 8 ≠ 0 → exec (.exit c) s = traps u u 0x05 u.cur.cc 0) ∧
      (¬ workDone → exec (.exit c) s = .next (stallOn .exit u)) ∧
      (countersOk u.cur lim = true → exec (.waitc c 0 la lb lc ld) s = .next (retireSerial u)) ∧
      (countersOk u.cur lim = false → exec (.waitc c 0 la lb lc ld) s = .next (stallOn (.counter lim none) u)) ∧
      (∀ t w x y, ra ≠ 0 → translate u (whoCur u) (scalarReq .load 8 false (gOf u ra)) (gOf u ra) = (t, .val x) →
        readLine t .load x 8 (gOf u ra) = (w, .val y) →
        (countersOk w.cur lim = true → y = 0 → exec (.waitc c ra la lb lc ld) s = .next (retireSerial w)) ∧
        (countersOk w.cur lim = false ∨ y ≠ 0 → ∃ z, exec (.waitc c ra la lb lc ld) s =
          .next (stallOn (.counter lim (some (x.pa, x.lvl))) z))) ∧
      (ok → u.cur.ncWait = [] → ∃ x, exec (.bara c rd b) s =
          .next (retireSerial (setG (setBar u cl b.toNat x) rd (BitVec.ofNat 64 bar.gen))) ∧
        x.owner = bar.owner ∧ x.n = bar.n ∧
        (bar.arr + 1 = bar.n → x.arr = 0 ∧ x.gen = (bar.gen + 1) % 2 ^ 32) ∧
        (bar.arr + 1 ≠ bar.n → x.arr = bar.arr + 1 ∧ x.gen = bar.gen)) ∧
      (ok → bar.gen ≠ (gOf u ra).toNat % 2 ^ 32 → exec (.barw c ra b) s = .next (retireSerial u)) ∧
      (ok → bar.gen = (gOf u ra).toNat % 2 ^ 32 →
        exec (.barw c ra b) s = .next (stallOn (.barrier b.toNat ((gOf u ra).toNat % 2 ^ 32)) u)) ∧
      (¬ ok → exec (.bara c rd b) s = traps u u 0x03 u.cur.arch.iw 0 ∧
        (let tok := (gOf u ra).toNat % 2 ^ 32
         let held := u.cur.stall = some (.barrier b.toNat tok)
         (¬ held → exec (.barw c ra b) s = traps u u 0x03 u.cur.arch.iw 0) ∧
         (held → bar.gen ≠ tok → exec (.barw c ra b) s = .next (retireSerial u)))) ∧
      ((gOf u ra).toNat ≤ 128 → u.cur.arch.mode ≠ .u ∨ bar.n = 0 ∨ bar.owner = u.cur.arch.asid →
        exec (.barinit c ra b) s = .next (retireSerial
          (setBar u cl b.toNat ⟨u.cur.arch.asid, (gOf u ra).toNat, 0, (bar.gen + 1) % 2 ^ 32⟩))) ∧
      (128 < (gOf u ra).toNat → exec (.barinit c ra b) s = traps u u 0x01 u.cur.arch.iw 0))) ∧
  (
  ∀ s : State,
    let t := deliverUser s
    t.cur.arch.uepc = s.cur.arch.pc &&& 0x01FFFFFFFFFFFFF8 ∧ t.cur.arch.pc = s.cur.arch.uvec ∧ t.cur.arch.inh = true ∧ t.cur.uip = false ∧
    t.cur.arch.blk = .header .entry ∧
    (∀ k : Fin 8, t.cur.arch.g[56 + k.val] = s.cur.arch.shadow[k] ∧ t.cur.arch.shadow[k] = s.cur.arch.g[56 + k.val]) ∧
    (∀ k : Fin 56, t.cur.arch.g[k.val] = s.cur.arch.g[k.val]) ∧
    (userReturn t).cur.arch.g = s.cur.arch.g ∧ (userReturn t).cur.arch.shadow = s.cur.arch.shadow ∧
    (userReturn t).cur.arch.pc = s.cur.arch.pc &&& 0x01FFFFFFFFFFFFF8 ∧ (userReturn t).cur.arch.blk = .resumed ∧
    (userReturn t).cur.arch.inh = false)

/-! ## Control registers and privilege -/

/-- R361, R362, R10: the register instructions read and write the control registers, and below the lowest mode of a
register they trap with PRIV and the instruction word. -/
def Obligations.ControlRegisterInstructionsAct : Prop :=
  ∀ (c : Ctl) (rd rs : GReg) (n : BitVec 12) (s u : State),
    let k := n.toNat
    let low (writes : Bool) : Nat :=
      if 0x100 ≤ k then 1 else if k = 0x012 ∧ writes = true then 1 else 0
    let below (o : Out) (writes : Bool) : Prop :=
      s.cur.arch.mode.rank < low writes → o = traps s s 0x03 s.cur.arch.iw 0
    let act (o : Out) (writes : Bool) (f : State → State) : Prop :=
      guarded c s → commitsTo s u → low writes ≤ s.cur.arch.mode.rank → o = .next (retireSerial (f (leaveSolo u)))
    below (exec (.csrr c rd n) s) false ∧ below (exec (.csrw c rd rs n) s) true ∧
    (rs ≠ 0 → below (exec (.csrs c rd rs n) s) true ∧ below (exec (.csrc c rd rs n) s) true) ∧
    act (exec (.csrr c rd n) s) false (fun t => setG t rd (csrRead t k)) ∧
    act (exec (.csrw c rd rs n) s) true (fun t => setG (csrWrite t k (gOf t rs) (gOf t rs)) rd (csrRead t k)) ∧
    act (exec (.csrs c rd rs n) s) (rs != 0) (fun t =>
      setG (if rs = 0 then t else csrWrite t k (csrRead t k ||| gOf t rs) (gOf t rs)) rd (csrRead t k)) ∧
    act (exec (.csrc c rd rs n) s) (rs != 0) (fun t =>
      setG (if rs = 0 then t else csrWrite t k (csrRead t k &&& ~~~(gOf t rs)) 0) rd (csrRead t k))

/-- R182, R185, R358, R361, R387: what a control register reads after a write: its writable fields take the value, the
others keep theirs, and a read-only register ignores it; hstat stores 0 for PM = 2, and its pending bits, like UIP and INH of
ustat, show what is pending whatever is written. -/
def Obligations.ControlRegistersHoldTheirWritableFields : Prop :=
  ∀ (s : State) (v ones : Word) (i : Fin 16),
    let back (n : Nat) : Word := csrRead (csrWrite s n v ones) n
    (v.extractLsb' 12 3 ≤ 4 → back 0x000 = v &&& 0xF3FF) ∧
    (4 < v.extractLsb' 12 3 → back 0x000 = v &&& 0x83FF) ∧
    back 0x001 = v &&& 0x3 ∧ back 0x002 = v &&& 0xFF013FFF ∧
    (back 0x003).getLsbD 0 = v.getLsbD 0 ∧
    back 0x008 = v &&& 0x01FFFFFFFFFFFFF8 ∧ back 0x00A = v &&& 0x01FFFFFFFFFFFFF8 ∧
    (back 0x009).getLsbD 0 = v.getLsbD 0 ∧ (back 0x009).getLsbD 1 = s.cur.uip ∧
    (back 0x009).getLsbD 2 = s.cur.arch.inh ∧ back 0x009 &&& ~~~(7 : Word) = 0 ∧
    back 0x012 = v &&& 1 ∧ back 0x101 = v &&& 0x80000000000000FF ∧ back 0x102 = v &&& 0xFFFFFFFFFFFFFFF8 ∧
    back 0x103 = v ∧ back 0x104 = v &&& 0xFF ∧ back 0x110 = v &&& 0xFFFF ∧ back 0x111 = v &&& 0x00FFFFFFFFFFF000 ∧
    (v.extractLsb' 0 2 ≠ 2 → back 0x100 &&& 0x01FFFFFFFFFFF0FB = v &&& 0x01FFFFFFFFFFF0FB) ∧
    (v.extractLsb' 0 2 = 2 → back 0x100 &&& 0x01FFFFFFFFFFF0FB = v &&& 0x01FFFFFFFFFFF0F8) ∧
    (back 0x100).getLsbD 11 = s.cur.wdp.isSome ∧
    (back 0x100).getLsbD 10 = decide (s.curId = s.extroute ∧ s.extstat &&& s.extena ≠ 0) ∧
    (back 0x100).getLsbD 9 = decide (s.cur.timecmp ≤ s.mtime) ∧ (back 0x100).getLsbD 8 = s.cur.swint ∧
    back 0x100 &&& ~~~(0x01FFFFFFFFFFFFFB : Word) = 0 ∧
    back (0x120 + i.val) = v &&& 0x01FFFFFFFFFFF000 ∧ back (0x130 + i.val) = v &&& 0x01FFFFFFFFFFF000 ∧
    back (0x140 + i.val) = v &&& 0xF ∧
    ∀ n, n ∈ [0x010, 0x011, 0x020, 0x021, 0x022, 0x023, 0x024, 0x025, 0x026, 0x027] → csrWrite s n v ones = s

/-! ## Traps, interrupts and returns -/

/-- R385, R387, R390: what a trap or interrupt leaves: the cause, the pc it names, the value and the row; the earlier mode
in PM, IE moved to PIE and cleared; the receiving mode; the pc at its vector, where a header with ENTRY must stand; and
the four registers of the receiving mode's bank in place of g60 to g63 when the mode rises. -/
def Obligations.TrapEntrySavesAndSwitches : Prop :=
  ∀ (s : State) (r : TrapRec),
    let a := s.cur.arch
    let t := deliver s r
    let b := t.cur.arch
    let toM := (r.int = false ∧ (a.mode = .m ∨ (r.code = 0x11 ∧ a.mode = .s))) ∨
      (r.int = true ∧ r.code = 0x14 ∧ field 63 60 r.tval = 3)
    b.hepc = r.epc ∧ b.htval = r.tval ∧ b.htrow = r.row ∧
    b.hcause = BitVec.ofNat 64 (r.code + (if r.int then 2 ^ 63 else 0)) ∧
    (toM → b.mode = .m ∧ b.pc = s.mtvec ∧ b.blk = .header .mHandler ∧ b.mrec[0] = hstatOf s s.curId ∧ b.mrec[1] = a.hcause ∧
      b.mrec[2] = a.hepc ∧ b.mrec[3] = a.htval ∧ b.mrec[4] = a.htrow) ∧
    (¬ toM → b.mode = .s ∧ b.pc = BitVec.ofNat 64 (field 56 12 a.hstat * 4096) ∧ b.blk = .header .sHandler ∧
      b.mrec = a.mrec) ∧
    b.hstat.extractLsb' 0 2 = (match a.mode with | .u => 0 | .s => 1 | .m => 3) ∧
    b.hstat.getLsbD 3 = false ∧ b.hstat.getLsbD 4 = a.hstat.getLsbD 3 ∧ t.cur.stall = none ∧
    (∀ k, k ≠ 0 → k ≠ 1 → k ≠ 3 → k ≠ 4 → b.hstat.getLsbD k = a.hstat.getLsbD k) ∧ b.inh = a.inh ∧
    (∀ epc x, r = ⟨x.code, false, epc, x.tval, x.row⟩ →
      (preAdmitted s s.curId = false → isDrained s = true → raiseAt s epc x = t) ∧
      (preAdmitted s s.curId = true → working s s.curId s.cur.chunk = false → s.cur.inflight = [] →
        raiseAt s epc x = deliver (commitOpen s) r) ∧
      (isDrained s = false → preAdmitted s s.curId = false ∨ working s s.curId s.cur.chunk = true ∨ s.cur.inflight ≠ [] →
        ∃ y, raiseAt s epc x = { closeChunk s with cur := y } ∧ y.due = some r ∧ y.arch = (closeChunk s).cur.arch)) ∧
    (s.cur.due = some r → isDrained s = true → boundary s = .go t) ∧
    (a.mode.rank < b.mode.rank → ∀ k : Fin 4, b.g[60 + k.val] = (if b.mode = .m then a.mbank else a.sbank)[k] ∧
      (if b.mode = .m then b.mbank else b.sbank)[k] = a.g[60 + k.val]) ∧
    (¬ a.mode.rank < b.mode.rank → b.g = a.g) ∧ (∀ k : Fin 60, b.g[k.val] = a.g[k.val]) ∧ b.v = a.v ∧ b.p = a.p ∧
    b.fcsr = a.fcsr

/-- R363, R390, R391: ecall and ebreak take their trap, ecall with the address of the next word; sret and mret return to
hepc in the mode of PM, with IE from PIE; sret to M mode and both below their mode trap with PRIV. -/
def Obligations.CallsAndReturnsChangeTheMode : Prop :=
  ∀ (c : Ctl) (s u : State), guarded c s → commitsTo s u → u.cur.arch.mode = s.cur.arch.mode →
    let a := u.cur.arch
    exec (.ecall c) s = .next (deliver u ⟨0x11, false, a.pc + 8, 0, 0⟩) ∧
    exec (.ebreak c) s = traps u u 0x10 0 0 ∧
    (a.mode = .u → exec (.sret c) s = traps s s 0x03 s.cur.arch.iw 0) ∧
    (a.mode ≠ .m → exec (.mret c) s = traps s s 0x03 s.cur.arch.iw 0) ∧
    (a.mode ≠ .u → a.hstat.extractLsb' 0 2 = 3 → exec (.sret c) s = traps u u 0x03 a.iw 0) ∧
    (let n : Mode := if a.hstat.extractLsb' 0 2 = 0 then .u else if a.hstat.extractLsb' 0 2 = 1 then .s else .m
     let returns (o : Out) (eff : Arch → Prop) : Prop := ∃ t, o = .next t ∧ t.cur.arch.pc = a.hepc ∧
        t.cur.arch.blk = .resumed ∧ t.cur.stall = none ∧ t.cur.arch.mode = n ∧ t.cur.arch.resume = true ∧
        (n.rank < a.mode.rank → ∀ k : Fin 4,
          t.cur.arch.g[60 + k.val] = (if a.mode = .m then a.mbank else a.sbank)[k] ∧
          (if a.mode = .m then t.cur.arch.mbank else t.cur.arch.sbank)[k] = a.g[60 + k.val]) ∧
        (¬ n.rank < a.mode.rank → t.cur.arch.g = a.g) ∧ (∀ k : Fin 60, t.cur.arch.g[k.val] = a.g[k.val]) ∧ eff t.cur.arch
     (a.mode ≠ .u → a.hstat.extractLsb' 0 2 ≠ 3 → returns (exec (.sret c) s) fun b =>
       b.hstat.getLsbD 3 = a.hstat.getLsbD 4 ∧ b.hstat.getLsbD 4 = true ∧
       (∀ k, k ≠ 3 → k ≠ 4 → b.hstat.getLsbD k = a.hstat.getLsbD k) ∧ b.hcause = a.hcause ∧ b.hepc = a.hepc ∧
       b.htval = a.htval ∧ b.htrow = (if a.resume then a.htrow &&& ~~~(0x80 : Word) else a.htrow)) ∧
     (a.mode = .m → returns (exec (.mret c) s) fun b =>
       (∀ k, k ≠ 0 → k ≠ 1 → k ≠ 2 → k ≠ 8 → k ≠ 9 → k ≠ 10 → k ≠ 11 → k < 57 →
         b.hstat.getLsbD k = a.mrec[0].getLsbD k) ∧
       (a.mrec[0].extractLsb' 0 2 ≠ 2 → b.hstat.extractLsb' 0 2 = a.mrec[0].extractLsb' 0 2) ∧
       b.hcause = a.mrec[1] ∧ b.hepc = a.mrec[2] ∧ b.htval = a.mrec[3] ∧ b.htrow = a.mrec[4]))

/-- R363 to R366: the privileged instructions have their effect in the modes that may run them and trap with PRIV in the
others: wfi goes on when an interrupt is pending, an invalidation retires once the sequencer has completed it, slotcfg
writes slot-table entries, the context instructions push a command, halt frees the slot; chunkbrk ends the chunk. -/
def Obligations.PrivilegedInstructionsActOrTrap : Prop :=
  ∀ (c : Ctl) (ra rb rd : GReg) (v p q other : Bool) (s u : State), guarded c s → commitsTo s u →
    let w := s.cur.arch.iw
    let priv (o : Out) : Prop := o = traps s s 0x03 w 0
    let invalidates (o : Out) (form asid : Nat) (va : Word) : Prop :=
      (∀ i, invOf u = some i → i.done = true →
        o = .next (retireSerial { u with invs := u.invs.filter fun j => j.id != i.id })) ∧
      (∀ i, invOf u = some i → i.done = false → o = .next (stallOn .inv u)) ∧
      (invOf u = none → ∃ i t, o = .next (stallOn .inv t) ∧ t.cur = u.cur ∧ t.invs = u.invs ++ [i] ∧ i.hart = u.curId ∧
        i.form = form ∧ i.asid = asid ∧ i.va = va ∧ i.sent = false ∧ i.done = false)
    exec (.chunkbrk c) s = .next (retireSerial u) ∧
    (s.cur.arch.mode = .u → priv (exec (.wfi c) s) ∧ priv (exec (.tlbinv c ra rb) s) ∧ priv (exec (.tlbinvAs c ra) s) ∧
      priv (exec (.tlbinvall c) s) ∧ priv (exec (.slotcfg c rd ra rb) s)) ∧
    (s.cur.arch.mode ≠ .m → priv (exec (.halt c) s)) ∧
    (s.cur.arch.mode ≠ .s → priv (exec (.vsavectx c ra rb v p q other) s) ∧ priv (exec (.vrestctx c ra rb v p q other) s)) ∧
    (s.cur.arch.mode = .m → u.cur.ncWait = [] → ∃ t, exec (.halt c) s = .next t ∧ t.curId = u.curId ∧ t.cur.slot = .free ∧
      t.cur.fifo = u.cur.fifo) ∧
    (s.cur.arch.mode = .m → u.cur.ncWait ≠ [] → exec (.halt c) s = .next (stallOn (.miss (.acks false)) u)) ∧
    (s.cur.arch.mode ≠ .u →
      (pendingIrq u u.curId = true → exec (.wfi c) s = .next (retireSerial u)) ∧
      (pendingIrq u u.curId = false → exec (.wfi c) s = .next (parkIrq (stallOn .irq u))) ∧
      invalidates (exec (.tlbinv c ra rb) s) 0 (field 15 0 (gOf u ra)) (gOf u rb &&& 0x01FFFFFFFFFFFFFF) ∧
      invalidates (exec (.tlbinvAs c ra) s) 1 (field 15 0 (gOf u ra)) 0 ∧ invalidates (exec (.tlbinvall c) s) 2 0 0 ∧
      (let sel := gOf u ra
       let val := gOf u rb
       let cl := clusterOf u.curId
       let k := field 5 0 sel
       let e := if sel.getLsbD 10 then 0 else field 9 8 sel
       (sel &&& 0xFFFFFFFFFFFFF8C0 ≠ 0 ∨ 2 ^ 17 ≤ val.toNat → exec (.slotcfg c rd ra rb) s = traps u u 0x01 u.cur.arch.iw 0) ∧
       (sel &&& 0xFFFFFFFFFFFFF8C0 = 0 → val.toNat < 2 ^ 17 →
         tabWf Cluster.reset u.clusters = true → tabWf Engine.reset (getCluster u cl).engines = true →
         (∀ f, f < 4 → tabWf SlotEnt.reset (getEngine u cl f).slots = true) → ∃ t,
         exec (.slotcfg c rd ra rb) s =
           .next (retireSerial (setG t rd (slotWord (tabGet SlotEnt.reset (getEngine u cl e).slots k)))) ∧
         ∀ f, f < 4 → f = e ∨ sel.getLsbD 10 = true → (getEngine u cl f).retired = false →
           tabGet SlotEnt.reset (getEngine t cl f).slots k = ⟨val.getLsbD 16, field 15 0 val⟩))) ∧
    (s.cur.arch.mode = .s → (gOf u ra).toNat % 256 = 0 → freeEntries u.cur ≠ 0 → u.cur.ncWait = [] →
      let target := if other then field 11 0 (gOf u rb) else u.curId
      let pushes (o : Out) (code : Nat) : Prop := ∃ t e, o = .next (retireSerial t) ∧
        t.cur.fifo.cmds = u.cur.fifo.cmds ++ [e] ∧ field 7 0 e.cmd.d0 = code ∧ e.cmd.d1 = gOf u ra ∧
        field 11 0 e.cmd.d2 = target % 2 ^ 12 ∧
        (target < 2 ^ 12 → e.cmd.d2.getLsbD 16 = v ∧ e.cmd.d2.getLsbD 17 = p ∧ e.cmd.d2.getLsbD 18 = q)
      pushes (exec (.vsavectx c ra rb v p q other) s) 0x0A ∧ pushes (exec (.vrestctx c ra rb v p q other) s) 0x0B)

/-- R388, R389: which interrupt a hart would take: none in M mode; MACHINE_CHECK before all others, kind 3 in M mode and the
other kinds in S mode; in S mode with IE = 0
no other; then the watchdog, the external, the timer and the software interrupt, the last three where they are
enabled. -/
def Obligations.InterruptsRankAndMask : Prop :=
  ∀ (s : State) (h : Nat),
    let x := getHart s h
    let a := x.arch
    let open_ := a.mode = .u ∨ (a.mode = .s ∧ a.hstat.getLsbD 3 = true)
    let ext := eipOf s h = true ∧ a.hstat.getLsbD 7 = true
    let tim := x.timecmp ≤ s.mtime ∧ a.hstat.getLsbD 6 = true
    let code (n : Nat) : Prop := ∃ r, interruptFor s h = some r ∧ r.code = n ∧ r.int = true ∧ r.epc = a.pc
    (a.mode = .m → interruptFor s h = none) ∧
    (∀ r, interruptFor s h = some r →
      receiver r a.mode = if r.code = 0x14 ∧ field 63 60 r.tval = 3 then .m else .s) ∧
    (∀ k rest, a.mode ≠ .m → x.mck = k :: rest → ∃ r, interruptFor s h = some r ∧ (k < 16 → x.mckOld < 2 ^ 60 → h < 2 ^ 60 → field 63 60 r.tval = k)) ∧
    (a.mode ≠ .m → x.mck ≠ [] → code 0x14) ∧
    (a.mode = .s → a.hstat.getLsbD 3 = false → x.mck = [] → interruptFor s h = none) ∧
    (open_ → x.mck = [] →
      (∀ d, x.wdp = some d → code 0x12 ∧ ∀ r, interruptFor s h = some r → r.tval = BitVec.ofNat 64 d) ∧
      (x.wdp = none → ext → code 0x22) ∧
      (x.wdp = none → ¬ ext → tim → code 0x21) ∧
      (x.wdp = none → ¬ ext → ¬ tim → x.swint = true ∧ a.hstat.getLsbD 5 = true → code 0x20) ∧
      (x.wdp = none → ¬ ext → ¬ tim → ¬ (x.swint = true ∧ a.hstat.getLsbD 5 = true) → interruptFor s h = none))

/-! ## The copy engine -/

/-- R66 to R71, R423: each command, when it is the oldest of its hart, is performed in pieces of at most 4 KiB from where its
last piece ended: a reserved field ends it with BADCMD, else it ends with OK and the count of its bytes when its accesses
succeed, or with the status of the access that failed and the bytes before it; a piece that waits keeps its place. -/
def Obligations.CopyEngineCommandsComplete : Prop :=
  ∀ (h : Nat) (d : Cmd) (c : FifoCmd) (r : List FifoCmd) (s u : State) (n : Nat),
    (getHart s h).fifo.cmds = c :: r → c.cmd = d → c.fin = none →
    let ok (extra : Bool) : Prop := d0Ok d.d0 = true ∧ extra = true
    let len := d.d3.toNat
    let row := field 31 0 d.d3
    let rows := field 63 32 d.d3
    let size := 2 ^ field 34 32 d.d3
    let runs (o : Out) (f : State → Nat → State × Res Nat) (len : Nat) : Prop :=
      let went := pieces h f (Nat.min len (c.prog + 4096)) 4096 s c.prog
      let stands (f : FifoCmd → FifoCmd) : Out := .next (modHead u h f)
      (went = (u, n, .val ()) → len ≤ n → o = .next (decide_ u h 0 n)) ∧
      (went = (u, n, .val ()) → n < len → o = stands fun c => { c with prog := n, walked := [] }) ∧
      (went = (u, n, .again) → o = stands fun c => { c with prog := n }) ∧
      (∀ t, t.code ≠ 0x100 → went = (u, n, .trap t) → o = .next (decide_ u h (statusOf t.code) n)) ∧
      (∀ w, went = (u, n, .wait w) → o = stands fun c => { c with prog := n, held := w != .commit })
    let copy := exec (.copy h d) s
    let at_ (base : Word) (k : Nat) : Word := base + BitVec.ofNat 64 k
    let src2 (k : Nat) : Word := d.d1 + BitVec.ofNat 64 (k / row) * d.d4
    let dst2 (k : Nat) : Word := d.d2 + BitVec.ofNat 64 (k / row) * d.d5
    let z (l : List Word) : Bool := l.all (· == 0)
    (∀ i, i ∈ [Instr.copy h d, .copy2d h d, .fill h d, .gather h d, .scatter h d, .mcopy h d, .shload h d, .save h d,
      .restore h d, .rowcopy h d, .rowinit h d] → d0Ok d.d0 = false → exec i s = .next (decide_ s h 0x04 0)) ∧
    (ok (decide (len < 2 ^ 40) && z [d.d4, d.d5, d.d6, d.d7]) →
      runs copy (fun s k => copyPiece h c d.d1 d.d2 (at_ d.d1 k) (at_ d.d2 k) (len - k) s) len) ∧
    (ok (z [d.d6, d.d7]) → runs (exec (.copy2d h d) s) (fun s k => copyPiece h c (src2 k) (dst2 k) (at_ (src2 k) (k % row))
      (at_ (dst2 k) (k % row)) (row - k % row) s) (row * rows)) ∧
    (ok (decide (len < 2 ^ 40) && decide (len % 8 = 0) && z [d.d1, d.d5, d.d6, d.d7]) →
      (d.d2.toNat % 8 ≠ 0 → len ≠ 0 → exec (.fill h d) s = .next (decide_ s h 0x03 0)) ∧
      (d.d2.toNat % 8 = 0 ∨ len = 0 → runs (exec (.fill h d) s) (fun s k =>
        let m := Nat.min (len - k) (128 - (at_ d.d2 k).toNat % 128)
        countDone (engineWrite s h c d.d2 (at_ d.d2 k) m (patternBytes d.d4 m) false) m) len)) ∧
    (ok (decide (len < 2 ^ 35) && z [d.d5, d.d6, d.d7]) →
      runs (exec (.gather h d) s) (fun s k => indexedPiece h c false k s) (row * size) ∧
      runs (exec (.scatter h d) s) (fun s k => indexedPiece h c true k s) (row * size)) ∧
    (ok (decide (len < 2 ^ 40) && z [d.d4, d.d5, d.d6, d.d7]) →
      runs (exec (.mcopy h d) s) (fun s k => groupPiece h c len k s) len ∧
      ∀ t, t.code = 0x100 → pieces h (fun s k => groupPiece h c len k s) (Nat.min len (c.prog + 4096)) 4096 s c.prog =
        (u, n, .trap t) → exec (.mcopy h d) s = .next (decide_ u h 0x0B n)) ∧
    (ok (decide (d.d2.toNat < 8) && z [d.d3, d.d5, d.d6, d.d7]) →
      let x := getShared s (clusterOf h) (8 * c.asid + d.d2.toNat)
      (x.tile = none → exec (.shload h d) s = .next (decide_ s h 0x08 0)) ∧
      (x.tile ≠ none → c.prog ≠ 0 → c.prog ≠ x.steps + 1 → exec (.shload h d) s = .next (decide_ s h 0x08 0)) ∧
      (∀ t l, x.tile = some t → c.prog = 0 ∨ c.prog = x.steps + 1 →
        shloadRows h c t.rb (((List.range (t.rows - c.rows.length)).map (· + c.rows.length)).take (4096 / t.rb)) s = (u, .val l) →
        let rows := c.rows ++ l
        (rows.length < t.rows → exec (.shload h d) s =
          .next (modHead u h fun c => { c with prog := x.steps + 1, rows := rows })) ∧
        (t.rows ≤ rows.length → ∃ w y, exec (.shload h d) s = .next (decide_ w h 0 (t.rows * t.rb)) ∧
          w = modCluster u (clusterOf h) (fun k => { k with transfers := k.transfers ++ [y] }) ∧ y.hart = h ∧ y.cmd = true ∧
          y.key = 8 * c.asid + d.d2.toNat ∧ y.ver = x.steps ∧
          y.tile = some { Tile.blank t.rows t.rb t.fmt t.desc with data := rows })) ∧
      (∀ t w, x.tile = some t → c.prog = 0 ∨ c.prog = x.steps + 1 →
        shloadRows h c t.rb (((List.range (t.rows - c.rows.length)).map (· + c.rows.length)).take (4096 / t.rb)) s =
          (u, .wait w) → exec (.shload h d) s =
          .next (modHead u h fun c => { c with held := w != .commit, prog := x.steps + 1 }))) ∧
    (∀ load : Bool,
      ok (decide (d.d2 &&& 0xFFFFFFFFFFF8F000 = 0) && z [d.d3, d.d4, d.d5, d.d6, d.d7]) →
      let t := field 11 0 d.d2
      let v := d.d2.getLsbD 16
      let p := d.d2.getLsbD 17
      let q := d.d2.getLsbD 18
      let i : Instr := if load then .restore h d else .save h d
      (c.mode = .u → exec i s = .next (decide_ s h 0x09 0)) ∧
      (c.mode ≠ .u → c.prog = 0 → contextTarget s h t = false → exec i s = .next (decide_ s h 0x0A 0)) ∧
      (c.mode ≠ .u → c.prog ≠ 0 ∨ contextTarget s h t = true →
        (d.d1.toNat % 256 ≠ 0 → exec i s = .next (decide_ s h 0x03 0)) ∧
        (d.d1.toNat % 256 = 0 →
          let went := contextMove (if load then loadLine h c t v else saveLine h c t v) 32
            ((contextLines v p q).drop (c.prog - 1)) (c.prog - 1) s
          (went = (u, n, .val ()) → exec i s = .next (decide_ u h 0
            ((if v then 2056 else 0) + (if p then 128 else 0) + if q then 2048 else 0))) ∧
          (∀ e, went = (u, n, .trap e) → exec i s = .next (decide_ u h (statusOf e.code) 0)) ∧
          (∀ w, went = (u, n, .wait w) → exec i s =
            .next (modHead u h fun c => { c with prog := n + 1, held := w != .commit })) ∧
          (went = (u, n, .again) → exec i s = .next (modHead u h fun c => { c with prog := n + 1 }))))) ∧
    (∀ copy : Bool,
      ok (decide (len < 2 ^ 40) && (if copy then d.d4 == 0 else d.d1 == 0) && z [d.d5, d.d6, d.d7]) →
      let i : Instr := if copy then .rowcopy h d else .rowinit h d
      (d.d3 = 0 → exec i s = .next (decide_ s h 0 0)) ∧
      (d.d3 ≠ 0 → copy = false → d.d2.toNat % 8 ≠ 0 → exec i s = .next (decide_ s h 0x03 0)) ∧
      (∀ t, d.d3 ≠ 0 → copy = true ∨ d.d2.toNat % 8 = 0 → rowRanges s h c copy = (u, .trap t) →
        exec i s = .next (decide_ u h (statusOf t.code) 0)) ∧
      (∀ a b, d.d3 ≠ 0 → copy = true ∨ d.d2.toNat % 8 = 0 → rowRanges s h c copy = (u, .val (a, b)) →
        (rowEligible u.ilv copy c a b = true → exec i s = .next (modHead u h fun c => { c with prog := 1 })) ∧
        (rowEligible u.ilv copy c a b = false → exec i s = .next (decide_ u h 0x07 0))) ∧
      (∀ w, d.d3 ≠ 0 → copy = true ∨ d.d2.toNat % 8 = 0 → rowRanges s h c copy = (u, .wait w) → exec i s = .next u))

/-- R69, R70, R71, R72: what a command leaves: once its work is confirmed the record of its tag, status and count joins the
records and the command leaves the FIFO; a write that passes its checks and reaches its line changes exactly its bytes of the
memory that stood before it, and a read gives the committed bytes; a copy whose operands do not overlap writes what it
read. -/
def Obligations.CopyEngineRecordsAndMovesBytes : Prop :=
  (∀ (s : State) (h st n : Nat) (c : FifoCmd) (r : List FifoCmd), (getHart s h).fifo.cmds = c :: r →
    tabWf Hart.reset s.harts = true → n < 2 ^ 40 → st < 2 ^ 8 →
    unconfirmed (modHead s h fun c => { c with fin := some (st, n) }) h = false →
    let x := getHart (decide_ s h st n) h
    x.fifo.cmds = r ∧ x.uip = ((getHart s h).uip || c.cmd.d0.getLsbD 8) ∧
    ∃ w, x.fifo.recs = (getHart s h).fifo.recs ++ [w] ∧ field 63 48 w = field 31 16 c.cmd.d0 ∧ field 47 40 w = st ∧
      field 39 0 w = n) ∧
  (∀ (s t : State) (h : Nat) (c : FifoCmd) (first a : Word) (n v : Nat) (bad : Bool),
    engineWrite s h c first a n v bad = (t, .val ()) → ∃ (x : Acc) (u0 u : State),
      translate s (whoCmd h c) ⟨.copyWrite, n, false, .refused⟩ a = (u0, .val x) ∧ windowOf u0 x.pa = none ∧
      inAperture a.toNat = inAperture first.toNat ∧
      engineReach u0 h c true x (byteMask x.pa n) a = (u, .val ()) ∧ t = enginePut u h x.pa n v bad ∧
      u0.mem = s.mem ∧ u.mem = s.mem ∧ u.dev = s.dev ∧
      (lineDev (x.pa / 128) = s.dev → x.pa % 128 + n ≤ 128 → Memory.wf s.mem = true → readBytes t.mem x.pa n = v % 2 ^ (8 * n) ∧
        ∀ b, b < x.pa ∨ x.pa + n ≤ b → readByte t.mem b = readByte s.mem b)) ∧
  (∀ (s t : State) (h : Nat) (c : FifoCmd) (first a : Word) (n v : Nat),
    engineRead s h c first a n = (t, .val v) → ∃ (x : Acc) (u : State),
      translate s (whoCmd h c) ⟨.copyRead, n, false, .refused⟩ a = (u, .val x) ∧
      engineReach u h c false x (byteMask x.pa n) a = (t, .val ()) ∧ t.mem = s.mem ∧
      t.poison.contains (x.pa / 128) = false ∧
      (∀ k, k < n → x.pa % 128 + n ≤ 128 → v / 2 ^ (8 * k) % 256 =
        (lineByte (committedLine t (x.pa / 128)) (x.pa % 128 + k)).toNat) ∧
      (lineDev (x.pa / 128) = s.dev → x.pa % 128 + n ≤ 128 → v = readBytes s.mem x.pa n)) ∧
  (∀ (s t u : State) (h : Nat) (c : FifoCmd) (src0 dst0 src dst : Word) (n v : Nat),
    let k := Nat.min n (128 - dst.toNat % 128)
    operandsMeet c.cmd = false → k ≤ 128 - src.toNat % 128 → engineRead s h c src0 src k = (t, .val v) →
    engineWrite t h c dst0 dst k v false = (u, .val ()) → copyPiece h c src0 dst0 src dst n s = (u, .val k))

/-! ## Steps of the hardware: each in a state where what it needs is there, its parameters in the argument -/

/-- R61, R86, R122 to R126, R130, R423: a chunk that conflicts with no admitted chunk is admitted, one that does waits for the
first such chunk, and for room; when the wait is over it is squashed if its signature meets what that chunk wrote, and
checked again otherwise, in its earlier place; chunks whose lines meet always conflict; the oldest admitted chunk of a hart
commits; a transfer replaces the shared tile whose version it was made for; a row block of a command is performed. -/
def Obligations.ChunksTransfersAndRowBlocksTakeEffect : Prop :=
  ∀ (s : State) (c : Chunk),
    let h := s.arg.a
    let rest := s.presented.filter fun p => p.hart != h
    let clear (y : Held) : Prop := conflicts c y = false
    let admits (o : Out) : Prop := o = .next { s with held := s.held ++ [⟨h, c.reads, c.writes⟩], presented := rest }
    let queued (p : Pres) : List Pres := if s.presented.any (fun q => q.hart == h) then
      s.presented.map (fun q => if q.hart = h then p else q) else s.presented ++ [p]
    let waits (o : Out) (p : Pres) : Prop := o = .next { s with presented := queued p }
    let checked (o : Out) : Prop :=
      (preAdmitted s h = true → admits o) ∧
      (preAdmitted s h = false → s.held.length < 128 → (∀ y ∈ admittedNow s, clear y) → admits o) ∧
      (∀ y before later, preAdmitted s h = false → s.held.length < 128 → admittedNow s = before ++ y :: later →
        (∀ z ∈ before, clear z) → ¬ clear y → waits o ⟨h, some y, sigMeet c.reads y.writes⟩) ∧
      (preAdmitted s h = false → 128 ≤ s.held.length → waits o ⟨h, none, false⟩)
    (∀ y : Held, ((∃ l ∈ c.writes, l ∈ y.reads ∨ l ∈ y.writes) ∨ ∃ l ∈ c.reads, l ∈ y.writes) → ¬ clear y) ∧
    (∀ y : Held, c.reads = [] → c.writes = [] → clear y) ∧
    (toPresent s h = some c → (∀ p ∈ s.presented, p.hart ≠ h) → working s h c = false →
      ((∀ p ∈ s.presented, p.on ≠ none) ∨ preAdmitted s h = true → checked (exec .chunkPresent s)) ∧
      ((∃ p ∈ s.presented, p.on = none) → preAdmitted s h = false → waits (exec .chunkPresent s) ⟨h, none, false⟩)) ∧
    (∀ p before later, s.presented = before ++ p :: later → p.hart = h → (∀ q ∈ before, q.hart ≠ h) →
      (match p.on with | some y => y ∉ s.held ∧ s.soloHart ≠ some y.hart | none => s.held.length < 128) →
      (p.readHit = true → exec .corniceRecheck s = .next (squashFrom s h (admittedOf s h) true)) ∧
      (p.readHit = false → toPresent s h = some c → checked (exec .corniceRecheck s))) ∧
    (∀ later y before behind, (getHart s h).inflight = c :: later → s.held = before ++ y :: behind → y.hart = h →
      (∀ z ∈ before, z.hart ≠ h) →
      exec .chunkCommit s = .next (passAlone (commitChunk
        { setHart s h { getHart s h with inflight := later } with held := before ++ behind } h c) h)) ∧
    (∀ t later, (getCluster s h).transfers = t :: later → t.cmd = false →
      let u := modCluster s h fun k => { k with transfers := later }
      let x := getShared u h t.key
      let v := if x.steps = t.ver then
        squashShared (setShared u h t.key { tile := t.tile, steps := x.steps, writes := x.writes + 1 }) h t.key false else u
      exec .sharedTransferApply s =
        .next (if t.hart = noHart then v else modHart v t.hart fun k => { k with tileCnt := k.tileCnt - 1 })) ∧
    (∀ t later, (getCluster s h).transfers = t :: later → t.cmd = true → t.hart ≠ noHart →
      let u := modCluster s h fun k => { k with transfers := later }
      let x := getShared u h t.key
      (x.steps = t.ver → exec .sharedTransferApply s = .next (confirm
        (squashShared (setShared u h t.key { tile := t.tile, steps := x.steps, writes := x.writes + 1 }) h t.key false)
        t.hart)) ∧
      (x.steps ≠ t.ver → exec .sharedTransferApply s = .next (confirm
        (modHead u t.hart fun k => { k with fin := k.fin.map fun _ => (0x08, 0) }) t.hart))) ∧
    (∀ k later v w a b, (getHart s h).fifo.cmds = k :: later → k.prog ≠ 0 → k.fin = none →
      let off := (k.prog - 1) * rowBlock s.ilv
      let copy := k.cmd.d0.extractLsb' 0 8 == 0x06
      (copy = true → rowPage s h k .copyRead k.cmd.d1 (k.cmd.d1 + BitVec.ofNat 64 off) = (v, .val (some a))) →
      (copy = false → v = s) →
      rowPage v h k .copyWrite k.cmd.d2 (k.cmd.d2 + BitVec.ofNat 64 off) = (w, .val (some b)) →
      ∀ t ok, blockStep w (if copy then some a else none) b k.cmd.d4 = (t, ok) →
        (ok = false → exec .rowBlockStep s = .next t) ∧
        (ok = true → k.cmd.d3.toNat ≤ off + rowBlock s.ilv → exec .rowBlockStep s = .next (decide_ t h 0 k.cmd.d3.toNat)) ∧
        (ok = true → off + rowBlock s.ilv < k.cmd.d3.toNat →
          exec .rowBlockStep s = .next (modHead t h fun k => { k with prog := k.prog + 1 })))

/-- R125, R127: what the commit of a chunk leaves in memory: every byte that the chunk has written on the module's own
coherent lines, and every other byte as it was; a commit clears the squash count. -/
def Obligations.CommitWritesTheChunksBytes : Prop :=
  ∀ (s : State) (h : Nat) (c : Chunk), tabWf (0, 0) c.bytes = true → c.ncs = [] →
    (∀ l ∈ tabKeys c.bytes, lineDev l = s.dev) → Memory.wf s.mem = true → tabWf Hart.reset s.harts = true →
    let t := commitChunk s h c
    (∀ b, readByte t.mem b = (chunkByte c b).getD (readByte s.mem b)) ∧ (getHart t h).sq = 0

/-- R356, R359, R363, R370, R388 to R393, R398, R399, R404: a trap, an interrupt or a user-level interrupt is delivered to its
hart once the hart's truncated chunks have committed, and until then the chunk is closed; a MACHINE_CHECK becomes pending or,
of kind 3, is delivered in M mode; an interrupt that becomes enabled ends the wait of a parked hart, which keeps only that it
was a WFI's or a BARW's; a watchdog whose window has passed marks its hart with its ASID, or is unbound where the hart has
exited; binding takes a free unit and unbinding frees it; the ustat image and the module's registers are written. -/
def Obligations.TrapsInterruptsAndWatchdogsHappen : Prop :=
  ∀ (s : State),
    let h := s.arg.a
    let x := getHart s h
    let u := cutBack (focus s h)
    let readied (v : State) : State := setHart v h { getHart v h with
      slot := .ready, readyAt := v.cycle
      stall := match (getHart v h).stall with
        | some .irq => some .irq | some (.barrier b k) => some (.barrier b k) | _ => none }
    let ended (v : State) : Bool := match (getHart v h).stall with | some c => stallOver v h c | none => true
    let wakes (o : Out) (v : State) : Prop :=
      (x.slot = .waiting → ended v = true ∨ interrupted v h = true → o = .next (readied v)) ∧
      (x.slot ≠ .waiting → o = .next v) ∧
      (∀ c, x.slot = .waiting → (getHart v h).stall = some c → stallOver v h c = false → interrupted v h = false →
        (polls v h c = false → o = .next v) ∧ (polls v h c = true → o = .next (pollAgain v h)))
    let once (o : Out) (v t : State) (wait : Prop) : Prop :=
      (preAdmitted v h = false → isDrained v = true → o = .next t) ∧
      (preAdmitted v h = false → isDrained v = false → wait)
    (∀ r, s.arg.trap = some r → x.slot = .issuing → once (exec .trapDelivery s) (focus s h) (deliver (focus s h) r)
      (∃ y, exec .trapDelivery s = .next { closeChunk (focus s h) with cur := y } ∧ y.due = some r)) ∧
    (∀ r, interruptFor u h = some r → x.slot = .issuing → x.due = none →
      once (exec .interruptDelivery s) u (deliver u r) (exec .interruptDelivery s = .next (closeChunk u))) ∧
    (interruptFor s h = none → x.uip = true → x.arch.uie = true → x.arch.inh = false → x.arch.mode = .u →
      x.slot = .issuing →
      once (exec .userInterrupt s) u (deliverUser u) (exec .userInterrupt s = .next (closeChunk u))) ∧
    (x.slot ≠ .free → s.arg.b = 3 → once (exec .machineCheck s) u
      (deliver u ⟨0x14, true, u.cur.arch.pc, BitVec.ofNat 64 (3 * 2 ^ 60 + h), 0⟩)
      (exec .machineCheck s = .next (after (closeChunk u) 1 (.machineCheck, s.arg)))) ∧
    (tabWf Hart.reset s.harts = true →
      (x.slot ≠ .free → s.arg.b ≠ 3 → wakes (exec .machineCheck s) (modHart s h fun y => { y with mck := y.mck ++ [s.arg.b] })) ∧
      wakes (exec .timecmpMatch s) s ∧
      wakes (exec .swintWrite s) (modHart s h fun y => { y with swint := s.arg.flag })) ∧
    (∀ d, tabGet Dog.reset s.dogs h = d → d.asid ≠ none → d.spent = false → d.stopped = none →
      d.pulseAt + d.win * 1000 ≤ s.mtime →
      (d.hart = none → exec .watchdog s =
        .next { s with dogs := tabPut Dog.reset s.dogs h Dog.reset, extstat := s.extstat ||| 16 }) ∧
      (∀ k, d.hart = some k → exec .watchdog s =
        .next (endWait (modHart { s with dogs := tabPut Dog.reset s.dogs h { d with fired := true, spent := true } } k
          fun y => { y with wdp := match y.wdp with | some a => some a | none => d.asid }) k))) ∧
    (tabWf Dog.reset s.dogs = true →
      (∀ n, n < 64 → tabGet Dog.reset s.dogs n = Dog.reset → (∀ d ∈ s.dogs, d.2.asid ≠ some x.arch.asid) →
        ∃ t k, exec .wdwinBind s = .next t ∧ k < 64 ∧ (tabGet Dog.reset s.dogs k).asid = none ∧
          tabGet Dog.reset t.dogs k = ⟨some x.arch.asid, Nat.max 1 (Nat.min s.arg.b 10000000), some h, s.mtime,
            if thermalHold s then some 0 else none, false, false⟩ ∧
          ∀ j, j ≠ k → tabGet Dog.reset t.dogs j = tabGet Dog.reset s.dogs j) ∧
      (∀ n d, dogOf s x.arch.asid = some (n, d) → ∃ t, exec .wdwinUnbind s = .next t ∧
        tabGet Dog.reset t.dogs n = Dog.reset ∧ ∀ j, j ≠ n → tabGet Dog.reset t.dogs j = tabGet Dog.reset s.dogs j)) ∧
    (exec .ustatImageWrite s = .next (modHart s h fun y => ustatImage y s.arg.word)) ∧
    (let y := ustatImage x s.arg.word
     y.arch.uie = s.arg.word.getLsbD 0 ∧ y.uip = s.arg.word.getLsbD 1 ∧ y.arch.inh = s.arg.word.getLsbD 2 ∧
     ∀ k : Fin 8, y.arch.g[56 + k.val] =
       if x.arch.inh = s.arg.word.getLsbD 2 then x.arch.g[56 + k.val] else x.arch.shadow[k]) ∧
    (x.arch.mode ≠ .u →
      let m := decide (x.arch.mode = .m)
      exec .registerWrite s = .next (ctlWrite s m (0x3FF00000000 + s.arg.b) s.arg.word)) ∧
    (let back (m : Bool) (o : Nat) : Word := ctlRead (ctlWrite s m (0x3FF00000000 + o) s.arg.word) m (0x3FF00000000 + o)
     let v := s.arg.word
     back true 0x400008 = v &&& 0x00FFFFFFFFFFFFF8 ∧ back false 0x400008 = 0 ∧
     back true 0x400010 = v &&& 0xFFF ∧ back true 0x400020 = v &&& 0x3F ∧
     back true 0x400018 = (s.extstat &&& ~~~(v.setWidth 6)).setWidth 64 ∧ back true 0x300010 = v &&& 0x00FFFFFFFFFF0001)

/-- R207, R226, R369 to R377: the decoder takes the chosen hart; a hart that has to be parked leaves its position when its
chunks commit, a Ready hart comes in after 40 cycles, and one that waits too long takes the place of the hart that has
issued longest; an ended wait makes a parked hart Ready; of a die's gangs that can place a member the first accepted one does,
in the slot of the scan of R374; of its ready nodes the first of the highest effective level that can be placed is, in its
affinity cluster, or after 2,000 cycles or without affinity in the die. -/
def Obligations.HartsAreScheduledAndPlaced : Prop :=
  ∀ (s : State),
    let n := s.arg.a
    let cands := (inState s n .issuing).filter (candidate s)
    (∀ h, decodeChoice s n = some h → ∃ t, exec .decodeSelect s = .next t ∧ h ∈ cands ∧ t.sched = s.sched ++ [h] ∧
      t.cur.arch = s.cur.arch ∧ t.mem = s.mem ∧
      ((∃ k ∈ cands, 32 ≤ (getHart s k).starve) → 32 ≤ (getHart s h).starve) ∧
      ((∀ k ∈ cands, (getHart s k).starve < 32) → ∀ k ∈ cands, decodeLoad s h ≤ decodeLoad s k) ∧
      (tabWf Core.reset s.cores = true → (getCore t n).chosen = some h)) ∧
    (let u := cutBack (focus s n)
     (getHart s n).leave = none → mustPark s n = true → preAdmitted u n = false →
      (isDrained u = true → ∃ t, exec .park s = .next t ∧ t.curId = n ∧ t.cur.arch = u.cur.arch ∧
        t.cur.chunk = Chunk.fresh u.cur.arch ∧ t.mem = u.mem ∧
        (∀ c, u.cur.stall = some c → stallOver u n c = false → t.cur.slot = .waiting ∧ t.cur.stall = some c) ∧
        (u.cur.stall = none → t.cur.slot = .ready)) ∧
      (isDrained u = false → ∃ y, exec .park s = .next { closeChunk u with cur := y } ∧ y.leave = some false)) ∧
    (∀ r, (getHart s n).leave = some r → canLeave s n = true → exec .park s = .next (parkCur (focus s n) r)) ∧
    (∀ h, (inState s n .issuing).length < 2 → oldestReady s n = some h → tabWf Hart.reset s.harts = true → ∃ t,
      exec .bringIn s = .next t ∧ (getHart t h).slot = .issuing ∧ (getHart t h).issuedAt = s.cycle + 40 ∧
      (getHart t h).arch = (getHart s h).arch ∧ (getHart s h).slot = .ready ∧
      ∀ k ∈ inState s n .ready, contextHeld s k = false → (getHart s h).readyAt ≤ (getHart s k).readyAt) ∧
    (∀ h, let core := coreOf n
      h ∈ inState s core .ready → (getHart s h).readyAt + 100000 ≤ s.cycle → 2 ≤ (inState s core .issuing).length →
      victimOf s core = some n →
      exec .preempt s = .next (bringInCore (parkCur (focus s n) true) core) ∧ n ∈ inState s core .issuing ∧
      (getHart s n).issuedAt + 2000 ≤ s.cycle ∧
      ∀ k ∈ inState s core .issuing, (getHart s k).issuedAt + 2000 ≤ s.cycle →
        (getHart s n).issuedAt ≤ (getHart s k).issuedAt) ∧
    (∀ c, (getHart s n).slot = .waiting → (getHart s n).stall = some c →
      stallOver s n c = true ∨ interrupted s n = true → exec .waitEnd s = .next (setHart s n { getHart s n with
        slot := .ready, readyAt := s.cycle
        stall := match c with | .irq => some .irq | .barrier b k => some (.barrier b k) | _ => none })) ∧
    (∀ g : Gang, g.place ≤ 3 → placesBy s g.tmpl.hreq (coreOf g.creator) g.place (gangSlot s g)) ∧
    (∀ b, gangChoice s n = some b → ∃ g, (b, some g) ∈ (getDie s n).gens ∧ gangSlot s g ≠ none ∧
      ∀ e ∈ (getDie s n).gens, ∀ k, e.2 = some k → gangSlot s k ≠ none → g.since ≤ k.since) ∧
    (∀ g h, tabGet none (getDie s n).gens s.arg.b = some g → gangSlot s g = some h → ∃ t,
      exec .gangMemberPlace s = .next (modDie t n fun d => { d with
        gens := tabPut none d.gens s.arg.b (if g.next + 1 < gangSize g.rule g.ext then some { g with next := g.next + 1 } else none)
        poolTurn := true }) ∧
      t = placeHart s h (memberArch g) g.prio g.cc ∧ (memberArch g).pc = g.tmpl.pc ∧ (memberArch g).gext = g.ext ∧
      (memberArch g).gid = memberAt g.rule g.ext g.next) ∧
    (let level (x : Node) : Nat := Nat.min 7 (x.prio + (s.cycle - x.readyAt) / 50000)
     let goes (x : Node) (o : Option Nat) : Prop :=
       (x.aff = none → placesBy s x.hreq (128 * n) 2 o) ∧
       (∀ cl, x.aff = some cl → (∃ h, o = some h ∧ scanned s x.hreq (16 * cl) 1 h) ∨
         ((∀ h, clusterOf h = cl → takesHart s x.hreq h = false) ∧
           (x.readyAt + 2000 ≤ s.cycle → placesBy s x.hreq (128 * n) 2 o) ∧ (s.cycle < x.readyAt + 2000 → o = none)))
     let ready (k : Nat) (x : Node) : Prop := (getDie s n).pool[k]? = some x ∧ x.start = none
     (∀ k h, nodeChoice s n = some (k, h) → ∃ x, ready k x ∧ goes x (some h) ∧
       ∀ j y, ready j y → level x < level y ∨ (level x = level y ∧ j < k) → goes y none) ∧
     (nodeChoice s n = none → ∀ j y, ready j y → goes y none)) ∧
    (∀ k h node, (∀ m ∈ (getDie s n).pool, stuckNode s n m = false) → nodeChoice s n = some (k, h) →
      (getDie s n).pool[k]? = some node → exec .readyPoolPlace s =
        .next (modDie (placeHart s h node.tmpl node.prio node.cc) n fun d => { d with
          pool := d.pool.eraseIdx k, poolTurn := false }) ∧ node.start = none) ∧
    (∀ h (a : Arch) (pr : Nat) (cc : Word), tabWf Hart.reset s.harts = true →
      let x := getHart (placeHart s h a pr cc) h
      x.slot = .ready ∧ x.prio = pr ∧ x.cc = cc ∧ x.readyAt = s.cycle ∧ x.fifo = (getHart s h).fifo ∧
      x.arch = { a with sbank := (getHart s h).arch.sbank, mbank := (getHart s h).arch.mbank, mrec := (getHart s h).arch.mrec })

/-- R57, R74, R75, R378 to R381: a tile instruction takes its units of the rename reserve where it has them; an operation
joins the queue of the engine of its accumulator or else of a shortest queue, with the next age; an idle engine starts the
operation that its slot table gives, eight cycles later where it does not hold the accumulator, and it ends after its
cycles; four requests of the special-function unit leave its queue at a time, their results come 12 cycles later, and the
instruction that waits for one goes on. -/
def Obligations.TileEnginesAndTheSfuRun : Prop :=
  ∀ (s : State), tabWf Cluster.reset s.clusters = true →
    let h := s.arg.a
    let cl := clusterOf h
    let engine (t : State) (k e : Nat) : Engine := getEngine t k e
    (reserveFits cl (reserveUse s cl ++ [(h, s.arg.b)]) = true → ∃ t, exec .tileRename s = .next t ∧
      (getCluster t cl).renames = (getCluster s cl).renames ++ [(h, s.arg.b)] ∧ t.cur = s.cur ∧ t.mem = s.mem) ∧
    (reserveFits cl (reserveUse s cl ++ [(h, s.arg.b)]) = false → exec .tileRename s = .next s) ∧
    (∀ op e, s.arg.op = some op → op ∈ (getCluster s (clusterOf op.hart)).undispatched →
      engineFor s (clusterOf op.hart) op = some e → ∃ t,
      let k := clusterOf op.hart
      exec .engineDispatch s = .next (modEngine t k e fun x => { x with
        queue := x.queue ++ [⟨op, (getCluster s k).age⟩] }) ∧ t.cur = s.cur ∧ t.mem = s.mem ∧ e < 4 ∧ (engine s k e).retired = false ∧ (engine s k e).queue.length < 32 ∧
      (getCluster t k).undispatched = (getCluster s k).undispatched.erase op ∧
      (getCluster t k).age = (getCluster s k).age + 1 ∧
      (op.acc.isSome = true → (getCluster t k).engines = (getCluster s k).engines) ∧
      ((∀ f, f < 4 → bound (engine s k f) op = false) →
        ∀ f, f < 4 → hasRoom (engine s k f) op.asid = true → (engine s k e).queue.length ≤ (engine s k f).queue.length)) ∧
    (∀ q asid lent, let e := s.arg.b
      (engine s h e).run = none → startOf s h e = some (q, asid, lent) →
      exec .engineOpStart s = .next (pulse (modEngine s h e fun x => { x with
        queue := x.queue.erase q
        run := some (q, s.cycle + q.op.cycles + if q.op.acc ≠ none ∧ x.latch ≠ q.op.acc then 8 else 0)
        lend := if lent then asid else x.lend, latch := if q.op.acc = none then x.latch else q.op.out }) asid) ∧
      q ∈ (engine s h e).queue ∧ opReady s h q = true ∧ q.op.asid = asid ∧
      ∀ p ∈ (engine s h e).queue, opReady s h p = true → p.op.asid = asid → q.age ≤ p.age) ∧
    (∀ e, let g := governing (engine s h e) s.cycle
      (g.own = true → (∃ q ∈ (engine s h e).queue, opReady s h q = true ∧ q.op.asid = g.asid) →
        turnOf s h e = some (g.asid, false)) ∧
      (∀ a, turnOf s h e = some (a, true) → ∃ q ∈ (engine s h e).queue, opReady s h q = true ∧ q.op.asid = a)) ∧
    (∀ q t0, let e := s.arg.b
      (engine s h e).run = some (q, t0) → t0 ≤ s.cycle →
      ∃ t, exec .engineOpComplete s = .next t ∧ t.mem = s.mem ∧ (getCluster t h).engines =
        tabMod Engine.reset (getCluster s h).engines e (fun x => { x with run := none })) ∧
    (∃ t, exec .sfuDequeue s = .next t ∧ (getCluster t h).sfuQ = (getCluster s h).sfuQ.drop 4 ∧
      (getCluster t h).sfuOut = (getCluster s h).sfuOut ++ ((getCluster s h).sfuQ.take 4).map fun k => (k, s.cycle + 12)) ∧
    (∀ k t0 later, (getCluster s h).sfuOut = (k, t0) :: later → t0 ≤ s.cycle → ∃ t,
      exec .sfuResult s = .next t ∧ (getCluster t h).sfuOut = later ∧ (getCluster t h).sfuQ = (getCluster s h).sfuQ ∧
      (tabWf Hart.reset s.harts = true → (getHart s k).sfu = some false → (getHart t k).sfu = some true))

/-- R27, R31, R32, R37 to R43, R370: a walk reads an entry at each level as a coherent double word, keeps it in the walk
cache, and ends in a leaf or a fault; its leaf has A set, and D for a write that is allowed, and only the leaf changes in
memory; a hart, or a command, without a translation waits for a walk of its leaf, whose answer brings the leaf into the TLB of
the hart's core. The sequencer
sends an invalidation to the four dies; a die loses what it selects, and it is complete when the dies, the commands and the
chunks that it waits for are done. -/
def Obligations.WalksFillAndInvalidationsRemove : Prop :=
  (∀ (s : State) (cl va lvl table : Nat),
    let addr := table + 8 * (va / 2 ^ (12 + 9 * lvl) % 512)
    let e := readBytes s.mem addr 8
    let kept : State := walkPut s cl ⟨addr, lvl, e⟩
    (stageRefused s addr = true → walkFrom cl va lvl table s = (s, .fault 0x07)) ∧
    (stageRefused s addr = false → (∀ x ∈ (getCluster s cl).walkCache, x.pa ≠ addr) →
    (entryHeld s cl addr false = false → walkFrom cl va lvl table s = (s, .need (addr / 128) false)) ∧
    (entryHeld s cl addr false = true →
      (pteBit e 0 = false → walkFrom cl va lvl table s = (s, .fault 0x06)) ∧
      (pteBit e 0 = true → pteBit e 1 = true ∨ pteBit e 2 = true ∨ pteBit e 3 = true →
        walkFrom cl va lvl table s = if leafOk e lvl then (kept, .leaf e addr) else (s, .fault 0x07)) ∧
      (pteBit e 0 = true → pteBit e 1 = false → pteBit e 2 = false → pteBit e 3 = false →
        (lvl = 0 ∨ pointerOk s.dev e = false → walkFrom cl va lvl table s = (s, .fault 0x07)) ∧
        (lvl ≠ 0 → pointerOk s.dev e = true → walkFrom cl va lvl table s = walkFrom cl va (lvl - 1) (ptePpn e) kept))))) ∧
  (∀ (s t : State) (w : Who) (r : AccReq) (a : Word) (va e addr : Nat), walkFor w r a va s = (t, .leaf e addr) →
    Memory.wf s.mem = true →
    pteBit e 6 = true ∧
    (∀ x, needsD r = true → checkLeaf t w r a va (tlbEntry w.asid va e addr) = .val x → pteBit e 7 = true) ∧
    ∀ b, b < addr ∨ addr + 8 ≤ b → readByte t.mem b = readByte s.mem b) ∧
  (∀ (s : State) (w : Who) (cmd : Bool) (r : AccReq) (a : Word) (va : Nat), tabWf Cluster.reset s.clusters = true →
    walkAnswer s w cmd va = none → cmd = true ∨ (tlbFind s (coreOf w.hart) w.asid va).2 = none →
    ∃ t, lookup s w cmd r a va = (t, .wait (.miss .walk)) ∧ t.mem = s.mem ∧
      ∃ q ∈ (getCluster t (clusterOf w.hart)).walks, q.asid = w.asid ∧ q.root = w.root ∧
        (q.va / 4096 = va / 4096 ∨ ∃ b, leafBits s q.va 4 (w.root.toNat % 2 ^ 56 / 4096 * 4096) = some b ∧ q.va / 2 ^ b = va / 2 ^ b) ∧
        w.hart ∈ if cmd then q.forCmds else q.forHarts) ∧
  (∀ (s t : State) (q : WalkReq),
    let cl := clusterOf s.arg.a
    (getCluster s cl).walks.find? (fun q => q.hart == s.arg.a && q.addr == s.arg.word && q.kind == s.arg.kind) = some q →
    tabWf Core.reset t.cores = true → tabWf Hart.reset t.harts = true →
    let answered (u : State) (x : Walked) : Prop :=
      (∀ h ∈ q.forHarts, x ∈ (getHart u h).walked) ∧
      ∀ h ∈ q.forCmds, (getHart t h).fifo.cmds ≠ [] → ∃ c, (getHart u h).fifo.cmds.head? = some c ∧ x ∈ c.walked
    (∀ e addr, walkFor q.who q.acc q.addr q.va s = (t, .leaf e addr) →
      let leaf := tlbEntry q.asid q.va e addr
      ∃ u, exec .pageWalk s = .next u ∧ u.mem = t.mem ∧ answered u ⟨q.asid, q.root, q.va / 4096, some leaf, 0⟩ ∧
        ∀ h ∈ q.forHarts, leaf ∈ (getCore u (coreOf h)).tlb1) ∧
    (∀ code, walkFor q.who q.acc q.addr q.va s = (t, .fault code) → ∃ u, exec .pageWalk s = .next u ∧ u.mem = t.mem ∧
      answered u ⟨q.asid, q.root, q.va / 4096, none, code⟩) ∧
    (∀ l own, walkFor q.who q.acc q.addr q.va s = (t, .need l own) →
      exec .pageWalk s = .next (if clusterHolds t cl l 0 own then t else askLine t noHart cl l 0 0 (fillFor own)))) ∧
  (∀ (s : State) (before : List Inv) (i : Inv) (later : List Inv), s.invs = before ++ i :: later →
    let d := s.arg.a
    (i.sent = false → (if s.arg.flag then s.arg.b = i.id ∧ ∀ j ∈ before, j.id ≠ i.id else ∀ j ∈ before, j.sent = true) →
      ∃ t, exec .tlbinvSequence s = .next t ∧ t.invs = before ++ { i with sent := true } :: later ∧ t.mem = s.mem) ∧
    (i.sent = true → s.arg.flag = true → s.arg.b = i.id → (∀ j ∈ before, j.id ≠ i.id) → d < 4 → d ∉ i.dies →
      tabWf Core.reset s.cores = true → tabWf Cluster.reset s.clusters = true → tabWf Hart.reset s.harts = true →
      ∃ t, exec .tlbinvSequence s = .next t ∧
      (∀ c e, c / 128 = d → (e ∈ (getCore t c).tlb1 ∨ ∃ k, e ∈ tabGet [] (getCore t c).tlb2 k) →
        invHits i (entUse e) = false) ∧
      (∀ c, c / 8 = d → i.form ≠ 0 → (getCluster t c).walkCache = []) ∧
      (∀ c e, c / 8 = d → i.form = 0 → e ∈ (getCluster t c).walkCache →
        e.pa / 8 % 512 ≠ i.va.toNat / 2 ^ (12 + 9 * e.lvl) % 512) ∧
      (∃ cmds, t.invs = before ++ { i with dies := setInsert i.dies d, cmds := i.cmds ++ cmds } :: later ∧
        ∀ h n, (h, n) ∈ cmds → dieOf h = d ∧ 0 < n ∧ n ≤ (getHart s h).fifo.cmds.length) ∧ t.mem = s.mem ∧ t.hbm = s.hbm)) ∧
  (∀ (s : State) (i : Inv), s.invs[s.arg.a]? = some i → i.sent = true → i.done = false → i.dies.length = 4 →
    (∀ c ∈ i.cmds, c.2 = 0) → (∀ h ∈ hartIds s, ∀ c ∈ (getHart s h).inflight, invMark i ∉ c.trans) →
    exec .tlbinvComplete s = .next (wakeCommands { s with
      invs := if i.hart = noHart then s.invs.eraseIdx s.arg.a else s.invs.set s.arg.a { i with done := true } }))

/-- R97 to R106, R111, R272: a request of a cluster that its die observes waits behind an earlier one of the line and behind
admitted chunks, in slot order, a prefetch that would meet a mark is dropped, and the others are answered by the agent that owns
the line, or go to the home; the home grants, shares or asks the holders, one transaction on a line at a time: a recorded sharer
or O holder is upgraded without data, whoever else holds the line is invalidated; a snooped die gives the line up or shares it
and answers; data fill the cluster that waits; an eviction reaches the LLC and the stack. -/
def Obligations.CoherenceRequestsAndAnswersAct : Prop :=
  ∀ (s : State), tabWf LineCoh.reset s.coh = true →
    let a := s.arg.a
    let l := s.arg.b
    let c := getCoh s l
    let e := c.dir
    let dataTo (x : State) (k : Nat) : Arg := { a := k, b := l, data := committedLine x l }
    -- requests of a cluster
    (let d := a / 8
     let f (own : Bool) : Fill := (c.fills.find? fun f => f.cl == a).getD
       ⟨a, if own then .write else .read, [], 0, tabGet 0 s.lineTd l, false, false, []⟩
     let scope (own : Bool) (h : Nat) : Bool := dieOf h == d && !((f own).harts.any fun x => x.1 == h)
     let v (own : Bool) : State := snoopIn s (scope own) own l
     let asked (own : Bool) : FillKind :=
       if (f own).kind = .excl ∧ (∃ k ∈ agentsOf d, cacheSt c k = .m ∨ cacheSt c k = .o) then .write else (f own).kind
     let begins (x : State) (own data : Bool) : State := modCoh x l fun c =>
       { c with fills := c.fills.erase (f own) ++ [{ f own with active := true, data := data, kind := asked own }] }
     let dropped (own : Bool) : Prop := (f own).kind.pref = true ∧ meetsMark s (f own).kind l = true
     let again : Arg := { s.arg with flag := true }
     let goesOn (i : Instr) (own : Bool) : Prop :=
       activeFill c d = none ∧ ¬ dropped own ∧ waitsBehind s (i, s.arg) (scope own) own = false
     (∀ i own, (i, own) ∈ [(Instr.gets, false), (.getm, true), (.upg, true)] → (i = .upg → s.arg.c ≠ 1) →
       ((activeFill c d).isSome = true →
         exec i s = .next (modCoh s l fun c => { c with later := c.later ++ [(d, (i, again))] })) ∧
       (activeFill c d = none → dropped own → exec i s = .next (modCoh s l fun c => { c with fills := c.fills.erase (f own) })) ∧
       (activeFill c d = none → ¬ dropped own → waitsBehind s (i, s.arg) (scope own) own = true → ∃ n,
         exec i s = .next (after s 1 (i, { again with nums := [n] })) ∧
         (s.arg.flag = true → n = slotNumber s.arg) ∧ (s.arg.flag = false → ∀ k ∈ waiters s (i, s.arg), k < n)) ∧
       ((snoopWaitsIn s (scope own) own l = true ∨ ∃ n ∈ waiters s (i, s.arg), s.arg.flag = false ∨ n < slotNumber s.arg) ↔
         waitsBehind s (i, s.arg) (scope own) own = true)) ∧
     (goesOn .gets false →
       (∀ k, supplier c d = some k → ∃ x, exec .gets s = .next (after x 0 (.data, dataTo x d)) ∧
         x = begins (modCoh (v false) l fun y => shareDie y d) false false) ∧
       (supplier c d = none → exec .gets s = .next (after (begins (v false) false false) 0 (two .rds d l)))) ∧
     (∀ i, i = .getm ∨ (i = .upg ∧ s.arg.c ≠ 1) → goesOn i true →
       (cacheSt c (clKey a) ≠ .i → exec i s = .next (after (begins (dropDie (v true) l d (some (clKey a))) true true) 0
         (.upg, { a := d, b := l, c := 1 }))) ∧
       (cacheSt c (clKey a) = .i →
         let w := dropDie (v true) l d none
         (∀ k, supplier c d = some k → cacheSt c k = .o → exec i s = .next (after (begins w true true) 0 (two .rdm d l))) ∧
         (∀ k, supplier c d = some k → cacheSt c k ≠ .o →
           exec i s = .next (after (begins w true false) 0 (.datae, dataTo w d))) ∧
         (supplier c d = none → exec i s = .next (after (begins w true false) 0 (two .rdm d l))))) ∧
     (∀ k, k ∈ agentsOf d → d < 4 → tabWf Moesi.i c.caches = true →
       cacheSt (shareDie c d) k = match cacheSt c k with | .m => .o | .e => .s | x => x)) ∧
    -- snoops of a die
    (let v (own : Bool) : State := snoopIn s (onDie a none) own l
     let cv (own : Bool) : LineCoh := getCoh (v own) l
     let st := dieState (cv true) a
     let dirty : Bool := st == .m || st == .o
     let buffered (own : Bool) : Bool := (cv own).wb.any fun w => w.1 == a
     let gives (own : Bool) (x : State) : State :=
       match (cv own).busy with
       | none => x
       | some t => if t.kind = .pwr then writeBack x l else if t.kind = .evict ∨ t.kind = .snoop then x else answerData x t l false
     let gone := dropDie (v true) l a none
     (∀ i own, (i, own) ∈ [(Instr.fwds, false), (.fwdm, true), (.inv, true), (.backinv, true)] →
       snoopWaitsIn s (onDie a none) own l = true → exec i s = .next (after s 1 (i, s.arg))) ∧
     (snoopWaitsIn s (onDie a none) false l = false →
       (∀ k, supplier (cv false) a = some k → ∃ b : Bool,
         exec .fwds s = .next (after (gives false (modCoh (v false) l fun c => shareDie c a)) 0
           (.fwdack, { a := a, b := l, flag := b })) ∧ (b = true ↔ dieState (cv false) a = .m ∨ dieState (cv false) a = .o)) ∧
       (supplier (cv false) a = none → buffered false = true →
         exec .fwds s = .next (after (gives false (v false)) 0 (two .fwdack a l))) ∧
       (supplier (cv false) a = none → buffered false = false → exec .fwds s = .next (after (v false) 0 (two .fwdmiss a l)))) ∧
     (snoopWaitsIn s (onDie a none) true l = false →
       (ownState st = true ∨ buffered true = true → exec .fwdm s = .next (after (gives true gone) 0 (two .fwdack a l))) ∧
       (ownState st = false → buffered true = false → exec .fwdm s = .next (after gone 0 (two .fwdmiss a l))) ∧
       exec .inv s = .next (after (dropDie (if dirty then writeBack (v true) l else v true) l a none) 0 (two .invack a l)) ∧
       (dirty = false ∨ lineDev l ≠ gone.dev → exec .backinv s = .next (after gone 0 (two .invack a l))) ∧
       (dirty = true → lineDev l = gone.dev → ∃ y,
         exec .backinv s = .next (after (after (modCoh gone l fun c => { c with wb := some (a, y) }) 0
         (.wbdata, { a := a, b := l, data := y })) 0 (two .invack a l)) ∧ y = committedLine gone l))) ∧
    -- the home, for requests of a die
    (∀ i k, (i, k) ∈ [(Instr.rds, TxnKind.rds), (.rdm, .rdm), (.upg, .upg)] → (i = .upg → s.arg.c = 1) →
      c.busy.isSome = true ∨ c.queue ≠ [] →
      exec i s = .next (modCoh s l fun c => { c with queue := c.queue ++ [dieTxn s k a l] })) ∧
    (c.busy = none → c.queue = [] → memHeld s l = false → setFull s l = false → lineDev l = s.dev →
      let m : DirEnt := ⟨.m, false, a, [], false, [], s.cycle⟩
      let ds := otherDies s l e (some a)
      let ms := otherMods s e none
      let alone : Prop := ds = [] ∧ ms = []
      let owner : Prop := ownState e.st = true ∧ e.rown = false ∧ e.owner = a
      let current : Nat := if e.st = .m ∨ e.st = .o then 0 else 1
      let completed (x : State) : State := after x 0 (.complete, { a := a, b := l, c := current, flag := true })
      (let t := dieTxn s .rds a l
       let w := readHome s l t
       (e.st = .i → ∃ x, x = setDir w l ⟨.e, false, a, [], false, [], s.cycle⟩ ∧
         exec .rds s = .next (after x 0 (.datae, dataTo x a))) ∧
       (e.st = .s → ∃ x, x = setDir w l { e with sharers := setInsert e.sharers a, used := s.cycle } ∧
         exec .rds s = .next (after x 0 (.data, dataTo x a))) ∧
       (ownState e.st = true → e.rown = false →
         exec .rds s = .next (offer (setBusy s l (some { t with wait := 1 })) e.owner 8 (two .fwds e.owner l))) ∧
       (∀ k rest, ownState e.st = true → e.rown = true → e.rem = k :: rest →
         exec .rds s = .next (snoopMod t 0x11 l (setBusy s l (some { t with wait := 1 })) k))) ∧
      (let t := dieTxn s .rdm a l
       let w := readHome s l t
       let has := t.hasData s l e = true
       (alone → ¬ has → e.st ≠ .s → ∃ x, x = setDir w l m ∧ exec .rdm s = .next (after x 0 (.datae, dataTo x a))) ∧
       (alone → e.st = .s → ∃ x, x = setDir w l m ∧ exec .rdm s = .next (completed (after x 0 (.data, dataTo x a)))) ∧
       (alone → has → exec .rdm s = .next (completed (setDir s l m))) ∧
       (has → owner) ∧ (owner → e.st ≠ .e → has) ∧
       (¬ alone →
         let u := startSnoops s l t .fwdm .inv 0x12 0x13 ds ms e
         (ownState e.st = false → exec .rdm s = .next (answerData (readHome u l t) t l false)) ∧
         (ownState e.st = true → ¬ owner → exec .rdm s = .next u) ∧
         (owner → exec .rdm s = .next (if t.hasData u l e then u else answerData (readHome u l t) t l false)))) ∧
      (s.arg.c = 1 →
        let t := dieTxn s .upg a l
        let recorded : Prop := (a ∈ e.sharers ∨ owner) ∧ (e.st = .s ∨ e.st = .o)
        (recorded → alone → exec .upg s = .next (completed (setDir s l m))) ∧
        (recorded → ¬ alone → exec .upg s = .next (startSnoops s l t .inv .inv 0x13 0x13 ds ms e)) ∧
        (¬ recorded → exec .upg s = exec .rdm s))) ∧
    (∀ t i j p q ds ms x, (getCoh (startSnoops s l t i j p q ds ms x) l).busy = some { t with wait := ds.length + ms.length }) ∧
    -- answers at the home
    (∀ t, c.busy = some t →
      let w : State := if s.arg.flag then
        modCoh s l (fun c => { c with dir := if c.dir.st = .e then { c.dir with st := .m } else c.dir }) else s
      let last (x : State) : State := if t.fwd then
        startSnoops x l { t with fwd := false } .fwdm .inv 0x12 0x13 (ownerDie (getCoh x l).dir).toList
          (ownerMod (getCoh x l).dir).toList (getCoh x l).dir else homeFinish x l
      (1 < t.wait → exec .invack s = .next (setBusy s l (some { t with wait := t.wait - 1 })) ∧
        exec .fwdack s = .next (setBusy w l (some { t with wait := t.wait - 1 }))) ∧
      (t.wait ≤ 1 → exec .invack s = .next (last s) ∧ exec .fwdack s = .next (last w)) ∧
      (t.kind ≠ .pwr → t.kind ≠ .evict → t.kind ≠ .snoop → exec .fwdmiss s =
        .next (homeAnswer (answerData (if e.st = .e then readHome s l t else s) t l false) l)) ∧
      (t.kind = .snoop → homeFinish s l = answerSnoop s l t) ∧
      (t.msg = none → t.kind = .rdm ∨ t.kind = .upg → (∀ x ∈ s.coh, x.2.queue = []) →
        homeFinish s l = after (setDir (setBusy s l none) l ⟨.m, false, t.req, [], false, [], s.cycle⟩) 0
          (.complete, { a := t.req, b := l, c := if e.st = .m ∨ e.st = .o then 0 else 1, flag := true }))) ∧
    -- data and write-backs
    (activeFill c a = none → exec .data s = .next s ∧ exec .datae s = .next s ∧ exec .complete s = .next s) ∧
    (∀ f, activeFill c a = some f → a < 4 → tabWf Moesi.i c.caches = true →
      let fills (o : Out) (st : Moesi) : Prop := f.own = true ∨ l2Place f.hint false ≠ .none → l2Full s f.cl l = false →
        ∃ u, o = .next u ∧ cacheSt (getCoh u l) (clKey f.cl) = (if f.kind = .write ∨ f.kind = .zero then .m else st) ∧
          (getCoh u l).fills = c.fills.erase f
      (f.own = true → exec .data s = .next (modCoh s l fun c => setFill c f { f with data := true })) ∧
      (f.own = false → fills (exec .data s) .s) ∧ fills (exec .datae s) .e ∧
      (s.arg.flag = true → fills (exec .complete s) (if s.arg.c = 1 then .e else .m)) ∧
      (s.arg.flag = false → exec .complete s = .next s)) ∧
    exec .ack s = .next s ∧
    (∀ st, a < 32 → cacheSt c (clKey a) = st → st = .m ∨ st = .o → tabWf Moesi.i c.caches = true →
      ∃ u, exec .evictm s = .next u ∧ cacheSt (getCoh u l) (clKey a) = .i ∧
        ((llcWays s (a / 8) l).length < 24 → cacheSt (getCoh u l) (llcKey (a / 8)) = st)) ∧
    (let wrote (x : State) : Prop :=
       (memHeld s l = false → exec .wbdata s = .next (after (writeBack x l) 0 (two .wback a l))) ∧
       (memHeld s l = true → trained s = true → lineDev l = s.dev → tabWf Hbm.reset s.hbms = true → ∃ u r,
         exec .wbdata s = .next u ∧ r.req.op = .write ∧ r.req.line = l ∧ r.owed = .wback a ∧ u.events = s.events ∧
         u.hbm = s.hbm ∧ (getHbm u (placeOf s l).1).waiting = (getHbm s (placeOf s l).1).waiting ++ [r])
     (ownerDie e ≠ some a → exec .wbdata s = .next (after s 0 (two .wback a l))) ∧
     (ownerDie e = some a → c.busy.isSome = true → wrote s) ∧
     (ownerDie e = some a → c.busy = none → e.st ≠ .o → wrote (setDir s l DirEnt.none)) ∧
     (ownerDie e = some a → c.busy = none → e.st = .o → ∃ x : DirEnt, wrote (setDir s l x) ∧
       x.owner = 0 ∧ x.sharers = e.sharers.filter (· != a) ∧ x.rem = e.rem ∧ x.bcast = e.bcast ∧
       (x.sharers = [] → e.rem = [] → e.bcast = false → x.st = .i) ∧
       (x.sharers ≠ [] ∨ e.rem ≠ [] ∨ e.bcast = true → x.st = .s))) ∧
    (snoopUnderWay s a l = true → exec .wback s = .next (after s 1 (.wback, s.arg))) ∧
    (snoopUnderWay s a l = false → exec .wback s = .next (homeGo (modCoh s l fun c => { c with wb := none }) l)) ∧
    (lineDev l = s.dev → trained s = true → memHeld s l = false → Memory.wf s.hbm = true → tabGet 0 s.lineTd l = 0 →
      readBytes (writeBack s l).hbm (l * 128) 128 = readBytes s.mem (l * 128) 128) ∧
    (∀ d k, d < 4 → tabWf Moesi.i c.caches = true →
      (k ∈ agentsOf d → cacheSt (getCoh (dropDie s l d none) l) k = .i) ∧
      (∀ d', d' < 4 → d' ≠ d → k ∈ agentsOf d' → cacheSt (getCoh (dropDie s l d none) l) k = cacheSt c k))

/-- R53, R92, R101 to R111, R138 to R142, R155, R158: what a message about a line does at the line's home and at a module
that holds it: the home serves, merges posted bytes and takes a line back; a holder shares, gives up or writes back; data and
answers end the requests that wait; a probe is answered when no earlier posted write is left, and a request without an answer
is resent once.
R92, R140, R142, R158: the timers of requests, probes and holds. -/
def Obligations.PeerMessagesMoveLines : Prop :=
  (
  ∀ (s u : State) (m : Msg), accepts s m u →
    let l := m.line
    let c := getCoh u l
    let e := c.dir
    let txn (k : TxnKind) (m : Msg) : Txn := ⟨k, m.src, 0, some m, m.td, if m.lr then 3 else 0, false, false⟩
    let answers (x : State) (excl : Bool) : Out :=
      let aux := [m.aux.headD 0, if x.poison.contains l then 1 else 0]
      let y := mkMsg x m.src (if excl then 0x22 else 0x21) l
      .next (send x { y with data := committedLine x l, td := tabGet 0 x.lineTd l, unc := m.unc, aux := aux })
    let arrived (k : Nat) : State × LineData × Bool := msgData u m (msgFlag m k)
    -- at the home
    (lineDev l ≠ s.dev → ∀ i ∈ [Instr.prds, .prdm, .pwrupd, .pwb, .pack, .pfwdmiss],
      exec i s = .next (logEv u evMessage m.code m.src)) ∧
    (∀ k, (arrived k).2.1 = (openMsg u m).1 ∧ ((arrived k).2.2 = true ↔ msgFlag m k = true ∨ (openMsg u m).2 = false) ∧
      (arrived k).1.mem = u.mem ∧ (arrived k).1.coh = u.coh ∧ (arrived k).1.poison = u.poison) ∧
    (lineDev l = s.dev →
      (∀ i k, (i, k) ∈ [(Instr.prds, TxnKind.prds), (.prdm, .prdm)] → c.busy.isSome = true ∨ c.queue ≠ [] →
        exec i s = .next (modCoh u l fun c => { c with queue := c.queue ++ [txn k m] })) ∧
      (c.busy = none → c.queue = [] → memHeld u l = false → m.unc = true →
        exec .prds s = answers (if ownState e.st then u else readHome u l (txn .prds m)) false) ∧
      (c.busy = none → c.queue = [] → memHeld u l = false → setFull u l = false → m.unc = false →
        (let t := txn .prds m
         let w := readHome u l t
         (e.st = .i → e.rem = [] → e.bcast = false →
           exec .prds s = answers (setDir w l ⟨.e, true, 0, [], false, [m.src], u.cycle⟩) true) ∧
         (e.st = .s → e.bcast = false → m.src ∉ e.rem → e.rem.length < 4 →
           exec .prds s = answers (setDir w l { e with rem := e.rem ++ [m.src], used := u.cycle }) false) ∧
         (e.st = .s → e.bcast = false → e.rown = false → m.src ∉ e.rem → 4 ≤ e.rem.length →
           ((∀ x ∈ m.src :: e.rem, groupOf x = groupOf u.dev) →
             exec .prds s = answers (setDir w l { e with bcast := true, rem := [], used := u.cycle }) false) ∧
           (∀ k rest, e.rem = k :: rest → (∃ x ∈ m.src :: e.rem, groupOf x ≠ groupOf u.dev) →
             let y : Txn := { t with kind := .withdraw, wait := 1, msg := none, req := 0 }
             exec .prds s = .next (snoopMod y 0x14 l (setBusy (enqueueFront u l t) l (some y)) k))) ∧
         (ownState e.st = true → e.rown = false → e.bcast = false → e.rem.length < 4 →
           exec .prds s = .next (offer (setBusy u l (some { t with wait := 1 })) e.owner 8 (two .fwds e.owner l)))) ∧
        (let t := txn .prdm m
         let w := readHome u l t
         let ds := otherDies u l e none
         let ms := otherMods u e (some m.src)
         let mine : DirEnt := ⟨.m, true, 0, [], false, [m.src], u.cycle⟩
         (ds = [] → ms = [] → e.st = .i → exec .prdm s = answers (setDir w l mine) true) ∧
         (ds = [] → ms = [] → e.st = .s → exec .prdm s = answers (setDir w l mine) false) ∧
         (ds ≠ [] ∨ ms ≠ [] → e.st ≠ .o → exec .prdm s = .next (startSnoops u l t .fwdm .inv 0x12 0x13 ds ms e)))) ∧
      (let aux := [msgId m, if (arrived 1).2.2 then 1 else 0] ++ m.aux.drop 2
       exec .pwrupd s = .next (homeRequest (arrived 1).1 l (txn .pwr { m with data := (arrived 1).2.1, aux := aux }))) ∧
      (let ack : Msg := { mkMsg u m.src 0x26 l with aux := [msgId m] }
       let ends (x : State) : Out := .next (if msgFlag m 3 then wakeCommands (homeAnswer x l) else x)
       let takes (x : State) : Prop := x.mem = (mergeMem u l (openMsg u m).1 (BitVec.allOnes 128)).mem ∧
         (c.busy = none → (getCoh x l).dir = entryWritten e (msgFlag m 1)) ∧ (l ∈ x.poison ↔ (arrived 2).2.2 = true)
       (ownerMod e = some m.src → tabWf LineCoh.reset u.coh = true → memHeld u l = false →
         ∃ x, exec .pwb s = ends (send x ack) ∧ takes x) ∧
       (ownerMod e = some m.src → tabWf LineCoh.reset u.coh = true → memHeld u l = true → trained u = true →
         tabWf Hbm.reset u.hbms = true → ∃ x r, exec .pwb s = ends x ∧ takes x ∧ x.net = u.net ∧ r.owed = .answer ack ∧
         r.req.line = l ∧ r.req.op = .write ∧
         (getHbm x (placeOf u l).1).waiting = (getHbm u (placeOf u l).1).waiting ++ [r]) ∧
       (e.st ≠ .o → entryWritten e false = DirEnt.none ∧ entryWritten e true = { e with st := .e }) ∧
       (ownerMod e ≠ some m.src → exec .pwb s = ends (send u ack))) ∧
      (exec .pack s = .next (wakeCommands (homeAnswer (if msgFlag m 1 then modCoh u l (fun c => { c with
        dir := if c.dir.st = .e then { c.dir with st := .m } else c.dir }) else u) l))) ∧
      (∀ t, c.busy = some t → t.kind ∉ [.pwr, .evict, .snoop] → exec .pfwdmiss s = .next (wakeCommands
        (homeAnswer (answerData (if e.st = .e then readHome u l t else u) t l false) l))) ∧
      (∀ t q, c.busy = some t → t.kind = .pwr → t.msg = some q → q.unc = false → q.src ≠ u.dev →
        (∀ x ∈ u.coh, x.2.queue = []) → tabWf LineCoh.reset u.coh = true → memHeld u l = false → ∃ w,
          homeFinish u l = send w { mkMsg w q.src 0x25 l with aux := q.aux.take 1 } ∧
          (q.mask = BitVec.allOnes 128 ∨ ownState e.st = true → w.mem = (mergeMem u l q.data q.mask).mem) ∧
          (getCoh w l).dir = ⟨.s, false, 0, [], false, [q.src], u.cycle⟩)) ∧
    -- at a module that holds the line: the home's snoop goes to its dies, and is answered once they have
    (∀ i own, (i, own) ∈ [(Instr.pfwds, false), (.pfwdm, true), (.pinv, true), (.pbackinv, true)] → s.arg.c ≠ 1 →
      (c.busy.isSome = true ∨ peerDies u l = [] ∧ snoopWaits u none own l = true →
        exec i s = .next (after u 1 (msgStep m.code, { msg := some m, flag := true }))) ∧
      (c.busy = none → peerDies u l ≠ [] →
        ∃ due ∈ [Instr.fwds, .fwdm, .inv, .backinv], (due = .fwds ↔ i = .pfwds) ∧ exec i s = .next ((peerDies u l).foldl
          (fun x d => offer x d 8 (two due d l)) (modCoh u l fun c => { c with
            busy := some ⟨.snoop, 0, (peerDies u l).length, some m, 0, 0, false, false⟩ })))) ∧
    (∀ t q, c.busy = some t → t.kind = .snoop → t.msg = some q → 
      homeFinish u l = after (modCoh u l fun c => { c with busy := some { t with wait := 0 } }) 0
        (msgStep q.code, { msg := some q, flag := true, c := 1 })) ∧
    (let meets (own : Bool) (v : State) : Prop :=
       s.arg.c ≠ 1 ∧ c.busy = none ∧ peerDies u l = [] ∧ snoopWaits u none own l = false ∧ v = snoop u none own l ∨
         s.arg.c = 1 ∧ v = modCoh u l fun c => { c with busy := none }
     let ends (x : State) : Out := .next (if s.arg.c = 1 then homeWake (homeGo x l) l else x)
     (∀ v, meets false v →
       (∀ p, ownedPeer v l = some p → ∀ y, y = { p with st := if msgFlag m 2 then .s else afterShare p.st } →
         exec .pfwds s = ends (reply (supply (shareCaches { v with peers := tabPut none v.peers l (some y) } l (msgFlag m 2))
           m false p.data) m 0x23 (p.st == .m))) ∧
       (ownedPeer v l = none → exec .pfwds s = ends (fromBuffer v m false))) ∧
     (∀ v, meets true v →
       (∀ p, ownedPeer v l = some p →
         exec .pfwdm s = ends (reply (supply (dropPeer v l p) m true p.data) m 0x23 (p.st == .m))) ∧
       (∀ p, ownedPeer v l = none → tabGet none v.peers l = some p → exec .pfwdm s = ends (fromBuffer (dropPeer v l p) m true)) ∧
       (tabGet none v.peers l = none → exec .pfwdm s = ends (fromBuffer v m true)) ∧
       ∀ i, i = .pinv ∨ i = .pbackinv →
         (∀ p, tabGet none v.peers l = some p → p.st = .m ∨ p.st = .o → ∃ q, exec i s = ends (request (dropPeer v l p) q []) ∧
           q = { writeBackMsg v l p false with aux := (writeBackMsg v l p false).aux ++ [1] }) ∧
         (∀ p, tabGet none v.peers l = some p → p.st ≠ .m → p.st ≠ .o →
           exec i s = ends (reply (dropPeer v l p) m 0x23 false)) ∧
         (tabGet none v.peers l = none → exec i s = ends (reply v m 0x23 false)))) ∧
    (∀ (x : State) (excl : Bool),
      (∀ d, backBuffer x l = some d → fromBuffer x m excl = reply (supply x m excl d) m 0x23 false) ∧
      (backBuffer x l = none → fromBuffer x m excl = reply x m 0x24 false)) ∧
    -- answers
    (∀ excl : Bool,
      let o := exec (if excl then .pdatae else .pdata) s
      let d := (openMsg u m).1
      let p := (tabGet none u.peers l).getD PeerLine.none
      let part : Prop := ∃ q, tabGet none u.peers l = some q ∧ q.valid ≠ 0
      (m.unc = true → o = .next (wakeCommands (dataPast (arrived 1).1 m d (arrived 1).2.2))) ∧
      (m.unc = false → lineDev l ≠ s.dev → tabWf none u.peers = true → ∃ x,
        o = .next (wakeCommands (homeGo (answered x (msgId m)) l)) ∧ x.reqs = u.reqs ∧
        tabGet none x.peers l = some { p with
          st := if ∃ r ∈ u.reqs, r.id = msgId m ∧ r.msg.code = 0x02 then .m else if ownState p.st then p.st
            else if excl then .e else .s
          data := maskMerge d p.data p.valid, valid := BitVec.allOnes 128 } ∧
        (l ∈ x.poison ↔ (arrived 1).2.2 = true ∨ (l ∈ u.poison ∧ part))) ∧
      (m.unc = false → lineDev l = s.dev → ∃ x, x.mem = writeBytes u.mem (l * 128) 128 d.toNat ∧ x.coh = u.coh ∧
        (∀ t, c.busy = some t → t.kind = .pwr ∨ t.kind = .clean → o = .next (wakeCommands (writeBack x l))) ∧
        (∀ t k, c.busy = some t → t.kind ≠ .pwr → t.kind ≠ .clean → t.die = some k →
          o = .next (wakeCommands (dataArrive x k l false))) ∧
        (c.busy = none → o = .next (wakeCommands x)))) ∧
    (m.unc = false →
      (∀ p, tabGet none u.peers l = some p → ∃ w,
        exec .pwrack s = .next (wakeCommands (confirmAll (tidyPeer (sendPosted w l) l))) ∧
        w.reqs = u.reqs.filter (fun r => r.id != msgId m) ∧
        w.peers = tabPut none u.peers l (some { p with fly := 0, flyHarts := [], flyCmds := [] }) ∧ w.mem = u.mem) ∧
      (tabGet none u.peers l = none → exec .pwrack s = .next (wakeCommands (answered u (msgId m))))) ∧
    (m.unc = true → exec .pwrack s = .next (wakeCommands (ncDone (answered u (msgId m)) (msgId m)))) ∧
    exec .pwback s = .next (wakeCommands (ncDone (answered u (msgId m)) (msgId m))) ∧
    (∃ t, exec .phold s = .next t ∧ t.mem = u.mem ∧ t.reqs = u.reqs.map fun r =>
      if r.msg.dst = m.src ∧ m.aux.head? = some r.id then { r with due := u.mtime + ftoNs u } else r) ∧
    -- probes
    (let left := if s.arg.flag then s.arg.nums.filter (pendingFrom u m.src).contains else pendingFrom u m.src
     (left = [] → exec .fprobe s = .next (send u { mkMsg u m.src 0x28 0 with aux := m.aux })) ∧
     (left ≠ [] → exec .fprobe s = .next (after u 1000 (.fprobe, { msg := some m, flag := true, nums := left })))) ∧
    exec .fecho s = .next (endProbe u (msgId m) m.src false)) ∧
  (
  ∀ (s : State),
    let k := s.arg.a
    let d := s.arg.b
    let id := s.arg.c
    (∀ before r later, s.reqs = before ++ r :: later → r.id = k → (∀ q ∈ before, q.id ≠ k) → r.due ≤ s.mtime →
      r.msg.dst ∉ s.lostMap →
      (r.resent = false → r.msg.dst ≠ s.dev →
        (∀ y ∈ (tabGet Pair.reset s.pairs (pairKey r.msg.dst (clsOf r.msg))).waiting, y.seq ≠ r.msg.seq) →
        ∃ t, exec .requestTimeout s = .next t ∧ t.net = s.net ++ [{ sealMsg s r.msg with via := .other r.path }] ∧
        t.reqs = s.reqs.map (fun q => if q.id = k then { q with resent := true, due := s.mtime + ftoNs s } else q)) ∧
      (r.resent = true → r.reported = false → exec .requestTimeout s = .next (report { s with
        reqs := s.reqs.map fun q => if q.id = k then { q with reported := true } else q } r.msg.dst))) ∧
    (∀ h r, h ∈ hartIds s → (getHart s h).drain = some r → (id, d) ∈ r.probes →
      exec .probeTimeout s = .next (report (endProbe s id d true) d) ∧
      (tabWf Hart.reset s.harts = true → ∀ gone : Bool, (getHart (endProbe s id d gone) h).drain =
        some { r with probes := r.probes.erase (id, d), lost := if gone then setInsert r.lost d else r.lost })) ∧
    ((∀ h ∈ hartIds s, ∀ r, (getHart s h).drain = some r → (id, d) ∉ r.probes) → exec .probeTimeout s = .next s) ∧
    (stackHeld (getHbm s k) = true → ∃ t, exec .holdResponseTimer s = .next (after t 10000 (.holdResponseTimer, { a := k })) ∧
      t.mem = s.mem ∧ t.reqs = s.reqs ∧
      (∀ x, heldRequests s k = [x] → (∀ e ∈ s.events, e.2.1 ≠ .fprobe) →
        t = send s { mkMsg s x.2.1 0x27 x.1 with aux := [x.2.2] })) ∧
    (stackHeld (getHbm s k) = false → exec .holdResponseTimer s = .next s))

/-- R143 to R146, R165 to R171, R285, R286, R424: the sequencer numbers the requests of a group and sends each to every
member; a member applies them in the order of their numbers and acknowledges; when all have, the writer hears of it; a
frozen group is re-formed from its survivors' APPLIED, or stays frozen, and goes on where it stopped; the commands of an
entry make it active and inactive. -/
def Obligations.GroupsApplyTheirOperationsInOrder : Prop :=
  (∀ (s u : State) (m : Msg) (n : Nat), accepts s m u →
    let g := getGroup u n
    let put (t : State) (x : Group) : State := { t with groups := tabPut Group.reset t.groups n x }
    let stamp := gField m 5
    let l := windowLine u g m
    let opened : State × LineData × Bool := msgData u m (gField m 7 == 1)
    (∀ i ∈ [Instr.mreq, .mapply, .mack, .mstate, .mresume], entryOfGid u (gField m 1) = none → exec i s = .next u) ∧
    (entryOfGid u (gField m 1) = some n →
      -- the sequencer takes a request
      (g.seqdev = s.dev → g.state = 1 → (∀ x ∈ g.waitReqs, x.src ≠ m.src ∨ gField x 0 ≠ gField m 0) →
        (∀ o ∈ g.origins, o.2.1 ≠ m.src ∨ o.2.2 ≠ gField m 0) →
        ∀ q, q = { m with data := opened.2.1, aux := m.aux.take 5 ++ [0, 0, if opened.2.2 then 1 else 0] } →
          exec .mreq s = .next (stampWaiting (put opened.1 { g with waitReqs := g.waitReqs ++ [q] }) n)) ∧
      (g.seqdev ≠ s.dev ∨ g.state ≠ 1 → exec .mreq s = .next u) ∧
      -- a member applies an operation, or keeps it
      (∀ q, q = { m with data := opened.2.1, src := s.dev, aux := m.aux.take 7 ++ [if opened.2.2 then 1 else 0] } →
        (g.log2sz ≠ 0 → stamp = g.applied + 1 → applyWaits u n l = false →
          exec .mapply s = .next (wakeCommands (nextEarly (applyOp opened.1 n q) n))) ∧
        (g.log2sz ≠ 0 → g.applied + 1 < stamp → (∀ x ∈ g.early, gField x 5 ≠ stamp) →
          exec .mapply s = .next (put opened.1 { g with early := g.early ++ [q] }))) ∧
      (g.log2sz ≠ 0 → stamp = g.applied + 1 → applyWaits u n l = true →
        exec .mapply s = .next (after u 1 (msgStep m.code, { msg := some m, flag := true }))) ∧
      (g.log2sz = 0 ∨ stamp ≤ g.applied → exec .mapply s = .next u) ∧
      -- an acknowledgement
      (let a := tabPut 0 g.acked m.src (Nat.max (gField m 0) (tabGet 0 g.acked m.src))
       let w := put u { g with acked := a }
       (g.state ≠ 3 → tabWf Group.reset u.groups = true → ∃ t, exec .mack s = .next (stampWaiting t n) ∧
          (getGroup t n).acked = a ∧ (getGroup t n).origins = g.origins.filter fun o => !decide (o.1 ≤ allAcked w (getGroup w n))) ∧
       (g.state = 3 → tabWf Group.reset u.groups = true → exec .mack s = .next (reformTry w n))) ∧
      -- re-forming
      (tabWf Group.reset u.groups = true → ∀ w, w = put u { g with state := 3, early := [] } →
        exec .mstate s = .next (send w { mkMsg w m.src 0x2B 0 with aux := [gField m 0, g.gid, g.applied] })) ∧
      (g.held = [] → tabWf Group.reset u.groups = true → exec .mresume s =
        .next (wakeCommands (confirmAll (put u { g with state := 1, held := [] })))) ∧
      exec .mdone s = .next (releaseHeld (answered u (gField m 0)) n fun o => o.id == gField m 0) ∧
      (g.state = 3 → g.rstat = 3 → (∀ a ∈ g.answers, a.1 ≠ m.src) → exec .mstateack s =
        .next (reformTry (put u { g with answers := g.answers ++ [(m.src, gField m 2)] }) n)))) ∧
  -- operations of a frozen entry are not applied, those of another one in the order of their stamps (R168, R169)
  (∀ (s : State) (n : Nat), let g := getGroup s n
    (g.state = 2 ∨ (∀ m ∈ g.early, gField m 5 ≠ g.applied + 1) → nextEarly s n = s) ∧
    (∀ m, g.state ≠ 2 → g.early.find? (fun m => gField m 5 == g.applied + 1) = some m → nextEarly s n =
      after { s with groups := tabPut Group.reset s.groups n { g with
        early := g.early.filter fun x => gField x 5 != g.applied + 1 } } 0 (.mapply, { msg := some m, flag := true }))) ∧
  (∀ (s : State) (x : Group), let n := s.arg.a
    getGroup s n = x →
    let put (t : State) (x : Group) : State := { t with groups := tabPut Group.reset t.groups n x }
    let begun : Group := { x with
      state := 3, rstat := 3, early := [], waitReqs := [], origins := [], answers := [], target := 0, fetching := false
      since := s.cycle }
    (x.state = 0 → exec .groupActivate s = .next (put s { x with
      state := 1, applied := 0, stamped := 0, held := [], waitReqs := [], early := [], acked := [], origins := [],
      answers := [], target := 0 })) ∧
    (x.state ≠ 0 → exec .groupActivate s = .next s) ∧
    (x.held = [] → exec .groupDeactivate s =
      .next (let t := wakeCommands (confirmAll (put s { x with held := [] }))
        modGroup t n fun g => { g with state := 0, waitReqs := [], early := [], origins := [], answers := [], target := 0 })) ∧
    (x.state = 2 → s.arg.flag = false → exec .groupReform s =
      .next (after ((membersOf s x).foldl (fun w d => send w { mkMsg w d 0x16 0 with aux := [0, x.gid] }) (put s begun))
        (ftoNs s) (.survivorUnreachable, { a := n, b := s.cycle }))) ∧
    (x.state ≠ 2 → s.arg.flag = false → exec .groupReform s = .next s) ∧
    (s.arg.flag = true → exec .groupReform s = .next (reformTry s n)) ∧
    (x.state = 3 → x.rstat = 3 → x.since = s.arg.b → (∃ d ∈ membersOf s x, ∀ a ∈ x.answers, a.1 ≠ d) →
      exec .survivorUnreachable s = .next (put s { x with state := 2, rstat := 2 })) ∧
    (x.since ≠ s.arg.b ∨ (∀ d ∈ membersOf s x, ∃ a ∈ x.answers, a.1 = d) → exec .survivorUnreachable s = .next s)) ∧
  -- one operation of a member: APPLIED, the bytes, the poison, the acknowledgement
  (∀ (s : State) (n : Nat) (m : Msg), tabWf Group.reset s.groups = true →
    let g := getGroup s n
    let l := windowLine s g m
    gField m 6 ≠ s.dev → ∃ t, applyOp s n m = send t { mkMsg t g.seqdev 0x29 0 with
        aux := [gField m 5, g.gid] } ∧
      getGroup t n = { g with applied := gField m 5 } ∧
      t.mem = (recordReplay (mergeMem s l (groupEffect m (lineData s.mem l)).1 m.mask) g m).mem ∧
      (devOf g.replay ≠ s.dev → g.replay % 256 = 0 → g.replay + 256 * depthOf g ≤ (devOf g.replay + 1) * 2 ^ 42 →
        devOf g.replay * 2 ^ 42 ≤ g.replay →
        (gField m 7 = 1 → l ∈ t.poison) ∧ (gField m 7 ≠ 1 → m.mask = BitVec.allOnes 128 → l ∉ t.poison))) ∧
  -- one request at the sequencer
  (∀ (s : State) (n : Nat) (m : Msg) (r : List Msg), tabWf Group.reset s.groups = true →
    let g := getGroup s n
    g.state = 1 → g.waitReqs = m :: r →
    (g.stamped + 1 ≤ allAcked s g + depthOf g → ∃ t, stampNext s n = (membersOf s g).foldl (fun t d => send t { mkMsg t d 0x15 m.line with
        td := g.td, mask := m.mask, data := m.data
        aux := [gField m 0, g.gid, gField m 2, gField m 3, gField m 4, g.stamped + 1, m.src, gField m 7] }) t ∧
      t.groups = tabPut Group.reset s.groups n { g with
        stamped := g.stamped + 1, waitReqs := r, origins := g.origins ++ [(g.stamped + 1, m.src, gField m 0)] } ∧
      t.net = s.net ∧ t.pairs = s.pairs ∧ t.events = s.events ∧ t.mem = s.mem ∧
      getGroup (stampNext s n) n = getGroup t n) ∧
    (allAcked s g + depthOf g < g.stamped + 1 → stampNext s n = s))

/-- R148 to R156, R160: a message takes its pair's next number and waits while 256 are unacknowledged; it takes the minimal
path or, by the queue depths, one over another group, and leaves its port; every message that is for another module goes on;
one on a channel of another class or of an unknown code is discarded and logged, and one from a lost device discarded; the
others are handled in the order of their pair and class, one that is early is kept and a duplicate discarded; acknowledged
messages let waiting ones leave. -/
def Obligations.MessagesAreRelayedAndTakenInOrder : Prop :=
  (∀ (s : State) (m : Msg), s.arg.msg = some m →
    let v := noteFlit s m
    (∀ i ∈ [Instr.prds, .prdm, .pwrupd, .pwb, .pack, .pfwdmiss, .pfwds, .pfwdm, .pinv, .pbackinv, .pdata, .pdatae, .pwrack,
        .pwback, .fprobe, .fecho, .phold, .mreq, .mapply, .mack, .mdone, .mstate, .mstateack, .mresume, .lostdecl, .lostself,
        .hbreq, .hbans, .heartbeat, .attest, .parkreq, .parkack, .wakereq, .wakeack], s.arg.flag = false → m.src ≠ s.dev →
      (m.vc / 2 ≠ clsOf m → exec i s = .next (logEv v evMessage m.code m.src)) ∧
      (m.vc / 2 = clsOf m → clsOf m ≠ 3 → s.lostMap.contains m.src = true → exec i s = .next v) ∧
      (m.vc / 2 = clsOf m → clsOf m = 3 ∨ s.lostMap.contains m.src = false → m.dst ≠ s.dev → exec i s = .next (relayed v m)) ∧
      (arrives s m →
        (m.seq < (pairOf s m).expect → exec i s = .next v) ∧
        ((pairOf s m).expect < m.seq → (∀ x ∈ (pairOf s m).waiting, x.seq ≠ m.seq) → exec i s = .next { v with
          pairs := tabPut Pair.reset s.pairs (inKey m.src (clsOf m))
            { pairOf s m with waiting := (pairOf s m).waiting ++ [m] } }))) ∧
    (m.dst = s.dev → exec .messageRelay s = .next (after s 0 (msgStep m.code, { msg := some m }))) ∧
    (m.dst ≠ s.dev →
      (msgClass m.code = none ∨ m.vc / 2 ≠ clsOf m → exec .messageRelay s = .next (logEv v evMessage m.code m.src)) ∧
      ((msgClass m.code).isSome = true → m.vc / 2 = clsOf m →
        (clsOf m ≠ 3 → s.lostMap.contains m.src = true → exec .messageRelay s = .next v) ∧
        (clsOf m = 3 ∨ s.lostMap.contains m.src = false → exec .messageRelay s = .next (relayed v m)))) ∧
    exec .unknownMessageCode s = .next (logEv v evMessage m.code m.src)) ∧
  (∀ (s : State) (m : Msg), ∃ w, relayed s m = { s with net := s.net ++ [w] } ∧ w.dst = m.dst ∧ w.src = m.src ∧
    w.code = m.code ∧ w.line = m.line ∧ w.data = m.data ∧ w.mask = m.mask ∧ w.aux = m.aux ∧ w.seq = m.seq ∧ w.td = m.td ∧
    w.tag = m.tag ∧ w.hops = m.hops + 1 ∧ w.vc / 2 = m.vc / 2 ∧
    (w.vc % 2 = 1 ↔ m.vc % 2 = 1 ∨ m.via = .member s.dev ∨ ∃ p, m.port = some p ∧ 31 ≤ p)) ∧
  -- numbers
  (∀ (s : State) (m : Msg), m.dst ≠ s.dev →
    let k := pairKey m.dst (clsOf m)
    let p := tabGet Pair.reset s.pairs k
    let w := { sealMsg s m with seq := p.next }
    let next : Nat := (p.next + 1) % 2 ^ 64
    (p.unacked.length < 256 → send s m = { s with
      pairs := tabPut Pair.reset s.pairs k { p with next := next, unacked := p.unacked ++ [⟨w, []⟩] }, net := s.net ++ [w] }) ∧
    (256 ≤ p.unacked.length → send s m = { s with
      pairs := tabPut Pair.reset s.pairs k { p with next := next, waiting := p.waiting ++ [w] } })) ∧
  (∀ (s : State) (k : Nat) (p : Pair), k = pairKey s.arg.a s.arg.b → p = tabGet Pair.reset s.pairs k →
    (p.waiting = [] → exec .pairAcknowledgement s = .next { s with
        pairs := tabPut Pair.reset s.pairs k { p with unacked := p.unacked.drop s.arg.c } }) ∧
    (∀ x l, p.waiting = x :: l → p.unacked.length = 256 → s.arg.c = 1 → exec .pairAcknowledgement s = .next { s with
        pairs := tabPut Pair.reset s.pairs k { p with unacked := p.unacked.drop 1 ++ [⟨x, []⟩], waiting := l }
        net := s.net ++ [x] })) ∧
  -- paths
  (∀ (s : State) (m : Msg), m.src = s.dev → m.dst ≠ s.dev → m.port = none → m.code ≠ 0x32 → m.code ≠ 0x33 →
    (∀ p, m.via ≠ .other p) →
    let link := (s.dev, localPort s.dev m.dst)
    (groupOf m.dst = groupOf s.dev → linkUp s link = true → choosePath s m = some (.direct, [link])) ∧
    (groupOf m.dst = groupOf s.dev → linkUp s link = false → choosePath s m =
      (relayMember s s.dev m.dst).map fun x => (.member x, [(s.dev, localPort s.dev x), (x, localPort x m.dst)])) ∧
    (∀ q, groupOf m.dst ≠ groupOf s.dev → minimalPath s s.dev m.dst = some q → pathUp s q = true →
      (clsOf m = 1 ∨ clsOf m = 2 ∨ s.adapt = false → choosePath s m = some (.direct, q)) ∧
      ∃ via r, choosePath s m = some (via, r) ∧ pathUp s r = true ∧ (via = .direct → r = q) ∧
        ∀ g, via = .group g → g ≠ groupOf s.dev ∧ g ≠ groupOf m.dst ∧ overGroup s s.dev m.dst g = some r ∧
          let depth (y : List (Nat × Nat)) : Nat := match firstGlobal y with | some k => linkDepth s k | none => 0
          2 * depth r + 32 < depth q)) ∧
  -- a request that is sent again takes another path than its first one, where there is one (R158)
  (∀ (s : State) (m : Msg) (p : List (Nat × Nat)), m.src = s.dev → m.dst ≠ s.dev → m.port = none → m.code ≠ 0x32 →
    m.code ≠ 0x33 → m.via = .other p →
    let near := (s.dev, localPort s.dev m.dst)
    (groupOf m.dst = groupOf s.dev →
      (linkUp s near = true → p ≠ [near] → choosePath s m = some (.direct, [near])) ∧
      (∀ x, linkUp s near = true → p = [near] → relayMember s s.dev m.dst = some x →
        choosePath s m = some (.member x, [(s.dev, localPort s.dev x), (x, localPort x m.dst)])) ∧
      (∀ x y l, linkUp s near = false → relayMembers s s.dev m.dst = x :: y :: l →
        p = [(s.dev, localPort s.dev x), (x, localPort x m.dst)] →
        choosePath s m = some (.member y, [(s.dev, localPort s.dev y), (y, localPort y m.dst)]))) ∧
    (groupOf m.dst ≠ groupOf s.dev → ∀ q, minimalPath s s.dev m.dst = some q → pathUp s q = true →
      (q ≠ p → choosePath s m = some (.direct, q)) ∧
      (q = p → (∃ g r, g ∈ otherGroups s.dev m.dst ∧ overGroup s s.dev m.dst g = some r ∧ pathUp s r = true ∧ r ≠ p) →
        ∃ g r, choosePath s m = some (.group g, r) ∧ r ≠ p ∧ pathUp s r = true ∧ overGroup s s.dev m.dst g = some r))) ∧
  (∀ (s : State) (m : Msg), m.src = s.dev →
    (choosePath s m = none → routeOne s m = { s with net := s.net ++ [m] }) ∧
    (∀ via d p r, choosePath s m = some (via, (d, p) :: r) → tabWf Port.reset s.ports = true → ∃ w,
      (getPort (routeOne s m) p).queue = (getPort s p).queue ++ [w] ∧ w.via = via ∧ w.port = some p ∧ w.data = m.data ∧
      w.seq = m.seq ∧ (w.nonMin = true ↔ ∃ g, via = .group g) ∧ (routeOne s m).net = s.net ∧
      ∀ q ∈ s.reqs, q.msg.dst = m.dst → q.msg.code = m.code → q.msg.seq = m.seq →
        { q with path := (d, p) :: r } ∈ (routeOne s m).reqs)) ∧
  (∀ (s : State) (p : Nat) (m : Msg) (r : List Msg), let x := getPort s p
    x.queue = m :: r → x.freeAt ≤ s.cycle → linkUp s (s.dev, p) = true →
      (Config.linkCredit p m.vc s.cycle = true → ∃ y, drainPort s p = { s with
        ports := tabPut Port.reset s.ports p y, wire := s.wire ++ [(p, m)] } ∧
        y.queue = r ∧ y.freeAt = s.cycle + flitCycles p (flitsOf m).length x) ∧
      ((∀ w ∈ x.queue, Config.linkCredit p w.vc s.cycle = false) → drainPort s p = s))

/-- R112, R146 to R148, R156, R157, R159, R160, R169, R172 to R174, R413, R417: links train, go down and retrain, ports
park and wake, and a device is asked, answers, or is declared lost. -/
def Obligations.LinksPortsAndDevicesAct : Prop :=
  (∀ (s : State), let p := s.arg.a
    let x := getPort s p
    let put (t : State) (y : Port) : State := { t with ports := tabPut Port.reset t.ports p y }
    let sends (t : State) (code : Nat) (force : Bool) : State :=
      let m := mkMsg t (getPort t p).peer code 0
      send t { m with aux := [if force then 1 else 0], port := some p }
    (s.arg.msg = none → x.up = true → exec .heartbeat s = .next (after (sends s 0x31 false) 1000 (.heartbeat, { a := p }))) ∧
    (s.arg.msg = none → x.up = false → exec .heartbeat s = .next s) ∧
    (wiring s.dev p = some (s.arg.b, s.arg.c) → x.mayRetrain = true ∨ s.arg.flag = true → ∃ t, exec .linkTrain s = .next t ∧
      t.ports = (put s { x with
        trained := true, up := true, attested := x.attested && x.peer == s.arg.b, peer := s.arg.b, lastFlit := s.mtime
        fails := 0, mayRetrain := true, freeAt := s.cycle, idleSince := s.mtime }).ports ∧ t.mem = s.mem ∧ t.net = s.net ∧
      ((∀ e ∈ s.events, e.2.1 ≠ .heartbeat ∧ e.2.1 ≠ .heartbeatTimeout) →
        let timed := after (after s 1000 (.heartbeat, { a := p })) 16000 (.heartbeatTimeout, { a := p })
        t.events = (if x.attested = true ∧ x.peer = s.arg.b then timed else after timed 0 (.attest, { a := p })).events)) ∧
    (wiring s.dev p ≠ some (s.arg.b, s.arg.c) → x.mayRetrain = true ∨ s.arg.flag = true →
      exec .linkTrain s = .next (logEv (put s { x with up := false }) evMismatch p s.arg.b)) ∧
    (x.mayRetrain = false → s.arg.flag = false → exec .linkTrain s = .next s) ∧
    (x.up = true → x.fails < 7 → exec .flitCrcFail s = .next (put s { x with fails := x.fails + 1 })) ∧
    (let down := after (put s { x with
        up := false, downAt := s.mtime, fails := 0, parked := false, forced := false, farForced := false, rejoinAt := none
        mayRetrain := true, queue := [], wakes := [] }) 1000000 (.linkRetrainTimeout, { a := p })
     x.up = true → (7 ≤ x.fails → exec .flitCrcFail s = .next down) ∧
       (x.lastFlit + 16000 ≤ s.mtime → exec .heartbeatTimeout s = .next down)) ∧
    (x.up = true → s.mtime < x.lastFlit + 16000 →
      exec .heartbeatTimeout s = .next (after s (x.lastFlit + 16000 - s.mtime) (.heartbeatTimeout, { a := p }))) ∧
    (x.up = false → x.downAt + 1000000 ≤ s.mtime → exec .linkRetrainTimeout s = .next (put s { x with mayRetrain := false })) ∧
    (s.arg.msg = none → x.up = false → exec .attest s = .next s) ∧
    (s.arg.msg = none → x.up = true → tabWf Port.reset s.ports = true → ∀ b, b = challenge (freeNonce s.freeCtr) →
      let t := { put s { x with asked := b } with freeCtr := s.freeCtr + 4 }
      exec .attest s = .next (send t { mkMsg t x.peer 0x3A 0 with aux := [b.length], body := packFlits 16 b, port := some p })) ∧
    (s.stage = 2 → (∃ q ∈ s.ports, q.2.trained = true) → (∀ q ∈ s.ports, q.2.trained = true → q.2.attested = true) →
      exec .fabricJoin s = .next { s with
        join := true, stage := 3, fusedFloor := Nat.max s.fusedFloor (bootedFloor s) }) ∧
    -- parking
    (31 ≤ p → x.up = true → x.pen = true → x.parked = false → portIdle s x = true →
      exec .portIdlePark s = .next (sends s 0x36 false)) ∧
    (p < 31 ∨ x.up = false ∨ x.pen = false ∨ x.parked = true ∨ portIdle s x = false → exec .portIdlePark s = .next s) ∧
    (tabWf Port.reset s.ports = true → x.parked = true → x.forced = false → x.farForced = false → false ∉ x.wakes →
      x.wth ≤ portDepth x → exec .portWake s = .next (sends (put s { x with wakes := x.wakes ++ [false] }) 0x38 false)) ∧
    (x.parked = false ∨ x.forced = true ∨ x.farForced = true ∨ false ∈ x.wakes ∨ portDepth x < x.wth →
      exec .portWake s = .next s) ∧
    (∀ t0, x.rejoinAt = some t0 →
      (t0 ≤ s.mtime → x.forced = false → x.farForced = false →
        exec .wavelengthRejoin s = .next (put s { x with parked := false, rejoinAt := none })) ∧
      (x.forced = true ∨ x.farForced = true → exec .wavelengthRejoin s = .next (put s { x with rejoinAt := none }))) ∧
    (exec .forcedPark s = .next ((globalUp s).foldl (fun t q =>
      let m := mkMsg t (getPort t q).peer 0x36 0
      send t { m with aux := [1], port := some q }) { s with coolAt := none })) ∧
    (∀ t0, s.coolAt = some t0 → s.mtime < t0 + 1000000 → exec .forcedParkRelease s = .next s) ∧
    (∀ t0, tabWf Port.reset s.ports = true → s.coolAt = some t0 → t0 + 1000000 ≤ s.mtime → ∃ t,
      exec .forcedParkRelease s = .next t ∧ (∀ q ∈ globalUp s, (getPort t q).forced = false) ∧ t.mem = s.mem)) ∧
  -- messages of a link
  (∀ (s u : State) (m : Msg) (p : Nat), accepts s m u → m.port = some p → tabWf Port.reset u.ports = true →
    let x := getPort u p
    let force := msgFlag m 0
    let put (t : State) (y : Port) : State := { t with ports := tabPut Port.reset t.ports p y }
    let sends (t : State) (code : Nat) (force : Bool) : State :=
      let m := mkMsg t x.peer code 0
      send t { m with aux := [if force then 1 else 0], port := some p }
    let rejoins (t : State) (y : Port) : State :=
      after (put t { y with rejoinAt := some (u.mtime + 2000) }) 2000 (.wavelengthRejoin, { a := p })
    let b := attestBytes m
    exec .heartbeat s = .next u ∧
    -- the far end's security processor: its challenge is answered, and its right answer attests the port
    (b.getD 1 0 = 0x83 → ∀ head, head = challengeAuth (freeNonce u.freeCtr) →
      let full := head ++ ed448Sign Config.deviceKey (spdmSigned challengeContext (b ++ head))
      let t := { u with freeCtr := u.freeCtr + 4 }
      exec .attest s =
        .next (send t { mkMsg t x.peer 0x3A 0 with aux := [full.length], body := packFlits 16 full, port := some p })) ∧
    (b.getD 1 0 = 0x03 → x.asked ≠ [] →
      exec .attest s = .next (put u { x with attested := x.trained && answerProves x.asked b, asked := [] })) ∧
    (b.getD 1 0 ≠ 0x83 → b.getD 1 0 ≠ 0x03 ∨ x.asked = [] → exec .attest s = .next u) ∧
    (x.up = true → force = true ∨ (x.pen = true ∧ portIdle u x = true) → exec .parkreq s = .next (sends (put u { x with
      parked := true, farForced := x.farForced || force, wakes := if force then x.wakes.filter id else x.wakes }) 0x37 force)) ∧
    (force = false → x.pen = false ∨ portIdle u x = false → exec .parkreq s = .next u) ∧
    (x.up = true → exec .parkack s = .next (put u { x with parked := true, forced := x.forced || force })) ∧
    (force = true → exec .wakereq s = .next (sends (put u { x with farForced := false }) 0x39 false)) ∧
    (force = false → x.forced = true ∨ x.farForced = true → exec .wakereq s = .next u) ∧
    (x.forced = false → x.farForced = false →
      (force = false → x.parked = true → x.rejoinAt = none → exec .wakereq s = .next (rejoins (sends u 0x39 false) x)) ∧
      (force = false → x.parked = false ∨ x.rejoinAt.isSome = true → exec .wakereq s = .next (sends u 0x39 false)) ∧
      (∀ w, x.wakes = false :: w → x.parked = true → x.rejoinAt = none →
        exec .wakeack s = .next (rejoins u { x with wakes := w }))) ∧
    (x.wakes.head? ≠ some false ∨ x.forced = true ∨ x.farForced = true ∨ x.parked = false ∨ x.rejoinAt.isSome = true →
      exec .wakeack s = .next (put u { x with wakes := x.wakes.tail }))) ∧
  -- devices
  (∀ (s u : State) (m : Msg), accepts s m u →
    exec .hbreq s = .next (send u (mkMsg u m.src 0x33 0)) ∧
    exec .hbans s = .next { u with hbWait := tabMod none u.hbWait m.src fun q => q.map fun x => (x.1, true) } ∧
    (let d := msgId m % 2 ^ 14
     (s.lostMap.contains d = true ∨ d = s.dev → exec .lostdecl s = .next u) ∧
     (s.lostMap.contains d = false → d ≠ s.dev → exec .lostdecl s = .next (floodLost (recordLost u d) d))) ∧
    (s.lostMap.contains m.src = false → m.src ≠ s.dev → declarer u m.src = some s.dev →
      exec .lostself s = .next (floodLost (recordLost u m.src) m.src)) ∧
    (declarer u m.src ≠ some s.dev → exec .lostself s = .next u)) ∧
  (∀ (s : State), let d := s.arg.a
    s.lostMap.contains d = false → d ≠ s.dev →
      -- a neighbour that this module would declare
      (s.arg.flag = false → declarer s d ≠ some s.dev → exec .deviceLostTimeout s = .next s) ∧
      (s.arg.flag = false → declarer s d = some s.dev →
        (localDown s d = false → exec .deviceLostTimeout s = .next { s with hbWait := tabErase s.hbWait d }) ∧
        (localDown s d = true → tabGet none s.hbWait d = none →
          exec .deviceLostTimeout s = .next (after (send { s with hbWait := tabPut none s.hbWait d (some (s.mtime, false)) }
            (mkMsg s d 0x32 0)) (ftoNs s) (.deviceLostTimeout, { a := d }))) ∧
        (∀ t, localDown s d = true → tabGet none s.hbWait d = some (t, true) → exec .deviceLostTimeout s = .next s) ∧
        (∀ t, localDown s d = true → tabGet none s.hbWait d = some (t, false) → lastDown s d + 100000 ≤ s.mtime →
          t + ftoNs s ≤ s.mtime → exec .deviceLostTimeout s = .next (floodLost (recordLost s d) d))) ∧
      -- a device that this module has reported and that no other would declare
      (s.arg.flag = true → (choosePath s (mkMsg s d 0x01 0)).isSome = true → exec .deviceLostTimeout s =
        .next (after s 1000 (.deviceLostTimeout, { a := d, b := s.arg.b, flag := true }))) ∧
      (s.arg.flag = true → choosePath s (mkMsg s d 0x01 0) = none → s.arg.c ≠ 0 → s.arg.c - 1 + 100000 ≤ s.mtime →
        s.arg.b + ftoNs s ≤ s.mtime → exec .deviceLostTimeout s = .next (floodLost (recordLost s d) d))) ∧
  (∀ (s : State) (d : Nat), s.lostMap.contains d = false → d ≠ s.dev →
    let t := recordLost s d
    d ∈ t.lostMap ∧ (∀ k, k ∈ s.lostMap → k ∈ t.lostMap) ∧ t.extstat = s.extstat ||| 4 ∧ t.ports = s.ports ∧
    ∀ l x, (l, some x) ∈ t.peers → lineDev l = d → x.orphan = true)

/-- R76 to R79, R83, R84, R88 to R95, R163, R164, R401, R415, R420: the controllers serve and hold requests under encryption
and tags, open and close rows, scrub, enter and leave their thermal holds, measure margins, retrain and repair lanes; the end
of training moves the module to stage 2. -/
def Obligations.HbmControllersAct : Prop :=
  ∀ (s : State), tabWf Hbm.reset s.hbms = true →
    let k := s.arg.a
    let b := s.arg.b
    let x := getHbm s k
    let put (t : State) (y : Hbm) : State := { t with hbms := tabPut Hbm.reset t.hbms k y }
    let mc (t : State) : State := logEv { t with extstat := t.extstat ||| 2 } evMcstat
    (∀ r, s.arg.req = some r → lineDev r.line = s.dev → isData (offOf (r.line * 128)) = true →
      (stackOf s.ilv (offOf (r.line * 128))).1 = k → trained s = true →
      let sa := (stackOf s.ilv (offOf (r.line * 128))).2
      let owned := ownState (getCoh s r.line).dir.st
      let here : Nat := r.line * 128
      (requestHeld s k r = true → exec .hbmRequest s = .next (put s { x with waiting := x.waiting ++ [⟨r, .nothing⟩] })) ∧
      (requestHeld s k r = false → tabWf none x.openRows = true → ∃ t, exec .hbmRequest s = .next t ∧
        tabGet none (getHbm t k).openRows (bankOf sa) = (if r.lr then none else some (rowOf sa, s.mtime)) ∧
        (r.op = .read → t.hbm = s.hbm ∧ t.tags = s.tags ∧
          (r.err = 1 → (getHbm t k).ce = Nat.min (x.ce + 1) (2 ^ 32 - 1)) ∧
          (r.err = 2 → r.line ∈ t.badGran ∧ (getHbm t k).ue = true) ∧
          (owned = true → t.mem = s.mem ∧ t.poison = s.poison) ∧
          (owned = false → ∀ d ok, unsealLine s r.td r.line (lineData s.hbm r.line) (tabGet 0 s.tags (tagPlace s r.line)) = (d, ok) →
            t.mem = writeBytes s.mem here 128 d.toNat ∧ (r.err = 2 ∨ ok = false → r.line ∈ t.poison))) ∧
        (r.op = .write →
          (Memory.wf s.hbm = true → readBytes t.hbm here 128 = (sealLine s r.td r.line r.data).1.toNat) ∧
          (tabWf 0 s.tags = true → r.td ≠ 0 → tabGet 0 t.tags (tagPlace s r.line) = (sealLine s r.td r.line r.data).2) ∧
          (r.poison = true ↔ r.line ∈ t.badGran) ∧
          (owned = true → t.mem = s.mem) ∧
          (owned = false → Memory.wf s.mem = true → readBytes t.mem here 128 = r.data.toNat) ∧
          (owned = false → (r.poison = true ↔ r.line ∈ t.poison))))) ∧
    -- what waited is served in the order of arrival; a hinted access leaves its precharge to the last one of its row
    (let v := put s { x with waiting := [] }
     (∀ r, x.waiting = [r] → requestHeld s k r.req = false → acceptWaiting s k = wakeCommands (serveWaiting v k r)) ∧
     (∀ r q, x.waiting = [r, q] → requestHeld s k r.req = false → requestHeld s k q.req = false →
       (r.req.lr = false ∨ sameRow v r.req q.req = false →
         acceptWaiting s k = wakeCommands (serveWaiting (serveWaiting v k r) k q)) ∧
       (r.req.lr = true → sameRow v r.req q.req = true → acceptWaiting s k = wakeCommands (serveWaiting (serveWaiting v k
         { r with req := { r.req with lr := false } }) k { q with req := { q.req with lr := true } }))) ∧
     (∀ r, x.waiting = [r] → requestHeld s k r.req = true → acceptWaiting s k = wakeCommands (put s { x with waiting := [r] }))) ∧
    (∀ (k : Nat) (r : Waiting), let l := r.req.line
      (r.req.op ≠ .read ∨ r.owed ≠ .nothing ∨ (getCoh s l).queue = [] →
        serveWaiting s k r = homeGo (settleOwed (serveHbm s k r.req) l r.owed) l) ∧
      (r.req.op = .read → r.owed = .nothing → ∀ t q, (getCoh s l).queue = t :: q →
        serveWaiting s k r = homeGo (modCoh s l fun c => { c with queue := { t with hint := if r.req.lr then 3 else 0 } :: q }) l)) ∧
    (∀ row t0, tabGet none x.openRows b = some (row, t0) →
      (t0 + 100 ≤ s.mtime → exec .rowIdleClose s = .next (put s { x with openRows := tabPut none x.openRows b none })) ∧
      (s.mtime < t0 + 100 → exec .rowIdleClose s = .next s)) ∧
    (exec .bankRefresh s = .next (put s { x with openRows := tabPut none x.openRows b none })) ∧
    -- the scrubber
    (x.period ≠ 0 → stackHeld x = false → (tabGet Chan.reset x.chans (b / 2)).hold = false → pcOf (x.pos * 128) = b →
      ((∀ e, tabGet none x.scrub b = some e → e.write = false) → ∃ t y, exec .scrubRead s = .next t ∧ y = getHbm t k ∧
        y.pos = (x.pos + 1) % 2 ^ 29 ∧ y.scrubAt = s.mtime + scrubInterval x.period ∧ y.scrub = tabPut none x.scrub b (some ⟨x.pos, s.arg.c != 0, s.arg.c == 2⟩) ∧
        (s.arg.c = 1 → y.ce = Nat.min (x.ce + 1) (2 ^ 32 - 1)) ∧
        (s.arg.c = 2 → y.ue = true ∧ y.ues = Nat.min (x.ues + 1) (2 ^ 32 - 1) ∧ t.extstat = s.extstat ||| 2) ∧
        t.mem = s.mem ∧ t.hbm = s.hbm ∧ t.poison = s.poison) ∧
      (∀ e, tabGet none x.scrub b = some e → e.write = true → exec .scrubRead s = .next s)) ∧
    (∀ e, tabGet none x.scrub b = some e →
      (e.write = true → ∃ t, exec .scrubWrite s = .next t ∧ t.mem = s.mem ∧ t.hbm = s.hbm ∧
        (getHbm t k).scrub = tabPut none x.scrub b (some { e with write := false }) ∧
        t.badGran = if e.poison then setInsert s.badGran (granuleMark s k e.gran) else s.badGran) ∧
      (e.write = false → exec .scrubWrite s = .next s)) ∧
    -- thermal holds
    (∃ y, exec .criticalTempAssert s = .next (after (announce (put s y) evThermal 7 k) 0 (.selfRefreshEnter, { a := k })) ∧
      y.crit = true ∧ y.scrub = [] ∧ y.openRows = x.openRows) ∧
    (x.crit = true → x.selfRef = false → ∃ t, exec .selfRefreshEnter s = .next t ∧
      getHbm t k = { x with selfRef := true, thold := true, catt := true } ∧ t.extstat = s.extstat ||| 2 ∧
      (∀ d ∈ t.dogs, d.2.asid.isSome = true → d.2.stopped.isSome = true)) ∧
    (exec .criticalTempDeassert s = .next (after (put s { x with crit := false, exitAt := some (s.mtime + 1000000) }) 1000000
      (.selfRefreshExit, { a := k }))) ∧
    (∀ t0, s.arg.flag = false → x.exitAt = some t0 → t0 ≤ s.mtime → x.crit = false → ∃ t,
      exec .selfRefreshExit s = .next (after t 2000 (.selfRefreshExit, { a := k, flag := true })) ∧ t.mem = s.mem ∧
      (getHbm t k).selfRef = false ∧ (getHbm t k).exitAt = none ∧ (getHbm t k).thold = x.thold ∧
      (tabWf Chan.reset x.chans = true → ∀ c, c < 32 → (tabGet Chan.reset (getHbm t k).chans c).hold = true)) ∧
    (s.arg.flag = true → x.crit = false → x.selfRef = false → ∃ y t,
      exec .selfRefreshExit s =
        .next (((List.range 32).filter fun c => (tabGet Chan.reset x.chans c).trainReq).foldl
          (fun s c => after s 0 (two .retrainingHold k c)) (acceptWaiting t k)) ∧
      t.hbms = (put s y).hbms ∧ y.thold = false ∧ y.waiting = x.waiting ∧
      (tabWf Chan.reset x.chans = true → ∀ c, c < 32 →
        tabGet Chan.reset y.chans c = { tabGet Chan.reset x.chans c with hold := false })) ∧
    (∀ i, i = .hbmThrottle ∨ i = .hbmThrottleEnd →
      let v := put s { x with temp := b % 256, halved := decide (85 < b) }
      (95 ≤ b → x.crit = false → exec i s = .next (after v 0 (.criticalTempAssert, { a := k }))) ∧
      (b < 95 → x.crit = true → exec i s = .next (after v 0 (.criticalTempDeassert, { a := k }))) ∧
      ((95 ≤ b ↔ x.crit = true) → exec i s = .next v)) ∧
    -- margins, retraining, repair
    (∀ e, s.arg.eyes = [e] → e.lane < 64 → tabWf Lane.reset x.lanes = true → tabWf Chan.reset x.chans = true →
      ∃ t y, exec .marginMeasure s = .next t ∧ y = getHbm t k ∧ t.mem = s.mem ∧
        (tabGet Lane.reset y.lanes (128 * b + e.lane)).width = e.width ∧
        (tabGet Lane.reset y.lanes (128 * b + e.lane)).height = e.height ∧
        (tabGet Lane.reset y.lanes (128 * b + e.lane)).spare = (tabGet Lane.reset x.lanes (128 * b + e.lane)).spare ∧
        y.marg = (x.marg || decide (e.width < x.mth)) ∧ (x.mth ≤ e.width → t = put s y) ∧
        (e.width < x.mth → t.extstat = s.extstat ||| 2) ∧
        (e.width < x.mth → x.auto = true → (tabGet Chan.reset y.chans b).trainReq = true)) ∧
    (exec .chstatTrainreq s = .next (after (put s { x with
      chans := tabMod Chan.reset x.chans b fun y => { y with trainReq := true } }) 0 (two .retrainingHold k b))) ∧
    (s.arg.flag = false →
      ((tabGet Chan.reset x.chans b).trainReq = true → (tabGet Chan.reset x.chans b).hold = false → stackHeld x = false → ∃ t y,
        exec .retrainingHold s = .next (after t 2000 (.retrainingHold, { a := k, b := b, flag := true })) ∧ y = getHbm t k ∧
        t.mem = s.mem ∧ (∀ e ∈ y.scrub, e.1 / 2 ≠ b) ∧
        (tabWf Chan.reset x.chans = true → (tabGet Chan.reset y.chans b).hold = true ∧
          (tabGet Chan.reset y.chans b).trainReq = false)) ∧
      ((tabGet Chan.reset x.chans b).trainReq = false ∨ (tabGet Chan.reset x.chans b).hold = true ∨ stackHeld x = true →
        exec .retrainingHold s = .next s)) ∧
    (s.arg.flag = true →
      let ended := acceptWaiting (put s { x with chans := tabMod Chan.reset x.chans b fun y => { y with hold := false } }) k
      exec .retrainingHold s = .next (if (tabGet Chan.reset x.chans b).trainReq then after ended 0 (two .retrainingHold k b)
        else ended)) ∧
    (∀ lane old, (tabGet Lane.reset x.lanes (128 * b + lane)).spare = old →
      let free := (List.range 8).find? fun i => !(usedSpares x b).contains i
      (∀ sp, free = some sp → repairLane k b s lane = mc (put s { x with
        lanes := tabMod Lane.reset x.lanes (128 * b + lane) fun y => { y with spare := sp }
        chans := tabMod Chan.reset x.chans b fun y => { y with
          spused := y.spused + 1, worn := if old < 8 then setInsert y.worn old else y.worn }
        repair := true })) ∧
      (free = none → ∃ w, (repairLane k b s lane).retired = s.retired ++ [⟨w, s.mtime⟩] ∧
        (getHbm (repairLane k b s lane) k) = { x with spout := true })) ∧
    (s.stage = 1 → Memory.wf s.hbm = true → ∃ t, exec .trainingEnd s = .next t ∧ t.stage = 2 ∧ t.memLock = true ∧
      t.mem = s.mem ∧ t.poison = s.poison ∧
      (∀ l, let td := tabGet 0 s.lineTd l
        let low := lineDev l = s.dev ∧ offOf (l * 128) < 0x6000000
        -- a line without trust domain or poison is written as it stands
        (td = 0 → l ∉ s.poison → tabWf 0 s.lineTd = true → Memory.wf s.mem = true → ∀ a, a / 128 = l →
          (∀ v, (a, v) ∈ s.mem → low → readByte t.hbm a = v) ∧
          ((∀ v, (a, v) ∉ s.mem) → readByte t.hbm a = readByte s.hbm a)) ∧
        -- another one is sealed, and marked where it is poisoned
        (td ≠ 0 ∨ l ∈ s.poison → low →
          readBytes t.hbm (l * 128) 128 = (sealLine s td l (lineData s.mem l)).1.toNat ∧ (l ∈ t.badGran ↔ l ∈ s.poison)))) ∧
    (s.stage ≠ 1 → exec .trainingEnd s = .next s)

/-- R51 to R53, R82, R116, R378, R400 to R404, R419, R420: a detected error is logged and comes to what its kind says: a
count, a squash, a retirement, poison, lost registers, a fatal stop; a hart of a retired core moves to a free slot with
MACHINE_CHECK of kind 1 pending; a fatal stop leaves every hart without chunks and tells the other modules and the host;
power and temperature step the clocks and reach the critical limits. -/
def Obligations.ErrorsAndTemperaturesAct : Prop :=
  ∀ (s : State),
    let k := s.arg.a
    let logged (e : HwError) (t : State) : Prop :=
      s.arg.err = some e → exec .hardwareError s = .next (logEv t evError (errorCode e))
    let arch (t : State) (h : Nat) : Arch := (getHart t h).arch
    logged .corrected { s with corrected := s.corrected + 1 } ∧
    -- a clean copy with a parity error leaves the one cache that has it; the sixteenth error of a way retires the way
    (∀ l cache way bad, s.arg.err = some (.parity l cache way bad) → ∃ t, exec .hardwareError s = .next t ∧
      t.corrected = s.corrected + 1 ∧ (bad = true → lineDev l = s.dev → l ∈ t.badGran) ∧
      ((∀ cl, cacheCluster cache = some cl → (tabGet [] (getCluster s cl).wayErrs way).length < 15) → t.mem = s.mem ∧
        (tabWf LineCoh.reset s.coh = true → tabWf Moesi.i (getCoh s l).caches = true →
          cacheSt (getCoh s l) cache = .s ∨ cacheSt (getCoh s l) cache = .e → cacheSt (getCoh t l) cache = .i) ∧
        ∀ cl, cacheCluster cache = some cl → tabWf Cluster.reset s.clusters = true →
          tabWf [] (getCluster s cl).wayErrs = true → s.mtime ∈ tabGet [] (getCluster t cl).wayErrs way)) ∧
    (∀ h, logged (.speculative h) (squashFrom s h (admittedOf s h) true)) ∧
    (∀ l cache way, s.arg.err = some (.committedLine l cache way) →
      (cacheCluster cache = none → exec .hardwareError s = .next (logEv { s with poison := setInsert s.poison l } evError 5)) ∧
      (∀ cl, cacheCluster cache = some cl → (getCluster s cl).waysRetired.contains way = false → ∃ t, exec .hardwareError s = .next t ∧
        (∃ w, t.retired = s.retired ++ [⟨w, s.mtime⟩]) ∧ ((getCluster s cl).l2 = [] → t.poison = setInsert s.poison l))) ∧
    -- the committed tile, or residue register, is poisoned; one that the open chunks have written since stays
    (∀ h n x y, tabWf Hart.reset s.harts = true → tabWf none (arch s h).tiles = true →
      tabGet none (committedArch (getHart s h)).tiles n = some x → tabGet none (arch s h).tiles n = some y →
      s.arg.err = some (.committedTile h n) → ∃ t, exec .hardwareError s = .next t ∧ (arch t h).g = (arch s h).g ∧
        (tabGet 0 (arch s h).phys n = tabGet 0 (committedArch (getHart s h)).phys n →
          tabGet none (arch t h).tiles n = some { y with poison := true }) ∧
        (tabGet 0 (arch s h).phys n ≠ tabGet 0 (committedArch (getHart s h)).phys n → arch t h = arch s h)) ∧
    (∀ h (q : QReg), tabWf Hart.reset s.harts = true → s.arg.err = some (.committedQc h q.toNat) →
      let n := (committedArch (getHart s h)).qgen[q.toFin]
      ∃ t, exec .hardwareError s = .next t ∧ (arch t h).g = (arch s h).g ∧
        ((arch s h).qgen[q.toFin] = n → rdQ (arch t h) q = { rdQ (arch s h) q with poison := true }) ∧
        ((arch s h).qgen[q.toFin] ≠ n → arch t h = arch s h)) ∧
    (∀ h bank i, tabWf Hart.reset s.harts = true → s.arg.err = some (.hartRegs h bank i) →
      ((getHart s h).slot ≠ .free → ∃ t, exec .hardwareError s = .next t ∧ (getHart t h).mck = (getHart s h).mck ++ [2] ∧
        t.mem = s.mem ∧ t.freeCtr = s.freeCtr + 1 ∧ (bank ≠ 1 → (arch t h).v = (arch s h).v) ∧
        (bank = 1 ∨ bank = 2 → (arch t h).g = (arch s h).g) ∧
        (bank = 0 → BitVec.ofNat 6 i ≠ 0 → ∀ q : GReg,
          rdG (arch t h) q = if q = BitVec.ofNat 6 i then Config.freeWord s.freeCtr else rdG (arch s h) q)) ∧
      ((getHart s h).slot = .free → exec .hardwareError s = .next (logEv s evError 9))) ∧
    (∀ cl e, (getEngine s cl e).run = none → recent s (getEngine s cl e).lastErr = false →
      logged (.engine cl e) (modEngine s cl e fun y => { y with lastErr := some s.mtime, run := none })) ∧
    (∀ h c r, (getHart s h).fifo.cmds = c :: r →
      (c.retried = true → logged (.copyPath h) (failFatal s 1)) ∧
      (c.retried = false → c.fin = none → logged (.copyPath h) (modHart s h fun x => { x with fifo := { x.fifo with
        cmds := { c with prog := 0, rows := [], walked := [], held := false, retried := true } :: r } }))) ∧
    (∀ h, (getHart s h).fifo.cmds = [] → logged (.copyPath h) s) ∧
    (∀ code, logged (.fatal code) (failFatal s code)) ∧
    (exec .fatalError s = .next (failFatal s k)) ∧
    (exec .dieCriticalTemp s = .next { failFatal (announce s evThermal 6 k) 110 with powered := false }) ∧
    (let t := failFatal s k
     t.fatal = true ∧ t.mem = s.mem ∧ t.held = [] ∧ t.presented = [] ∧ t.virtio.needsReset = [0, 1, 2, 3] ∧
     t.cur.inflight = [] ∧ t.cur.chunk.isEmpty = true ∧ (∀ h ∈ t.harts, h.2.inflight = [] ∧ h.2.chunk.isEmpty = true) ∧
     (tabWf Pair.reset s.pairs = true → ∀ p ∈ upPorts s, (getPort s p).peer ≠ s.dev → ∃ m : Msg, m.code = 0x35 ∧
       m.dst = (getPort s p).peer ∧ m.port = some p ∧ (m ∈ t.net ∨ ∃ q ∈ t.pairs, m ∈ q.2.waiting))) ∧
    (∀ n, tabWf Hart.reset s.harts = true → k ∈ s.relocating → moveSlot s k = some n → n ≠ k → n ≠ s.curId → k ≠ s.curId →
      ∃ t, exec .hartRelocate s = .next t ∧ (getHart t n).slot = .ready ∧ (getHart t n).mck = (getHart s k).mck ++ [1] ∧
        (getHart t n).mckOld = k ∧ arch t n = arch s k ∧ (getHart t n).timecmp = (getHart s k).timecmp ∧
        getHart t k = Hart.reset ∧ k ∉ t.relocating ∧ t.mem = s.mem) ∧
    (k ∉ s.relocating ∨ moveSlot s k = none → exec .hartRelocate s = .next s) ∧
    (tabWf Die.reset s.dies = true → tabWf Hbm.reset s.hbms = true → ∃ t, exec .powerTick s = .next t ∧ t.pwr = k ∧ t.mem = s.mem ∧
      (∀ d, d < 4 → let y := { getDie s d with tj := s.arg.nums.getD d 0 }
        getDie t d = if (s.stage = 2 ∨ s.stage = 3) ∧ s.powered = true then stepClock k s.cap y else y) ∧
      (∀ j, j < 8 → let temp := s.arg.nums.getD (5 + j) 0
        getHbm t j = { getHbm s j with temp := temp % 256, halved := decide (85 < temp) } ∧
        (95 ≤ temp → (getHbm s j).crit = false → ∃ e ∈ t.events, e.2 = (.criticalTempAssert, { a := j })) ∧
        (temp < 95 → (getHbm s j).crit = true → ∃ e ∈ t.events, e.2 = (.criticalTempDeassert, { a := j }))) ∧
      (s.powered = true → (∃ i, i < 5 ∧ 110 ≤ s.arg.nums.getD i 0) → ∃ e ∈ t.events, e.2.1 = .dieCriticalTemp) ∧
      (95 ≤ s.arg.nums.getD 4 0 → (∃ p ∈ globalUp s, (getPort s p).forced = false) → ∃ e ∈ t.events, e.2.1 = .forcedPark)) ∧
    (∀ d : Die, (d.tlim ≤ d.tj ∨ s.cap < k → stepClock k s.cap d = { d with fclk := Nat.max 16 (d.fclk - 1) }) ∧
      (¬ (d.tlim ≤ d.tj ∨ s.cap < k) → d.tj + 5 ≤ d.tlim → k + 50 < s.cap →
        stepClock k s.cap d = { d with fclk := Nat.min 30 (d.fclk + 1) })) ∧
    (45 ≤ k → exec .coolantInletAlert s = .next (announce s evThermal 8 0)) ∧
    (k < 45 → exec .coolantInletAlert s = .next s)

/-- R161, R402, R413 to R418, R421: a reset returns the module to stage 0 and keeps what is fused, in flash or provisioned;
the boot ROM starts hart 0 from the first slot in order that passes its checks, or stops in stage 5; keys are loaded in a
session of a provisioned requester; the host's functions answer as the stage allows. -/
def Obligations.ResetBootAndHostRequestsAct : Prop :=
  ∀ (s : State),
    let a := s.arg.a
    let b := s.arg.b
    let base := s.dev * 2 ^ 42
    let answers (t : State) (f st : Nat) : State :=
      { t with virtio := { t.virtio with answers := t.virtio.answers ++ [(f, st)] } }
    let f (k : Nat) : Nat := Config.manifestVersion (manifestOf s k)
    (∀ i, i = .perst ∨ i = .mgmtReset → ∃ t, exec i s = .next t ∧ t.stage = 0 ∧ t.dev = s.provDev ∧ t.flash = s.flash ∧
      t.fusedFloor = s.fusedFloor ∧ t.fusedKey = s.fusedKey ∧ t.mem = [] ∧ t.hbm = [] ∧ t.harts = [] ∧ t.cur = Hart.reset ∧
      t.keys = [] ∧ t.session = none ∧ t.retired = [] ∧ t.join = false ∧ t.ilv = false ∧ t.memLock = false ∧
      t.fto = 40 ∧ t.adapt = true ∧ t.cap = 2600 ∧ t.events = [(0, .bootRom, {})] ∧
      (tabWf Hbm.reset s.hbms = true → ∀ k, (getHbm t k).lanes = (getHbm s k).lanes ∧ (getHbm t k).mth = 0x30)) ∧
    (∀ k, s.stage = 0 → s.curId = 0 → k < 2 → slotBoots s k = true →
      (∀ j, j < 2 → j ≠ k → slotBoots s j = true → (if k = 0 then f j ≤ f k else f j < f k)) → ∃ t,
      exec .bootRom s = .next t ∧ t.stage = 1 ∧ t.booted = some k ∧ t.virtio.blkWriteProtect = some k ∧
      t.cur.slot = .ready ∧ t.cur.arch.mode = .m ∧
      (tabWf 0 s.meas = true → tabGet 0 t.meas 2 = Config.manifestDigest (manifestOf s k) ∧
        tabGet 0 t.meas 3 = shake256 (manifestOf s k ++ [if k = 0 then 0x41 else 0x42])) ∧
      t.cur.arch.pc = BitVec.ofNat 64 (base + 0x1000 + Config.manifestEntry (manifestOf s k)) ∧
      t.cur.arch.blk = .header .entry ∧ gOf t 1 = BitVec.ofNat 64 base ∧ gOf t 2 = BitVec.ofNat 64 s.dev ∧
      gOf t 3 = 0x6000000 ∧ gOf t 4 = BitVec.ofNat 64 k ∧ (∀ r : GReg, 5 ≤ r.toNat → gOf t r = 0) ∧
      (∀ n, n < 4096 → readByte t.mem (base + n) = readByte s.flash (k * 0x8000000 + n)) ∧
      (∀ n, n < Config.manifestSize (manifestOf s k) →
        readByte t.mem (base + 0x1000 + n) = readByte s.flash (k * 0x8000000 + 0x1000 + n))) ∧
    (s.stage = 0 → slotBoots s 0 = false → slotBoots s 1 = false → exec .bootRom s = .next { s with stage := 5 }) ∧
    (exec .provisioningRequest s =
      .next (if s.stage = 0 then { s with provDev := a, dev := a } else { s with provDev := a })) ∧
    -- the key exchange: this module's point and its signature, then the requester's own signature opens the session
    (let d := Config.exchangeSecret s.freeCtr % ecN
     s.arg.flag = false →
      (ecMul (ecDecode s.arg.bytes) 384 d = none → exec .spdmKeyExchange s = .next s) ∧
      (∀ x y body t full, ecMul (ecDecode s.arg.bytes) 384 d = some (x, y) → body = ecEncode (ecMul ecBase 384 d) →
        t = Config.negotiated ++ s.arg.bytes ++ body →
        full = ed448Sign (slotKey s a) (spdmSigned "responder-key_exchange_rsp signing" t) →
        exec .spdmKeyExchange s = .next { s with
          freeCtr := s.freeCtr + 1, exchange := some ⟨bigBytes x 48, t ++ full⟩, hostOut := s.hostOut ++ [body ++ full] })) ∧
    (s.arg.flag = true →
      (s.exchange = none → exec .spdmKeyExchange s = .next s) ∧
      (∀ x, s.exchange = some x →
        let key := s.arg.bytes.take 57
        let ok := ed448Verify key (spdmSigned "requester-finish signing" (x.transcript ++ key)) (s.arg.bytes.drop 57)
        (ok = false → exec .spdmKeyExchange s = .next { s with exchange := none }) ∧
        (ok = true → ∀ k, k = sessionKeys x.shared (sha3 (x.transcript ++ s.arg.bytes)) →
          exec .spdmKeyExchange s = .next { s with exchange := none, session := some ⟨shake256 key, k.1, k.2, 0⟩ }))) ∧
    -- measurements: blocks 1 and 5 in every stage; block 4 once Celowell has loaded the system, in stage 2 or 3
    (let shows (t : State) : Out :=
       let body := (measured t).flatMap measBlock
       let signed := spdmSigned "responder-measurements signing" (Config.negotiated ++ s.arg.bytes ++ body)
       .next { t with hostOut := s.hostOut ++ [body ++ ed448Sign (slotKey t a) signed] }
     (s.arg.flag = false → exec .spdmMeasurements s = shows s) ∧
     (s.arg.flag = true → s.stage = 2 ∨ s.stage = 3 → (∀ m ∈ s.meas, m.1 ≠ 4) → exec .spdmMeasurements s = shows { s with
       meas := tabPut 0 s.meas 4 (shake256 (flashBytes s (b * 512) (s.arg.c * 512))) }) ∧
     (s.arg.flag = true → (s.stage ≠ 2 ∧ s.stage ≠ 3) ∨ (∃ m ∈ s.meas, m.1 = 4) → exec .spdmMeasurements s = shows s)) ∧
    (let m := measured s
     m.head? = some (1, 0, Config.romDigest) ∧ m.getLast? = some (5, 2, Config.fuseDigest s.fusedFloor) ∧
     ∀ n, n ∈ [2, 3, 4] → ((∃ x ∈ m, x.1 = n) ↔ ∃ x ∈ s.meas, x.1 = n) ∧ ∀ x ∈ m, x.1 = n → x.2.2 = tabGet 0 s.meas n) ∧
    -- key slots
    (∀ x, s.session = some x →
      (slotRequest s x = none → exec .keySlotLoad s = .next s) ∧
      (∀ slot key, slotRequest s x = some (slot, key) →
        let t := { s with session := some { x with seq := x.seq + 1 } }
        1 ≤ slot ∧ (Config.requesterProvisioned x.digest = true → exec .keySlotLoad s = .next { t with keys := tabPut none s.keys slot key }) ∧
        (Config.requesterProvisioned x.digest = false → exec .keySlotLoad s = .next t))) ∧
    (s.session = none → exec .keySlotLoad s = .next s) ∧
    -- the host's functions
    (∃ l, exec .virtioFeaturesOk s =
        .next { s with virtio := { s.virtio with featuresOk := l }, hostOut := s.hostOut ++ [virtioShows s a] } ∧
      (a ∈ l ↔ s.arg.word.toNat ||| offered a = offered a)) ∧
    (let up := s.stage = 2 ∨ s.stage = 3
     (33 ≤ a → exec .virtioNetRequest s = .next s) ∧
     (a < 33 → ¬ up → exec .virtioNetRequest s = .next (answers s 0 1)) ∧
     (a = 32 → up → exec .virtioNetRequest s = .next (answers s 0 0)) ∧
     (a < 32 → up → a % 2 = 0 →
       exec .virtioNetRequest s = .next { s with virtio := { s.virtio with waiting := s.virtio.waiting ++ [(0, a)] } }) ∧
     (a < 32 → up → a % 2 = 1 → 9242 < s.arg.bytes.length → exec .virtioNetRequest s = .next (answers s 0 1)) ∧
     (a < 32 → up → a % 2 = 1 → s.arg.bytes.length ≤ 9242 → exec .virtioNetRequest s = .next (answers { s with
       virtio := { s.virtio with toModule := s.virtio.toModule ++ [(0, a, s.arg.bytes)] } } 0 0))) ∧
    (let sectors := (s.arg.bytes.length + 511) / 512
     (a = 2 → exec .virtioBlkRequest s = .next (answers s 1 0)) ∧
     (a = 0 → b + s.arg.c ≤ 33554432 → exec .virtioBlkRequest s = .next (answers { s with
       hostOut := s.hostOut ++ [(List.range (s.arg.c * 512)).map fun i => readByte s.flash (b * 512 + i)] } 1 0)) ∧
     (a = 0 → 33554432 < b + s.arg.c → exec .virtioBlkRequest s = .next (answers s 1 1)) ∧
     (a = 1 → b + sectors ≤ 33554432 → s.stage ≠ 1 → sectorProtected s b sectors = false → s.arg.bytes.length % 512 = 0 →
       Memory.wf s.flash = true → ∃ t, exec .virtioBlkRequest s = .next (answers t 1 0) ∧
         (∀ i x, s.arg.bytes[i]? = some x → readByte t.flash (b * 512 + i) = x) ∧
         ∀ n, n < b * 512 ∨ b * 512 + s.arg.bytes.length ≤ n → readByte t.flash n = readByte s.flash n) ∧
     (a = 1 → s.stage = 1 ∨ sectorProtected s b sectors = true → exec .virtioBlkRequest s = .next (answers s 1 1))) ∧
    (s.arg.flag = true → (a = 0 → exec .virtioConsoleRequest s = .next (answers { s with
        virtio := { s.virtio with toModule := s.virtio.toModule ++ [(2, 0, s.arg.bytes)] } } 2 0)) ∧
      (a ≠ 0 → exec .virtioConsoleRequest s = .next (answers s 2 0))) ∧
    (s.arg.flag = false →
      (a ≠ 1 → exec .virtioConsoleRequest s =
        .next { s with virtio := { s.virtio with waiting := s.virtio.waiting ++ [(2, 0)] } }) ∧
      (a = 1 → s.console = [] → exec .virtioConsoleRequest s =
        .next (answers { s with virtio := { s.virtio with buffers := s.virtio.buffers + 1 } } 2 0)) ∧
      (∀ x l, a = 1 → s.virtio.buffers = 0 → s.console = x :: l → exec .virtioConsoleRequest s = .next (answers { s with
        console := l, virtio := { s.virtio with port1 := s.virtio.port1 ++ [eventLine x] } } 2 0))) ∧
    (let closed := s.stage = 1 ∨ s.stage = 5
     (closed → exec .vsockConnect s =
       .next (answers { s with hostOut := s.hostOut ++ [vsockHeader b a 3] } 3 1)) ∧
     (¬ closed → exec .vsockConnect s = .next (answers { s with
       hostOut := s.hostOut ++ [vsockHeader b a 2], virtio := { s.virtio with conns := setInsert s.virtio.conns b } } 3 0))) ∧
    (∃ v, exec .functionLevelReset s = .next { s with virtio := v } ∧ a ∉ v.featuresOk ∧ a ∉ v.needsReset ∧
      v.answers = s.virtio.answers.filter (·.1 != a) ∧ v.waiting = s.virtio.waiting.filter (·.1 != a) ∧
      (a = 2 → v.buffers = 0) ∧ (a ≠ 2 → v.buffers = s.virtio.buffers) ∧ (a = 3 → v.conns = []) ∧ (a ≠ 3 → v.conns = s.virtio.conns) ∧
      ∀ g, g ≠ a → (g ∈ v.featuresOk ↔ g ∈ s.virtio.featuresOk) ∧ (g ∈ v.needsReset ↔ g ∈ s.virtio.needsReset)) ∧
    (∃ l cores units, exec .pldmSensorRequest s = .next { s with hostOut := s.hostOut ++ [l, cores, units] } ∧
      (∀ d, d < 4 → l[d]? = some (BitVec.ofNat 8 (getDie s d).tj)) ∧
      (∀ k, k < 8 → l[4 + k]? = some (BitVec.ofNat 8 (getHbm s k).temp)) ∧
      l.drop 12 = bytesOf s.pwr 2 ++ bytesOf (mgmtRead s 0).toNat 8 ∧
      (∀ c, c < 512 → (cores.drop (8 * c)).take 8 = bytesOf (featmask s c).toNat 8) ∧
      (∀ j r, s.retired[j]? = some r → (units.drop (8 * j)).take 8 = bytesOf r.word.toNat 8))

/-! ## The whole machine -/

/-- R413, R416, R82, R88, R157, R172, R380, R381, R392, R393, R412, R419: what the registers and the memory hold right after
reset, where the manual says it. -/
def Obligations.ResetLeavesTheModuleAtStageZero : Prop :=
  let s := State.reset
  s.stage = 0 ∧ s.fatal = false ∧ s.join = false ∧ s.fto = 40 ∧ s.adapt = true ∧ s.cap = 2600 ∧ s.ilv = false ∧
  s.memLock = false ∧ s.retired = [] ∧ s.keys = [] ∧ s.lostMap = [] ∧ s.held = [] ∧ s.presented = [] ∧
  Memory.wf s.mem = true ∧ Memory.wf s.hbm = true ∧ (∀ a, readByte s.mem a = memDefault) ∧
  (∀ h, (getHart s h).slot = .free ∧ (getHart s h).timecmp = 2 ^ 64 - 1 ∧ (getHart s h).swint = false ∧
    (getHart s h).fifo = ⟨[], []⟩) ∧
  (∀ k, (getHbm s k).mth = 0x30 ∧ (getHbm s k).auto = true ∧ (getHbm s k).period = 24) ∧
  (∀ p, (getPort s p).idle = 20 ∧ (getPort s p).wth = 64 ∧ (getPort s p).pen = true ∧ (getPort s p).parked = false) ∧
  (∀ d, (getDie s d).fclk = 16 ∧ (getDie s d).tlim = 95) ∧
  (∀ cl e k, (getEngine s cl e).lend = 0xFFFF ∧ tabGet SlotEnt.reset (getEngine s cl e).slots k = ⟨false, 0⟩) ∧
  (∀ n, (getGroup s n).state = 0) ∧ TablesWf s ∧ ctlRead s true 0x3FF00000000 = 0 ∧ ctlRead s true 0x3FF00000008 = 2600

/-- R7, R127: whatever the state, a step leaves the committed memory and the memory of the stacks in the canonical form of
a table: addresses rise strictly, and no entry holds what an unlisted address reads as. -/
def Obligations.EveryStepKeepsMemoryCanonical : Prop :=
  keeps fun s => Memory.wf s.mem = true ∧ Memory.wf s.hbm = true

/-- R1, R37, R47, R96, R147, R165: whatever the state, a step leaves the tables of harts, units, lines, groups and ports in
canonical form, so that what one entry holds is read back and no other entry's reading depends on it. -/
def Obligations.EveryStepKeepsTablesCanonical : Prop := keeps TablesWf

/-- R216 to R235, R66, R67: the word that the encoder writes for a well-formed instruction decodes to that instruction,
with every operand as it was; a command of the copy engine likewise. -/
def Obligations.DecodingUndoesEncoding : Prop :=
  (∀ (i : Instr) (w : Word), i.wf = true → encode i = [w] → decode w = some i) ∧
  (∀ (h : Nat) (d : Cmd) (i : Instr), i.wf = true →
    i ∈ [Instr.copy h d, .copy2d h d, .gather h d, .scatter h d, .fill h d, .rowcopy h d, .rowinit h d, .mcopy h d,
      .shload h d, .save h d, .restore h d] → decodeCmd h d = some i ∧ encode i = [d.d0, d.d1, d.d2, d.d3, d.d4, d.d5, d.d6, d.d7]) ∧
  (∀ (w : Word) (i : Instr), decode w = some i → i.wf = true)

/-- R216 to R235 and the encoding tables of the instruction chapters: words written out field by field, with their guards,
hints and operands, and what they decode to; words with a reserved field or code, or an operand that may not stand, decode
to nothing. -/
def Obligations.WordsDecodeToTheirInstructions : Prop :=
  let c : Ctl := ⟨0, false, 0, false, 0, false, 0⟩
  decode 0x004000030C400000 = some (.add c 3 3 4) ∧
  decode 0x200000020BFFFFFF = some (.addi c 2 2 0x3FFFFFF) ∧
  decode 0x08C0000108000001 = some (.cmp c .ne 1 2 0) ∧
  decode 0x0A000007209280A0 = some (.fma c .f32 .rne 7 8 9 10) ∧
  decode 0x3004003FFFFFFFFA = some (.br { c with ga := 1 } 0x3FFFFFFFFA) ∧
  decode 0x31000000F8000000 = some (.ret c 62) ∧
  decode 0x4080000304608002 = some (.ldx c 3 1 2 .w true 2) ∧
  decode 0x41C0000404300010 = some (.stp c 4 1 .d 16) ∧
  decode 0x424000051C318000 = some (.amo c .add 5 6 7 .d false .hart) ∧
  decode 0x4340000500000000 = some (.sysfence c 5) ∧
  decode 0x6000000304000040 = some (.vld c 3 1 64) ∧
  decode 0x7000000108301420 = some (.vadd c ⟨true, 4⟩ .i16 false 1 2 3) ∧
  decode 0x7380000108500041 = some (.vshl c ⟨false, 0⟩ .i32 true 1 2 5) ∧
  decode 0x75C00001083100A0 = some (.vfma c ⟨false, 0⟩ .f32 .rne false 1 2 3 4) ∧
  decode 0 = none ∧ decode 0x4480000950000000 = none ∧ decode 0x440000000F000080 = none ∧ decode 0x004004030C400000 = none ∧
  decode 0x75C00001083100AD = none

/-- R69, R203, R227 to R233, R389, R390, R392: what a step runs: a due step of the hardware, else work that waits for the
hardware, else in turn the command of the copy engine or the next word of the hart whose turn it is, which is the word at its
pc, after the header of a block where one must be entered. A trap that is due and then an interrupt come before the next
instruction, whatever the next word is (the address that hepc holds between two blocks: assumption log, entry 59). -/
def Obligations.StepRunsTheDecodedInstruction : Prop :=
  (∀ (s t : State), s.fatal = false → t = (if (observed s).isSome then s else tick s) →
    (∀ i x u, nextDue t = some ((i, x), u) → stepOk i x = true → step s = exec i { u with arg := x }) ∧
    (nextDue t = none →
      (∀ i x, pendingStep t = some (i, x) → step s = exec i { t with arg := x }) ∧
      (pendingStep t = none → ∀ v, v = askAll t →
        -- a command of the copy engine
        (∀ h c r, commandHart v = some h → v.cycle % 2 = 1 ∨ nextHart v = none → (getHart v h).fifo.cmds = c :: r →
          let u := { v with engTurn := h }
          let op := field 7 0 c.cmd.d0
          (∀ i, decodeCmd h c.cmd = some i →
            (c.prog = 0 ∨ (op ≠ 0x06 ∧ op ≠ 0x07) → step s = exec i u) ∧
            (c.prog ≠ 0 → op = 0x06 ∨ op = 0x07 → step s = exec .rowBlockStep { u with arg := { a := h } })) ∧
          (decodeCmd h c.cmd = none → step s = .next (writeRecord u h 0x04 0))) ∧
        -- an instruction of a hart
        (∀ h u, nextHart v = some h → v.cycle % 2 = 0 ∨ commandHart v = none → u = takeTurn v h →
          let free := u.cur.drain = none ∧ u.cur.mamo = none ∧ u.cur.stall ≠ some .irq
          (∀ r, u.cur.due = some r → step s = .next (if isDrained u then deliver u r else u)) ∧
          (u.cur.due = none → interrupted u h = true → free → ∀ e, e = atEntry u →
            step s = exec (if (interruptFor e h).isSome then .interruptDelivery else .userInterrupt) { e with arg := { a := h } }) ∧
          (u.cur.due = none → interrupted u h = false ∨ ¬ free →
            -- a word in its block, or where a trap has left the hart
            let runs (w : State) (x : Word) : Prop :=
              let y := updArch w fun a => { a with iw := x }
              (∀ i, decode x = some i → misplaced y.cur.arch i = false → step s = exec i y) ∧
              (∀ i, decode x = some i → misplaced y.cur.arch i = true → step s = Safety.traps y y 0x01 x 0) ∧
              (decode x = none → step s = Safety.traps y y 0x01 x 0)
            let enters (w : State) (hd : Word) : Prop := let e := enterBlock w hd
              (2 ≤ e.cur.inflight.length → step s = .next e) ∧
              (e.cur.inflight.length < 2 → ∀ w2 x, fetchWord e = (w2, .val x) → runs w2 x)
            let header (hd : Word) : Prop := hd.extractLsb' 54 10 = 0x3FF
            let sound (hd : Word) : Prop := hd.extractLsb' 48 6 ≠ 0 ∧ hd.extractLsb' 0 6 = 0
            (∀ low, u.cur.arch.blk = .header (.badEntry low) →
              step s = Safety.traps u u cTarget (u.cur.arch.pc + w64 low) 0) ∧
            ((∀ low, u.cur.arch.blk ≠ .header (.badEntry low)) →
              (∀ w c, fetchWord u = (w, .wait c) → step s = .next (stallOn c w)) ∧
              (∀ w x, fetchWord u = (w, .trap x) → w.cur.arch.blk ≠ .header .sHandler → w.cur.arch.blk ≠ .header .mHandler →
                step s = .next (raiseAt w w.cur.arch.pc x)) ∧
              (∀ w x, fetchWord u = (w, .val x) →
                (∀ fin gl vl, u.cur.arch.blk = .body fin gl vl → runs w x) ∧
                (u.cur.arch.blk = .resumed → (¬ header x → runs w x) ∧ (header x → sound x → enters w x)) ∧
                (∀ need, u.cur.arch.blk = .header need → header x → need = .any ∨ x.getLsbD 7 = true → sound x → enters w x) ∧
                (u.cur.arch.blk = .header .any ∨ (u.cur.arch.blk = .header .entry ∧ x.getLsbD 7 = true) →
                  w.cur.arch.blk = u.cur.arch.blk → header x → ¬ sound x → ∀ y, y = updArch w (fun a => { a with iw := x }) →
                    step s = Safety.traps y y 0x01 x 0) ∧
                (∀ need, u.cur.arch.blk = .header need → w.cur.arch.blk = u.cur.arch.blk →
                  ¬ header x ∨ (need ≠ .any ∧ x.getLsbD 7 = false) →
                    (need = .any ∨ need = .entry → step s = Safety.traps w w cTarget w.cur.arch.pc 0) ∧
                    (need = .sHandler →
                      step s = .next (deliver w ⟨cMcheck, true, w.cur.arch.pc, w64 (3 * 2 ^ 60 + w.curId), 0⟩)) ∧
                    (need = .mHandler → step s = .next (logEv (vacate w w.curId true) evHandler)))))))))) ∧
  (∀ (s : State) (hd : Word), let e := enterBlock s hd
    e.cur.arch.pc = s.cur.arch.pc + 8 ∧ e.mem = s.mem ∧ e.cur.arch.g = s.cur.arch.g ∧
    e.cur.arch.blk = .body ((s.cur.arch.pc.toNat + 8 + 8 * field 53 48 hd) % 2 ^ 64) (hd.extractLsb' 32 16)
      (hd.extractLsb' 24 8))

/-- R224, R229, R231, R233, R331, R200: an instruction that retires without a pre-admission moves the pc past its word and changes
nothing else than its result: the registers stay, except that at the end of a block the groups that its header does not
keep are lost; a predicated-off instruction only retires. -/
def Obligations.InstructionsChangeOnlyTheirResult : Prop :=
  (∀ (c : Ctl) (s t : State), preAdmitted s s.curId = false → t = retire c s →
    let a := s.cur.arch
    let b := t.cur.arch
    t = { s with cur := t.cur, dogs := t.dogs, freeCtr := t.freeCtr } ∧
    b = { a with pc := a.pc + 8, blk := b.blk, g := b.g, v := b.v, htrow := b.htrow, resume := false } ∧
    b.htrow = (if a.resume then a.htrow &&& ~~~(0x80 : Word) else a.htrow) ∧
    ((∀ fin gl vl, a.blk = .body fin gl vl → (a.pc + 8).toNat ≠ fin) → b.blk = a.blk ∧ b.g = a.g ∧ b.v = a.v) ∧
    (∀ fin gl vl, a.blk = .body fin gl vl → (a.pc + 8).toNat = fin → b.blk = .header .any ∧
      (∀ k : Fin 64, gl.getLsbD (k.val / 4) = true → b.g[k] = a.g[k]) ∧
      (∀ k : Fin 32, vl.getLsbD (k.val / 4) = true → b.v[k] = a.v[k])) ∧
    (∀ pa, specByte t.cur pa = specByte s.cur pa)) ∧
  (∀ (c : Ctl) (rd ra rb rc : GReg) (pd pa pb pn : PReg) (vd va vb : VReg) (m : VMask) (ty : VType) (cond : Cond)
    (imm : BitVec 26) (sh n1 : BitVec 6) (k : BitVec 3) (w : BitVec 32) (s t : State),
    preAdmitted s s.curId = false →
    let a := s.cur.arch
    let keptG (q : GReg) : Prop := ∀ fin gl vl, a.blk = .body fin gl vl → (a.pc + 8).toNat = fin →
      gl.getLsbD (q.toNat / 4) = true
    let keptV (q : VReg) : Prop := ∀ fin gl vl, a.blk = .body fin gl vl → (a.pc + 8).toNat = fin →
      vl.getLsbD (q.toNat / 4) = true
    let same : Prop :=
      let x := t.cur.arch
      t = { s with cur := t.cur, dogs := t.dogs, freeCtr := t.freeCtr } ∧ x.pc = a.pc + 8 ∧ x.tiles = a.tiles ∧ x.qc = a.qc ∧
      x.fcsr = a.fcsr ∧ x.vcsr = a.vcsr ∧ x.hstat = a.hstat ∧ x.hcause = a.hcause ∧ x.hepc = a.hepc ∧ x.htval = a.htval ∧
      x.mode = a.mode ∧ x.shadow = a.shadow ∧ x.sbank = a.sbank ∧ x.mbank = a.mbank ∧ x.mrec = a.mrec ∧
      ∀ lvl b, lvl = none ∨ s.cur.got = [] → byteAt t lvl b = byteAt s lvl b
    (∀ i ∈ [Instr.add c rd ra rb, .sub c rd ra rb, .mul c rd ra rb, .mulh c rd ra rb, .mulhu c rd ra rb,
        .madd c rd ra rb rc, .div c rd ra rb, .divu c rd ra rb, .rem c rd ra rb, .remu c rd ra rb, .and c rd ra rb,
        .or c rd ra rb, .xor c rd ra rb, .andn c rd ra rb, .orn c rd ra rb, .sll c rd ra rb, .srl c rd ra rb,
        .sra c rd ra rb, .rol c rd ra rb, .ror c rd ra rb, .min c rd ra rb, .max c rd ra rb, .minu c rd ra rb,
        .maxu c rd ra rb, .clz c rd ra, .ctz c rd ra, .popc c rd ra, .bswap c rd ra, .sext c rd ra n1, .zext c rd ra n1,
        .addsh c rd ra rb k, .sel c rd pn ra rb, .addi c rd ra imm, .andi c rd ra imm, .ori c rd ra imm, .xori c rd ra imm,
        .slli c rd ra sh, .srli c rd ra sh, .srai c rd ra sh, .muli c rd ra imm, .li c rd w, .lui c rd w, .lpc c rd w],
      exec i s = .next t → same ∧ t.cur.arch.p = a.p ∧ (∀ q, keptV q → vOf t q = vOf s q) ∧
        ∀ q, keptG q → q ≠ rd ∨ guardOf a c = false ∨ rd = 0 → gOf t q = gOf s q) ∧
    (∀ i ∈ [Instr.cmp c cond pd ra rb, .cmpi c cond pd ra (imm.setWidth 18), .plog c .and pd pa pb, .plog c .or pd pa pb,
        .plog c .xor pd pa pb, .plog c .andn pd pa pb],
      exec i s = .next t → same ∧ (∀ q, keptV q → vOf t q = vOf s q) ∧ (∀ q, keptG q → gOf t q = gOf s q) ∧
        ∀ q, q ≠ pd ∨ guardOf a c = false ∨ pd = 0 → pOf t q = pOf s q) ∧
    (∀ i ∈ [Instr.vadd c m ty false vd va vb, .vsub c m ty false vd va vb, .vmul c m ty false vd va vb,
        .vmulh c m ty vd va vb, .vmin c m ty vd va vb, .vmax c m ty vd va vb, .vabs c m ty vd va, .vand c m ty vd va vb,
        .vor c m ty vd va vb, .vxor c m ty vd va vb, .vandn c m ty vd va vb, .vpopc c m ty vd va],
      exec i s = .next t → same ∧ t.cur.arch.p = a.p ∧ (∀ q, keptG q → gOf t q = gOf s q) ∧
        ∀ q, keptV q → q ≠ vd ∨ guardOf a c = false → vOf t q = vOf s q))

/-- R200, R227, R403: no instruction and no step of the hardware ends the machine: each gives a next state, and a step
faults only where a due step's argument names nothing that exists; after a fatal error nothing but a reset changes the
harts, the memory, the groups or the states of lines. -/
def Obligations.OnlyIllFormedStepsFault : Prop :=
  (∀ (i : Instr) (s : State), goesOn (exec i s)) ∧
  (∀ (s t : State), t = (if (observed s).isSome then s else tick s) →
    goesOn (step s) ∨ ∃ i x u, nextDue t = some ((i, x), u) ∧ stepOk i x = false ∧ step s = .fault .illFormedStep) ∧
  (∀ (s v t : State), s.fatal = true → v = (if (observed s).isSome then s else tick s) →
    (∀ i x u, nextDue v = some ((i, x), u) → isReset i = false) → step s = .next t →
    t.fatal = true ∧ t.cur = s.cur ∧ t.harts = s.harts ∧ t.mem = s.mem ∧ t.hbm = s.hbm ∧ t.groups = s.groups ∧ t.coh = s.coh)
end

