-- ==== Sys2Proof/Laws/State.lean ====
section
/-!
SUPPORT. One lemma per field per update of the state: what an update of the moving hart, of its registers, of its chunk
or of the counter of free values leaves as it is.
-/

namespace Sys2Proof.Machine

/-! ## Updates of the moving hart -/

@[simp] theorem updHart_cur (s : State) (f : Hart → Hart) : (updHart s f).cur = f s.cur := rfl
@[simp] theorem updHart_curId (s : State) (f : Hart → Hart) : (updHart s f).curId = s.curId := rfl
@[simp] theorem updHart_harts (s : State) (f : Hart → Hart) : (updHart s f).harts = s.harts := rfl
@[simp] theorem updHart_cores (s : State) (f : Hart → Hart) : (updHart s f).cores = s.cores := rfl
@[simp] theorem updHart_clusters (s : State) (f : Hart → Hart) : (updHart s f).clusters = s.clusters := rfl
@[simp] theorem updHart_dies (s : State) (f : Hart → Hart) : (updHart s f).dies = s.dies := rfl
@[simp] theorem updHart_mem (s : State) (f : Hart → Hart) : (updHart s f).mem = s.mem := rfl
@[simp] theorem updHart_hbm (s : State) (f : Hart → Hart) : (updHart s f).hbm = s.hbm := rfl
@[simp] theorem updHart_poison (s : State) (f : Hart → Hart) : (updHart s f).poison = s.poison := rfl
@[simp] theorem updHart_lineTd (s : State) (f : Hart → Hart) : (updHart s f).lineTd = s.lineTd := rfl
@[simp] theorem updHart_coh (s : State) (f : Hart → Hart) : (updHart s f).coh = s.coh := rfl
@[simp] theorem updHart_peers (s : State) (f : Hart → Hart) : (updHart s f).peers = s.peers := rfl
@[simp] theorem updHart_held (s : State) (f : Hart → Hart) : (updHart s f).held = s.held := rfl
@[simp] theorem updHart_presented (s : State) (f : Hart → Hart) : (updHart s f).presented = s.presented := rfl
@[simp] theorem updHart_soloHart (s : State) (f : Hart → Hart) : (updHart s f).soloHart = s.soloHart := rfl
@[simp] theorem updHart_invs (s : State) (f : Hart → Hart) : (updHart s f).invs = s.invs := rfl
@[simp] theorem updHart_ilv (s : State) (f : Hart → Hart) : (updHart s f).ilv = s.ilv := rfl
@[simp] theorem updHart_memLock (s : State) (f : Hart → Hart) : (updHart s f).memLock = s.memLock := rfl
@[simp] theorem updHart_hbms (s : State) (f : Hart → Hart) : (updHart s f).hbms = s.hbms := rfl
@[simp] theorem updHart_salvBase (s : State) (f : Hart → Hart) : (updHart s f).salvBase = s.salvBase := rfl
@[simp] theorem updHart_salvSz (s : State) (f : Hart → Hart) : (updHart s f).salvSz = s.salvSz := rfl
@[simp] theorem updHart_salvHead (s : State) (f : Hart → Hart) : (updHart s f).salvHead = s.salvHead := rfl
@[simp] theorem updHart_salvTail (s : State) (f : Hart → Hart) : (updHart s f).salvTail = s.salvTail := rfl
@[simp] theorem updHart_salvOvf (s : State) (f : Hart → Hart) : (updHart s f).salvOvf = s.salvOvf := rfl
@[simp] theorem updHart_salvEn (s : State) (f : Hart → Hart) : (updHart s f).salvEn = s.salvEn := rfl
@[simp] theorem updHart_dev (s : State) (f : Hart → Hart) : (updHart s f).dev = s.dev := rfl
@[simp] theorem updHart_provDev (s : State) (f : Hart → Hart) : (updHart s f).provDev = s.provDev := rfl
@[simp] theorem updHart_fto (s : State) (f : Hart → Hart) : (updHart s f).fto = s.fto := rfl
@[simp] theorem updHart_join (s : State) (f : Hart → Hart) : (updHart s f).join = s.join := rfl
@[simp] theorem updHart_adapt (s : State) (f : Hart → Hart) : (updHart s f).adapt = s.adapt := rfl
@[simp] theorem updHart_tdbase (s : State) (f : Hart → Hart) : (updHart s f).tdbase = s.tdbase := rfl
@[simp] theorem updHart_keys (s : State) (f : Hart → Hart) : (updHart s f).keys = s.keys := rfl
@[simp] theorem updHart_lostMap (s : State) (f : Hart → Hart) : (updHart s f).lostMap = s.lostMap := rfl
@[simp] theorem updHart_domainClear (s : State) (f : Hart → Hart) : (updHart s f).domainClear = s.domainClear := rfl
@[simp] theorem updHart_groups (s : State) (f : Hart → Hart) : (updHart s f).groups = s.groups := rfl
@[simp] theorem updHart_ports (s : State) (f : Hart → Hart) : (updHart s f).ports = s.ports := rfl
@[simp] theorem updHart_net (s : State) (f : Hart → Hart) : (updHart s f).net = s.net := rfl
@[simp] theorem updHart_pairs (s : State) (f : Hart → Hart) : (updHart s f).pairs = s.pairs := rfl
@[simp] theorem updHart_reqs (s : State) (f : Hart → Hart) : (updHart s f).reqs = s.reqs := rfl
@[simp] theorem updHart_nextReq (s : State) (f : Hart → Hart) : (updHart s f).nextReq = s.nextReq := rfl
@[simp] theorem updHart_hbWait (s : State) (f : Hart → Hart) : (updHart s f).hbWait = s.hbWait := rfl
@[simp] theorem updHart_mtime (s : State) (f : Hart → Hart) : (updHart s f).mtime = s.mtime := rfl
@[simp] theorem updHart_cycle (s : State) (f : Hart → Hart) : (updHart s f).cycle = s.cycle := rfl
@[simp] theorem updHart_mtvec (s : State) (f : Hart → Hart) : (updHart s f).mtvec = s.mtvec := rfl
@[simp] theorem updHart_extroute (s : State) (f : Hart → Hart) : (updHart s f).extroute = s.extroute := rfl
@[simp] theorem updHart_extstat (s : State) (f : Hart → Hart) : (updHart s f).extstat = s.extstat := rfl
@[simp] theorem updHart_extena (s : State) (f : Hart → Hart) : (updHart s f).extena = s.extena := rfl
@[simp] theorem updHart_dogs (s : State) (f : Hart → Hart) : (updHart s f).dogs = s.dogs := rfl
@[simp] theorem updHart_noUnit (s : State) (f : Hart → Hart) : (updHart s f).noUnit = s.noUnit := rfl
@[simp] theorem updHart_stage (s : State) (f : Hart → Hart) : (updHart s f).stage = s.stage := rfl
@[simp] theorem updHart_fatal (s : State) (f : Hart → Hart) : (updHart s f).fatal = s.fatal := rfl
@[simp] theorem updHart_capFlag (s : State) (f : Hart → Hart) : (updHart s f).capFlag = s.capFlag := rfl
@[simp] theorem updHart_throtFlag (s : State) (f : Hart → Hart) : (updHart s f).throtFlag = s.throtFlag := rfl
@[simp] theorem updHart_replace (s : State) (f : Hart → Hart) : (updHart s f).replace = s.replace := rfl
@[simp] theorem updHart_pwr (s : State) (f : Hart → Hart) : (updHart s f).pwr = s.pwr := rfl
@[simp] theorem updHart_cap (s : State) (f : Hart → Hart) : (updHart s f).cap = s.cap := rfl
@[simp] theorem updHart_coolAt (s : State) (f : Hart → Hart) : (updHart s f).coolAt = s.coolAt := rfl
@[simp] theorem updHart_retired (s : State) (f : Hart → Hart) : (updHart s f).retired = s.retired := rfl
@[simp] theorem updHart_relocating (s : State) (f : Hart → Hart) : (updHart s f).relocating = s.relocating := rfl
@[simp] theorem updHart_log (s : State) (f : Hart → Hart) : (updHart s f).log = s.log := rfl
@[simp] theorem updHart_console (s : State) (f : Hart → Hart) : (updHart s f).console = s.console := rfl
@[simp] theorem updHart_flash (s : State) (f : Hart → Hart) : (updHart s f).flash = s.flash := rfl
@[simp] theorem updHart_fusedFloor (s : State) (f : Hart → Hart) : (updHart s f).fusedFloor = s.fusedFloor := rfl
@[simp] theorem updHart_fusedKey (s : State) (f : Hart → Hart) : (updHart s f).fusedKey = s.fusedKey := rfl
@[simp] theorem updHart_booted (s : State) (f : Hart → Hart) : (updHart s f).booted = s.booted := rfl
@[simp] theorem updHart_meas (s : State) (f : Hart → Hart) : (updHart s f).meas = s.meas := rfl
@[simp] theorem updHart_session (s : State) (f : Hart → Hart) : (updHart s f).session = s.session := rfl
@[simp] theorem updHart_hostOut (s : State) (f : Hart → Hart) : (updHart s f).hostOut = s.hostOut := rfl
@[simp] theorem updHart_virtio (s : State) (f : Hart → Hart) : (updHart s f).virtio = s.virtio := rfl
@[simp] theorem updHart_events (s : State) (f : Hart → Hart) : (updHart s f).events = s.events := rfl
@[simp] theorem updHart_arg (s : State) (f : Hart → Hart) : (updHart s f).arg = s.arg := rfl
@[simp] theorem updHart_sched (s : State) (f : Hart → Hart) : (updHart s f).sched = s.sched := rfl
@[simp] theorem updHart_freeCtr (s : State) (f : Hart → Hart) : (updHart s f).freeCtr = s.freeCtr := rfl
@[simp] theorem updHart_tags (s : State) (f : Hart → Hart) : (updHart s f).tags = s.tags := rfl
@[simp] theorem updHart_badGran (s : State) (f : Hart → Hart) : (updHart s f).badGran = s.badGran := rfl
@[simp] theorem updHart_engTurn (s : State) (f : Hart → Hart) : (updHart s f).engTurn = s.engTurn := rfl
@[simp] theorem updHart_soloQ (s : State) (f : Hart → Hart) : (updHart s f).soloQ = s.soloQ := rfl
@[simp] theorem updHart_salvAcks (s : State) (f : Hart → Hart) : (updHart s f).salvAcks = s.salvAcks := rfl
@[simp] theorem updHart_wire (s : State) (f : Hart → Hart) : (updHart s f).wire = s.wire := rfl
@[simp] theorem updHart_nextPhys (s : State) (f : Hart → Hart) : (updHart s f).nextPhys = s.nextPhys := rfl
@[simp] theorem updHart_corrected (s : State) (f : Hart → Hart) : (updHart s f).corrected = s.corrected := rfl
@[simp] theorem updHart_powered (s : State) (f : Hart → Hart) : (updHart s f).powered = s.powered := rfl
@[simp] theorem updHart_exchange (s : State) (f : Hart → Hart) : (updHart s f).exchange = s.exchange := rfl

/-! ## Updates of its registers -/

@[simp] theorem updArch_arch (s : State) (f : Arch → Arch) : (updArch s f).cur.arch = f s.cur.arch := rfl
@[simp] theorem updArch_cur_slot (s : State) (f : Arch → Arch) : (updArch s f).cur.slot = s.cur.slot := rfl
@[simp] theorem updArch_cur_prio (s : State) (f : Arch → Arch) : (updArch s f).cur.prio = s.cur.prio := rfl
@[simp] theorem updArch_cur_cc (s : State) (f : Arch → Arch) : (updArch s f).cur.cc = s.cur.cc := rfl
@[simp] theorem updArch_cur_chunk (s : State) (f : Arch → Arch) : (updArch s f).cur.chunk = s.cur.chunk := rfl
@[simp] theorem updArch_cur_inflight (s : State) (f : Arch → Arch) : (updArch s f).cur.inflight = s.cur.inflight := rfl
@[simp] theorem updArch_cur_sq (s : State) (f : Arch → Arch) : (updArch s f).cur.sq = s.cur.sq := rfl
@[simp] theorem updArch_cur_solo (s : State) (f : Arch → Arch) : (updArch s f).cur.solo = s.cur.solo := rfl
@[simp] theorem updArch_cur_uip (s : State) (f : Arch → Arch) : (updArch s f).cur.uip = s.cur.uip := rfl
@[simp] theorem updArch_cur_wdp (s : State) (f : Arch → Arch) : (updArch s f).cur.wdp = s.cur.wdp := rfl
@[simp] theorem updArch_cur_mck (s : State) (f : Arch → Arch) : (updArch s f).cur.mck = s.cur.mck := rfl
@[simp] theorem updArch_cur_mckOld (s : State) (f : Arch → Arch) : (updArch s f).cur.mckOld = s.cur.mckOld := rfl
@[simp] theorem updArch_cur_stall (s : State) (f : Arch → Arch) : (updArch s f).cur.stall = s.cur.stall := rfl
@[simp] theorem updArch_cur_stallAt (s : State) (f : Arch → Arch) : (updArch s f).cur.stallAt = s.cur.stallAt := rfl
@[simp] theorem updArch_cur_readyAt (s : State) (f : Arch → Arch) : (updArch s f).cur.readyAt = s.cur.readyAt := rfl
@[simp] theorem updArch_cur_issuedAt (s : State) (f : Arch → Arch) : (updArch s f).cur.issuedAt = s.cur.issuedAt := rfl
@[simp] theorem updArch_cur_starve (s : State) (f : Arch → Arch) : (updArch s f).cur.starve = s.cur.starve := rfl
@[simp] theorem updArch_cur_fifo (s : State) (f : Arch → Arch) : (updArch s f).cur.fifo = s.cur.fifo := rfl
@[simp] theorem updArch_cur_tileCnt (s : State) (f : Arch → Arch) : (updArch s f).cur.tileCnt = s.cur.tileCnt := rfl
@[simp] theorem updArch_cur_postedCnt (s : State) (f : Arch → Arch) : (updArch s f).cur.postedCnt = s.cur.postedCnt := rfl
@[simp] theorem updArch_cur_mcastCnt (s : State) (f : Arch → Arch) : (updArch s f).cur.mcastCnt = s.cur.mcastCnt := rfl
@[simp] theorem updArch_cur_touched (s : State) (f : Arch → Arch) : (updArch s f).cur.touched = s.cur.touched := rfl
@[simp] theorem updArch_cur_groupMask (s : State) (f : Arch → Arch) : (updArch s f).cur.groupMask = s.cur.groupMask := rfl
@[simp] theorem updArch_cur_drain (s : State) (f : Arch → Arch) : (updArch s f).cur.drain = s.cur.drain := rfl
@[simp] theorem updArch_cur_mamo (s : State) (f : Arch → Arch) : (updArch s f).cur.mamo = s.cur.mamo := rfl
@[simp] theorem updArch_cur_timecmp (s : State) (f : Arch → Arch) : (updArch s f).cur.timecmp = s.cur.timecmp := rfl
@[simp] theorem updArch_cur_swint (s : State) (f : Arch → Arch) : (updArch s f).cur.swint = s.cur.swint := rfl
@[simp] theorem updArch_curId (s : State) (f : Arch → Arch) : (updArch s f).curId = s.curId := rfl
@[simp] theorem updArch_harts (s : State) (f : Arch → Arch) : (updArch s f).harts = s.harts := rfl
@[simp] theorem updArch_cores (s : State) (f : Arch → Arch) : (updArch s f).cores = s.cores := rfl
@[simp] theorem updArch_clusters (s : State) (f : Arch → Arch) : (updArch s f).clusters = s.clusters := rfl
@[simp] theorem updArch_dies (s : State) (f : Arch → Arch) : (updArch s f).dies = s.dies := rfl
@[simp] theorem updArch_mem (s : State) (f : Arch → Arch) : (updArch s f).mem = s.mem := rfl
@[simp] theorem updArch_hbm (s : State) (f : Arch → Arch) : (updArch s f).hbm = s.hbm := rfl
@[simp] theorem updArch_poison (s : State) (f : Arch → Arch) : (updArch s f).poison = s.poison := rfl
@[simp] theorem updArch_lineTd (s : State) (f : Arch → Arch) : (updArch s f).lineTd = s.lineTd := rfl
@[simp] theorem updArch_coh (s : State) (f : Arch → Arch) : (updArch s f).coh = s.coh := rfl
@[simp] theorem updArch_peers (s : State) (f : Arch → Arch) : (updArch s f).peers = s.peers := rfl
@[simp] theorem updArch_held (s : State) (f : Arch → Arch) : (updArch s f).held = s.held := rfl
@[simp] theorem updArch_presented (s : State) (f : Arch → Arch) : (updArch s f).presented = s.presented := rfl
@[simp] theorem updArch_soloHart (s : State) (f : Arch → Arch) : (updArch s f).soloHart = s.soloHart := rfl
@[simp] theorem updArch_invs (s : State) (f : Arch → Arch) : (updArch s f).invs = s.invs := rfl
@[simp] theorem updArch_ilv (s : State) (f : Arch → Arch) : (updArch s f).ilv = s.ilv := rfl
@[simp] theorem updArch_memLock (s : State) (f : Arch → Arch) : (updArch s f).memLock = s.memLock := rfl
@[simp] theorem updArch_hbms (s : State) (f : Arch → Arch) : (updArch s f).hbms = s.hbms := rfl
@[simp] theorem updArch_salvBase (s : State) (f : Arch → Arch) : (updArch s f).salvBase = s.salvBase := rfl
@[simp] theorem updArch_salvSz (s : State) (f : Arch → Arch) : (updArch s f).salvSz = s.salvSz := rfl
@[simp] theorem updArch_salvHead (s : State) (f : Arch → Arch) : (updArch s f).salvHead = s.salvHead := rfl
@[simp] theorem updArch_salvTail (s : State) (f : Arch → Arch) : (updArch s f).salvTail = s.salvTail := rfl
@[simp] theorem updArch_salvOvf (s : State) (f : Arch → Arch) : (updArch s f).salvOvf = s.salvOvf := rfl
@[simp] theorem updArch_salvEn (s : State) (f : Arch → Arch) : (updArch s f).salvEn = s.salvEn := rfl
@[simp] theorem updArch_dev (s : State) (f : Arch → Arch) : (updArch s f).dev = s.dev := rfl
@[simp] theorem updArch_provDev (s : State) (f : Arch → Arch) : (updArch s f).provDev = s.provDev := rfl
@[simp] theorem updArch_fto (s : State) (f : Arch → Arch) : (updArch s f).fto = s.fto := rfl
@[simp] theorem updArch_join (s : State) (f : Arch → Arch) : (updArch s f).join = s.join := rfl
@[simp] theorem updArch_adapt (s : State) (f : Arch → Arch) : (updArch s f).adapt = s.adapt := rfl
@[simp] theorem updArch_tdbase (s : State) (f : Arch → Arch) : (updArch s f).tdbase = s.tdbase := rfl
@[simp] theorem updArch_keys (s : State) (f : Arch → Arch) : (updArch s f).keys = s.keys := rfl
@[simp] theorem updArch_lostMap (s : State) (f : Arch → Arch) : (updArch s f).lostMap = s.lostMap := rfl
@[simp] theorem updArch_domainClear (s : State) (f : Arch → Arch) : (updArch s f).domainClear = s.domainClear := rfl
@[simp] theorem updArch_groups (s : State) (f : Arch → Arch) : (updArch s f).groups = s.groups := rfl
@[simp] theorem updArch_ports (s : State) (f : Arch → Arch) : (updArch s f).ports = s.ports := rfl
@[simp] theorem updArch_net (s : State) (f : Arch → Arch) : (updArch s f).net = s.net := rfl
@[simp] theorem updArch_pairs (s : State) (f : Arch → Arch) : (updArch s f).pairs = s.pairs := rfl
@[simp] theorem updArch_reqs (s : State) (f : Arch → Arch) : (updArch s f).reqs = s.reqs := rfl
@[simp] theorem updArch_nextReq (s : State) (f : Arch → Arch) : (updArch s f).nextReq = s.nextReq := rfl
@[simp] theorem updArch_hbWait (s : State) (f : Arch → Arch) : (updArch s f).hbWait = s.hbWait := rfl
@[simp] theorem updArch_mtime (s : State) (f : Arch → Arch) : (updArch s f).mtime = s.mtime := rfl
@[simp] theorem updArch_cycle (s : State) (f : Arch → Arch) : (updArch s f).cycle = s.cycle := rfl
@[simp] theorem updArch_mtvec (s : State) (f : Arch → Arch) : (updArch s f).mtvec = s.mtvec := rfl
@[simp] theorem updArch_extroute (s : State) (f : Arch → Arch) : (updArch s f).extroute = s.extroute := rfl
@[simp] theorem updArch_extstat (s : State) (f : Arch → Arch) : (updArch s f).extstat = s.extstat := rfl
@[simp] theorem updArch_extena (s : State) (f : Arch → Arch) : (updArch s f).extena = s.extena := rfl
@[simp] theorem updArch_dogs (s : State) (f : Arch → Arch) : (updArch s f).dogs = s.dogs := rfl
@[simp] theorem updArch_noUnit (s : State) (f : Arch → Arch) : (updArch s f).noUnit = s.noUnit := rfl
@[simp] theorem updArch_stage (s : State) (f : Arch → Arch) : (updArch s f).stage = s.stage := rfl
@[simp] theorem updArch_fatal (s : State) (f : Arch → Arch) : (updArch s f).fatal = s.fatal := rfl
@[simp] theorem updArch_capFlag (s : State) (f : Arch → Arch) : (updArch s f).capFlag = s.capFlag := rfl
@[simp] theorem updArch_throtFlag (s : State) (f : Arch → Arch) : (updArch s f).throtFlag = s.throtFlag := rfl
@[simp] theorem updArch_replace (s : State) (f : Arch → Arch) : (updArch s f).replace = s.replace := rfl
@[simp] theorem updArch_pwr (s : State) (f : Arch → Arch) : (updArch s f).pwr = s.pwr := rfl
@[simp] theorem updArch_cap (s : State) (f : Arch → Arch) : (updArch s f).cap = s.cap := rfl
@[simp] theorem updArch_coolAt (s : State) (f : Arch → Arch) : (updArch s f).coolAt = s.coolAt := rfl
@[simp] theorem updArch_retired (s : State) (f : Arch → Arch) : (updArch s f).retired = s.retired := rfl
@[simp] theorem updArch_relocating (s : State) (f : Arch → Arch) : (updArch s f).relocating = s.relocating := rfl
@[simp] theorem updArch_log (s : State) (f : Arch → Arch) : (updArch s f).log = s.log := rfl
@[simp] theorem updArch_console (s : State) (f : Arch → Arch) : (updArch s f).console = s.console := rfl
@[simp] theorem updArch_flash (s : State) (f : Arch → Arch) : (updArch s f).flash = s.flash := rfl
@[simp] theorem updArch_fusedFloor (s : State) (f : Arch → Arch) : (updArch s f).fusedFloor = s.fusedFloor := rfl
@[simp] theorem updArch_fusedKey (s : State) (f : Arch → Arch) : (updArch s f).fusedKey = s.fusedKey := rfl
@[simp] theorem updArch_booted (s : State) (f : Arch → Arch) : (updArch s f).booted = s.booted := rfl
@[simp] theorem updArch_meas (s : State) (f : Arch → Arch) : (updArch s f).meas = s.meas := rfl
@[simp] theorem updArch_session (s : State) (f : Arch → Arch) : (updArch s f).session = s.session := rfl
@[simp] theorem updArch_hostOut (s : State) (f : Arch → Arch) : (updArch s f).hostOut = s.hostOut := rfl
@[simp] theorem updArch_virtio (s : State) (f : Arch → Arch) : (updArch s f).virtio = s.virtio := rfl
@[simp] theorem updArch_events (s : State) (f : Arch → Arch) : (updArch s f).events = s.events := rfl
@[simp] theorem updArch_arg (s : State) (f : Arch → Arch) : (updArch s f).arg = s.arg := rfl
@[simp] theorem updArch_sched (s : State) (f : Arch → Arch) : (updArch s f).sched = s.sched := rfl
@[simp] theorem updArch_freeCtr (s : State) (f : Arch → Arch) : (updArch s f).freeCtr = s.freeCtr := rfl
@[simp] theorem updArch_tags (s : State) (f : Arch → Arch) : (updArch s f).tags = s.tags := rfl
@[simp] theorem updArch_badGran (s : State) (f : Arch → Arch) : (updArch s f).badGran = s.badGran := rfl
@[simp] theorem updArch_engTurn (s : State) (f : Arch → Arch) : (updArch s f).engTurn = s.engTurn := rfl
@[simp] theorem updArch_soloQ (s : State) (f : Arch → Arch) : (updArch s f).soloQ = s.soloQ := rfl
@[simp] theorem updArch_salvAcks (s : State) (f : Arch → Arch) : (updArch s f).salvAcks = s.salvAcks := rfl
@[simp] theorem updArch_wire (s : State) (f : Arch → Arch) : (updArch s f).wire = s.wire := rfl
@[simp] theorem updArch_nextPhys (s : State) (f : Arch → Arch) : (updArch s f).nextPhys = s.nextPhys := rfl
@[simp] theorem updArch_corrected (s : State) (f : Arch → Arch) : (updArch s f).corrected = s.corrected := rfl
@[simp] theorem updArch_cur_soloCount (s : State) (f : Arch → Arch) : (updArch s f).cur.soloCount = s.cur.soloCount := rfl
@[simp] theorem updArch_cur_soloLines (s : State) (f : Arch → Arch) : (updArch s f).cur.soloLines = s.cur.soloLines := rfl
@[simp] theorem updArch_cur_leave (s : State) (f : Arch → Arch) : (updArch s f).cur.leave = s.cur.leave := rfl
@[simp] theorem updArch_cur_due (s : State) (f : Arch → Arch) : (updArch s f).cur.due = s.cur.due := rfl
@[simp] theorem updArch_cur_walked (s : State) (f : Arch → Arch) : (updArch s f).cur.walked = s.cur.walked := rfl
@[simp] theorem updArch_cur_got (s : State) (f : Arch → Arch) : (updArch s f).cur.got = s.cur.got := rfl
@[simp] theorem updArch_cur_sfu (s : State) (f : Arch → Arch) : (updArch s f).cur.sfu = s.cur.sfu := rfl
@[simp] theorem updArch_cur_begun (s : State) (f : Arch → Arch) : (updArch s f).cur.begun = s.cur.begun := rfl
@[simp] theorem updArch_cur_ncWait (s : State) (f : Arch → Arch) : (updArch s f).cur.ncWait = s.cur.ncWait := rfl
@[simp] theorem updArch_powered (s : State) (f : Arch → Arch) : (updArch s f).powered = s.powered := rfl
@[simp] theorem updArch_exchange (s : State) (f : Arch → Arch) : (updArch s f).exchange = s.exchange := rfl

/-! ## Updates of its chunk -/

@[simp] theorem modChunk_chunk (s : State) (f : Chunk → Chunk) : (modChunk s f).cur.chunk = f s.cur.chunk := rfl
@[simp] theorem modChunk_cur_arch (s : State) (f : Chunk → Chunk) : (modChunk s f).cur.arch = s.cur.arch := rfl
@[simp] theorem modChunk_cur_slot (s : State) (f : Chunk → Chunk) : (modChunk s f).cur.slot = s.cur.slot := rfl
@[simp] theorem modChunk_cur_prio (s : State) (f : Chunk → Chunk) : (modChunk s f).cur.prio = s.cur.prio := rfl
@[simp] theorem modChunk_cur_cc (s : State) (f : Chunk → Chunk) : (modChunk s f).cur.cc = s.cur.cc := rfl
@[simp] theorem modChunk_cur_inflight (s : State) (f : Chunk → Chunk) : (modChunk s f).cur.inflight = s.cur.inflight := rfl
@[simp] theorem modChunk_cur_sq (s : State) (f : Chunk → Chunk) : (modChunk s f).cur.sq = s.cur.sq := rfl
@[simp] theorem modChunk_cur_solo (s : State) (f : Chunk → Chunk) : (modChunk s f).cur.solo = s.cur.solo := rfl
@[simp] theorem modChunk_cur_uip (s : State) (f : Chunk → Chunk) : (modChunk s f).cur.uip = s.cur.uip := rfl
@[simp] theorem modChunk_cur_wdp (s : State) (f : Chunk → Chunk) : (modChunk s f).cur.wdp = s.cur.wdp := rfl
@[simp] theorem modChunk_cur_mck (s : State) (f : Chunk → Chunk) : (modChunk s f).cur.mck = s.cur.mck := rfl
@[simp] theorem modChunk_cur_mckOld (s : State) (f : Chunk → Chunk) : (modChunk s f).cur.mckOld = s.cur.mckOld := rfl
@[simp] theorem modChunk_cur_stall (s : State) (f : Chunk → Chunk) : (modChunk s f).cur.stall = s.cur.stall := rfl
@[simp] theorem modChunk_cur_stallAt (s : State) (f : Chunk → Chunk) : (modChunk s f).cur.stallAt = s.cur.stallAt := rfl
@[simp] theorem modChunk_cur_readyAt (s : State) (f : Chunk → Chunk) : (modChunk s f).cur.readyAt = s.cur.readyAt := rfl
@[simp] theorem modChunk_cur_issuedAt (s : State) (f : Chunk → Chunk) : (modChunk s f).cur.issuedAt = s.cur.issuedAt := rfl
@[simp] theorem modChunk_cur_starve (s : State) (f : Chunk → Chunk) : (modChunk s f).cur.starve = s.cur.starve := rfl
@[simp] theorem modChunk_cur_fifo (s : State) (f : Chunk → Chunk) : (modChunk s f).cur.fifo = s.cur.fifo := rfl
@[simp] theorem modChunk_cur_tileCnt (s : State) (f : Chunk → Chunk) : (modChunk s f).cur.tileCnt = s.cur.tileCnt := rfl
@[simp] theorem modChunk_cur_postedCnt (s : State) (f : Chunk → Chunk) : (modChunk s f).cur.postedCnt = s.cur.postedCnt := rfl
@[simp] theorem modChunk_cur_mcastCnt (s : State) (f : Chunk → Chunk) : (modChunk s f).cur.mcastCnt = s.cur.mcastCnt := rfl
@[simp] theorem modChunk_cur_touched (s : State) (f : Chunk → Chunk) : (modChunk s f).cur.touched = s.cur.touched := rfl
@[simp] theorem modChunk_cur_groupMask (s : State) (f : Chunk → Chunk) : (modChunk s f).cur.groupMask = s.cur.groupMask := rfl
@[simp] theorem modChunk_cur_drain (s : State) (f : Chunk → Chunk) : (modChunk s f).cur.drain = s.cur.drain := rfl
@[simp] theorem modChunk_cur_mamo (s : State) (f : Chunk → Chunk) : (modChunk s f).cur.mamo = s.cur.mamo := rfl
@[simp] theorem modChunk_cur_timecmp (s : State) (f : Chunk → Chunk) : (modChunk s f).cur.timecmp = s.cur.timecmp := rfl
@[simp] theorem modChunk_cur_swint (s : State) (f : Chunk → Chunk) : (modChunk s f).cur.swint = s.cur.swint := rfl
@[simp] theorem modChunk_curId (s : State) (f : Chunk → Chunk) : (modChunk s f).curId = s.curId := rfl
@[simp] theorem modChunk_harts (s : State) (f : Chunk → Chunk) : (modChunk s f).harts = s.harts := rfl
@[simp] theorem modChunk_cores (s : State) (f : Chunk → Chunk) : (modChunk s f).cores = s.cores := rfl
@[simp] theorem modChunk_clusters (s : State) (f : Chunk → Chunk) : (modChunk s f).clusters = s.clusters := rfl
@[simp] theorem modChunk_dies (s : State) (f : Chunk → Chunk) : (modChunk s f).dies = s.dies := rfl
@[simp] theorem modChunk_mem (s : State) (f : Chunk → Chunk) : (modChunk s f).mem = s.mem := rfl
@[simp] theorem modChunk_hbm (s : State) (f : Chunk → Chunk) : (modChunk s f).hbm = s.hbm := rfl
@[simp] theorem modChunk_poison (s : State) (f : Chunk → Chunk) : (modChunk s f).poison = s.poison := rfl
@[simp] theorem modChunk_lineTd (s : State) (f : Chunk → Chunk) : (modChunk s f).lineTd = s.lineTd := rfl
@[simp] theorem modChunk_coh (s : State) (f : Chunk → Chunk) : (modChunk s f).coh = s.coh := rfl
@[simp] theorem modChunk_peers (s : State) (f : Chunk → Chunk) : (modChunk s f).peers = s.peers := rfl
@[simp] theorem modChunk_held (s : State) (f : Chunk → Chunk) : (modChunk s f).held = s.held := rfl
@[simp] theorem modChunk_presented (s : State) (f : Chunk → Chunk) : (modChunk s f).presented = s.presented := rfl
@[simp] theorem modChunk_soloHart (s : State) (f : Chunk → Chunk) : (modChunk s f).soloHart = s.soloHart := rfl
@[simp] theorem modChunk_invs (s : State) (f : Chunk → Chunk) : (modChunk s f).invs = s.invs := rfl
@[simp] theorem modChunk_ilv (s : State) (f : Chunk → Chunk) : (modChunk s f).ilv = s.ilv := rfl
@[simp] theorem modChunk_memLock (s : State) (f : Chunk → Chunk) : (modChunk s f).memLock = s.memLock := rfl
@[simp] theorem modChunk_hbms (s : State) (f : Chunk → Chunk) : (modChunk s f).hbms = s.hbms := rfl
@[simp] theorem modChunk_salvBase (s : State) (f : Chunk → Chunk) : (modChunk s f).salvBase = s.salvBase := rfl
@[simp] theorem modChunk_salvSz (s : State) (f : Chunk → Chunk) : (modChunk s f).salvSz = s.salvSz := rfl
@[simp] theorem modChunk_salvHead (s : State) (f : Chunk → Chunk) : (modChunk s f).salvHead = s.salvHead := rfl
@[simp] theorem modChunk_salvTail (s : State) (f : Chunk → Chunk) : (modChunk s f).salvTail = s.salvTail := rfl
@[simp] theorem modChunk_salvOvf (s : State) (f : Chunk → Chunk) : (modChunk s f).salvOvf = s.salvOvf := rfl
@[simp] theorem modChunk_salvEn (s : State) (f : Chunk → Chunk) : (modChunk s f).salvEn = s.salvEn := rfl
@[simp] theorem modChunk_dev (s : State) (f : Chunk → Chunk) : (modChunk s f).dev = s.dev := rfl
@[simp] theorem modChunk_provDev (s : State) (f : Chunk → Chunk) : (modChunk s f).provDev = s.provDev := rfl
@[simp] theorem modChunk_fto (s : State) (f : Chunk → Chunk) : (modChunk s f).fto = s.fto := rfl
@[simp] theorem modChunk_join (s : State) (f : Chunk → Chunk) : (modChunk s f).join = s.join := rfl
@[simp] theorem modChunk_adapt (s : State) (f : Chunk → Chunk) : (modChunk s f).adapt = s.adapt := rfl
@[simp] theorem modChunk_tdbase (s : State) (f : Chunk → Chunk) : (modChunk s f).tdbase = s.tdbase := rfl
@[simp] theorem modChunk_keys (s : State) (f : Chunk → Chunk) : (modChunk s f).keys = s.keys := rfl
@[simp] theorem modChunk_lostMap (s : State) (f : Chunk → Chunk) : (modChunk s f).lostMap = s.lostMap := rfl
@[simp] theorem modChunk_domainClear (s : State) (f : Chunk → Chunk) : (modChunk s f).domainClear = s.domainClear := rfl
@[simp] theorem modChunk_groups (s : State) (f : Chunk → Chunk) : (modChunk s f).groups = s.groups := rfl
@[simp] theorem modChunk_ports (s : State) (f : Chunk → Chunk) : (modChunk s f).ports = s.ports := rfl
@[simp] theorem modChunk_net (s : State) (f : Chunk → Chunk) : (modChunk s f).net = s.net := rfl
@[simp] theorem modChunk_pairs (s : State) (f : Chunk → Chunk) : (modChunk s f).pairs = s.pairs := rfl
@[simp] theorem modChunk_reqs (s : State) (f : Chunk → Chunk) : (modChunk s f).reqs = s.reqs := rfl
@[simp] theorem modChunk_nextReq (s : State) (f : Chunk → Chunk) : (modChunk s f).nextReq = s.nextReq := rfl
@[simp] theorem modChunk_hbWait (s : State) (f : Chunk → Chunk) : (modChunk s f).hbWait = s.hbWait := rfl
@[simp] theorem modChunk_mtime (s : State) (f : Chunk → Chunk) : (modChunk s f).mtime = s.mtime := rfl
@[simp] theorem modChunk_cycle (s : State) (f : Chunk → Chunk) : (modChunk s f).cycle = s.cycle := rfl
@[simp] theorem modChunk_mtvec (s : State) (f : Chunk → Chunk) : (modChunk s f).mtvec = s.mtvec := rfl
@[simp] theorem modChunk_extroute (s : State) (f : Chunk → Chunk) : (modChunk s f).extroute = s.extroute := rfl
@[simp] theorem modChunk_extstat (s : State) (f : Chunk → Chunk) : (modChunk s f).extstat = s.extstat := rfl
@[simp] theorem modChunk_extena (s : State) (f : Chunk → Chunk) : (modChunk s f).extena = s.extena := rfl
@[simp] theorem modChunk_dogs (s : State) (f : Chunk → Chunk) : (modChunk s f).dogs = s.dogs := rfl
@[simp] theorem modChunk_noUnit (s : State) (f : Chunk → Chunk) : (modChunk s f).noUnit = s.noUnit := rfl
@[simp] theorem modChunk_stage (s : State) (f : Chunk → Chunk) : (modChunk s f).stage = s.stage := rfl
@[simp] theorem modChunk_fatal (s : State) (f : Chunk → Chunk) : (modChunk s f).fatal = s.fatal := rfl
@[simp] theorem modChunk_capFlag (s : State) (f : Chunk → Chunk) : (modChunk s f).capFlag = s.capFlag := rfl
@[simp] theorem modChunk_throtFlag (s : State) (f : Chunk → Chunk) : (modChunk s f).throtFlag = s.throtFlag := rfl
@[simp] theorem modChunk_replace (s : State) (f : Chunk → Chunk) : (modChunk s f).replace = s.replace := rfl
@[simp] theorem modChunk_pwr (s : State) (f : Chunk → Chunk) : (modChunk s f).pwr = s.pwr := rfl
@[simp] theorem modChunk_cap (s : State) (f : Chunk → Chunk) : (modChunk s f).cap = s.cap := rfl
@[simp] theorem modChunk_coolAt (s : State) (f : Chunk → Chunk) : (modChunk s f).coolAt = s.coolAt := rfl
@[simp] theorem modChunk_retired (s : State) (f : Chunk → Chunk) : (modChunk s f).retired = s.retired := rfl
@[simp] theorem modChunk_relocating (s : State) (f : Chunk → Chunk) : (modChunk s f).relocating = s.relocating := rfl
@[simp] theorem modChunk_log (s : State) (f : Chunk → Chunk) : (modChunk s f).log = s.log := rfl
@[simp] theorem modChunk_console (s : State) (f : Chunk → Chunk) : (modChunk s f).console = s.console := rfl
@[simp] theorem modChunk_flash (s : State) (f : Chunk → Chunk) : (modChunk s f).flash = s.flash := rfl
@[simp] theorem modChunk_fusedFloor (s : State) (f : Chunk → Chunk) : (modChunk s f).fusedFloor = s.fusedFloor := rfl
@[simp] theorem modChunk_fusedKey (s : State) (f : Chunk → Chunk) : (modChunk s f).fusedKey = s.fusedKey := rfl
@[simp] theorem modChunk_booted (s : State) (f : Chunk → Chunk) : (modChunk s f).booted = s.booted := rfl
@[simp] theorem modChunk_meas (s : State) (f : Chunk → Chunk) : (modChunk s f).meas = s.meas := rfl
@[simp] theorem modChunk_session (s : State) (f : Chunk → Chunk) : (modChunk s f).session = s.session := rfl
@[simp] theorem modChunk_hostOut (s : State) (f : Chunk → Chunk) : (modChunk s f).hostOut = s.hostOut := rfl
@[simp] theorem modChunk_virtio (s : State) (f : Chunk → Chunk) : (modChunk s f).virtio = s.virtio := rfl
@[simp] theorem modChunk_events (s : State) (f : Chunk → Chunk) : (modChunk s f).events = s.events := rfl
@[simp] theorem modChunk_arg (s : State) (f : Chunk → Chunk) : (modChunk s f).arg = s.arg := rfl
@[simp] theorem modChunk_sched (s : State) (f : Chunk → Chunk) : (modChunk s f).sched = s.sched := rfl
@[simp] theorem modChunk_freeCtr (s : State) (f : Chunk → Chunk) : (modChunk s f).freeCtr = s.freeCtr := rfl
@[simp] theorem modChunk_tags (s : State) (f : Chunk → Chunk) : (modChunk s f).tags = s.tags := rfl
@[simp] theorem modChunk_badGran (s : State) (f : Chunk → Chunk) : (modChunk s f).badGran = s.badGran := rfl
@[simp] theorem modChunk_engTurn (s : State) (f : Chunk → Chunk) : (modChunk s f).engTurn = s.engTurn := rfl
@[simp] theorem modChunk_soloQ (s : State) (f : Chunk → Chunk) : (modChunk s f).soloQ = s.soloQ := rfl
@[simp] theorem modChunk_salvAcks (s : State) (f : Chunk → Chunk) : (modChunk s f).salvAcks = s.salvAcks := rfl
@[simp] theorem modChunk_wire (s : State) (f : Chunk → Chunk) : (modChunk s f).wire = s.wire := rfl
@[simp] theorem modChunk_nextPhys (s : State) (f : Chunk → Chunk) : (modChunk s f).nextPhys = s.nextPhys := rfl
@[simp] theorem modChunk_corrected (s : State) (f : Chunk → Chunk) : (modChunk s f).corrected = s.corrected := rfl
@[simp] theorem modChunk_cur_soloCount (s : State) (f : Chunk → Chunk) : (modChunk s f).cur.soloCount = s.cur.soloCount := rfl
@[simp] theorem modChunk_cur_soloLines (s : State) (f : Chunk → Chunk) : (modChunk s f).cur.soloLines = s.cur.soloLines := rfl
@[simp] theorem modChunk_cur_leave (s : State) (f : Chunk → Chunk) : (modChunk s f).cur.leave = s.cur.leave := rfl
@[simp] theorem modChunk_cur_due (s : State) (f : Chunk → Chunk) : (modChunk s f).cur.due = s.cur.due := rfl
@[simp] theorem modChunk_cur_walked (s : State) (f : Chunk → Chunk) : (modChunk s f).cur.walked = s.cur.walked := rfl
@[simp] theorem modChunk_cur_got (s : State) (f : Chunk → Chunk) : (modChunk s f).cur.got = s.cur.got := rfl
@[simp] theorem modChunk_cur_sfu (s : State) (f : Chunk → Chunk) : (modChunk s f).cur.sfu = s.cur.sfu := rfl
@[simp] theorem modChunk_cur_begun (s : State) (f : Chunk → Chunk) : (modChunk s f).cur.begun = s.cur.begun := rfl
@[simp] theorem modChunk_cur_ncWait (s : State) (f : Chunk → Chunk) : (modChunk s f).cur.ncWait = s.cur.ncWait := rfl
@[simp] theorem modChunk_powered (s : State) (f : Chunk → Chunk) : (modChunk s f).powered = s.powered := rfl
@[simp] theorem modChunk_exchange (s : State) (f : Chunk → Chunk) : (modChunk s f).exchange = s.exchange := rfl

/-! ## The counter of free values -/

@[simp] theorem spend_freeCtr (s : State) (n : Nat) : (spend s n).freeCtr = s.freeCtr + n := rfl
@[simp] theorem spend_curId (s : State) (n : Nat) : (spend s n).curId = s.curId := rfl
@[simp] theorem spend_cur (s : State) (n : Nat) : (spend s n).cur = s.cur := rfl
@[simp] theorem spend_harts (s : State) (n : Nat) : (spend s n).harts = s.harts := rfl
@[simp] theorem spend_cores (s : State) (n : Nat) : (spend s n).cores = s.cores := rfl
@[simp] theorem spend_clusters (s : State) (n : Nat) : (spend s n).clusters = s.clusters := rfl
@[simp] theorem spend_dies (s : State) (n : Nat) : (spend s n).dies = s.dies := rfl
@[simp] theorem spend_mem (s : State) (n : Nat) : (spend s n).mem = s.mem := rfl
@[simp] theorem spend_hbm (s : State) (n : Nat) : (spend s n).hbm = s.hbm := rfl
@[simp] theorem spend_poison (s : State) (n : Nat) : (spend s n).poison = s.poison := rfl
@[simp] theorem spend_lineTd (s : State) (n : Nat) : (spend s n).lineTd = s.lineTd := rfl
@[simp] theorem spend_coh (s : State) (n : Nat) : (spend s n).coh = s.coh := rfl
@[simp] theorem spend_peers (s : State) (n : Nat) : (spend s n).peers = s.peers := rfl
@[simp] theorem spend_held (s : State) (n : Nat) : (spend s n).held = s.held := rfl
@[simp] theorem spend_presented (s : State) (n : Nat) : (spend s n).presented = s.presented := rfl
@[simp] theorem spend_soloHart (s : State) (n : Nat) : (spend s n).soloHart = s.soloHart := rfl
@[simp] theorem spend_invs (s : State) (n : Nat) : (spend s n).invs = s.invs := rfl
@[simp] theorem spend_ilv (s : State) (n : Nat) : (spend s n).ilv = s.ilv := rfl
@[simp] theorem spend_memLock (s : State) (n : Nat) : (spend s n).memLock = s.memLock := rfl
@[simp] theorem spend_hbms (s : State) (n : Nat) : (spend s n).hbms = s.hbms := rfl
@[simp] theorem spend_salvBase (s : State) (n : Nat) : (spend s n).salvBase = s.salvBase := rfl
@[simp] theorem spend_salvSz (s : State) (n : Nat) : (spend s n).salvSz = s.salvSz := rfl
@[simp] theorem spend_salvHead (s : State) (n : Nat) : (spend s n).salvHead = s.salvHead := rfl
@[simp] theorem spend_salvTail (s : State) (n : Nat) : (spend s n).salvTail = s.salvTail := rfl
@[simp] theorem spend_salvOvf (s : State) (n : Nat) : (spend s n).salvOvf = s.salvOvf := rfl
@[simp] theorem spend_salvEn (s : State) (n : Nat) : (spend s n).salvEn = s.salvEn := rfl
@[simp] theorem spend_dev (s : State) (n : Nat) : (spend s n).dev = s.dev := rfl
@[simp] theorem spend_provDev (s : State) (n : Nat) : (spend s n).provDev = s.provDev := rfl
@[simp] theorem spend_fto (s : State) (n : Nat) : (spend s n).fto = s.fto := rfl
@[simp] theorem spend_join (s : State) (n : Nat) : (spend s n).join = s.join := rfl
@[simp] theorem spend_adapt (s : State) (n : Nat) : (spend s n).adapt = s.adapt := rfl
@[simp] theorem spend_tdbase (s : State) (n : Nat) : (spend s n).tdbase = s.tdbase := rfl
@[simp] theorem spend_keys (s : State) (n : Nat) : (spend s n).keys = s.keys := rfl
@[simp] theorem spend_lostMap (s : State) (n : Nat) : (spend s n).lostMap = s.lostMap := rfl
@[simp] theorem spend_domainClear (s : State) (n : Nat) : (spend s n).domainClear = s.domainClear := rfl
@[simp] theorem spend_groups (s : State) (n : Nat) : (spend s n).groups = s.groups := rfl
@[simp] theorem spend_ports (s : State) (n : Nat) : (spend s n).ports = s.ports := rfl
@[simp] theorem spend_net (s : State) (n : Nat) : (spend s n).net = s.net := rfl
@[simp] theorem spend_pairs (s : State) (n : Nat) : (spend s n).pairs = s.pairs := rfl
@[simp] theorem spend_reqs (s : State) (n : Nat) : (spend s n).reqs = s.reqs := rfl
@[simp] theorem spend_nextReq (s : State) (n : Nat) : (spend s n).nextReq = s.nextReq := rfl
@[simp] theorem spend_hbWait (s : State) (n : Nat) : (spend s n).hbWait = s.hbWait := rfl
@[simp] theorem spend_mtime (s : State) (n : Nat) : (spend s n).mtime = s.mtime := rfl
@[simp] theorem spend_cycle (s : State) (n : Nat) : (spend s n).cycle = s.cycle := rfl
@[simp] theorem spend_mtvec (s : State) (n : Nat) : (spend s n).mtvec = s.mtvec := rfl
@[simp] theorem spend_extroute (s : State) (n : Nat) : (spend s n).extroute = s.extroute := rfl
@[simp] theorem spend_extstat (s : State) (n : Nat) : (spend s n).extstat = s.extstat := rfl
@[simp] theorem spend_extena (s : State) (n : Nat) : (spend s n).extena = s.extena := rfl
@[simp] theorem spend_dogs (s : State) (n : Nat) : (spend s n).dogs = s.dogs := rfl
@[simp] theorem spend_noUnit (s : State) (n : Nat) : (spend s n).noUnit = s.noUnit := rfl
@[simp] theorem spend_stage (s : State) (n : Nat) : (spend s n).stage = s.stage := rfl
@[simp] theorem spend_fatal (s : State) (n : Nat) : (spend s n).fatal = s.fatal := rfl
@[simp] theorem spend_capFlag (s : State) (n : Nat) : (spend s n).capFlag = s.capFlag := rfl
@[simp] theorem spend_throtFlag (s : State) (n : Nat) : (spend s n).throtFlag = s.throtFlag := rfl
@[simp] theorem spend_replace (s : State) (n : Nat) : (spend s n).replace = s.replace := rfl
@[simp] theorem spend_pwr (s : State) (n : Nat) : (spend s n).pwr = s.pwr := rfl
@[simp] theorem spend_cap (s : State) (n : Nat) : (spend s n).cap = s.cap := rfl
@[simp] theorem spend_coolAt (s : State) (n : Nat) : (spend s n).coolAt = s.coolAt := rfl
@[simp] theorem spend_retired (s : State) (n : Nat) : (spend s n).retired = s.retired := rfl
@[simp] theorem spend_relocating (s : State) (n : Nat) : (spend s n).relocating = s.relocating := rfl
@[simp] theorem spend_log (s : State) (n : Nat) : (spend s n).log = s.log := rfl
@[simp] theorem spend_console (s : State) (n : Nat) : (spend s n).console = s.console := rfl
@[simp] theorem spend_flash (s : State) (n : Nat) : (spend s n).flash = s.flash := rfl
@[simp] theorem spend_fusedFloor (s : State) (n : Nat) : (spend s n).fusedFloor = s.fusedFloor := rfl
@[simp] theorem spend_fusedKey (s : State) (n : Nat) : (spend s n).fusedKey = s.fusedKey := rfl
@[simp] theorem spend_booted (s : State) (n : Nat) : (spend s n).booted = s.booted := rfl
@[simp] theorem spend_meas (s : State) (n : Nat) : (spend s n).meas = s.meas := rfl
@[simp] theorem spend_session (s : State) (n : Nat) : (spend s n).session = s.session := rfl
@[simp] theorem spend_hostOut (s : State) (n : Nat) : (spend s n).hostOut = s.hostOut := rfl
@[simp] theorem spend_virtio (s : State) (n : Nat) : (spend s n).virtio = s.virtio := rfl
@[simp] theorem spend_events (s : State) (n : Nat) : (spend s n).events = s.events := rfl
@[simp] theorem spend_arg (s : State) (n : Nat) : (spend s n).arg = s.arg := rfl
@[simp] theorem spend_sched (s : State) (n : Nat) : (spend s n).sched = s.sched := rfl
@[simp] theorem spend_tags (s : State) (n : Nat) : (spend s n).tags = s.tags := rfl
@[simp] theorem spend_badGran (s : State) (n : Nat) : (spend s n).badGran = s.badGran := rfl
@[simp] theorem spend_engTurn (s : State) (n : Nat) : (spend s n).engTurn = s.engTurn := rfl
@[simp] theorem spend_soloQ (s : State) (n : Nat) : (spend s n).soloQ = s.soloQ := rfl
@[simp] theorem spend_salvAcks (s : State) (n : Nat) : (spend s n).salvAcks = s.salvAcks := rfl
@[simp] theorem spend_wire (s : State) (n : Nat) : (spend s n).wire = s.wire := rfl
@[simp] theorem spend_nextPhys (s : State) (n : Nat) : (spend s n).nextPhys = s.nextPhys := rfl
@[simp] theorem spend_corrected (s : State) (n : Nat) : (spend s n).corrected = s.corrected := rfl
@[simp] theorem spend_powered (s : State) (n : Nat) : (spend s n).powered = s.powered := rfl
@[simp] theorem spend_exchange (s : State) (n : Nat) : (spend s n).exchange = s.exchange := rfl

/-! ## Writes of registers -/

@[simp] theorem wrG_pc (a : Arch) (r : GReg) (x : Word) : (wrG a r x).pc = a.pc := by unfold wrG; split <;> rfl
@[simp] theorem wrG_iw (a : Arch) (r : GReg) (x : Word) : (wrG a r x).iw = a.iw := by unfold wrG; split <;> rfl
@[simp] theorem wrG_mode (a : Arch) (r : GReg) (x : Word) : (wrG a r x).mode = a.mode := by unfold wrG; split <;> rfl
@[simp] theorem wrG_blk (a : Arch) (r : GReg) (x : Word) : (wrG a r x).blk = a.blk := by unfold wrG; split <;> rfl
@[simp] theorem wrG_shadow (a : Arch) (r : GReg) (x : Word) : (wrG a r x).shadow = a.shadow := by unfold wrG; split <;> rfl
@[simp] theorem wrG_v (a : Arch) (r : GReg) (x : Word) : (wrG a r x).v = a.v := by unfold wrG; split <;> rfl
@[simp] theorem wrG_p (a : Arch) (r : GReg) (x : Word) : (wrG a r x).p = a.p := by unfold wrG; split <;> rfl
@[simp] theorem wrG_tiles (a : Arch) (r : GReg) (x : Word) : (wrG a r x).tiles = a.tiles := by unfold wrG; split <;> rfl
@[simp] theorem wrG_qc (a : Arch) (r : GReg) (x : Word) : (wrG a r x).qc = a.qc := by unfold wrG; split <;> rfl
@[simp] theorem wrG_fcsr (a : Arch) (r : GReg) (x : Word) : (wrG a r x).fcsr = a.fcsr := by unfold wrG; split <;> rfl
@[simp] theorem wrG_vcsr (a : Arch) (r : GReg) (x : Word) : (wrG a r x).vcsr = a.vcsr := by unfold wrG; split <;> rfl
@[simp] theorem wrG_fstat (a : Arch) (r : GReg) (x : Word) : (wrG a r x).fstat = a.fstat := by unfold wrG; split <;> rfl
@[simp] theorem wrG_short (a : Arch) (r : GReg) (x : Word) : (wrG a r x).short = a.short := by unfold wrG; split <;> rfl
@[simp] theorem wrG_uvec (a : Arch) (r : GReg) (x : Word) : (wrG a r x).uvec = a.uvec := by unfold wrG; split <;> rfl
@[simp] theorem wrG_uepc (a : Arch) (r : GReg) (x : Word) : (wrG a r x).uepc = a.uepc := by unfold wrG; split <;> rfl
@[simp] theorem wrG_uie (a : Arch) (r : GReg) (x : Word) : (wrG a r x).uie = a.uie := by unfold wrG; split <;> rfl
@[simp] theorem wrG_inh (a : Arch) (r : GReg) (x : Word) : (wrG a r x).inh = a.inh := by unfold wrG; split <;> rfl
@[simp] theorem wrG_hreq (a : Arch) (r : GReg) (x : Word) : (wrG a r x).hreq = a.hreq := by unfold wrG; split <;> rfl
@[simp] theorem wrG_gid (a : Arch) (r : GReg) (x : Word) : (wrG a r x).gid = a.gid := by unfold wrG; split <;> rfl
@[simp] theorem wrG_gext (a : Arch) (r : GReg) (x : Word) : (wrG a r x).gext = a.gext := by unfold wrG; split <;> rfl
@[simp] theorem wrG_partLo (a : Arch) (r : GReg) (x : Word) : (wrG a r x).partLo = a.partLo := by unfold wrG; split <;> rfl
@[simp] theorem wrG_partLen (a : Arch) (r : GReg) (x : Word) : (wrG a r x).partLen = a.partLen := by unfold wrG; split <;> rfl
@[simp] theorem wrG_hstat (a : Arch) (r : GReg) (x : Word) : (wrG a r x).hstat = a.hstat := by unfold wrG; split <;> rfl
@[simp] theorem wrG_hcause (a : Arch) (r : GReg) (x : Word) : (wrG a r x).hcause = a.hcause := by unfold wrG; split <;> rfl
@[simp] theorem wrG_hepc (a : Arch) (r : GReg) (x : Word) : (wrG a r x).hepc = a.hepc := by unfold wrG; split <;> rfl
@[simp] theorem wrG_htval (a : Arch) (r : GReg) (x : Word) : (wrG a r x).htval = a.htval := by unfold wrG; split <;> rfl
@[simp] theorem wrG_htrow (a : Arch) (r : GReg) (x : Word) : (wrG a r x).htrow = a.htrow := by unfold wrG; split <;> rfl
@[simp] theorem wrG_resume (a : Arch) (r : GReg) (x : Word) : (wrG a r x).resume = a.resume := by unfold wrG; split <;> rfl
@[simp] theorem wrG_asid (a : Arch) (r : GReg) (x : Word) : (wrG a r x).asid = a.asid := by unfold wrG; split <;> rfl
@[simp] theorem wrG_ptroot (a : Arch) (r : GReg) (x : Word) : (wrG a r x).ptroot = a.ptroot := by unfold wrG; split <;> rfl
@[simp] theorem wrG_ncbase (a : Arch) (r : GReg) (x : Word) : (wrG a r x).ncbase = a.ncbase := by unfold wrG; split <;> rfl
@[simp] theorem wrG_nclim (a : Arch) (r : GReg) (x : Word) : (wrG a r x).nclim = a.nclim := by unfold wrG; split <;> rfl
@[simp] theorem wrG_ncattr (a : Arch) (r : GReg) (x : Word) : (wrG a r x).ncattr = a.ncattr := by unfold wrG; split <;> rfl
@[simp] theorem wrG_sbank (a : Arch) (r : GReg) (x : Word) : (wrG a r x).sbank = a.sbank := by unfold wrG; split <;> rfl
@[simp] theorem wrG_mbank (a : Arch) (r : GReg) (x : Word) : (wrG a r x).mbank = a.mbank := by unfold wrG; split <;> rfl
@[simp] theorem wrG_mrec (a : Arch) (r : GReg) (x : Word) : (wrG a r x).mrec = a.mrec := by unfold wrG; split <;> rfl
@[simp] theorem wrG_ras (a : Arch) (r : GReg) (x : Word) : (wrG a r x).ras = a.ras := by unfold wrG; split <;> rfl
@[simp] theorem wrG_phys (a : Arch) (r : GReg) (x : Word) : (wrG a r x).phys = a.phys := by unfold wrG; split <;> rfl
@[simp] theorem wrG_qgen (a : Arch) (r : GReg) (x : Word) : (wrG a r x).qgen = a.qgen := by unfold wrG; split <;> rfl
@[simp] theorem wrP_pc (a : Arch) (r : PReg) (x : Word) : (wrP a r x).pc = a.pc := by unfold wrP; split <;> rfl
@[simp] theorem wrP_iw (a : Arch) (r : PReg) (x : Word) : (wrP a r x).iw = a.iw := by unfold wrP; split <;> rfl
@[simp] theorem wrP_mode (a : Arch) (r : PReg) (x : Word) : (wrP a r x).mode = a.mode := by unfold wrP; split <;> rfl
@[simp] theorem wrP_blk (a : Arch) (r : PReg) (x : Word) : (wrP a r x).blk = a.blk := by unfold wrP; split <;> rfl
@[simp] theorem wrP_g (a : Arch) (r : PReg) (x : Word) : (wrP a r x).g = a.g := by unfold wrP; split <;> rfl
@[simp] theorem wrP_shadow (a : Arch) (r : PReg) (x : Word) : (wrP a r x).shadow = a.shadow := by unfold wrP; split <;> rfl
@[simp] theorem wrP_v (a : Arch) (r : PReg) (x : Word) : (wrP a r x).v = a.v := by unfold wrP; split <;> rfl
@[simp] theorem wrP_tiles (a : Arch) (r : PReg) (x : Word) : (wrP a r x).tiles = a.tiles := by unfold wrP; split <;> rfl
@[simp] theorem wrP_qc (a : Arch) (r : PReg) (x : Word) : (wrP a r x).qc = a.qc := by unfold wrP; split <;> rfl
@[simp] theorem wrP_fcsr (a : Arch) (r : PReg) (x : Word) : (wrP a r x).fcsr = a.fcsr := by unfold wrP; split <;> rfl
@[simp] theorem wrP_vcsr (a : Arch) (r : PReg) (x : Word) : (wrP a r x).vcsr = a.vcsr := by unfold wrP; split <;> rfl
@[simp] theorem wrP_fstat (a : Arch) (r : PReg) (x : Word) : (wrP a r x).fstat = a.fstat := by unfold wrP; split <;> rfl
@[simp] theorem wrP_short (a : Arch) (r : PReg) (x : Word) : (wrP a r x).short = a.short := by unfold wrP; split <;> rfl
@[simp] theorem wrP_uvec (a : Arch) (r : PReg) (x : Word) : (wrP a r x).uvec = a.uvec := by unfold wrP; split <;> rfl
@[simp] theorem wrP_uepc (a : Arch) (r : PReg) (x : Word) : (wrP a r x).uepc = a.uepc := by unfold wrP; split <;> rfl
@[simp] theorem wrP_uie (a : Arch) (r : PReg) (x : Word) : (wrP a r x).uie = a.uie := by unfold wrP; split <;> rfl
@[simp] theorem wrP_inh (a : Arch) (r : PReg) (x : Word) : (wrP a r x).inh = a.inh := by unfold wrP; split <;> rfl
@[simp] theorem wrP_hreq (a : Arch) (r : PReg) (x : Word) : (wrP a r x).hreq = a.hreq := by unfold wrP; split <;> rfl
@[simp] theorem wrP_gid (a : Arch) (r : PReg) (x : Word) : (wrP a r x).gid = a.gid := by unfold wrP; split <;> rfl
@[simp] theorem wrP_gext (a : Arch) (r : PReg) (x : Word) : (wrP a r x).gext = a.gext := by unfold wrP; split <;> rfl
@[simp] theorem wrP_partLo (a : Arch) (r : PReg) (x : Word) : (wrP a r x).partLo = a.partLo := by unfold wrP; split <;> rfl
@[simp] theorem wrP_partLen (a : Arch) (r : PReg) (x : Word) : (wrP a r x).partLen = a.partLen := by unfold wrP; split <;> rfl
@[simp] theorem wrP_hstat (a : Arch) (r : PReg) (x : Word) : (wrP a r x).hstat = a.hstat := by unfold wrP; split <;> rfl
@[simp] theorem wrP_hcause (a : Arch) (r : PReg) (x : Word) : (wrP a r x).hcause = a.hcause := by unfold wrP; split <;> rfl
@[simp] theorem wrP_hepc (a : Arch) (r : PReg) (x : Word) : (wrP a r x).hepc = a.hepc := by unfold wrP; split <;> rfl
@[simp] theorem wrP_htval (a : Arch) (r : PReg) (x : Word) : (wrP a r x).htval = a.htval := by unfold wrP; split <;> rfl
@[simp] theorem wrP_htrow (a : Arch) (r : PReg) (x : Word) : (wrP a r x).htrow = a.htrow := by unfold wrP; split <;> rfl
@[simp] theorem wrP_resume (a : Arch) (r : PReg) (x : Word) : (wrP a r x).resume = a.resume := by unfold wrP; split <;> rfl
@[simp] theorem wrP_asid (a : Arch) (r : PReg) (x : Word) : (wrP a r x).asid = a.asid := by unfold wrP; split <;> rfl
@[simp] theorem wrP_ptroot (a : Arch) (r : PReg) (x : Word) : (wrP a r x).ptroot = a.ptroot := by unfold wrP; split <;> rfl
@[simp] theorem wrP_ncbase (a : Arch) (r : PReg) (x : Word) : (wrP a r x).ncbase = a.ncbase := by unfold wrP; split <;> rfl
@[simp] theorem wrP_nclim (a : Arch) (r : PReg) (x : Word) : (wrP a r x).nclim = a.nclim := by unfold wrP; split <;> rfl
@[simp] theorem wrP_ncattr (a : Arch) (r : PReg) (x : Word) : (wrP a r x).ncattr = a.ncattr := by unfold wrP; split <;> rfl
@[simp] theorem wrP_sbank (a : Arch) (r : PReg) (x : Word) : (wrP a r x).sbank = a.sbank := by unfold wrP; split <;> rfl
@[simp] theorem wrP_mbank (a : Arch) (r : PReg) (x : Word) : (wrP a r x).mbank = a.mbank := by unfold wrP; split <;> rfl
@[simp] theorem wrP_mrec (a : Arch) (r : PReg) (x : Word) : (wrP a r x).mrec = a.mrec := by unfold wrP; split <;> rfl
@[simp] theorem wrP_ras (a : Arch) (r : PReg) (x : Word) : (wrP a r x).ras = a.ras := by unfold wrP; split <;> rfl
@[simp] theorem wrP_phys (a : Arch) (r : PReg) (x : Word) : (wrP a r x).phys = a.phys := by unfold wrP; split <;> rfl
@[simp] theorem wrP_qgen (a : Arch) (r : PReg) (x : Word) : (wrP a r x).qgen = a.qgen := by unfold wrP; split <;> rfl
@[simp] theorem wrV_pc (a : Arch) (r : VReg) (x : Vec) : (wrV a r x).pc = a.pc := rfl
@[simp] theorem wrV_iw (a : Arch) (r : VReg) (x : Vec) : (wrV a r x).iw = a.iw := rfl
@[simp] theorem wrV_mode (a : Arch) (r : VReg) (x : Vec) : (wrV a r x).mode = a.mode := rfl
@[simp] theorem wrV_blk (a : Arch) (r : VReg) (x : Vec) : (wrV a r x).blk = a.blk := rfl
@[simp] theorem wrV_g (a : Arch) (r : VReg) (x : Vec) : (wrV a r x).g = a.g := rfl
@[simp] theorem wrV_shadow (a : Arch) (r : VReg) (x : Vec) : (wrV a r x).shadow = a.shadow := rfl
@[simp] theorem wrV_p (a : Arch) (r : VReg) (x : Vec) : (wrV a r x).p = a.p := rfl
@[simp] theorem wrV_tiles (a : Arch) (r : VReg) (x : Vec) : (wrV a r x).tiles = a.tiles := rfl
@[simp] theorem wrV_qc (a : Arch) (r : VReg) (x : Vec) : (wrV a r x).qc = a.qc := rfl
@[simp] theorem wrV_fcsr (a : Arch) (r : VReg) (x : Vec) : (wrV a r x).fcsr = a.fcsr := rfl
@[simp] theorem wrV_vcsr (a : Arch) (r : VReg) (x : Vec) : (wrV a r x).vcsr = a.vcsr := rfl
@[simp] theorem wrV_fstat (a : Arch) (r : VReg) (x : Vec) : (wrV a r x).fstat = a.fstat := rfl
@[simp] theorem wrV_short (a : Arch) (r : VReg) (x : Vec) : (wrV a r x).short = a.short := rfl
@[simp] theorem wrV_uvec (a : Arch) (r : VReg) (x : Vec) : (wrV a r x).uvec = a.uvec := rfl
@[simp] theorem wrV_uepc (a : Arch) (r : VReg) (x : Vec) : (wrV a r x).uepc = a.uepc := rfl
@[simp] theorem wrV_uie (a : Arch) (r : VReg) (x : Vec) : (wrV a r x).uie = a.uie := rfl
@[simp] theorem wrV_inh (a : Arch) (r : VReg) (x : Vec) : (wrV a r x).inh = a.inh := rfl
@[simp] theorem wrV_hreq (a : Arch) (r : VReg) (x : Vec) : (wrV a r x).hreq = a.hreq := rfl
@[simp] theorem wrV_gid (a : Arch) (r : VReg) (x : Vec) : (wrV a r x).gid = a.gid := rfl
@[simp] theorem wrV_gext (a : Arch) (r : VReg) (x : Vec) : (wrV a r x).gext = a.gext := rfl
@[simp] theorem wrV_partLo (a : Arch) (r : VReg) (x : Vec) : (wrV a r x).partLo = a.partLo := rfl
@[simp] theorem wrV_partLen (a : Arch) (r : VReg) (x : Vec) : (wrV a r x).partLen = a.partLen := rfl
@[simp] theorem wrV_hstat (a : Arch) (r : VReg) (x : Vec) : (wrV a r x).hstat = a.hstat := rfl
@[simp] theorem wrV_hcause (a : Arch) (r : VReg) (x : Vec) : (wrV a r x).hcause = a.hcause := rfl
@[simp] theorem wrV_hepc (a : Arch) (r : VReg) (x : Vec) : (wrV a r x).hepc = a.hepc := rfl
@[simp] theorem wrV_htval (a : Arch) (r : VReg) (x : Vec) : (wrV a r x).htval = a.htval := rfl
@[simp] theorem wrV_htrow (a : Arch) (r : VReg) (x : Vec) : (wrV a r x).htrow = a.htrow := rfl
@[simp] theorem wrV_resume (a : Arch) (r : VReg) (x : Vec) : (wrV a r x).resume = a.resume := rfl
@[simp] theorem wrV_asid (a : Arch) (r : VReg) (x : Vec) : (wrV a r x).asid = a.asid := rfl
@[simp] theorem wrV_ptroot (a : Arch) (r : VReg) (x : Vec) : (wrV a r x).ptroot = a.ptroot := rfl
@[simp] theorem wrV_ncbase (a : Arch) (r : VReg) (x : Vec) : (wrV a r x).ncbase = a.ncbase := rfl
@[simp] theorem wrV_nclim (a : Arch) (r : VReg) (x : Vec) : (wrV a r x).nclim = a.nclim := rfl
@[simp] theorem wrV_ncattr (a : Arch) (r : VReg) (x : Vec) : (wrV a r x).ncattr = a.ncattr := rfl
@[simp] theorem wrV_sbank (a : Arch) (r : VReg) (x : Vec) : (wrV a r x).sbank = a.sbank := rfl
@[simp] theorem wrV_mbank (a : Arch) (r : VReg) (x : Vec) : (wrV a r x).mbank = a.mbank := rfl
@[simp] theorem wrV_mrec (a : Arch) (r : VReg) (x : Vec) : (wrV a r x).mrec = a.mrec := rfl
@[simp] theorem wrV_ras (a : Arch) (r : VReg) (x : Vec) : (wrV a r x).ras = a.ras := rfl
@[simp] theorem wrV_phys (a : Arch) (r : VReg) (x : Vec) : (wrV a r x).phys = a.phys := rfl
@[simp] theorem wrV_qgen (a : Arch) (r : VReg) (x : Vec) : (wrV a r x).qgen = a.qgen := rfl
@[simp] theorem wrQ_pc (a : Arch) (r : QReg) (x : QcReg) : (wrQ a r x).pc = a.pc := rfl
@[simp] theorem wrQ_iw (a : Arch) (r : QReg) (x : QcReg) : (wrQ a r x).iw = a.iw := rfl
@[simp] theorem wrQ_mode (a : Arch) (r : QReg) (x : QcReg) : (wrQ a r x).mode = a.mode := rfl
@[simp] theorem wrQ_blk (a : Arch) (r : QReg) (x : QcReg) : (wrQ a r x).blk = a.blk := rfl
@[simp] theorem wrQ_g (a : Arch) (r : QReg) (x : QcReg) : (wrQ a r x).g = a.g := rfl
@[simp] theorem wrQ_shadow (a : Arch) (r : QReg) (x : QcReg) : (wrQ a r x).shadow = a.shadow := rfl
@[simp] theorem wrQ_v (a : Arch) (r : QReg) (x : QcReg) : (wrQ a r x).v = a.v := rfl
@[simp] theorem wrQ_p (a : Arch) (r : QReg) (x : QcReg) : (wrQ a r x).p = a.p := rfl
@[simp] theorem wrQ_tiles (a : Arch) (r : QReg) (x : QcReg) : (wrQ a r x).tiles = a.tiles := rfl
@[simp] theorem wrQ_fcsr (a : Arch) (r : QReg) (x : QcReg) : (wrQ a r x).fcsr = a.fcsr := rfl
@[simp] theorem wrQ_vcsr (a : Arch) (r : QReg) (x : QcReg) : (wrQ a r x).vcsr = a.vcsr := rfl
@[simp] theorem wrQ_fstat (a : Arch) (r : QReg) (x : QcReg) : (wrQ a r x).fstat = a.fstat := rfl
@[simp] theorem wrQ_short (a : Arch) (r : QReg) (x : QcReg) : (wrQ a r x).short = a.short := rfl
@[simp] theorem wrQ_uvec (a : Arch) (r : QReg) (x : QcReg) : (wrQ a r x).uvec = a.uvec := rfl
@[simp] theorem wrQ_uepc (a : Arch) (r : QReg) (x : QcReg) : (wrQ a r x).uepc = a.uepc := rfl
@[simp] theorem wrQ_uie (a : Arch) (r : QReg) (x : QcReg) : (wrQ a r x).uie = a.uie := rfl
@[simp] theorem wrQ_inh (a : Arch) (r : QReg) (x : QcReg) : (wrQ a r x).inh = a.inh := rfl
@[simp] theorem wrQ_hreq (a : Arch) (r : QReg) (x : QcReg) : (wrQ a r x).hreq = a.hreq := rfl
@[simp] theorem wrQ_gid (a : Arch) (r : QReg) (x : QcReg) : (wrQ a r x).gid = a.gid := rfl
@[simp] theorem wrQ_gext (a : Arch) (r : QReg) (x : QcReg) : (wrQ a r x).gext = a.gext := rfl
@[simp] theorem wrQ_partLo (a : Arch) (r : QReg) (x : QcReg) : (wrQ a r x).partLo = a.partLo := rfl
@[simp] theorem wrQ_partLen (a : Arch) (r : QReg) (x : QcReg) : (wrQ a r x).partLen = a.partLen := rfl
@[simp] theorem wrQ_hstat (a : Arch) (r : QReg) (x : QcReg) : (wrQ a r x).hstat = a.hstat := rfl
@[simp] theorem wrQ_hcause (a : Arch) (r : QReg) (x : QcReg) : (wrQ a r x).hcause = a.hcause := rfl
@[simp] theorem wrQ_hepc (a : Arch) (r : QReg) (x : QcReg) : (wrQ a r x).hepc = a.hepc := rfl
@[simp] theorem wrQ_htval (a : Arch) (r : QReg) (x : QcReg) : (wrQ a r x).htval = a.htval := rfl
@[simp] theorem wrQ_htrow (a : Arch) (r : QReg) (x : QcReg) : (wrQ a r x).htrow = a.htrow := rfl
@[simp] theorem wrQ_resume (a : Arch) (r : QReg) (x : QcReg) : (wrQ a r x).resume = a.resume := rfl
@[simp] theorem wrQ_asid (a : Arch) (r : QReg) (x : QcReg) : (wrQ a r x).asid = a.asid := rfl
@[simp] theorem wrQ_ptroot (a : Arch) (r : QReg) (x : QcReg) : (wrQ a r x).ptroot = a.ptroot := rfl
@[simp] theorem wrQ_ncbase (a : Arch) (r : QReg) (x : QcReg) : (wrQ a r x).ncbase = a.ncbase := rfl
@[simp] theorem wrQ_nclim (a : Arch) (r : QReg) (x : QcReg) : (wrQ a r x).nclim = a.nclim := rfl
@[simp] theorem wrQ_ncattr (a : Arch) (r : QReg) (x : QcReg) : (wrQ a r x).ncattr = a.ncattr := rfl
@[simp] theorem wrQ_sbank (a : Arch) (r : QReg) (x : QcReg) : (wrQ a r x).sbank = a.sbank := rfl
@[simp] theorem wrQ_mbank (a : Arch) (r : QReg) (x : QcReg) : (wrQ a r x).mbank = a.mbank := rfl
@[simp] theorem wrQ_mrec (a : Arch) (r : QReg) (x : QcReg) : (wrQ a r x).mrec = a.mrec := rfl
@[simp] theorem wrQ_ras (a : Arch) (r : QReg) (x : QcReg) : (wrQ a r x).ras = a.ras := rfl
@[simp] theorem wrQ_phys (a : Arch) (r : QReg) (x : QcReg) : (wrQ a r x).phys = a.phys := rfl

end Sys2Proof.Machine
end

