-- ==== Sys2Proof/Laws/Registers.lean ====
section
/-!
SUPPORT. Registers read after they are written (R13, R200).
-/

namespace Sys2Proof.Machine

theorem rdG_wrG (a : Arch) (r q : GReg) (x : Word) :
    rdG (wrG a r x) q = if q = r ∧ q ≠ 0 then x else rdG a q := by
  unfold rdG wrG
  by_cases hq : q = 0
  · simp [hq]
  · by_cases hr : r = 0
    · simp [hr]
    · simp only [hq, hr, if_false, ne_eq, not_false_eq_true, and_true]
      show (a.g.set r.toNat x r.isLt)[q.toNat] = _
      rw [Vector.getElem_set]
      by_cases e : q = r
      · simp [e]
      · have : r.toNat ≠ q.toNat := fun h => e (BitVec.eq_of_toNat_eq h.symm)
        simp only [this, e, if_false]; rfl

theorem rdP_wrP (a : Arch) (r q : PReg) (x : Word) :
    rdP (wrP a r x) q = if q = r ∧ q ≠ 0 then x else rdP a q := by
  unfold rdP wrP
  by_cases hq : q = 0
  · simp [hq]
  · by_cases hr : r = 0
    · simp [hr]
    · simp only [hq, hr, if_false, ne_eq, not_false_eq_true, and_true]
      show (a.p.set r.toNat x r.isLt)[q.toNat] = _
      rw [Vector.getElem_set]
      by_cases e : q = r
      · simp [e]
      · have : r.toNat ≠ q.toNat := fun h => e (BitVec.eq_of_toNat_eq h.symm)
        simp only [this, e, if_false]; rfl

theorem rdV_wrV (a : Arch) (r q : VReg) (x : Vec) : rdV (wrV a r x) q = if q = r then x else rdV a q := by
  unfold rdV wrV
  show (a.v.set r.toNat x r.isLt)[q.toNat] = _
  rw [Vector.getElem_set]
  by_cases e : q = r
  · simp [e]
  · have : r.toNat ≠ q.toNat := fun h => e (BitVec.eq_of_toNat_eq h.symm)
    simp only [this, e, if_false]; rfl

theorem rdQ_wrQ (a : Arch) (r q : QReg) (x : QcReg) : rdQ (wrQ a r x) q = if q = r then x else rdQ a q := by
  unfold rdQ wrQ
  show (a.qc.set r.toNat x r.isLt)[q.toNat] = _
  rw [Vector.getElem_set]
  by_cases e : q = r
  · simp [e]
  · have : r.toNat ≠ q.toNat := fun h => e (BitVec.eq_of_toNat_eq h.symm)
    simp only [this, e, if_false]; rfl

/-- g0 reads zero, and p0 all ones, in every state. -/
@[simp] theorem rdG_zero (a : Arch) : rdG a 0 = 0 := rfl
@[simp] theorem rdP_zero (a : Arch) : rdP a 0 = BitVec.allOnes 64 := rfl
@[simp] theorem wrG_zero (a : Arch) (x : Word) : wrG a 0 x = a := rfl
@[simp] theorem wrP_zero (a : Arch) (x : Word) : wrP a 0 x = a := rfl

/-- The registers of a group of at most 32 are distinct. -/
theorem vNext_inj {r : VReg} {i j : Nat} (hi : i < 32) (hj : j < 32) : vNext r i = vNext r j ↔ i = j := by
  unfold vNext
  constructor
  · intro h
    have h2 := congrArg BitVec.toNat (add_left_cancel h)
    simpa [Nat.mod_eq_of_lt hi, Nat.mod_eq_of_lt hj] using h2
  · rintro rfl; rfl

end Sys2Proof.Machine
end

