-- ==== Sys2Proof/Laws/Lanes.lean ====
section
/-!
SUPPORT. Lanes: what a packed register reads as, lane by lane.
-/

namespace Sys2Proof.Machine

/-- Element i of a packed list. -/
theorem packNat_lane (w : Nat) : ∀ (l : List Nat) (i : Nat), packNat w l / 2 ^ (w * i) % 2 ^ w = l.getD i 0 % 2 ^ w
  | [], i => by simp [packNat]
  | x :: t, 0 => by simp [packNat]
  | x :: t, i + 1 => by
    have h : 2 ^ (w * (i + 1)) = 2 ^ w * 2 ^ (w * i) := by rw [Nat.mul_succ, Nat.pow_add, Nat.mul_comm]
    have hx : x % 2 ^ w < 2 ^ w := Nat.mod_lt _ (by positivity)
    rw [packNat, h, ← Nat.div_div_eq_div_mul, Nat.add_mul_div_left _ _ (by positivity), Nat.div_eq_of_lt hx, Nat.zero_add,
      packNat_lane w t i]
    simp

/-- Lane i of a packed register. -/
theorem lane_packLanes {w i : Nat} (l : List Nat) (h : w * (i + 1) ≤ 512) :
    lane w (packLanes w l) i = l.getD i 0 % 2 ^ w := by
  have hp : 2 ^ (w * i) * 2 ^ w ∣ 2 ^ 512 := by rw [← Nat.pow_add]; exact Nat.pow_dvd_pow 2 (by rw [Nat.mul_succ] at h; omega)
  rw [lane, packLanes, BitVec.toNat_ofNat, Nat.shiftRight_eq_div_pow, ← packNat_lane]
  obtain ⟨k, hk⟩ := hp
  rw [hk, Nat.mul_assoc, Nat.mod_mul_right_div_self]
  exact Nat.mod_mod_of_dvd _ (Dvd.intro _ rfl)

/-- Lane i of a register with its active lanes replaced. -/
theorem lane_mergeLanes {w i : Nat} (mask : Word) (zm : Bool) (old : Vec) (f : Nat → Nat)
    (hi : i < 512 / w) :
    lane w (mergeLanes w mask zm old f) i =
      if active w mask i then f i % 2 ^ w else if zm then 0 else lane w old i := by
  have h : w * (i + 1) ≤ 512 := by
    calc w * (i + 1) ≤ w * (512 / w) := Nat.mul_le_mul_left _ hi
      _ ≤ 512 := Nat.mul_div_le ..
  rw [mergeLanes, lane_packLanes _ h]
  simp only [List.getD_eq_getElem?_getD, List.getElem?_map, List.getElem?_range hi, Option.map_some, Option.getD_some]
  split
  · rfl
  · split
    · simp
    · exact Nat.mod_eq_of_lt (Nat.mod_lt _ (by positivity))

/-- The width of every element type divides the register. -/
theorem width_dvd (t : VType) : t.width ∣ 512 ∧ 0 < t.width ∧ t.lanes = 512 / t.width := by
  cases t <;> decide

/-- Register k of a group after n registers of it have been written one by one. -/
theorem rdV_foldl_wrV (r : VReg) (g : Nat → Vec) :
    ∀ (n : Nat) (a : Arch) (k : Nat), n ≤ 32 → k < 32 →
      rdV ((List.range n).foldl (fun b j => wrV b (vNext r j) (g j)) a) (vNext r k) =
        if k < n then g k else rdV a (vNext r k)
  | 0, a, k, _, _ => by simp
  | n + 1, a, k, hn, hk => by
    rw [List.range_succ, List.foldl_append, List.foldl_cons, List.foldl_nil, rdV_wrV,
      rdV_foldl_wrV r g n a k (by omega) hk]
    have hd := vNext_inj (r := r) hk (show n < 32 by omega)
    by_cases h : k = n
    · simp [h]
    · have : k < n + 1 ↔ k < n := by omega
      rw [if_neg (mt hd.1 h)]
      simp [this]

/-- Element i of a group after the elements with an active source lane have been replaced. -/
theorem groupLane_mergeGroup {w n i : Nat} (a : Arch) (r : VReg) (act : Nat → Bool) (zm : Bool) (f : Nat → Nat)
    (hn : 0 < n) (h32 : n ≤ 32) (hi : i < n * (512 / w)) :
    groupLane (mergeGroup a w r n act zm f) w r n i =
      if act i then f i % 2 ^ w else if zm then 0 else groupLane a w r n i := by
  have hk : i % n < n := Nat.mod_lt _ hn
  have hj : i / n < 512 / w := Nat.div_lt_of_lt_mul hi
  have hb : w * (i / n + 1) ≤ 512 :=
    calc w * (i / n + 1) ≤ w * (512 / w) := Nat.mul_le_mul_left _ hj
      _ ≤ 512 := Nat.mul_div_le ..
  have he : i / n * n + i % n = i := Nat.div_add_mod' i n
  rw [groupLane, mergeGroup, rdV_foldl_wrV r _ n a (i % n) h32 (by omega), if_pos hk, lane_packLanes _ hb]
  simp only [List.getD_eq_getElem?_getD, List.getElem?_map, List.getElem?_range hj, Option.map_some, Option.getD_some, he]
  split
  · rfl
  · split
    · simp
    · exact Nat.mod_eq_of_lt (Nat.mod_lt _ (by positivity))

end Sys2Proof.Machine
end

