-- ==== Sys2Proof/Laws/Tab.lean ====
section
/-!
SUPPORT. Tables and memory: reading after writing, and every operation keeps the canonical form.
-/

namespace Sys2Proof.Machine

/-! ## The order of keys -/

/-- The condition that a lower bound puts on a key. -/
def aboveLo (lo : Option Nat) (k : Nat) : Bool := match lo with | none => true | some l => decide (l < k)

theorem tabWfFrom_cons {α : Type} [DecidableEq α] (d : α) (lo : Option Nat) (k : Nat) (v : α) (t : Tab α) :
    tabWfFrom d lo ((k, v) :: t) = (aboveLo lo k && decide (v ≠ d) && tabWfFrom d (some k) t) := by
  cases lo <;> rfl

/-- A lower bound may be lowered. -/
theorem tabWfFrom_lower {α : Type} [DecidableEq α] (d : α) {l k : Nat} (h : l < k) :
    ∀ t : Tab α, tabWfFrom d (some k) t = true → tabWfFrom d (some l) t = true
  | [], _ => rfl
  | (j, v) :: t, hw => by
    simp only [tabWfFrom_cons, aboveLo, Bool.and_eq_true, decide_eq_true_eq] at hw ⊢
    exact ⟨⟨by omega, hw.1.2⟩, hw.2⟩

theorem tabWfFrom_none {α : Type} [DecidableEq α] (d : α) {k : Nat} :
    ∀ t : Tab α, tabWfFrom d (some k) t = true → tabWfFrom d none t = true
  | [], _ => rfl
  | (j, v) :: t, hw => by
    simp only [tabWfFrom_cons, aboveLo, Bool.and_eq_true, decide_eq_true_eq] at hw ⊢
    exact ⟨⟨trivial, hw.1.2⟩, hw.2⟩

theorem tabWfFrom_any {α : Type} [DecidableEq α] (d : α) {lo : Option Nat} {k : Nat} (h : aboveLo lo k = true) (t : Tab α)
    (hw : tabWfFrom d (some k) t = true) : tabWfFrom d lo t = true := by
  cases lo with
  | none => exact tabWfFrom_none d t hw
  | some l => exact tabWfFrom_lower d (by simpa [aboveLo] using h) t hw

/-- Keys below the bound of a table read as the default. -/
theorem tabGet_below {α : Type} [DecidableEq α] (d : α) {k i : Nat} (h : i ≤ k) :
    ∀ t : Tab α, tabWfFrom d (some k) t = true → tabGet d t i = d
  | [], _ => rfl
  | (j, v) :: t, hw => by
    simp only [tabWfFrom_cons, aboveLo, Bool.and_eq_true, decide_eq_true_eq] at hw
    simp only [tabGet, show i ≠ j by omega, if_false, show i < j by omega, if_true]

/-! ## Canonical form -/

theorem tabErase_wf {α : Type} [DecidableEq α] (d : α) (i : Nat) :
    ∀ (lo : Option Nat) (t : Tab α), tabWfFrom d lo t = true → tabWfFrom d lo (tabErase t i) = true
  | _, [], _ => rfl
  | lo, (k, v) :: t, hw => by
    rw [tabWfFrom_cons, Bool.and_eq_true, Bool.and_eq_true] at hw
    unfold tabErase
    split
    · exact tabWfFrom_any d hw.1.1 t hw.2
    · split
      · rw [tabWfFrom_cons, hw.1.1, hw.1.2, hw.2]; rfl
      · rw [tabWfFrom_cons, hw.1.1, hw.1.2, tabErase_wf d i (some k) t hw.2]; rfl

theorem tabInsert_wf {α : Type} [DecidableEq α] (d : α) (i : Nat) (x : α) (hx : x ≠ d) :
    ∀ (lo : Option Nat) (t : Tab α), aboveLo lo i = true → tabWfFrom d lo t = true → tabWfFrom d lo (tabInsert t i x) = true
  | lo, [], hi, _ => by simp [tabInsert, tabWfFrom_cons, hi, hx, tabWfFrom]
  | lo, (k, v) :: t, hi, hw => by
    rw [tabWfFrom_cons, Bool.and_eq_true, Bool.and_eq_true] at hw
    unfold tabInsert
    split
    · rename_i h; subst h; rw [tabWfFrom_cons, hw.1.1, hw.2]; simp [hx]
    · split
      · rename_i h; rw [tabWfFrom_cons, tabWfFrom_cons, hi, hw.1.2, hw.2]; simp [hx, aboveLo, h]
      · rename_i h1 h2
        rw [tabWfFrom_cons, hw.1.1, hw.1.2,
          tabInsert_wf d i x hx (some k) t (by simp [aboveLo]; omega) hw.2]; rfl

/-- A table keeps its canonical form when a value is put in. -/
theorem tabPut_wf {α : Type} [DecidableEq α] (d : α) (t : Tab α) (i : Nat) (x : α) (h : tabWf d t = true) :
    tabWf d (tabPut d t i x) = true := by
  unfold tabPut
  split
  · exact tabErase_wf d i none t h
  · exact tabInsert_wf d i x ‹_› none t rfl h

theorem tabMap_cons {α : Type} [DecidableEq α] (d : α) (f : Nat → α → α) (k : Nat) (v : α) (t : Tab α) :
    tabMap d f ((k, v) :: t) = if f k v = d then tabMap d f t else (k, f k v) :: tabMap d f t := by
  by_cases h : f k v = d <;> simp [tabMap, h]

theorem tabMap_wfFrom {α : Type} [DecidableEq α] (d : α) (f : Nat → α → α) :
    ∀ (lo : Option Nat) (t : Tab α), tabWfFrom d lo t = true → tabWfFrom d lo (tabMap d f t) = true
  | _, [], _ => rfl
  | lo, (k, v) :: t, hw => by
    rw [tabWfFrom_cons, Bool.and_eq_true, Bool.and_eq_true] at hw
    have tail := tabMap_wfFrom d f (some k) t hw.2
    rw [tabMap_cons]
    split
    · exact tabWfFrom_any d hw.1.1 _ tail
    · rename_i h; rw [tabWfFrom_cons, hw.1.1, tail]; simp [h]

/-- A table keeps its canonical form when a function changes every value. -/
theorem tabMap_wf {α : Type} [DecidableEq α] (d : α) (f : Nat → α → α) (t : Tab α) (h : tabWf d t = true) :
    tabWf d (tabMap d f t) = true := tabMap_wfFrom d f none t h

/-- A byte written keeps the canonical form of memory. -/
theorem writeByte_wf (m : Memory) (a : Nat) (b : BitVec 8) (h : Memory.wf m = true) : Memory.wf (writeByte m a b) = true :=
  tabPut_wf memDefault m a b h

/-- So do n bytes. -/
theorem writeBytes_wf (n : Nat) : ∀ (m : Memory) (a x : Nat), Memory.wf m = true → Memory.wf (writeBytes m a n x) = true := by
  induction n with
  | zero => exact fun _ _ _ h => h
  | succ n ih => exact fun m a x h => ih _ _ _ (writeByte_wf m a _ h)

/-! ## Reading after writing -/

theorem tabGet_erase_same {α : Type} [DecidableEq α] (d : α) (i : Nat) :
    ∀ (lo : Option Nat) (t : Tab α), tabWfFrom d lo t = true → tabGet d (tabErase t i) i = d
  | _, [], _ => rfl
  | lo, (k, v) :: t, hw => by
    rw [tabWfFrom_cons, Bool.and_eq_true, Bool.and_eq_true] at hw
    unfold tabErase
    split
    · exact tabGet_below d (by omega) t hw.2
    · rename_i h1
      split
      · rename_i h2; simp only [tabGet, h1, if_false, h2, if_true]
      · rename_i h2; simp only [tabGet, h1, if_false, h2]; exact tabGet_erase_same d i (some k) t hw.2

theorem tabGet_erase_other {α : Type} [DecidableEq α] (d : α) {i j : Nat} (hij : j ≠ i) :
    ∀ (lo : Option Nat) (t : Tab α), tabWfFrom d lo t = true → tabGet d (tabErase t i) j = tabGet d t j
  | _, [], _ => rfl
  | lo, (k, v) :: t, hw => by
    rw [tabWfFrom_cons, Bool.and_eq_true, Bool.and_eq_true] at hw
    unfold tabErase
    split
    · rename_i h
      subst h
      simp only [tabGet, hij, if_false]
      split
      · exact tabGet_below d (by omega) t hw.2
      · rfl
    · split
      · rfl
      · simp only [tabGet]; rw [tabGet_erase_other d hij (some k) t hw.2]

@[simp] theorem tabGet_insert_same {α : Type} (d : α) (i : Nat) (x : α) : ∀ t : Tab α, tabGet d (tabInsert t i x) i = x
  | [] => by simp [tabInsert, tabGet]
  | (k, v) :: t => by
    unfold tabInsert
    split
    · simp_all [tabGet]
    · split
      · simp [tabGet]
      · simp only [tabGet, *, if_false]; exact tabGet_insert_same d i x t

theorem tabGet_insert_other {α : Type} (d : α) {i j : Nat} (h : j ≠ i) (x : α) : ∀ (t : Tab α), tabGet d (tabInsert t i x) j = tabGet d t j
  | [] => by simp [tabInsert, tabGet, h]
  | (k, v) :: t => by
    unfold tabInsert
    split
    · rename_i e; subst e; simp [tabGet, h]
    · split
      · rename_i e1 e2
        simp only [tabGet, h, if_false]
        split
        · simp [show j ≠ k by omega, show j < k by omega]
        · rfl
      · simp only [tabGet]; rw [tabGet_insert_other d h x t]

/-- A value put in reads back. -/
theorem tabGet_put_same {α : Type} [DecidableEq α] (d : α) (t : Tab α) (i : Nat) (x : α) (h : tabWf d t = true) :
    tabGet d (tabPut d t i x) i = x := by
  unfold tabPut
  split
  · rename_i e; rw [e]; exact tabGet_erase_same d i none t h
  · exact tabGet_insert_same d i x t

/-- Every other key reads as before. -/
theorem tabGet_put_other {α : Type} [DecidableEq α] (d : α) (t : Tab α) {i j : Nat} (hij : j ≠ i) (x : α) (h : tabWf d t = true) :
    tabGet d (tabPut d t i x) j = tabGet d t j := by
  unfold tabPut
  split
  · exact tabGet_erase_other d hij none t h
  · exact tabGet_insert_other d hij x t

theorem tabGet_mapFrom {α : Type} [DecidableEq α] (d : α) (f : Nat → α → α) (i : Nat) (hf : f i d = d) :
    ∀ (lo : Option Nat) (t : Tab α), tabWfFrom d lo t = true → tabGet d (tabMap d f t) i = f i (tabGet d t i)
  | _, [], _ => hf.symm
  | lo, (k, v) :: t, hw => by
    rw [tabWfFrom_cons, Bool.and_eq_true, Bool.and_eq_true] at hw
    have tail := tabMap_wfFrom d f (some k) t hw.2
    rw [tabMap_cons]
    rcases Nat.lt_trichotomy i k with h | h | h
    · have low : tabGet d ((k, v) :: t) i = d := by simp [tabGet, show i ≠ k by omega, h]
      rw [low, hf]
      split
      · exact tabGet_below d (by omega) _ tail
      · simp [tabGet, show i ≠ k by omega, h]
    · subst h
      have here : tabGet d ((i, v) :: t) i = v := by simp [tabGet]
      rw [here]
      split
      · rename_i e; rw [e]; exact tabGet_below d (Nat.le_refl i) _ tail
      · simp [tabGet]
    · have high (x : α) (u : Tab α) : tabGet d ((k, x) :: u) i = tabGet d u i := by
        simp [tabGet, show i ≠ k by omega, show ¬ i < k by omega]
      have ih := tabGet_mapFrom d f i hf (some k) t hw.2
      rw [high]
      split
      · exact ih
      · rw [high]; exact ih

/-- A value of a table that a function has changed, where the function leaves the default as it is. -/
theorem tabGet_map {α : Type} [DecidableEq α] (d : α) (f : Nat → α → α) (t : Tab α) (i : Nat) (hf : f i d = d)
    (h : tabWf d t = true) : tabGet d (tabMap d f t) i = f i (tabGet d t i) := tabGet_mapFrom d f i hf none t h

theorem readByte_writeByte_same (m : Memory) (a : Nat) (b : BitVec 8) (h : Memory.wf m = true) :
    readByte (writeByte m a b) a = b := tabGet_put_same _ _ _ _ h

theorem readByte_writeByte_other (m : Memory) {a c : Nat} (hc : c ≠ a) (b : BitVec 8) (h : Memory.wf m = true) :
    readByte (writeByte m a b) c = readByte m c := tabGet_put_other _ _ hc _ h

/-- Bytes outside those written read as before. -/
theorem readByte_writeBytes_other (n : Nat) : ∀ (m : Memory) (a x c : Nat), Memory.wf m = true → (c < a ∨ a + n ≤ c) →
    readByte (writeBytes m a n x) c = readByte m c := by
  induction n with
  | zero => exact fun _ _ _ _ _ _ => rfl
  | succ n ih =>
    intro m a x c h hc
    rw [writeBytes, ih _ _ _ _ (writeByte_wf m a _ h) (by omega), readByte_writeByte_other m (by omega) _ h]

/-- The bytes written read back as the value's low bytes (R7). -/
theorem readBytes_writeBytes (n : Nat) : ∀ (m : Memory) (a x : Nat), Memory.wf m = true →
    readBytes (writeBytes m a n x) a n = x % 2 ^ (8 * n) := by
  induction n with
  | zero => intro m a x _; simp [readBytes, Nat.mod_one]
  | succ n ih =>
    intro m a x h
    have hw := writeByte_wf m a (BitVec.ofNat 8 x) h
    rw [writeBytes, readBytes, ih _ _ _ hw, readByte_writeBytes_other n _ _ _ _ hw (by omega), readByte_writeByte_same m a _ h]
    simp only [BitVec.toNat_ofNat, Nat.reducePow]
    rw [show 8 * (n + 1) = 8 + 8 * n by omega, Nat.pow_add, Nat.mod_mul]

/-! ## Sets -/

/-- A number put into a set is in it, and nothing else has come or gone. -/
theorem mem_setInsert (l : List Nat) (i j : Nat) : j ∈ setInsert l i ↔ j = i ∨ j ∈ l := by
  induction l with
  | nil => simp [setInsert]
  | cons k t ih =>
    unfold setInsert
    split
    · rename_i h; subst h; simp
    · split
      · simp
      · simp only [List.mem_cons, ih]; tauto

end Sys2Proof.Machine
end

