-- ==== Sys2Proof/Laws/Bytes.lean ====
section
/-!
SUPPORT. Bytes of lines and of chunks: merging under a mask, and what a chunk reads as after bytes are put into it.
-/

namespace Sys2Proof.Machine

/-- A byte of a line as a number. -/
theorem lineByte_toNat (d : LineData) (i : Nat) : (lineByte d i).toNat = d.toNat / 2 ^ (8 * i) % 2 ^ 8 := by
  rw [lineByte, BitVec.extractLsb'_toNat, Nat.shiftRight_eq_div_pow]

/-- A byte of a number cut to a line. -/
theorem byte_of_line (x : Nat) {i : Nat} (h : i < 128) : x % 2 ^ 1024 / 2 ^ (8 * i) % 2 ^ 8 = x / 2 ^ (8 * i) % 2 ^ 8 := by
  obtain ⟨k, hk⟩ : 2 ^ (8 * i) * 2 ^ 8 ∣ 2 ^ 1024 := by rw [← Nat.pow_add]; exact Nat.pow_dvd_pow 2 (by omega)
  rw [hk, Nat.mul_assoc, Nat.mod_mul_right_div_self, Nat.mod_mul_right_mod]

/-- Byte i of a packed line. -/
theorem lineByte_packNat (l : List Nat) {i : Nat} (h : i < 128) :
    lineByte (BitVec.ofNat 1024 (packNat 8 l)) i = BitVec.ofNat 8 (l.getD i 0) := by
  apply BitVec.eq_of_toNat_eq
  rw [lineByte_toNat, BitVec.toNat_ofNat, BitVec.toNat_ofNat, ← packNat_lane, byte_of_line _ h]

/-- Merging takes the bytes under the mask. -/
theorem lineByte_maskMerge (old new : LineData) (m : LineMask) {i : Nat} (h : i < 128) :
    lineByte (maskMerge old new m) i = if m.getLsbD i then lineByte new i else lineByte old i := by
  rw [maskMerge, lineByte_packNat _ h]
  simp only [List.getD_eq_getElem?_getD, List.getElem?_map, List.getElem?_range h, Option.map_some, Option.getD_some]
  apply BitVec.eq_of_toNat_eq
  split <;> simp [lineByte_toNat, Nat.shiftRight_eq_div_pow]

/-- The mask of n bytes at an address inside one line. -/
theorem byteMask_getLsbD (pa n : Nat) {i : Nat} (h : pa % 128 + n ≤ 128) (hi : i < 128) :
    (byteMask pa n).getLsbD i = decide (pa % 128 ≤ i ∧ i < pa % 128 + n) := by
  have e : byteMask pa n = BitVec.ofNat 128 (2 ^ n - 1) <<< (pa % 128) := by
    rw [byteMask]; congr 1
    apply BitVec.eq_of_toNat_eq
    have h0 : 0 < 2 ^ n := by positivity
    rcases Nat.lt_or_ge n 128 with hn | hn
    · have : 2 ^ n < 2 ^ 128 := Nat.pow_lt_pow_right (by norm_num) hn
      simp [BitVec.toNat_sub, Nat.shiftLeft_eq]
      omega
    · have : n = 128 := by omega
      subst this; decide
  have h1 : (BitVec.ofNat 128 (2 ^ n - 1)).getLsbD (i - pa % 128) = decide (i - pa % 128 < n) := by
    rw [BitVec.getLsbD_ofNat, Nat.testBit_two_pow_sub_one]
    have : i - pa % 128 < 128 := by omega
    simp [this]
  rw [e, BitVec.getLsbD_shiftLeft, h1]
  by_cases hlo : i < pa % 128
  · have : ¬ pa % 128 ≤ i := by omega
    simp [hlo, this]
  · have h2 : pa % 128 ≤ i := by omega
    have h3 : i - pa % 128 < n ↔ i < pa % 128 + n := by omega
    simp [hi, hlo, h2, h3]

/-- A value in its place in a line. -/
theorem lineByte_inLine (pa v : Nat) {i : Nat} (hi : i < 128) (h : pa % 128 ≤ i) :
    lineByte (inLine pa v) i = BitVec.ofNat 8 (v / 2 ^ (8 * (i - pa % 128))) := by
  apply BitVec.eq_of_toNat_eq
  rw [lineByte_toNat, inLine, BitVec.toNat_ofNat, BitVec.toNat_ofNat, Nat.shiftLeft_eq, byte_of_line _ hi]
  have e : 2 ^ (8 * i) = 2 ^ (8 * (pa % 128)) * 2 ^ (8 * (i - pa % 128)) := by
    rw [← Nat.pow_add]; congr 1; omega
  rw [e, ← Nat.div_div_eq_div_mul, Nat.mul_div_cancel _ (by positivity)]

/-! ## Bytes of a chunk -/

/-- A chunk after n bytes have been put into it reads the new bytes there, and elsewhere as before. -/
theorem chunkByte_putBytes (c : Chunk) (pa v n b : Nat) (h : pa % 128 + n ≤ 128) :
    chunkByte (putBytes c pa v n) b =
      if pa ≤ b ∧ b < pa + n then some (BitVec.ofNat 8 (v / 2 ^ (8 * (b - pa)))) else chunkByte c b := by
  have hb : b % 128 < 128 := Nat.mod_lt _ (by norm_num)
  by_cases hl : b / 128 = pa / 128
  · have hin : (pa ≤ b ∧ b < pa + n) ↔ (pa % 128 ≤ b % 128 ∧ b % 128 < pa % 128 + n) := by omega
    have hs : b - pa = b % 128 - pa % 128 := by omega
    simp only [chunkByte, chunkLine, putBytes, hl, tabGet_insert_same]
    rw [BitVec.getLsbD_or, byteMask_getLsbD pa n h hb, lineByte_maskMerge _ _ _ hb, byteMask_getLsbD pa n h hb]
    by_cases hc : pa % 128 ≤ b % 128 ∧ b % 128 < pa % 128 + n
    · rw [if_pos (hin.2 hc), hs]
      simp only [hc, and_self, decide_true, Bool.or_true, if_true]
      rw [lineByte_inLine pa v hb hc.1]
    · rw [if_neg (mt hin.1 hc)]
      simp [hc]
  · have hin : ¬ (pa ≤ b ∧ b < pa + n) := by omega
    have e : chunkLine (putBytes c pa v n) (b / 128) = chunkLine c (b / 128) := tabGet_insert_other _ hl _ _
    rw [if_neg hin, chunkByte, chunkByte]
    simp only [e]

/-- The same for what the moving hart's chunks hold. -/
theorem specByte_putBytes (x : Hart) (pa v n b : Nat) (h : pa % 128 + n ≤ 128) :
    specByte { x with chunk := putBytes x.chunk pa v n } b =
      if pa ≤ b ∧ b < pa + n then some (BitVec.ofNat 8 (v / 2 ^ (8 * (b - pa)))) else specByte x b := by
  simp only [specByte, List.findSome?_cons, chunkByte_putBytes _ _ _ _ _ h]
  by_cases hc : pa ≤ b ∧ b < pa + n
  · simp [hc]
  · simp [hc]

end Sys2Proof.Machine
end

