-- ==== Sys2Proof/Laws/Exec.lean ====
section
/-!
SUPPORT. One lemma per instruction: its meaning. Later proofs rewrite with these and never unfold the dispatch.
-/

namespace Sys2Proof.Machine

@[simp] theorem exec_add {c rd ra rb} (s : State) : exec (.add c rd ra rb) s = execAdd c rd ra rb s := rfl
@[simp] theorem exec_sub {c rd ra rb} (s : State) : exec (.sub c rd ra rb) s = execSub c rd ra rb s := rfl
@[simp] theorem exec_mul {c rd ra rb} (s : State) : exec (.mul c rd ra rb) s = execMul c rd ra rb s := rfl
@[simp] theorem exec_mulh {c rd ra rb} (s : State) : exec (.mulh c rd ra rb) s = execMulh c rd ra rb s := rfl
@[simp] theorem exec_mulhu {c rd ra rb} (s : State) : exec (.mulhu c rd ra rb) s = execMulhu c rd ra rb s := rfl
@[simp] theorem exec_madd {c rd ra rb rc} (s : State) : exec (.madd c rd ra rb rc) s = execMadd c rd ra rb rc s := rfl
@[simp] theorem exec_div {c rd ra rb} (s : State) : exec (.div c rd ra rb) s = execDiv c rd ra rb s := rfl
@[simp] theorem exec_divu {c rd ra rb} (s : State) : exec (.divu c rd ra rb) s = execDivu c rd ra rb s := rfl
@[simp] theorem exec_rem {c rd ra rb} (s : State) : exec (.rem c rd ra rb) s = execRem c rd ra rb s := rfl
@[simp] theorem exec_remu {c rd ra rb} (s : State) : exec (.remu c rd ra rb) s = execRemu c rd ra rb s := rfl
@[simp] theorem exec_and {c rd ra rb} (s : State) : exec (.and c rd ra rb) s = execAnd c rd ra rb s := rfl
@[simp] theorem exec_or {c rd ra rb} (s : State) : exec (.or c rd ra rb) s = execOr c rd ra rb s := rfl
@[simp] theorem exec_xor {c rd ra rb} (s : State) : exec (.xor c rd ra rb) s = execXor c rd ra rb s := rfl
@[simp] theorem exec_andn {c rd ra rb} (s : State) : exec (.andn c rd ra rb) s = execAndn c rd ra rb s := rfl
@[simp] theorem exec_orn {c rd ra rb} (s : State) : exec (.orn c rd ra rb) s = execOrn c rd ra rb s := rfl
@[simp] theorem exec_sll {c rd ra rb} (s : State) : exec (.sll c rd ra rb) s = execSll c rd ra rb s := rfl
@[simp] theorem exec_srl {c rd ra rb} (s : State) : exec (.srl c rd ra rb) s = execSrl c rd ra rb s := rfl
@[simp] theorem exec_sra {c rd ra rb} (s : State) : exec (.sra c rd ra rb) s = execSra c rd ra rb s := rfl
@[simp] theorem exec_rol {c rd ra rb} (s : State) : exec (.rol c rd ra rb) s = execRol c rd ra rb s := rfl
@[simp] theorem exec_ror {c rd ra rb} (s : State) : exec (.ror c rd ra rb) s = execRor c rd ra rb s := rfl
@[simp] theorem exec_min {c rd ra rb} (s : State) : exec (.min c rd ra rb) s = execMin c rd ra rb s := rfl
@[simp] theorem exec_max {c rd ra rb} (s : State) : exec (.max c rd ra rb) s = execMax c rd ra rb s := rfl
@[simp] theorem exec_minu {c rd ra rb} (s : State) : exec (.minu c rd ra rb) s = execMinu c rd ra rb s := rfl
@[simp] theorem exec_maxu {c rd ra rb} (s : State) : exec (.maxu c rd ra rb) s = execMaxu c rd ra rb s := rfl
@[simp] theorem exec_clz {c rd ra} (s : State) : exec (.clz c rd ra) s = execClz c rd ra s := rfl
@[simp] theorem exec_ctz {c rd ra} (s : State) : exec (.ctz c rd ra) s = execCtz c rd ra s := rfl
@[simp] theorem exec_popc {c rd ra} (s : State) : exec (.popc c rd ra) s = execPopc c rd ra s := rfl
@[simp] theorem exec_bswap {c rd ra} (s : State) : exec (.bswap c rd ra) s = execBswap c rd ra s := rfl
@[simp] theorem exec_sext {c rd ra n1} (s : State) : exec (.sext c rd ra n1) s = execSext c rd ra n1 s := rfl
@[simp] theorem exec_zext {c rd ra n1} (s : State) : exec (.zext c rd ra n1) s = execZext c rd ra n1 s := rfl
@[simp] theorem exec_bfx {c rd ra sg pos len1} (s : State) : exec (.bfx c rd ra sg pos len1) s = execBfx c rd ra sg pos len1 s := rfl
@[simp] theorem exec_bfi {c rd ra pos len1} (s : State) : exec (.bfi c rd ra pos len1) s = execBfi c rd ra pos len1 s := rfl
@[simp] theorem exec_addsh {c rd ra rb sh} (s : State) : exec (.addsh c rd ra rb sh) s = execAddsh c rd ra rb sh s := rfl
@[simp] theorem exec_sel {c rd pn ra rb} (s : State) : exec (.sel c rd pn ra rb) s = execSel c rd pn ra rb s := rfl
@[simp] theorem exec_cmp {c cond pd ra rb} (s : State) : exec (.cmp c cond pd ra rb) s = execCmp c cond pd ra rb s := rfl
@[simp] theorem exec_plog {c op pd pa pb} (s : State) : exec (.plog c op pd pa pb) s = execPlog c op pd pa pb s := rfl
@[simp] theorem exec_fadd {c t m rd ra rb} (s : State) : exec (.fadd c t m rd ra rb) s = execFadd c t m rd ra rb s := rfl
@[simp] theorem exec_fsub {c t m rd ra rb} (s : State) : exec (.fsub c t m rd ra rb) s = execFsub c t m rd ra rb s := rfl
@[simp] theorem exec_fmul {c t m rd ra rb} (s : State) : exec (.fmul c t m rd ra rb) s = execFmul c t m rd ra rb s := rfl
@[simp] theorem exec_fma {c t m rd ra rb rc} (s : State) : exec (.fma c t m rd ra rb rc) s = execFma c t m rd ra rb rc s := rfl
@[simp] theorem exec_fdiv {c t m rd ra rb} (s : State) : exec (.fdiv c t m rd ra rb) s = execFdiv c t m rd ra rb s := rfl
@[simp] theorem exec_fsqrt {c t m rd ra} (s : State) : exec (.fsqrt c t m rd ra) s = execFsqrt c t m rd ra s := rfl
@[simp] theorem exec_fmin {c t rd ra rb} (s : State) : exec (.fmin c t rd ra rb) s = execFmin c t rd ra rb s := rfl
@[simp] theorem exec_fmax {c t rd ra rb} (s : State) : exec (.fmax c t rd ra rb) s = execFmax c t rd ra rb s := rfl
@[simp] theorem exec_fcmp {c t cond pd ra rb} (s : State) : exec (.fcmp c t cond pd ra rb) s = execFcmp c t cond pd ra rb s := rfl
@[simp] theorem exec_fcvt {c t m src rd ra} (s : State) : exec (.fcvt c t m src rd ra) s = execFcvt c t m src rd ra s := rfl
@[simp] theorem exec_fclass {c t rd ra} (s : State) : exec (.fclass c t rd ra) s = execFclass c t rd ra s := rfl
@[simp] theorem exec_addi {c rd ra imm} (s : State) : exec (.addi c rd ra imm) s = execAddi c rd ra imm s := rfl
@[simp] theorem exec_andi {c rd ra imm} (s : State) : exec (.andi c rd ra imm) s = execAndi c rd ra imm s := rfl
@[simp] theorem exec_ori {c rd ra imm} (s : State) : exec (.ori c rd ra imm) s = execOri c rd ra imm s := rfl
@[simp] theorem exec_xori {c rd ra imm} (s : State) : exec (.xori c rd ra imm) s = execXori c rd ra imm s := rfl
@[simp] theorem exec_slli {c rd ra sh} (s : State) : exec (.slli c rd ra sh) s = execSlli c rd ra sh s := rfl
@[simp] theorem exec_srli {c rd ra sh} (s : State) : exec (.srli c rd ra sh) s = execSrli c rd ra sh s := rfl
@[simp] theorem exec_srai {c rd ra sh} (s : State) : exec (.srai c rd ra sh) s = execSrai c rd ra sh s := rfl
@[simp] theorem exec_muli {c rd ra imm} (s : State) : exec (.muli c rd ra imm) s = execMuli c rd ra imm s := rfl
@[simp] theorem exec_cmpi {c cond pd ra imm} (s : State) : exec (.cmpi c cond pd ra imm) s = execCmpi c cond pd ra imm s := rfl
@[simp] theorem exec_li {c rd imm} (s : State) : exec (.li c rd imm) s = execLi c rd imm s := rfl
@[simp] theorem exec_lui {c rd imm} (s : State) : exec (.lui c rd imm) s = execLui c rd imm s := rfl
@[simp] theorem exec_lpc {c rd imm} (s : State) : exec (.lpc c rd imm) s = execLpc c rd imm s := rfl
@[simp] theorem exec_br {c off} (s : State) : exec (.br c off) s = execBr c off s := rfl
@[simp] theorem exec_call {c rl off} (s : State) : exec (.call c rl off) s = execCall c rl off s := rfl
@[simp] theorem exec_callr {c rl rt} (s : State) : exec (.callr c rl rt) s = execCallr c rl rt s := rfl
@[simp] theorem exec_jr {c rt} (s : State) : exec (.jr c rt) s = execJr c rt s := rfl
@[simp] theorem exec_ret {c rt} (s : State) : exec (.ret c rt) s = execRet c rt s := rfl
@[simp] theorem exec_ld {c rd rb sz sg off} (s : State) : exec (.ld c rd rb sz sg off) s = execLd c rd rb sz sg off s := rfl
@[simp] theorem exec_st {c rs rb sz off} (s : State) : exec (.st c rs rb sz off) s = execSt c rs rb sz off s := rfl
@[simp] theorem exec_ldx {c rd rb rx sz sg n} (s : State) : exec (.ldx c rd rb rx sz sg n) s = execLdx c rd rb rx sz sg n s := rfl
@[simp] theorem exec_stx {c rs rb rx sz n} (s : State) : exec (.stx c rs rb rx sz n) s = execStx c rs rb rx sz n s := rfl
@[simp] theorem exec_lda {c rd rb sz sg sc off} (s : State) : exec (.lda c rd rb sz sg sc off) s = execLda c rd rb sz sg sc off s := rfl
@[simp] theorem exec_strl {c rs rb sz sc off} (s : State) : exec (.strl c rs rb sz sc off) s = execStrl c rs rb sz sc off s := rfl
@[simp] theorem exec_ldp {c rd rb sz sg off} (s : State) : exec (.ldp c rd rb sz sg off) s = execLdp c rd rb sz sg off s := rfl
@[simp] theorem exec_stp {c rs rb sz off} (s : State) : exec (.stp c rs rb sz off) s = execStp c rs rb sz off s := rfl
@[simp] theorem exec_prf {c w rb off} (s : State) : exec (.prf c w rb off) s = execPrf c w rb off s := rfl
@[simp] theorem exec_amo {c op rd rs rb sz sg sc} (s : State) : exec (.amo c op rd rs rb sz sg sc) s = execAmo c op rd rs rb sz sg sc s := rfl
@[simp] theorem exec_cas {c rd rc rn rb sz sg sc} (s : State) : exec (.cas c rd rc rn rb sz sg sc) s = execCas c rd rc rn rb sz sg sc s := rfl
@[simp] theorem exec_casp {c rd rc rn rb sc} (s : State) : exec (.casp c rd rc rn rb sc) s = execCasp c rd rc rn rb sc s := rfl
@[simp] theorem exec_fence {c sc} (s : State) : exec (.fence c sc) s = execFence c sc s := rfl
@[simp] theorem exec_sysfence {c rd} (s : State) : exec (.sysfence c rd) s = execSysfence c rd s := rfl
@[simp] theorem exec_cwb {c rb sc off} (s : State) : exec (.cwb c rb sc off) s = execCwb c rb sc off s := rfl
@[simp] theorem exec_cinv {c rb sc off} (s : State) : exec (.cinv c rb sc off) s = execCinv c rb sc off s := rfl
@[simp] theorem exec_cwbi {c rb sc off} (s : State) : exec (.cwbi c rb sc off) s = execCwbi c rb sc off s := rfl
@[simp] theorem exec_czero {c rb off} (s : State) : exec (.czero c rb off) s = execCzero c rb off s := rfl
@[simp] theorem exec_epush {c rs rb off} (s : State) : exec (.epush c rs rb off) s = execEpush c rs rb off s := rfl
@[simp] theorem exec_epop {c rd rb off} (s : State) : exec (.epop c rd rb off) s = execEpop c rd rb off s := rfl
@[simp] theorem exec_epeek {c rd rb off} (s : State) : exec (.epeek c rd rb off) s = execEpeek c rd rb off s := rfl
@[simp] theorem exec_mst {c rs rb sz off} (s : State) : exec (.mst c rs rb sz off) s = execMst c rs rb sz off s := rfl
@[simp] theorem exec_mamo {c op rd rs rb sz sg} (s : State) : exec (.mamo c op rd rs rb sz sg) s = execMamo c op rd rs rb sz sg s := rfl
@[simp] theorem exec_mseq {c rd rb} (s : State) : exec (.mseq c rd rb) s = execMseq c rd rb s := rfl
@[simp] theorem exec_vld {c vd rb off} (s : State) : exec (.vld c vd rb off) s = execVld c vd rb off s := rfl
@[simp] theorem exec_vst {c vs rb off} (s : State) : exec (.vst c vs rb off) s = execVst c vs rb off s := rfl
@[simp] theorem exec_vlds {c m vd rb rs sz} (s : State) : exec (.vlds c m vd rb rs sz) s = execVlds c m vd rb rs sz s := rfl
@[simp] theorem exec_vsts {c pm vs rb rs sz} (s : State) : exec (.vsts c pm vs rb rs sz) s = execVsts c pm vs rb rs sz s := rfl
@[simp] theorem exec_vldx {c m vd rb vi sz n} (s : State) : exec (.vldx c m vd rb vi sz n) s = execVldx c m vd rb vi sz n s := rfl
@[simp] theorem exec_vstx {c pm vs rb vi sz n} (s : State) : exec (.vstx c pm vs rb vi sz n) s = execVstx c pm vs rb vi sz n s := rfl
@[simp] theorem exec_vldseg {c vd rb sz k1 off} (s : State) : exec (.vldseg c vd rb sz k1 off) s = execVldseg c vd rb sz k1 off s := rfl
@[simp] theorem exec_vstseg {c vs rb sz k1 off} (s : State) : exec (.vstseg c vs rb sz k1 off) s = execVstseg c vs rb sz k1 off s := rfl
@[simp] theorem exec_vldb {c vd rb sz off} (s : State) : exec (.vldb c vd rb sz off) s = execVldb c vd rb sz off s := rfl
@[simp] theorem exec_vldf {c vd rb sz off} (s : State) : exec (.vldf c vd rb sz off) s = execVldf c vd rb sz off s := rfl
@[simp] theorem exec_vadd {c m t w vd va vb} (s : State) : exec (.vadd c m t w vd va vb) s = execVadd c m t w vd va vb s := rfl
@[simp] theorem exec_vsub {c m t w vd va vb} (s : State) : exec (.vsub c m t w vd va vb) s = execVsub c m t w vd va vb s := rfl
@[simp] theorem exec_vmul {c m t w vd va vb} (s : State) : exec (.vmul c m t w vd va vb) s = execVmul c m t w vd va vb s := rfl
@[simp] theorem exec_vmulh {c m t vd va vb} (s : State) : exec (.vmulh c m t vd va vb) s = execVmulh c m t vd va vb s := rfl
@[simp] theorem exec_vmadd {c m t w vd va vb vc} (s : State) : exec (.vmadd c m t w vd va vb vc) s = execVmadd c m t w vd va vb vc s := rfl
@[simp] theorem exec_vaddsat {c m t vd va vb} (s : State) : exec (.vaddsat c m t vd va vb) s = execVaddsat c m t vd va vb s := rfl
@[simp] theorem exec_vsubsat {c m t vd va vb} (s : State) : exec (.vsubsat c m t vd va vb) s = execVsubsat c m t vd va vb s := rfl
@[simp] theorem exec_vmin {c m t vd va vb} (s : State) : exec (.vmin c m t vd va vb) s = execVmin c m t vd va vb s := rfl
@[simp] theorem exec_vmax {c m t vd va vb} (s : State) : exec (.vmax c m t vd va vb) s = execVmax c m t vd va vb s := rfl
@[simp] theorem exec_vabs {c m t vd va} (s : State) : exec (.vabs c m t vd va) s = execVabs c m t vd va s := rfl
@[simp] theorem exec_vand {c m t vd va vb} (s : State) : exec (.vand c m t vd va vb) s = execVand c m t vd va vb s := rfl
@[simp] theorem exec_vor {c m t vd va vb} (s : State) : exec (.vor c m t vd va vb) s = execVor c m t vd va vb s := rfl
@[simp] theorem exec_vxor {c m t vd va vb} (s : State) : exec (.vxor c m t vd va vb) s = execVxor c m t vd va vb s := rfl
@[simp] theorem exec_vandn {c m t vd va vb} (s : State) : exec (.vandn c m t vd va vb) s = execVandn c m t vd va vb s := rfl
@[simp] theorem exec_vshl {c m t imm vd va amt} (s : State) : exec (.vshl c m t imm vd va amt) s = execVshl c m t imm vd va amt s := rfl
@[simp] theorem exec_vshr {c m t imm vd va amt} (s : State) : exec (.vshr c m t imm vd va amt) s = execVshr c m t imm vd va amt s := rfl
@[simp] theorem exec_vsra {c m t imm vd va amt} (s : State) : exec (.vsra c m t imm vd va amt) s = execVsra c m t imm vd va amt s := rfl
@[simp] theorem exec_vcmp {c m t cond pd va vb} (s : State) : exec (.vcmp c m t cond pd va vb) s = execVcmp c m t cond pd va vb s := rfl
@[simp] theorem exec_vsel {c m t pn vd va vb} (s : State) : exec (.vsel c m t pn vd va vb) s = execVsel c m t pn vd va vb s := rfl
@[simp] theorem exec_vpopc {c m t vd va} (s : State) : exec (.vpopc c m t vd va) s = execVpopc c m t vd va s := rfl
@[simp] theorem exec_vfadd {c m t rm w vd va vb} (s : State) : exec (.vfadd c m t rm w vd va vb) s = execVfadd c m t rm w vd va vb s := rfl
@[simp] theorem exec_vfsub {c m t rm w vd va vb} (s : State) : exec (.vfsub c m t rm w vd va vb) s = execVfsub c m t rm w vd va vb s := rfl
@[simp] theorem exec_vfmul {c m t rm w vd va vb} (s : State) : exec (.vfmul c m t rm w vd va vb) s = execVfmul c m t rm w vd va vb s := rfl
@[simp] theorem exec_vfma {c m t rm w vd va vb vc} (s : State) : exec (.vfma c m t rm w vd va vb vc) s = execVfma c m t rm w vd va vb vc s := rfl
@[simp] theorem exec_vfdiv {c m t rm vd va vb} (s : State) : exec (.vfdiv c m t rm vd va vb) s = execVfdiv c m t rm vd va vb s := rfl
@[simp] theorem exec_vfsqrt {c m t rm vd va} (s : State) : exec (.vfsqrt c m t rm vd va) s = execVfsqrt c m t rm vd va s := rfl
@[simp] theorem exec_vfmin {c m t vd va vb} (s : State) : exec (.vfmin c m t vd va vb) s = execVfmin c m t vd va vb s := rfl
@[simp] theorem exec_vfmax {c m t vd va vb} (s : State) : exec (.vfmax c m t vd va vb) s = execVfmax c m t vd va vb s := rfl
@[simp] theorem exec_vfcmp {c m t cond pd va vb} (s : State) : exec (.vfcmp c m t cond pd va vb) s = execVfcmp c m t cond pd va vb s := rfl
@[simp] theorem exec_vfabs {c m t vd va} (s : State) : exec (.vfabs c m t vd va) s = execVfabs c m t vd va s := rfl
@[simp] theorem exec_vfneg {c m t vd va} (s : State) : exec (.vfneg c m t vd va) s = execVfneg c m t vd va s := rfl
@[simp] theorem exec_vrcp {c m rm vd va} (s : State) : exec (.vrcp c m rm vd va) s = execVrcp c m rm vd va s := rfl
@[simp] theorem exec_vrsqrt {c m rm vd va} (s : State) : exec (.vrsqrt c m rm vd va) s = execVrsqrt c m rm vd va s := rfl
@[simp] theorem exec_vexp2 {c m rm vd va} (s : State) : exec (.vexp2 c m rm vd va) s = execVexp2 c m rm vd va s := rfl
@[simp] theorem exec_vlog2 {c m rm vd va} (s : State) : exec (.vlog2 c m rm vd va) s = execVlog2 c m rm vd va s := rfl
@[simp] theorem exec_vsin {c m rm vd va} (s : State) : exec (.vsin c m rm vd va) s = execVsin c m rm vd va s := rfl
@[simp] theorem exec_vcos {c m rm vd va} (s : State) : exec (.vcos c m rm vd va) s = execVcos c m rm vd va s := rfl
@[simp] theorem exec_vtanh {c m rm vd va} (s : State) : exec (.vtanh c m rm vd va) s = execVtanh c m rm vd va s := rfl
@[simp] theorem exec_vcvt {c m t rm src vd va} (s : State) : exec (.vcvt c m t rm src vd va) s = execVcvt c m t rm src vd va s := rfl
@[simp] theorem exec_vwiden {c m t src vd va} (s : State) : exec (.vwiden c m t src vd va) s = execVwiden c m t src vd va s := rfl
@[simp] theorem exec_vnarrow {c m t f src vd va} (s : State) : exec (.vnarrow c m t f src vd va) s = execVnarrow c m t f src vd va s := rfl
@[simp] theorem exec_vpack {c t b vd va vb} (s : State) : exec (.vpack c t b vd va vb) s = execVpack c t b vd va vb s := rfl
@[simp] theorem exec_vunpack {c m t b q vd va} (s : State) : exec (.vunpack c m t b q vd va) s = execVunpack c m t b q vd va s := rfl
@[simp] theorem exec_vredadd {c pm t src vd va vi} (s : State) : exec (.vredadd c pm t src vd va vi) s = execVredadd c pm t src vd va vi s := rfl
@[simp] theorem exec_vredmin {c pm t vd va vi} (s : State) : exec (.vredmin c pm t vd va vi) s = execVredmin c pm t vd va vi s := rfl
@[simp] theorem exec_vredmax {c pm t vd va vi} (s : State) : exec (.vredmax c pm t vd va vi) s = execVredmax c pm t vd va vi s := rfl
@[simp] theorem exec_vfredadd {c pm t rm src vd va vi} (s : State) : exec (.vfredadd c pm t rm src vd va vi) s = execVfredadd c pm t rm src vd va vi s := rfl
@[simp] theorem exec_vfredmax {c pm t vd va vi} (s : State) : exec (.vfredmax c pm t vd va vi) s = execVfredmax c pm t vd va vi s := rfl
@[simp] theorem exec_vscan {c m t rm vd va vi} (s : State) : exec (.vscan c m t rm vd va vi) s = execVscan c m t rm vd va vi s := rfl
@[simp] theorem exec_vperm {c m t vd va vb vi} (s : State) : exec (.vperm c m t vd va vb vi) s = execVperm c m t vd va vb vi s := rfl
@[simp] theorem exec_vslide {c m t vd va vb n} (s : State) : exec (.vslide c m t vd va vb n) s = execVslide c m t vd va vb n s := rfl
@[simp] theorem exec_vrot {c m t vd va n} (s : State) : exec (.vrot c m t vd va n) s = execVrot c m t vd va n s := rfl
@[simp] theorem exec_vzip {c m t hi vd va vb} (s : State) : exec (.vzip c m t hi vd va vb) s = execVzip c m t hi vd va vb s := rfl
@[simp] theorem exec_vunzip {c m t odd vd va vb} (s : State) : exec (.vunzip c m t odd vd va vb) s = execVunzip c m t odd vd va vb s := rfl
@[simp] theorem exec_vcompress {c m t vd va} (s : State) : exec (.vcompress c m t vd va) s = execVcompress c m t vd va s := rfl
@[simp] theorem exec_vexpand {c m t vd va} (s : State) : exec (.vexpand c m t vd va) s = execVexpand c m t vd va s := rfl
@[simp] theorem exec_vbcast {c m t fromG vd src n} (s : State) : exec (.vbcast c m t fromG vd src n) s = execVbcast c m t fromG vd src n s := rfl
@[simp] theorem exec_vins {c t vd ra n} (s : State) : exec (.vins c t vd ra n) s = execVins c t vd ra n s := rfl
@[simp] theorem exec_vext {c t rd va n} (s : State) : exec (.vext c t rd va n) s = execVext c t rd va n s := rfl
@[simp] theorem exec_vdot4 {c m t src mix vd va vb} (s : State) : exec (.vdot4 c m t src mix vd va vb) s = execVdot4 c m t src mix vd va vb s := rfl
@[simp] theorem exec_vhist {c pm t q vg va} (s : State) : exec (.vhist c pm t q vg va) s = execVhist c pm t q vg va s := rfl
@[simp] theorem exec_vhmerge {c m acc vd vg} (s : State) : exec (.vhmerge c m acc vd vg) s = execVhmerge c m acc vd vg s := rfl
@[simp] theorem exec_vsortk {c m t desc vd va vi} (s : State) : exec (.vsortk c m t desc vd va vi) s = execVsortk c m t desc vd va vi s := rfl
@[simp] theorem exec_vmask {c m t sign pd va} (s : State) : exec (.vmask c m t sign pd va) s = execVmask c m t sign pd va s := rfl
@[simp] theorem exec_tcfg {c h rows1 rb f desc force} (s : State) : exec (.tcfg c h rows1 rb f desc force) s = execTcfg c h rows1 rb f desc force s := rfl
@[simp] theorem exec_tzero {c h} (s : State) : exec (.tzero c h) s = execTzero c h s := rfl
@[simp] theorem exec_tld {c h rb rs f chk rc scale} (s : State) : exec (.tld c h rb rs f chk rc scale) s = execTld c h rb rs f chk rc scale s := rfl
@[simp] theorem exec_tst {c h rb rs f chk rc} (s : State) : exec (.tst c h rb rs f chk rc) s = execTst c h rb rs f chk rc s := rfl
@[simp] theorem exec_tldd {c h rb rs rdsc rc f chk} (s : State) : exec (.tldd c h rb rs rdsc rc f chk) s = execTldd c h rb rs rdsc rc f chk s := rfl
@[simp] theorem exec_tstd {c h rb rs rdsc rc f chk} (s : State) : exec (.tstd c h rb rs rdsc rc f chk) s = execTstd c h rb rs rdsc rc f chk s := rfl
@[simp] theorem exec_tqst {c h rb rs q auto re f col k cont} (s : State) : exec (.tqst c h rb rs q auto re f col k cont) s = execTqst c h rb rs q auto re f col k cont s := rfl
@[simp] theorem exec_tmma {c hc ha hb} (s : State) : exec (.tmma c hc ha hb) s = execTmma c hc ha hb s := rfl
@[simp] theorem exec_tmmat {c hc ha hb rfill fill diag} (s : State) : exec (.tmmat c hc ha hb rfill fill diag) s = execTmmat c hc ha hb rfill fill diag s := rfl
@[simp] theorem exec_tadd {c hd ha hb m} (s : State) : exec (.tadd c hd ha hb m) s = execTadd c hd ha hb m s := rfl
@[simp] theorem exec_tscale {c hd ha rs m} (s : State) : exec (.tscale c hd ha rs m) s = execTscale c hd ha rs m s := rfl
@[simp] theorem exec_tcvt {c hd ha m sat} (s : State) : exec (.tcvt c hd ha m sat) s = execTcvt c hd ha m sat s := rfl
@[simp] theorem exec_ttrans {c hd ha} (s : State) : exec (.ttrans c hd ha) s = execTtrans c hd ha s := rfl
@[simp] theorem exec_tmov {c hd ha} (s : State) : exec (.tmov c hd ha) s = execTmov c hd ha s := rfl
@[simp] theorem exec_trow {c h v ri toV} (s : State) : exec (.trow c h v ri toV) s = execTrow c h v ri toV s := rfl
@[simp] theorem exec_trowi {c h v i toV} (s : State) : exec (.trowi c h v i toV) s = execTrowi c h v i toV s := rfl
@[simp] theorem exec_tred {c v ha m max col} (s : State) : exec (.tred c v ha m max col) s = execTred c v ha m max col s := rfl
@[simp] theorem exec_trel {c h} (s : State) : exec (.trel c h) s = execTrel c h s := rfl
@[simp] theorem exec_tinfo {c rd h} (s : State) : exec (.tinfo c rd h) s = execTinfo c rd h s := rfl
@[simp] theorem exec_tsave {c h rb} (s : State) : exec (.tsave c h rb) s = execTsave c h rb s := rfl
@[simp] theorem exec_trest {c h rb} (s : State) : exec (.trest c h rb) s = execTrest c h rb s := rfl
@[simp] theorem exec_qcclr {c mask} (s : State) : exec (.qcclr c mask) s = execQcclr c mask s := rfl
@[simp] theorem exec_qcrd {c v q} (s : State) : exec (.qcrd c v q) s = execQcrd c v q s := rfl
@[simp] theorem exec_qcwr {c v q} (s : State) : exec (.qcwr c v q) s = execQcwr c v q s := rfl
@[simp] theorem exec_spawn {c rd rpair rctl lo hi place} (s : State) : exec (.spawn c rd rpair rctl lo hi place) s = execSpawn c rd rpair rctl lo hi place s := rfl
@[simp] theorem exec_spawng {c rd rpair rrule rext hi place} (s : State) : exec (.spawng c rd rpair rrule rext hi place) s = execSpawng c rd rpair rrule rext hi place s := rfl
@[simp] theorem exec_exit {c} (s : State) : exec (.exit c) s = execExit c s := rfl
@[simp] theorem exec_task {c rd rdesc} (s : State) : exec (.task c rd rdesc) s = execTask c rd rdesc s := rfl
@[simp] theorem exec_taskw {c rd rdesc} (s : State) : exec (.taskw c rd rdesc) s = execTaskw c rd rdesc s := rfl
@[simp] theorem exec_waitc {c rctr la lb lc ld} (s : State) : exec (.waitc c rctr la lb lc ld) s = execWaitc c rctr la lb lc ld s := rfl
@[simp] theorem exec_bara {c rd b} (s : State) : exec (.bara c rd b) s = execBara c rd b s := rfl
@[simp] theorem exec_barw {c rt b} (s : State) : exec (.barw c rt b) s = execBarw c rt b s := rfl
@[simp] theorem exec_barinit {c rn b} (s : State) : exec (.barinit c rn b) s = execBarinit c rn b s := rfl
@[simp] theorem exec_yield {c} (s : State) : exec (.yield c) s = execYield c s := rfl
@[simp] theorem exec_uiret {c} (s : State) : exec (.uiret c) s = execUiret c s := rfl
@[simp] theorem exec_uien {c v} (s : State) : exec (.uien c v) s = execUien c v s := rfl
@[simp] theorem exec_csrr {c rd n} (s : State) : exec (.csrr c rd n) s = execCsrr c rd n s := rfl
@[simp] theorem exec_csrw {c rd rs n} (s : State) : exec (.csrw c rd rs n) s = execCsrw c rd rs n s := rfl
@[simp] theorem exec_csrs {c rd rs n} (s : State) : exec (.csrs c rd rs n) s = execCsrs c rd rs n s := rfl
@[simp] theorem exec_csrc {c rd rs n} (s : State) : exec (.csrc c rd rs n) s = execCsrc c rd rs n s := rfl
@[simp] theorem exec_ecall {c} (s : State) : exec (.ecall c) s = execEcall c s := rfl
@[simp] theorem exec_ebreak {c} (s : State) : exec (.ebreak c) s = execEbreak c s := rfl
@[simp] theorem exec_sret {c} (s : State) : exec (.sret c) s = execSret c s := rfl
@[simp] theorem exec_mret {c} (s : State) : exec (.mret c) s = execMret c s := rfl
@[simp] theorem exec_wfi {c} (s : State) : exec (.wfi c) s = execWfi c s := rfl
@[simp] theorem exec_tlbinv {c rasid raddr} (s : State) : exec (.tlbinv c rasid raddr) s = execTlbinv c rasid raddr s := rfl
@[simp] theorem exec_tlbinvAs {c rasid} (s : State) : exec (.tlbinvAs c rasid) s = execTlbinvAs c rasid s := rfl
@[simp] theorem exec_tlbinvall {c} (s : State) : exec (.tlbinvall c) s = execTlbinvall c s := rfl
@[simp] theorem exec_slotcfg {c rd rsel rval} (s : State) : exec (.slotcfg c rd rsel rval) s = execSlotcfg c rd rsel rval s := rfl
@[simp] theorem exec_vsavectx {c rb rh v p q other} (s : State) : exec (.vsavectx c rb rh v p q other) s = execVsavectx c rb rh v p q other s := rfl
@[simp] theorem exec_vrestctx {c rb rh v p q other} (s : State) : exec (.vrestctx c rb rh v p q other) s = execVrestctx c rb rh v p q other s := rfl
@[simp] theorem exec_chunkbrk {c} (s : State) : exec (.chunkbrk c) s = execChunkbrk c s := rfl
@[simp] theorem exec_halt {c} (s : State) : exec (.halt c) s = execHalt c s := rfl
@[simp] theorem exec_copy {h cmd} (s : State) : exec (.copy h cmd) s = execCopy h cmd s := rfl
@[simp] theorem exec_copy2d {h cmd} (s : State) : exec (.copy2d h cmd) s = execCopy2d h cmd s := rfl
@[simp] theorem exec_gather {h cmd} (s : State) : exec (.gather h cmd) s = execGather h cmd s := rfl
@[simp] theorem exec_scatter {h cmd} (s : State) : exec (.scatter h cmd) s = execScatter h cmd s := rfl
@[simp] theorem exec_fill {h cmd} (s : State) : exec (.fill h cmd) s = execFill h cmd s := rfl
@[simp] theorem exec_rowcopy {h cmd} (s : State) : exec (.rowcopy h cmd) s = execRowcopy h cmd s := rfl
@[simp] theorem exec_rowinit {h cmd} (s : State) : exec (.rowinit h cmd) s = execRowinit h cmd s := rfl
@[simp] theorem exec_mcopy {h cmd} (s : State) : exec (.mcopy h cmd) s = execMcopy h cmd s := rfl
@[simp] theorem exec_shload {h cmd} (s : State) : exec (.shload h cmd) s = execShload h cmd s := rfl
@[simp] theorem exec_save {h cmd} (s : State) : exec (.save h cmd) s = execSave h cmd s := rfl
@[simp] theorem exec_restore {h cmd} (s : State) : exec (.restore h cmd) s = execRestore h cmd s := rfl
@[simp] theorem exec_rowBlockStep (s : State) : exec .rowBlockStep s = execRowBlockStep s := rfl
@[simp] theorem exec_chunkPresent (s : State) : exec .chunkPresent s = execChunkPresent s := rfl
@[simp] theorem exec_corniceRecheck (s : State) : exec .corniceRecheck s = execCorniceRecheck s := rfl
@[simp] theorem exec_chunkCommit (s : State) : exec .chunkCommit s = execChunkCommit s := rfl
@[simp] theorem exec_sharedTransferApply (s : State) : exec .sharedTransferApply s = execSharedTransferApply s := rfl
@[simp] theorem exec_trapDelivery (s : State) : exec .trapDelivery s = execTrapDelivery s := rfl
@[simp] theorem exec_interruptDelivery (s : State) : exec .interruptDelivery s = execInterruptDelivery s := rfl
@[simp] theorem exec_userInterrupt (s : State) : exec .userInterrupt s = execUserInterrupt s := rfl
@[simp] theorem exec_machineCheck (s : State) : exec .machineCheck s = execMachineCheck s := rfl
@[simp] theorem exec_timecmpMatch (s : State) : exec .timecmpMatch s = execTimecmpMatch s := rfl
@[simp] theorem exec_swintWrite (s : State) : exec .swintWrite s = execSwintWrite s := rfl
@[simp] theorem exec_watchdog (s : State) : exec .watchdog s = execWatchdog s := rfl
@[simp] theorem exec_wdwinBind (s : State) : exec .wdwinBind s = execWdwinBind s := rfl
@[simp] theorem exec_wdwinUnbind (s : State) : exec .wdwinUnbind s = execWdwinUnbind s := rfl
@[simp] theorem exec_ustatImageWrite (s : State) : exec .ustatImageWrite s = execUstatImageWrite s := rfl
@[simp] theorem exec_decodeSelect (s : State) : exec .decodeSelect s = execDecodeSelect s := rfl
@[simp] theorem exec_park (s : State) : exec .park s = execPark s := rfl
@[simp] theorem exec_bringIn (s : State) : exec .bringIn s = execBringIn s := rfl
@[simp] theorem exec_preempt (s : State) : exec .preempt s = execPreempt s := rfl
@[simp] theorem exec_waitEnd (s : State) : exec .waitEnd s = execWaitEnd s := rfl
@[simp] theorem exec_gangMemberPlace (s : State) : exec .gangMemberPlace s = execGangMemberPlace s := rfl
@[simp] theorem exec_readyPoolPlace (s : State) : exec .readyPoolPlace s = execReadyPoolPlace s := rfl
@[simp] theorem exec_tileRename (s : State) : exec .tileRename s = execTileRename s := rfl
@[simp] theorem exec_engineDispatch (s : State) : exec .engineDispatch s = execEngineDispatch s := rfl
@[simp] theorem exec_engineOpStart (s : State) : exec .engineOpStart s = execEngineOpStart s := rfl
@[simp] theorem exec_engineOpComplete (s : State) : exec .engineOpComplete s = execEngineOpComplete s := rfl
@[simp] theorem exec_sfuDequeue (s : State) : exec .sfuDequeue s = execSfuDequeue s := rfl
@[simp] theorem exec_sfuResult (s : State) : exec .sfuResult s = execSfuResult s := rfl
@[simp] theorem exec_pageWalk (s : State) : exec .pageWalk s = execPageWalk s := rfl
@[simp] theorem exec_tlbinvSequence (s : State) : exec .tlbinvSequence s = execTlbinvSequence s := rfl
@[simp] theorem exec_tlbinvComplete (s : State) : exec .tlbinvComplete s = execTlbinvComplete s := rfl
@[simp] theorem exec_gets (s : State) : exec .gets s = execGets s := rfl
@[simp] theorem exec_getm (s : State) : exec .getm s = execGetm s := rfl
@[simp] theorem exec_upg (s : State) : exec .upg s = execUpg s := rfl
@[simp] theorem exec_inv (s : State) : exec .inv s = execInv s := rfl
@[simp] theorem exec_fwds (s : State) : exec .fwds s = execFwds s := rfl
@[simp] theorem exec_fwdm (s : State) : exec .fwdm s = execFwdm s := rfl
@[simp] theorem exec_backinv (s : State) : exec .backinv s = execBackinv s := rfl
@[simp] theorem exec_data (s : State) : exec .data s = execData s := rfl
@[simp] theorem exec_datae (s : State) : exec .datae s = execDatae s := rfl
@[simp] theorem exec_ack (s : State) : exec .ack s = execAck s := rfl
@[simp] theorem exec_fwdmiss (s : State) : exec .fwdmiss s = execFwdmiss s := rfl
@[simp] theorem exec_evictm (s : State) : exec .evictm s = execEvictm s := rfl
@[simp] theorem exec_rds (s : State) : exec .rds s = execRds s := rfl
@[simp] theorem exec_rdm (s : State) : exec .rdm s = execRdm s := rfl
@[simp] theorem exec_fwdack (s : State) : exec .fwdack s = execFwdack s := rfl
@[simp] theorem exec_invack (s : State) : exec .invack s = execInvack s := rfl
@[simp] theorem exec_complete (s : State) : exec .complete s = execComplete s := rfl
@[simp] theorem exec_wbdata (s : State) : exec .wbdata s = execWbdata s := rfl
@[simp] theorem exec_wback (s : State) : exec .wback s = execWback s := rfl
@[simp] theorem exec_prds (s : State) : exec .prds s = execPrds s := rfl
@[simp] theorem exec_prdm (s : State) : exec .prdm s = execPrdm s := rfl
@[simp] theorem exec_pwrupd (s : State) : exec .pwrupd s = execPwrupd s := rfl
@[simp] theorem exec_pwrack (s : State) : exec .pwrack s = execPwrack s := rfl
@[simp] theorem exec_pfwds (s : State) : exec .pfwds s = execPfwds s := rfl
@[simp] theorem exec_pfwdm (s : State) : exec .pfwdm s = execPfwdm s := rfl
@[simp] theorem exec_pinv (s : State) : exec .pinv s = execPinv s := rfl
@[simp] theorem exec_pbackinv (s : State) : exec .pbackinv s = execPbackinv s := rfl
@[simp] theorem exec_pdata (s : State) : exec .pdata s = execPdata s := rfl
@[simp] theorem exec_pdatae (s : State) : exec .pdatae s = execPdatae s := rfl
@[simp] theorem exec_pack (s : State) : exec .pack s = execPack s := rfl
@[simp] theorem exec_pfwdmiss (s : State) : exec .pfwdmiss s = execPfwdmiss s := rfl
@[simp] theorem exec_pwb (s : State) : exec .pwb s = execPwb s := rfl
@[simp] theorem exec_pwback (s : State) : exec .pwback s = execPwback s := rfl
@[simp] theorem exec_phold (s : State) : exec .phold s = execPhold s := rfl
@[simp] theorem exec_holdResponseTimer (s : State) : exec .holdResponseTimer s = execHoldResponseTimer s := rfl
@[simp] theorem exec_fprobe (s : State) : exec .fprobe s = execFprobe s := rfl
@[simp] theorem exec_fecho (s : State) : exec .fecho s = execFecho s := rfl
@[simp] theorem exec_probeTimeout (s : State) : exec .probeTimeout s = execProbeTimeout s := rfl
@[simp] theorem exec_requestTimeout (s : State) : exec .requestTimeout s = execRequestTimeout s := rfl
@[simp] theorem exec_mreq (s : State) : exec .mreq s = execMreq s := rfl
@[simp] theorem exec_mapply (s : State) : exec .mapply s = execMapply s := rfl
@[simp] theorem exec_mack (s : State) : exec .mack s = execMack s := rfl
@[simp] theorem exec_mdone (s : State) : exec .mdone s = execMdone s := rfl
@[simp] theorem exec_mstate (s : State) : exec .mstate s = execMstate s := rfl
@[simp] theorem exec_mstateack (s : State) : exec .mstateack s = execMstateack s := rfl
@[simp] theorem exec_mresume (s : State) : exec .mresume s = execMresume s := rfl
@[simp] theorem exec_groupActivate (s : State) : exec .groupActivate s = execGroupActivate s := rfl
@[simp] theorem exec_groupReform (s : State) : exec .groupReform s = execGroupReform s := rfl
@[simp] theorem exec_groupDeactivate (s : State) : exec .groupDeactivate s = execGroupDeactivate s := rfl
@[simp] theorem exec_heartbeat (s : State) : exec .heartbeat s = execHeartbeat s := rfl
@[simp] theorem exec_hbreq (s : State) : exec .hbreq s = execHbreq s := rfl
@[simp] theorem exec_hbans (s : State) : exec .hbans s = execHbans s := rfl
@[simp] theorem exec_lostdecl (s : State) : exec .lostdecl s = execLostdecl s := rfl
@[simp] theorem exec_lostself (s : State) : exec .lostself s = execLostself s := rfl
@[simp] theorem exec_deviceLostTimeout (s : State) : exec .deviceLostTimeout s = execDeviceLostTimeout s := rfl
@[simp] theorem exec_linkTrain (s : State) : exec .linkTrain s = execLinkTrain s := rfl
@[simp] theorem exec_fabricJoin (s : State) : exec .fabricJoin s = execFabricJoin s := rfl
@[simp] theorem exec_flitCrcFail (s : State) : exec .flitCrcFail s = execFlitCrcFail s := rfl
@[simp] theorem exec_heartbeatTimeout (s : State) : exec .heartbeatTimeout s = execHeartbeatTimeout s := rfl
@[simp] theorem exec_linkRetrainTimeout (s : State) : exec .linkRetrainTimeout s = execLinkRetrainTimeout s := rfl
@[simp] theorem exec_attest (s : State) : exec .attest s = execAttest s := rfl
@[simp] theorem exec_portIdlePark (s : State) : exec .portIdlePark s = execPortIdlePark s := rfl
@[simp] theorem exec_parkreq (s : State) : exec .parkreq s = execParkreq s := rfl
@[simp] theorem exec_parkack (s : State) : exec .parkack s = execParkack s := rfl
@[simp] theorem exec_wakereq (s : State) : exec .wakereq s = execWakereq s := rfl
@[simp] theorem exec_wakeack (s : State) : exec .wakeack s = execWakeack s := rfl
@[simp] theorem exec_portWake (s : State) : exec .portWake s = execPortWake s := rfl
@[simp] theorem exec_wavelengthRejoin (s : State) : exec .wavelengthRejoin s = execWavelengthRejoin s := rfl
@[simp] theorem exec_forcedPark (s : State) : exec .forcedPark s = execForcedPark s := rfl
@[simp] theorem exec_forcedParkRelease (s : State) : exec .forcedParkRelease s = execForcedParkRelease s := rfl
@[simp] theorem exec_hbmRequest (s : State) : exec .hbmRequest s = execHbmRequest s := rfl
@[simp] theorem exec_rowIdleClose (s : State) : exec .rowIdleClose s = execRowIdleClose s := rfl
@[simp] theorem exec_bankRefresh (s : State) : exec .bankRefresh s = execBankRefresh s := rfl
@[simp] theorem exec_scrubRead (s : State) : exec .scrubRead s = execScrubRead s := rfl
@[simp] theorem exec_scrubWrite (s : State) : exec .scrubWrite s = execScrubWrite s := rfl
@[simp] theorem exec_criticalTempAssert (s : State) : exec .criticalTempAssert s = execCriticalTempAssert s := rfl
@[simp] theorem exec_selfRefreshEnter (s : State) : exec .selfRefreshEnter s = execSelfRefreshEnter s := rfl
@[simp] theorem exec_criticalTempDeassert (s : State) : exec .criticalTempDeassert s = execCriticalTempDeassert s := rfl
@[simp] theorem exec_selfRefreshExit (s : State) : exec .selfRefreshExit s = execSelfRefreshExit s := rfl
@[simp] theorem exec_marginMeasure (s : State) : exec .marginMeasure s = execMarginMeasure s := rfl
@[simp] theorem exec_chstatTrainreq (s : State) : exec .chstatTrainreq s = execChstatTrainreq s := rfl
@[simp] theorem exec_retrainingHold (s : State) : exec .retrainingHold s = execRetrainingHold s := rfl
@[simp] theorem exec_trainingEnd (s : State) : exec .trainingEnd s = execTrainingEnd s := rfl
@[simp] theorem exec_hardwareError (s : State) : exec .hardwareError s = execHardwareError s := rfl
@[simp] theorem exec_hartRelocate (s : State) : exec .hartRelocate s = execHartRelocate s := rfl
@[simp] theorem exec_fatalError (s : State) : exec .fatalError s = execFatalError s := rfl
@[simp] theorem exec_powerTick (s : State) : exec .powerTick s = execPowerTick s := rfl
@[simp] theorem exec_dieCriticalTemp (s : State) : exec .dieCriticalTemp s = execDieCriticalTemp s := rfl
@[simp] theorem exec_hbmThrottle (s : State) : exec .hbmThrottle s = execHbmThrottle s := rfl
@[simp] theorem exec_coolantInletAlert (s : State) : exec .coolantInletAlert s = execCoolantInletAlert s := rfl
@[simp] theorem exec_perst (s : State) : exec .perst s = execPerst s := rfl
@[simp] theorem exec_mgmtReset (s : State) : exec .mgmtReset s = execMgmtReset s := rfl
@[simp] theorem exec_bootRom (s : State) : exec .bootRom s = execBootRom s := rfl
@[simp] theorem exec_provisioningRequest (s : State) : exec .provisioningRequest s = execProvisioningRequest s := rfl
@[simp] theorem exec_spdmKeyExchange (s : State) : exec .spdmKeyExchange s = execSpdmKeyExchange s := rfl
@[simp] theorem exec_spdmMeasurements (s : State) : exec .spdmMeasurements s = execSpdmMeasurements s := rfl
@[simp] theorem exec_keySlotLoad (s : State) : exec .keySlotLoad s = execKeySlotLoad s := rfl
@[simp] theorem exec_virtioFeaturesOk (s : State) : exec .virtioFeaturesOk s = execVirtioFeaturesOk s := rfl
@[simp] theorem exec_virtioNetRequest (s : State) : exec .virtioNetRequest s = execVirtioNetRequest s := rfl
@[simp] theorem exec_virtioBlkRequest (s : State) : exec .virtioBlkRequest s = execVirtioBlkRequest s := rfl
@[simp] theorem exec_virtioConsoleRequest (s : State) : exec .virtioConsoleRequest s = execVirtioConsoleRequest s := rfl
@[simp] theorem exec_vsockConnect (s : State) : exec .vsockConnect s = execVsockConnect s := rfl
@[simp] theorem exec_functionLevelReset (s : State) : exec .functionLevelReset s = execFunctionLevelReset s := rfl
@[simp] theorem exec_pldmSensorRequest (s : State) : exec .pldmSensorRequest s = execPldmSensorRequest s := rfl
@[simp] theorem exec_registerWrite (s : State) : exec .registerWrite s = execRegisterWrite s := rfl
@[simp] theorem exec_survivorUnreachable (s : State) : exec .survivorUnreachable s = execSurvivorUnreachable s := rfl
@[simp] theorem exec_messageRelay (s : State) : exec .messageRelay s = execMessageRelay s := rfl
@[simp] theorem exec_unknownMessageCode (s : State) : exec .unknownMessageCode s = execUnknownMessageCode s := rfl
@[simp] theorem exec_pairAcknowledgement (s : State) : exec .pairAcknowledgement s = execPairAcknowledgement s := rfl
@[simp] theorem exec_hbmThrottleEnd (s : State) : exec .hbmThrottleEnd s = execHbmThrottleEnd s := rfl

end Sys2Proof.Machine
end

