-- ==== Sys2Proof/Laws/Fields.lean ====
section
/-!
SUPPORT. Codes and fields: what a code encodes is what it decodes to, and the pieces of the fields that the encoder
writes read back.
-/

namespace Sys2Proof
open Sys2Proof.Machine

/-! ## Codes -/

@[simp] theorem Size.ofCode_code (x : Size) : Size.ofCode x.code = x := by cases x <;> rfl
@[simp] theorem Scope.ofCode_code (x : Scope) : Scope.ofCode x.code = some x := by cases x <;> rfl
@[simp] theorem RMode.ofCode_code (x : RMode) : RMode.ofCode x.code = some x := by cases x <;> rfl
@[simp] theorem Cond.ofCode_code (x : Cond) : Cond.ofCode x.code = some x := by cases x <;> rfl
@[simp] theorem PlogOp.ofCode_code (x : PlogOp) : PlogOp.ofCode x.code = some x := by cases x <;> rfl
@[simp] theorem AmoOp.ofCode_code (x : AmoOp) : AmoOp.ofCode x.code = some x := by cases x <;> rfl
@[simp] theorem VType.ofCode_code (x : VType) : VType.ofCode x.code = x := by cases x <;> rfl
@[simp] theorem TFmt.ofCode_code (x : TFmt) : TFmt.ofCode x.code = x := by cases x <;> rfl
@[simp] theorem KFactor.ofCode_code (x : KFactor) : KFactor.ofCode x.code = some x := by cases x <;> rfl
@[simp] theorem FillCode.ofCode_code (x : FillCode) : FillCode.ofCode x.code = x := by cases x <;> rfl

/-! ## Register classes (R218) -/

@[simp] theorem asV_encV (v : VReg) : asV (encV v) = some v := by revert v; decide
@[simp] theorem asP_encP (v : PReg) : asP (encP v) = some v := by revert v; decide
@[simp] theorem asQ_encQ (v : QReg) : asQ (encQ v) = some v := by revert v; decide
theorem asT_encH (v : THandle) (h : v.ok = true) : asT (encH v) = some v := by revert v; decide
theorem asTp_encH (v : THandle) (h : v.priv = true) : asTp (encH v) = some v := by revert v; decide

/-! ## Pieces of the F, E, D and C fields -/

@[simp] theorem encF_type (t : VType) (f : BitVec 4) : (encF t f).extractLsb' 4 4 = t.code := by cases t <;> revert f <;> decide
@[simp] theorem encF_low (t : VType) (f : BitVec 4) : (encF t f).extractLsb' 0 4 = f := by cases t <;> revert f <;> decide
@[simp] theorem encF_low3 (t : VType) (f : BitVec 4) : (encF t f).extractLsb' 0 3 = f.extractLsb' 0 3 := by cases t <;> revert f <;> decide
@[simp] theorem encF_low2 (t : VType) (f : BitVec 4) : (encF t f).extractLsb' 0 2 = f.extractLsb' 0 2 := by cases t <;> revert f <;> decide
@[simp] theorem encF_mid (t : VType) (f : BitVec 4) : (encF t f).extractLsb' 1 3 = f.extractLsb' 1 3 := by cases t <;> revert f <;> decide
@[simp] theorem encF_high (t : VType) (f : BitVec 4) : (encF t f).extractLsb' 2 2 = f.extractLsb' 2 2 := by cases t <;> revert f <;> decide
@[simp] theorem encF_bit0 (t : VType) (f : BitVec 4) : (encF t f)[0] = f[0] := by cases t <;> revert f <;> decide
@[simp] theorem encF_bit3 (t : VType) (f : BitVec 4) : (encF t f)[3] = f[3] := by cases t <;> revert f <;> decide
@[simp] theorem encM_mode (b : Bool) (m : RMode) : (encM b m).extractLsb' 0 3 = m.code := by cases b <;> cases m <;> rfl
@[simp] theorem encM_bit (b : Bool) (m : RMode) : (encM b m)[3] = b := by cases b <;> cases m <;> rfl
@[simp] theorem encBit_rest (b : Bool) : (encBit b).extractLsb' 1 3 = 0#3 := by cases b <;> rfl
@[simp] theorem encBit_bit (b : Bool) : (encBit b)[0] = b := by cases b <;> rfl
@[simp] theorem pair_high (b : BitVec 2) : (0#2 ++ b : BitVec 4).extractLsb' 2 2 = 0#2 := by revert b; decide
@[simp] theorem pair_low (b : BitVec 2) : (0#2 ++ b : BitVec 4).extractLsb' 0 2 = b := by revert b; decide

@[simp] theorem encMask_zm (m : VMask) : (encMask m)[4] = m.zm := by
  obtain ⟨z, p⟩ := m; cases z <;> revert p <;> decide
@[simp] theorem encMask_mask (m : VMask) : (encMask m).extractLsb' 0 4 = m.mask := by
  obtain ⟨z, p⟩ := m; cases z <;> revert p <;> decide
@[simp] theorem encMask_top (m : VMask) : (encMask m)[5] = false := by
  obtain ⟨z, p⟩ := m; cases z <;> revert p <;> decide
@[simp] theorem encP_zm (p : PReg) : (encP p)[4] = false := by revert p; decide
@[simp] theorem encP_mask (p : PReg) : (encP p).extractLsb' 0 4 = p := by revert p; decide
@[simp] theorem encP_top (p : PReg) : (encP p)[5] = false := by revert p; decide
@[simp] theorem encT_type (t : VType) : (encT t).extractLsb' 0 4 = t.code := by cases t <;> rfl
@[simp] theorem encT_top (t : VType) : (encT t).extractLsb' 4 2 = 0#2 := by cases t <;> rfl

@[simp] theorem encC_size (z : Size) (g : Bool) (s : BitVec 3) : (encC z g s).extractLsb' 0 2 = z.code := by
  cases z <;> cases g <;> revert s <;> decide
@[simp] theorem encC_signed (z : Size) (g : Bool) (s : BitVec 3) : (encC z g s)[2] = g := by
  cases z <;> cases g <;> revert s <;> decide
@[simp] theorem encC_scope (z : Size) (g : Bool) (s : BitVec 3) : (encC z g s).extractLsb' 3 3 = s := by
  cases z <;> cases g <;> revert s <;> decide
@[simp] theorem encC_rest (z : Size) : (encC z false 0#3).extractLsb' 2 4 = 0#4 := by cases z <;> rfl
@[simp] theorem encC_k (z : Size) (k : BitVec 2) : (encC z false (k.setWidth 3)).extractLsb' 3 2 = k := by
  cases z <;> revert k <;> decide
@[simp] theorem encC_top (z : Size) (k : BitVec 2) : (encC z false (k.setWidth 3))[5] = false := by
  cases z <;> revert k <;> decide
@[simp] theorem encC_top0 (z : Size) : (encC z false 0#3)[5] = false := by cases z <;> rfl
@[simp] theorem scopeC_scope (s : Scope) : (s.code ++ 0#3 : BitVec 6).extractLsb' 3 3 = s.code := by cases s <;> rfl
@[simp] theorem scopeC_low (s : Scope) : (s.code ++ 0#3 : BitVec 6).extractLsb' 0 3 = 0#3 := by cases s <;> rfl

/-! ## Values in wider fields -/

@[simp] theorem wide_6_8_6 (x : BitVec 6) : (x.setWidth 8).extractLsb' 6 2 = 0#2 := by revert x; decide
@[simp] theorem wide_3_8_3 (x : BitVec 3) : (x.setWidth 8).extractLsb' 3 5 = 0#5 := by revert x; decide
@[simp] theorem wide_4_8_4 (x : BitVec 4) : (x.setWidth 8).extractLsb' 4 4 = 0#4 := by revert x; decide
@[simp] theorem wide_3_6_3 (x : BitVec 3) : (x.setWidth 6).extractLsb' 3 3 = 0#3 := by revert x; decide
@[simp] theorem wide_4_6_4 (x : BitVec 4) : (x.setWidth 6).extractLsb' 4 2 = 0#2 := by revert x; decide
@[simp] theorem wide_2_6_2 (x : BitVec 2) : (x.setWidth 6).extractLsb' 2 4 = 0#4 := by revert x; decide
@[simp] theorem wide_3_8_4 (x : BitVec 3) : (x.setWidth 8).extractLsb' 4 4 = 0#4 := by revert x; decide
@[simp] theorem wide_6_8 (x : BitVec 6) : (x.setWidth 8).extractLsb' 0 6 = x := by revert x; decide
@[simp] theorem wide_3_8 (x : BitVec 3) : (x.setWidth 8).extractLsb' 0 3 = x := by revert x; decide
@[simp] theorem wide_4_8 (x : BitVec 4) : (x.setWidth 8).extractLsb' 0 4 = x := by revert x; decide
@[simp] theorem wide_5_6 (x : BitVec 5) : (x.setWidth 6).extractLsb' 0 5 = x := by revert x; decide
@[simp] theorem wide_3_6 (x : BitVec 3) : (x.setWidth 6).extractLsb' 0 3 = x := by revert x; decide
@[simp] theorem wide_4_6 (x : BitVec 4) : (x.setWidth 6).extractLsb' 0 4 = x := by revert x; decide
@[simp] theorem wide_2_6 (x : BitVec 2) : (x.setWidth 6).extractLsb' 0 2 = x := by revert x; decide
@[simp] theorem wide_5_6_top (x : BitVec 5) : (x.setWidth 6)[5] = false := by revert x; decide
@[simp] theorem bit_rest (b : Bool) : (0#7 ++ BitVec.ofBool b : BitVec 8).extractLsb' 1 7 = 0#7 := by cases b <;> rfl
@[simp] theorem bit_bit (b : Bool) : (0#7 ++ BitVec.ofBool b : BitVec 8)[0] = b := by cases b <;> rfl

/-! ## Long fields and whole words (R216, R219) -/

/-- Two neighbouring pieces of a value joined. -/
theorem join2 {w : Nat} (o : BitVec w) (k a b : Nat) : o.extractLsb' (k + b) a ++ o.extractLsb' k b = o.extractLsb' k (a + b) := by
  apply BitVec.eq_of_getLsbD_eq
  intro i hi
  simp only [BitVec.getLsbD_append, BitVec.getLsbD_extractLsb']
  by_cases h : i < b
  · simp [h, show i < a + b by omega]
  · simp [h, show k + b + (i - b) = k + i by omega, show i < a + b by omega, show i - b < a by omega]

@[simp] theorem join20 (o : BitVec 20) : o.extractLsb' 14 6 ++ o.extractLsb' 8 6 ++ o.extractLsb' 0 8 = o := by
  have h1 := join2 o 8 6 6
  have h2 := join2 o 0 12 8
  simp only [Nat.reduceAdd] at h1 h2
  rw [h1, h2]; simp

@[simp] theorem join26 (o : BitVec 26) :
    o.extractLsb' 20 6 ++ o.extractLsb' 14 6 ++ o.extractLsb' 8 6 ++ o.extractLsb' 0 8 = o := by
  have h1 := join2 o 14 6 6
  have h2 := join2 o 8 12 6
  have h3 := join2 o 0 18 8
  simp only [Nat.reduceAdd] at h1 h2 h3
  rw [h1, h2, h3]; simp

@[simp] theorem join32 (o : BitVec 32) :
    o.extractLsb' 26 6 ++ o.extractLsb' 20 6 ++ o.extractLsb' 14 6 ++ o.extractLsb' 8 6 ++ o.extractLsb' 0 8 = o := by
  have h1 := join2 o 20 6 6
  have h2 := join2 o 14 12 6
  have h3 := join2 o 8 18 6
  have h4 := join2 o 0 24 8
  simp only [Nat.reduceAdd] at h1 h2 h3 h4
  rw [h1, h2, h3, h4]; simp

@[simp] theorem join18 (o : BitVec 18) : o.extractLsb' 12 6 ++ o.extractLsb' 6 6 ++ o.extractLsb' 0 6 = o := by
  have h1 := join2 o 6 6 6
  have h2 := join2 o 0 12 6
  simp only [Nat.reduceAdd] at h1 h2
  rw [h1, h2]; simp

@[simp] theorem twoBits_rest (a b : Bool) : (0#6 ++ BitVec.ofBool a ++ BitVec.ofBool b : BitVec 8).extractLsb' 2 6 = 0#6 := by cases a <;> cases b <;> rfl
@[simp] theorem twoBits_0 (a b : Bool) : (0#6 ++ BitVec.ofBool a ++ BitVec.ofBool b : BitVec 8)[0] = b := by cases a <;> cases b <;> rfl
@[simp] theorem twoBits_1 (a b : Bool) : (0#6 ++ BitVec.ofBool a ++ BitVec.ofBool b : BitVec 8)[1] = a := by cases a <;> cases b <;> rfl
@[simp] theorem fmtD_5 (k : Bool) (f : TFmt) : (0#1 ++ BitVec.ofBool k ++ f.code : BitVec 6)[5] = false := by cases k <;> cases f <;> rfl
@[simp] theorem fmtD_4 (k : Bool) (f : TFmt) : (0#1 ++ BitVec.ofBool k ++ f.code : BitVec 6)[4] = k := by cases k <;> cases f <;> rfl
@[simp] theorem fmtD_low (k : Bool) (f : TFmt) : (0#1 ++ BitVec.ofBool k ++ f.code : BitVec 6).extractLsb' 0 4 = f.code := by cases k <;> cases f <;> rfl
@[simp] theorem fmtF_rest (k : Bool) (f : TFmt) : (0#3 ++ BitVec.ofBool k ++ f.code : BitVec 8).extractLsb' 5 3 = 0#3 := by cases k <;> cases f <;> rfl
@[simp] theorem fmtF_4 (k : Bool) (f : TFmt) : (0#3 ++ BitVec.ofBool k ++ f.code : BitVec 8)[4] = k := by cases k <;> cases f <;> rfl
@[simp] theorem fmtF_low (k : Bool) (f : TFmt) : (0#3 ++ BitVec.ofBool k ++ f.code : BitVec 8).extractLsb' 0 4 = f.code := by cases k <;> cases f <;> rfl
@[simp] theorem qstF_k (co ax : Bool) (k : KFactor) (f : TFmt) : (BitVec.ofBool co ++ k.code ++ BitVec.ofBool ax ++ f.code : BitVec 8).extractLsb' 5 2 = k.code := by cases co <;> cases ax <;> cases k <;> cases f <;> rfl
@[simp] theorem qstF_4 (co ax : Bool) (k : KFactor) (f : TFmt) : (BitVec.ofBool co ++ k.code ++ BitVec.ofBool ax ++ f.code : BitVec 8)[4] = ax := by cases co <;> cases ax <;> cases k <;> cases f <;> rfl
@[simp] theorem qstF_7 (co ax : Bool) (k : KFactor) (f : TFmt) : (BitVec.ofBool co ++ k.code ++ BitVec.ofBool ax ++ f.code : BitVec 8)[7] = co := by cases co <;> cases ax <;> cases k <;> cases f <;> rfl
@[simp] theorem qstF_low (co ax : Bool) (k : KFactor) (f : TFmt) : (BitVec.ofBool co ++ k.code ++ BitVec.ofBool ax ++ f.code : BitVec 8).extractLsb' 0 4 = f.code := by cases co <;> cases ax <;> cases k <;> cases f <;> rfl
@[simp] theorem qstD_rest (au : Bool) (q : QReg) : (0#2 ++ BitVec.ofBool au ++ q : BitVec 6).extractLsb' 4 2 = 0#2 := by cases au <;> revert q <;> decide
@[simp] theorem qstD_low (au : Bool) (q : QReg) : (0#2 ++ BitVec.ofBool au ++ q : BitVec 6).extractLsb' 0 3 = q := by cases au <;> revert q <;> decide
@[simp] theorem qstD_3 (au : Bool) (q : QReg) : (0#2 ++ BitVec.ofBool au ++ q : BitVec 6)[3] = au := by cases au <;> revert q <;> decide
@[simp] theorem modeS_rest (s : Bool) (m : RMode) : (0#4 ++ BitVec.ofBool s ++ m.code : BitVec 8).extractLsb' 4 4 = 0#4 := by cases s <;> cases m <;> rfl
@[simp] theorem modeS_3 (s : Bool) (m : RMode) : (0#4 ++ BitVec.ofBool s ++ m.code : BitVec 8)[3] = s := by cases s <;> cases m <;> rfl
@[simp] theorem modeS_low (s : Bool) (m : RMode) : (0#4 ++ BitVec.ofBool s ++ m.code : BitVec 8).extractLsb' 0 3 = m.code := by cases s <;> cases m <;> rfl
@[simp] theorem redF_rest (c x : Bool) (m : RMode) : (0#3 ++ BitVec.ofBool c ++ BitVec.ofBool x ++ m.code : BitVec 8).extractLsb' 5 3 = 0#3 := by cases c <;> cases x <;> cases m <;> rfl
@[simp] theorem redF_3 (c x : Bool) (m : RMode) : (0#3 ++ BitVec.ofBool c ++ BitVec.ofBool x ++ m.code : BitVec 8)[3] = x := by cases c <;> cases x <;> cases m <;> rfl
@[simp] theorem redF_4 (c x : Bool) (m : RMode) : (0#3 ++ BitVec.ofBool c ++ BitVec.ofBool x ++ m.code : BitVec 8)[4] = c := by cases c <;> cases x <;> cases m <;> rfl
@[simp] theorem redF_low (c x : Bool) (m : RMode) : (0#3 ++ BitVec.ofBool c ++ BitVec.ofBool x ++ m.code : BitVec 8).extractLsb' 0 3 = m.code := by cases c <;> cases x <;> cases m <;> rfl
@[simp] theorem fourBits_rest (o q p v : Bool) : (0#4 ++ BitVec.ofBool o ++ BitVec.ofBool q ++ BitVec.ofBool p ++ BitVec.ofBool v : BitVec 8).extractLsb' 4 4 = 0#4 := by cases o <;> cases q <;> cases p <;> cases v <;> rfl
@[simp] theorem fourBits_0 (o q p v : Bool) : (0#4 ++ BitVec.ofBool o ++ BitVec.ofBool q ++ BitVec.ofBool p ++ BitVec.ofBool v : BitVec 8)[0] = v := by cases o <;> cases q <;> cases p <;> cases v <;> rfl
@[simp] theorem fourBits_1 (o q p v : Bool) : (0#4 ++ BitVec.ofBool o ++ BitVec.ofBool q ++ BitVec.ofBool p ++ BitVec.ofBool v : BitVec 8)[1] = p := by cases o <;> cases q <;> cases p <;> cases v <;> rfl
@[simp] theorem fourBits_2 (o q p v : Bool) : (0#4 ++ BitVec.ofBool o ++ BitVec.ofBool q ++ BitVec.ofBool p ++ BitVec.ofBool v : BitVec 8)[2] = q := by cases o <;> cases q <;> cases p <;> cases v <;> rfl
@[simp] theorem fourBits_3 (o q p v : Bool) : (0#4 ++ BitVec.ofBool o ++ BitVec.ofBool q ++ BitVec.ofBool p ++ BitVec.ofBool v : BitVec 8)[3] = o := by cases o <;> cases q <;> cases p <;> cases v <;> rfl
@[simp] theorem signC_rest (s : Bool) : (0#3 ++ BitVec.ofBool s ++ 0#2 : BitVec 6) &&& 59#6 = 0#6 := by cases s <;> rfl
@[simp] theorem signC_2 (s : Bool) : (0#3 ++ BitVec.ofBool s ++ 0#2 : BitVec 6)[2] = s := by cases s <;> rfl
@[simp] theorem bitA_rest (w : Bool) : (0#5 ++ BitVec.ofBool w : BitVec 6).extractLsb' 1 5 = 0#5 := by cases w <;> rfl
@[simp] theorem bitA_0 (w : Bool) : (0#5 ++ BitVec.ofBool w : BitVec 6)[0] = w := by cases w <;> rfl
@[simp] theorem csr_rest (n : BitVec 12) : (n.setWidth 26).extractLsb' 12 14 = 0#14 := by
  apply BitVec.eq_of_getLsbD_eq; intro i hi; simp [BitVec.getLsbD_extractLsb', BitVec.getLsbD_setWidth]
@[simp] theorem csr_low (n : BitVec 12) : (n.setWidth 26).extractLsb' 0 12 = n := by
  apply BitVec.eq_of_getLsbD_eq; intro i hi; simp [BitVec.getLsbD_setWidth, hi]; omega

@[simp] theorem join38 (o : BitVec 38) : o.extractLsb' 32 6 ++ o.extractLsb' 26 6 ++ o.extractLsb' 20 6 ++
    o.extractLsb' 14 6 ++ o.extractLsb' 8 6 ++ o.extractLsb' 0 8 = o := by
  have h0 := join2 o 26 6 6
  have h1 := join2 o 20 12 6
  have h2 := join2 o 14 18 6
  have h3 := join2 o 8 24 6
  have h4 := join2 o 0 30 8
  simp only [Nat.reduceAdd] at h0 h1 h2 h3 h4
  rw [h0, h1, h2, h3, h4]; simp

/-- The fields of a packed word are the fields packed (R216). -/
@[simp] theorem unpack_pack (x : Fields) : unpack (pack x) = x := by
  obtain ⟨op, ⟨ga, gan, gb, gbn, ch, cb, pri⟩, a, b, c, d, e, f⟩ := x
  simp only [unpack, pack, Fields.mk.injEq, Ctl.mk.injEq]
  refine ⟨?_, ⟨?_, ?_, ?_, ?_, ?_, ?_, ?_⟩, ?_, ?_, ?_, ?_, ?_, ?_⟩ <;>
    first
    | (apply BitVec.eq_of_getLsbD_eq; intro i hi
       simp only [BitVec.getLsbD_append, BitVec.getLsbD_extractLsb', hi, decide_true, Bool.true_and]
       repeat (rw [if_neg (by omega)])
       try rw [if_pos (by omega)]
       congr 1; omega)
    | (simp only [BitVec.getLsbD_append, Nat.reduceLT, Nat.reduceSub, ↓reduceIte]; simp)

end Sys2Proof
end

