-- ==== Sys2Proof/Laws/Members.lean ====
section
/-!
SUPPORT. What the frames of instructions do: opening a chunk, a plain member, a serialising instruction, a decode fault.
-/

namespace Sys2Proof.Machine

open Sys2Proof.Safety

/-! ## Opening a chunk changes the open chunk alone -/

theorem openChunk_cases (s : State) :
    openChunk s = s ∨ openChunk s = updHart s fun x => { x with chunk := Chunk.fresh x.arch } := by
  unfold openChunk; split <;> simp

@[simp] theorem openChunk_arch (s : State) : (openChunk s).cur.arch = s.cur.arch := by
  rcases openChunk_cases s with h | h <;> rw [h]; rfl
@[simp] theorem openChunk_cur_slot (s : State) : (openChunk s).cur.slot = s.cur.slot := by
  rcases openChunk_cases s with h | h <;> rw [h]; rfl
@[simp] theorem openChunk_cur_prio (s : State) : (openChunk s).cur.prio = s.cur.prio := by
  rcases openChunk_cases s with h | h <;> rw [h]; rfl
@[simp] theorem openChunk_cur_cc (s : State) : (openChunk s).cur.cc = s.cur.cc := by
  rcases openChunk_cases s with h | h <;> rw [h]; rfl
@[simp] theorem openChunk_cur_inflight (s : State) : (openChunk s).cur.inflight = s.cur.inflight := by
  rcases openChunk_cases s with h | h <;> rw [h]; rfl
@[simp] theorem openChunk_cur_sq (s : State) : (openChunk s).cur.sq = s.cur.sq := by
  rcases openChunk_cases s with h | h <;> rw [h]; rfl
@[simp] theorem openChunk_cur_solo (s : State) : (openChunk s).cur.solo = s.cur.solo := by
  rcases openChunk_cases s with h | h <;> rw [h]; rfl
@[simp] theorem openChunk_cur_soloCount (s : State) : (openChunk s).cur.soloCount = s.cur.soloCount := by
  rcases openChunk_cases s with h | h <;> rw [h]; rfl
@[simp] theorem openChunk_cur_soloLines (s : State) : (openChunk s).cur.soloLines = s.cur.soloLines := by
  rcases openChunk_cases s with h | h <;> rw [h]; rfl
@[simp] theorem openChunk_cur_leave (s : State) : (openChunk s).cur.leave = s.cur.leave := by
  rcases openChunk_cases s with h | h <;> rw [h]; rfl
@[simp] theorem openChunk_cur_due (s : State) : (openChunk s).cur.due = s.cur.due := by
  rcases openChunk_cases s with h | h <;> rw [h]; rfl
@[simp] theorem openChunk_cur_uip (s : State) : (openChunk s).cur.uip = s.cur.uip := by
  rcases openChunk_cases s with h | h <;> rw [h]; rfl
@[simp] theorem openChunk_cur_wdp (s : State) : (openChunk s).cur.wdp = s.cur.wdp := by
  rcases openChunk_cases s with h | h <;> rw [h]; rfl
@[simp] theorem openChunk_cur_mck (s : State) : (openChunk s).cur.mck = s.cur.mck := by
  rcases openChunk_cases s with h | h <;> rw [h]; rfl
@[simp] theorem openChunk_cur_mckOld (s : State) : (openChunk s).cur.mckOld = s.cur.mckOld := by
  rcases openChunk_cases s with h | h <;> rw [h]; rfl
@[simp] theorem openChunk_cur_stall (s : State) : (openChunk s).cur.stall = s.cur.stall := by
  rcases openChunk_cases s with h | h <;> rw [h]; rfl
@[simp] theorem openChunk_cur_stallAt (s : State) : (openChunk s).cur.stallAt = s.cur.stallAt := by
  rcases openChunk_cases s with h | h <;> rw [h]; rfl
@[simp] theorem openChunk_cur_readyAt (s : State) : (openChunk s).cur.readyAt = s.cur.readyAt := by
  rcases openChunk_cases s with h | h <;> rw [h]; rfl
@[simp] theorem openChunk_cur_issuedAt (s : State) : (openChunk s).cur.issuedAt = s.cur.issuedAt := by
  rcases openChunk_cases s with h | h <;> rw [h]; rfl
@[simp] theorem openChunk_cur_starve (s : State) : (openChunk s).cur.starve = s.cur.starve := by
  rcases openChunk_cases s with h | h <;> rw [h]; rfl
@[simp] theorem openChunk_cur_fifo (s : State) : (openChunk s).cur.fifo = s.cur.fifo := by
  rcases openChunk_cases s with h | h <;> rw [h]; rfl
@[simp] theorem openChunk_cur_tileCnt (s : State) : (openChunk s).cur.tileCnt = s.cur.tileCnt := by
  rcases openChunk_cases s with h | h <;> rw [h]; rfl
@[simp] theorem openChunk_cur_postedCnt (s : State) : (openChunk s).cur.postedCnt = s.cur.postedCnt := by
  rcases openChunk_cases s with h | h <;> rw [h]; rfl
@[simp] theorem openChunk_cur_mcastCnt (s : State) : (openChunk s).cur.mcastCnt = s.cur.mcastCnt := by
  rcases openChunk_cases s with h | h <;> rw [h]; rfl
@[simp] theorem openChunk_cur_touched (s : State) : (openChunk s).cur.touched = s.cur.touched := by
  rcases openChunk_cases s with h | h <;> rw [h]; rfl
@[simp] theorem openChunk_cur_groupMask (s : State) : (openChunk s).cur.groupMask = s.cur.groupMask := by
  rcases openChunk_cases s with h | h <;> rw [h]; rfl
@[simp] theorem openChunk_cur_drain (s : State) : (openChunk s).cur.drain = s.cur.drain := by
  rcases openChunk_cases s with h | h <;> rw [h]; rfl
@[simp] theorem openChunk_cur_mamo (s : State) : (openChunk s).cur.mamo = s.cur.mamo := by
  rcases openChunk_cases s with h | h <;> rw [h]; rfl
@[simp] theorem openChunk_cur_timecmp (s : State) : (openChunk s).cur.timecmp = s.cur.timecmp := by
  rcases openChunk_cases s with h | h <;> rw [h]; rfl
@[simp] theorem openChunk_cur_swint (s : State) : (openChunk s).cur.swint = s.cur.swint := by
  rcases openChunk_cases s with h | h <;> rw [h]; rfl
@[simp] theorem openChunk_cur_walked (s : State) : (openChunk s).cur.walked = s.cur.walked := by
  rcases openChunk_cases s with h | h <;> rw [h]; rfl
@[simp] theorem openChunk_cur_got (s : State) : (openChunk s).cur.got = s.cur.got := by
  rcases openChunk_cases s with h | h <;> rw [h]; rfl
@[simp] theorem openChunk_cur_sfu (s : State) : (openChunk s).cur.sfu = s.cur.sfu := by
  rcases openChunk_cases s with h | h <;> rw [h]; rfl
@[simp] theorem openChunk_cur_begun (s : State) : (openChunk s).cur.begun = s.cur.begun := by
  rcases openChunk_cases s with h | h <;> rw [h]; rfl
@[simp] theorem openChunk_cur_ncWait (s : State) : (openChunk s).cur.ncWait = s.cur.ncWait := by
  rcases openChunk_cases s with h | h <;> rw [h]; rfl
@[simp] theorem openChunk_curId (s : State) : (openChunk s).curId = s.curId := by
  rcases openChunk_cases s with h | h <;> rw [h]; rfl
@[simp] theorem openChunk_harts (s : State) : (openChunk s).harts = s.harts := by
  rcases openChunk_cases s with h | h <;> rw [h]; rfl
@[simp] theorem openChunk_cores (s : State) : (openChunk s).cores = s.cores := by
  rcases openChunk_cases s with h | h <;> rw [h]; rfl
@[simp] theorem openChunk_clusters (s : State) : (openChunk s).clusters = s.clusters := by
  rcases openChunk_cases s with h | h <;> rw [h]; rfl
@[simp] theorem openChunk_dies (s : State) : (openChunk s).dies = s.dies := by
  rcases openChunk_cases s with h | h <;> rw [h]; rfl
@[simp] theorem openChunk_mem (s : State) : (openChunk s).mem = s.mem := by
  rcases openChunk_cases s with h | h <;> rw [h]; rfl
@[simp] theorem openChunk_hbm (s : State) : (openChunk s).hbm = s.hbm := by
  rcases openChunk_cases s with h | h <;> rw [h]; rfl
@[simp] theorem openChunk_tags (s : State) : (openChunk s).tags = s.tags := by
  rcases openChunk_cases s with h | h <;> rw [h]; rfl
@[simp] theorem openChunk_badGran (s : State) : (openChunk s).badGran = s.badGran := by
  rcases openChunk_cases s with h | h <;> rw [h]; rfl
@[simp] theorem openChunk_poison (s : State) : (openChunk s).poison = s.poison := by
  rcases openChunk_cases s with h | h <;> rw [h]; rfl
@[simp] theorem openChunk_lineTd (s : State) : (openChunk s).lineTd = s.lineTd := by
  rcases openChunk_cases s with h | h <;> rw [h]; rfl
@[simp] theorem openChunk_coh (s : State) : (openChunk s).coh = s.coh := by
  rcases openChunk_cases s with h | h <;> rw [h]; rfl
@[simp] theorem openChunk_peers (s : State) : (openChunk s).peers = s.peers := by
  rcases openChunk_cases s with h | h <;> rw [h]; rfl
@[simp] theorem openChunk_held (s : State) : (openChunk s).held = s.held := by
  rcases openChunk_cases s with h | h <;> rw [h]; rfl
@[simp] theorem openChunk_presented (s : State) : (openChunk s).presented = s.presented := by
  rcases openChunk_cases s with h | h <;> rw [h]; rfl
@[simp] theorem openChunk_soloHart (s : State) : (openChunk s).soloHart = s.soloHart := by
  rcases openChunk_cases s with h | h <;> rw [h]; rfl
@[simp] theorem openChunk_engTurn (s : State) : (openChunk s).engTurn = s.engTurn := by
  rcases openChunk_cases s with h | h <;> rw [h]; rfl
@[simp] theorem openChunk_soloQ (s : State) : (openChunk s).soloQ = s.soloQ := by
  rcases openChunk_cases s with h | h <;> rw [h]; rfl
@[simp] theorem openChunk_invs (s : State) : (openChunk s).invs = s.invs := by
  rcases openChunk_cases s with h | h <;> rw [h]; rfl
@[simp] theorem openChunk_ilv (s : State) : (openChunk s).ilv = s.ilv := by
  rcases openChunk_cases s with h | h <;> rw [h]; rfl
@[simp] theorem openChunk_memLock (s : State) : (openChunk s).memLock = s.memLock := by
  rcases openChunk_cases s with h | h <;> rw [h]; rfl
@[simp] theorem openChunk_hbms (s : State) : (openChunk s).hbms = s.hbms := by
  rcases openChunk_cases s with h | h <;> rw [h]; rfl
@[simp] theorem openChunk_salvBase (s : State) : (openChunk s).salvBase = s.salvBase := by
  rcases openChunk_cases s with h | h <;> rw [h]; rfl
@[simp] theorem openChunk_salvSz (s : State) : (openChunk s).salvSz = s.salvSz := by
  rcases openChunk_cases s with h | h <;> rw [h]; rfl
@[simp] theorem openChunk_salvHead (s : State) : (openChunk s).salvHead = s.salvHead := by
  rcases openChunk_cases s with h | h <;> rw [h]; rfl
@[simp] theorem openChunk_salvTail (s : State) : (openChunk s).salvTail = s.salvTail := by
  rcases openChunk_cases s with h | h <;> rw [h]; rfl
@[simp] theorem openChunk_salvOvf (s : State) : (openChunk s).salvOvf = s.salvOvf := by
  rcases openChunk_cases s with h | h <;> rw [h]; rfl
@[simp] theorem openChunk_salvEn (s : State) : (openChunk s).salvEn = s.salvEn := by
  rcases openChunk_cases s with h | h <;> rw [h]; rfl
@[simp] theorem openChunk_salvAcks (s : State) : (openChunk s).salvAcks = s.salvAcks := by
  rcases openChunk_cases s with h | h <;> rw [h]; rfl
@[simp] theorem openChunk_dev (s : State) : (openChunk s).dev = s.dev := by
  rcases openChunk_cases s with h | h <;> rw [h]; rfl
@[simp] theorem openChunk_provDev (s : State) : (openChunk s).provDev = s.provDev := by
  rcases openChunk_cases s with h | h <;> rw [h]; rfl
@[simp] theorem openChunk_fto (s : State) : (openChunk s).fto = s.fto := by
  rcases openChunk_cases s with h | h <;> rw [h]; rfl
@[simp] theorem openChunk_join (s : State) : (openChunk s).join = s.join := by
  rcases openChunk_cases s with h | h <;> rw [h]; rfl
@[simp] theorem openChunk_adapt (s : State) : (openChunk s).adapt = s.adapt := by
  rcases openChunk_cases s with h | h <;> rw [h]; rfl
@[simp] theorem openChunk_tdbase (s : State) : (openChunk s).tdbase = s.tdbase := by
  rcases openChunk_cases s with h | h <;> rw [h]; rfl
@[simp] theorem openChunk_keys (s : State) : (openChunk s).keys = s.keys := by
  rcases openChunk_cases s with h | h <;> rw [h]; rfl
@[simp] theorem openChunk_lostMap (s : State) : (openChunk s).lostMap = s.lostMap := by
  rcases openChunk_cases s with h | h <;> rw [h]; rfl
@[simp] theorem openChunk_domainClear (s : State) : (openChunk s).domainClear = s.domainClear := by
  rcases openChunk_cases s with h | h <;> rw [h]; rfl
@[simp] theorem openChunk_groups (s : State) : (openChunk s).groups = s.groups := by
  rcases openChunk_cases s with h | h <;> rw [h]; rfl
@[simp] theorem openChunk_ports (s : State) : (openChunk s).ports = s.ports := by
  rcases openChunk_cases s with h | h <;> rw [h]; rfl
@[simp] theorem openChunk_net (s : State) : (openChunk s).net = s.net := by
  rcases openChunk_cases s with h | h <;> rw [h]; rfl
@[simp] theorem openChunk_wire (s : State) : (openChunk s).wire = s.wire := by
  rcases openChunk_cases s with h | h <;> rw [h]; rfl
@[simp] theorem openChunk_pairs (s : State) : (openChunk s).pairs = s.pairs := by
  rcases openChunk_cases s with h | h <;> rw [h]; rfl
@[simp] theorem openChunk_reqs (s : State) : (openChunk s).reqs = s.reqs := by
  rcases openChunk_cases s with h | h <;> rw [h]; rfl
@[simp] theorem openChunk_nextReq (s : State) : (openChunk s).nextReq = s.nextReq := by
  rcases openChunk_cases s with h | h <;> rw [h]; rfl
@[simp] theorem openChunk_nextPhys (s : State) : (openChunk s).nextPhys = s.nextPhys := by
  rcases openChunk_cases s with h | h <;> rw [h]; rfl
@[simp] theorem openChunk_hbWait (s : State) : (openChunk s).hbWait = s.hbWait := by
  rcases openChunk_cases s with h | h <;> rw [h]; rfl
@[simp] theorem openChunk_mtime (s : State) : (openChunk s).mtime = s.mtime := by
  rcases openChunk_cases s with h | h <;> rw [h]; rfl
@[simp] theorem openChunk_cycle (s : State) : (openChunk s).cycle = s.cycle := by
  rcases openChunk_cases s with h | h <;> rw [h]; rfl
@[simp] theorem openChunk_mtvec (s : State) : (openChunk s).mtvec = s.mtvec := by
  rcases openChunk_cases s with h | h <;> rw [h]; rfl
@[simp] theorem openChunk_extroute (s : State) : (openChunk s).extroute = s.extroute := by
  rcases openChunk_cases s with h | h <;> rw [h]; rfl
@[simp] theorem openChunk_extstat (s : State) : (openChunk s).extstat = s.extstat := by
  rcases openChunk_cases s with h | h <;> rw [h]; rfl
@[simp] theorem openChunk_extena (s : State) : (openChunk s).extena = s.extena := by
  rcases openChunk_cases s with h | h <;> rw [h]; rfl
@[simp] theorem openChunk_dogs (s : State) : (openChunk s).dogs = s.dogs := by
  rcases openChunk_cases s with h | h <;> rw [h]; rfl
@[simp] theorem openChunk_noUnit (s : State) : (openChunk s).noUnit = s.noUnit := by
  rcases openChunk_cases s with h | h <;> rw [h]; rfl
@[simp] theorem openChunk_stage (s : State) : (openChunk s).stage = s.stage := by
  rcases openChunk_cases s with h | h <;> rw [h]; rfl
@[simp] theorem openChunk_fatal (s : State) : (openChunk s).fatal = s.fatal := by
  rcases openChunk_cases s with h | h <;> rw [h]; rfl
@[simp] theorem openChunk_capFlag (s : State) : (openChunk s).capFlag = s.capFlag := by
  rcases openChunk_cases s with h | h <;> rw [h]; rfl
@[simp] theorem openChunk_throtFlag (s : State) : (openChunk s).throtFlag = s.throtFlag := by
  rcases openChunk_cases s with h | h <;> rw [h]; rfl
@[simp] theorem openChunk_replace (s : State) : (openChunk s).replace = s.replace := by
  rcases openChunk_cases s with h | h <;> rw [h]; rfl
@[simp] theorem openChunk_pwr (s : State) : (openChunk s).pwr = s.pwr := by
  rcases openChunk_cases s with h | h <;> rw [h]; rfl
@[simp] theorem openChunk_cap (s : State) : (openChunk s).cap = s.cap := by
  rcases openChunk_cases s with h | h <;> rw [h]; rfl
@[simp] theorem openChunk_coolAt (s : State) : (openChunk s).coolAt = s.coolAt := by
  rcases openChunk_cases s with h | h <;> rw [h]; rfl
@[simp] theorem openChunk_retired (s : State) : (openChunk s).retired = s.retired := by
  rcases openChunk_cases s with h | h <;> rw [h]; rfl
@[simp] theorem openChunk_relocating (s : State) : (openChunk s).relocating = s.relocating := by
  rcases openChunk_cases s with h | h <;> rw [h]; rfl
@[simp] theorem openChunk_log (s : State) : (openChunk s).log = s.log := by
  rcases openChunk_cases s with h | h <;> rw [h]; rfl
@[simp] theorem openChunk_corrected (s : State) : (openChunk s).corrected = s.corrected := by
  rcases openChunk_cases s with h | h <;> rw [h]; rfl
@[simp] theorem openChunk_console (s : State) : (openChunk s).console = s.console := by
  rcases openChunk_cases s with h | h <;> rw [h]; rfl
@[simp] theorem openChunk_flash (s : State) : (openChunk s).flash = s.flash := by
  rcases openChunk_cases s with h | h <;> rw [h]; rfl
@[simp] theorem openChunk_fusedFloor (s : State) : (openChunk s).fusedFloor = s.fusedFloor := by
  rcases openChunk_cases s with h | h <;> rw [h]; rfl
@[simp] theorem openChunk_fusedKey (s : State) : (openChunk s).fusedKey = s.fusedKey := by
  rcases openChunk_cases s with h | h <;> rw [h]; rfl
@[simp] theorem openChunk_booted (s : State) : (openChunk s).booted = s.booted := by
  rcases openChunk_cases s with h | h <;> rw [h]; rfl
@[simp] theorem openChunk_meas (s : State) : (openChunk s).meas = s.meas := by
  rcases openChunk_cases s with h | h <;> rw [h]; rfl
@[simp] theorem openChunk_session (s : State) : (openChunk s).session = s.session := by
  rcases openChunk_cases s with h | h <;> rw [h]; rfl
@[simp] theorem openChunk_hostOut (s : State) : (openChunk s).hostOut = s.hostOut := by
  rcases openChunk_cases s with h | h <;> rw [h]; rfl
@[simp] theorem openChunk_virtio (s : State) : (openChunk s).virtio = s.virtio := by
  rcases openChunk_cases s with h | h <;> rw [h]; rfl
@[simp] theorem openChunk_events (s : State) : (openChunk s).events = s.events := by
  rcases openChunk_cases s with h | h <;> rw [h]; rfl
@[simp] theorem openChunk_arg (s : State) : (openChunk s).arg = s.arg := by
  rcases openChunk_cases s with h | h <;> rw [h]; rfl
@[simp] theorem openChunk_sched (s : State) : (openChunk s).sched = s.sched := by
  rcases openChunk_cases s with h | h <;> rw [h]; rfl
@[simp] theorem openChunk_freeCtr (s : State) : (openChunk s).freeCtr = s.freeCtr := by
  rcases openChunk_cases s with h | h <;> rw [h]; rfl
@[simp] theorem openChunk_powered (s : State) : (openChunk s).powered = s.powered := by
  rcases openChunk_cases s with h | h <;> rw [h]; rfl
@[simp] theorem openChunk_exchange (s : State) : (openChunk s).exchange = s.exchange := by
  rcases openChunk_cases s with h | h <;> rw [h]; rfl

/-- A fresh chunk is empty. -/
@[simp] theorem fresh_isEmpty (a : Arch) : (Chunk.fresh a).isEmpty = true := rfl

/-- Whether the older members have committed does not depend on the opening of a chunk. -/
@[simp] theorem isDrained_openChunk (s : State) : isDrained (openChunk s) = isDrained s := by
  unfold openChunk
  split
  · rename_i h; simp [isDrained, h]
  · rfl

@[simp] theorem gOf_openChunk (s : State) (r : GReg) : gOf (openChunk s) r = gOf s r := by simp [gOf]
@[simp] theorem pOf_openChunk (s : State) (r : PReg) : pOf (openChunk s) r = pOf s r := by simp [pOf]
@[simp] theorem vOf_openChunk (s : State) (r : VReg) : vOf (openChunk s) r = vOf s r := by simp [vOf]

@[simp] theorem featureFault_openChunk (f : Bool) (s : State) : featureFault f (openChunk s) = featureFault f s := by
  simp [featureFault, featmask, getCore]

/-! ## Plain members -/

/-- A plain member whose guards hold ends as its body says. -/
theorem plain_run {c : Ctl} {s : State} (h : guardOf s.cur.arch c = true) (body : State → Eff) :
    plain c s body = .next (finish c (openChunk s) (body (openChunk s))) := by simp [plain, h]

/-- A predicated-off plain member retires without an effect. -/
theorem plain_skip {c : Ctl} {s : State} (h : guardOf s.cur.arch c = false) (body : State → Eff) :
    plain c s body = .next (retire c (openChunk s)) := by simp [plain, h]

@[simp] theorem finish_ok (c : Ctl) (s0 s : State) : finish c s0 (.ok s) = retire c s := rfl
/-- An effect made while the instruction executed: the next instruction follows, at once or after the answers to the
write-backs that it has begun. -/
theorem finish_fin (c : Ctl) (s0 s : State) :
    finish c s0 (.fin s) =
      let t := freshChunk (advance s (s.cur.arch.pc + 8) false)
      if s.cur.begun && !t.cur.ncWait.isEmpty then stallOn (.miss (.acks false)) t else t := rfl
@[simp] theorem finish_trap (c : Ctl) (s0 s : State) (t : Trap) :
    finish c s0 (.trap t s) = raiseAt s s0.cur.arch.pc t := rfl
@[simp] theorem finish_wait (c : Ctl) (s0 s : State) (w : Stall) : finish c s0 (.wait w s) = stallOn w s := rfl
@[simp] theorem finish_again (c : Ctl) (s0 : State) : finish c s0 .again = endBefore s0 := rfl

/-- The body of an instruction that works in an engine ends as without it, but for the cut of one that retires. -/
@[simp] theorem inEngine_ok (s0 s : State) : inEngine s0 (.ok s) = .ok (noteCuts s0 s) := rfl
@[simp] theorem inEngine_trap (s0 s : State) (t : Trap) : inEngine s0 (.trap t s) = .trap t s := rfl
@[simp] theorem inEngine_wait (s0 s : State) (w : Stall) : inEngine s0 (.wait w s) = .wait w s := rfl
@[simp] theorem inEngine_again (s0 : State) : inEngine s0 .again = .again := rfl

/-- A member that writes one general register. -/
theorem putG_run {c : Ctl} {s : State} (h : guardOf s.cur.arch c = true) (rd : GReg) (f : State → Word) :
    putG c rd f s = .next (retire c (setG (openChunk s) rd (f (openChunk s)))) := by simp [putG, plain_run h]

/-- A member that writes one predicate. -/
theorem putP_run {c : Ctl} {s : State} (h : guardOf s.cur.arch c = true) (pd : PReg) (f : State → Word) :
    putP c pd f s = .next (retire c (setP (openChunk s) pd (f (openChunk s)))) := by simp [putP, plain_run h]

/-! ## Serialising instructions -/

/-- A serialising instruction whose guards hold, after the older members have committed, ends as its body says. -/
theorem serialThen_run {c : Ctl} {s u : State} (h : guardOf s.cur.arch c = true) (hu : commitsTo s u)
    (done : State → State) (body : State → Eff) :
    serialThen done c s body =
      .next (match body u with | .ok v => done v | e => finish c u e) := by
  obtain ⟨hd, rfl⟩ := hu
  cases hb : body (openChunk s) <;> simp [serialThen, h, hd, hb]

/-- One whose effect is made retires. -/
theorem serial_ok {c : Ctl} {s u v : State} (h : guardOf s.cur.arch c = true) (hu : commitsTo s u)
    {body : State → Eff} (hb : body u = .ok v) : serial c s body = .next (retireSerial v) := by
  simp [serial, serialThen_run h hu, hb]

/-- While a member of the hart has not committed, a serialising instruction ends its chunk and waits. -/
theorem serialThen_wait {c : Ctl} {s : State} (h : guardOf s.cur.arch c = true) (hu : isDrained s = false)
    (done : State → State) (body : State → Eff) :
    serialThen done c s body = .next (stallOn .commit (closeChunk (openChunk s))) := by simp [serialThen, h, hu]

/-- An effect that a body makes after the older members have committed. -/
theorem drained_run {s : State} (h : isDrained s = true) (k : State → Eff) : drained s k = k s := by simp [drained, h]
theorem drained_wait {s : State} (h : isDrained s = false) (k : State → Eff) : drained s k = .wait .commit (closeChunk s) := by
  simp [drained, h]

@[simp] theorem decodeFault_none (s : State) (k : State → Out) : decodeFault none s k = k s := rfl
@[simp] theorem decodeFault_some (t : Trap) (s : State) (k : State → Out) :
    decodeFault (some t) s k = .next (raiseAt s s.cur.arch.pc t) := rfl

/-! ## Results -/

@[simp] theorem andThen_val {α : Type} (x : α) (s : State) (k : α → Eff) : (Res.val x).andThen s k = k x := rfl
@[simp] theorem andThen_trap {α : Type} (t : Trap) (s : State) (k : α → Eff) :
    (Res.trap t : Res α).andThen s k = .trap t s := rfl

theorem thenDo_val {α : Type} {p : State × Res α} {s : State} {x : α} (h : p = (s, .val x)) (k : State → α → Eff) :
    thenDo p k = k s x := by subst h; rfl
theorem thenDo_trap {α : Type} {p : State × Res α} {s : State} {t : Trap} (h : p = (s, .trap t)) (k : State → α → Eff) :
    thenDo p k = .trap t s := by subst h; rfl

@[simp] theorem need_true {α : Type} (t : Trap) (k : Res α) : need true t k = k := rfl
@[simp] theorem need_false {α : Type} (t : Trap) (k : Res α) : need false t k = .trap t := rfl

@[simp] theorem whoCur_openChunk (s : State) : whoCur (openChunk s) = whoCur s := by simp [whoCur]

/-! ## Flags -/

@[simp] theorem quietFlags_openChunk (s : State) (fl : Flags) : quietFlags (openChunk s) fl ↔ quietFlags s fl := by
  simp [quietFlags]

/-- Flags that are not enabled are set. -/
theorem withFlags_quiet {s : State} {fl : Flags} (h : quietFlags s fl) (k : State → Eff) :
    withFlags fl s k = k (raiseFlags fl s) := by
  exact if_neg (not_not.2 h)

/-- An enabled flag raises FP_EXC, and nothing else happens. -/
theorem withFlags_trap {s : State} {fl : Flags} (h : ¬ quietFlags s fl) (k : State → Eff) :
    withFlags fl s k = .trap ⟨cFpExc, fl.setWidth 64, 0⟩ s := by
  exact if_pos h

end Sys2Proof.Machine
end

