-- ==== Sys2Proof/Laws/PerInstr.lean ====
section
/-!
SUPPORT. The families of LAWS.json: a statement about an instruction as syntax, and one lemma per constructor.
-/

set_option linter.unusedSimpArgs false

namespace Sys2Proof.Laws.RoundTrip
open Sys2Proof.Machine

/-- The fields that the encoder writes for a well-formed instruction decode to it. -/
def Statement (i : Instr) : Prop := ∀ x, encodeF i = some x → i.wf = true → decodeF x = some i

/-- A hardware step or a command has no fields. -/
theorem none_of {i : Instr} (h : encodeF i = none) : Statement i := by
  intro x e; rw [h] at e; cases e

theorem add (c : Ctl) (rd ra rb : GReg) : Statement (.add c rd ra rb) := by
  intro x h ok
  cases h
  simp [decodeF, decodeScalar, ifOk, withF, fLow, fType, fMode, eMask, vOk, dType, cSize, cSigned, cScope, cNoScope, ok]
theorem sub (c : Ctl) (rd ra rb : GReg) : Statement (.sub c rd ra rb) := by
  intro x h ok
  cases h
  simp [decodeF, decodeScalar, ifOk, withF, fLow, fType, fMode, eMask, vOk, dType, cSize, cSigned, cScope, cNoScope, ok]
theorem mul (c : Ctl) (rd ra rb : GReg) : Statement (.mul c rd ra rb) := by
  intro x h ok
  cases h
  simp [decodeF, decodeScalar, ifOk, withF, fLow, fType, fMode, eMask, vOk, dType, cSize, cSigned, cScope, cNoScope, ok]
theorem mulh (c : Ctl) (rd ra rb : GReg) : Statement (.mulh c rd ra rb) := by
  intro x h ok
  cases h
  simp [decodeF, decodeScalar, ifOk, withF, fLow, fType, fMode, eMask, vOk, dType, cSize, cSigned, cScope, cNoScope, ok]
theorem mulhu (c : Ctl) (rd ra rb : GReg) : Statement (.mulhu c rd ra rb) := by
  intro x h ok
  cases h
  simp [decodeF, decodeScalar, ifOk, withF, fLow, fType, fMode, eMask, vOk, dType, cSize, cSigned, cScope, cNoScope, ok]
theorem madd (c : Ctl) (rd ra rb rc : GReg) : Statement (.madd c rd ra rb rc) := by
  intro x h ok
  cases h
  simp [decodeF, decodeScalar, ifOk, withF, fLow, fType, fMode, eMask, vOk, dType, cSize, cSigned, cScope, cNoScope, ok]
theorem div (c : Ctl) (rd ra rb : GReg) : Statement (.div c rd ra rb) := by
  intro x h ok
  cases h
  simp [decodeF, decodeScalar, ifOk, withF, fLow, fType, fMode, eMask, vOk, dType, cSize, cSigned, cScope, cNoScope, ok]
theorem divu (c : Ctl) (rd ra rb : GReg) : Statement (.divu c rd ra rb) := by
  intro x h ok
  cases h
  simp [decodeF, decodeScalar, ifOk, withF, fLow, fType, fMode, eMask, vOk, dType, cSize, cSigned, cScope, cNoScope, ok]
theorem rem (c : Ctl) (rd ra rb : GReg) : Statement (.rem c rd ra rb) := by
  intro x h ok
  cases h
  simp [decodeF, decodeScalar, ifOk, withF, fLow, fType, fMode, eMask, vOk, dType, cSize, cSigned, cScope, cNoScope, ok]
theorem remu (c : Ctl) (rd ra rb : GReg) : Statement (.remu c rd ra rb) := by
  intro x h ok
  cases h
  simp [decodeF, decodeScalar, ifOk, withF, fLow, fType, fMode, eMask, vOk, dType, cSize, cSigned, cScope, cNoScope, ok]
theorem and (c : Ctl) (rd ra rb : GReg) : Statement (.and c rd ra rb) := by
  intro x h ok
  cases h
  simp [decodeF, decodeScalar, ifOk, withF, fLow, fType, fMode, eMask, vOk, dType, cSize, cSigned, cScope, cNoScope, ok]
theorem or (c : Ctl) (rd ra rb : GReg) : Statement (.or c rd ra rb) := by
  intro x h ok
  cases h
  simp [decodeF, decodeScalar, ifOk, withF, fLow, fType, fMode, eMask, vOk, dType, cSize, cSigned, cScope, cNoScope, ok]
theorem xor (c : Ctl) (rd ra rb : GReg) : Statement (.xor c rd ra rb) := by
  intro x h ok
  cases h
  simp [decodeF, decodeScalar, ifOk, withF, fLow, fType, fMode, eMask, vOk, dType, cSize, cSigned, cScope, cNoScope, ok]
theorem andn (c : Ctl) (rd ra rb : GReg) : Statement (.andn c rd ra rb) := by
  intro x h ok
  cases h
  simp [decodeF, decodeScalar, ifOk, withF, fLow, fType, fMode, eMask, vOk, dType, cSize, cSigned, cScope, cNoScope, ok]
theorem orn (c : Ctl) (rd ra rb : GReg) : Statement (.orn c rd ra rb) := by
  intro x h ok
  cases h
  simp [decodeF, decodeScalar, ifOk, withF, fLow, fType, fMode, eMask, vOk, dType, cSize, cSigned, cScope, cNoScope, ok]
theorem sll (c : Ctl) (rd ra rb : GReg) : Statement (.sll c rd ra rb) := by
  intro x h ok
  cases h
  simp [decodeF, decodeScalar, ifOk, withF, fLow, fType, fMode, eMask, vOk, dType, cSize, cSigned, cScope, cNoScope, ok]
theorem srl (c : Ctl) (rd ra rb : GReg) : Statement (.srl c rd ra rb) := by
  intro x h ok
  cases h
  simp [decodeF, decodeScalar, ifOk, withF, fLow, fType, fMode, eMask, vOk, dType, cSize, cSigned, cScope, cNoScope, ok]
theorem sra (c : Ctl) (rd ra rb : GReg) : Statement (.sra c rd ra rb) := by
  intro x h ok
  cases h
  simp [decodeF, decodeScalar, ifOk, withF, fLow, fType, fMode, eMask, vOk, dType, cSize, cSigned, cScope, cNoScope, ok]
theorem rol (c : Ctl) (rd ra rb : GReg) : Statement (.rol c rd ra rb) := by
  intro x h ok
  cases h
  simp [decodeF, decodeScalar, ifOk, withF, fLow, fType, fMode, eMask, vOk, dType, cSize, cSigned, cScope, cNoScope, ok]
theorem ror (c : Ctl) (rd ra rb : GReg) : Statement (.ror c rd ra rb) := by
  intro x h ok
  cases h
  simp [decodeF, decodeScalar, ifOk, withF, fLow, fType, fMode, eMask, vOk, dType, cSize, cSigned, cScope, cNoScope, ok]
theorem min (c : Ctl) (rd ra rb : GReg) : Statement (.min c rd ra rb) := by
  intro x h ok
  cases h
  simp [decodeF, decodeScalar, ifOk, withF, fLow, fType, fMode, eMask, vOk, dType, cSize, cSigned, cScope, cNoScope, ok]
theorem max (c : Ctl) (rd ra rb : GReg) : Statement (.max c rd ra rb) := by
  intro x h ok
  cases h
  simp [decodeF, decodeScalar, ifOk, withF, fLow, fType, fMode, eMask, vOk, dType, cSize, cSigned, cScope, cNoScope, ok]
theorem minu (c : Ctl) (rd ra rb : GReg) : Statement (.minu c rd ra rb) := by
  intro x h ok
  cases h
  simp [decodeF, decodeScalar, ifOk, withF, fLow, fType, fMode, eMask, vOk, dType, cSize, cSigned, cScope, cNoScope, ok]
theorem maxu (c : Ctl) (rd ra rb : GReg) : Statement (.maxu c rd ra rb) := by
  intro x h ok
  cases h
  simp [decodeF, decodeScalar, ifOk, withF, fLow, fType, fMode, eMask, vOk, dType, cSize, cSigned, cScope, cNoScope, ok]
theorem clz (c : Ctl) (rd ra : GReg) : Statement (.clz c rd ra) := by
  intro x h ok
  cases h
  simp [decodeF, decodeScalar, ifOk, withF, fLow, fType, fMode, eMask, vOk, dType, cSize, cSigned, cScope, cNoScope, ok]
theorem ctz (c : Ctl) (rd ra : GReg) : Statement (.ctz c rd ra) := by
  intro x h ok
  cases h
  simp [decodeF, decodeScalar, ifOk, withF, fLow, fType, fMode, eMask, vOk, dType, cSize, cSigned, cScope, cNoScope, ok]
theorem popc (c : Ctl) (rd ra : GReg) : Statement (.popc c rd ra) := by
  intro x h ok
  cases h
  simp [decodeF, decodeScalar, ifOk, withF, fLow, fType, fMode, eMask, vOk, dType, cSize, cSigned, cScope, cNoScope, ok]
theorem bswap (c : Ctl) (rd ra : GReg) : Statement (.bswap c rd ra) := by
  intro x h ok
  cases h
  simp [decodeF, decodeScalar, ifOk, withF, fLow, fType, fMode, eMask, vOk, dType, cSize, cSigned, cScope, cNoScope, ok]
theorem sext (c : Ctl) (rd ra : GReg) (n1 : BitVec 6) : Statement (.sext c rd ra n1) := by
  intro x h ok
  cases h
  simp [decodeF, decodeScalar, ifOk, withF, fLow, fType, fMode, eMask, vOk, dType, cSize, cSigned, cScope, cNoScope, ok]
theorem zext (c : Ctl) (rd ra : GReg) (n1 : BitVec 6) : Statement (.zext c rd ra n1) := by
  intro x h ok
  cases h
  simp [decodeF, decodeScalar, ifOk, withF, fLow, fType, fMode, eMask, vOk, dType, cSize, cSigned, cScope, cNoScope, ok]
theorem bfx (c : Ctl) (rd ra : GReg) (sg : Bool) (pos len1 : BitVec 6) : Statement (.bfx c rd ra sg pos len1) := by
  intro x h ok
  cases h
  simp [decodeF, decodeScalar, ifOk, withF, fLow, fType, fMode, eMask, vOk, dType, cSize, cSigned, cScope, cNoScope, ok]
theorem bfi (c : Ctl) (rd ra : GReg) (pos len1 : BitVec 6) : Statement (.bfi c rd ra pos len1) := by
  intro x h ok
  cases h
  simp [decodeF, decodeScalar, ifOk, withF, fLow, fType, fMode, eMask, vOk, dType, cSize, cSigned, cScope, cNoScope, ok]
theorem addsh (c : Ctl) (rd ra rb : GReg) (sh : BitVec 3) : Statement (.addsh c rd ra rb sh) := by
  intro x h ok
  cases h
  simp [decodeF, decodeScalar, ifOk, withF, fLow, fType, fMode, eMask, vOk, dType, cSize, cSigned, cScope, cNoScope, ok]
theorem sel (c : Ctl) (rd : GReg) (pn : PReg) (ra rb : GReg) : Statement (.sel c rd pn ra rb) := by
  intro x h ok
  cases h
  simp [decodeF, decodeScalar, ifOk, withF, fLow, fType, fMode, eMask, vOk, dType, cSize, cSigned, cScope, cNoScope, ok]
theorem cmp (c : Ctl) (cond : Cond) (pd : PReg) (ra rb : GReg) : Statement (.cmp c cond pd ra rb) := by
  intro x h ok
  cases h
  simp [decodeF, decodeScalar, ifOk, withF, fLow, fType, fMode, eMask, vOk, dType, cSize, cSigned, cScope, cNoScope, ok]
theorem plog (c : Ctl) (op : PlogOp) (pd pa pb : PReg) : Statement (.plog c op pd pa pb) := by
  intro x h ok
  cases h
  simp [decodeF, decodeScalar, ifOk, withF, fLow, fType, fMode, eMask, vOk, dType, cSize, cSigned, cScope, cNoScope, ok]
theorem fadd (c : Ctl) (t : VType) (m : RMode) (rd ra rb : GReg) : Statement (.fadd c t m rd ra rb) := by
  intro x h ok
  cases h
  simp [decodeF, decodeScalar, ifOk, withF, fLow, fType, fMode, eMask, vOk, dType, cSize, cSigned, cScope, cNoScope, ok]
theorem fsub (c : Ctl) (t : VType) (m : RMode) (rd ra rb : GReg) : Statement (.fsub c t m rd ra rb) := by
  intro x h ok
  cases h
  simp [decodeF, decodeScalar, ifOk, withF, fLow, fType, fMode, eMask, vOk, dType, cSize, cSigned, cScope, cNoScope, ok]
theorem fmul (c : Ctl) (t : VType) (m : RMode) (rd ra rb : GReg) : Statement (.fmul c t m rd ra rb) := by
  intro x h ok
  cases h
  simp [decodeF, decodeScalar, ifOk, withF, fLow, fType, fMode, eMask, vOk, dType, cSize, cSigned, cScope, cNoScope, ok]
theorem fma (c : Ctl) (t : VType) (m : RMode) (rd ra rb rc : GReg) : Statement (.fma c t m rd ra rb rc) := by
  intro x h ok
  cases h
  simp [decodeF, decodeScalar, ifOk, withF, fLow, fType, fMode, eMask, vOk, dType, cSize, cSigned, cScope, cNoScope, ok]
theorem fdiv (c : Ctl) (t : VType) (m : RMode) (rd ra rb : GReg) : Statement (.fdiv c t m rd ra rb) := by
  intro x h ok
  cases h
  simp [decodeF, decodeScalar, ifOk, withF, fLow, fType, fMode, eMask, vOk, dType, cSize, cSigned, cScope, cNoScope, ok]
theorem fsqrt (c : Ctl) (t : VType) (m : RMode) (rd ra : GReg) : Statement (.fsqrt c t m rd ra) := by
  intro x h ok
  cases h
  simp [decodeF, decodeScalar, ifOk, withF, fLow, fType, fMode, eMask, vOk, dType, cSize, cSigned, cScope, cNoScope, ok]
theorem fmin (c : Ctl) (t : VType) (rd ra rb : GReg) : Statement (.fmin c t rd ra rb) := by
  intro x h ok
  cases h
  simp [decodeF, decodeScalar, ifOk, withF, fLow, fType, fMode, eMask, vOk, dType, cSize, cSigned, cScope, cNoScope, ok]
theorem fmax (c : Ctl) (t : VType) (rd ra rb : GReg) : Statement (.fmax c t rd ra rb) := by
  intro x h ok
  cases h
  simp [decodeF, decodeScalar, ifOk, withF, fLow, fType, fMode, eMask, vOk, dType, cSize, cSigned, cScope, cNoScope, ok]
theorem fcmp (c : Ctl) (t : VType) (cond : Cond) (pd : PReg) (ra rb : GReg) : Statement (.fcmp c t cond pd ra rb) := by
  intro x h ok
  cases h
  simp [decodeF, decodeScalar, ifOk, withF, fLow, fType, fMode, eMask, vOk, dType, cSize, cSigned, cScope, cNoScope, ok]
theorem fcvt (c : Ctl) (t : VType) (m : RMode) (src : VType) (rd ra : GReg) : Statement (.fcvt c t m src rd ra) := by
  intro x h ok
  cases h
  simp [decodeF, decodeScalar, ifOk, withF, fLow, fType, fMode, eMask, vOk, dType, cSize, cSigned, cScope, cNoScope, ok]
theorem fclass (c : Ctl) (t : VType) (rd ra : GReg) : Statement (.fclass c t rd ra) := by
  intro x h ok
  cases h
  simp [decodeF, decodeScalar, ifOk, withF, fLow, fType, fMode, eMask, vOk, dType, cSize, cSigned, cScope, cNoScope, ok]
theorem addi (c : Ctl) (rd ra : GReg) (imm : BitVec 26) : Statement (.addi c rd ra imm) := by
  intro x h ok
  cases h
  simp [decodeF, decodeImm, ifOk, withF, fLow, fType, fMode, eMask, vOk, dType, cSize, cSigned, cScope, cNoScope, fields26, fieldsM, fields32, Fields.off20, Fields.imm26, Fields.imm32, Fields.off38, ok]
theorem andi (c : Ctl) (rd ra : GReg) (imm : BitVec 26) : Statement (.andi c rd ra imm) := by
  intro x h ok
  cases h
  simp [decodeF, decodeImm, ifOk, withF, fLow, fType, fMode, eMask, vOk, dType, cSize, cSigned, cScope, cNoScope, fields26, fieldsM, fields32, Fields.off20, Fields.imm26, Fields.imm32, Fields.off38, ok]
theorem ori (c : Ctl) (rd ra : GReg) (imm : BitVec 26) : Statement (.ori c rd ra imm) := by
  intro x h ok
  cases h
  simp [decodeF, decodeImm, ifOk, withF, fLow, fType, fMode, eMask, vOk, dType, cSize, cSigned, cScope, cNoScope, fields26, fieldsM, fields32, Fields.off20, Fields.imm26, Fields.imm32, Fields.off38, ok]
theorem xori (c : Ctl) (rd ra : GReg) (imm : BitVec 26) : Statement (.xori c rd ra imm) := by
  intro x h ok
  cases h
  simp [decodeF, decodeImm, ifOk, withF, fLow, fType, fMode, eMask, vOk, dType, cSize, cSigned, cScope, cNoScope, fields26, fieldsM, fields32, Fields.off20, Fields.imm26, Fields.imm32, Fields.off38, ok]
theorem slli (c : Ctl) (rd ra : GReg) (sh : BitVec 6) : Statement (.slli c rd ra sh) := by
  intro x h ok
  cases h
  simp [decodeF, decodeImm, ifOk, withF, fLow, fType, fMode, eMask, vOk, dType, cSize, cSigned, cScope, cNoScope, fields26, fieldsM, fields32, Fields.off20, Fields.imm26, Fields.imm32, Fields.off38, ok]
theorem srli (c : Ctl) (rd ra : GReg) (sh : BitVec 6) : Statement (.srli c rd ra sh) := by
  intro x h ok
  cases h
  simp [decodeF, decodeImm, ifOk, withF, fLow, fType, fMode, eMask, vOk, dType, cSize, cSigned, cScope, cNoScope, fields26, fieldsM, fields32, Fields.off20, Fields.imm26, Fields.imm32, Fields.off38, ok]
theorem srai (c : Ctl) (rd ra : GReg) (sh : BitVec 6) : Statement (.srai c rd ra sh) := by
  intro x h ok
  cases h
  simp [decodeF, decodeImm, ifOk, withF, fLow, fType, fMode, eMask, vOk, dType, cSize, cSigned, cScope, cNoScope, fields26, fieldsM, fields32, Fields.off20, Fields.imm26, Fields.imm32, Fields.off38, ok]
theorem muli (c : Ctl) (rd ra : GReg) (imm : BitVec 26) : Statement (.muli c rd ra imm) := by
  intro x h ok
  cases h
  simp [decodeF, decodeImm, ifOk, withF, fLow, fType, fMode, eMask, vOk, dType, cSize, cSigned, cScope, cNoScope, fields26, fieldsM, fields32, Fields.off20, Fields.imm26, Fields.imm32, Fields.off38, ok]
theorem cmpi (c : Ctl) (cond : Cond) (pd : PReg) (ra : GReg) (imm : BitVec 18) : Statement (.cmpi c cond pd ra imm) := by
  intro x h ok
  cases h
  simp [decodeF, decodeImm, ifOk, withF, fLow, fType, fMode, eMask, vOk, dType, cSize, cSigned, cScope, cNoScope, fields26, fieldsM, fields32, Fields.off20, Fields.imm26, Fields.imm32, Fields.off38, ok]
theorem li (c : Ctl) (rd : GReg) (imm : BitVec 32) : Statement (.li c rd imm) := by
  intro x h ok
  cases h
  simp [decodeF, decodeImm, ifOk, withF, fLow, fType, fMode, eMask, vOk, dType, cSize, cSigned, cScope, cNoScope, fields26, fieldsM, fields32, Fields.off20, Fields.imm26, Fields.imm32, Fields.off38, ok]
theorem lui (c : Ctl) (rd : GReg) (imm : BitVec 32) : Statement (.lui c rd imm) := by
  intro x h ok
  cases h
  simp [decodeF, decodeImm, ifOk, withF, fLow, fType, fMode, eMask, vOk, dType, cSize, cSigned, cScope, cNoScope, fields26, fieldsM, fields32, Fields.off20, Fields.imm26, Fields.imm32, Fields.off38, ok]
theorem lpc (c : Ctl) (rd : GReg) (imm : BitVec 32) : Statement (.lpc c rd imm) := by
  intro x h ok
  cases h
  simp [decodeF, decodeImm, ifOk, withF, fLow, fType, fMode, eMask, vOk, dType, cSize, cSigned, cScope, cNoScope, fields26, fieldsM, fields32, Fields.off20, Fields.imm26, Fields.imm32, Fields.off38, ok]
theorem br (c : Ctl) (off : BitVec 38) : Statement (.br c off) := by
  intro x h ok
  cases h
  simp [decodeF, decodeImm, ifOk, withF, fLow, fType, fMode, eMask, vOk, dType, cSize, cSigned, cScope, cNoScope, fields26, fieldsM, fields32, Fields.off20, Fields.imm26, Fields.imm32, Fields.off38, ok]
theorem call (c : Ctl) (rl : GReg) (off : BitVec 32) : Statement (.call c rl off) := by
  intro x h ok
  cases h
  simp [decodeF, decodeImm, ifOk, withF, fLow, fType, fMode, eMask, vOk, dType, cSize, cSigned, cScope, cNoScope, fields26, fieldsM, fields32, Fields.off20, Fields.imm26, Fields.imm32, Fields.off38, ok]
theorem callr (c : Ctl) (rl rt : GReg) : Statement (.callr c rl rt) := by
  intro x h ok
  cases h
  simp [decodeF, decodeImm, ifOk, withF, fLow, fType, fMode, eMask, vOk, dType, cSize, cSigned, cScope, cNoScope, fields26, fieldsM, fields32, Fields.off20, Fields.imm26, Fields.imm32, Fields.off38, ok]
theorem jr (c : Ctl) (rt : GReg) : Statement (.jr c rt) := by
  intro x h ok
  cases h
  simp [decodeF, decodeImm, ifOk, withF, fLow, fType, fMode, eMask, vOk, dType, cSize, cSigned, cScope, cNoScope, fields26, fieldsM, fields32, Fields.off20, Fields.imm26, Fields.imm32, Fields.off38, ok]
theorem ret (c : Ctl) (rt : GReg) : Statement (.ret c rt) := by
  intro x h ok
  cases h
  simp [decodeF, decodeImm, ifOk, withF, fLow, fType, fMode, eMask, vOk, dType, cSize, cSigned, cScope, cNoScope, fields26, fieldsM, fields32, Fields.off20, Fields.imm26, Fields.imm32, Fields.off38, ok]
theorem ld (c : Ctl) (rd rb : GReg) (sz : Size) (sg : Bool) (off : BitVec 20) : Statement (.ld c rd rb sz sg off) := by
  intro x h ok
  cases h
  simp [decodeF, decodeMem, ifOk, withF, fLow, fType, fMode, eMask, vOk, dType, cSize, cSigned, cScope, cNoScope, fields26, fieldsM, fields32, Fields.off20, Fields.imm26, Fields.imm32, Fields.off38, ok]
theorem st (c : Ctl) (rs rb : GReg) (sz : Size) (off : BitVec 20) : Statement (.st c rs rb sz off) := by
  intro x h ok
  cases h
  simp [decodeF, decodeMem, ifOk, withF, fLow, fType, fMode, eMask, vOk, dType, cSize, cSigned, cScope, cNoScope, fields26, fieldsM, fields32, Fields.off20, Fields.imm26, Fields.imm32, Fields.off38, ok]
theorem ldx (c : Ctl) (rd rb rx : GReg) (sz : Size) (sg : Bool) (n : BitVec 3) : Statement (.ldx c rd rb rx sz sg n) := by
  intro x h ok
  cases h
  simp [decodeF, decodeMem, ifOk, withF, fLow, fType, fMode, eMask, vOk, dType, cSize, cSigned, cScope, cNoScope, fields26, fieldsM, fields32, Fields.off20, Fields.imm26, Fields.imm32, Fields.off38, ok]
theorem stx (c : Ctl) (rs rb rx : GReg) (sz : Size) (n : BitVec 3) : Statement (.stx c rs rb rx sz n) := by
  intro x h ok
  cases h
  simp [decodeF, decodeMem, ifOk, withF, fLow, fType, fMode, eMask, vOk, dType, cSize, cSigned, cScope, cNoScope, fields26, fieldsM, fields32, Fields.off20, Fields.imm26, Fields.imm32, Fields.off38, ok]
theorem lda (c : Ctl) (rd rb : GReg) (sz : Size) (sg : Bool) (sc : Scope) (off : BitVec 20) : Statement (.lda c rd rb sz sg sc off) := by
  intro x h ok
  cases h
  simp [decodeF, decodeMem, ifOk, withF, fLow, fType, fMode, eMask, vOk, dType, cSize, cSigned, cScope, cNoScope, fields26, fieldsM, fields32, Fields.off20, Fields.imm26, Fields.imm32, Fields.off38, ok]
theorem strl (c : Ctl) (rs rb : GReg) (sz : Size) (sc : Scope) (off : BitVec 20) : Statement (.strl c rs rb sz sc off) := by
  intro x h ok
  cases h
  simp [decodeF, decodeMem, ifOk, withF, fLow, fType, fMode, eMask, vOk, dType, cSize, cSigned, cScope, cNoScope, fields26, fieldsM, fields32, Fields.off20, Fields.imm26, Fields.imm32, Fields.off38, ok]
theorem ldp (c : Ctl) (rd rb : GReg) (sz : Size) (sg : Bool) (off : BitVec 20) : Statement (.ldp c rd rb sz sg off) := by
  intro x h ok
  cases h
  simp [decodeF, decodeMem, ifOk, withF, fLow, fType, fMode, eMask, vOk, dType, cSize, cSigned, cScope, cNoScope, fields26, fieldsM, fields32, Fields.off20, Fields.imm26, Fields.imm32, Fields.off38, ok]
theorem stp (c : Ctl) (rs rb : GReg) (sz : Size) (off : BitVec 20) : Statement (.stp c rs rb sz off) := by
  intro x h ok
  cases h
  simp [decodeF, decodeMem, ifOk, withF, fLow, fType, fMode, eMask, vOk, dType, cSize, cSigned, cScope, cNoScope, fields26, fieldsM, fields32, Fields.off20, Fields.imm26, Fields.imm32, Fields.off38, ok]
theorem prf (c : Ctl) (w : Bool) (rb : GReg) (off : BitVec 20) : Statement (.prf c w rb off) := by
  intro x h ok
  cases h
  simp [decodeF, decodeMem, ifOk, withF, fLow, fType, fMode, eMask, vOk, dType, cSize, cSigned, cScope, cNoScope, fields26, fieldsM, fields32, Fields.off20, Fields.imm26, Fields.imm32, Fields.off38, ok]
theorem amo (c : Ctl) (op : AmoOp) (rd rs rb : GReg) (sz : Size) (sg : Bool) (sc : Scope) : Statement (.amo c op rd rs rb sz sg sc) := by
  intro x h ok
  cases h
  simp [decodeF, decodeMem, ifOk, withF, fLow, fType, fMode, eMask, vOk, dType, cSize, cSigned, cScope, cNoScope, fields26, fieldsM, fields32, Fields.off20, Fields.imm26, Fields.imm32, Fields.off38, ok]
theorem cas (c : Ctl) (rd rc rn rb : GReg) (sz : Size) (sg : Bool) (sc : Scope) : Statement (.cas c rd rc rn rb sz sg sc) := by
  intro x h ok
  cases h
  simp [decodeF, decodeMem, ifOk, withF, fLow, fType, fMode, eMask, vOk, dType, cSize, cSigned, cScope, cNoScope, fields26, fieldsM, fields32, Fields.off20, Fields.imm26, Fields.imm32, Fields.off38, ok]
theorem casp (c : Ctl) (rd rc rn rb : GReg) (sc : Scope) : Statement (.casp c rd rc rn rb sc) := by
  intro x h ok
  cases h
  simp [decodeF, decodeMem, ifOk, withF, fLow, fType, fMode, eMask, vOk, dType, cSize, cSigned, cScope, cNoScope, fields26, fieldsM, fields32, Fields.off20, Fields.imm26, Fields.imm32, Fields.off38, ok]
theorem fence (c : Ctl) (sc : Scope) : Statement (.fence c sc) := by
  intro x h ok
  cases h
  simp [decodeF, decodeMem, ifOk, withF, fLow, fType, fMode, eMask, vOk, dType, cSize, cSigned, cScope, cNoScope, fields26, fieldsM, fields32, Fields.off20, Fields.imm26, Fields.imm32, Fields.off38, ok]
theorem sysfence (c : Ctl) (rd : GReg) : Statement (.sysfence c rd) := by
  intro x h ok
  cases h
  simp [decodeF, decodeMem, ifOk, withF, fLow, fType, fMode, eMask, vOk, dType, cSize, cSigned, cScope, cNoScope, fields26, fieldsM, fields32, Fields.off20, Fields.imm26, Fields.imm32, Fields.off38, ok]
theorem cwb (c : Ctl) (rb : GReg) (sc : Scope) (off : BitVec 20) : Statement (.cwb c rb sc off) := by
  intro x h ok
  cases h
  simp [decodeF, decodeMem, ifOk, withF, fLow, fType, fMode, eMask, vOk, dType, cSize, cSigned, cScope, cNoScope, fields26, fieldsM, fields32, Fields.off20, Fields.imm26, Fields.imm32, Fields.off38, ok]
theorem cinv (c : Ctl) (rb : GReg) (sc : Scope) (off : BitVec 20) : Statement (.cinv c rb sc off) := by
  intro x h ok
  cases h
  simp [decodeF, decodeMem, ifOk, withF, fLow, fType, fMode, eMask, vOk, dType, cSize, cSigned, cScope, cNoScope, fields26, fieldsM, fields32, Fields.off20, Fields.imm26, Fields.imm32, Fields.off38, ok]
theorem cwbi (c : Ctl) (rb : GReg) (sc : Scope) (off : BitVec 20) : Statement (.cwbi c rb sc off) := by
  intro x h ok
  cases h
  simp [decodeF, decodeMem, ifOk, withF, fLow, fType, fMode, eMask, vOk, dType, cSize, cSigned, cScope, cNoScope, fields26, fieldsM, fields32, Fields.off20, Fields.imm26, Fields.imm32, Fields.off38, ok]
theorem czero (c : Ctl) (rb : GReg) (off : BitVec 20) : Statement (.czero c rb off) := by
  intro x h ok
  cases h
  simp [decodeF, decodeMem, ifOk, withF, fLow, fType, fMode, eMask, vOk, dType, cSize, cSigned, cScope, cNoScope, fields26, fieldsM, fields32, Fields.off20, Fields.imm26, Fields.imm32, Fields.off38, ok]
theorem epush (c : Ctl) (rs rb : GReg) (off : BitVec 20) : Statement (.epush c rs rb off) := by
  intro x h ok
  cases h
  simp [decodeF, decodeMem, ifOk, withF, fLow, fType, fMode, eMask, vOk, dType, cSize, cSigned, cScope, cNoScope, fields26, fieldsM, fields32, Fields.off20, Fields.imm26, Fields.imm32, Fields.off38, ok]
theorem epop (c : Ctl) (rd rb : GReg) (off : BitVec 20) : Statement (.epop c rd rb off) := by
  intro x h ok
  cases h
  simp [decodeF, decodeMem, ifOk, withF, fLow, fType, fMode, eMask, vOk, dType, cSize, cSigned, cScope, cNoScope, fields26, fieldsM, fields32, Fields.off20, Fields.imm26, Fields.imm32, Fields.off38, ok]
theorem epeek (c : Ctl) (rd rb : GReg) (off : BitVec 20) : Statement (.epeek c rd rb off) := by
  intro x h ok
  cases h
  simp [decodeF, decodeMem, ifOk, withF, fLow, fType, fMode, eMask, vOk, dType, cSize, cSigned, cScope, cNoScope, fields26, fieldsM, fields32, Fields.off20, Fields.imm26, Fields.imm32, Fields.off38, ok]
theorem mst (c : Ctl) (rs rb : GReg) (sz : Size) (off : BitVec 20) : Statement (.mst c rs rb sz off) := by
  intro x h ok
  cases h
  simp [decodeF, decodeMem, ifOk, withF, fLow, fType, fMode, eMask, vOk, dType, cSize, cSigned, cScope, cNoScope, fields26, fieldsM, fields32, Fields.off20, Fields.imm26, Fields.imm32, Fields.off38, ok]
theorem mamo (c : Ctl) (op : AmoOp) (rd rs rb : GReg) (sz : Size) (sg : Bool) : Statement (.mamo c op rd rs rb sz sg) := by
  intro x h ok
  cases h
  simp [decodeF, decodeMem, ifOk, withF, fLow, fType, fMode, eMask, vOk, dType, cSize, cSigned, cScope, cNoScope, fields26, fieldsM, fields32, Fields.off20, Fields.imm26, Fields.imm32, Fields.off38, ok]
theorem mseq (c : Ctl) (rd rb : GReg) : Statement (.mseq c rd rb) := by
  intro x h ok
  cases h
  simp [decodeF, decodeMem, ifOk, withF, fLow, fType, fMode, eMask, vOk, dType, cSize, cSigned, cScope, cNoScope, fields26, fieldsM, fields32, Fields.off20, Fields.imm26, Fields.imm32, Fields.off38, ok]
theorem vld (c : Ctl) (vd : VReg) (rb : GReg) (off : BitVec 20) : Statement (.vld c vd rb off) := by
  intro x h ok
  cases h
  simp [decodeF, decodeVmem, ifOk, withF, fLow, fType, fMode, eMask, vOk, dType, cSize, cSigned, cScope, cNoScope, fields26, fieldsM, fields32, Fields.off20, Fields.imm26, Fields.imm32, Fields.off38, ok]
theorem vst (c : Ctl) (vs : VReg) (rb : GReg) (off : BitVec 20) : Statement (.vst c vs rb off) := by
  intro x h ok
  cases h
  simp [decodeF, decodeVmem, ifOk, withF, fLow, fType, fMode, eMask, vOk, dType, cSize, cSigned, cScope, cNoScope, fields26, fieldsM, fields32, Fields.off20, Fields.imm26, Fields.imm32, Fields.off38, ok]
theorem vlds (c : Ctl) (m : VMask) (vd : VReg) (rb rs : GReg) (sz : Size) : Statement (.vlds c m vd rb rs sz) := by
  intro x h ok
  cases h
  simp [decodeF, decodeVmem, ifOk, withF, fLow, fType, fMode, eMask, vOk, dType, cSize, cSigned, cScope, cNoScope, fields26, fieldsM, fields32, Fields.off20, Fields.imm26, Fields.imm32, Fields.off38, ok]
theorem vsts (c : Ctl) (pm : PReg) (vs : VReg) (rb rs : GReg) (sz : Size) : Statement (.vsts c pm vs rb rs sz) := by
  intro x h ok
  cases h
  simp [decodeF, decodeVmem, ifOk, withF, fLow, fType, fMode, eMask, vOk, dType, cSize, cSigned, cScope, cNoScope, fields26, fieldsM, fields32, Fields.off20, Fields.imm26, Fields.imm32, Fields.off38, ok]
theorem vldx (c : Ctl) (m : VMask) (vd : VReg) (rb : GReg) (vi : VReg) (sz : Size) (n : BitVec 3) : Statement (.vldx c m vd rb vi sz n) := by
  intro x h ok
  cases h
  simp [decodeF, decodeVmem, ifOk, withF, fLow, fType, fMode, eMask, vOk, dType, cSize, cSigned, cScope, cNoScope, fields26, fieldsM, fields32, Fields.off20, Fields.imm26, Fields.imm32, Fields.off38, ok]
theorem vstx (c : Ctl) (pm : PReg) (vs : VReg) (rb : GReg) (vi : VReg) (sz : Size) (n : BitVec 3) : Statement (.vstx c pm vs rb vi sz n) := by
  intro x h ok
  cases h
  simp [decodeF, decodeVmem, ifOk, withF, fLow, fType, fMode, eMask, vOk, dType, cSize, cSigned, cScope, cNoScope, fields26, fieldsM, fields32, Fields.off20, Fields.imm26, Fields.imm32, Fields.off38, ok]
theorem vldseg (c : Ctl) (vd : VReg) (rb : GReg) (sz : Size) (k1 : BitVec 2) (off : BitVec 20) : Statement (.vldseg c vd rb sz k1 off) := by
  intro x h ok
  cases h
  simp [decodeF, decodeVmem, ifOk, withF, fLow, fType, fMode, eMask, vOk, dType, cSize, cSigned, cScope, cNoScope, fields26, fieldsM, fields32, Fields.off20, Fields.imm26, Fields.imm32, Fields.off38, ok]
theorem vstseg (c : Ctl) (vs : VReg) (rb : GReg) (sz : Size) (k1 : BitVec 2) (off : BitVec 20) : Statement (.vstseg c vs rb sz k1 off) := by
  intro x h ok
  cases h
  simp [decodeF, decodeVmem, ifOk, withF, fLow, fType, fMode, eMask, vOk, dType, cSize, cSigned, cScope, cNoScope, fields26, fieldsM, fields32, Fields.off20, Fields.imm26, Fields.imm32, Fields.off38, ok]
theorem vldb (c : Ctl) (vd : VReg) (rb : GReg) (sz : Size) (off : BitVec 20) : Statement (.vldb c vd rb sz off) := by
  intro x h ok
  cases h
  simp [decodeF, decodeVmem, ifOk, withF, fLow, fType, fMode, eMask, vOk, dType, cSize, cSigned, cScope, cNoScope, fields26, fieldsM, fields32, Fields.off20, Fields.imm26, Fields.imm32, Fields.off38, ok]
theorem vldf (c : Ctl) (vd : VReg) (rb : GReg) (sz : Size) (off : BitVec 20) : Statement (.vldf c vd rb sz off) := by
  intro x h ok
  cases h
  simp [decodeF, decodeVmem, ifOk, withF, fLow, fType, fMode, eMask, vOk, dType, cSize, cSigned, cScope, cNoScope, fields26, fieldsM, fields32, Fields.off20, Fields.imm26, Fields.imm32, Fields.off38, ok]
theorem vadd (c : Ctl) (m : VMask) (t : VType) (w : Bool) (vd va vb : VReg) : Statement (.vadd c m t w vd va vb) := by
  intro x h ok
  cases h
  simp [decodeF, decodeVec, ifOk, withF, fLow, fType, fMode, eMask, vOk, dType, cSize, cSigned, cScope, cNoScope, ok]
theorem vsub (c : Ctl) (m : VMask) (t : VType) (w : Bool) (vd va vb : VReg) : Statement (.vsub c m t w vd va vb) := by
  intro x h ok
  cases h
  simp [decodeF, decodeVec, ifOk, withF, fLow, fType, fMode, eMask, vOk, dType, cSize, cSigned, cScope, cNoScope, ok]
theorem vmul (c : Ctl) (m : VMask) (t : VType) (w : Bool) (vd va vb : VReg) : Statement (.vmul c m t w vd va vb) := by
  intro x h ok
  cases h
  simp [decodeF, decodeVec, ifOk, withF, fLow, fType, fMode, eMask, vOk, dType, cSize, cSigned, cScope, cNoScope, ok]
theorem vmulh (c : Ctl) (m : VMask) (t : VType) (vd va vb : VReg) : Statement (.vmulh c m t vd va vb) := by
  intro x h ok
  cases h
  simp [decodeF, decodeVec, ifOk, withF, fLow, fType, fMode, eMask, vOk, dType, cSize, cSigned, cScope, cNoScope, ok]
theorem vmadd (c : Ctl) (m : VMask) (t : VType) (w : Bool) (vd va vb vc : VReg) : Statement (.vmadd c m t w vd va vb vc) := by
  intro x h ok
  cases h
  simp [decodeF, decodeVec, ifOk, withF, fLow, fType, fMode, eMask, vOk, dType, cSize, cSigned, cScope, cNoScope, ok]
theorem vaddsat (c : Ctl) (m : VMask) (t : VType) (vd va vb : VReg) : Statement (.vaddsat c m t vd va vb) := by
  intro x h ok
  cases h
  simp [decodeF, decodeVec, ifOk, withF, fLow, fType, fMode, eMask, vOk, dType, cSize, cSigned, cScope, cNoScope, ok]
theorem vsubsat (c : Ctl) (m : VMask) (t : VType) (vd va vb : VReg) : Statement (.vsubsat c m t vd va vb) := by
  intro x h ok
  cases h
  simp [decodeF, decodeVec, ifOk, withF, fLow, fType, fMode, eMask, vOk, dType, cSize, cSigned, cScope, cNoScope, ok]
theorem vmin (c : Ctl) (m : VMask) (t : VType) (vd va vb : VReg) : Statement (.vmin c m t vd va vb) := by
  intro x h ok
  cases h
  simp [decodeF, decodeVec, ifOk, withF, fLow, fType, fMode, eMask, vOk, dType, cSize, cSigned, cScope, cNoScope, ok]
theorem vmax (c : Ctl) (m : VMask) (t : VType) (vd va vb : VReg) : Statement (.vmax c m t vd va vb) := by
  intro x h ok
  cases h
  simp [decodeF, decodeVec, ifOk, withF, fLow, fType, fMode, eMask, vOk, dType, cSize, cSigned, cScope, cNoScope, ok]
theorem vabs (c : Ctl) (m : VMask) (t : VType) (vd va : VReg) : Statement (.vabs c m t vd va) := by
  intro x h ok
  cases h
  simp [decodeF, decodeVec, ifOk, withF, fLow, fType, fMode, eMask, vOk, dType, cSize, cSigned, cScope, cNoScope, ok]
theorem vand (c : Ctl) (m : VMask) (t : VType) (vd va vb : VReg) : Statement (.vand c m t vd va vb) := by
  intro x h ok
  cases h
  simp [decodeF, decodeVec, ifOk, withF, fLow, fType, fMode, eMask, vOk, dType, cSize, cSigned, cScope, cNoScope, ok]
theorem vor (c : Ctl) (m : VMask) (t : VType) (vd va vb : VReg) : Statement (.vor c m t vd va vb) := by
  intro x h ok
  cases h
  simp [decodeF, decodeVec, ifOk, withF, fLow, fType, fMode, eMask, vOk, dType, cSize, cSigned, cScope, cNoScope, ok]
theorem vxor (c : Ctl) (m : VMask) (t : VType) (vd va vb : VReg) : Statement (.vxor c m t vd va vb) := by
  intro x h ok
  cases h
  simp [decodeF, decodeVec, ifOk, withF, fLow, fType, fMode, eMask, vOk, dType, cSize, cSigned, cScope, cNoScope, ok]
theorem vandn (c : Ctl) (m : VMask) (t : VType) (vd va vb : VReg) : Statement (.vandn c m t vd va vb) := by
  intro x h ok
  cases h
  simp [decodeF, decodeVec, ifOk, withF, fLow, fType, fMode, eMask, vOk, dType, cSize, cSigned, cScope, cNoScope, ok]
theorem vshl (c : Ctl) (m : VMask) (t : VType) (imm : Bool) (vd va : VReg) (amt : BitVec 6) : Statement (.vshl c m t imm vd va amt) := by
  intro x h ok
  cases h
  simp [decodeF, decodeVec, ifOk, withF, fLow, fType, fMode, eMask, vOk, dType, cSize, cSigned, cScope, cNoScope, ok]
theorem vshr (c : Ctl) (m : VMask) (t : VType) (imm : Bool) (vd va : VReg) (amt : BitVec 6) : Statement (.vshr c m t imm vd va amt) := by
  intro x h ok
  cases h
  simp [decodeF, decodeVec, ifOk, withF, fLow, fType, fMode, eMask, vOk, dType, cSize, cSigned, cScope, cNoScope, ok]
theorem vsra (c : Ctl) (m : VMask) (t : VType) (imm : Bool) (vd va : VReg) (amt : BitVec 6) : Statement (.vsra c m t imm vd va amt) := by
  intro x h ok
  cases h
  simp [decodeF, decodeVec, ifOk, withF, fLow, fType, fMode, eMask, vOk, dType, cSize, cSigned, cScope, cNoScope, ok]
theorem vcmp (c : Ctl) (m : VMask) (t : VType) (cond : Cond) (pd : PReg) (va vb : VReg) : Statement (.vcmp c m t cond pd va vb) := by
  intro x h ok
  cases h
  simp [decodeF, decodeVec, ifOk, withF, fLow, fType, fMode, eMask, vOk, dType, cSize, cSigned, cScope, cNoScope, ok]
theorem vsel (c : Ctl) (m : VMask) (t : VType) (pn : PReg) (vd va vb : VReg) : Statement (.vsel c m t pn vd va vb) := by
  intro x h ok
  cases h
  simp [decodeF, decodeVec, ifOk, withF, fLow, fType, fMode, eMask, vOk, dType, cSize, cSigned, cScope, cNoScope, ok]
theorem vpopc (c : Ctl) (m : VMask) (t : VType) (vd va : VReg) : Statement (.vpopc c m t vd va) := by
  intro x h ok
  cases h
  simp [decodeF, decodeVec, ifOk, withF, fLow, fType, fMode, eMask, vOk, dType, cSize, cSigned, cScope, cNoScope, ok]
theorem vfadd (c : Ctl) (m : VMask) (t : VType) (rm : RMode) (w : Bool) (vd va vb : VReg) : Statement (.vfadd c m t rm w vd va vb) := by
  intro x h ok
  cases h
  simp [decodeF, decodeVec, ifOk, withF, fLow, fType, fMode, eMask, vOk, dType, cSize, cSigned, cScope, cNoScope, ok]
theorem vfsub (c : Ctl) (m : VMask) (t : VType) (rm : RMode) (w : Bool) (vd va vb : VReg) : Statement (.vfsub c m t rm w vd va vb) := by
  intro x h ok
  cases h
  simp [decodeF, decodeVec, ifOk, withF, fLow, fType, fMode, eMask, vOk, dType, cSize, cSigned, cScope, cNoScope, ok]
theorem vfmul (c : Ctl) (m : VMask) (t : VType) (rm : RMode) (w : Bool) (vd va vb : VReg) : Statement (.vfmul c m t rm w vd va vb) := by
  intro x h ok
  cases h
  simp [decodeF, decodeVec, ifOk, withF, fLow, fType, fMode, eMask, vOk, dType, cSize, cSigned, cScope, cNoScope, ok]
theorem vfma (c : Ctl) (m : VMask) (t : VType) (rm : RMode) (w : Bool) (vd va vb vc : VReg) : Statement (.vfma c m t rm w vd va vb vc) := by
  intro x h ok
  cases h
  simp [decodeF, decodeVec, ifOk, withF, fLow, fType, fMode, eMask, vOk, dType, cSize, cSigned, cScope, cNoScope, ok]
theorem vfdiv (c : Ctl) (m : VMask) (t : VType) (rm : RMode) (vd va vb : VReg) : Statement (.vfdiv c m t rm vd va vb) := by
  intro x h ok
  cases h
  simp [decodeF, decodeVec, ifOk, withF, fLow, fType, fMode, eMask, vOk, dType, cSize, cSigned, cScope, cNoScope, ok]
theorem vfsqrt (c : Ctl) (m : VMask) (t : VType) (rm : RMode) (vd va : VReg) : Statement (.vfsqrt c m t rm vd va) := by
  intro x h ok
  cases h
  simp [decodeF, decodeVec, ifOk, withF, fLow, fType, fMode, eMask, vOk, dType, cSize, cSigned, cScope, cNoScope, ok]
theorem vfmin (c : Ctl) (m : VMask) (t : VType) (vd va vb : VReg) : Statement (.vfmin c m t vd va vb) := by
  intro x h ok
  cases h
  simp [decodeF, decodeVec, ifOk, withF, fLow, fType, fMode, eMask, vOk, dType, cSize, cSigned, cScope, cNoScope, ok]
theorem vfmax (c : Ctl) (m : VMask) (t : VType) (vd va vb : VReg) : Statement (.vfmax c m t vd va vb) := by
  intro x h ok
  cases h
  simp [decodeF, decodeVec, ifOk, withF, fLow, fType, fMode, eMask, vOk, dType, cSize, cSigned, cScope, cNoScope, ok]
theorem vfcmp (c : Ctl) (m : VMask) (t : VType) (cond : Cond) (pd : PReg) (va vb : VReg) : Statement (.vfcmp c m t cond pd va vb) := by
  intro x h ok
  cases h
  simp [decodeF, decodeVec, ifOk, withF, fLow, fType, fMode, eMask, vOk, dType, cSize, cSigned, cScope, cNoScope, ok]
theorem vfabs (c : Ctl) (m : VMask) (t : VType) (vd va : VReg) : Statement (.vfabs c m t vd va) := by
  intro x h ok
  cases h
  simp [decodeF, decodeVec, ifOk, withF, fLow, fType, fMode, eMask, vOk, dType, cSize, cSigned, cScope, cNoScope, ok]
theorem vfneg (c : Ctl) (m : VMask) (t : VType) (vd va : VReg) : Statement (.vfneg c m t vd va) := by
  intro x h ok
  cases h
  simp [decodeF, decodeVec, ifOk, withF, fLow, fType, fMode, eMask, vOk, dType, cSize, cSigned, cScope, cNoScope, ok]
theorem vrcp (c : Ctl) (m : VMask) (rm : RMode) (vd va : VReg) : Statement (.vrcp c m rm vd va) := by
  intro x h ok
  cases h
  simp [decodeF, decodeVec, ifOk, withF, fLow, fType, fMode, eMask, vOk, dType, cSize, cSigned, cScope, cNoScope, ok]
theorem vrsqrt (c : Ctl) (m : VMask) (rm : RMode) (vd va : VReg) : Statement (.vrsqrt c m rm vd va) := by
  intro x h ok
  cases h
  simp [decodeF, decodeVec, ifOk, withF, fLow, fType, fMode, eMask, vOk, dType, cSize, cSigned, cScope, cNoScope, ok]
theorem vexp2 (c : Ctl) (m : VMask) (rm : RMode) (vd va : VReg) : Statement (.vexp2 c m rm vd va) := by
  intro x h ok
  cases h
  simp [decodeF, decodeVec, ifOk, withF, fLow, fType, fMode, eMask, vOk, dType, cSize, cSigned, cScope, cNoScope, ok]
theorem vlog2 (c : Ctl) (m : VMask) (rm : RMode) (vd va : VReg) : Statement (.vlog2 c m rm vd va) := by
  intro x h ok
  cases h
  simp [decodeF, decodeVec, ifOk, withF, fLow, fType, fMode, eMask, vOk, dType, cSize, cSigned, cScope, cNoScope, ok]
theorem vsin (c : Ctl) (m : VMask) (rm : RMode) (vd va : VReg) : Statement (.vsin c m rm vd va) := by
  intro x h ok
  cases h
  simp [decodeF, decodeVec, ifOk, withF, fLow, fType, fMode, eMask, vOk, dType, cSize, cSigned, cScope, cNoScope, ok]
theorem vcos (c : Ctl) (m : VMask) (rm : RMode) (vd va : VReg) : Statement (.vcos c m rm vd va) := by
  intro x h ok
  cases h
  simp [decodeF, decodeVec, ifOk, withF, fLow, fType, fMode, eMask, vOk, dType, cSize, cSigned, cScope, cNoScope, ok]
theorem vtanh (c : Ctl) (m : VMask) (rm : RMode) (vd va : VReg) : Statement (.vtanh c m rm vd va) := by
  intro x h ok
  cases h
  simp [decodeF, decodeVec, ifOk, withF, fLow, fType, fMode, eMask, vOk, dType, cSize, cSigned, cScope, cNoScope, ok]
theorem vcvt (c : Ctl) (m : VMask) (t : VType) (rm : RMode) (src : VType) (vd va : VReg) : Statement (.vcvt c m t rm src vd va) := by
  intro x h ok
  cases h
  simp [decodeF, decodeVec2, ifOk, withF, fLow, fType, fMode, eMask, vOk, dType, cSize, cSigned, cScope, cNoScope, ok]
theorem vwiden (c : Ctl) (m : VMask) (t : VType) (src : VType) (vd va : VReg) : Statement (.vwiden c m t src vd va) := by
  intro x h ok
  cases h
  simp [decodeF, decodeVec2, ifOk, withF, fLow, fType, fMode, eMask, vOk, dType, cSize, cSigned, cScope, cNoScope, ok]
theorem vnarrow (c : Ctl) (m : VMask) (t : VType) (f : BitVec 4) (src : VType) (vd va : VReg) : Statement (.vnarrow c m t f src vd va) := by
  intro x h ok
  cases h
  simp [decodeF, decodeVec2, ifOk, withF, fLow, fType, fMode, eMask, vOk, dType, cSize, cSigned, cScope, cNoScope, ok]
theorem vpack (c : Ctl) (t : VType) (b : BitVec 2) (vd va vb : VReg) : Statement (.vpack c t b vd va vb) := by
  intro x h ok
  cases h
  simp [decodeF, decodeVec2, ifOk, withF, fLow, fType, fMode, eMask, vOk, dType, cSize, cSigned, cScope, cNoScope, ok]
theorem vunpack (c : Ctl) (m : VMask) (t : VType) (b : BitVec 2) (q : BitVec 3) (vd va : VReg) : Statement (.vunpack c m t b q vd va) := by
  intro x h ok
  cases h
  simp [decodeF, decodeVec2, ifOk, withF, fLow, fType, fMode, eMask, vOk, dType, cSize, cSigned, cScope, cNoScope, ok]
theorem vredadd (c : Ctl) (pm : PReg) (t src : VType) (vd va vi : VReg) : Statement (.vredadd c pm t src vd va vi) := by
  intro x h ok
  cases h
  simp [decodeF, decodeVec2, ifOk, withF, fLow, fType, fMode, eMask, vOk, dType, cSize, cSigned, cScope, cNoScope, ok]
theorem vredmin (c : Ctl) (pm : PReg) (t : VType) (vd va vi : VReg) : Statement (.vredmin c pm t vd va vi) := by
  intro x h ok
  cases h
  simp [decodeF, decodeVec2, ifOk, withF, fLow, fType, fMode, eMask, vOk, dType, cSize, cSigned, cScope, cNoScope, ok]
theorem vredmax (c : Ctl) (pm : PReg) (t : VType) (vd va vi : VReg) : Statement (.vredmax c pm t vd va vi) := by
  intro x h ok
  cases h
  simp [decodeF, decodeVec2, ifOk, withF, fLow, fType, fMode, eMask, vOk, dType, cSize, cSigned, cScope, cNoScope, ok]
theorem vfredadd (c : Ctl) (pm : PReg) (t : VType) (rm : RMode) (src : VType) (vd va vi : VReg) : Statement (.vfredadd c pm t rm src vd va vi) := by
  intro x h ok
  cases h
  simp [decodeF, decodeVec2, ifOk, withF, fLow, fType, fMode, eMask, vOk, dType, cSize, cSigned, cScope, cNoScope, ok]
theorem vfredmax (c : Ctl) (pm : PReg) (t : VType) (vd va vi : VReg) : Statement (.vfredmax c pm t vd va vi) := by
  intro x h ok
  cases h
  simp [decodeF, decodeVec2, ifOk, withF, fLow, fType, fMode, eMask, vOk, dType, cSize, cSigned, cScope, cNoScope, ok]
theorem vscan (c : Ctl) (m : VMask) (t : VType) (rm : RMode) (vd va vi : VReg) : Statement (.vscan c m t rm vd va vi) := by
  intro x h ok
  cases h
  simp [decodeF, decodeVec2, ifOk, withF, fLow, fType, fMode, eMask, vOk, dType, cSize, cSigned, cScope, cNoScope, ok]
theorem vperm (c : Ctl) (m : VMask) (t : VType) (vd va vb vi : VReg) : Statement (.vperm c m t vd va vb vi) := by
  intro x h ok
  cases h
  simp [decodeF, decodeVec2, ifOk, withF, fLow, fType, fMode, eMask, vOk, dType, cSize, cSigned, cScope, cNoScope, ok]
theorem vslide (c : Ctl) (m : VMask) (t : VType) (vd va vb : VReg) (n : BitVec 6) : Statement (.vslide c m t vd va vb n) := by
  intro x h ok
  cases h
  simp [decodeF, decodeVec2, ifOk, withF, fLow, fType, fMode, eMask, vOk, dType, cSize, cSigned, cScope, cNoScope, ok]
theorem vrot (c : Ctl) (m : VMask) (t : VType) (vd va : VReg) (n : BitVec 6) : Statement (.vrot c m t vd va n) := by
  intro x h ok
  cases h
  simp [decodeF, decodeVec2, ifOk, withF, fLow, fType, fMode, eMask, vOk, dType, cSize, cSigned, cScope, cNoScope, ok]
theorem vzip (c : Ctl) (m : VMask) (t : VType) (hi : Bool) (vd va vb : VReg) : Statement (.vzip c m t hi vd va vb) := by
  intro x h ok
  cases h
  simp [decodeF, decodeVec2, ifOk, withF, fLow, fType, fMode, eMask, vOk, dType, cSize, cSigned, cScope, cNoScope, ok]
theorem vunzip (c : Ctl) (m : VMask) (t : VType) (odd : Bool) (vd va vb : VReg) : Statement (.vunzip c m t odd vd va vb) := by
  intro x h ok
  cases h
  simp [decodeF, decodeVec2, ifOk, withF, fLow, fType, fMode, eMask, vOk, dType, cSize, cSigned, cScope, cNoScope, ok]
theorem vcompress (c : Ctl) (m : VMask) (t : VType) (vd va : VReg) : Statement (.vcompress c m t vd va) := by
  intro x h ok
  cases h
  simp [decodeF, decodeVec2, ifOk, withF, fLow, fType, fMode, eMask, vOk, dType, cSize, cSigned, cScope, cNoScope, ok]
theorem vexpand (c : Ctl) (m : VMask) (t : VType) (vd va : VReg) : Statement (.vexpand c m t vd va) := by
  intro x h ok
  cases h
  simp [decodeF, decodeVec2, ifOk, withF, fLow, fType, fMode, eMask, vOk, dType, cSize, cSigned, cScope, cNoScope, ok]
theorem vbcast (c : Ctl) (m : VMask) (t : VType) (fromG : Bool) (vd : VReg) (src n : BitVec 6) : Statement (.vbcast c m t fromG vd src n) := by
  intro x h ok
  cases h
  simp [decodeF, decodeVec2, ifOk, withF, fLow, fType, fMode, eMask, vOk, dType, cSize, cSigned, cScope, cNoScope, ok]
theorem vins (c : Ctl) (t : VType) (vd : VReg) (ra : GReg) (n : BitVec 6) : Statement (.vins c t vd ra n) := by
  intro x h ok
  cases h
  simp [decodeF, decodeVec2, ifOk, withF, fLow, fType, fMode, eMask, vOk, dType, cSize, cSigned, cScope, cNoScope, ok]
theorem vext (c : Ctl) (t : VType) (rd : GReg) (va : VReg) (n : BitVec 6) : Statement (.vext c t rd va n) := by
  intro x h ok
  cases h
  simp [decodeF, decodeVec2, ifOk, withF, fLow, fType, fMode, eMask, vOk, dType, cSize, cSigned, cScope, cNoScope, ok]
theorem vdot4 (c : Ctl) (m : VMask) (t src : VType) (mix : Bool) (vd va vb : VReg) : Statement (.vdot4 c m t src mix vd va vb) := by
  intro x h ok
  cases h
  simp [decodeF, decodeVec2, ifOk, withF, fLow, fType, fMode, eMask, vOk, dType, cSize, cSigned, cScope, cNoScope, ok]
theorem vhist (c : Ctl) (pm : PReg) (t : VType) (q : BitVec 5) (vg va : VReg) : Statement (.vhist c pm t q vg va) := by
  intro x h ok
  cases h
  simp [decodeF, decodeVec2, ifOk, withF, fLow, fType, fMode, eMask, vOk, dType, cSize, cSigned, cScope, cNoScope, ok]
theorem vhmerge (c : Ctl) (m : VMask) (acc : Bool) (vd vg : VReg) : Statement (.vhmerge c m acc vd vg) := by
  intro x h ok
  cases h
  simp [decodeF, decodeVec2, ifOk, withF, fLow, fType, fMode, eMask, vOk, dType, cSize, cSigned, cScope, cNoScope, ok]
theorem vsortk (c : Ctl) (m : VMask) (t : VType) (desc : Bool) (vd va vi : VReg) : Statement (.vsortk c m t desc vd va vi) := by
  intro x h ok
  cases h
  simp [decodeF, decodeVec2, ifOk, withF, fLow, fType, fMode, eMask, vOk, dType, cSize, cSigned, cScope, cNoScope, ok]
theorem vmask (c : Ctl) (m : VMask) (t : VType) (sign : Bool) (pd : PReg) (va : VReg) : Statement (.vmask c m t sign pd va) := by
  intro x h ok
  cases h
  simp [decodeF, decodeVec2, ifOk, withF, fLow, fType, fMode, eMask, vOk, dType, cSize, cSigned, cScope, cNoScope, ok]
theorem tcfg (c : Ctl) (h : THandle) (rows1 : BitVec 6) (rb : BitVec 2) (f : TFmt) (desc force : Bool) : Statement (.tcfg c h rows1 rb f desc force) := by
  intro x h ok
  cases h
  have hw : (c.ok false && h.ok) = true := ok
  simp only [Bool.and_eq_true] at hw
  simp [decodeF, decodeTile, ifOk, withF, fLow, fType, fMode, eMask, vOk, dType, cSize, cSigned, cScope, cNoScope, asT_encH, asTp_encH, hw, ok]
theorem tzero (c : Ctl) (h : THandle) : Statement (.tzero c h) := by
  intro x h ok
  cases h
  have hw : (c.ok false && h.ok) = true := ok
  simp only [Bool.and_eq_true] at hw
  simp [decodeF, decodeTile, ifOk, withF, fLow, fType, fMode, eMask, vOk, dType, cSize, cSigned, cScope, cNoScope, asT_encH, asTp_encH, hw, ok]
theorem tld (c : Ctl) (h : THandle) (rb rs : GReg) (f : TFmt) (chk : Bool) (rc : GReg) (scale : BitVec 8) : Statement (.tld c h rb rs f chk rc scale) := by
  intro x h ok
  cases h
  have hw : (c.ok true && h.ok) = true := ok
  simp only [Bool.and_eq_true] at hw
  simp [decodeF, decodeTile, ifOk, withF, fLow, fType, fMode, eMask, vOk, dType, cSize, cSigned, cScope, cNoScope, asT_encH, asTp_encH, hw, ok]
theorem tst (c : Ctl) (h : THandle) (rb rs : GReg) (f : TFmt) (chk : Bool) (rc : GReg) : Statement (.tst c h rb rs f chk rc) := by
  intro x h ok
  cases h
  have hw : (c.ok true && h.ok) = true := ok
  simp only [Bool.and_eq_true] at hw
  simp [decodeF, decodeTile, ifOk, withF, fLow, fType, fMode, eMask, vOk, dType, cSize, cSigned, cScope, cNoScope, asT_encH, asTp_encH, hw, ok]
theorem tldd (c : Ctl) (h : THandle) (rb rs rdsc rc : GReg) (f : TFmt) (chk : Bool) : Statement (.tldd c h rb rs rdsc rc f chk) := by
  intro x h ok
  cases h
  have hw : (c.ok true && h.ok) = true := ok
  simp only [Bool.and_eq_true] at hw
  simp [decodeF, decodeTile, ifOk, withF, fLow, fType, fMode, eMask, vOk, dType, cSize, cSigned, cScope, cNoScope, asT_encH, asTp_encH, hw, ok]
theorem tstd (c : Ctl) (h : THandle) (rb rs rdsc rc : GReg) (f : TFmt) (chk : Bool) : Statement (.tstd c h rb rs rdsc rc f chk) := by
  intro x h ok
  cases h
  have hw : (c.ok true && h.ok) = true := ok
  simp only [Bool.and_eq_true] at hw
  simp [decodeF, decodeTile, ifOk, withF, fLow, fType, fMode, eMask, vOk, dType, cSize, cSigned, cScope, cNoScope, asT_encH, asTp_encH, hw, ok]
theorem tqst (c : Ctl) (h : THandle) (rb rs : GReg) (q : QReg) (auto : Bool) (re : GReg) (f : TFmt) (col : Bool) (k : KFactor) (cont : Bool) : Statement (.tqst c h rb rs q auto re f col k cont) := by
  intro x h ok
  cases h
  have hw : (c.ok true && h.ok && f != .fp32) = true := ok
  simp only [Bool.and_eq_true] at hw
  simp [decodeF, decodeTile, ifOk, withF, fLow, fType, fMode, eMask, vOk, dType, cSize, cSigned, cScope, cNoScope, asT_encH, asTp_encH, hw, ok]
theorem tmma (c : Ctl) (hc ha hb : THandle) : Statement (.tmma c hc ha hb) := by
  intro x h ok
  cases h
  have hw : (c.ok false && hc.priv && ha.ok && hb.ok) = true := ok
  simp only [Bool.and_eq_true] at hw
  simp [decodeF, decodeTile, ifOk, withF, fLow, fType, fMode, eMask, vOk, dType, cSize, cSigned, cScope, cNoScope, asT_encH, asTp_encH, hw, ok]
theorem tmmat (c : Ctl) (hc ha hb : THandle) (rfill : GReg) (fill : FillCode) (diag : BitVec 8) : Statement (.tmmat c hc ha hb rfill fill diag) := by
  intro x h ok
  cases h
  have hw : (c.ok false && hc.priv && ha.ok && hb.ok && (fill == .reg || rfill == 0)) = true := ok
  simp only [Bool.and_eq_true] at hw
  simp [decodeF, decodeTile, ifOk, withF, fLow, fType, fMode, eMask, vOk, dType, cSize, cSigned, cScope, cNoScope, asT_encH, asTp_encH, hw, ok]
theorem tadd (c : Ctl) (hd ha hb : THandle) (m : RMode) : Statement (.tadd c hd ha hb m) := by
  intro x h ok
  cases h
  have hw : (c.ok false && hd.ok && ha.ok && hb.ok) = true := ok
  simp only [Bool.and_eq_true] at hw
  simp [decodeF, decodeTile, ifOk, withF, fLow, fType, fMode, eMask, vOk, dType, cSize, cSigned, cScope, cNoScope, asT_encH, asTp_encH, hw, ok]
theorem tscale (c : Ctl) (hd ha : THandle) (rs : GReg) (m : RMode) : Statement (.tscale c hd ha rs m) := by
  intro x h ok
  cases h
  have hw : (c.ok false && hd.ok && ha.ok) = true := ok
  simp only [Bool.and_eq_true] at hw
  simp [decodeF, decodeTile, ifOk, withF, fLow, fType, fMode, eMask, vOk, dType, cSize, cSigned, cScope, cNoScope, asT_encH, asTp_encH, hw, ok]
theorem tcvt (c : Ctl) (hd ha : THandle) (m : RMode) (sat : Bool) : Statement (.tcvt c hd ha m sat) := by
  intro x h ok
  cases h
  have hw : (c.ok false && hd.ok && ha.ok) = true := ok
  simp only [Bool.and_eq_true] at hw
  simp [decodeF, decodeTile, ifOk, withF, fLow, fType, fMode, eMask, vOk, dType, cSize, cSigned, cScope, cNoScope, asT_encH, asTp_encH, hw, ok]
theorem ttrans (c : Ctl) (hd ha : THandle) : Statement (.ttrans c hd ha) := by
  intro x h ok
  cases h
  have hw : (c.ok false && hd.ok && ha.ok) = true := ok
  simp only [Bool.and_eq_true] at hw
  simp [decodeF, decodeTile, ifOk, withF, fLow, fType, fMode, eMask, vOk, dType, cSize, cSigned, cScope, cNoScope, asT_encH, asTp_encH, hw, ok]
theorem tmov (c : Ctl) (hd ha : THandle) : Statement (.tmov c hd ha) := by
  intro x h ok
  cases h
  have hw : (c.ok false && hd.ok && ha.ok) = true := ok
  simp only [Bool.and_eq_true] at hw
  simp [decodeF, decodeTile, ifOk, withF, fLow, fType, fMode, eMask, vOk, dType, cSize, cSigned, cScope, cNoScope, asT_encH, asTp_encH, hw, ok]
theorem trow (c : Ctl) (h : THandle) (v : VReg) (ri : GReg) (toV : Bool) : Statement (.trow c h v ri toV) := by
  intro x h ok
  cases h
  have hw : (c.ok false && h.ok) = true := ok
  simp only [Bool.and_eq_true] at hw
  simp [decodeF, decodeTile, ifOk, withF, fLow, fType, fMode, eMask, vOk, dType, cSize, cSigned, cScope, cNoScope, asT_encH, asTp_encH, hw, ok]
theorem trowi (c : Ctl) (h : THandle) (v : VReg) (i : BitVec 6) (toV : Bool) : Statement (.trowi c h v i toV) := by
  intro x h ok
  cases h
  have hw : (c.ok false && h.ok) = true := ok
  simp only [Bool.and_eq_true] at hw
  simp [decodeF, decodeTile, ifOk, withF, fLow, fType, fMode, eMask, vOk, dType, cSize, cSigned, cScope, cNoScope, asT_encH, asTp_encH, hw, ok]
theorem tred (c : Ctl) (v : VReg) (ha : THandle) (m : RMode) (max col : Bool) : Statement (.tred c v ha m max col) := by
  intro x h ok
  cases h
  have hw : (c.ok false && aligned v 4 && ha.ok) = true := ok
  simp only [Bool.and_eq_true] at hw
  simp [decodeF, decodeTile, ifOk, withF, fLow, fType, fMode, eMask, vOk, dType, cSize, cSigned, cScope, cNoScope, asT_encH, asTp_encH, hw, ok]
theorem trel (c : Ctl) (h : THandle) : Statement (.trel c h) := by
  intro x h ok
  cases h
  have hw : (c.ok false && h.ok) = true := ok
  simp only [Bool.and_eq_true] at hw
  simp [decodeF, decodeTile, ifOk, withF, fLow, fType, fMode, eMask, vOk, dType, cSize, cSigned, cScope, cNoScope, asT_encH, asTp_encH, hw, ok]
theorem tinfo (c : Ctl) (rd : GReg) (h : THandle) : Statement (.tinfo c rd h) := by
  intro x h ok
  cases h
  have hw : (c.ok false && h.ok) = true := ok
  simp only [Bool.and_eq_true] at hw
  simp [decodeF, decodeTile, ifOk, withF, fLow, fType, fMode, eMask, vOk, dType, cSize, cSigned, cScope, cNoScope, asT_encH, asTp_encH, hw, ok]
theorem tsave (c : Ctl) (h : THandle) (rb : GReg) : Statement (.tsave c h rb) := by
  intro x h ok
  cases h
  have hw : (c.ok false && h.ok) = true := ok
  simp only [Bool.and_eq_true] at hw
  simp [decodeF, decodeTile, ifOk, withF, fLow, fType, fMode, eMask, vOk, dType, cSize, cSigned, cScope, cNoScope, asT_encH, asTp_encH, hw, ok]
theorem trest (c : Ctl) (h : THandle) (rb : GReg) : Statement (.trest c h rb) := by
  intro x h ok
  cases h
  have hw : (c.ok false && h.ok) = true := ok
  simp only [Bool.and_eq_true] at hw
  simp [decodeF, decodeTile, ifOk, withF, fLow, fType, fMode, eMask, vOk, dType, cSize, cSigned, cScope, cNoScope, asT_encH, asTp_encH, hw, ok]
theorem qcclr (c : Ctl) (mask : BitVec 8) : Statement (.qcclr c mask) := by
  intro x h ok
  cases h
  simp [decodeF, decodeTile, ifOk, withF, fLow, fType, fMode, eMask, vOk, dType, cSize, cSigned, cScope, cNoScope, ok]
theorem qcrd (c : Ctl) (v : VReg) (q : QReg) : Statement (.qcrd c v q) := by
  intro x h ok
  cases h
  simp [decodeF, decodeTile, ifOk, withF, fLow, fType, fMode, eMask, vOk, dType, cSize, cSigned, cScope, cNoScope, ok]
theorem qcwr (c : Ctl) (v : VReg) (q : QReg) : Statement (.qcwr c v q) := by
  intro x h ok
  cases h
  simp [decodeF, decodeTile, ifOk, withF, fLow, fType, fMode, eMask, vOk, dType, cSize, cSigned, cScope, cNoScope, ok]
theorem spawn (c : Ctl) (rd rpair rctl : GReg) (lo hi : GReg) (place : BitVec 3) : Statement (.spawn c rd rpair rctl lo hi place) := by
  intro x h ok
  cases h
  simp [decodeF, decodeSys, ifOk, withF, fLow, fType, fMode, eMask, vOk, dType, cSize, cSigned, cScope, cNoScope, fields26, fieldsM, fields32, Fields.off20, Fields.imm26, Fields.imm32, Fields.off38, ok]
theorem spawng (c : Ctl) (rd rpair rrule rext : GReg) (hi : GReg) (place : BitVec 3) : Statement (.spawng c rd rpair rrule rext hi place) := by
  intro x h ok
  cases h
  simp [decodeF, decodeSys, ifOk, withF, fLow, fType, fMode, eMask, vOk, dType, cSize, cSigned, cScope, cNoScope, fields26, fieldsM, fields32, Fields.off20, Fields.imm26, Fields.imm32, Fields.off38, ok]
theorem exit (c : Ctl) : Statement (.exit c) := by
  intro x h ok
  cases h
  simp [decodeF, decodeSys, ifOk, withF, fLow, fType, fMode, eMask, vOk, dType, cSize, cSigned, cScope, cNoScope, fields26, fieldsM, fields32, Fields.off20, Fields.imm26, Fields.imm32, Fields.off38, ok]
theorem task (c : Ctl) (rd rdesc : GReg) : Statement (.task c rd rdesc) := by
  intro x h ok
  cases h
  simp [decodeF, decodeSys, ifOk, withF, fLow, fType, fMode, eMask, vOk, dType, cSize, cSigned, cScope, cNoScope, fields26, fieldsM, fields32, Fields.off20, Fields.imm26, Fields.imm32, Fields.off38, ok]
theorem taskw (c : Ctl) (rd rdesc : GReg) : Statement (.taskw c rd rdesc) := by
  intro x h ok
  cases h
  simp [decodeF, decodeSys, ifOk, withF, fLow, fType, fMode, eMask, vOk, dType, cSize, cSigned, cScope, cNoScope, fields26, fieldsM, fields32, Fields.off20, Fields.imm26, Fields.imm32, Fields.off38, ok]
theorem waitc (c : Ctl) (rctr : GReg) (la lb lc ld : BitVec 6) : Statement (.waitc c rctr la lb lc ld) := by
  intro x h ok
  cases h
  simp [decodeF, decodeSys, ifOk, withF, fLow, fType, fMode, eMask, vOk, dType, cSize, cSigned, cScope, cNoScope, fields26, fieldsM, fields32, Fields.off20, Fields.imm26, Fields.imm32, Fields.off38, ok]
theorem bara (c : Ctl) (rd : GReg) (b : BitVec 4) : Statement (.bara c rd b) := by
  intro x h ok
  cases h
  simp [decodeF, decodeSys, ifOk, withF, fLow, fType, fMode, eMask, vOk, dType, cSize, cSigned, cScope, cNoScope, fields26, fieldsM, fields32, Fields.off20, Fields.imm26, Fields.imm32, Fields.off38, ok]
theorem barw (c : Ctl) (rt : GReg) (b : BitVec 4) : Statement (.barw c rt b) := by
  intro x h ok
  cases h
  simp [decodeF, decodeSys, ifOk, withF, fLow, fType, fMode, eMask, vOk, dType, cSize, cSigned, cScope, cNoScope, fields26, fieldsM, fields32, Fields.off20, Fields.imm26, Fields.imm32, Fields.off38, ok]
theorem barinit (c : Ctl) (rn : GReg) (b : BitVec 4) : Statement (.barinit c rn b) := by
  intro x h ok
  cases h
  simp [decodeF, decodeSys, ifOk, withF, fLow, fType, fMode, eMask, vOk, dType, cSize, cSigned, cScope, cNoScope, fields26, fieldsM, fields32, Fields.off20, Fields.imm26, Fields.imm32, Fields.off38, ok]
theorem yield (c : Ctl) : Statement (.yield c) := by
  intro x h ok
  cases h
  simp [decodeF, decodeSys, ifOk, withF, fLow, fType, fMode, eMask, vOk, dType, cSize, cSigned, cScope, cNoScope, fields26, fieldsM, fields32, Fields.off20, Fields.imm26, Fields.imm32, Fields.off38, ok]
theorem uiret (c : Ctl) : Statement (.uiret c) := by
  intro x h ok
  cases h
  simp [decodeF, decodeSys, ifOk, withF, fLow, fType, fMode, eMask, vOk, dType, cSize, cSigned, cScope, cNoScope, fields26, fieldsM, fields32, Fields.off20, Fields.imm26, Fields.imm32, Fields.off38, ok]
theorem uien (c : Ctl) (v : Bool) : Statement (.uien c v) := by
  intro x h ok
  cases h
  simp [decodeF, decodeSys, ifOk, withF, fLow, fType, fMode, eMask, vOk, dType, cSize, cSigned, cScope, cNoScope, fields26, fieldsM, fields32, Fields.off20, Fields.imm26, Fields.imm32, Fields.off38, ok]
theorem csrr (c : Ctl) (rd : GReg) (n : BitVec 12) : Statement (.csrr c rd n) := by
  intro x h ok
  cases h
  simp [decodeF, decodeSys, ifOk, withF, fLow, fType, fMode, eMask, vOk, dType, cSize, cSigned, cScope, cNoScope, fields26, fieldsM, fields32, Fields.off20, Fields.imm26, Fields.imm32, Fields.off38, ok]
theorem csrw (c : Ctl) (rd rs : GReg) (n : BitVec 12) : Statement (.csrw c rd rs n) := by
  intro x h ok
  cases h
  simp [decodeF, decodeSys, ifOk, withF, fLow, fType, fMode, eMask, vOk, dType, cSize, cSigned, cScope, cNoScope, fields26, fieldsM, fields32, Fields.off20, Fields.imm26, Fields.imm32, Fields.off38, ok]
theorem csrs (c : Ctl) (rd rs : GReg) (n : BitVec 12) : Statement (.csrs c rd rs n) := by
  intro x h ok
  cases h
  simp [decodeF, decodeSys, ifOk, withF, fLow, fType, fMode, eMask, vOk, dType, cSize, cSigned, cScope, cNoScope, fields26, fieldsM, fields32, Fields.off20, Fields.imm26, Fields.imm32, Fields.off38, ok]
theorem csrc (c : Ctl) (rd rs : GReg) (n : BitVec 12) : Statement (.csrc c rd rs n) := by
  intro x h ok
  cases h
  simp [decodeF, decodeSys, ifOk, withF, fLow, fType, fMode, eMask, vOk, dType, cSize, cSigned, cScope, cNoScope, fields26, fieldsM, fields32, Fields.off20, Fields.imm26, Fields.imm32, Fields.off38, ok]
theorem ecall (c : Ctl) : Statement (.ecall c) := by
  intro x h ok
  cases h
  simp [decodeF, decodeSys, ifOk, withF, fLow, fType, fMode, eMask, vOk, dType, cSize, cSigned, cScope, cNoScope, fields26, fieldsM, fields32, Fields.off20, Fields.imm26, Fields.imm32, Fields.off38, ok]
theorem ebreak (c : Ctl) : Statement (.ebreak c) := by
  intro x h ok
  cases h
  simp [decodeF, decodeSys, ifOk, withF, fLow, fType, fMode, eMask, vOk, dType, cSize, cSigned, cScope, cNoScope, fields26, fieldsM, fields32, Fields.off20, Fields.imm26, Fields.imm32, Fields.off38, ok]
theorem sret (c : Ctl) : Statement (.sret c) := by
  intro x h ok
  cases h
  simp [decodeF, decodeSys, ifOk, withF, fLow, fType, fMode, eMask, vOk, dType, cSize, cSigned, cScope, cNoScope, fields26, fieldsM, fields32, Fields.off20, Fields.imm26, Fields.imm32, Fields.off38, ok]
theorem mret (c : Ctl) : Statement (.mret c) := by
  intro x h ok
  cases h
  simp [decodeF, decodeSys, ifOk, withF, fLow, fType, fMode, eMask, vOk, dType, cSize, cSigned, cScope, cNoScope, fields26, fieldsM, fields32, Fields.off20, Fields.imm26, Fields.imm32, Fields.off38, ok]
theorem wfi (c : Ctl) : Statement (.wfi c) := by
  intro x h ok
  cases h
  simp [decodeF, decodeSys, ifOk, withF, fLow, fType, fMode, eMask, vOk, dType, cSize, cSigned, cScope, cNoScope, fields26, fieldsM, fields32, Fields.off20, Fields.imm26, Fields.imm32, Fields.off38, ok]
theorem tlbinv (c : Ctl) (rasid raddr : GReg) : Statement (.tlbinv c rasid raddr) := by
  intro x h ok
  cases h
  simp [decodeF, decodeSys, ifOk, withF, fLow, fType, fMode, eMask, vOk, dType, cSize, cSigned, cScope, cNoScope, fields26, fieldsM, fields32, Fields.off20, Fields.imm26, Fields.imm32, Fields.off38, ok]
theorem tlbinvAs (c : Ctl) (rasid : GReg) : Statement (.tlbinvAs c rasid) := by
  intro x h ok
  cases h
  simp [decodeF, decodeSys, ifOk, withF, fLow, fType, fMode, eMask, vOk, dType, cSize, cSigned, cScope, cNoScope, fields26, fieldsM, fields32, Fields.off20, Fields.imm26, Fields.imm32, Fields.off38, ok]
theorem tlbinvall (c : Ctl) : Statement (.tlbinvall c) := by
  intro x h ok
  cases h
  simp [decodeF, decodeSys, ifOk, withF, fLow, fType, fMode, eMask, vOk, dType, cSize, cSigned, cScope, cNoScope, fields26, fieldsM, fields32, Fields.off20, Fields.imm26, Fields.imm32, Fields.off38, ok]
theorem slotcfg (c : Ctl) (rd rsel rval : GReg) : Statement (.slotcfg c rd rsel rval) := by
  intro x h ok
  cases h
  simp [decodeF, decodeSys, ifOk, withF, fLow, fType, fMode, eMask, vOk, dType, cSize, cSigned, cScope, cNoScope, fields26, fieldsM, fields32, Fields.off20, Fields.imm26, Fields.imm32, Fields.off38, ok]
theorem vsavectx (c : Ctl) (rb rh : GReg) (v p q other : Bool) : Statement (.vsavectx c rb rh v p q other) := by
  intro x h ok
  cases h
  simp [decodeF, decodeSys, ifOk, withF, fLow, fType, fMode, eMask, vOk, dType, cSize, cSigned, cScope, cNoScope, fields26, fieldsM, fields32, Fields.off20, Fields.imm26, Fields.imm32, Fields.off38, ok]
theorem vrestctx (c : Ctl) (rb rh : GReg) (v p q other : Bool) : Statement (.vrestctx c rb rh v p q other) := by
  intro x h ok
  cases h
  simp [decodeF, decodeSys, ifOk, withF, fLow, fType, fMode, eMask, vOk, dType, cSize, cSigned, cScope, cNoScope, fields26, fieldsM, fields32, Fields.off20, Fields.imm26, Fields.imm32, Fields.off38, ok]
theorem chunkbrk (c : Ctl) : Statement (.chunkbrk c) := by
  intro x h ok
  cases h
  simp [decodeF, decodeSys, ifOk, withF, fLow, fType, fMode, eMask, vOk, dType, cSize, cSigned, cScope, cNoScope, fields26, fieldsM, fields32, Fields.off20, Fields.imm26, Fields.imm32, Fields.off38, ok]
theorem halt (c : Ctl) : Statement (.halt c) := by
  intro x h ok
  cases h
  simp [decodeF, decodeSys, ifOk, withF, fLow, fType, fMode, eMask, vOk, dType, cSize, cSigned, cScope, cNoScope, fields26, fieldsM, fields32, Fields.off20, Fields.imm26, Fields.imm32, Fields.off38, ok]
theorem copy (h : Nat) (cmd : Cmd) : Statement (.copy h cmd) := none_of rfl
theorem copy2d (h : Nat) (cmd : Cmd) : Statement (.copy2d h cmd) := none_of rfl
theorem gather (h : Nat) (cmd : Cmd) : Statement (.gather h cmd) := none_of rfl
theorem scatter (h : Nat) (cmd : Cmd) : Statement (.scatter h cmd) := none_of rfl
theorem fill (h : Nat) (cmd : Cmd) : Statement (.fill h cmd) := none_of rfl
theorem rowcopy (h : Nat) (cmd : Cmd) : Statement (.rowcopy h cmd) := none_of rfl
theorem rowinit (h : Nat) (cmd : Cmd) : Statement (.rowinit h cmd) := none_of rfl
theorem mcopy (h : Nat) (cmd : Cmd) : Statement (.mcopy h cmd) := none_of rfl
theorem shload (h : Nat) (cmd : Cmd) : Statement (.shload h cmd) := none_of rfl
theorem save (h : Nat) (cmd : Cmd) : Statement (.save h cmd) := none_of rfl
theorem restore (h : Nat) (cmd : Cmd) : Statement (.restore h cmd) := none_of rfl
theorem rowBlockStep : Statement .rowBlockStep := none_of rfl
theorem chunkPresent : Statement .chunkPresent := none_of rfl
theorem corniceRecheck : Statement .corniceRecheck := none_of rfl
theorem chunkCommit : Statement .chunkCommit := none_of rfl
theorem sharedTransferApply : Statement .sharedTransferApply := none_of rfl
theorem trapDelivery : Statement .trapDelivery := none_of rfl
theorem interruptDelivery : Statement .interruptDelivery := none_of rfl
theorem userInterrupt : Statement .userInterrupt := none_of rfl
theorem machineCheck : Statement .machineCheck := none_of rfl
theorem timecmpMatch : Statement .timecmpMatch := none_of rfl
theorem swintWrite : Statement .swintWrite := none_of rfl
theorem watchdog : Statement .watchdog := none_of rfl
theorem wdwinBind : Statement .wdwinBind := none_of rfl
theorem wdwinUnbind : Statement .wdwinUnbind := none_of rfl
theorem ustatImageWrite : Statement .ustatImageWrite := none_of rfl
theorem decodeSelect : Statement .decodeSelect := none_of rfl
theorem park : Statement .park := none_of rfl
theorem bringIn : Statement .bringIn := none_of rfl
theorem preempt : Statement .preempt := none_of rfl
theorem waitEnd : Statement .waitEnd := none_of rfl
theorem gangMemberPlace : Statement .gangMemberPlace := none_of rfl
theorem readyPoolPlace : Statement .readyPoolPlace := none_of rfl
theorem tileRename : Statement .tileRename := none_of rfl
theorem engineDispatch : Statement .engineDispatch := none_of rfl
theorem engineOpStart : Statement .engineOpStart := none_of rfl
theorem engineOpComplete : Statement .engineOpComplete := none_of rfl
theorem sfuDequeue : Statement .sfuDequeue := none_of rfl
theorem sfuResult : Statement .sfuResult := none_of rfl
theorem pageWalk : Statement .pageWalk := none_of rfl
theorem tlbinvSequence : Statement .tlbinvSequence := none_of rfl
theorem tlbinvComplete : Statement .tlbinvComplete := none_of rfl
theorem gets : Statement .gets := none_of rfl
theorem getm : Statement .getm := none_of rfl
theorem upg : Statement .upg := none_of rfl
theorem inv : Statement .inv := none_of rfl
theorem fwds : Statement .fwds := none_of rfl
theorem fwdm : Statement .fwdm := none_of rfl
theorem backinv : Statement .backinv := none_of rfl
theorem data : Statement .data := none_of rfl
theorem datae : Statement .datae := none_of rfl
theorem ack : Statement .ack := none_of rfl
theorem fwdmiss : Statement .fwdmiss := none_of rfl
theorem evictm : Statement .evictm := none_of rfl
theorem rds : Statement .rds := none_of rfl
theorem rdm : Statement .rdm := none_of rfl
theorem fwdack : Statement .fwdack := none_of rfl
theorem invack : Statement .invack := none_of rfl
theorem complete : Statement .complete := none_of rfl
theorem wbdata : Statement .wbdata := none_of rfl
theorem wback : Statement .wback := none_of rfl
theorem prds : Statement .prds := none_of rfl
theorem prdm : Statement .prdm := none_of rfl
theorem pwrupd : Statement .pwrupd := none_of rfl
theorem pwrack : Statement .pwrack := none_of rfl
theorem pfwds : Statement .pfwds := none_of rfl
theorem pfwdm : Statement .pfwdm := none_of rfl
theorem pinv : Statement .pinv := none_of rfl
theorem pbackinv : Statement .pbackinv := none_of rfl
theorem pdata : Statement .pdata := none_of rfl
theorem pdatae : Statement .pdatae := none_of rfl
theorem pack : Statement .pack := none_of rfl
theorem pfwdmiss : Statement .pfwdmiss := none_of rfl
theorem pwb : Statement .pwb := none_of rfl
theorem pwback : Statement .pwback := none_of rfl
theorem phold : Statement .phold := none_of rfl
theorem holdResponseTimer : Statement .holdResponseTimer := none_of rfl
theorem fprobe : Statement .fprobe := none_of rfl
theorem fecho : Statement .fecho := none_of rfl
theorem probeTimeout : Statement .probeTimeout := none_of rfl
theorem requestTimeout : Statement .requestTimeout := none_of rfl
theorem mreq : Statement .mreq := none_of rfl
theorem mapply : Statement .mapply := none_of rfl
theorem mack : Statement .mack := none_of rfl
theorem mdone : Statement .mdone := none_of rfl
theorem mstate : Statement .mstate := none_of rfl
theorem mstateack : Statement .mstateack := none_of rfl
theorem mresume : Statement .mresume := none_of rfl
theorem groupActivate : Statement .groupActivate := none_of rfl
theorem groupReform : Statement .groupReform := none_of rfl
theorem groupDeactivate : Statement .groupDeactivate := none_of rfl
theorem heartbeat : Statement .heartbeat := none_of rfl
theorem hbreq : Statement .hbreq := none_of rfl
theorem hbans : Statement .hbans := none_of rfl
theorem lostdecl : Statement .lostdecl := none_of rfl
theorem lostself : Statement .lostself := none_of rfl
theorem deviceLostTimeout : Statement .deviceLostTimeout := none_of rfl
theorem linkTrain : Statement .linkTrain := none_of rfl
theorem fabricJoin : Statement .fabricJoin := none_of rfl
theorem flitCrcFail : Statement .flitCrcFail := none_of rfl
theorem heartbeatTimeout : Statement .heartbeatTimeout := none_of rfl
theorem linkRetrainTimeout : Statement .linkRetrainTimeout := none_of rfl
theorem attest : Statement .attest := none_of rfl
theorem portIdlePark : Statement .portIdlePark := none_of rfl
theorem parkreq : Statement .parkreq := none_of rfl
theorem parkack : Statement .parkack := none_of rfl
theorem wakereq : Statement .wakereq := none_of rfl
theorem wakeack : Statement .wakeack := none_of rfl
theorem portWake : Statement .portWake := none_of rfl
theorem wavelengthRejoin : Statement .wavelengthRejoin := none_of rfl
theorem forcedPark : Statement .forcedPark := none_of rfl
theorem forcedParkRelease : Statement .forcedParkRelease := none_of rfl
theorem hbmRequest : Statement .hbmRequest := none_of rfl
theorem rowIdleClose : Statement .rowIdleClose := none_of rfl
theorem bankRefresh : Statement .bankRefresh := none_of rfl
theorem scrubRead : Statement .scrubRead := none_of rfl
theorem scrubWrite : Statement .scrubWrite := none_of rfl
theorem criticalTempAssert : Statement .criticalTempAssert := none_of rfl
theorem selfRefreshEnter : Statement .selfRefreshEnter := none_of rfl
theorem criticalTempDeassert : Statement .criticalTempDeassert := none_of rfl
theorem selfRefreshExit : Statement .selfRefreshExit := none_of rfl
theorem marginMeasure : Statement .marginMeasure := none_of rfl
theorem chstatTrainreq : Statement .chstatTrainreq := none_of rfl
theorem retrainingHold : Statement .retrainingHold := none_of rfl
theorem trainingEnd : Statement .trainingEnd := none_of rfl
theorem hardwareError : Statement .hardwareError := none_of rfl
theorem hartRelocate : Statement .hartRelocate := none_of rfl
theorem fatalError : Statement .fatalError := none_of rfl
theorem powerTick : Statement .powerTick := none_of rfl
theorem dieCriticalTemp : Statement .dieCriticalTemp := none_of rfl
theorem hbmThrottle : Statement .hbmThrottle := none_of rfl
theorem coolantInletAlert : Statement .coolantInletAlert := none_of rfl
theorem perst : Statement .perst := none_of rfl
theorem mgmtReset : Statement .mgmtReset := none_of rfl
theorem bootRom : Statement .bootRom := none_of rfl
theorem provisioningRequest : Statement .provisioningRequest := none_of rfl
theorem spdmKeyExchange : Statement .spdmKeyExchange := none_of rfl
theorem spdmMeasurements : Statement .spdmMeasurements := none_of rfl
theorem keySlotLoad : Statement .keySlotLoad := none_of rfl
theorem virtioFeaturesOk : Statement .virtioFeaturesOk := none_of rfl
theorem virtioNetRequest : Statement .virtioNetRequest := none_of rfl
theorem virtioBlkRequest : Statement .virtioBlkRequest := none_of rfl
theorem virtioConsoleRequest : Statement .virtioConsoleRequest := none_of rfl
theorem vsockConnect : Statement .vsockConnect := none_of rfl
theorem functionLevelReset : Statement .functionLevelReset := none_of rfl
theorem pldmSensorRequest : Statement .pldmSensorRequest := none_of rfl
theorem registerWrite : Statement .registerWrite := none_of rfl
theorem survivorUnreachable : Statement .survivorUnreachable := none_of rfl
theorem messageRelay : Statement .messageRelay := none_of rfl
theorem unknownMessageCode : Statement .unknownMessageCode := none_of rfl
theorem pairAcknowledgement : Statement .pairAcknowledgement := none_of rfl
theorem hbmThrottleEnd : Statement .hbmThrottleEnd := none_of rfl

end Sys2Proof.Laws.RoundTrip
end

