-- ==== Sys2Proof/Tests/Slice0.lean ====
section
/-!
SUPPORT. Tests of the model: words written out from the encoding tables of the spec and what they decode to, single steps
on small states with results that the spec states, the refusals of well-formedness, and for each statement a state and
operands that meet its hypotheses. A word given as one number stands so in the spec or in its examples; the others are built field by field from R216 and
R219.
-/

namespace Sys2Proof.Tests
set_option Elab.async false
open Sys2Proof Sys2Proof.Machine Sys2Proof.Safety

/-! ## Decoding -/

/-- No guard, no hint, no chunk break. -/
abbrev c0 : Ctl := ⟨0, false, 0, false, 0, false, 0⟩
/-- Every lane active. -/
abbrev m0 : VMask := ⟨false, 0⟩

/-- An unguarded word of the R, MX, V or T form, from its fields (R216). -/
def word (op a b c d e f : Nat) : Word :=
  BitVec.ofNat 64 (op * 2 ^ 54 + a * 2 ^ 32 + b * 2 ^ 26 + c * 2 ^ 20 + d * 2 ^ 14 + e * 2 ^ 8 + f)
/-- An unguarded word of the M form (R219). -/
def wordM (op a b c off : Nat) : Word := BitVec.ofNat 64 (op * 2 ^ 54 + a * 2 ^ 32 + b * 2 ^ 26 + c * 2 ^ 20 + off)
/-- Each word decodes to its instruction. -/
def reads (l : List (Word × Instr)) : Bool := l.all fun p => decode p.1 == some p.2

theorem test_decode_scalar_registers : reads [
    (word 0x001 3 61 5 0 0 0x0, .add c0 3 61 5),
    (word 0x002 3 61 5 0 0 0x0, .sub c0 3 61 5),
    (word 0x003 3 61 5 0 0 0x0, .mul c0 3 61 5),
    (word 0x004 3 61 5 0 0 0x0, .mulh c0 3 61 5),
    (word 0x005 3 61 5 0 0 0x0, .mulhu c0 3 61 5),
    (word 0x007 3 61 5 0 0 0x0, .div c0 3 61 5),
    (word 0x008 3 61 5 0 0 0x0, .divu c0 3 61 5),
    (word 0x009 3 61 5 0 0 0x0, .rem c0 3 61 5),
    (word 0x00A 3 61 5 0 0 0x0, .remu c0 3 61 5),
    (word 0x00B 3 61 5 0 0 0x0, .and c0 3 61 5),
    (word 0x00C 3 61 5 0 0 0x0, .or c0 3 61 5),
    (word 0x00D 3 61 5 0 0 0x0, .xor c0 3 61 5),
    (word 0x00E 3 61 5 0 0 0x0, .andn c0 3 61 5),
    (word 0x00F 3 61 5 0 0 0x0, .orn c0 3 61 5),
    (word 0x010 3 61 5 0 0 0x0, .sll c0 3 61 5),
    (word 0x011 3 61 5 0 0 0x0, .srl c0 3 61 5),
    (word 0x012 3 61 5 0 0 0x0, .sra c0 3 61 5),
    (word 0x013 3 61 5 0 0 0x0, .rol c0 3 61 5),
    (word 0x014 3 61 5 0 0 0x0, .ror c0 3 61 5),
    (word 0x015 3 61 5 0 0 0x0, .min c0 3 61 5),
    (word 0x016 3 61 5 0 0 0x0, .max c0 3 61 5),
    (word 0x017 3 61 5 0 0 0x0, .minu c0 3 61 5),
    (word 0x018 3 61 5 0 0 0x0, .maxu c0 3 61 5)] = true := by decide +kernel

theorem test_decode_scalar_bits : reads [
    (word 0x006 3 4 5 6 0 0x0, .madd c0 3 4 5 6),
    (word 0x019 3 4 0 0 0 0x0, .clz c0 3 4),
    (word 0x01A 3 4 0 0 0 0x0, .ctz c0 3 4),
    (word 0x01B 3 4 0 0 0 0x0, .popc c0 3 4),
    (word 0x01C 3 4 0 0 0 0x0, .bswap c0 3 4),
    (word 0x01D 3 4 0 0 0 0x7, .sext c0 3 4 7),
    (word 0x01E 3 4 0 0 0 0x3F, .zext c0 3 4 63),
    (word 0x01F 3 4 4 8 7 0x0, .bfx c0 3 4 true 8 7),
    (word 0x01F 3 4 0 60 3 0x0, .bfx c0 3 4 false 60 3),
    (word 0x020 3 4 0 8 7 0x0, .bfi c0 3 4 8 7),
    (word 0x021 3 4 5 0 0 0x7, .addsh c0 3 4 5 7),
    (word 0x022 3 4 5 15 0 0x0, .sel c0 3 15 4 5),
    (word 0x023 3 4 5 0 0 0x5, .cmp c0 .geu 3 4 5),
    (word 0x024 3 4 5 0 0 0x3, .plog c0 .andn 3 4 5)] = true := by decide +kernel

theorem test_decode_scalar_float : reads [
    (word 0x025 3 4 5 0 0 0xB1, .fadd c0 .f64 .rtz 3 4 5),
    (word 0x026 3 4 5 0 0 0xB1, .fsub c0 .f64 .rtz 3 4 5),
    (word 0x027 3 4 5 0 0 0xB1, .fmul c0 .f64 .rtz 3 4 5),
    (word 0x029 3 4 5 0 0 0xB1, .fdiv c0 .f64 .rtz 3 4 5),
    (word 0x028 3 4 5 6 0 0x84, .fma c0 .bf16 .rna 3 4 5 6),
    (word 0x02A 3 4 0 0 0 0xA5, .fsqrt c0 .f32 .dyn 3 4),
    (word 0x02B 3 4 5 0 0 0x90, .fmin c0 .f16 3 4 5),
    (word 0x02C 3 4 5 0 0 0x80, .fmax c0 .bf16 3 4 5),
    (word 0x02D 3 4 5 0 0 0xA4, .fcmp c0 .f32 .ltu 3 4 5),
    (word 0x02E 3 4 10 0 0 0xC0, .fcvt c0 .e4m3 .rne .f32 3 4),
    (word 0x02F 3 4 0 0 0 0xD0, .fclass c0 .e5m2 3 4)] = true := by decide +kernel

theorem test_decode_immediates_and_transfers : reads [
    (word 0x080 3 4 32 0 0 0x5, .addi c0 3 4 0x2000005),
    (word 0x081 3 4 32 0 0 0x5, .andi c0 3 4 0x2000005),
    (word 0x082 3 4 32 0 0 0x5, .ori c0 3 4 0x2000005),
    (word 0x083 3 4 32 0 0 0x5, .xori c0 3 4 0x2000005),
    (word 0x087 3 4 32 0 0 0x5, .muli c0 3 4 0x2000005),
    (word 0x084 3 4 0 0 0 0x3F, .slli c0 3 4 63),
    (word 0x085 3 4 0 0 0 0x3F, .srli c0 3 4 63),
    (word 0x086 3 4 0 0 0 0x3F, .srai c0 3 4 63),
    (0x2200000EF0000600, .cmpi c0 .eq 14 60 6),
    (word 0x088 3 4 63 63 63 0x4, .cmpi c0 .ltu 3 4 0x3FFFF),
    (0x2240000589ABCDEF, .li c0 5 0x89ABCDEF),
    (0x2280000501234567, .lui c0 5 0x1234567),
    (0x22C0000500000008, .lpc c0 5 8),
    (0x3000003FFFFFFFFE, .br c0 0x3FFFFFFFFE),
    (0x3040003EFFFFDFFD, .call c0 62 0xFFFFDFFD),
    (word 0x0C2 62 5 0 0 0 0x0, .callr c0 62 5),
    (word 0x0C3 0 5 0 0 0 0x0, .jr c0 5),
    (word 0x0C4 0 62 0 0 0 0x0, .ret c0 62)] = true := by decide +kernel

theorem test_decode_memory_1 : reads [
    (wordM 0x100 3 4 6 0xFFFF8, .ld c0 3 4 .w true 0xFFFF8),
    (0x4078003EF4300000, .st ⟨14, false, 0, false, 0, false, 0⟩ 62 61 .d 0),
    (0x4080000304608002, .ldx c0 3 1 2 .w true 2),
    (word 0x103 3 4 1 5 0 0x7, .stx c0 3 4 5 .h 7),
    (wordM 0x104 3 4 43 0x8, .lda c0 3 4 .d false .sys 8),
    (0x414000040DA00008, .strl c0 4 3 .w .die 8),
    (wordM 0x106 4 5 6 0x10, .ldp c0 4 5 .w true 16),
    (0x41C0000404300010, .stp c0 4 1 .d 16),
    (wordM 0x108 1 4 0 0x40, .prf c0 true 4 64),
    (0x424000051C318000, .amo c0 .add 5 6 7 .d false .hart),
    (word 0x109 5 7 6 6 0 0x8, .amo c0 .swap 5 6 7 .w true .hart),
    (0x428000051C318800, .cas c0 5 6 8 7 .d false .hart),
    (word 0x10B 4 7 35 6 8 0x0, .casp c0 4 6 8 7 .pkg),
    (wordM 0x10C 0 0 24 0x0, .fence c0 .die),
    (0x4340000500000000, .sysfence c0 5),
    (wordM 0x10E 0 4 16 0x80, .cwb c0 4 .cl 0x80),
    (wordM 0x10F 0 4 40 0x80, .cinv c0 4 .sys 0x80),
    (0x440000000D800080, .cwbi c0 3 .die 0x80),
    (wordM 0x111 0 4 0 0x80, .czero c0 4 0x80),
    (0x4480000850000000, .epush c0 8 20 0),
    (0x44C0000550000000, .epop c0 5 20 0),
    (0x4500000650000000, .epeek c0 6 20 0),
    (0x4540000424300000, .mst c0 4 9 .d 0),
    (word 0x116 5 7 3 6 0 0x4, .mamo c0 .min 5 6 7 .d false)] = true := by decide +kernel

theorem test_decode_memory_2 : reads [
    (word 0x117 5 7 0 0 0 0x0, .mseq c0 5 7)] = true := by decide +kernel

theorem test_decode_vector_memory : reads [
    (0x6000000304000040, .vld c0 3 1 64),
    (wordM 0x181 3 1 0 0x40, .vst c0 3 1 64),
    (word 0x182 3 4 2 5 31 0x0, .vlds c0 ⟨true, 15⟩ 3 4 5 .w),
    (word 0x183 3 4 3 5 15 0x0, .vsts c0 15 3 4 5 .d),
    (0x610000020420C002, .vldx c0 m0 2 1 3 .w 2),
    (word 0x185 2 1 1 3 9 0x7, .vstx c0 9 2 1 3 .h 7),
    (wordM 0x186 28 4 26 0x40, .vldseg c0 28 4 .w 3 64),
    (wordM 0x187 2 4 8 0x40, .vstseg c0 2 4 .b 1 64),
    (wordM 0x188 3 4 2 0x4, .vldb c0 3 4 .w 4),
    (wordM 0x189 3 4 3 0x8, .vldf c0 3 4 .d 8)] = true := by decide +kernel

theorem test_decode_vector_integer : reads [
    (0x7000000108301420, .vadd c0 ⟨true, 4⟩ .i16 false 1 2 3),
    (word 0x1C1 2 3 4 0 0 0x51, .vsub c0 m0 .n32 true 2 3 4),
    (word 0x1C2 1 2 3 0 2 0x0, .vmul c0 ⟨false, 2⟩ .i8 false 1 2 3),
    (word 0x1C3 1 2 3 0 0 0x10, .vmulh c0 m0 .n8 1 2 3),
    (word 0x1C4 2 3 4 6 0 0x41, .vmadd c0 m0 .i32 true 2 3 4 6),
    (word 0x1C5 1 2 3 0 0 0xE0, .vaddsat c0 m0 .i4 1 2 3),
    (word 0x1C6 1 2 3 0 0 0xF0, .vsubsat c0 m0 .n4 1 2 3),
    (word 0x1C7 1 2 3 0 0 0x20, .vmin c0 m0 .i16 1 2 3),
    (word 0x1C8 1 2 3 0 0 0x30, .vmax c0 m0 .n16 1 2 3),
    (word 0x1CA 1 2 3 0 0 0x60, .vand c0 m0 .i64 1 2 3),
    (word 0x1CB 1 2 3 0 0 0x70, .vor c0 m0 .n64 1 2 3),
    (word 0x1CC 1 2 3 0 0 0x40, .vxor c0 m0 .i32 1 2 3),
    (word 0x1CD 1 2 3 0 0 0x50, .vandn c0 m0 .n32 1 2 3),
    (word 0x1C9 1 2 0 0 0 0x0, .vabs c0 m0 .i8 1 2),
    (0x7380000108500041, .vshl c0 m0 .i32 true 1 2 5),
    (word 0x1CF 1 2 31 0 0 0x50, .vshr c0 m0 .n32 false 1 2 31),
    (word 0x1D0 1 2 15 0 0 0x21, .vsra c0 m0 .i16 true 1 2 15),
    (0x7440000310500042, .vcmp c0 m0 .i32 .lt 3 4 5),
    (word 0x1D2 1 2 3 15 0 0x40, .vsel c0 m0 .i32 15 1 2 3),
    (word 0x1D3 1 2 0 0 0 0x70, .vpopc c0 m0 .n64 1 2)] = true := by decide +kernel

theorem test_decode_vector_float : reads [
    (word 0x1D4 2 3 4 0 0 0xAB, .vfadd c0 m0 .f32 .rup true 2 3 4),
    (word 0x1D5 1 2 3 0 0 0xB2, .vfsub c0 m0 .f64 .rdn false 1 2 3),
    (word 0x1D6 1 2 3 0 0 0xC0, .vfmul c0 m0 .e4m3 .rne false 1 2 3),
    (0x75C00001083100A0, .vfma c0 m0 .f32 .rne false 1 2 3 4),
    (word 0x1D8 1 2 3 0 0 0x90, .vfdiv c0 m0 .f16 .rne 1 2 3),
    (word 0x1D9 1 2 0 0 0 0x81, .vfsqrt c0 m0 .bf16 .rtz 1 2),
    (word 0x1DA 1 2 3 0 0 0xD0, .vfmin c0 m0 .e5m2 1 2 3),
    (word 0x1DB 1 2 3 0 0 0xA0, .vfmax c0 m0 .f32 1 2 3),
    (word 0x1DC 3 4 5 0 0 0xA3, .vfcmp c0 m0 .f32 .ge 3 4 5),
    (word 0x1DD 1 2 0 0 0 0xA0, .vfabs c0 m0 .f32 1 2),
    (word 0x1DE 1 2 0 0 0 0x90, .vfneg c0 m0 .f16 1 2),
    (0x77C00009280000A0, .vrcp c0 m0 .rne 9 10),
    (word 0x1E0 9 10 0 0 0 0xA1, .vrsqrt c0 m0 .rtz 9 10),
    (0x78400005100000A5, .vexp2 c0 m0 .dyn 5 4),
    (word 0x1E2 9 10 0 0 0 0xA2, .vlog2 c0 m0 .rdn 9 10),
    (word 0x1E3 9 10 0 0 0 0xA2, .vsin c0 m0 .rdn 9 10),
    (word 0x1E4 9 10 0 0 0 0xA2, .vcos c0 m0 .rdn 9 10),
    (word 0x1E5 9 10 0 0 0 0xA2, .vtanh c0 m0 .rdn 9 10)] = true := by decide +kernel

theorem test_decode_vector_conversions : reads [
    (word 0x1E6 1 2 0 10 0 0x41, .vcvt c0 m0 .i32 .rtz .f32 1 2),
    (0x79C00008080240A0, .vwiden c0 m0 .f32 .f16 8 2),
    (0x7A000001200240C0, .vnarrow c0 m0 .e4m3 0 .f16 1 8),
    (word 0x1E9 1 2 3 0 0 0x12, .vpack c0 .n8 2 1 2 3),
    (word 0x1EA 1 2 3 0 0 0x1, .vunpack c0 m0 .i8 1 3 1 2)] = true := by decide +kernel

theorem test_decode_vector_rearrangements : reads [
    (word 0x1EB 1 2 3 1 2 0x50, .vredadd c0 2 .n32 .n8 1 2 3),
    (word 0x1EC 1 2 3 0 2 0x40, .vredmin c0 2 .i32 1 2 3),
    (0x7B40000108300050, .vredmax c0 0 .n32 1 2 3),
    (0x7B80000615F280A5, .vfredadd c0 0 .f32 .dyn .f32 6 5 31),
    (0x7BC00002041000A0, .vfredmax c0 0 .f32 2 1 1),
    (word 0x1F0 1 2 3 0 0 0xA1, .vscan c0 m0 .f32 .rtz 1 2 3),
    (word 0x1F1 1 2 3 4 0 0x40, .vperm c0 m0 .i32 1 2 3 4),
    (word 0x1F2 1 2 3 15 0 0x40, .vslide c0 m0 .i32 1 2 3 15),
    (word 0x1F3 1 2 0 63 0 0x0, .vrot c0 m0 .i8 1 2 63),
    (word 0x1F4 1 2 3 0 0 0x41, .vzip c0 m0 .i32 true 1 2 3),
    (word 0x1F5 1 2 3 0 0 0x51, .vunzip c0 m0 .n32 true 1 2 3),
    (word 0x1F6 1 2 0 0 19 0x40, .vcompress c0 ⟨true, 3⟩ .i32 1 2),
    (word 0x1F7 1 2 0 0 3 0x40, .vexpand c0 ⟨false, 3⟩ .i32 1 2),
    (word 0x1F8 1 61 0 0 0 0x71, .vbcast c0 m0 .n64 true 1 61 0),
    (word 0x1F8 1 2 0 7 0 0x70, .vbcast c0 m0 .n64 false 1 2 7),
    (word 0x1F9 1 61 0 7 0 0x70, .vins c0 .n64 1 61 7),
    (0x7E80001008000040, .vext c0 .i32 16 2 0),
    (0x7EC000061C800040, .vdot4 c0 m0 .i32 .i8 false 6 7 8),
    (0x7F00001014010050, .vhist c0 0 .n32 4 16 5),
    (word 0x1FD 2 16 0 0 0 0x51, .vhmerge c0 m0 true 2 16),
    (word 0x1FE 1 2 0 3 0 0x51, .vsortk c0 m0 .n32 true 1 2 3),
    (word 0x1FF 15 2 0 0 0 0x41, .vmask c0 m0 .i32 true 15 2)] = true := by decide +kernel

theorem test_decode_tiles_1 : reads [
    (0xB0000003FC300000, .tcfg c0 3 63 3 .fp32 false false),
    (word 0x2C0 23 0 0 15 0 0x3, .tcfg c0 23 0 0 .int2 true true),
    (word 0x2C1 17 0 0 0 0 0x0, .tzero c0 17),
    (0xB08000010835007F, .tld c0 1 2 3 .e4m3 true 0 0x7F),
    (word 0x2C3 1 2 3 23 4 0x0, .tst c0 1 2 3 .int8 true 4),
    (word 0x2C4 1 2 3 4 5 0x1A, .tldd c0 1 2 3 4 5 .e2m1 true),
    (word 0x2C5 1 2 3 4 5 0xA, .tstd c0 1 2 3 4 5 .e2m1 false),
    (0xB1800004083045CA, .tqst c0 4 2 3 1 false 5 .e2m1 false .one true),
    (word 0x2C6 4 2 3 15 5 0x34, .tqst c0 4 2 3 7 true 5 .e4m3 true .half false),
    (0xB1C0000005000000, .tmma c0 0 1 16),
    (0xB200000004200100, .tmmat c0 0 1 2 0 .negInf 0),
    (word 0x2C8 0 1 2 5 3 0xFE, .tmmat c0 0 1 2 5 .reg 0xFE),
    (word 0x2C9 16 1 2 0 0 0x1, .tadd c0 16 1 2 .rtz),
    (word 0x2CA 3 1 5 0 0 0x2, .tscale c0 3 1 5 .rdn),
    (word 0x2CB 3 1 0 0 0 0x9, .tcvt c0 3 1 .rtz true),
    (word 0x2CC 3 1 0 0 0 0x0, .ttrans c0 3 1),
    (word 0x2CD 23 1 0 0 0 0x0, .tmov c0 23 1),
    (word 0x2CE 3 4 5 0 0 0x1, .trow c0 3 4 5 true),
    (word 0x2CF 3 4 0 63 0 0x0, .trowi c0 3 4 63 false),
    (word 0x2D0 4 1 0 0 0 0x19, .tred c0 4 1 .rtz true true),
    (0xB440000300000000, .trel c0 3),
    (word 0x2D2 5 23 0 0 0 0x0, .tinfo c0 5 23),
    (word 0x2D3 3 4 0 0 0 0x0, .tsave c0 3 4),
    (word 0x2D4 3 4 0 0 0 0x0, .trest c0 3 4)] = true := by decide +kernel

theorem test_decode_tiles_2 : reads [
    (0xB540000000000003, .qcclr c0 3),
    (0xB580000404000000, .qcrd c0 4 1),
    (0xB580000404000001, .qcwr c0 4 1)] = true := by decide +kernel

theorem test_decode_threads_1 : reads [
    (0xD000000528C04801, .spawn c0 5 10 12 1 8 1),
    (0xD040001259354201, .spawng c0 18 22 19 21 2 1),
    (0xD080000000000000, .exit c0),
    (word 0x343 5 6 0 0 0 0x0, .task c0 5 6),
    (word 0x344 5 6 0 0 0 0x0, .taskw c0 5 6),
    (0xD1400007000FFF00, .waitc c0 7 0 0 63 63),
    (0xD18000060000C000, .bara c0 6 3),
    (0xD1C000001800C000, .barw c0 6 3),
    (0xD200000014000000, .barinit c0 5 0),
    (0xD240010000000000, .yield ⟨0, false, 0, false, 0, true, 0⟩),
    (0xD280010000000000, .uiret ⟨0, false, 0, false, 0, true, 0⟩),
    (word 0x34B 0 0 0 0 0 0x1, .uien c0 true),
    (0xE000000500000000, .csrr c0 5 0),
    (word 0x381 5 6 0 0 1 0x4F, .csrw c0 5 6 0x14F),
    (0xE080000024000003, .csrs c0 0 9 3),
    (word 0x383 5 6 0 0 1 0x0, .csrc c0 5 6 0x100),
    (word 0x384 0 0 0 0 0 0x0, .ecall c0),
    (word 0x385 0 0 0 0 0 0x0, .ebreak c0),
    (word 0x386 0 0 0 0 0 0x0, .sret c0),
    (word 0x387 0 0 0 0 0 0x0, .mret c0),
    (word 0x388 0 0 0 0 0 0x0, .wfi c0),
    (word 0x38A 0 0 0 0 0 0x0, .tlbinvall c0),
    (word 0x38E 0 0 0 0 0 0x0, .chunkbrk c0),
    (word 0x38F 0 0 0 0 0 0x0, .halt c0)] = true := by decide +kernel

theorem test_decode_threads_2 : reads [
    (0xE240000010500000, .tlbinv c0 4 5),
    (word 0x389 0 4 0 0 0 0x1, .tlbinvAs c0 4),
    (0xE2C0000010300000, .slotcfg c0 0 4 3),
    (word 0x38C 0 4 0 0 0 0x5, .vsavectx c0 4 0 true false true false),
    (word 0x38D 0 4 5 0 0 0xA, .vrestctx c0 4 5 false true false true)] = true := by decide +kernel

/-- Words that raise ILLEGAL: reserved fields and codes, register codes outside their class, pairs, groups and immediates
out of range (R216 to R227, R268, R281, R276, R325, and the examples after R286). -/
theorem test_illegal_words : [0, word 0x030 0 0 0 0 0 0, 0x4480000950000000, 0x440000000F000080, 0x004004030C400000,
    0x75C00001083100AD, word 0x001 3 4 5 0 0 1, word 0x019 3 4 1 0 0 0, word 0x01D 3 4 0 0 0 64, word 0x01F 3 4 0 60 4 0,
    word 0x023 16 4 5 0 0 0, word 0x023 3 4 5 0 0 6, word 0x024 3 4 5 0 0 4, word 0x025 3 4 5 0 0 0xC0,
    word 0x02E 3 4 4 0 0 0x40, wordM 0x100 3 4 7 0, wordM 0x106 5 4 3 0, wordM 0x106 4 4 0 0, wordM 0x10C 0 0 0x28 0,
    word 0x10B 5 7 3 6 8 0, word 0x109 5 7 3 6 0 9, word 0x183 3 4 2 5 0x10 0, word 0x1C0 32 2 3 0 0 0,
    word 0x1C0 1 2 3 0 0 1, word 0x1D2 1 2 3 0 0 0xA0, word 0x1E7 9 2 0 9 0 0xA0, word 0x1EA 1 2 2 0 0 0x02,
    word 0x1FE 3 2 0 3 0 0, word 0x1FC 16 5 0 29 0 0x50, word 0x2C6 4 2 3 0 0 0, word 0x2C7 16 1 2 0 0 0,
    word 0x2C8 0 1 2 5 0 0, word 0x2CB 3 1 0 0 0 6, word 0x2D0 3 1 0 0 0 0, word 0x340 5 9 12 1 8 1,
    word 0x341 5 10 12 1 8 4, word 0x349 0 0 0 0 0 0, word 0x380 5 0 0 0 0 4, word 0x38C 0 4 0 0 0 0,
    word 0x3FF 1 0 0 0 0 0].all (fun w => decode w == none) = true := by decide +kernel

/-- The command codes of R67, for hart 5; a code that the table does not hold is no command. -/
theorem test_decode_commands :
    let d (x : Word) : Cmd := ⟨x, 1, 2, 3, 4, 5, 6, 7⟩
    [(0x01, Instr.copy 5 (d 0x01)), (0x02, .copy2d 5 (d 0x02)), (0x03, .gather 5 (d 0x03)), (0x04, .scatter 5 (d 0x04)),
      (0x05, .fill 5 (d 0x05)), (0x06, .rowcopy 5 (d 0x06)), (0x07, .rowinit 5 (d 0x07)), (0x08, .mcopy 5 (d 0x08)),
      (0x09, .shload 5 (d 0x09)), (0x0A, .save 5 (d 0x0A)), (0x10B, .restore 5 (d 0x10B))].all
        (fun p => decodeCmd 5 (d p.1) == some p.2) = true ∧ decodeCmd 5 (d 0x0C) = none ∧ decodeCmd 5 (d 0) = none := by
  decide +kernel

/-! ## Well-formedness refuses -/

/-- One ill-formed instruction for each check. -/
theorem test_wf_refuses : [Instr.add { c0 with gan := true } 1 2 3, .add { c0 with gbn := true } 1 2 3,
    .add { c0 with ch := 1 } 1 2 3, .ld { c0 with ch := 7 } 1 2 .d false 0, .add { c0 with pri := 3 } 1 2 3,
    .bfx c0 1 2 false 60 4, .bfi c0 1 2 60 4, .fadd c0 .i32 .rne 1 2 3, .fcvt c0 .i32 .rne .i8 1 2, .fcvt c0 .i4 .rne .f32 1 2,
    .fclass c0 .i8 1 2, .ld c0 1 2 .d true 0, .ldp c0 4 2 .h false 0, .ldp c0 5 2 .d false 0, .stp c0 5 2 .d 0,
    .amo c0 .add 1 2 3 .b false .pkg, .casp c0 5 6 8 1 .pkg, .casp c0 4 7 8 1 .pkg, .casp c0 4 6 9 1 .pkg, .fence c0 .sys,
    .epush c0 9 1 0, .epush c0 0 1 0, .vldseg c0 1 1 .w 0 0, .vstseg c0 30 1 .w 2 0, .vadd c0 m0 .i16 true 1 2 3,
    .vadd c0 m0 .i4 true 2 2 3, .vadd c0 m0 .f32 false 1 2 3, .vmadd c0 m0 .i16 true 2 2 3 5, .vmulh c0 m0 .i4 1 2 3,
    .vaddsat c0 m0 .f32 1 2 3, .vabs c0 m0 .n8 1 2, .vshl c0 m0 .i16 true 1 2 16, .vshl c0 m0 .i16 false 1 2 32,
    .vfadd c0 m0 .f64 .rne true 2 2 3, .vfma c0 m0 .f32 .rne true 2 2 3 5, .vfabs c0 m0 .i32 1 2, .vcvt c0 m0 .i32 .rne .i32 1 2,
    .vcvt c0 m0 .i32 .rne .f64 1 2, .vwiden c0 m0 .f32 .f16 1 2, .vwiden c0 m0 .i32 .f16 2 2, .vnarrow c0 m0 .i8 0 .i32 1 6,
    .vnarrow c0 m0 .i8 1 .i16 1 6, .vnarrow c0 m0 .f16 6 .f32 1 6, .vpack c0 .i16 0 1 2 3, .vpack c0 .i8 3 1 2 3,
    .vunpack c0 m0 .i8 2 2 1 2, .vredadd c0 0 .i32 .n8 1 2 3, .vredadd c0 0 .i8 .i16 1 2 3, .vfredadd c0 0 .f16 .rne .f32 1 2 3,
    .vscan c0 m0 .i32 .rtz 1 2 3, .vslide c0 m0 .i32 1 2 3 16, .vrot c0 m0 .i64 1 2 8, .vbcast c0 m0 .i32 true 1 2 1,
    .vbcast c0 m0 .i32 false 1 32 0, .vins c0 .i32 1 2 16, .vext c0 .f32 1 2 0, .vdot4 c0 m0 .i16 .i8 false 1 2 3,
    .vhist c0 0 .i32 29 16 5, .vhist c0 0 .i32 0 18 5, .vhmerge c0 m0 false 2 18, .vsortk c0 m0 .i32 false 3 2 3,
    .tzero c0 24, .tqst c0 4 2 3 0 false 0 .fp32 false .zero false, .tmma c0 16 1 2, .tmma c0 0 24 2, .tmmat c0 0 1 2 5 .posZero 0,
    .tred c0 3 1 .rne false false, .qcrd c0 3 1, .spawn c0 5 9 12 1 8 1, .spawn c0 5 10 12 1 8 5, .spawng c0 5 10 12 1 8 4,
    .yield c0, .uiret c0, .csrr c0 5 4, .vsavectx c0 4 0 false false false false, .vsavectx c0 4 5 true false false false,
    .copy 0 ⟨2, 0, 0, 0, 0, 0, 0, 0⟩, .copy 4096 ⟨1, 0, 0, 0, 0, 0, 0, 0⟩].all (fun i => !i.wf) = true := by decide +kernel

/-- A message of a PRdS, and one whose link number does not exist. -/
def prdsMsg : Msg := ⟨1, 0, 0x01, 0, false, 0, 0, 0, 64, 0, 0, 0, [], false, false, [], none, .direct⟩

/-- One ill-formed argument for each kind of hardware step. -/
theorem test_step_refuses : [(Instr.park, ({ a := 4096 } : Arg)), (.trapDelivery, { a := 0 }), (.machineCheck, { b := 4 }),
    (.sfuDequeue, { a := 32 }), (.watchdog, { a := 64 }), (.wdwinBind, { b := 2 ^ 24 }), (.bringIn, { a := 512 }),
    (.gangMemberPlace, { b := 16 }), (.readyPoolPlace, { a := 4 }), (.engineDispatch, {}), (.engineOpStart, { b := 4 }),
    (.gets, { a := 32 }), (.gets, { b := 2 ^ 49 }), (.inv, { a := 4 }), (.prds, {}), (.prdm, { msg := some prdsMsg }),
    (.prds, { msg := some { prdsMsg with dst := 16384 } }), (.prds, { msg := some { prdsMsg with vc := 8 } }),
    (.prds, { msg := some { prdsMsg with hops := 16 } }), (.prds, { msg := some { prdsMsg with port := some 47 } }),
    (.prds, { msg := some { prdsMsg with body := [0] } }), (.messageRelay, {}), (.probeTimeout, { b := 16384 }),
    (.groupActivate, { a := 64 }), (.heartbeat, { a := 47 }), (.linkTrain, { c := 47 }), (.deviceLostTimeout, { a := 16384 }),
    (.hbmThrottle, { a := 8 }), (.hbmRequest, {}), (.rowIdleClose, { b := 4096 }), (.scrubRead, { b := 64 }),
    (.scrubRead, { c := 3 }), (.marginMeasure, { b := 32 }), (.marginMeasure, { eyes := [⟨128, 0, 0⟩] }),
    (.chstatTrainreq, { b := 32 }), (.hardwareError, {}), (.hardwareError, { err := some (.cacheWay 0 16) }),
    (.hardwareError, { err := some (.hartRegs 0 0 64) }), (.hardwareError, { err := some (.committedQc 0 8) }),
    (.hardwareError, { err := some (.engine 0 4) }), (.hardwareError, { err := some (.committedTile 0 16) }),
    (.fatalError, { a := 256 }), (.powerTick, { a := 65536 }), (.powerTick, {}), (.dieCriticalTemp, { a := 5 }),
    (.attest, { a := 47 }), (.functionLevelReset, { a := 4 }), (.virtioConsoleRequest, { a := 2 }),
    (.registerWrite, { b := 4 }), (.registerWrite, { b := 2 ^ 32 }), (.pairAcknowledgement, { b := 4 })].all
      (fun p => !stepOk p.1 p.2) = true := by decide +kernel

/-- What is well formed is not refused. -/
theorem test_step_accepts : stepOk .prds { msg := some prdsMsg } = true ∧ stepOk .park { a := 4095 } = true ∧
    stepOk .registerWrite { b := 2 ^ 32 - 8 } = true := by decide +kernel

/-! ## States -/

/-- The words of a block of a hart in M mode, at 0x10000 and on. -/
def archM : Arch := { Arch.reset with pc := 0x10000, blk := .body (2 ^ 40) (BitVec.allOnes 16) (BitVec.allOnes 8) }
/-- Hart 0 runs from the registers `a`; the cluster cache of cluster 0 holds the lines of `ls` in M. -/
def running (a : Arch) (ls : List Nat) : State := { State.reset with
  stage := 3
  memLock := true
  events := []
  cur := { Hart.reset with slot := .issuing, arch := a, chunk := Chunk.fresh a }
  coh := ls.map fun l => (l, { LineCoh.reset with caches := [(512, .m)], dir := ⟨.m, false, 0, [], false, [], 0⟩ }) }
/-- The same with some bytes of memory. -/
def holding (a : Arch) (ls : List Nat) (m : List (Nat × Nat)) : State := { running a ls with mem := m.map fun x => (x.1, BitVec.ofNat 8 x.2) }
/-- `archM` with two general registers set. -/
def regs (a : Arch) (l : List (GReg × Word)) : Arch := l.foldl (fun a x => wrG a x.1 x.2) a
/-- The result of the checks holds a value and the state that comes with it. -/
theorem pairOfSnd {α β : Type} {x : α × β} {b : β} (h : x.2 = b) : ∃ a, x = (a, b) := ⟨x.1, Prod.ext rfl h⟩
theorem tripleOf {α β γ : Type} {x : α × β × γ} {b : β} {c : γ} (h1 : x.2.1 = b) (h2 : x.2.2 = c) : ∃ a, x = (a, b, c) :=
  ⟨x.1, Prod.ext rfl (Prod.ext h1 h2)⟩

/-- What an outcome leaves, where it is a next state. -/
def leaves (o : Out) (p : State → Bool) : Bool := match o with | .next t => p t | _ => false
/-- The outcome is a trap with this code, for the receiving mode to see. -/
def trapsWith (o : Out) (code : Word) : Bool := leaves o fun t => t.cur.arch.hcause == code || t.cur.due.any fun r => BitVec.ofNat 64 r.code == code

/-! ## One step of an instruction: results of the tables and examples of the spec -/

/-- R245, the table of borderline cases: -7 / 2, 9 / 0, -2^63 / -1. -/
theorem test_division : [((-7 : Word), (2 : Word), (-3 : Word), (-1 : Word), (0x7FFFFFFFFFFFFFFC : Word), (1 : Word)),
    (7, -2, -3, 1, 0, 7), (9, 0, -1, 9, -1, 9), (0x8000000000000000, -1, 0x8000000000000000, 0, 0, 0x8000000000000000)].all
    (fun (a, b, q, r, qu, ru) =>
      let s := running (regs archM [(4, a), (5, b)]) []
      leaves (exec (.div c0 3 4 5) s) (fun t => gOf t 3 == q) && leaves (exec (.rem c0 3 4 5) s) (fun t => gOf t 3 == r) &&
      leaves (exec (.divu c0 3 4 5) s) (fun t => gOf t 3 == qu) && leaves (exec (.remu c0 3 4 5) s) (fun t => gOf t 3 == ru))
      = true := by decide +kernel

/-- R248: bit fields of 0xF5A0; R260: conversions of 464 and -3.9375. -/
theorem test_fields_and_conversions :
    let s (x : Word) : State := running (regs archM [(4, x)]) []
    leaves (exec (.bfx c0 3 4 true 4 7) (s 0xF5A0)) (fun t => gOf t 3 == 0x5A) = true ∧
    leaves (exec (.bfx c0 3 4 true 8 7) (s 0xF5A0)) (fun t => gOf t 3 == 0xFFFFFFFFFFFFFFF5) = true ∧
    leaves (exec (.fcvt c0 .e4m3 .rne .f32 3 4) (s 0x43E80000)) (fun t => gOf t 3 == 0x7E) = true ∧
    leaves (exec (.fcvt c0 .i32 .rtz .f32 3 4) (s 0xC07C0000)) (fun t => gOf t 3 == 0xFFFFFFFFFFFFFFFD) = true := by
  decide +kernel

/-- R309: widening of the lanes 0, 1 and 2 under a mask of two lanes, the others zeroed. -/
theorem test_vwiden_example :
    let s := running (wrP (wrV archM 2 0x40003C000000) 1 0xF) []
    leaves (exec (.vwiden c0 ⟨true, 1⟩ .f32 .f16 8 2) s)
      (fun t => lane 32 (vOf t 8) 0 == 0 && lane 32 (vOf t 9) 0 == 0x3F800000 && lane 32 (vOf t 8) 1 == 0) = true := by
  decide +kernel

/-- R313: 16,777,216 + 1 + 1 + 1 in order stays 16,777,216 under RNE, with NX. -/
theorem test_vfredadd_order :
    let s := running (wrP (wrV archM 3 0x3F8000003F8000003F8000004B800000) 1 0xFFFF) []
    leaves (exec (.vfredadd c0 1 .f32 .rne .f32 5 3 6) s)
      (fun t => lane 32 (vOf t 5) 0 == 0x4B800000 && t.cur.arch.fcsr.getLsbD 0) = true := by decide +kernel

/-- R320: after vhist of lanes 16 * (i mod 4) at bit 4, the merge counts 4 in each of the bins 0 to 3. -/
theorem test_vhist_example :
    let v : Vec := 0x00000030000000200000001000000000 * (1 + 2 ^ 128 + 2 ^ 256 + 2 ^ 384)
    let s := running (wrV archM 5 v) []
    leaves (exec (.vhist c0 0 .n32 4 16 5) s) (fun t => leaves (exec (.vhmerge c0 m0 false 2 16) t)
      fun u => vOf u 2 == (4 + 4 * 2 ^ 32 + 4 * 2 ^ 64 + 4 * 2 ^ 96)) = true := by decide +kernel

/-- R363, R390: ecall goes to S mode and saves the address of the next word. -/
theorem test_ecall_saves : leaves (exec (.ecall c0) (running { archM with mode := .u } []))
    (fun t => t.cur.arch.mode == .s && t.cur.arch.hepc == 0x10008 && t.cur.arch.hcause == 0x11) = true := by decide +kernel

/-- R364: a privileged instruction below its mode raises PRIV (0x03). -/
theorem test_priv_traps : trapsWith (exec (.tlbinvall c0) (running { archM with mode := .u } [])) 3 = true := by decide +kernel

/-! ## Witnesses: states and operands that meet the hypotheses of the statements -/

theorem witness_scalar : guarded c0 (running archM []) ∧ (0 : BitVec 6).toNat + (63 : BitVec 6).toNat < 64 := by
  simp only [guarded]; decide +kernel

/-- IntegerArithmeticWritesItsResult, LogicAndShiftsWriteTheirResult, BitInstructionsWriteTheirResult and
ComparisonsAndImmediateFormsWriteTheirResult at a state, by the statements' one hypothesis. -/
theorem witness_integer_forms : guarded c0 (running (regs archM [(4, -1), (5, 64)]) []) := by simp only [guarded]; decide +kernel

theorem witness_ScalarFloat : let s := running (regs archM [(4, 0x3F800000)]) []
    guarded c0 s ∧ quietFlags s 0 ∧ ¬ quietFlags (running { archM with fcsr := 0x3E0 } []) flNX := by
  simp only [guarded, quietFlags]; decide +kernel

theorem witness_RoundingPicksTheRightNeighbour : 0 < 1 ∧ (roundAt .rne false 2 0 1).2 = false ∧
    2 * (1 % 2 ^ 1) = 2 ^ 1 := by decide +kernel

/-- A header with ENTRY at 0x20000 and its word, in memory and in the instruction cache's line. -/
def header : State := holding archM [0x20000 / 128, 0x10000 / 128]
  [(0x20000, 0x80), (0x20003, 0xFF), (0x20004, 0xFF), (0x20005, 0xFF), (0x20006, 0xC1), (0x20007, 0xFF)]

/-- A target with ENTRY passes, one that is no header fails; misaligned and too high ones fail too. -/
theorem witness_TransfersGoToTheirTarget : guarded c0 header ∧
    (∃ u, checkTarget (openChunk header) 0x20000 true = (u, .val ())) ∧
    (∃ u, checkTarget (openChunk header) 0x20008 false = (u, .trap ⟨0x02, 0x20008, 0⟩)) ∧
    (∃ u w, fetchWord (updArch header fun a => { a with pc := 0x20000 }) = (u, .val w)) ∧
    (0x20001 : Word).toNat % 8 ≠ 0 ∧ 2 ^ 57 ≤ (0x0200000000000000 : Word).toNat := by
  have ⟨u, h⟩ := pairOfSnd (x := fetchWord (updArch header fun a => { a with pc := 0x20000 })) (b := .val 0xFFC1FFFFFF000080)
    (by decide +kernel)
  exact ⟨by simp only [guarded]; decide +kernel, pairOfSnd (by decide +kernel), pairOfSnd (by decide +kernel), ⟨u, _, h⟩,
    by decide, by decide⟩

/-- g4 holds an address of a line that the cluster owns, g5 one of the control region. -/
def memState : State := holding (regs archM [(4, 0x40000), (5, 0x3FF00000008), (6, 7), (20, 0x3FF00100000)]) [0x40000 / 128] [(0x40000, 0x12), (0x40001, 0x34)]

theorem witness_LoadsWriteTheLoadedValue : guarded c0 memState ∧
    (∃ u, load (openChunk memState) (scalarReq .load 8 true 0x40000) 0x40000 = (u, .val 0x3412)) ∧
    (∃ u, load (openChunk memState) (scalarReq .load 8 true 0x40001) 0x40001 = (u, .trap ⟨0x05, 0x40001, 0⟩)) ∧
    (∃ u x, translate (openChunk memState) (whoCur memState) (scalarReq .load 8 false 0x40000) 0x40000 = (u, .val x) ∧
      x.lvl = none ∧ isControl (offOf x.pa) = false ∧ ∃ v, readLine (noteUsed u x.used) .load x 8 0x40000 = (v, .val 0x3412)) ∧
    (∃ u x v y, translate memState (whoCur memState) (scalarReq .load 8 true 0x3FF00000008) 0x3FF00000008 = (u, .val x) ∧
      isControl (offOf x.pa) = true ∧ load memState (scalarReq .load 8 true 0x3FF00000008) 0x3FF00000008 = (v, .val y)) ∧
    isDrained memState = true := by
  refine ⟨by simp only [guarded]; decide +kernel, pairOfSnd (by decide +kernel), pairOfSnd (by decide +kernel), ?_, ?_, by decide +kernel⟩
  · refine ⟨openChunk memState, ⟨0x40000, 0, none, none⟩, Prod.ext (by decide +kernel) (by decide +kernel), rfl, by decide +kernel, ?_⟩
    exact pairOfSnd (by decide +kernel)
  · have ⟨v, h⟩ := pairOfSnd (x := load memState (scalarReq .load 8 true 0x3FF00000008) 0x3FF00000008) (b := .val 2600)
      (by decide +kernel)
    exact ⟨memState, ⟨0x3FF00000008, 0, none, none⟩, v, _, Prod.ext (by decide +kernel) (by decide +kernel), by decide +kernel, h⟩

theorem witness_StoresWriteExactlyTheirBytes : guarded c0 memState ∧
    (∃ u, reaches (openChunk memState) .store (scalarReq .store 8 true 0x40000) 0x40000 ⟨0x40000, 0, none, none⟩
      (openChunk memState) u ∧ hasRoomFor u ⟨0x40000, 0, none, none⟩) ∧
    (translate (openChunk memState) (whoCur memState) (scalarReq .store 8 true 0x3FF00000008) 0x3FF00000008 =
      (openChunk memState, .val ⟨0x3FF00000008, 0, none, none⟩) ∧ isControl (offOf 0x3FF00000008) = true ∧
      isDrained (openChunk memState) = true) ∧ owesNc (openChunk memState) = false := by
  refine ⟨by simp only [guarded]; decide +kernel, ⟨(reach (openChunk memState) .store ⟨0x40000, 0, none, none⟩ (byteMask 0x40000 8) 0x40000).1, ?_, ?_⟩, by decide +kernel, by decide +kernel⟩
  · simp only [reaches]; decide +kernel
  · intro; decide +kernel

theorem witness_AtomicsReadAndWriteAsOneStep : guarded c0 memState ∧ lineDev (0x40000 / 128) = memState.dev ∧
    ∃ u, reaches (openChunk memState) .atomic (scalarReq .atomic 8 false 0x40000) 0x40000 ⟨0x40000, 0, none, none⟩
      (openChunk memState) u ∧ poisoned u (0x40000 / 128) = false ∧ hasRoomFor u ⟨0x40000, 0, none, none⟩ := by
  refine ⟨by simp only [guarded]; decide +kernel, by decide +kernel,
    (reach (openChunk memState) .atomic ⟨0x40000, 0, none, none⟩ (byteMask 0x40000 8) 0x40000).1, ?_, by decide +kernel, ?_⟩
  · simp only [reaches]; decide +kernel
  · intro; decide +kernel

theorem witness_FencesAndMaintenanceComplete : guarded c0 memState ∧ commitsTo memState (openChunk memState) ∧
    (openChunk memState).cur.ncWait = [] ∧ (openChunk memState).cur.drain = none ∧ drainHomes (openChunk memState) = [] ∧
    (∃ v, systemDrain (openChunk memState) = (v, some [])) ∧ (openChunk memState).cur.begun = false ∧
    translate (openChunk memState) (whoCur memState) ⟨.load, 1, false, .noAccess⟩ 0x40000 =
      (openChunk memState, .val ⟨0x40000, 0, none, none⟩) ∧ memHeld memState (0x40000 / 128) = false ∧
    snoopWaits (openChunk memState) (some 0) true (0x40000 / 128) = false ∧ inFlux (openChunk memState) (0x40000 / 128) = false ∧
    tabWf LineCoh.reset memState.coh = true ∧ trained memState = true := by
  refine ⟨by simp only [guarded]; decide +kernel, ⟨by decide +kernel, rfl⟩, by decide +kernel, by decide +kernel, by decide +kernel,
    pairOfSnd (by decide +kernel), by decide +kernel, by decide +kernel, by decide +kernel, by decide +kernel, by decide +kernel,
    by decide +kernel, by decide +kernel⟩

/-- A hart in U mode whose core translates two pages: the engine window at 0x100000 and memory at 0x40000. -/
def userArch : Arch := { regs archM [(20, 0x100000), (4, 0x40000)] with mode := .u }
def userState : State :=
  let s := running userArch [0x40000 / 128]
  { s with cores := [(0, { Core.reset with tlb1 := [⟨0, 0x100000, 12, 0x1D7, 0x9000⟩, ⟨0, 0x40000, 12, 0x4000D7, 0x9008⟩] })] }

/-- The same with a record and no free entry besides. -/
def withFifo (l : List FifoCmd) (recs : List Word) : State := { userState with cur := { userState.cur with fifo := ⟨l, recs⟩ } }
def fifoCmd (d : Cmd) : FifoCmd := .new d 0 .u 0

theorem witness_EngineWindowInstructionsAct : guarded c0 userState ∧ commitsTo userState (openChunk userState) ∧
    (∃ t x, engineWindow (openChunk userState) .engWrite 0x100000 = (t, .val x) ∧ freeEntries t.cur ≠ 0 ∧
      isDrained t = true ∧ t.cur.ncWait = []) ∧
    (∃ t x, engineWindow (openChunk userState) .engRead 0x100000 = (t, .val x) ∧ t.cur.fifo.recs = [] ∧ infl t.cur = 0) ∧
    (let s := withFifo [] [5]
     commitsTo s (openChunk s) ∧ ∃ t x, engineWindow (openChunk s) .engRead 0x100000 = (t, .val x) ∧ t.cur.fifo.recs = [5]) ∧
    (let s := withFifo [] (List.replicate 64 5)
     commitsTo s (openChunk s) ∧ freeEntries s.cur = 0 ∧ infl s.cur = 0) ∧
    (let s := withFifo (List.replicate 16 (fifoCmd ⟨5, 0, 0, 0, 0, 0, 0, 0⟩)) []
     commitsTo s (openChunk s) ∧ (∃ t x, engineWindow (openChunk s) .engWrite 0x100000 = (t, .val x) ∧ freeEntries t.cur = 0 ∧
       infl t.cur ≠ 0) ∧
     ∃ t x, engineWindow (openChunk s) .engRead 0x100000 = (t, .val x) ∧ t.cur.fifo.recs = [] ∧ infl t.cur ≠ 0) := by
  refine ⟨by simp only [guarded]; decide +kernel, ⟨by decide +kernel, rfl⟩, ?_, ?_, ⟨⟨by decide +kernel, rfl⟩, ?_⟩, ⟨⟨by decide +kernel, rfl⟩, by decide +kernel, by decide +kernel⟩,
    ⟨by decide +kernel, rfl⟩, ?_, ?_⟩
  · exact ⟨openChunk userState, ⟨0, 0, none, some (0, 0x4000000 + 12)⟩, by decide +kernel⟩
  · exact ⟨openChunk userState, ⟨0, 0, none, some (0, 0x4000000 + 12)⟩, by decide +kernel⟩
  · exact ⟨openChunk (withFifo [] [5]), ⟨0, 0, none, some (0, 0x4000000 + 12)⟩, by decide +kernel⟩
  · exact ⟨openChunk (withFifo (List.replicate 16 (fifoCmd ⟨5, 0, 0, 0, 0, 0, 0, 0⟩)) []), ⟨0, 0, none, some (0, 0x4000000 + 12)⟩, by decide +kernel⟩
  · exact ⟨openChunk (withFifo (List.replicate 16 (fifoCmd ⟨5, 0, 0, 0, 0, 0, 0, 0⟩)) []), ⟨0, 0, none, some (0, 0x4000000 + 12)⟩, by decide +kernel⟩

/-- Entry 3 of the group table has a window of 64 KiB at 0x100000. -/
def groupState : State := { running (regs archM [(9, 0x100008)]) [] with
  groups := [(3, { Group.reset with state := 1, gid := 5, base := 16, log2sz := 16, nmem := 1 })] }

theorem witness_MulticastInstructionsAct : guarded c0 groupState ∧
    (∃ t x, translate (openChunk groupState) (whoCur groupState) (scalarReq .store 8 false 0x100008) 0x100008 = (t, .val x) ∧
      windowOf t x.pa = some 3) ∧
    (∃ t x, translate (openChunk groupState) (whoCur groupState) (scalarReq .store 8 false 0x200000) 0x200000 = (t, .val x) ∧
      windowOf t x.pa = none) ∧
    (∃ t x, translate (openChunk groupState) (whoCur groupState) ⟨.load, 1, false, .refused⟩ 0x100008 = (t, .val x) ∧
      windowOf t x.pa = some 3) ∧
    commitsTo groupState (openChunk groupState) ∧ (openChunk groupState).cur.mamo = none ∧
    (∀ y : Option Word, let s := { groupState with cur := { groupState.cur with mamo := some (3, y) } }
      commitsTo s (openChunk s) ∧ (openChunk s).cur.mamo = some (3, y)) := by
  refine ⟨by simp only [guarded]; decide +kernel, ⟨openChunk groupState, ⟨0x100008, 0, none, none⟩, by decide +kernel⟩,
    ⟨openChunk groupState, ⟨0x200000, 0, none, none⟩, by decide +kernel⟩,
    ⟨openChunk groupState, ⟨0x100008, 0, none, none⟩, by decide +kernel⟩, ⟨by decide +kernel, rfl⟩, by decide +kernel, ?_⟩
  exact fun y => ⟨⟨rfl, rfl⟩, rfl⟩

/-- An access of U mode that passes, and the clauses of M mode at their boundaries. -/
theorem witness_AccessesAreChecked :
    (∃ t x, translate userState (whoCur userState) (scalarReq .store 8 true 0x40FF8) 0x40FF8 = (t, .val x)) ∧
    (let w := whoCur memState
     w.mode = .m ∧
     translate memState w (scalarReq .load 1 true 0x077FFFFFFFF) 0x077FFFFFFFF = (memState, .val ⟨0x077FFFFFFFF, 0, none, none⟩) ∧
     (translate memState w (scalarReq .load 1 true 0x07800000000) 0x07800000000).2 = .trap ⟨7, 0x07800000000, 0⟩ ∧
     (translate memState w (scalarReq .load 8 true 0x3FEFFFFFFF8) 0x3FEFFFFFFF8).2 = .trap ⟨7, 0x3FEFFFFFFF8, 0⟩ ∧
     (translate memState w (scalarReq .load 8 true 0x0100000000000000) 0x0100000000000000).2 = .trap ⟨7, 0x0100000000000000, 0⟩ ∧
     (translate memState w (scalarReq .load 8 true 0x40004) 0x40004).2 = .trap ⟨5, 0x40004, 0⟩) := by
  refine ⟨⟨userState, ⟨0x40FF8, 0, none, some (0, 0x40000 * 64 + 12)⟩, by decide +kernel⟩, by decide +kernel⟩

theorem witness_VectorMemory : guarded c0 memState ∧
    (∃ u v, laneLoad (openChunk memState) 64 0x40000 = (u, .val v)) ∧
    (∃ u, laneLoad (openChunk memState) 64 0x40001 = (u, .trap ⟨5, 0x40001, 0⟩)) ∧
    (∃ u l, loadLanes (openChunk memState) 4 ((List.range 16).map fun i => some (0x40000 + BitVec.ofNat 64 (i * 4))) = (u, .val l)) ∧
    (∃ u l, loadFirst (openChunk memState) 4 0x40000 16 0 = (u, .val l) ∧ l.length ≤ 16) ∧
    (∃ u xs, checkLanes (openChunk memState) 4 [0x40000, 0x40004] = (u, .val xs) ∧ roomFor u false (coherentLines xs) = .free ∧
      (∀ x ∈ xs, x.pa % 128 + 4 ≤ 128) ∧ xs.length = 2) ∧
    (0x40000 : Word).toNat % 4 = 0 ∧ straddles memState 0x40000 256 = false ∧
    ¬ ((0x40001 : Word).toNat % 4 = 0 ∧ straddles memState 0x40001 256 = false) := by
  have ⟨u1, h1⟩ := pairOfSnd (x := laneLoad (openChunk memState) 64 0x40000) (b := .val 0x3412) (by decide +kernel)
  have ⟨u2, h2⟩ := pairOfSnd (x := loadLanes (openChunk memState) 4 ((List.range 16).map fun i => some (0x40000 + BitVec.ofNat 64 (i * 4))))
    (b := .val (0x3412 :: List.replicate 15 0)) (by decide +kernel)
  have ⟨u3, h3⟩ := pairOfSnd (x := loadFirst (openChunk memState) 4 0x40000 16 0) (b := .val (0x3412 :: List.replicate 15 0))
    (by decide +kernel)
  refine ⟨by simp only [guarded]; decide +kernel, ⟨u1, _, h1⟩, pairOfSnd (by decide +kernel), ⟨u2, _, h2⟩,
    ⟨u3, _, h3, by decide⟩, ⟨(checkLanes (openChunk memState) 4 [0x40000, 0x40004]).1, [⟨0x40000, 0, none, none⟩, ⟨0x40004, 0, none, none⟩], ?_⟩,
    by decide, by decide +kernel, by decide +kernel⟩
  decide +kernel

/-- Vector floating point: a hart whose core holds the features of R202. -/
theorem witness_VectorFloat : guarded c0 (running archM []) ∧ featureHeld false (running archM []) := by
  simp only [guarded, featureHeld]; decide +kernel

theorem witness_SpecialFunctions : let s := running archM []
    guarded c0 s ∧ s.cur.sfu = none ∧ (getCluster s (clusterOf s.curId)).sfuQ.length < 64 ∧
      { s with cur := { s.cur with sfu := some true } }.cur.sfu = some true ∧
      ¬ ((List.replicate 8 0).filter (· == s.curId)).length < 8 := by
  simp only [guarded]; decide +kernel

theorem witness_VectorConversions : guarded c0 (running archM []) ∧ featureHeld (VType.f32 == .f64 || VType.i32 == .f64) (running archM []) ∧
    VType.i32.width < VType.i64.width ∧ VType.i64.isInt = true ∧ VType.f16.width < VType.f32.width ∧ VType.n8.width = 8 := by
  simp only [guarded, featureHeld]; decide +kernel

/-- The running sums of a scan exist. -/
theorem witness_ReductionsAndScans : guarded c0 (running archM []) ∧ VType.f32.isInt = false ∧ featureHeld false (running archM []) ∧
    ∃ acc : Nat → FVal × Flags, acc 0 = (.fin false 0 0, 0) ∧ ∀ i, acc (i + 1) = sumStep .f32 .rne ((acc i).1, 0) (.fin false 1 0) := by
  refine ⟨by simp only [guarded]; decide +kernel, by decide, by simp only [featureHeld]; decide +kernel,
    fun i => Nat.rec (.fin false 0 0, 0) (fun _ y => sumStep .f32 .rne (y.1, 0) (.fin false 1 0)) i, rfl, fun _ => rfl⟩

theorem witness_VectorRearrangements : guarded c0 (running archM []) ∧ 8 ≤ VType.i8.width := by
  simp only [guarded]; decide +kernel

/-- A hart with the tile handles t1 (FP32, 2 rows), t2 (BF16), t3 (described E4M3) and t4 (FP32 like t1). -/
def tileArch : Arch := { regs archM [(4, 0x40000), (5, 64)] with
  tiles := [(1, some (Tile.blank 2 64 .fp32 false)), (2, some (Tile.blank 2 64 .bf16 false)),
    (3, some (Tile.blank 1 64 .e4m3 true)), (4, some (Tile.blank 2 64 .fp32 false)),
    (5, some (Tile.blank 2 128 .fp32 false)), (6, some (Tile.blank 16 64 .fp32 false))] }
def tileState : State := running tileArch [0x40000 / 128]

theorem witness_TileHandles : guarded c0 tileState ∧ inUse (openChunk tileState) 8 = false ∧ (8 : THandle).priv = true ∧
    (16 : THandle).priv = false ∧ tileAt (openChunk tileState) 1 ≠ none ∧ tileAt (openChunk tileState) 16 = none ∧
    tabWf none tileState.cur.arch.tiles = true ∧ renames (openChunk tileState) 1 2 := by
  refine ⟨by simp only [guarded]; decide +kernel, by decide +kernel, by decide, by decide, by decide +kernel, by decide +kernel,
    by decide +kernel, fun _ => .inr (by decide +kernel)⟩

theorem witness_TileLoadsAndStores : guarded c0 tileState ∧ tileState.cur.arch.resume = false ∧
    (∃ t, tileAt (openChunk tileState) 1 = some t ∧ t.fmt = .fp32 ∧ t.desc = false ∧ t.poison = false) ∧
    (∃ v, renamed (noteShared (openChunk tileState) 1 false) 1 2 .ok = .ok v) ∧
    (∃ u vs, readRows (openChunk tileState) (fun _ => none) [[(0x40000, 64)], [(0x40040, 64)]] = (u, vs, .val ())) ∧
    (∃ u xs, checkRows (noteShared (openChunk tileState) 1 true) (splitAll [(0x40000, 64), (0x40040, 64)])
      [[(0x40000, 64)], [(0x40040, 64)]] = (u, xs, .val ())) ∧
    (∃ t, tileAt (openChunk tileState) 3 = some t ∧ t.desc = true) ∧
    (∃ u vs, readRows (openChunk tileState) (fun _ => none) [[(0x40000, 64)], [(0x07800000000, 64)]] =
      (u, vs, .trap ⟨7, 0x07800000000, 0⟩)) ∧
    (∃ u xs, checkRows (openChunk tileState) (splitAll [(0x40000, 64), (0x07800000000, 64)])
      [[(0x40000, 64)], [(0x07800000000, 64)]] = (u, xs, .trap ⟨7, 0x07800000000, 0⟩)) ∧
    (let s := running { tileArch with resume := true, htrow := 0x81 } []
     s.cur.arch.resume = true ∧ s.cur.arch.htrow.getLsbD 7 = true ∧ field 6 0 s.cur.arch.htrow = 1) := by
  have t {α β γ : Type} {x : α × β × γ} {c : γ} (h : x.2.2 = c) : ∃ a b, x = (a, b, c) :=
    ⟨x.1, x.2.1, Prod.ext rfl (Prod.ext rfl h)⟩
  refine ⟨by simp only [guarded]; decide +kernel, by decide, ⟨_, by rfl, by decide +kernel⟩, ⟨_, by rfl⟩, t (by decide +kernel), t (by decide +kernel), ⟨_, by rfl, by decide +kernel⟩,
    t (by decide +kernel), t (by decide +kernel), by decide +kernel⟩

theorem witness_TileArithmetic : guarded c0 tileState ∧ renames (openChunk tileState) 1 2 ∧ dispatches tileState ∧
    (∃ d a, tileAt (openChunk tileState) 1 = some d ∧ tileAt (openChunk tileState) 4 = some a ∧ d.fmt = .fp32 ∧ d.rb ≤ 256 ∧
      a.rows = d.rows ∧ a.rb = d.rb ∧ a.cols = d.cols ∧ d.poison = false ∧ d.desc = false) ∧
    (let x := Tile.blank 64 64 .e4m3 false
     (tileCycles x x).isSome = true ∧ subTiles (some 0) ≠ 0 ∧ (tileCycles x (Tile.blank 2 64 .fp32 false)).isNone = true) ∧
    quietFlags tileState 0x1F ∧ ¬ quietFlags (running { tileArch with fcsr := 0x3E0 } []) flNX ∧
    (∃ d a, tileAt (openChunk tileState) 5 = some d ∧ tileAt (openChunk tileState) 2 = some a ∧ d.desc = false ∧
      a.rows = d.rows ∧ a.cols = d.cols ∧ a.fmt ≠ .fp32 ∧ d.rb ≤ 256) ∧
    (∃ d, tileAt (openChunk tileState) 6 = some d ∧ d.desc = false ∧ 8 ≤ d.fmt.width ∧ d.cols = d.rows) ∧
    ((-64 : Int) < (BitVec.ofNat 8 0).toInt ∧ (BitVec.ofNat 8 0xC0).toInt ≤ -64) := by
  refine ⟨by simp only [guarded]; decide +kernel, fun _ => .inr (by decide +kernel), ?_, ⟨_, _, by rfl, by rfl, by decide +kernel⟩,
    by decide +kernel, by simp only [quietFlags]; decide +kernel, by simp only [quietFlags]; decide +kernel,
    ⟨_, _, by rfl, by rfl, by decide +kernel⟩, ⟨_, by rfl, by decide +kernel⟩, by decide +kernel⟩
  intro o h; revert h; revert o; decide +kernel

theorem witness_TileRows : guarded c0 tileState ∧ (∃ t, tileAt (openChunk tileState) 1 = some t ∧ t.poison = false ∧ t.fmt = .fp32 ∧
      1 < t.rows ∧ 31 + t.blocks ≤ 32) ∧ (rdQ tileState.cur.arch 0).poison = false ∧
    (rdQ (wrQ tileState.cur.arch 0 ⟨0, true⟩) 0).poison = true ∧ (0x40000 : Word).toNat % 64 = 0 ∧
    (∃ u, readArea (openChunk tileState) 0x40000 64 = (u, .val 0)) ∧ (0 : Word).getLsbD 15 = false ∧
    (∃ z, configure (openChunk tileState) 9 false (headerTile 0x8001) .ok = .ok z) := by
  refine ⟨by simp only [guarded]; decide +kernel, ⟨_, by rfl, by decide +kernel⟩, by decide +kernel, by decide +kernel, by decide,
    pairOfSnd (by decide +kernel), by decide, ⟨_, by rfl⟩⟩

theorem witness_QuantisingStore : guarded c0 tileState ∧ tileState.cur.arch.resume = false ∧
    (∃ t, tileAt (openChunk tileState) 1 = some t ∧ t.fmt = .fp32 ∧ t.poison = false) ∧
    ¬ (false = true ∧ (rdQ tileState.cur.arch 0).poison = true) ∧ (0x40000 : Word).toNat % 4 = 0 ∧ quietFlags tileState 0x1F ∧
    (∃ u xs, checkRows (noteShared (openChunk tileState) 1 true) (splitAll [(0x40000, 16), (0x40010, 16)])
      [[(0x40000, 16)], [(0x40010, 16)]] = (u, xs, .val ()) ∧ u.cur.arch = tileState.cur.arch ∧ xs.length = 2) ∧
    (∃ u xs, checkRows (noteShared (openChunk tileState) 1 true) (splitAll [(0x40000, 16), (0x07800000000, 16)])
      [[(0x40000, 16)], [(0x07800000000, 16)]] = (u, xs, .trap ⟨7, 0x07800000000, 0⟩) ∧ u.cur.arch = tileState.cur.arch ∧ xs.length = 1) := by
  refine ⟨by simp only [guarded]; decide +kernel, by decide, ⟨_, by rfl, by decide +kernel⟩, by decide, by decide,
    by simp only [quietFlags]; decide +kernel, ?_, ?_⟩
  · exact ⟨(checkRows (noteShared (openChunk tileState) 1 true) (splitAll [(0x40000, 16), (0x40010, 16)])
      [[(0x40000, 16)], [(0x40010, 16)]]).1, _, Prod.ext rfl (Prod.ext rfl (by decide +kernel)), by decide +kernel, by decide +kernel⟩
  · exact ⟨(checkRows (noteShared (openChunk tileState) 1 true) (splitAll [(0x40000, 16), (0x07800000000, 16)])
      [[(0x40000, 16)], [(0x07800000000, 16)]]).1, _, Prod.ext rfl (Prod.ext rfl (by decide +kernel)), by decide +kernel, by decide +kernel⟩

/-- Hart 0 in S mode with an entry point in g10 and no counter; every slot of the core is free but its own. -/
def parent : State := running { regs archM [(10, 0x20000), (13, 0x0000100000001)] with mode := .s } []

theorem witness_HartsGangsAndTasks : guarded c0 parent ∧ commitsTo parent (openChunk parent) ∧
    tabWf Hart.reset (openChunk parent).harts = true ∧ spawnCtlOk 0 1 = true ∧ spawnCtlOk 0x800000 1 = false ∧
    (∃ h, spawnSlot (openChunk parent) 0 1 0 = (0, some h) ∧ h ≠ parent.curId) ∧
    spawnSlot (openChunk parent) 0 4 0 = (1, none) ∧
    gangWordsOk 0 0x100000001 = true ∧ gangWordsOk 0 0x2000 = false ∧
    (∃ at_, freeGenerator (openChunk parent) 1 = some at_) ∧ coveredIn (openChunk parent) 0 0 1 = true ∧
    (let full := { openChunk parent with dies := (List.range 4).map fun d =>
        (d, { Die.reset with gens := (List.range 16).map fun g => (g, some (⟨0, #v[1, 1, 1], 0, 0, 0, 4, 0x20000, 0, archM, 0⟩ : Gang)) }) }
     freeGenerator full 1 = none ∧ freeGenerator full 3 = none) ∧
    takesHart (openChunk parent) 0 8 = true ∧ takesHart (openChunk parent) 0 0 = false ∧ 
    coveredIn { openChunk parent with cores := (List.range 16).map fun k => (k, { Core.reset with retired := true }) } 0 0 1 = false ∧
    (∃ w, adjustCounter (openChunk parent) 0 (fun y => y + 2 ^ 64 - 1) id = .ok w) ∧
    (let s := memState
     ∃ v x, load (openChunk s) ⟨.load, 128, false, .refused⟩ 0x40000 = (v, .val x) ∧ (descWord x 0x50).toNat % 8 = 0 ∧
       descOk x false = true) := by
  refine ⟨by simp only [guarded]; decide +kernel, ⟨by decide +kernel, rfl⟩, by decide +kernel, by decide +kernel, by decide +kernel,
    ⟨8, by decide +kernel⟩, by decide +kernel, by decide +kernel, by decide +kernel, ⟨_, by rfl⟩, by decide +kernel, by decide +kernel, by decide +kernel,
    by decide +kernel, by decide +kernel, ⟨_, by rfl⟩, ?_⟩
  have ⟨v, h⟩ := pairOfSnd (x := load (openChunk memState) ⟨.load, 128, false, .refused⟩ 0x40000) (b := .val 0x3412) (by decide +kernel)
  exact ⟨v, _, h, by decide +kernel, by decide +kernel⟩

theorem witness_HartsExitWaitAndMeet : let s := running archM []
    guarded c0 s ∧ commitsTo s (openChunk s) ∧ inState (retire c0 (openChunk s)) (coreOf s.curId) .ready = [] ∧
    (retire c0 (openChunk s)).curId = s.curId ∧ s.cur.arch.inh = false ∧ infl s.cur = 0 ∧ s.cur.cc = 0 ∧
    countersOk s.cur [0, 0, 0, 0] = true ∧ countersOk { s.cur with mcastCnt := 1 } [63, 63, 63, 0] = false ∧
    s.cur.tileCnt = 0 ∧ s.cur.mcastCnt = 0 ∧ { s.cur with tileCnt := 1 }.tileCnt ≠ 0 ∧
    (let t := { setBar s 0 3 ⟨5, 2, 1, 8⟩ with cur := { s.cur with stall := some (.barrier 3 0) } }
     commitsTo t (openChunk t) ∧ t.cur.stall = some (.barrier 3 ((gOf t 4).toNat % 2 ^ 32)) ∧ (getBar t 0 3).owner ≠ t.cur.arch.asid ∧
       (getBar t 0 3).gen ≠ 0) ∧
    (getBar (setBar s 0 3 ⟨0, 2, 1, 7⟩) 0 3).n ≠ 0 ∧ ¬ (getBar s 0 3).n ≠ 0 ∧
    (let t := { s with harts := [(1, { Hart.reset with slot := .ready })] }
     inState (retire c0 (openChunk t)) (coreOf t.curId) .ready ≠ []) := by
  simp only [guarded, commitsTo]; decide +kernel

theorem witness_ControlRegisters : let s := running { archM with mode := .u } []
    guarded c0 s ∧ commitsTo s (openChunk s) ∧ s.cur.arch.mode.rank < 1 ∧ 0 ≤ s.cur.arch.mode.rank ∧
    (0x4000 : Word).extractLsb' 12 3 ≤ 4 ∧ 4 < (0x5000 : Word).extractLsb' 12 3 ∧ (0 : Word).extractLsb' 0 2 ≠ 2 ∧ (2 : Word).extractLsb' 0 2 = 2 := by
  simp only [guarded, commitsTo]; decide +kernel

/-- A trap whose members have committed, one that waits for a member, and one of a hart that has just been pre-admitted. -/
theorem witness_TrapEntry : let s := running archM []
    let busy := { s with cur := { s.cur with inflight := [{ s.cur.chunk with count := 1 }] } }
    preAdmitted s s.curId = false ∧ isDrained s = true ∧ isDrained busy = false ∧ busy.cur.inflight ≠ [] ∧
    preAdmitted { s with soloHart := some 0 } 0 = true ∧ working s 0 s.cur.chunk = false := by decide +kernel

theorem witness_CallsAndReturns : let s (k : Mode) : State := running { archM with mode := k } []
    (∀ k ∈ [Mode.u, .s, .m], guarded c0 (s k) ∧ commitsTo (s k) (openChunk (s k)) ∧ (openChunk (s k)).cur.arch.mode = k) ∧
    (s .s).cur.arch.hstat.extractLsb' 0 2 ≠ 3 ∧ ({ archM with hstat := 3 } : Arch).hstat.extractLsb' 0 2 = 3 := by
  simp only [guarded, commitsTo]; decide +kernel

theorem witness_PrivilegedInstructions : let s (k : Mode) : State := running { regs archM [(4, 0x40000)] with mode := k } []
    (∀ k ∈ [Mode.u, .s, .m], guarded c0 (s k) ∧ commitsTo (s k) (openChunk (s k)) ∧ (s k).cur.arch.mode = k) ∧
    pendingIrq (openChunk (s .s)) 0 = false ∧ pendingIrq { s .s with cur := { (s .s).cur with swint := true } } 0 = true ∧
    invOf (openChunk (s .s)) = none ∧
    (∀ done : Bool, let i : Inv := ⟨1, 0, 0, 0, 0, true, done, [], []⟩
      let t := { s .s with invs := [i] }
      commitsTo t (openChunk t) ∧ invOf (openChunk t) = some i ∧ i.done = done) ∧
    (s .m).cur.ncWait = [] ∧ (let t := { s .m with cur := { (s .m).cur with ncWait := [7] } }
     commitsTo t (openChunk t) ∧ (openChunk t).cur.ncWait ≠ []) ∧ (0x740 : Word) &&& 0xFFFFFFFFFFFFF8C0 ≠ 0 ∧ (0x73F : Word) &&& 0xFFFFFFFFFFFFF8C0 = 0 ∧
    (0x1FFFF : Word).toNat < 2 ^ 17 ∧ (0x40000 : Word).toNat % 256 = 0 ∧ freeEntries (s .s).cur ≠ 0 := by
  simp only [guarded, commitsTo]; decide +kernel

theorem witness_Interrupts : let x (k : Mode) (h : Word) : Hart := { Hart.reset with arch := { archM with mode := k, hstat := h } }
    let s (y : Hart) : State := { State.reset with cur := y }
    interruptFor (s { x .u 0 with mck := [1] }) 0 ≠ none ∧ interruptFor (s { x .u 0 with wdp := some 5 }) 0 ≠ none ∧
    interruptFor (s { x .u 0x20 with swint := true }) 0 ≠ none ∧ interruptFor (s { x .u 0x40 with timecmp := 0 }) 0 ≠ none ∧
    interruptFor (s { x .s 0 with wdp := some 5 }) 0 = none := by decide +kernel

/-- A copy of 64 bytes from 0x40000 to 0x50000 is the oldest command of hart 1, in M mode. -/
def copyCmd (op : Word) : Cmd := ⟨op, 0x40000, 0x50000, 64, 0, 0, 0, 0⟩
def copyHart (d : Cmd) : Hart := { Hart.reset with
  slot := .issuing, arch := archM, chunk := Chunk.fresh archM, fifo := ⟨[{ fifoCmd d with mode := .m }], []⟩ }
def copyState (d : Cmd) : State :=
  let s := holding archM [] [(0x40000, 0xAB)]
  { s with harts := [(1, copyHart d)], coh := [0x40000 / 128, 0x50000 / 128].map fun l =>
      (l, { LineCoh.reset with caches := [(512, .m)], dir := ⟨.m, false, 0, [], false, [], 0⟩ }) }

theorem witness_CopyEngineCommands : let s := copyState (copyCmd 0x00010001)
    let c : FifoCmd := { fifoCmd (copyCmd 0x00010001) with mode := .m }
    (getHart s 1).fifo.cmds = [c] ∧ c.fin = none ∧ d0Ok c.cmd.d0 = true ∧ d0Ok 0x8001 = false ∧
    (∃ u, pieces 1 (fun s k => copyPiece 1 c 0x40000 0x50000 (0x40000 + BitVec.ofNat 64 k) (0x50000 + BitVec.ofNat 64 k) (64 - k) s)
      64 4096 s 0 = (u, 64, .val ())) ∧
    tabWf Hart.reset s.harts = true ∧ unconfirmed (modHead s 1 fun c => { c with fin := some (0, 64) }) 1 = false ∧
    operandsMeet c.cmd = false ∧ (∃ t, engineWrite s 1 c 0x50000 0x50000 8 7 false = (t, .val ())) ∧ (∃ t, engineRead s 1 c 0x40000 0x40000 8 = (t, .val 0xAB)) := by
  refine ⟨by decide +kernel, by decide, by decide +kernel, by decide +kernel, ?_, by decide +kernel, by decide +kernel,
    by decide +kernel, pairOfSnd (by decide +kernel), pairOfSnd (by decide +kernel)⟩
  exact tripleOf (by decide +kernel) (by decide +kernel)

/-- A shared tile to load, a save in S mode and a row copy. -/
theorem witness_CopyEngineOthers :
    (let s := copyState (copyCmd 0x09)
     (getShared s 0 0).tile = none ∧ (getShared (setShared s 0 0 ⟨some (Tile.blank 1 64 .int8 false), 0, 0⟩) 0 0).tile ≠ none) ∧
    (let s := copyState ⟨0x0A, 0x40000, 0x10001, 0, 0, 0, 0, 0⟩
     contextTarget s 1 1 = true ∧ contextTarget s 1 9 = false) ∧ (0x40000 : Word).toNat % 256 = 0 ∧ (0x40001 : Word).toNat % 256 ≠ 0 ∧
    (8 : Word).toNat % 8 = 0 ∧ (9 : Word).toNat % 8 ≠ 0 := by decide +kernel

/-! ### Steps of the hardware -/

/-- Hart 1 with a chunk that writes line 5, beside an admitted chunk of hart 2. -/
def writer (l : List Nat) : Chunk := { Chunk.fresh Arch.reset with count := 1, writes := l }
def chunkHart (l : List Nat) : Hart := { Hart.reset with slot := .issuing, inflight := [writer l] }
def chunkState (held : List Held) (pres : List Pres) : State := { running archM [] with
  harts := [(1, chunkHart [5]), (2, chunkHart [5])], held := held, presented := pres, arg := { a := 1 } }

theorem witness_Chunks :
    (let s := chunkState [⟨2, [], [5]⟩] []
     toPresent s 1 = some (writer [5]) ∧ (∀ p ∈ s.presented, p.hart ≠ 1) ∧ preAdmitted s 1 = false ∧
     s.held.length < 128 ∧ admittedNow s = [⟨2, [], [5]⟩] ∧ conflicts (writer [5]) ⟨2, [], [5]⟩ = true ∧
     working s 1 (writer [5]) = false) ∧
    (let s := chunkState [⟨1, [], [5]⟩] []
     (getHart s 1).inflight = [(writer [5])] ∧ s.held = [] ++ ⟨1, [], [5]⟩ :: []) ∧
    (let s := chunkState [] [⟨2, none, false⟩]
     (∃ p ∈ s.presented, p.on = none) ∧ preAdmitted s 1 = false) ∧
    (let c : FifoCmd := { fifoCmd ⟨0x07, 0, 0x80000, 0x80000, 0, 0, 0, 0⟩ with mode := .m, prog := 1 }
     let s := { running archM [] with harts := [(1, { copyHart ⟨0x07, 0, 0x80000, 0x80000, 0, 0, 0, 0⟩ with fifo := ⟨[c], []⟩ })] }
     (getHart s 1).fifo.cmds = c :: [] ∧ c.prog ≠ 0 ∧ c.fin = none ∧ rowBlock s.ilv = 0x80000 ∧
       (rowPage s 1 c .copyWrite 0x80000 0x80000).2 = .val (some 0x80000) ∧ (rowPage s 1 c .copyRead 0x80000 0x80000).2 = .val (some 0x80000)) ∧
    (let s := chunkState [] [⟨1, some ⟨2, [], [5]⟩, false⟩]
     s.presented = [] ++ ⟨1, some ⟨2, [], [5]⟩, false⟩ :: [] ∧ (⟨2, [], [5]⟩ : Held) ∉ s.held ∧ s.soloHart ≠ some 2 ∧
       toPresent s 1 = some (writer [5])) ∧
    (let s := modCluster (chunkState [] []) 1 fun k => { k with transfers := [⟨noHart, 0, 0, false, none, false⟩] }
     ∃ t, (getCluster s 1).transfers = t :: [] ∧ t.cmd = false) ∧
    (let s := modCluster (chunkState [] []) 1 fun k => { k with transfers := [⟨1, 0, 0, false, none, true⟩] }
     ∃ t, (getCluster s 1).transfers = t :: [] ∧ t.cmd = true ∧ t.hart ≠ noHart) := by
  refine ⟨by decide +kernel, by decide +kernel, by decide +kernel, by decide +kernel, by decide +kernel, ⟨_, by rfl, by decide⟩,
    ⟨_, by rfl, by decide, by decide⟩⟩

theorem witness_CommitWrites : let c := { Chunk.fresh Arch.reset with bytes := [(5, (1, 7))], writes := [5] }
    tabWf (0, 0) c.bytes = true ∧ c.ncs = [] ∧ (∀ l ∈ tabKeys c.bytes, lineDev l = State.reset.dev) ∧
    Memory.wf State.reset.mem = true ∧ tabWf Hart.reset State.reset.harts = true := by decide +kernel

theorem witness_TrapsHappen : let s := { running { archM with mode := .u, uie := true } [] with arg := { a := 0, trap := some ⟨2, false, 0, 0, 0⟩ } }
    (getHart s 0).slot = .issuing ∧ preAdmitted (focus s 0) 0 = false ∧ isDrained (focus s 0) = true ∧
    interruptFor s 0 = none ∧
    (let t := { s with cur := { s.cur with wdp := some 5 } }
     interruptFor t 0 ≠ none ∧ (getHart t 0).due = none ∧ preAdmitted (cutBack (focus t 0)) 0 = false ∧
       isDrained (cutBack (focus t 0)) = true) ∧
    (let t (c : Stall) : State := { s with cur := { s.cur with slot := .waiting, stall := some c } }
     stallOver (t .irq) 0 .irq = false ∧ interrupted (t .irq) 0 = false ∧ polls (t .irq) 0 .irq = false ∧
       (let c : Stall := .counter [63, 63, 63, 63] (some (2 ^ 42, some 1))
        polls (t c) 0 c = true ∧ stallOver (t c) 0 c = false)) ∧
    (let t := { s with cur := { s.cur with uip := true } }
     interruptFor t 0 = none ∧ (getHart t 0).uip = true ∧ (getHart t 0).arch.uie = true ∧ (getHart t 0).arch.inh = false) ∧
    (let d : Dog := ⟨some 0, 1, none, 0, none, false, false⟩
     let t := { s with dogs := [(0, d)], mtime := 1000 }
     tabGet Dog.reset t.dogs 0 = d ∧ d.pulseAt + d.win * 1000 ≤ t.mtime ∧ tabWf Dog.reset t.dogs = true ∧
       (dogOf t 0).isSome = true) ∧
    tabGet Dog.reset s.dogs 63 = Dog.reset ∧ (let m := running archM []; m.cur.arch.mode ≠ .u) := by decide +kernel

theorem witness_HartsAreScheduled :
    (let s := running archM []
     ∃ h, decodeChoice s 0 = some h) ∧
    (let s := { running { archM with mode := .s } [] with cur := { (running archM []).cur with stall := some .irq, stallAt := 0 }, cycle := 2 ^ 20, harts := [(1, { Hart.reset with slot := .ready })] }
     (getHart s 0).leave = none ∧ mustPark s 0 = true ∧ stallOver (cutBack (focus s 0)) 0 .irq = false ∧ preAdmitted (cutBack (focus s 0)) 0 = false ∧ isDrained (cutBack (focus s 0)) = true) ∧
    (let s := { running archM [] with harts := [(1, { Hart.reset with slot := .ready })] }
     (inState s 0 .issuing).length < 2 ∧ oldestReady s 0 = some 1 ∧ tabWf Hart.reset s.harts = true) ∧
    (let s := { running archM [] with
        cycle := 200000, harts := [(1, { Hart.reset with slot := .issuing, issuedAt := 1 }), (2, { Hart.reset with slot := .ready })] }
     2 ∈ inState s (coreOf 0) .ready ∧ (getHart s 2).readyAt + 100000 ≤ s.cycle ∧ 2 ≤ (inState s 0 .issuing).length ∧
       victimOf s 0 = some 0) ∧
    (let s := { running archM [] with harts := [(1, { Hart.reset with slot := .waiting, stall := some .irq, swint := true, arch := { archM with mode := .u, hstat := 0x20 } })] }
     (getHart s 1).slot = .waiting ∧ (getHart s 1).stall = some .irq ∧ interrupted s 1 = true) ∧
    (let g : Gang := ⟨0, #v[1, 1, 1], 0, 0, 0, 4, 0x20000, 0, archM, 0⟩
     let s := { running archM [] with dies := [(0, { Die.reset with gens := [(2, some g)] })], arg := { b := 2 } }
     tabGet none (getDie s 0).gens s.arg.b = some g ∧ gangChoice s 0 = some 2 ∧ (gangSlot s g).isSome = true) ∧
    (let n : Node := ⟨0x20000, [], 0, none, 0, 4, none, 0, 0, false, archM⟩
     let s := { running archM [] with dies := [(0, { Die.reset with pool := [n] })] }
     stuckNode s 0 n = false ∧ (nodeChoice s 0).isSome = true) ∧
    (let n : Node := ⟨0x20000, [], 0, none, 0, 4, some 5, 0, 0, false, archM⟩
     let s := { running archM [] with dies := [(0, { Die.reset with pool := [n] })] }
     (nodeChoice s 0).isSome = true ∧ nodeChoice { s with dies := [(0, { Die.reset with pool := [{ n with start := some 0 }] })] } 0 = none) ∧
    (let s := { running archM [] with cur := { (running archM []).cur with leave := some true } }
     (getHart s 0).leave = some true ∧ canLeave s 0 = true) := by
  refine ⟨⟨0, by decide +kernel⟩, by decide +kernel, by decide +kernel, by decide +kernel, by decide +kernel, by decide +kernel,
    by decide +kernel, by decide +kernel, by decide +kernel⟩

/-- An operation of hart 0 of one cycle on no accumulator. -/
def engOp : EngOp := ⟨0, 0, none, none, none, 1, [], [], 0⟩

theorem witness_TileEngines :
    (let s := running archM []
     tabWf Cluster.reset s.clusters = true ∧ reserveFits 0 (reserveUse s 0 ++ [(0, 32)]) = true ∧
     reserveFits 0 (reserveUse s 0 ++ [(0, 1000000)]) = false) ∧
    (let s := modCluster (running archM []) 0 fun c => { c with undispatched := [engOp] }
     engOp ∈ (getCluster s 0).undispatched ∧ (engineFor s 0 engOp).isSome = true) ∧
    (let s := modEngine (running archM []) 0 0 fun x => { x with queue := [⟨engOp, 0⟩] }
     (getEngine s 0 0).run = none ∧ (startOf s 0 0).isSome = true ∧ turnOf s 0 0 = some (0, true)) ∧
    (let s := modEngine (running archM []) 0 0 fun x => { x with queue := [⟨engOp, 0⟩], slots := (List.range 64).map fun k => (k, ⟨true, 0⟩) }
     (governing (getEngine s 0 0) s.cycle).own = true ∧ opReady s 0 ⟨engOp, 0⟩ = true) ∧
    (let s := modEngine (running archM []) 0 0 fun x => { x with run := some (⟨engOp, 0⟩, 0) }
     (getEngine s 0 0).run = some (⟨engOp, 0⟩, 0) ∧ 0 ≤ s.cycle) ∧
    (let s := modCluster (running archM []) 0 fun c => { c with sfuOut := [(0, 0)] }
     (getCluster s 0).sfuOut = (0, 0) :: [] ∧ 0 ≤ s.cycle) := by decide +kernel

/-- A page table with its root at 0x8000: two pointers and a leaf of 1 GiB at level 2. -/
def walkState : State := { holding { archM with mode := .u, ptroot := 0x8000 } [0x8000 / 128, 0x9000 / 128, 0xA000 / 128]
    [(0x8000, 1), (0x8002, 9), (0x9000, 1), (0x9002, 10), (0xA000, 0x17), (0xA001, 0x10)] with
  clusters := [(0, { Cluster.reset with walks := [⟨0, false, .u, 0, 0x8000, .load, .refused, 0x40000, 0x40000, [], []⟩] })]
  arg := { a := 0, word := 0x40000, kind := .load } }

theorem witness_Walks : Memory.wf walkState.mem = true ∧ (∀ cmd : Bool, walkAnswer walkState ⟨0, .u, 0, 0x8000, true⟩ cmd 0x80000 = none) ∧
    stageRefused walkState 0x8000 = false ∧ stageRefused { walkState with stage := 1 } 0x6000000 = true ∧
    tabWf Cluster.reset walkState.clusters = true ∧ (getCluster walkState 0).walkCache = [] ∧
    (tlbFind walkState 0 0 0x80000).2 = none ∧ entryHeld walkState 0 0x8000 false = true ∧ entryHeld walkState 0 0xB000 false = false ∧
    ((getCluster walkState 0).walks.find? (fun q => q.hart == 0 && q.addr == 0x40000 && q.kind == .load)).isSome = true := by
  decide +kernel

/-- A walk ends in a leaf with A set, and below an entry with V = 0 in PAGE_INVALID. -/
theorem witness_WalkEnds :
    (walkFor ⟨0, .u, 0, 0x8000, true⟩ ⟨.load, 8, false, .refused⟩ 0x40000 0x40000 walkState).2 = .leaf 0x1057 0xA000 ∧
    (walkFor ⟨0, .u, 0, 0x8000, true⟩ ⟨.load, 8, false, .refused⟩ 0x1000000000000 0x1000000000000 walkState).2 = .fault 6 ∧
    (walkFor ⟨0, .u, 0, 0x8000, true⟩ ⟨.load, 8, false, .refused⟩ 0x40000 0x40000 { walkState with coh := [] }).2 = .need 0x100 false := by
  decide +kernel

theorem witness_Invalidations : let i : Inv := ⟨1, 0, 0, 0, 0, false, false, [], []⟩
    let s := { running archM [] with invs := [i] }
    let t := { s with invs := [{ i with sent := true, dies := [0, 1, 2, 3] }] }
    s.invs = [] ++ i :: [] ∧ i.sent = false ∧ { i with sent := true }.dies = [] ∧ tabWf Core.reset s.cores = true ∧ t.invs[t.arg.a]? = some { i with sent := true, dies := [0, 1, 2, 3] } ∧
    ∀ h ∈ hartIds t, ∀ c ∈ (getHart t h).inflight, invMark i ∉ c.trans := by decide +kernel

/-! ### Lines, messages, groups, links -/

/-- `State.reset` with an argument and one line of the directory. -/
def withLine (a : Arg) (l : Nat) (c : LineCoh) : State := { State.reset with stage := 3, memLock := true, events := [], arg := a, coh := [(l, c)] }
def entry (st : Moesi) (owner : Nat) (sharers rem : List Nat) (rown : Bool) : DirEnt := ⟨st, rown, owner, sharers, false, rem, 0⟩
def lineFill (own active : Bool) : Fill := ⟨0, if own then .write else .read, [], 0, 0, active, false, []⟩
def txn (k : TxnKind) (wait : Nat) : Txn := ⟨k, 0, wait, none, 0, 0, false, false⟩
/-- Line 1 as the cluster caches, the entry, the transaction and the fills of the module have it. -/
def lineOf (caches : Tab Moesi) (e : DirEnt) (busy : Option Txn) (fills : List Fill) : LineCoh :=
  { LineCoh.reset with caches := caches, dir := e, busy := busy, fills := fills }
/-- Cluster 0 or die 0 asks for line 1. -/
def ask1 : Arg := { a := 0, b := 1, c := 1 }

theorem witness_CoherenceRequests :
    (∀ s ∈ [withLine ask1 1 (lineOf [] DirEnt.none none []), withLine ask1 1 (lineOf [(513, .m)] (entry .m 0 [] [] false) none []),
        withLine ask1 1 (lineOf [(513, .o)] (entry .o 0 [] [] false) none []), withLine ask1 1 (lineOf [(512, .s)] (entry .s 0 [0] [] false) none [])],
      activeFill (getCoh s 1) 0 = none ∧ waitsBehind s (.gets, s.arg) (fun h => dieOf h == 0) false = false ∧
        waitsBehind s (.getm, s.arg) (fun h => dieOf h == 0) true = false) ∧
    (activeFill (lineOf [] DirEnt.none none [lineFill true true]) 0).isSome = true ∧
    (let s := { withLine ask1 1 (lineOf [] DirEnt.none none []) with events := [(9, .gets, { ask1 with flag := true })] }
     waitsBehind s (.gets, s.arg) (fun h => dieOf h == 0) false = true) ∧
    (let s := { withLine ask1 1 (lineOf [] DirEnt.none none [{ lineFill true false with kind := .excl }]) with
        harts := [(1, { Hart.reset with inflight := [{ Chunk.fresh Arch.reset with count := 1, reads := [1] }] })] }
     FillKind.pref .excl = true ∧ meetsMark s .excl 1 = true ∧ activeFill (getCoh s 1) 0 = none) ∧
    supplier (lineOf [(513, .m)] DirEnt.none none []) 0 = some 513 ∧ supplier (lineOf [] DirEnt.none none []) 0 = none ∧
    cacheSt (lineOf [(512, .s)] DirEnt.none none []) (clKey 0) ≠ .i ∧ cacheSt (lineOf [(513, .o)] DirEnt.none none []) 513 = .o := by
  decide +kernel

theorem witness_Snoops : let s := withLine ask1 1 (lineOf [(513, .m)] (entry .m 0 [] [] false) none [])
    let t := withLine ask1 1 { lineOf [] (entry .e 0 [] [] false) none [] with wb := some (0, 0) }
    snoopWaitsIn s (onDie 0 none) false 1 = false ∧ snoopWaitsIn s (onDie 0 none) true 1 = false ∧
    supplier (getCoh (snoopIn s (onDie 0 none) false 1) 1) 0 = some 513 ∧
    dieState (getCoh (snoopIn s (onDie 0 none) true 1) 1) 0 = .m ∧ dieState (getCoh t 1) 0 = .i ∧
    supplier (getCoh t 1) 0 = none ∧ (getCoh t 1).wb.any (fun w => w.1 == 0) = true ∧ (getCoh s 1).wb = none ∧
    (let u := { running archM [] with cur := { (running archM []).cur with chunk := { Chunk.fresh archM with reads := [1] } }, held := [], soloHart := some 0 }
     preAdmitted u 0 = true → snoopWaitsIn u (onDie 0 none) true 1 = true) := by decide +kernel

/-- The home: a free entry of each state, busy lines, and the transactions whose answers come. -/
theorem witness_Home :
    (∀ e ∈ [DirEnt.none, entry .s 0 [1] [] false, entry .e 1 [] [] false, entry .m 0 [] [7] true, entry .s 0 [0] [] false],
      let s := withLine ask1 1 (lineOf [] e none [])
      (getCoh s 1).busy = none ∧ (getCoh s 1).queue = [] ∧ memHeld s 1 = false ∧ setFull s 1 = false ∧ lineDev 1 = s.dev) ∧
    (getCoh (withLine ask1 1 (lineOf [] DirEnt.none (some (txn .rds 1)) [])) 1).busy.isSome = true ∧
    (let s := withLine ask1 1 (lineOf [] (entry .s 0 [0] [] false) none [])
     otherDies s 1 (getCoh s 1).dir (some 0) = [] ∧ otherMods s (getCoh s 1).dir none = [] ∧
       (dieTxn s .rdm 0 1).owns (getCoh s 1).dir = false ∧ 0 ∈ (getCoh s 1).dir.sharers) ∧
    (let s := withLine ask1 1 (lineOf [] (entry .e 1 [] [] false) none [])
     otherDies s 1 (getCoh s 1).dir (some 0) = [1] ∧ (dieTxn s .rdm 0 1).owns (getCoh s 1).dir = false) ∧
    (∀ more ∈ [[], [1]], let s := withLine ask1 1 (lineOf [(544, .o)] (entry .o 0 more [] false) none [])
     ownState (getCoh s 1).dir.st = true ∧ (getCoh s 1).dir.rown = false ∧ (getCoh s 1).dir.owner = 0 ∧
       (dieTxn s .rdm 0 1).hasData s 1 (getCoh s 1).dir = true ∧ otherDies s 1 (getCoh s 1).dir (some 0) = more) ∧
    (let s := withLine ask1 1 (lineOf [] DirEnt.none (some (txn .snoop 1)) [])
     (getCoh s 1).busy = some (txn .snoop 1)) ∧
    (∀ k ∈ [(TxnKind.rds, 2), (.rdm, 1), (.upg, 1)], let s := withLine ask1 1 (lineOf [] (entry .s 0 [0] [] false) (some (txn k.1 k.2)) [])
      (getCoh s 1).busy = some (txn k.1 k.2) ∧ (txn k.1 k.2).msg = none ∧ (∀ x ∈ s.coh, x.2.queue = []) ∧ tabWf LineCoh.reset s.coh = true) := by
  decide +kernel

theorem witness_DataAndWriteBacks :
    (∀ own ∈ [true, false], let s := withLine ask1 1 (lineOf [] DirEnt.none none [lineFill own true])
      activeFill (getCoh s 1) 0 = some (lineFill own true) ∧ tabWf LineCoh.reset s.coh = true ∧ l2Full s 0 1 = false) ∧
    activeFill (lineOf [] DirEnt.none none []) 0 = none ∧
    (∀ st ∈ [Moesi.m, .o], let s := withLine ask1 1 (lineOf [(512, st)] (entry st 0 [] [] false) none [])
      cacheSt (getCoh s 1) (clKey 0) = st ∧ tabWf LineCoh.reset s.coh = true ∧ tabWf Moesi.i (getCoh s 1).caches = true ∧
        (llcWays s 0 1).length < 24 ∧ ownerDie (getCoh s 1).dir = some 0 ∧ (getCoh s 1).busy = none) ∧
    (let s := withLine ask1 1 (lineOf [] DirEnt.none none [])
     ownerDie (getCoh s 1).dir ≠ some 0 ∧ trained s = true ∧ memHeld s 1 = false ∧ tabGet 0 s.lineTd 1 = 0 ∧
       snoopUnderWay s 0 1 = false ∧ snoopUnderWay { s with events := [(0, two .fwds 0 1)] } 0 1 = true) ∧
    (let s := { withLine ask1 1 LineCoh.reset with hbms := [(0, { Hbm.reset with thold := true, selfRef := true })] }
     memHeld s 1 = true ∧ trained s = true ∧ lineDev 1 = s.dev ∧ tabWf Hbm.reset s.hbms = true) := by decide +kernel

/-- A message of this module itself is handled at once. -/
def told (m : Msg) (s : State) : State := { s with arg := { msg := some m, flag := true } }
/-- The first line of module 1. -/
abbrev peerLine : Nat := 2 ^ 35
def heldPeer (st : Moesi) : PeerLine := { PeerLine.none with st := st, valid := BitVec.allOnes 128 }

theorem witness_PeerHome :
    (∀ m : Msg, ∀ s : State, accepts (told m s) m (told m s)) ∧
    (let s := State.reset
     lineDev 64 = s.dev ∧ lineDev peerLine ≠ s.dev ∧
     arrives { s with arg := { msg := some { prdsMsg with dst := 0, src := 1 } } } { prdsMsg with dst := 0, src := 1 }) ∧
    (∀ e ∈ [DirEnt.none, entry .s 0 [1] [] false, entry .s 0 [] [1, 2, 3, 4] false, entry .s 0 [] [1, 2, 3, 40] false, entry .e 1 [] [] false],
      let s := withLine ask1 64 (lineOf [] e none [])
      (getCoh s 64).busy = none ∧ (getCoh s 64).queue = [] ∧ memHeld s 64 = false ∧ setFull s 64 = false ∧ (getCoh s 64).dir = e) ∧
    (∀ x ∈ 5 :: [1, 2, 3, 4], groupOf x = groupOf 0) ∧ (∃ x ∈ 5 :: [1, 2, 3, 40], groupOf x ≠ groupOf 0) ∧
    (let s := withLine ask1 64 (lineOf [] (entry .m 0 [] [7] true) none [])
     ownerMod (getCoh s 64).dir = some 7 ∧ tabWf LineCoh.reset s.coh = true) ∧
    (let q : Msg := { prdsMsg with dst := 0, src := 7, code := 3, mask := BitVec.allOnes 128 }
     let s := withLine ask1 64 (lineOf [] DirEnt.none (some { txn .pwr 0 with msg := some q }) [])
     (getCoh s 64).busy = some { txn .pwr 0 with msg := some q } ∧ q.unc = false ∧ q.src ≠ s.dev) := by
  refine ⟨fun m s => .inl ⟨rfl, .inl rfl, rfl⟩, ?_⟩
  unfold arrives; decide +kernel

theorem witness_PeerHolder :
    (∀ st ∈ [Moesi.m, .e], let s := { withLine ask1 64 LineCoh.reset with peers := [(peerLine, some (heldPeer st))] }
      snoopWaits s none false peerLine = false ∧ snoopWaits s none true peerLine = false ∧ (getCoh s peerLine).busy = none ∧
      ownedPeer (snoop s none false peerLine) peerLine = some (heldPeer st) ∧ tabWf none s.peers = true ∧ lineDev peerLine ≠ s.dev) ∧
    (let s := { withLine ask1 64 LineCoh.reset with peers := [(peerLine, some (heldPeer .s))] }
     ownedPeer (snoop s none false peerLine) peerLine = none ∧ tabGet none s.peers peerLine = some (heldPeer .s)) ∧
    (let s := { withLine ask1 64 LineCoh.reset with peers := [(peerLine, some (heldPeer .s))] }
     peerDies s peerLine = [] ∧ peerDies { s with coh := [(peerLine, lineOf [(512, .s)] (entry .s 0 [0] [] false) none [])] } peerLine ≠ [] ∧
       snoopWaits s none true peerLine = false) ∧
    (let t : Txn := { txn .snoop 0 with msg := some { prdsMsg with src := 1, dst := 0, code := 0x11, line := peerLine } }
     let s := withLine { ask1 with c := 1 } peerLine (lineOf [] DirEnt.none (some t) [])
     (getCoh s peerLine).busy = some t ∧ t.msg.isSome = true) ∧
    (let s := { withLine ask1 64 LineCoh.reset with peers := [(peerLine, some { heldPeer .s with fly := 1, flyHarts := [3] })] }
     pendingFrom s 3 = [] ∧ tabWf none s.peers = true) ∧
    (let s := withLine ask1 64 LineCoh.reset
     tabGet none s.peers peerLine = none ∧ pendingFrom s 1 = [] ∧ backBuffer s peerLine = none) ∧
    (let s := { State.reset with reqs := [{ id := 3, due := 5, resent := false, reported := false, path := [], harts := [], msg := { prdsMsg with src := 0, dst := 1, code := 4, line := peerLine } }] }
     (backBuffer s peerLine).isSome = true) := by decide +kernel

theorem witness_Timers :
    (∀ re ∈ [false, true], let r : Req := { id := 3, due := 5, resent := re, reported := false, path := [], harts := [], msg := { prdsMsg with src := 0, dst := 1 } }
      let s : State := { State.reset with mtime := 9, reqs := [r], arg := { a := 3 } }
      s.reqs = [] ++ r :: [] ∧ r.id = s.arg.a ∧ r.due ≤ s.mtime ∧ r.msg.dst ∉ s.lostMap ∧ r.msg.dst ≠ s.dev ∧
        ∀ y ∈ (tabGet Pair.reset s.pairs (pairKey r.msg.dst (clsOf r.msg))).waiting, y.seq ≠ r.msg.seq) ∧
    (let r : Drain := ⟨[], [], [(4, 1)], [], true⟩
     let s : State := { running archM [] with cur := { (running archM []).cur with drain := some r }, arg := { a := 0, b := 1, c := 4 } }
     0 ∈ hartIds s ∧ (getHart s 0).drain = some r ∧ (4, 1) ∈ r.probes ∧ tabWf Hart.reset s.harts = true) ∧
    (stackHeld { Hbm.reset with thold := true, selfRef := true } = true ∧ stackHeld Hbm.reset = false) := by decide +kernel

/-- A group of one member, this module, which is its sequencer, with its list at 0x1000. -/
def grp (st : Nat) : Group := { Group.reset with state := st, gid := 7, seqdev := 0, nmem := 1, base := 0x40000, log2sz := 12, listAddr := 0x1000, replay := 0x80000 }
def withGroup (g : Group) : State := { State.reset with events := [], groups := [(2, g)] }
/-- A message with these fields: request 1 for group 7. -/
def groupMsg (code stamp : Nat) : Msg := { prdsMsg with dst := 0, src := 1, code := code, aux := [1, 7, 0, 0, 3, stamp, 1, 0] }

theorem witness_Groups :
    (let s := withGroup (grp 1)
     entryOfGid s (gField (groupMsg 0x14 1) 1) = some 2 ∧ entryOfGid s 8 = none ∧ (getGroup s 2).seqdev = s.dev ∧
       (getGroup s 2).log2sz ≠ 0 ∧ gField (groupMsg 0x15 1) 5 = (getGroup s 2).applied + 1 ∧
       applyWaits s 2 (windowLine s (getGroup s 2) (groupMsg 0x15 1)) = false ∧ tabWf Group.reset s.groups = true ∧
       (getGroup s 2).applied + 1 < gField (groupMsg 0x15 3) 5 ∧ (getGroup s 2).held = []) ∧
    (let s := withGroup { grp 3 with rstat := 3 }
     (getGroup s 2).state = 3 ∧ (getGroup s 2).rstat = 3 ∧ (∀ a ∈ (getGroup s 2).answers, a.1 ≠ 1) ∧
       (∃ d ∈ membersOf s (getGroup s 2), ∀ a ∈ (getGroup s 2).answers, a.1 ≠ d)) ∧
    (let s := withGroup { grp 1 with waitReqs := [groupMsg 0x14 0] }
     (getGroup s 2).waitReqs = groupMsg 0x14 0 :: [] ∧ (getGroup s 2).stamped + 1 ≤ allAcked s (getGroup s 2) + depthOf (getGroup s 2) ∧
       membersOf s (getGroup s 2) = [0] ∧ membersOf s { getGroup s 2 with nmem := 2 } = [0, 0]) ∧
    (let s := withGroup { grp 1 with stamped := 256 }
     allAcked s (getGroup s 2) + depthOf (getGroup s 2) < (getGroup s 2).stamped + 1) ∧
    (let g := { grp 1 with early := [groupMsg 0x15 1] }
     g.state ≠ 2 ∧ g.early.find? (fun m => gField m 5 == g.applied + 1) = some (groupMsg 0x15 1)) ∧
    (devOf (grp 1).replay = 0 ∧ (grp 1).replay % 256 = 0 ∧ (grp 1).replay + 256 * depthOf (grp 1) ≤ 2 ^ 42) := by decide +kernel

/-- A message of module 1 for module 2 that this module relays, and a port that is up. -/
def farMsg : Msg := { prdsMsg with src := 1, dst := 2 }
def upPort : Port := { Port.reset with trained := true, up := true, attested := true, peer := 1 }

theorem witness_Messages :
    (farMsg.vc / 2 = clsOf farMsg ∧ farMsg.dst ≠ 0 ∧ farMsg.src ≠ 0 ∧ ({ farMsg with vc := 2 } : Msg).vc / 2 ≠ clsOf farMsg ∧
      ({ State.reset with lostMap := [1] } : State).lostMap.contains farMsg.src = true ∧ State.reset.lostMap.contains farMsg.src = false ∧
      (msgClass farMsg.code).isSome = true ∧ msgClass 0x3F = none) ∧
    (let near := [(0, localPort 0 1)]
     let m : Msg := { prdsMsg with src := 0, dst := 1, via := .other near }
     let up (p : Nat) : Nat × Port := (p, { Port.reset with trained := true, up := true })
     let s : State := { State.reset with ports := [up (localPort 0 1), up (localPort 0 2)] }
     m.via = .other near ∧ linkUp s (0, localPort 0 1) = true ∧ groupOf m.dst = groupOf s.dev ∧ near = [(s.dev, localPort s.dev m.dst)]) ∧
    (let m : Msg := { farMsg with dst := 0 }
     let s : State := { State.reset with arg := { msg := some m } }
     arrives s m ∧ arrives { s with arg := { msg := some { m with seq := 1 } } } { m with seq := 1 } ∧
       (pairOf s m).expect < ({ m with seq := 1 } : Msg).seq ∧ (∀ x ∈ (pairOf s m).waiting, x.seq ≠ 1) ∧
       m.seq < (pairOf { s with pairs := [(inKey 1 0, { Pair.reset with expect := 1 })] } m).expect) ∧
    (let m : Msg := { prdsMsg with src := 0, dst := 1 }
     let s : State := { State.reset with ports := [(0, upPort)] }
     m.port = none ∧ m.via = .direct ∧ groupOf m.dst = groupOf s.dev ∧ linkUp s (0, localPort 0 1) = true ∧
       linkUp State.reset (0, localPort 0 1) = false ∧ choosePath s m = some (.direct, [(0, 0)])) ∧
    (let s : State := { State.reset with ports := [(0, { upPort with queue := [farMsg] })] }
     (getPort s 0).queue = farMsg :: [] ∧ (getPort s 0).freeAt ≤ s.cycle ∧ linkUp s (s.dev, 0) = true) ∧
    (let p : Pair := { Pair.reset with unacked := List.replicate 256 ⟨farMsg, []⟩, waiting := [farMsg] }
     p.waiting = farMsg :: [] ∧ p.unacked.length = 256 ∧ ¬ p.unacked.length < 256 ∧ Pair.reset.unacked.length < 256) := by
  unfold arrives; decide +kernel

theorem witness_Links :
    (let s : State := { State.reset with ports := [(0, upPort)], arg := { a := 0, b := 1, c := 30 } }
     s.arg.msg = none ∧ (getPort s 0).up = true ∧ (getPort s 0).fails < 7 ∧ wiring s.dev 0 = some (s.arg.b, s.arg.c) ∧
       (getPort s 0).mayRetrain = true ∧ wiring s.dev 0 ≠ some (5, 30) ∧ s.mtime < (getPort s 0).lastFlit + 16000 ∧
       16000 ≤ ({ s with mtime := 16000 } : State).mtime) ∧
    (let s : State := { State.reset with stage := 2, ports := [(0, upPort)] }
     (∃ q ∈ s.ports, q.2.trained = true) ∧ ∀ q ∈ s.ports, q.2.trained = true → q.2.attested = true) ∧
    (let s : State := { State.reset with mtime := 30000, ports := [(31, upPort)] }
     portIdle s (getPort s 31) = true ∧ (getPort s 31).pen = true ∧ (getPort s 31).parked = false ∧ tabWf Port.reset s.ports = true ∧
       portDepth (getPort s 31) < (getPort s 31).wth ∧ portIdle State.reset upPort = false) ∧
    (let x := { upPort with parked := true, wth := 0 }
     x.forced = false ∧ x.farForced = false ∧ false ∉ x.wakes ∧ x.wth ≤ portDepth x ∧ x.rejoinAt = none) ∧
    (let m : Msg := { prdsMsg with src := 1, dst := 0, code := 0x36, vc := 6, port := some 31, aux := [1] }
     let s : State := { State.reset with ports := [(31, upPort)] }
     arrives { s with arg := { msg := some m } } m ∧ msgFlag m 0 = true ∧ msgFlag { m with aux := [0] } 0 = false) ∧
    (let s : State := { State.reset with arg := { a := 0 } }
     (getPort s 0).up = false ∧ (getPort { s with ports := [(0, upPort)] } 0).up = true ∧ tabWf Port.reset s.ports = true) ∧
    (let b (c : Nat) : List Byte := [0x12, BitVec.ofNat 8 c, 0, 0]
     let m (c : Nat) : Msg := { prdsMsg with src := 1, dst := 0, code := 0x3A, vc := 6, port := some 31, aux := [4], body := packFlits 16 (b c) }
     (attestBytes (m 0x83)).getD 1 0 = 0x83 ∧ (attestBytes (m 0x03)).getD 1 0 = 0x03 ∧ { upPort with asked := b 0x83 }.asked ≠ [] ∧
       arrives { State.reset with arg := { msg := some (m 0x03) } } (m 0x03)) ∧
    ({ upPort with wakes := [false] }.wakes = false :: [] ∧ { upPort with wakes := [true] }.wakes.head? ≠ some false) ∧
    State.reset.lostMap.contains 1 = false := by
  unfold arrives; decide +kernel

/-! ### Controllers, errors, reset -/

def hbmState (x : Hbm) (a : Arg) : State := { State.reset with stage := 3, memLock := true, events := [], hbms := tabPut Hbm.reset [] 0 x, arg := a }
def hbmReq (op : HbmOp) : HbmReq := ⟨op, 0, 0, 0, false, false, 0, 0⟩

theorem witness_Hbm :
    (∀ op ∈ [HbmOp.read, .write], let s := hbmState Hbm.reset { req := some (hbmReq op) }
      lineDev 0 = s.dev ∧ isData (offOf (0 * 128)) = true ∧ (stackOf s.ilv (offOf (0 * 128))).1 = 0 ∧ trained s = true ∧
        requestHeld s 0 (hbmReq op) = false ∧ tabWf none (getHbm s 0).openRows = true ∧ tabWf Hbm.reset s.hbms = true ∧
        requestHeld (hbmState { Hbm.reset with selfRef := true } {}) 0 (hbmReq op) = true) ∧
    (let r : Waiting := ⟨hbmReq .read, .nothing⟩
     let q : Waiting := ⟨{ hbmReq .read with lr := true }, .nothing⟩
     let s := hbmState { Hbm.reset with waiting := [r, q] } {}
     (getHbm s 0).waiting = [r, q] ∧ requestHeld s 0 r.req = false ∧ requestHeld s 0 q.req = false ∧ sameRow s r.req q.req = true ∧
       (getCoh s 0).queue = [] ∧ (getHbm (hbmState { Hbm.reset with waiting := [r] } {}) 0).waiting = [r]) ∧
    (let s := { State.reset with stage := 1, lineTd := [(3, 1)] }
     s.stage = 1 ∧ Memory.wf s.hbm = true ∧ tabGet 0 s.lineTd 3 ≠ 0 ∧ lineDev 3 = s.dev ∧ offOf (3 * 128) < 0x6000000 ∧
       tabGet 0 s.lineTd 4 = 0 ∧ 4 ∉ s.poison ∧ tabWf 0 s.lineTd = true ∧ Memory.wf s.mem = true) ∧
    (let x := { Hbm.reset with openRows := [(5, some (1, 0))] }
     tabGet none x.openRows 5 = some (1, 0)) ∧
    (let s := hbmState Hbm.reset {}
     (getHbm s 0).period ≠ 0 ∧ stackHeld (getHbm s 0) = false ∧ (tabGet Chan.reset (getHbm s 0).chans 0).hold = false ∧
       pcOf ((getHbm s 0).pos * 128) = 0 ∧ tabWf Hbm.reset s.hbms = true) ∧
    (∀ w ∈ [true, false], tabGet none ({ Hbm.reset with scrub := [(3, some ⟨0, w, false⟩)] } : Hbm).scrub 3 = some ⟨0, w, false⟩) ∧
    (let x := { Hbm.reset with crit := true }
     x.crit = true ∧ x.selfRef = false) ∧
    (let x := { Hbm.reset with exitAt := some 0, selfRef := true }
     x.exitAt = some 0 ∧ x.crit = false ∧ tabWf Chan.reset x.chans = true ∧ tabWf Lane.reset x.lanes = true) ∧
    (let x := { Hbm.reset with chans := [(3, { Chan.reset with trainReq := true })] }
     (tabGet Chan.reset x.chans 3).trainReq = true ∧ (tabGet Chan.reset x.chans 3).hold = false ∧ stackHeld x = false) ∧
    ((List.range 8).find? (fun i => !(usedSpares Hbm.reset 3).contains i) = some 0) ∧
    ((List.range 8).find? (fun i => !(usedSpares { Hbm.reset with chans := [(3, { Chan.reset with worn := List.range 8 })] } 3).contains i) = none) := by
  decide +kernel

theorem witness_Errors :
    (let s := running { archM with tiles := [(3, some { rb := 1, fmt := .int8, desc := false, scale := 0, poison := false, data := [0], descs := [] })] } []
     (getCluster s 0).waysRetired.contains 2 = false ∧ tabWf Hart.reset s.harts = true ∧ tabWf none (getHart s 0).arch.tiles = true ∧
       (getHart s 0).slot ≠ .free ∧ (getHart s 1).slot = .free ∧ (getEngine s 0 1).run = none ∧
       recent s (getEngine s 0 1).lastErr = false ∧ tabWf Die.reset s.dies = true ∧ tabWf Hbm.reset s.hbms = true) ∧
    (let s := { running archM [] with curId := 4, harts := [(0, { Hart.reset with slot := .ready })], relocating := [0] }
     0 ∈ s.relocating ∧ (∃ n, moveSlot s 0 = some n ∧ n ≠ 0 ∧ n ≠ s.curId) ∧ 0 ≠ s.curId ∧ tabWf Hart.reset s.harts = true) ∧
    (let s := { running archM [] with coh := [(7, lineOf [(512, .s)] (entry .s 0 [0] [] false) none [])] }
     cacheCluster 512 = some 0 ∧ cacheCluster 544 = none ∧ (tabGet [] (getCluster s 0).wayErrs 3).length < 15 ∧
       cacheSt (getCoh s 7) 512 = .s ∧ tabWf [] (getCluster s 0).wayErrs = true ∧ (getCluster s 0).waysRetired.contains 3 = false ∧
       (getCluster s 0).l2 = []) ∧
    (let x : Tile := Tile.blank 1 64 .int8 false
     let a := { archM with tiles := [(3, some x)], phys := [(3, 1)] }
     let h := (running a []).cur
     let busy := { h with arch := { a with phys := [(3, 2)], qgen := Vector.replicate 8 1 }, chunk := { Chunk.fresh a with count := 1 } }
     tabGet none (committedArch h).tiles 3 = some x ∧ tabGet 0 h.arch.phys 3 = tabGet 0 (committedArch h).phys 3 ∧
       tabGet none (committedArch busy).tiles 3 = some x ∧ tabGet 0 busy.arch.phys 3 ≠ tabGet 0 (committedArch busy).phys 3 ∧
       h.arch.qgen[(0 : Fin 8)] = (committedArch h).qgen[(0 : Fin 8)] ∧ busy.arch.qgen[(0 : Fin 8)] ≠ (committedArch busy).qgen[(0 : Fin 8)]) ∧
    (∀ again : Bool, let c : FifoCmd := { fifoCmd ⟨1, 0, 0, 0, 0, 0, 0, 0⟩ with retried := again }
      (getHart (withFifo [c] []) 0).fifo.cmds = c :: [] ∧ c.retried = again ∧ c.fin = none) ∧
    (Die.reset.tlim = 95 ∧ ¬ (Die.reset.tlim ≤ Die.reset.tj ∨ 2600 < 0) ∧ Die.reset.tj + 5 ≤ Die.reset.tlim ∧ 0 + 50 < 2600) := by
  refine ⟨by decide +kernel, ⟨by decide +kernel, ⟨8, by decide +kernel⟩, by decide +kernel⟩, by decide +kernel, by decide +kernel,
    fun _ => ⟨rfl, rfl, rfl⟩, by decide +kernel⟩

theorem witness_HostRequests :
    (State.reset.stage = 0 ∧ State.reset.curId = 0 ∧ State.reset.session = none ∧ tabWf 0 State.reset.meas = true ∧
      sectorProtected State.reset 0 1 = false ∧ Memory.wf State.reset.flash = true ∧ 0 + 1 ≤ 33554432 ∧ 33554432 < 33554432 + 1) ∧
    (let x : Session := ⟨0, 0, [], 0⟩
     let s := { State.reset with session := some x, exchange := some ⟨[], []⟩ }
     s.session = some x ∧ slotRequest s x = none ∧ s.exchange = some ⟨[], []⟩ ∧ State.reset.exchange = none) ∧
    (ecMul (ecDecode []) 384 0 = none) ∧ (∀ m ∈ State.reset.meas, m.1 ≠ 4) ∧
    (∃ m ∈ ({ State.reset with meas := [(4, 0)] } : State).meas, m.1 = 4) ∧
    sectorProtected { State.reset with virtio := { State.reset.virtio with blkWriteProtect := some 0 } } 0 1 = true := by decide +kernel

/-! ### The whole machine -/

theorem witness_Invariants : Memory.wf State.reset.mem = true ∧ Memory.wf State.reset.hbm = true ∧ TablesWf State.reset := by
  refine ⟨by decide +kernel, by decide +kernel, ?_⟩
  constructor <;> decide +kernel

theorem witness_DecodingUndoesEncoding : (Instr.add c0 3 3 4).wf = true ∧ encode (.add c0 3 3 4) = [0x004000030C400000] ∧
    (Instr.fill 0 ⟨5, 0, 0, 0, 0, 0, 0, 0⟩).wf = true ∧ decode 0x004000030C400000 = some (.add c0 3 3 4) := by decide +kernel

/-- Hart 0 in a block, or at its start, with the bytes of a header and an add at 0x10000, which the caches of its cluster hold. -/
def stepping (b : Blk) (l : List (Nat × Nat)) : State :=
  let a := { archM with blk := b }
  let s := holding a [0x10000 / 128] l
  { s with stage := 1, memLock := false, coh := [(0x10000 / 128, { LineCoh.reset with caches := [(0, .s), (512, .s)], dir := ⟨.s, false, 0, [0], false, [], 0⟩ })] }
/-- The bytes of a word at 0x10000 + 8 k. -/
def bytesAt (k : Nat) (w : Word) : List (Nat × Nat) :=
  ((List.range 8).map fun i => (0x10000 + 8 * k + i, w.toNat / 2 ^ (8 * i) % 256)).filter (·.2 != 0)

theorem witness_Step :
    (let s := stepping archM.blk (bytesAt 0 0x004000030C400000)
     let t := tick s
     s.fatal = false ∧ nextDue t = none ∧ pendingStep t = none ∧ nextHart (askAll t) = some 0 ∧ commandHart (askAll t) = none ∧
       observed s = none ∧ (∃ w, fetchWord (takeTurn (askAll t) 0) = (w, .val 0x004000030C400000)) ∧
       interrupted (takeTurn (askAll t) 0) 0 = false ∧ (takeTurn (askAll t) 0).cur.due = none ∧ misplaced archM (.add c0 3 3 4) = false) ∧
    (let s := stepping (.header .any) (bytesAt 0 0xFFC1000000000000 ++ bytesAt 1 0x004000030C400000)
     let u := takeTurn (askAll (tick s)) 0
     let x := fetchWord u
     x.2 = .val 0xFFC1000000000000 ∧ (0xFFC1000000000000 : Word).extractLsb' 54 10 = 0x3FF ∧
       (0xFFC1000000000000 : Word).extractLsb' 48 6 ≠ 0 ∧ (fetchWord (enterBlock x.1 0xFFC1000000000000)).2 = .val 0x004000030C400000) ∧
    (nextDue (tick { State.reset with events := [(0, .bootRom, {})] })).isSome = true ∧
    (let r : TrapRec := ⟨2, false, 0, 0, 0⟩
     let s := stepping archM.blk (bytesAt 0 0x004000030C400000)
     let t := { s with cur := { s.cur with due := some r } }
     (takeTurn (askAll (tick t)) 0).cur.due = some r ∧ nextHart (askAll (tick t)) = some 0) ∧
    (let s := stepping archM.blk (bytesAt 0 0x004000030C400000)
     let u := takeTurn (askAll (tick { s with cur := { s.cur with swint := true, arch := { s.cur.arch with mode := .u, hstat := 0x20 } } })) 0
     interrupted u 0 = true ∧ u.cur.due = none ∧ u.cur.drain = none ∧ u.cur.mamo = none ∧ u.cur.stall = none) ∧
    (let u := takeTurn (askAll (tick (stepping .resumed (bytesAt 0 0x004000030C400000)))) 0
     u.cur.arch.blk = .resumed ∧ (fetchWord u).2 = .val 0x004000030C400000) ∧
    (∀ b ∈ [HdrNeed.any, .entry, .sHandler, .mHandler, .badEntry 4],
      let u := takeTurn (askAll (tick (stepping (.header b) (bytesAt 0 0x004000030C400000)))) 0
      u.cur.arch.blk = .header b ∧ (fetchWord u).2 = .val 0x004000030C400000 ∧ (0x004000030C400000 : Word).extractLsb' 54 10 ≠ 0x3FF) ∧
    (let c : FifoCmd := .new ⟨5, 0, 0, 0, 0, 0, 0, 0⟩ 0 .m 0
     let s := { running archM [] with cur := { (running archM []).cur with slot := .waiting, fifo := { (running archM []).cur.fifo with cmds := [c] } } }
     commandHart (askAll (tick s)) = some 0 ∧ nextHart (askAll (tick s)) = none) := by
  refine ⟨⟨by decide +kernel, by decide +kernel, by decide +kernel, by decide +kernel, by decide +kernel, by decide +kernel, pairOfSnd (by decide +kernel),
    by decide +kernel, by decide +kernel, by decide +kernel⟩, by decide +kernel, by decide +kernel, by decide +kernel, by decide +kernel, by decide +kernel,
    by decide +kernel, by decide +kernel⟩

theorem witness_Frames :
    (let s := running archM []
     preAdmitted s s.curId = false ∧ guardOf s.cur.arch c0 = true ∧ (s.cur.arch.pc + 8).toNat ≠ 2 ^ 40) ∧
    (let s := running { archM with blk := .body 0x10008 1 0 } []
     (s.cur.arch.pc + 8).toNat = 0x10008) ∧
    (∀ i ∈ [Instr.add c0 3 3 4, .cmp c0 .ne 1 2 0, .vadd c0 m0 .i8 false 1 2 3], leaves (exec i (running archM [])) (fun _ => true) = true) := by
  decide +kernel

theorem witness_OnlyIllFormedStepsFault :
    (∃ y, nextDue (tick { State.reset with events := [(0, .park, { a := 4096 })] }) = some y ∧ stepOk y.1.1 y.1.2 = false) ∧
    (let s := { running archM [] with fatal := true }
     s.fatal = true ∧ nextDue (tick s) = none) := by
  refine ⟨⟨_, rfl, by decide +kernel⟩, by decide +kernel⟩

end Sys2Proof.Tests
end

