-- ==== Sys2Proof/Proofs/ControlRegisters.lean ====
section
/-!
PROOFS. The control-register instructions: the access codes of R361 as ranks of modes, and the frame of the four accesses.
-/

namespace Sys2Proof.Machine
open Sys2Proof.Safety

/-! ## Control registers (R361, R362) -/

/-- The rank of the lowest mode that may access a control register, for reading alone or for writing too (R361). -/
def csrRank (k : Nat) (writes : Bool) : Nat :=
  if 0x100 ≤ k then 1 else if k = 0x012 ∧ writes = true then 1 else 0

/-- The access codes of R361, as the rank below which the access raises PRIV. -/
theorem csrFault_eq (k : Nat) (writes : Bool) (s : State) :
    csrFault k writes s = if s.cur.arch.mode.rank < csrRank k writes then some (wordTrap cPriv s) else none := by
  unfold csrFault csrModes csrRank
  by_cases hro : k = 0x010 ∨ k = 0x011
  · simp [hro, privFault, Mode.rank, show ¬ 0x100 ≤ k by omega, show k ≠ 0x012 by omega]
  by_cases hreq : k = 0x012
  · cases writes <;> simp [hreq, privFault, Mode.rank]
  by_cases hid : 0x020 ≤ k ∧ k ≤ 0x027
  · simp [hro, hreq, hid, privFault, Mode.rank, show ¬ 0x100 ≤ k by omega]
  by_cases hsys : 0x100 ≤ k <;> simp [hro, hreq, hid, hsys, privFault, Mode.rank]

/-- Below the lowest mode of the register the access raises PRIV with the instruction word, whatever the guards give
(R224, R361). -/
theorem csrAccess_below {k : Nat} {writes : Bool} {s : State} (h : s.cur.arch.mode.rank < csrRank k writes) (c : Ctl)
    (body : State → State) : csrAccess c k writes s body = traps s s 0x03 s.cur.arch.iw 0 := by
  rw [csrAccess, csrFault_eq, if_pos h]; rfl

/-- From that mode on the access takes effect once the older members have committed and solo mode has ended (R120, R130,
R361). -/
theorem csrAccess_run {c : Ctl} {k : Nat} {writes : Bool} {s u : State} (hg : guarded c s) (hu : commitsTo s u)
    (h : csrRank k writes ≤ s.cur.arch.mode.rank) (body : State → State) :
    csrAccess c k writes s body = .next (retireSerial (body (leaveSolo u))) := by
  rw [csrAccess, csrFault_eq, if_neg (by omega), decodeFault_none]
  exact serial_ok hg hu rfl

/-- Settles O31: each of the four instructions is the frame of register accesses with its own effect. -/
theorem controlRegisterInstructionsAct : Obligations.ControlRegisterInstructionsAct := by
  unfold Obligations.ControlRegisterInstructionsAct
  intro c rd rs n s u
  refine ⟨fun h => (exec_csrr s).trans (csrAccess_below h c _), fun h => (exec_csrw s).trans (csrAccess_below h c _),
    fun hrs => ?_,
    fun hg hu h => (exec_csrr s).trans (csrAccess_run hg hu h _),
    fun hg hu h => (exec_csrw s).trans (csrAccess_run hg hu h _),
    fun hg hu h => (exec_csrs s).trans (csrAccess_run hg hu h _),
    fun hg hu h => (exec_csrc s).trans (csrAccess_run hg hu h _)⟩
  have writes : (rs != 0) = true := bne_iff_ne.2 hrs
  exact ⟨fun h => (exec_csrs s).trans (csrAccess_below (writes.symm ▸ h) c _),
    fun h => (exec_csrc s).trans (csrAccess_below (writes.symm ▸ h) c _)⟩

end Sys2Proof.Machine
end

