-- ==== Sys2Proof/Proofs/ExactArithmetic.lean ====
section
/-!
PROOFS. Exact values as rational numbers: sums, products, quotients, roots, and the special functions where they are exact
(R192, R193, R257, R258, R306).
-/

namespace Sys2Proof.Machine

/-! ## Finite values as rational numbers -/

/-- The rational number that a finite value stands for. -/
def ratOf (n : Bool) (m : Nat) (e : Int) : ℚ := (if n then -1 else 1) * m * (2 : ℚ) ^ e

theorem two_zpow_pos (e : Int) : 0 < (2 : ℚ) ^ e := zpow_pos (by norm_num) e

@[simp] theorem ratOf_zero (n : Bool) (e : Int) : ratOf n 0 e = 0 := by simp [ratOf]

theorem ratOf_false (m : Nat) (e : Int) : ratOf false m e = m * (2 : ℚ) ^ e := by simp [ratOf]

/-- Moving powers of two between the magnitude and the exponent keeps the value. -/
theorem ratOf_mul_pow (n : Bool) (m k : Nat) (e : Int) : ratOf n (m * 2 ^ k) e = ratOf n m (e + k) := by
  rw [ratOf, ratOf, zpow_add₀ two_ne_zero, zpow_natCast]; push_cast; ring

/-- A finite value as a whole multiple of a unit below its own. -/
theorem scaledInt_mul {e e0 : Int} (n : Bool) (m : Nat) (h : e0 ≤ e) : (scaledInt n m e e0 : ℚ) * 2 ^ e0 = ratOf n m e := by
  have he : e = (e - e0).toNat + e0 := by omega
  have hp : (2 : ℚ) ^ e = 2 ^ (e - e0).toNat * 2 ^ e0 := by
    conv_lhs => rw [he]
    rw [zpow_add₀ two_ne_zero, zpow_natCast]
  rw [ratOf, hp, scaledInt]
  cases n <;> push_cast <;> simp <;> ring

/-- A whole number of units, with its sign apart. -/
theorem ratOf_natAbs (z : Int) (e : Int) : ratOf (decide (z < 0)) z.natAbs e = z * (2 : ℚ) ^ e := by
  have h : (z.natAbs : ℚ) = |(z : ℚ)| := by rw [Nat.cast_natAbs, Int.cast_abs]
  rw [ratOf, h]
  rcases lt_or_ge z 0 with hz | hz
  · have : (z : ℚ) < 0 := by exact_mod_cast hz
    simp [hz, abs_of_neg this]
  · have : (0 : ℚ) ≤ z := by exact_mod_cast hz
    simp [not_lt.2 hz, abs_of_nonneg this]

/-! ## Sums and products (R257) -/

theorem add_exact (mode : RMode) (n1 n2 : Bool) (m1 m2 : Nat) (e1 e2 : Int) :
    ∃ n m e, (FVal.add mode (.fin n1 m1 e1) (.fin n2 m2 e2)).1 = .fin n m e ∧
      ratOf n m e = ratOf n1 m1 e1 + ratOf n2 m2 e2 := by
  have sum : ((scaledInt n1 m1 e1 (min e1 e2) + scaledInt n2 m2 e2 (min e1 e2) : Int) : ℚ) * 2 ^ min e1 e2 =
      ratOf n1 m1 e1 + ratOf n2 m2 e2 := by
    rw [Int.cast_add, add_mul, scaledInt_mul n1 m1 (min_le_left _ _), scaledInt_mul n2 m2 (min_le_right _ _)]
  simp only [FVal.add]
  split
  · next hz => exact ⟨_, _, _, rfl, by rw [← sum, hz]; simp⟩
  · exact ⟨_, _, _, rfl, by rw [ratOf_natAbs, sum]⟩

theorem ratOf_mul (n1 n2 : Bool) (m1 m2 : Nat) (e1 e2 : Int) :
    ratOf (n1 != n2) (m1 * m2) (e1 + e2) = ratOf n1 m1 e1 * ratOf n2 m2 e2 := by
  rw [ratOf, ratOf, ratOf, zpow_add₀ two_ne_zero]
  cases n1 <;> cases n2 <;> push_cast <;> simp <;> ring

theorem fma_exact (mode : RMode) (n1 n2 n3 : Bool) (m1 m2 m3 : Nat) (e1 e2 e3 : Int) :
    ∃ n m e, (FVal.fma mode (.fin n1 m1 e1) (.fin n2 m2 e2) (.fin n3 m3 e3)).1 = .fin n m e ∧
      ratOf n m e = ratOf n1 m1 e1 * ratOf n2 m2 e2 + ratOf n3 m3 e3 := by
  rw [← ratOf_mul]
  exact add_exact mode _ _ _ _ _ _

/-! ## The sum of the products of a block (R193) -/

/-- A sum of finite products, and its value. -/
structure Dot.Holds (d : Dot) (x : ℚ) : Prop where
  nan : d.nan = false
  pinf : d.pinf = false
  ninf : d.ninf = false
  value : (d.sum : ℚ) * 2 ^ d.exp = x

theorem Dot.Holds.add {d : Dot} {x : ℚ} (h : d.Holds x) (n : Bool) (m : Nat) (e : Int) :
    (d.add (.fin n m e)).Holds (x + ratOf n m e) := by
  simp only [Dot.add]
  split
  · next hm => exact ⟨h.nan, h.pinf, h.ninf, by rw [hm, ratOf_zero, add_zero]; exact h.value⟩
  · refine ⟨h.nan, h.pinf, h.ninf, ?_⟩
    have old := scaledInt_mul false 1 (min_le_left d.exp e)
    simp only [scaledInt, ratOf_false, Nat.cast_one, one_mul, Bool.false_eq_true, if_false, Int.cast_pow, Int.cast_ofNat] at old
    rw [← h.value, ← scaledInt_mul n m (min_le_right d.exp e), ← old]
    push_cast; ring

theorem Dot.Holds.foldl (l : List (Bool × Nat × Int)) : ∀ {d : Dot} {x : ℚ}, d.Holds x →
    ((l.map fun y => FVal.fin y.1 y.2.1 y.2.2).foldl Dot.add d).Holds (x + (l.map fun y => ratOf y.1 y.2.1 y.2.2).sum) := by
  induction l with
  | nil => intro d x h; simpa using h
  | cons y l ih => intro d x h; simpa [add_assoc] using ih (h.add y.1 y.2.1 y.2.2)

theorem Dot.Holds.result {d : Dot} {x : ℚ} (h : d.Holds x) : ∃ n m e, d.result.1 = .fin n m e ∧ ratOf n m e = x := by
  simp only [Dot.result, h.nan, h.pinf, h.ninf, Bool.false_eq_true, if_false, Bool.and_self]
  split
  · next hs => exact ⟨_, _, _, rfl, by rw [ratOf_zero, ← h.value, hs]; simp⟩
  · exact ⟨_, _, _, rfl, by rw [ratOf_natAbs, h.value]⟩

theorem dot_exact (l : List (Bool × Nat × Int)) :
    ∃ n m e, ((l.map fun x => FVal.fin x.1 x.2.1 x.2.2).foldl Dot.add ⟨false, false, false, 0, 0, true⟩).result.1 = .fin n m e ∧
      ratOf n m e = (l.map fun x => ratOf x.1 x.2.1 x.2.2).sum := by
  have start : Dot.Holds ⟨false, false, false, 0, 0, true⟩ 0 := ⟨rfl, rfl, rfl, by simp⟩
  simpa using (start.foldl l).result

/-! ## Quotients and roots, exact or with a sticky part (R257, R306) -/

/-- A value is exact, or lies with the exact one strictly between two consecutive numbers of at least 64 bits. -/
def Alike (x : ℚ) (exact below above : ℚ → Prop) : Prop :=
  exact x ∨ ∃ (q : Nat) (k : Int), 2 ^ 64 ≤ q ∧ q * (2 : ℚ) ^ k < x ∧ x < (q + 1) * (2 : ℚ) ^ k ∧
    below (q * (2 : ℚ) ^ k) ∧ above ((q + 1) * (2 : ℚ) ^ k)

/-- A number with a sticky part below its last bit lies between that number and the next. -/
theorem sticky_alike {neg more : Bool} {q : Nat} {k : Int} {exact below above : ℚ → Prop}
    (whole : more = false → exact (q * 2 ^ k))
    (part : more = true → 2 ^ 64 ≤ q ∧ below (q * 2 ^ k) ∧ above ((q + 1) * 2 ^ k)) :
    ∃ m e, sticky neg q k more = .fin neg m e ∧ Alike (ratOf false m e) exact below above := by
  cases more with
  | false => exact ⟨q, k, rfl, .inl (by rw [ratOf_false]; exact whole rfl)⟩
  | true =>
    obtain ⟨big, hb, ha⟩ := part rfl
    refine ⟨4 * q + 1, k - 2, rfl, .inr ⟨q, k, big, ?_, ?_, hb, ha⟩⟩
    all_goals
      have pos := two_zpow_pos k
      rw [ratOf_false, zpow_sub₀ two_ne_zero]
      push_cast
      nlinarith

theorem div_alike (n1 n2 : Bool) (m1 m2 : Nat) (e1 e2 : Int) (h0 : 0 < m2) (h64 : m2 < 2 ^ 64) :
    ∃ m e, FVal.div (.fin n1 m1 e1) (.fin n2 m2 e2) = (.fin (n1 != n2) m e, 0) ∧
      Alike (ratOf false m e) (fun z => z * ratOf false m2 e2 = ratOf false m1 e1)
        (fun z => z * ratOf false m2 e2 < ratOf false m1 e1) (fun z => ratOf false m1 e1 < z * ratOf false m2 e2) := by
  set q := m1 * 2 ^ 200 / m2 with hq
  set r := m1 * 2 ^ 200 % m2 with hr
  have split : m2 * q + r = m1 * 2 ^ 200 := Nat.div_add_mod _ _
  have rlt : r < m2 := Nat.mod_lt _ h0
  have scale (z : ℚ) : z * 2 ^ (e1 - e2 - 200) * ratOf false m2 e2 = z * m2 / 2 ^ 200 * 2 ^ e1 := by
    rw [ratOf_false, zpow_sub₀ two_ne_zero, zpow_sub₀ two_ne_zero]
    field_simp
  have splitQ : (m2 : ℚ) * q + r = m1 * 2 ^ 200 := by exact_mod_cast split
  have rltQ : (r : ℚ) < m2 := by exact_mod_cast rlt
  have pos := two_zpow_pos e1
  obtain ⟨m, e, hs, ha⟩ := sticky_alike (neg := n1 != n2) (more := r != 0) (q := q) (k := e1 - e2 - 200)
    (exact := fun z => z * ratOf false m2 e2 = ratOf false m1 e1)
    (below := fun z => z * ratOf false m2 e2 < ratOf false m1 e1) (above := fun z => ratOf false m1 e1 < z * ratOf false m2 e2)
    (fun hr0 => by
      have : r = 0 := by simpa using hr0
      rw [scale, ratOf_false, show (q : ℚ) * m2 = m1 * 2 ^ 200 by rw [← splitQ, this]; push_cast; ring]
      field_simp)
    (fun hr0 => by
      have rpos : 0 < r := Nat.pos_of_ne_zero (by simpa using hr0)
      have rposQ : (0 : ℚ) < r := by exact_mod_cast rpos
      refine ⟨?_, ?_, ?_⟩
      · rw [hq, Nat.le_div_iff_mul_le h0]
        have : 1 ≤ m1 := Nat.pos_of_ne_zero fun h => by simp [hr, h] at rpos
        calc 2 ^ 64 * m2 ≤ 2 ^ 64 * 2 ^ 64 := Nat.mul_le_mul_left _ h64.le
          _ ≤ m1 * 2 ^ 200 := by omega
      · rw [scale, ratOf_false]
        gcongr
        rw [div_lt_iff₀ (by positivity)]; linarith
      · rw [scale, ratOf_false]
        gcongr
        rw [lt_div_iff₀ (by positivity)]; linarith)
  refine ⟨m, e, ?_, ha⟩
  simp only [FVal.div, h0.ne', if_false]
  rw [← hs]

/-- The bits found so far keep the root between the guess and the guess with all the lower bits set. -/
theorem isqrtFrom_spec (n : Nat) : ∀ k r, r * r ≤ n → n < (r + 2 ^ k) * (r + 2 ^ k) →
    isqrtFrom n k r * isqrtFrom n k r ≤ n ∧ n < (isqrtFrom n k r + 1) * (isqrtFrom n k r + 1) := by
  intro k
  induction k with
  | zero => intro r lo hi; exact ⟨lo, by simpa [isqrtFrom] using hi⟩
  | succ k ih =>
    intro r lo hi
    simp only [isqrtFrom]
    have two : r + 2 ^ (k + 1) = r + 2 ^ k + 2 ^ k := by rw [pow_succ]; omega
    split
    · next h => exact ih _ h (by rw [← two]; exact hi)
    · next h => exact ih _ lo (by omega)

theorem isqrt_spec (n : Nat) : isqrt n * isqrt n ≤ n ∧ n < (isqrt n + 1) * (isqrt n + 1) := by
  refine isqrtFrom_spec n _ 0 (Nat.zero_le _) ?_
  rw [zero_add, ← pow_add]
  calc n < 2 ^ (Nat.log2 n + 1) := Nat.lt_log2_self
    _ ≤ _ := Nat.pow_le_pow_right (by norm_num) (by omega)

theorem le_isqrt {n b : Nat} (h : b * b ≤ n) : b ≤ isqrt n := by
  by_contra hb
  have := (isqrt_spec n).2
  have : (isqrt n + 1) * (isqrt n + 1) ≤ b * b := Nat.mul_le_mul (by omega) (by omega)
  omega

/-- A positive value under an even exponent, as the roots use it. -/
theorem evenForm (m : Nat) (e : Int) (h : 0 < m) :
    ∃ (m' : Nat) (j : Int), (if e % 2 = 0 then m else 2 * m) = m' ∧ (if e % 2 = 0 then e else e - 1) / 2 = j ∧ 0 < m' ∧
      m' ≤ 2 * m ∧ ratOf false m e = m' * ((2 : ℚ) ^ j * 2 ^ j) := by
  refine ⟨_, _, rfl, rfl, by split <;> omega, by split <;> omega, ?_⟩
  rw [ratOf_false, ← zpow_add₀ two_ne_zero]
  split
  · congr 2; omega
  · rw [show e = (e - 1) / 2 + (e - 1) / 2 + 1 by omega, zpow_add_one₀ two_ne_zero]
    push_cast
    rw [show ((e - 1) / 2 + (e - 1) / 2 + 1 - 1) / 2 = (e - 1) / 2 by omega]; ring

theorem sqrt_alike (m : Nat) (e : Int) (h : 0 < m) :
    ∃ m' e', FVal.sqrt (.fin false m e) = (.fin false m' e', 0) ∧
      Alike (ratOf false m' e') (fun z => z * z = ratOf false m e) (fun z => z * z < ratOf false m e)
        (fun z => ratOf false m e < z * z) := by
  obtain ⟨m2, j, hm2, hj, pos, -, value⟩ := evenForm m e h
  obtain ⟨lo, hi⟩ := isqrt_spec (m2 * 2 ^ 400)
  simp only [FVal.sqrt, h.ne', if_false, sqrtFin, hm2, hj, Bool.false_eq_true]
  set r := isqrt (m2 * 2 ^ 400) with hr
  have jpos := two_zpow_pos j
  have scale (z : ℚ) : z * 2 ^ (j - 200) * (z * 2 ^ (j - 200)) = z * z / 2 ^ 400 * ((2 : ℚ) ^ j * 2 ^ j) := by
    rw [zpow_sub₀ two_ne_zero]
    field_simp
  obtain ⟨a, b, hs, ha⟩ := sticky_alike (neg := false) (more := r * r != m2 * 2 ^ 400) (q := r) (k := j - 200)
    (exact := fun z => z * z = ratOf false m e) (below := fun z => z * z < ratOf false m e)
    (above := fun z => ratOf false m e < z * z)
    (fun eq => by
      have : (r : ℚ) * r = m2 * 2 ^ 400 := by exact_mod_cast (by simpa using eq : r * r = m2 * 2 ^ 400)
      rw [scale, value, this]; field_simp)
    (fun ne => by
      have lt : r * r < m2 * 2 ^ 400 := lt_of_le_of_ne lo (by simpa using ne)
      have ltQ : (r : ℚ) * r < m2 * 2 ^ 400 := by exact_mod_cast lt
      have hiQ : (m2 : ℚ) * 2 ^ 400 < (r + 1) * (r + 1) := by exact_mod_cast hi
      refine ⟨le_isqrt (by omega), ?_, ?_⟩
      · rw [scale, value]; gcongr; rw [div_lt_iff₀ (by positivity)]; exact ltQ
      · rw [scale, value]; gcongr; rw [lt_div_iff₀ (by positivity)]; exact hiQ)
  exact ⟨a, b, by rw [hs], ha⟩

theorem rsqrt_alike (m : Nat) (e : Int) (h : 0 < m) (h64 : m < 2 ^ 64) :
    ∃ m' e', spRsqrt (.fin false m e) = (.fin false m' e', 0) ∧
      Alike (ratOf false m' e') (fun z => z * z * ratOf false m e = 1) (fun z => z * z * ratOf false m e < 1)
        (fun z => 1 < z * z * ratOf false m e) := by
  obtain ⟨m2, j, hm2, hj, pos, small, value⟩ := evenForm m e h
  obtain ⟨lo, hi⟩ := isqrt_spec (2 ^ 600 / m2)
  simp only [spRsqrt, h.ne', if_false, hm2, hj, Bool.false_eq_true]
  set r := isqrt (2 ^ 600 / m2) with hr
  have jpos := two_zpow_pos j
  have scale (z : ℚ) : z * 2 ^ (-j - 300) * (z * 2 ^ (-j - 300)) * ratOf false m e = z * z * m2 / 2 ^ 600 := by
    rw [value, zpow_sub₀ two_ne_zero, zpow_neg]
    field_simp
  obtain ⟨a, b, hs, ha⟩ := sticky_alike (neg := false) (more := r * r * m2 != 2 ^ 600) (q := r) (k := -j - 300)
    (exact := fun z => z * z * ratOf false m e = 1) (below := fun z => z * z * ratOf false m e < 1)
    (above := fun z => 1 < z * z * ratOf false m e)
    (fun eq => by
      have : (r : ℚ) * r * m2 = 2 ^ 600 := by exact_mod_cast (by simpa using eq : r * r * m2 = 2 ^ 600)
      rw [scale, this]; norm_num)
    (fun ne => by
      have lt : r * r * m2 < 2 ^ 600 := lt_of_le_of_ne ((Nat.le_div_iff_mul_le pos).1 lo) (by simpa using ne)
      have ltQ : (r : ℚ) * r * m2 < 2 ^ 600 := by exact_mod_cast lt
      have gt : 2 ^ 600 < (r + 1) * (r + 1) * m2 := (Nat.div_lt_iff_lt_mul pos).1 hi
      have gtQ : (2 : ℚ) ^ 600 < (r + 1) * (r + 1) * m2 := by exact_mod_cast gt
      refine ⟨le_isqrt ((Nat.le_div_iff_mul_le pos).2 ?_), ?_, ?_⟩
      · calc 2 ^ 64 * 2 ^ 64 * m2 ≤ 2 ^ 64 * 2 ^ 64 * 2 ^ 65 := Nat.mul_le_mul_left _ (by omega)
          _ = 2 ^ 193 := by norm_num
          _ ≤ 2 ^ 600 := Nat.pow_le_pow_right (by norm_num) (by norm_num)
      · rw [scale, div_lt_one (by positivity)]; exact ltQ
      · rw [scale, one_lt_div (by positivity)]; exact gtQ)
  exact ⟨a, b, by rw [hs], ha⟩

/-! ## Powers and logarithms that are exact (R306) -/

/-- A value that is whole at scale 2^p is held there without rounding. -/
theorem toFix_exact {p m : Nat} {e : Int} {z : Nat} (h : (m : ℚ) * 2 ^ e * 2 ^ p = z) : toFix p m e = z := by
  have key : (m : ℚ) * 2 ^ (e + p) = z := by rw [zpow_add₀ two_ne_zero, zpow_natCast, ← mul_assoc]; exact h
  rw [toFix, shiftInt]
  split
  · next hp =>
    rw [show e + (p : Int) = (e + p).toNat by omega, zpow_natCast] at key
    exact_mod_cast key
  · next hp =>
    rw [show e + (p : Int) = -((-(e + p)).toNat : Int) by omega, zpow_neg, zpow_natCast, ← div_eq_mul_inv,
      div_eq_iff (by positivity)] at key
    exact Nat.div_eq_of_eq_mul_left (by positivity) (by exact_mod_cast key)

/-- The magnitude of a non-zero finite value lies in the binade that its leading bit names. -/
theorem binade {m : Nat} (e : Int) (h : m ≠ 0) :
    (2 : ℚ) ^ ((Nat.log2 m : Int) + e) ≤ ratOf false m e ∧ ratOf false m e < 2 ^ ((Nat.log2 m : Int) + e + 1) := by
  have lo : (2 : ℚ) ^ Nat.log2 m ≤ m := by exact_mod_cast Nat.log2_self_le h
  have hi : (m : ℚ) < 2 ^ (Nat.log2 m + 1) := by exact_mod_cast Nat.lt_log2_self
  have pos := two_zpow_pos e
  rw [ratOf_false, show (Nat.log2 m : Int) + e + 1 = ((Nat.log2 m + 1 : Nat) : Int) + e by push_cast; ring,
    zpow_add₀ two_ne_zero, zpow_add₀ two_ne_zero, zpow_natCast, zpow_natCast]
  exact ⟨by gcongr, by gcongr⟩

theorem exp2_exact (n : Bool) (m : Nat) (e k : Int) (hk : ratOf n m e = k) (lo : -512 < k) (hi : k < 512) :
    ∃ m' e', spExp2 (.fin n m e) = (.fin false m' e', 0) ∧ ratOf false m' e' = (2 : ℚ) ^ k := by
  have abs : ratOf false m e = (k.natAbs : ℚ) := by
    rw [Nat.cast_natAbs, Int.cast_abs, ← hk, ratOf_false, ratOf, abs_mul, abs_mul, abs_of_pos (two_zpow_pos e)]
    cases n <;> simp
  simp only [spExp2]
  split
  · next hm =>
    have : k = 0 := by
      have : (k : ℚ) = 0 := by rw [← hk, hm, ratOf_zero]
      exact_mod_cast this
    exact ⟨1, 0, rfl, by simp [this, ratOf_false]⟩
  · next hm =>
    have small : ¬ 9 ≤ (Nat.log2 m : Int) + e := fun h9 => by
      have : (2 : ℚ) ^ (9 : Int) ≤ k.natAbs := abs ▸ (zpow_le_zpow_right₀ (by norm_num) h9).trans (binade e hm).1
      have : (512 : Nat) ≤ k.natAbs := by exact_mod_cast (by norm_num at this ⊢; exact this : (512 : ℚ) ≤ k.natAbs)
      omega
    have fix : toFix spP m e = k.natAbs * 2 ^ spP := toFix_exact (by
      rw [← ratOf_false, abs]; push_cast; rfl)
    have signed : (if n then -(toFix spP m e : Int) else (toFix spP m e : Int)) = k * 2 ^ spP := by
      have pos : (0 : ℚ) < ratOf false m e := by
        have := two_zpow_pos e
        have : (0 : ℚ) < m := by exact_mod_cast Nat.pos_of_ne_zero hm
        rw [ratOf_false]; positivity
      rw [fix]
      cases n with
      | false =>
        have : 0 < k := by exact_mod_cast hk ▸ pos
        simp only [Bool.false_eq_true, if_false]; push_cast; rw [abs_of_pos this]
      | true =>
        have neg : (k : ℚ) < 0 := by
          have : ratOf true m e = - ratOf false m e := by simp [ratOf]
          rw [← hk, this]; linarith
        have : k < 0 := by exact_mod_cast neg
        simp only [if_true]; push_cast; rw [abs_of_neg this]; ring
    have p0 : (2 : Int) ^ spP ≠ 0 := by positivity
    rw [if_neg small, signed, Int.mul_emod_left, Int.mul_ediv_cancel _ p0]
    exact ⟨1, k, by simp, by simp [ratOf_false]⟩

theorem log2_exact (j : Nat) (e : Int) :
    ∃ n m' e', spLog2 (.fin false (2 ^ j) e) = (.fin n m' e', 0) ∧ ratOf n m' e' = (j : ℚ) + e := by
  refine ⟨_, _, _, by simp [spLog2, Nat.log2_two_pow]; exact ⟨rfl, rfl, rfl⟩, ?_⟩
  rw [ratOf_natAbs]; push_cast; simp

end Sys2Proof.Machine
end

