-- ==== Sys2Proof/Proofs/Conversions.lean ====
section
/-!
PROOFS. Encodings read back what they hold (R176, R179), and a conversion holds the rounded or the clipped value (R187,
R260, R308).
-/

namespace Sys2Proof.Machine

/-! ## Encodings (R176, R179) -/

/-- The sign bit of an encoding. -/
def Fmt.signBit (f : Fmt) (n : Bool) : Nat := if n then 2 ^ (f.eb + f.mb) else 0

/-- What an encoding reads as, by its sign, exponent and mantissa fields. -/
theorem decode_fields {f : Fmt} (n : Bool) {x y : Nat} (hx : x < 2 ^ f.eb) (hy : y < 2 ^ f.mb)
    (special : ¬ (x = 2 ^ f.eb - 1 ∧ f.sp = .ieee) ∧ ¬ (x = 2 ^ f.eb - 1 ∧ y = 2 ^ f.mb - 1 ∧ f.sp = .nanOnly)) :
    f.decode (f.signBit n + x * 2 ^ f.mb + y) =
      if x = 0 then .fin n y f.minExp else .fin n (2 ^ f.mb + y) ((x : Int) - f.bias - f.mb) := by
  have form : f.signBit n + x * 2 ^ f.mb + y = y + 2 ^ f.mb * (x + 2 ^ f.eb * n.toNat) := by
    cases n <;> simp [Fmt.signBit, pow_add] <;> ring
  have low : (f.signBit n + x * 2 ^ f.mb + y) % 2 ^ f.mb = y := by
    rw [form, Nat.add_mul_mod_self_left, Nat.mod_eq_of_lt hy]
  have high : (f.signBit n + x * 2 ^ f.mb + y) / 2 ^ f.mb = x + 2 ^ f.eb * n.toNat := by
    rw [form, Nat.add_mul_div_left _ _ (by positivity), Nat.div_eq_of_lt hy, Nat.zero_add]
  have mid : (f.signBit n + x * 2 ^ f.mb + y) / 2 ^ f.mb % 2 ^ f.eb = x := by
    rw [high, Nat.add_mul_mod_self_left, Nat.mod_eq_of_lt hx]
  have top : ((f.signBit n + x * 2 ^ f.mb + y) / 2 ^ (f.mb + f.eb) % 2 == 1) = n := by
    rw [pow_add, ← Nat.div_div_eq_div_mul, high, Nat.add_mul_div_left _ _ (by positivity), Nat.div_eq_of_lt hx]
    cases n <;> rfl
  simp only [Fmt.decode, low, mid, top, special.1, special.2, if_false]

/-- A magnitude that a format can hold: within one unit of its precision, no finer than its smallest unit, and no larger
than its largest finite value. -/
structure Fmt.Holds (f : Fmt) (m : Nat) (e : Int) : Prop where
  precision : m ≤ 2 ^ (f.mb + 1)
  fine : f.minExp ≤ e
  range : ratOf false m e ≤ ratOf false f.maxMant f.maxExp

theorem maxMant_lt (f : Fmt) : f.maxMant < 2 ^ (f.mb + 1) := by
  have : 0 < 2 ^ (f.mb + 1) := by positivity
  unfold Fmt.maxMant; split <;> omega

/-- A magnitude with its leading bit in place is bounded through its exponent. -/
theorem exp_le_of_le {b M X : Nat} {x y : Int} (hM : 2 ^ b ≤ M) (hX : X < 2 ^ (b + 1))
    (h : ratOf false M x ≤ ratOf false X y) : x ≤ y := by
  by_contra hlt
  have step : (2 : ℚ) ^ (y + 1) ≤ 2 ^ x := zpow_le_zpow_right₀ (by norm_num) (by omega)
  have pos := two_zpow_pos y
  have hMq : (2 : ℚ) ^ b ≤ M := by exact_mod_cast hM
  have hXq : (X : ℚ) < 2 ^ b * 2 := by exact_mod_cast pow_succ 2 b ▸ hX
  rw [ratOf_false, ratOf_false] at h
  rw [zpow_add_one₀ two_ne_zero] at step
  have : (2 : ℚ) ^ b * (2 ^ y * 2) ≤ M * 2 ^ x := mul_le_mul hMq step (by positivity) (by positivity)
  nlinarith

/-- A magnitude of the format's precision brought to a leading bit at place mb. -/
theorem shiftInt_leading {f : Fmt} {m : Nat} (e : Int) (h0 : m ≠ 0) (hm : m ≤ 2 ^ (f.mb + 1)) :
    2 ^ f.mb ≤ shiftInt m (f.mb - Nat.log2 m) ∧ shiftInt m (f.mb - Nat.log2 m) < 2 ^ (f.mb + 1) ∧
      ratOf false (shiftInt m (f.mb - Nat.log2 m)) (Nat.log2 m + e - f.mb) = ratOf false m e := by
  have lo := Nat.log2_self_le h0
  have hi : m < 2 ^ (Nat.log2 m + 1) := Nat.lt_log2_self
  set l := Nat.log2 m with hl
  unfold shiftInt
  split
  · next h =>
    obtain ⟨k, hk⟩ : ∃ k : Nat, f.mb = l + k := ⟨f.mb - l, by omega⟩
    rw [show ((f.mb : Int) - l).toNat = k by omega, show f.mb + 1 = l + 1 + k by omega, show 2 ^ f.mb = 2 ^ l * 2 ^ k by
      rw [hk, pow_add], pow_add 2 (l + 1), ratOf_mul_pow]
    exact ⟨Nat.mul_le_mul_right _ lo, Nat.mul_lt_mul_of_pos_right hi (by positivity), by congr 1; omega⟩
  · next h =>
    have hl1 : l = f.mb + 1 := by
      have : l ≤ f.mb + 1 := (Nat.pow_le_pow_iff_right (by norm_num)).1 (lo.trans hm)
      omega
    have hmv : m = 2 ^ f.mb * 2 ^ 1 := by rw [← pow_add]; exact le_antisymm hm (hl1 ▸ lo)
    have pos : 0 < 2 ^ f.mb := by positivity
    rw [show (-((f.mb : Int) - l)).toNat = 1 by omega, show m / 2 ^ 1 = 2 ^ f.mb by rw [hmv]; exact Nat.mul_div_cancel _ (by norm_num),
      hmv, ratOf_mul_pow]
    exact ⟨le_rfl, by rw [pow_succ]; omega, by congr 1; omega⟩

/-- What a format holds is read back from its encoding (R176, R179). -/
theorem decode_encode_fin {f : Fmt} (heb : 2 ≤ f.eb) (n : Bool) {m : Nat} {e : Int} (h : f.Holds m e) :
    ∃ m' e', f.decode (f.encode (.fin n m e)) = .fin n m' e' ∧ f.Holds m' e' ∧ ratOf n m' e' = ratOf n m e := by
  have eb4 : 2 ^ 2 ≤ 2 ^ f.eb := Nat.pow_le_pow_right (by norm_num) heb
  have mb0 : 0 < 2 ^ f.mb := by positivity
  have signed {m1 m2 : Nat} {e1 e2 : Int} (hv : ratOf false m1 e1 = ratOf false m2 e2) : ratOf n m1 e1 = ratOf n m2 e2 := by
    rw [ratOf_false, ratOf_false] at hv; rw [ratOf, ratOf, mul_assoc, mul_assoc, hv]
  have subnormal {y : Nat} (hy : y < 2 ^ f.mb) : f.decode (f.signBit n + y) = .fin n y f.minExp := by
    simpa using decode_fields n (x := 0) (by positivity) hy ⟨by omega, by omega⟩
  rw [Fmt.encode]
  split
  · next h0 =>
    refine ⟨0, f.minExp, subnormal mb0, ⟨Nat.zero_le _, le_rfl, ?_⟩, by rw [h0, ratOf_zero, ratOf_zero]⟩
    rw [ratOf_zero, ratOf_false]; exact mul_nonneg (Nat.cast_nonneg _) (two_zpow_pos _).le
  · next h0 =>
    obtain ⟨lo, hi, value⟩ := shiftInt_leading e h0 h.precision
    have fine := h.fine
    simp only
    set l := Nat.log2 m with hl
    split
    · next hx =>
      set M := shiftInt m (f.mb - l) with hM
      obtain ⟨x, hxn⟩ : ∃ x : Nat, (l : Int) + e + f.bias = x := ⟨_, (Int.toNat_of_nonneg (by omega)).symm⟩
      have unit : (l : Int) + e - f.mb = x - f.bias - f.mb := by omega
      rw [unit] at value
      have below : (x : Int) - f.bias - f.mb ≤ f.maxExp :=
        exp_le_of_le lo (maxMant_lt f) (by rw [value]; exact h.range)
      have topE : x ≤ f.topE := by unfold Fmt.maxExp at below; omega
      have special : ¬ (x = 2 ^ f.eb - 1 ∧ f.sp = .ieee) ∧
          ¬ (x = 2 ^ f.eb - 1 ∧ M - 2 ^ f.mb = 2 ^ f.mb - 1 ∧ f.sp = .nanOnly) := by
        refine ⟨fun hs => ?_, fun hs => ?_⟩
        · rw [Fmt.topE, hs.2] at topE; simp only at topE; omega
        · obtain ⟨hx1, hy1, hsp⟩ := hs
          have ex : f.maxExp = (x : Int) - f.bias - f.mb := by rw [Fmt.maxExp, Fmt.topE, hsp]; simp only; omega
          have le : (M : ℚ) ≤ f.maxMant := by
            have := value ▸ h.range
            rw [ex, ratOf_false, ratOf_false] at this
            exact le_of_mul_le_mul_right this (two_zpow_pos _)
          have : M ≤ f.maxMant := by exact_mod_cast le
          rw [Fmt.maxMant, hsp, pow_succ] at this; simp only at this; omega
      have bound : x < 2 ^ f.eb := by
        have : f.topE ≤ 2 ^ f.eb - 1 := by unfold Fmt.topE; split <;> omega
        omega
      have read := decode_fields n bound (show M - 2 ^ f.mb < 2 ^ f.mb by rw [pow_succ] at hi; omega) special
      rw [if_neg (by omega), show 2 ^ f.mb + (M - 2 ^ f.mb) = M by omega] at read
      rw [show ((l : Int) + e + f.bias).toNat = x by omega]
      exact ⟨M, _, read, ⟨hi.le, by unfold Fmt.minExp; omega, by rw [value]; exact h.range⟩, signed value⟩
    · next hx =>
      obtain ⟨k, hk⟩ : ∃ k : Nat, e = f.minExp + k := ⟨(e - f.minExp).toNat, by omega⟩
      have shifted : shiftInt m (e - f.minExp) = m * 2 ^ k := by
        rw [shiftInt, if_pos (by omega), show (e - f.minExp).toNat = k by omega]
      have small : m * 2 ^ k < 2 ^ f.mb := by
        calc m * 2 ^ k < 2 ^ (l + 1) * 2 ^ k := Nat.mul_lt_mul_of_pos_right Nat.lt_log2_self (by positivity)
          _ = 2 ^ (l + 1 + k) := (pow_add ..).symm
          _ ≤ 2 ^ f.mb := Nat.pow_le_pow_right (by norm_num) (by unfold Fmt.minExp at hk; omega)
      have value : ratOf false (m * 2 ^ k) f.minExp = ratOf false m e := by rw [ratOf_mul_pow, hk]
      rw [shifted]
      exact ⟨_, _, subnormal small, ⟨by rw [pow_succ]; omega, le_rfl, by rw [value]; exact h.range⟩, signed value⟩

/-! ## Rounding to a format (R181, R187) -/

/-- The exponent of the unit to which a format rounds a magnitude. -/
def Fmt.unit (f : Fmt) (m : Nat) (e : Int) : Int := max ((Nat.log2 m : Int) + e - f.mb) f.minExp

/-- Rounding to a unit of 2^q keeps a magnitude below 2^(b + q) at or below it. -/
theorem roundAt_le {b m : Nat} {e q : Int} (mode : RMode) (n : Bool) (h : (Nat.log2 m : Int) + 1 + e ≤ b + q) :
    (roundAt mode n m e q).1 ≤ 2 ^ b := by
  have hi : m < 2 ^ (Nat.log2 m + 1) := Nat.lt_log2_self
  unfold roundAt
  split
  · next hq =>
    calc m * 2 ^ (e - q).toNat ≤ 2 ^ (Nat.log2 m + 1) * 2 ^ (e - q).toNat := Nat.mul_le_mul_right _ hi.le
      _ = 2 ^ (Nat.log2 m + 1 + (e - q).toNat) := (pow_add ..).symm
      _ ≤ 2 ^ b := Nat.pow_le_pow_right (by norm_num) (by omega)
  · next hq =>
    have quot : m / 2 ^ (q - e).toNat < 2 ^ b := by
      rw [Nat.div_lt_iff_lt_mul (by positivity), ← pow_add]
      exact hi.trans_le (Nat.pow_le_pow_right (by norm_num) (by omega))
    simp only; split <;> omega

/-- Rounding to a unit of 2^q keeps a magnitude of at least 2^(b + q) at or above it. -/
theorem le_roundAt {b m : Nat} {e q : Int} (mode : RMode) (n : Bool) (h0 : m ≠ 0) (h : (b : Int) + q ≤ Nat.log2 m + e) :
    2 ^ b ≤ (roundAt mode n m e q).1 := by
  have lo := Nat.log2_self_le h0
  unfold roundAt
  split
  · next hq =>
    calc 2 ^ b ≤ 2 ^ (Nat.log2 m + (e - q).toNat) := Nat.pow_le_pow_right (by norm_num) (by omega)
      _ = 2 ^ Nat.log2 m * 2 ^ (e - q).toNat := pow_add ..
      _ ≤ m * 2 ^ (e - q).toNat := Nat.mul_le_mul_right _ lo
  · next hq =>
    have quot : 2 ^ b ≤ m / 2 ^ (q - e).toNat := by
      rw [Nat.le_div_iff_mul_le (by positivity), ← pow_add]
      exact (Nat.pow_le_pow_right (by norm_num) (by omega)).trans lo
    simp only; split <;> omega

/-- The code holds the value rounded to the format's precision, where that is in range and, in a NaN-only format, below the
tie with the NaN code (R187). -/
def Fmt.RoundsTo (f : Fmt) (mode : RMode) (n : Bool) (m : Nat) (e : Int) (code : Nat) : Prop :=
  let q := f.unit m e
  let t := (roundAt mode n m e q).1
  ratOf false t q ≤ ratOf false f.maxMant f.maxExp →
  (f.sp = .nanOnly → ratOf false m e < ratOf false (2 * f.maxMant + 1) (f.maxExp - 1)) →
  ∃ m' e', f.decode code = .fin n m' e' ∧ ratOf n m' e' = ratOf n t q

theorem roundAt_holds {f : Fmt} {mode : RMode} {n : Bool} {m : Nat} {e : Int}
    (range : ratOf false (roundAt mode n m e (f.unit m e)).1 (f.unit m e) ≤ ratOf false f.maxMant f.maxExp) :
    f.Holds (roundAt mode n m e (f.unit m e)).1 (f.unit m e) :=
  ⟨roundAt_le mode n (by have := le_max_left ((Nat.log2 m : Int) + e - f.mb) f.minExp; rw [← Fmt.unit] at this; push_cast; omega),
    le_max_right _ _, range⟩

theorem minExp_le_maxExp {f : Fmt} (heb : 2 ≤ f.eb) : f.minExp ≤ f.maxExp := by
  have : 2 ^ 2 ≤ 2 ^ f.eb := Nat.pow_le_pow_right (by norm_num) heb
  have : 1 ≤ f.topE := by unfold Fmt.topE; split <;> omega
  unfold Fmt.minExp Fmt.maxExp; omega

/-- A value in range is not counted as an overflow. -/
theorem roundFin_inRange {f : Fmt} (heb : 2 ≤ f.eb) {mode : RMode} {n : Bool} {m : Nat} {e : Int} (h0 : m ≠ 0)
    (range : ratOf false (roundAt mode n m e (f.unit m e)).1 (f.unit m e) ≤ ratOf false f.maxMant f.maxExp)
    (tie : f.sp = .nanOnly → ratOf false m e < ratOf false (2 * f.maxMant + 1) (f.maxExp - 1)) :
    (f.roundFin mode n m e).1 = .fin n (roundAt mode n m e (f.unit m e)).1 (f.unit m e) ∧
      (f.roundFin mode n m e).2.1 = false := by
  have unit : ¬ f.maxExp < f.unit m e := fun above => by
    have normal : f.unit m e = (Nat.log2 m : Int) + e - f.mb := by
      have := minExp_le_maxExp heb
      unfold Fmt.unit at above ⊢; omega
    have := exp_le_of_le (le_roundAt mode n h0 (by omega)) (maxMant_lt f) range
    omega
  have mant : ¬ (f.unit m e = f.maxExp ∧ f.maxMant < (roundAt mode n m e (f.unit m e)).1) := fun ⟨hq, ht⟩ => by
    rw [hq, ratOf_false, ratOf_false] at range
    have := le_of_mul_le_mul_right range (two_zpow_pos _)
    have : (roundAt mode n m e (f.unit m e)).1 ≤ f.maxMant := by rw [hq]; exact_mod_cast this
    omega
  have noTie : ¬ (f.sp = .nanOnly ∧ f.unit m e = f.maxExp ∧ e < f.unit m e ∧
      m = (2 * f.maxMant + 1) * 2 ^ ((f.unit m e - e).toNat - 1)) := fun ⟨hs, hq, he, hm⟩ => by
    have := tie hs
    rw [hm, ratOf_mul_pow, show e + (((f.unit m e - e).toNat - 1 : Nat) : Int) = f.maxExp - 1 by omega] at this
    exact lt_irrefl _ this
  simp only [Fmt.roundFin, h0, if_false]
  rw [← Fmt.unit]
  refine ⟨rfl, ?_⟩
  simp only [Bool.or_eq_false_iff, Bool.and_eq_false_iff, decide_eq_false_iff_not, beq_eq_false_iff_ne]
  tauto

/-! ## Conversions (R187, R260, R308) -/

/-- A conversion into a floating-point format encodes the rounded value where it is in range. -/
theorem conv_flt_inRange {f : Fmt} (heb : 2 ≤ f.eb) {mode : RMode} (sat : Bool) {n : Bool} {m : Nat} {e : Int} (h0 : m ≠ 0)
    (range : ratOf false (roundAt mode n m e (f.unit m e)).1 (f.unit m e) ≤ ratOf false f.maxMant f.maxExp)
    (tie : f.sp = .nanOnly → ratOf false m e < ratOf false (2 * f.maxMant + 1) (f.maxExp - 1)) :
    ((NumFmt.flt f).conv mode sat (.fin n m e)).1 = f.encode (.fin n (roundAt mode n m e (f.unit m e)).1 (f.unit m e)) := by
  obtain ⟨hy, hovf⟩ := roundFin_inRange heb h0 range tie
  simp only [NumFmt.conv, hovf, hy, Bool.false_eq_true, if_false]

theorem conv_flt_roundsTo {f : Fmt} (heb : 2 ≤ f.eb) (mode : RMode) (sat n : Bool) {m : Nat} (e : Int) (h0 : m ≠ 0) :
    f.RoundsTo mode n m e ((NumFmt.flt f).conv mode sat (.fin n m e)).1 := by
  intro range tie
  rw [conv_flt_inRange heb sat h0 range tie]
  obtain ⟨m', e', read, -, value⟩ := decode_encode_fin heb n (roundAt_holds range)
  exact ⟨m', e', read, value⟩

/-- Reading a code back and encoding it again keeps the value that it holds (R183). -/
theorem encode_decode_roundsTo {f : Fmt} (heb : 2 ≤ f.eb) (mode : RMode) (sat n : Bool) {m : Nat} (e : Int) (h0 : m ≠ 0) :
    f.RoundsTo mode n m e (f.encode (f.decode ((NumFmt.flt f).conv mode sat (.fin n m e)).1)) := by
  intro range tie
  rw [conv_flt_inRange heb sat h0 range tie]
  obtain ⟨m1, e1, read1, holds, value1⟩ := decode_encode_fin heb n (roundAt_holds range)
  obtain ⟨m2, e2, read2, -, value2⟩ := decode_encode_fin heb n holds
  exact ⟨m2, e2, by rw [read1, read2], by rw [value2, value1]⟩

/-- The code of a rounded value clipped to the range of an integer type. -/
def clipped (sg : Bool) (w : Nat) (mode : RMode) (n : Bool) (m : Nat) (e : Int) : Nat :=
  let t := (roundAt mode n m e 0).1
  let y : Int := if n then -(t : Int) else t
  ((max (if sg then -2 ^ (w - 1) else 0) (min y (if sg then 2 ^ (w - 1) - 1 else 2 ^ w - 1))) % 2 ^ w).toNat

theorem conv_int_clipped (sg : Bool) (w : Nat) (mode : RMode) (sat n : Bool) (m : Nat) (e : Int) :
    ((NumFmt.int sg w).conv mode sat (.fin n m e)).1 = clipped sg w mode n m e := by
  have range : intMin sg w ≤ intMax sg w := by
    have : (0 : Int) < 2 ^ (w - 1) := by positivity
    have : (0 : Int) < 2 ^ w := by positivity
    unfold intMin intMax; split <;> omega
  have code (y : Int) : (if y < intMin sg w then (lowBits w (intMin sg w), flOF ||| flNX)
      else if intMax sg w < y then (lowBits w (intMax sg w), flOF ||| flNX)
      else (lowBits w y, flIf (roundAt mode n m e 0).2 flNX)).1 = lowBits w (max (intMin sg w) (min y (intMax sg w))) := by
    split
    · next h => rw [min_eq_left (by omega), max_eq_left h.le]
    · next h =>
      split
      · next h2 => rw [min_eq_right h2.le, max_eq_right range]
      · next h2 => rw [min_eq_left (not_lt.1 h2), max_eq_right (not_lt.1 h)]
  exact code _

theorem convert_int_clipped {dst src : VType} (hne : dst ≠ src) (hint : dst.isInt = true) {mode : RMode} {sat n : Bool}
    {x m : Nat} {e : Int} (hx : (src.num.decode x).1 = .fin n m e) :
    (convert dst src mode false sat x).1 = clipped dst.isSigned dst.width mode n m e := by
  have num : dst.num = .int dst.isSigned dst.width := by revert hint; cases dst <;> decide
  rw [← conv_int_clipped _ _ _ true, ← hx]
  cases hs : src.num <;> simp [convert, hne, num, hs, Fmt.read, NumFmt.decode]

/-- Every format of a type has at least two exponent bits. -/
theorem fmt_eb (t : VType) : 2 ≤ t.fmt.eb := by cases t <;> decide

theorem convert_flt_roundsTo {dst src : VType} (hne : dst ≠ src) (hflt : dst.isInt = false) (mode : RMode) (sat : Bool)
    {n : Bool} {x m : Nat} {e : Int} (h0 : m ≠ 0) (hx : (src.num.decode x).1 = .fin n m e) :
    dst.fmt.RoundsTo mode n m e (convert dst src mode false sat x).1 := by
  have num : dst.num = .flt dst.fmt := by revert hflt; cases dst <;> decide
  have code : (convert dst src mode false sat x).1 =
      if dst.fmt.flushes then dst.fmt.encode (dst.fmt.decode ((NumFmt.flt dst.fmt).conv mode false (src.num.decode x).1).1)
      else ((NumFmt.flt dst.fmt).conv mode sat (src.num.decode x).1).1 := by
    cases hs : src.num <;> cases hf : dst.fmt.flushes <;>
      simp [convert, hne, num, hs, hf, Fmt.read, NumFmt.decode, Fmt.flushOut]
  rw [code, hx]
  split
  · exact encode_decode_roundsTo (fmt_eb dst) mode false n e h0
  · exact conv_flt_roundsTo (fmt_eb dst) mode sat n e h0

/-- Settles O28: exact arithmetic as rational arithmetic, and conversions by what their code reads as. -/
theorem arithmeticIsExactBeforeItRounds : Obligations.ArithmeticIsExactBeforeItRounds := by
  unfold Obligations.ArithmeticIsExactBeforeItRounds
  refine ⟨fun mode n1 n2 m1 m2 e1 e2 => ⟨add_exact mode n1 n2 m1 m2 e1 e2, ⟨_, _, _, rfl, ratOf_mul n1 n2 m1 m2 e1 e2⟩,
      fun n3 m3 e3 => fma_exact mode n1 n2 n3 m1 m2 m3 e1 e2 e3⟩,
    dot_exact,
    ⟨div_alike, fun m e h => ⟨sqrt_alike m e h, rsqrt_alike m e h⟩, fun _ => rfl⟩,
    exp2_exact, log2_exact, fun mode sat n m e h => ⟨fun f hf => ?_, fun sg w _ => conv_int_clipped sg w mode sat n m e,
      fun dst src x hne hx => ⟨fun hint => convert_int_clipped hne hint hx,
        fun hflt => convert_flt_roundsTo hne hflt mode sat h.ne' hx⟩⟩⟩
  have heb : 2 ≤ f.eb := by revert f; decide
  exact conv_flt_roundsTo heb mode sat n e h.ne'

end Sys2Proof.Machine
end

