-- ==== Sys2Proof/Proofs/Loads.lean ====
section
/-!
PROOFS. Loads (R269 to R271): the instructions as accesses, and the value of an access as the bytes that the hart sees
(R7, R118, R126, R422).
-/

namespace Sys2Proof.Machine

open Sys2Proof.Safety

/-! ## Bodies that end in an access -/

theorem plain_thenDo_val {α : Type} {c : Ctl} {s u : State} {body : State → Eff} {p : State × Res α} {k : State → α → Eff} {x : α}
    (h : guarded c s) (hb : body (openChunk s) = thenDo p k) (hp : p = (u, .val x)) :
    plain c s body = .next (finish c (openChunk s) (k u x)) := by rw [plain_run h, hb, thenDo_val hp]

theorem plain_thenDo_trap {α : Type} {c : Ctl} {s u : State} {body : State → Eff} {p : State × Res α} {k : State → α → Eff}
    {t : Trap} (h : guarded c s) (hb : body (openChunk s) = thenDo p k) (hp : p = (u, .trap t)) :
    plain c s body = traps (openChunk s) u t.code t.tval t.row := by rw [plain_run h, hb, thenDo_trap hp]; rfl

/-- An effect made while the instruction executed: it retires, and the answers to the write-backs that it has begun are
awaited (R120, R277). -/
theorem next_finish_fin (c : Ctl) (s0 s : State) : .next (finish c s0 (.fin s)) = finishes s := by
  rw [finish_fin, finishes]
  congr 1
  simp only [Bool.and_eq_true, Bool.not_eq_true', List.isEmpty_eq_false_iff]; rfl

theorem serial_fin {c : Ctl} {s u v : State} (h : guarded c s) (hu : commitsTo s u) {body : State → Eff} (hb : body u = .fin v) :
    serial c s body = finishes v := by
  rw [serial, serialThen_run h hu, hb]; exact next_finish_fin c u v

theorem serial_trap {c : Ctl} {s u v : State} {t : Trap} (h : guarded c s) (hu : commitsTo s u) {body : State → Eff}
    (hb : body u = .trap t v) : serial c s body = traps u v t.code t.tval t.row := by
  rw [serial, serialThen_run h hu, hb]; rfl

/-- An extension looks at the low bytes alone. -/
theorem extend_mod (n : Nat) (sg : Bool) (x : Nat) : extend n sg (x % 2 ^ (8 * n)) = extend n sg x := by
  simp [extend, signExt]

/-! ## The load instructions -/

/-- The outcome of a load: the effect of its value, or the trap of its access. -/
def loadsAs (c : Ctl) (s : State) (p : State × Res Nat) (o : Out) (effect : Nat → State → State) : Prop :=
  (∀ u v, p = (u, .val v) → o = .next (retire c (effect v u))) ∧
    ∀ u t, p = (u, .trap t) → o = traps (openChunk s) u t.code t.tval t.row

theorem plain_loadsAs {c : Ctl} {s : State} (h : guarded c s) {body : State → Eff} {p : State × Res Nat}
    {effect : Nat → State → State} (hb : body (openChunk s) = thenDo p fun u v => .ok (effect v u)) :
    loadsAs c s p (plain c s body) effect :=
  ⟨fun _ _ hp => plain_thenDo_val h hb hp, fun _ _ hp => plain_thenDo_trap h hb hp⟩

theorem eaM_openChunk (s : State) (b : GReg) (off : BitVec 20) :
    eaM (openChunk s).cur.arch b off = gOf s b + off.signExtend 64 := by rw [openChunk_arch]; rfl

theorem eaX_openChunk (s : State) (b x : GReg) (n : BitVec 3) :
    eaX (openChunk s).cur.arch b x n = gOf s b + gOf s x <<< n.toNat := by rw [openChunk_arch]; rfl

section
variable {c : Ctl} {s : State} (h : guarded c s) (rd rb rx : GReg) (sz : Size) (sg : Bool) (off : BitVec 20)
include h

theorem execLd_loadsAs :
    loadsAs c s (load (openChunk s) (scalarReq .load sz.bytes true (gOf s rb + off.signExtend 64)) (gOf s rb + off.signExtend 64))
      (exec (.ld c rd rb sz sg off) s) fun v u => setG u rd (extend sz.bytes sg v) :=
  exec_ld s ▸ plain_loadsAs h (by rw [eaM_openChunk]; rfl)

theorem execLdx_loadsAs (n : BitVec 3) :
    loadsAs c s
      (load (openChunk s) (scalarReq .load sz.bytes true (gOf s rb + gOf s rx <<< n.toNat)) (gOf s rb + gOf s rx <<< n.toNat))
      (exec (.ldx c rd rb rx sz sg n) s) fun v u => setG u rd (extend sz.bytes sg v) :=
  exec_ldx s ▸ plain_loadsAs h (by rw [eaX_openChunk]; rfl)

theorem execLdp_loadsAs :
    loadsAs c s
      (load (openChunk s) (scalarReq .load (2 * sz.bytes) false (gOf s rb + off.signExtend 64)) (gOf s rb + off.signExtend 64))
      (exec (.ldp c rd rb sz sg off) s) fun v u =>
        setG (setG u rd (extend sz.bytes sg v)) (rd + 1) (extend sz.bytes sg (v / 2 ^ (8 * sz.bytes))) :=
  exec_ldp s ▸ plain_loadsAs h (by
    rw [eaM_openChunk]
    simp only [extend_mod, Nat.shiftRight_eq_div_pow, gNext]; rfl)

end

/-! ## Acquire loads (R135, R271) -/

/-- What an acquire load reads once the older members have committed: at the level of its scope inside a range, else as any
load. -/
def acquired (s : State) (sc : Scope) (x : Acc) (n : Nat) (a : Word) : State × Res Nat :=
  match x.lvl with
  | some k => readAtLevel s sc x k n a
  | none => readLine s .load x n a

theorem acquired_iff {s : State} {sc : Scope} {x : Acc} {n : Nat} {a : Word} {r : State × Res Nat} :
    acquired s sc x n a = r ↔ match x.lvl with
      | some k => readAtLevel s sc x k n a = r
      | none => readLine s .load x n a = r := by
  unfold acquired; cases x.lvl <;> rfl

theorem ldaLate_eq (s : State) (x : Acc) (n : Nat) (sg : Bool) (sc : Scope) (rd : GReg) (a : Word) :
    ldaLate s x n sg sc rd a = thenDo (acquired s sc x n a) fun u v => .fin (setG u rd (extend n sg v)) := by
  unfold ldaLate acquired; cases x.lvl <;> rfl

section
variable {s s1 : State} {rd rb : GReg} {sz : Size} {sg : Bool} {sc : Scope} {off : BitVec 20}

/-- The translation of an acquire load. -/
def ldaAccess (s : State) (rb : GReg) (sz : Size) (off : BitVec 20) : State × Res Acc :=
  translate (openChunk s) (whoCur s) (scalarReq .load sz.bytes false (gOf s rb + off.signExtend 64)) (gOf s rb + off.signExtend 64)

theorem ldaBody_eq : ldaBody (openChunk s) rd rb sz sg sc off =
    thenDo (ldaAccess s rb sz off) fun s1 x =>
      if sc = .sys ∨ x.lvl.isSome then drained s1 fun t => ldaLate t x sz.bytes sg sc rd (gOf s rb + off.signExtend 64)
      else thenDo (readLine (noteUsed s1 x.used) .load x sz.bytes (gOf s rb + off.signExtend 64)) fun t v =>
        .ok (setG t rd (extend sz.bytes sg v)) := by
  rw [ldaBody, eaM_openChunk, whoCur_openChunk]; rfl

theorem ldaBody_member {x : Acc} (ht : ldaAccess s rb sz off = (s1, .val x)) (hsc : sc ≠ .sys) (hl : x.lvl = none) :
    ldaBody (openChunk s) rd rb sz sg sc off =
      thenDo (readLine (noteUsed s1 x.used) .load x sz.bytes (gOf s rb + off.signExtend 64)) fun s v =>
        .ok (setG s rd (extend sz.bytes sg v)) := by
  rw [ldaBody_eq, thenDo_val ht, if_neg (by simp [hsc, hl])]

theorem ldaBody_late {x : Acc} {u : State} {v : Nat} (ht : ldaAccess s rb sz off = (s1, .val x)) (hsc : sc = .sys ∨ x.lvl ≠ none)
    (hd : isDrained s1 = true) (hv : acquired s1 sc x sz.bytes (gOf s rb + off.signExtend 64) = (u, .val v)) :
    ldaBody (openChunk s) rd rb sz sg sc off = .fin (setG u rd (extend sz.bytes sg v)) := by
  rw [ldaBody_eq, thenDo_val ht, if_pos (hsc.imp_right Option.isSome_iff_ne_none.2), drained_run hd, ldaLate_eq, thenDo_val hv]

theorem ldaBody_trap {t : Trap} (ht : ldaAccess s rb sz off = (s1, .trap t)) :
    ldaBody (openChunk s) rd rb sz sg sc off = .trap t s1 := by rw [ldaBody_eq, thenDo_trap ht]

variable {c : Ctl} (h : guarded c s)
include h

/-- An acquire load below system scope is a member of its chunk. -/
theorem execLda_of_ne_sys (hsc : sc ≠ .sys) :
    exec (.lda c rd rb sz sg sc off) s =
      .next (finish c (openChunk s) (ldaBody (openChunk s) rd rb sz sg sc off)) := by
  rw [exec_lda, execLda, if_neg hsc, plain_run h]

theorem execLda_fin {v : State} (hd : sc ≠ .sys ∨ isDrained s = true)
    (hb : ldaBody (openChunk s) rd rb sz sg sc off = .fin v) : exec (.lda c rd rb sz sg sc off) s = finishes v := by
  by_cases hsc : sc = .sys
  · rw [exec_lda, execLda, if_pos hsc]; exact serial_fin h ⟨hd.resolve_left (absurd hsc), rfl⟩ hb
  · rw [execLda_of_ne_sys h hsc, hb]; exact next_finish_fin ..

theorem execLda_trap {v : State} {t : Trap} (hd : sc ≠ .sys ∨ isDrained s = true)
    (hb : ldaBody (openChunk s) rd rb sz sg sc off = .trap t v) :
    exec (.lda c rd rb sz sg sc off) s = traps (openChunk s) v t.code t.tval t.row := by
  by_cases hsc : sc = .sys
  · rw [exec_lda, execLda, if_pos hsc]; exact serial_trap h ⟨hd.resolve_left (absurd hsc), rfl⟩ hb
  · rw [execLda_of_ne_sys h hsc, hb]; rfl

end

/-! ## The value of an access -/

/-- Byte k of a value is byte k of what the hart reads. -/
theorem valueAt_byte (s : State) (lvl : Option Nat) : ∀ (n k pa : Nat), k < n →
    BitVec.ofNat 8 (valueAt s lvl pa n / 2 ^ (8 * k)) = byteAt s lvl (pa + k) := by
  intro n
  induction n with
  | zero => intro k pa h; omega
  | succ n ih =>
    intro k pa h
    rw [valueAt]
    cases k with
    | zero => apply BitVec.eq_of_toNat_eq; have := (byteAt s lvl pa).isLt; simp; omega
    | succ k =>
      rw [show 8 * (k + 1) = 8 + 8 * k by omega, pow_add, ← Nat.div_div_eq_div_mul,
        show ((byteAt s lvl pa).toNat + 256 * valueAt s lvl (pa + 1) n) / 2 ^ 8 = valueAt s lvl (pa + 1) n by
          have := (byteAt s lvl pa).isLt; omega,
        ih k (pa + 1) (by omega)]
      congr 1; omega

theorem valueAt_lt (s : State) (lvl : Option Nat) : ∀ (n pa : Nat), valueAt s lvl pa n < 2 ^ (8 * n) := by
  intro n
  induction n with
  | zero => intro pa; simp [valueAt]
  | succ n ih =>
    intro pa
    have := ih (pa + 1)
    have := (byteAt s lvl pa).isLt
    rw [valueAt, show 8 * (n + 1) = 8 * n + 8 by omega, pow_add]
    omega

/-- Counting the pending bytes of a peer line as read changes nothing that the hart reads (R139). -/
theorem touchPending_cases (s : State) (l : Nat) (m : LineMask) :
    touchPending s l m = s ∨ touchPending s l m = modChunk s fun c => { c with ops := c.ops ++ [.touch (lineDev l)] } := by
  unfold touchPending; split
  · split <;> simp
  · simp

theorem specByte_touchPending (s : State) (l : Nat) (m : LineMask) (b : Nat) :
    specByte (touchPending s l m).cur b = specByte s.cur b := by
  rcases touchPending_cases s l m with h | h <;> rw [h]; rfl

theorem homeLine_modChunk (s : State) (f : Chunk → Chunk) (h l : Nat) : homeLine (modChunk s f) h l = homeLine s h l := by
  have got : (getHart (modChunk s f) h).got = (getHart s h).got := by
    unfold getHart; split <;> simp_all [modChunk]
  unfold homeLine; rw [got]; rfl

theorem committedByte_modChunk (s : State) (f : Chunk → Chunk) (lvl : Option Nat) (b : Nat) :
    committedByte (modChunk s f) lvl b = committedByte s lvl b := by
  have data (h k l : Nat) : ncData (modChunk s f) h k l = ncData s h k l := by
    unfold ncData; rw [homeLine_modChunk]; rfl
  cases lvl with
  | some k => exact congrArg (lineByte · (b % 128)) (data s.curId k (b / 128))
  | none => rfl

theorem committedByte_touchPending (s : State) (l : Nat) (m : LineMask) (lvl : Option Nat) (b : Nat) :
    committedByte (touchPending s l m) lvl b = committedByte s lvl b := by
  rcases touchPending_cases s l m with h | h <;> rw [h]
  exact committedByte_modChunk s _ lvl b

/-- A read that succeeds has reached its line, which is not poisoned; its value is that of the bytes that the hart then
sees, its own uncommitted ones before the committed ones (R53, R97, R126). -/
theorem readLine_val {s u : State} {k : AccKind} {x : Acc} {n v : Nat} {a : Word} (h : readLine s k x n a = (u, .val v)) :
    ∃ s2, reach s .read x (byteMask x.pa n &&& ~~~ownMask s (x.pa / 128)) a = (s2, .val ()) ∧
      poisoned s2 (x.pa / 128) = false ∧ v < 2 ^ (8 * n) ∧
      ∀ i, i < n → BitVec.ofNat 8 (v / 2 ^ (8 * i)) = byteAt u x.lvl (x.pa + i) := by
  unfold readLine at h
  rcases hr : reach s .read x (byteMask x.pa n &&& ~~~ownMask s (x.pa / 128)) a with ⟨s2, _ | _ | _ | _⟩ <;>
    simp only [hr] at h
  case val =>
    split at h
    · simp at h
    · next hp =>
      simp only [Prod.mk.injEq, Res.val.injEq] at h
      obtain ⟨hu, hv⟩ := h
      refine ⟨s2, rfl, by simpa using hp, hv ▸ valueAt_lt .., fun i hi => ?_⟩
      rw [← hv, valueAt_byte _ _ _ _ _ hi, ← hu, byteAt, byteAt, specByte_touchPending, committedByte_touchPending]
  all_goals simp at h

theorem ctlLoad_snd (s : State) (m : Bool) (off : Nat) : (ctlLoad s m off).2 = ctlRead s m off := by simp only [ctlLoad]

theorem load_val {s s1 u : State} {r : AccReq} {a : Word} {x : Acc} {v : Nat}
    (ht : translate s (whoCur s) r a = (s1, .val x)) (hl : load s r a = (u, .val v)) :
    (isControl (offOf x.pa) = true →
      v = (ctlRead (noteUsed s1 x.used) ((noteUsed s1 x.used).cur.arch.mode == .m) (offOf x.pa)).toNat) ∧
    (isControl (offOf x.pa) = false → readLine (noteUsed s1 x.used) r.kind x r.n a = (u, .val v)) := by
  unfold load at hl
  simp only [ht] at hl
  refine ⟨fun hc => ?_, fun hc => ?_⟩
  · simp only [hc, if_true] at hl
    rw [← ctlLoad_snd]
    exact (Res.val.inj (congrArg Prod.snd hl)).symm
  · simpa only [hc, Bool.false_eq_true, if_false] using hl

/-- Settles O8: the instructions as accesses, and the value of an access byte by byte. -/
theorem loadsWriteTheLoadedValue : Obligations.LoadsWriteTheLoadedValue := by
  unfold Obligations.LoadsWriteTheLoadedValue
  refine ⟨fun c rd rb rx sz sg off sh sc s u v h => ⟨?_, ?_, ?_, ?_, ?_⟩, fun s s1 u r a x v ht hl => ?_⟩
  · exact ⟨(execLd_loadsAs h rd rb sz sg off).1 u v, (execLd_loadsAs h rd rb sz sg off).2 u⟩
  · exact ⟨(execLdx_loadsAs h rd rb rx sz sg sh).1 u v, (execLdx_loadsAs h rd rb rx sz sg sh).2 u⟩
  · exact ⟨(execLdp_loadsAs h rd rb sz sg off).1 u v, (execLdp_loadsAs h rd rb sz sg off).2 u⟩
  · exact fun s1 x ht =>
      ⟨fun hsc hl hv => by rw [execLda_of_ne_sys h hsc, ldaBody_member ht hsc hl, thenDo_val hv]; rfl,
        fun hsc hl hv => execLda_fin h (.inl hsc) (ldaBody_late ht (.inr hl) hv.1 (acquired_iff.2 hv.2)),
        fun hsc hd hv => execLda_fin h (.inr hd) (ldaBody_late ht (.inl hsc) hv.1 (acquired_iff.2 hv.2))⟩
  · exact fun s1 t ht hd => execLda_trap h hd (ldaBody_trap ht)
  · obtain ⟨control, memory⟩ := load_val ht hl
    refine ⟨control, fun hc => ?_⟩
    obtain ⟨s2, reached, clean, bound, bytes⟩ := readLine_val (memory hc)
    refine ⟨s2, reached, clean, bound, fun k b hk hb => ?_⟩
    rw [hb, bytes k hk, byteAt]
    cases specByte u.cur (x.pa + k) <;> rfl

end Sys2Proof.Machine
end

