-- ==== Sys2Proof/Proofs/Canonical.lean ====
section
/-!
PROOFS. Canonical form as one predicate on states. `Part` names the two families of tables that the statements speak of, the
memories and the tables of harts, units, lines, groups and ports, so that one lemma per operation of the machine serves
both. Each predicate is stated over the fields that it reads: an update of any other field keeps it as it stands.
-/

namespace Sys2Proof.Machine

open Sys2Proof.Safety

/-- What a proof of canonical form is about. -/
inductive Part
  | memory       -- the committed memory and the memory of the stacks
  | tables       -- the tables of harts, units, lines, groups and ports

/-! ## Tables -/

/-- A memory is canonical, where the proof is about memory. -/
structure MemOk (p : Part) (m : Memory) : Prop where
  wf : p = .memory → Memory.wf m = true

/-- A table is canonical, where the proof is about tables. -/
structure TabOk {α : Type} [DecidableEq α] (p : Part) (d : α) (t : Tab α) : Prop where
  wf : p = .tables → tabWf d t = true

/-- A table is canonical and each value in it has a property. -/
structure TabOf {α : Type} [DecidableEq α] (p : Part) (d : α) (P : α → Prop) (t : Tab α) : Prop where
  tab : TabOk p d t
  each : ∀ e ∈ t, P e.2

section
variable {α : Type} [DecidableEq α] {p : Part} {d : α} {P : α → Prop} {t : Tab α}

theorem MemOk.nil : MemOk p [] := ⟨fun _ => rfl⟩

theorem MemOk.writeByte {m : Memory} (h : MemOk p m) (a : Nat) (b : BitVec 8) : MemOk p (writeByte m a b) :=
  ⟨fun hp => writeByte_wf m a b (h.wf hp)⟩

theorem MemOk.writeBytes {m : Memory} (h : MemOk p m) (a n x : Nat) : MemOk p (writeBytes m a n x) :=
  ⟨fun hp => writeBytes_wf n m a x (h.wf hp)⟩

namespace TabOk

theorem nil : TabOk p d ([] : Tab α) := ⟨fun _ => rfl⟩
theorem put (h : TabOk p d t) (i : Nat) (x : α) : TabOk p d (tabPut d t i x) := ⟨fun hp => tabPut_wf d t i x (h.wf hp)⟩
theorem mod (h : TabOk p d t) (i : Nat) (f : α → α) : TabOk p d (tabMod d t i f) := h.put i _
theorem map (h : TabOk p d t) (f : Nat → α → α) : TabOk p d (tabMap d f t) := ⟨fun hp => tabMap_wf d f t (h.wf hp)⟩
theorem erase (h : TabOk p d t) (i : Nat) : TabOk p d (tabErase t i) := ⟨fun hp => tabErase_wf d i none t (h.wf hp)⟩

end TabOk

/-- No value of a canonical table is the default. -/
theorem ne_default_of_tabWfFrom : ∀ {t : Tab α} {lo : Option Nat}, tabWfFrom d lo t = true → ∀ e ∈ t, e.2 ≠ d
  | [], _, _ => List.forall_mem_nil _
  | (k, v) :: t, lo, h => by
    simp only [tabWfFrom, Bool.and_eq_true, decide_eq_true_eq] at h
    obtain ⟨⟨_, hv⟩, ht⟩ := h
    exact List.forall_mem_cons.2 ⟨hv, ne_default_of_tabWfFrom ht⟩

/-- Values changed one by one, none to the default. -/
theorem TabOk.mapVal (h : TabOk p d t) (f : α → α) (hf : ∀ x, x ≠ d → f x ≠ d) : TabOk p d (t.map fun e => (e.1, f e.2)) := by
  refine ⟨fun hp => ?_⟩
  have all : ∀ e ∈ t.map fun e => (e.1, f e.2), decide (e.2 ≠ d) = true :=
    List.forall_mem_map.2 fun e he => decide_eq_true (hf _ (ne_default_of_tabWfFrom (h.wf hp) e he))
  have same : tabMap d (fun _ => f) t = t.map fun e => (e.1, f e.2) := List.filter_eq_self.2 all
  exact same ▸ tabMap_wf d _ t (h.wf hp)

omit [DecidableEq α] in
/-- What a table holds is among its values. -/
theorem tabGet_eq_or_mem (d : α) (i : Nat) : ∀ t : Tab α, tabGet d t i = d ∨ ∃ e ∈ t, tabGet d t i = e.2
  | [] => .inl rfl
  | (k, v) :: t => by
    unfold tabGet
    split
    · exact .inr ⟨_, List.mem_cons_self, rfl⟩
    · split
      · exact .inl rfl
      · exact (tabGet_eq_or_mem d i t).imp_right fun ⟨e, he, h⟩ => ⟨e, List.mem_cons_of_mem _ he, h⟩

omit [DecidableEq α] in
theorem mem_of_mem_tabErase {i : Nat} {e : Nat × α} : ∀ {t : Tab α}, e ∈ tabErase t i → e ∈ t
  | [], h => h
  | (k, v) :: t, h => by
    unfold tabErase at h
    split at h
    · exact List.mem_cons_of_mem _ h
    · split at h
      · exact h
      · rcases List.mem_cons.1 h with rfl | h
        · exact List.mem_cons_self
        · exact List.mem_cons_of_mem _ (mem_of_mem_tabErase h)

omit [DecidableEq α] in
theorem eq_or_mem_of_mem_tabInsert {i : Nat} {x : α} {e : Nat × α} : ∀ {t : Tab α}, e ∈ tabInsert t i x → e.2 = x ∨ e ∈ t
  | [], h => .inl (by simp [tabInsert] at h; rw [h])
  | (k, v) :: t, h => by
    unfold tabInsert at h
    split at h
    · rcases List.mem_cons.1 h with rfl | h
      · exact .inl rfl
      · exact .inr (List.mem_cons_of_mem _ h)
    · split at h
      · rcases List.mem_cons.1 h with rfl | h
        · exact .inl rfl
        · exact .inr h
      · rcases List.mem_cons.1 h with rfl | h
        · exact .inr List.mem_cons_self
        · exact (eq_or_mem_of_mem_tabInsert h).imp_right (List.mem_cons_of_mem _)

section
variable {β : Type} {P : β → Prop} {d x : β} {t : Tab β}

theorem each_get (h : ∀ e ∈ t, P e.2) (hd : P d) (i : Nat) : P (tabGet d t i) := by
  rcases tabGet_eq_or_mem d i t with e | ⟨y, hy, e⟩ <;> rw [e]
  · exact hd
  · exact h y hy

theorem each_put [DecidableEq β] (h : ∀ e ∈ t, P e.2) (i : Nat) (hx : P x) : ∀ e ∈ tabPut d t i x, P e.2 := by
  unfold tabPut
  split
  · exact fun e he => h e (mem_of_mem_tabErase he)
  · exact fun e he => (eq_or_mem_of_mem_tabInsert he).elim (fun e => e ▸ hx) (h e)

end

namespace TabOf

theorem nil : TabOf p d P ([] : Tab α) := ⟨.nil, nofun⟩

theorem get (h : TabOf p d P t) (hd : P d) (i : Nat) : P (tabGet d t i) := each_get h.each hd i

theorem erase (h : TabOf p d P t) (i : Nat) : TabOf p d P (tabErase t i) :=
  ⟨h.tab.erase i, fun e he => h.each e (mem_of_mem_tabErase he)⟩

theorem put (h : TabOf p d P t) (i : Nat) {x : α} (hx : P x) : TabOf p d P (tabPut d t i x) := ⟨h.tab.put i x, each_put h.each i hx⟩

theorem mod (h : TabOf p d P t) (hd : P d) (i : Nat) {f : α → α} (hf : ∀ x, P x → P (f x)) : TabOf p d P (tabMod d t i f) :=
  h.put i (hf _ (h.get hd i))

theorem map (h : TabOf p d P t) {f : Nat → α → α} (hf : ∀ i x, P x → P (f i x)) : TabOf p d P (tabMap d f t) := by
  refine ⟨h.tab.map f, fun e he => ?_⟩
  obtain ⟨y, hy, rfl⟩ := List.mem_map.1 (List.mem_of_mem_filter he)
  exact hf _ _ (h.each y hy)

end TabOf
end

/-! ## The parts of the module -/

section
variable (p : Part)

/-- The tiles of a hart's registers (R55). -/
abbrev ArchOk (a : Arch) : Prop := TabOk p none a.tiles

/-- The register states that a chunk brings back (R121, R126). -/
structure ChunkFields (save : Arch) (cuts : List Cut) : Prop where
  save : ArchOk p save
  cuts : ∀ k ∈ cuts, ArchOk p k.arch
abbrev ChunkOk (c : Chunk) : Prop := ChunkFields p c.save c.cuts

/-- The register states of a hart. -/
structure HartFields (arch : Arch) (chunk : Chunk) (inflight : List Chunk) : Prop where
  arch : ArchOk p arch
  chunk : ChunkOk p chunk
  inflight : ∀ c ∈ inflight, ChunkOk p c
abbrev HartOk (x : Hart) : Prop := HartFields p x.arch x.chunk x.inflight

/-- The slot table of an engine (R380). -/
abbrev EngineOk (x : Engine) : Prop := TabOk p SlotEnt.reset x.slots

/-- The engines of a cluster. -/
abbrev ClusterOk (c : Cluster) : Prop := TabOf p Engine.reset (EngineOk p) c.engines

/-- What new harts of a task node or of a gang start from (R203, R210). -/
abbrev NodeOk (n : Node) : Prop := ArchOk p n.tmpl
abbrev GangOk (g : Gang) : Prop := ArchOk p g.tmpl

/-- The ready pool and the generators of a die (R207, R210). -/
structure DieFields (pool : List Node) (gens : Tab (Option Gang)) : Prop where
  pool : ∀ n ∈ pool, NodeOk p n
  gens : ∀ g ∈ gens, ∀ x ∈ g.2, GangOk p x
abbrev DieOk (d : Die) : Prop := DieFields p d.pool d.gens

/-- The copies of a line (R96). -/
abbrev LineOk (c : LineCoh) : Prop := TabOk p Moesi.i c.caches

/-- The channels, lanes and rows of a stack (R84, R93). -/
structure HbmFields (chans : Tab Chan) (lanes : Tab Lane) (openRows : Tab (Option (Nat × Nat))) : Prop where
  chans : TabOk p Chan.reset chans
  lanes : TabOk p Lane.reset lanes
  openRows : TabOk p none openRows
abbrev HbmOk (x : Hbm) : Prop := HbmFields p x.chans x.lanes x.openRows

/-- The tables of the module. -/
structure CanonFields (mem hbm : Memory) (cur : Hart) (harts : Tab Hart) (cores : Tab Core) (clusters : Tab Cluster)
    (dies : Tab Die) (coh : Tab LineCoh) (peers : Tab (Option PeerLine)) (lineTd : Tab Nat) (tags : Tab Word) (hbms : Tab Hbm)
    (groups : Tab Group) (ports : Tab Port) (pairs : Tab Pair) (dogs : Tab Dog) (meas : Tab (BitVec 512)) : Prop where
  mem : MemOk p mem
  hbm : MemOk p hbm
  cur : HartOk p cur
  harts : TabOf p Hart.reset (HartOk p) harts
  cores : TabOk p Core.reset cores
  clusters : TabOf p Cluster.reset (ClusterOk p) clusters
  dies : TabOf p Die.reset (DieOk p) dies
  coh : TabOf p LineCoh.reset (LineOk p) coh
  peers : TabOk p none peers
  lineTd : TabOk p 0 lineTd
  tags : TabOk p 0 tags
  hbms : TabOf p Hbm.reset (HbmOk p) hbms
  groups : TabOk p Group.reset groups
  ports : TabOk p Port.reset ports
  pairs : TabOk p Pair.reset pairs
  dogs : TabOk p Dog.reset dogs
  meas : TabOk p 0 meas

/-- The module is canonical, in the part that the proof is about. -/
abbrev Canon (s : State) : Prop :=
  CanonFields p s.mem s.hbm s.cur s.harts s.cores s.clusters s.dies s.coh s.peers s.lineTd s.tags s.hbms s.groups s.ports s.pairs
    s.dogs s.meas

/-! ## What a step passes on -/

/-- A result with the state that it leaves. -/
def ResOk {α : Type} (x : State × α) : Prop := Canon p x.1

/-- The end of a body leaves a canonical module. -/
def EffOk : Eff → Prop
  | .ok s | .fin s | .trap _ s | .wait _ s => Canon p s
  | .again => True

/-- So does the outcome of an instruction. -/
def OutOk : Out → Prop
  | .next s => Canon p s
  | _ => True

/-- And what a step is about to execute. -/
def MoveOk : Move → Prop
  | .run _ s | .go s => Canon p s
  | .bad => True

end

/-- Of the state of a hart's registers, the tiles matter. -/
theorem ArchOk.of_tiles {p : Part} {a b : Arch} (h : ArchOk p a) (e : b.tiles = a.tiles) : ArchOk p b := by
  unfold ArchOk
  exact e ▸ h

/-! ## What holds of each branch, and of each turn -/

section
variable {α β : Type} {P : α → Prop} {a b : α} {p : Part} {s t : State}

theorem ite_ok {c : Prop} [Decidable c] (ha : P a) (hb : P b) : P (if c then a else b) := by
  split
  · exact ha
  · exact hb

theorem cond_ok {c : Bool} (ha : P a) (hb : P b) : P (bif c then a else b) := by
  cases c
  · exact hb
  · exact ha

theorem foldl_ok {f : α → β → α} {l : List β} (h : P a) (hf : ∀ a x, P a → P (f a x)) : P (l.foldl f a) :=
  List.foldlRecOn l f h fun a ha x _ => hf a x ha

/-- What a named result holds. -/
theorem canon_of_eq {α : Type} {x : State × α} {r : α} (h : ResOk p x) (e : x = (t, r)) : Canon p t := by
  subst e
  exact h

theorem effOk_of_eq {e e' : Eff} (h : EffOk p e) (he : e = e') : EffOk p e' := he ▸ h
theorem moveOk_of_eq {m m' : Move} (h : MoveOk p m) (hm : m = m') : MoveOk p m' := hm ▸ h
theorem outOk_of_eq {o o' : Out} (h : OutOk p o) (ho : o = o') : OutOk p o' := ho ▸ h

end

/-! ## The statements in these words -/

theorem canon_memory (s : State) : Canon .memory s ↔ Memory.wf s.mem = true ∧ Memory.wf s.hbm = true := by
  refine ⟨fun h => ⟨h.mem.wf rfl, h.hbm.wf rfl⟩, fun ⟨hm, hh⟩ => ?_⟩
  have tab {α : Type} [DecidableEq α] (d : α) (t : Tab α) : TabOk .memory d t := ⟨nofun⟩
  have arch (a : Arch) : ArchOk .memory a := tab _ _
  have chunk (c : Chunk) : ChunkOk .memory c := ⟨arch _, fun _ _ => arch _⟩
  have hart (x : Hart) : HartOk .memory x := ⟨arch _, chunk _, fun _ _ => chunk _⟩
  exact
    { mem := ⟨fun _ => hm⟩, hbm := ⟨fun _ => hh⟩, cur := hart _, harts := ⟨tab _ _, fun _ _ => hart _⟩, cores := tab _ _
      clusters := ⟨tab _ _, fun _ _ => ⟨tab _ _, fun _ _ => tab _ _⟩⟩
      dies := ⟨tab _ _, fun _ _ => ⟨fun _ _ => arch _, fun _ _ _ _ => arch _⟩⟩
      coh := ⟨tab _ _, fun _ _ => tab _ _⟩, peers := tab _ _, lineTd := tab _ _, tags := tab _ _
      hbms := ⟨tab _ _, fun _ _ => ⟨tab _ _, tab _ _, tab _ _⟩⟩
      groups := tab _ _, ports := tab _ _, pairs := tab _ _, dogs := tab _ _, meas := tab _ _ }

/-- The register states of a hart, listed. -/
theorem hartOk_tables (x : Hart) : HartOk .tables x ↔ ∀ a ∈ hartArchs x, tabWf none a.tiles = true := by
  have chunk (c : Chunk) : ChunkOk .tables c ↔ ∀ a ∈ c.save :: c.cuts.map (·.arch), tabWf none a.tiles = true := by
    simp only [List.forall_mem_cons, List.forall_mem_map]
    exact ⟨fun h => ⟨h.save.wf rfl, fun k hk => (h.cuts k hk).wf rfl⟩, fun h => ⟨⟨fun _ => h.1⟩, fun k hk => ⟨fun _ => h.2 k hk⟩⟩⟩
  refine ⟨fun h a ha => ?_, fun h => ?_⟩
  · rcases List.mem_cons.1 ha with rfl | ha
    · exact h.arch.wf rfl
    · obtain ⟨c, hc, ha⟩ := List.mem_flatMap.1 ha
      rcases List.mem_cons.1 hc with rfl | hc
      · exact (chunk _).1 h.chunk a ha
      · exact (chunk c).1 (h.inflight c hc) a ha
  · have each (c : Chunk) (hc : c ∈ x.chunk :: x.inflight) : ChunkOk .tables c :=
      (chunk c).2 fun a ha => h a (List.mem_cons_of_mem _ (List.mem_flatMap.2 ⟨c, hc, ha⟩))
    exact ⟨⟨fun _ => h _ List.mem_cons_self⟩, each _ List.mem_cons_self, fun c hc => each c (List.mem_cons_of_mem _ hc)⟩

/-- The register states that a die holds for new harts, listed. -/
theorem dieOk_tables (d : Die) : DieOk .tables d ↔
    ∀ a ∈ d.pool.map (·.tmpl) ++ d.gens.filterMap fun g => g.2.map (·.tmpl), tabWf none a.tiles = true := by
  simp only [List.forall_mem_append, List.forall_mem_map, List.mem_filterMap, Option.map_eq_some_iff, forall_exists_index, and_imp]
  constructor
  · exact fun h => ⟨fun n hn => TabOk.wf (h.pool n hn) rfl, fun a g hg x hx ha => ha ▸ TabOk.wf (h.gens g hg x hx) rfl⟩
  · exact fun h => ⟨fun n hn => ⟨fun _ => h.1 n hn⟩, fun g hg x hx => ⟨fun _ => h.2 x.tmpl g hg x hx rfl⟩⟩

theorem canon_tables (s : State) : Canon .tables s ↔ TablesWf s := by
  have tiles : (HartOk .tables s.cur ∧ (∀ x ∈ s.harts, HartOk .tables x.2) ∧ ∀ d ∈ s.dies, DieOk .tables d.2) ↔
      ∀ a ∈ archs s, tabWf none a.tiles = true := by
    have list (a : Arch) : a ∈ archs s ↔ a ∈ hartArchs s.cur ∨ (∃ x ∈ s.harts, a ∈ hartArchs x.2) ∨
        ∃ d ∈ s.dies, a ∈ d.2.pool.map (·.tmpl) ++ d.2.gens.filterMap fun g => g.2.map (·.tmpl) := by
      simp only [archs, List.mem_append, List.mem_flatMap, or_assoc]
    simp only [list, hartOk_tables, dieOk_tables]
    exact ⟨fun h a ha => ha.elim (h.1 a) fun ha => ha.elim (fun ⟨x, hx, ha⟩ => h.2.1 x hx a ha) fun ⟨d, hd, ha⟩ => h.2.2 d hd a ha,
      fun h => ⟨fun a ha => h a (.inl ha), fun x hx a ha => h a (.inr (.inl ⟨x, hx, ha⟩)),
        fun d hd a ha => h a (.inr (.inr ⟨d, hd, ha⟩))⟩⟩
  constructor
  · intro h
    exact
      { harts := h.harts.tab.wf rfl, cores := h.cores.wf rfl, clusters := h.clusters.tab.wf rfl
        engines := fun c hc => ⟨(h.clusters.each c hc).tab.wf rfl, fun e he => TabOk.wf ((h.clusters.each c hc).each e he) rfl⟩
        dies := h.dies.tab.wf rfl, coh := h.coh.tab.wf rfl, caches := fun c hc => TabOk.wf (h.coh.each c hc) rfl
        peers := h.peers.wf rfl, lineTd := h.lineTd.wf rfl, tags := h.tags.wf rfl, hbms := h.hbms.tab.wf rfl
        channels := fun x hx => ⟨(h.hbms.each x hx).chans.wf rfl, (h.hbms.each x hx).lanes.wf rfl, (h.hbms.each x hx).openRows.wf rfl⟩
        groups := h.groups.wf rfl, ports := h.ports.wf rfl, pairs := h.pairs.wf rfl, dogs := h.dogs.wf rfl, meas := h.meas.wf rfl
        tiles := tiles.1 ⟨h.cur, h.harts.each, h.dies.each⟩ }
  · intro h
    have tab {α : Type} [DecidableEq α] {d : α} {t : Tab α} (ht : tabWf d t = true) : TabOk .tables d t := ⟨fun _ => ht⟩
    obtain ⟨cur, harts, dies⟩ := tiles.2 h.tiles
    exact
      { mem := ⟨nofun⟩, hbm := ⟨nofun⟩, cur, harts := ⟨tab h.harts, harts⟩, cores := tab h.cores
        clusters := ⟨tab h.clusters, fun c hc => ⟨tab (h.engines c hc).1, fun e he => tab ((h.engines c hc).2 e he)⟩⟩
        dies := ⟨tab h.dies, dies⟩, coh := ⟨tab h.coh, fun c hc => tab (h.caches c hc)⟩, peers := tab h.peers
        lineTd := tab h.lineTd, tags := tab h.tags
        hbms := ⟨tab h.hbms, fun x hx => ⟨tab (h.channels x hx).1, tab (h.channels x hx).2.1, tab (h.channels x hx).2.2⟩⟩
        groups := tab h.groups, ports := tab h.ports, pairs := tab h.pairs, dogs := tab h.dogs, meas := tab h.meas }

end Sys2Proof.Machine
end

