-- ==== Sys2Proof/Proofs/CanonState.lean ====
section
/-!
PROOFS. Canonical form: the state, its tables and the updates of its fields, and the memory stacks. Every operation
that answers a state keeps `Canon`, one lemma for each operation, named after it.
-/

namespace Sys2Proof.Machine

variable {p : Part} {s t : State}

/-! ## State: Reset values -/

theorem archReset_tiles : Arch.reset.tiles = [] := rfl

theorem archReset_ok : ArchOk p Arch.reset := by
  unfold ArchOk
  rw [archReset_tiles]
  exact .nil

theorem chunkFresh_canon {a} (ha : ArchOk p a) : ChunkOk p (Chunk.fresh a) :=
  { save := ha, cuts := List.forall_mem_nil _ }

theorem hartReset_ok : HartOk p Hart.reset :=
  { arch := archReset_ok, chunk := chunkFresh_canon archReset_ok, inflight := List.forall_mem_nil _ }

theorem engineReset_ok : EngineOk p Engine.reset := .nil

theorem clusterReset_ok : ClusterOk p Cluster.reset := .nil

theorem dieReset_ok : DieOk p Die.reset := { pool := List.forall_mem_nil _, gens := List.forall_mem_nil _ }

theorem lineReset_ok : LineOk p LineCoh.reset := .nil

theorem hbmReset_ok : HbmOk p Hbm.reset := { chans := .nil, lanes := .nil, openRows := .nil }

theorem stateReset_ok : Canon p State.reset :=
  { mem := .nil, hbm := .nil, cur := hartReset_ok, harts := .nil, cores := .nil, clusters := .nil, dies := .nil, coh := .nil
    peers := .nil, lineTd := .nil, tags := .nil, hbms := .nil, groups := .nil, ports := .nil, pairs := .nil, dogs := .nil, meas := .nil }

/-! ### Updates of a field -/

theorem events_canon {e} (h : Canon p s) : Canon p { s with events := e } := h
theorem poison_canon {l} (h : Canon p s) : Canon p { s with poison := l } := h
theorem invs_canon {l} (h : Canon p s) : Canon p { s with invs := l } := h
theorem wire_canon {w} (h : Canon p s) : Canon p { s with wire := w } := h
theorem held_canon {l} (h : Canon p s) : Canon p { s with held := l } := h
theorem nextPhys_canon {n} (h : Canon p s) : Canon p { s with nextPhys := n } := h

theorem putPeer_canon {l q} (h : Canon p s) : Canon p { s with peers := tabPut none s.peers l q } :=
  { h with peers := h.peers.put _ _ }

theorem putLineTd_canon {l x} (h : Canon p s) : Canon p { s with lineTd := tabPut 0 s.lineTd l x } :=
  { h with lineTd := h.lineTd.put _ _ }

theorem mapDogs_canon {f} (h : Canon p s) : Canon p { s with dogs := tabMap Dog.reset f s.dogs } :=
  { h with dogs := h.dogs.map _ }

theorem putTiles_ok {a : Arch} {i t} (ha : ArchOk p a) : ArchOk p { a with tiles := tabPut none a.tiles i t } := ha.put _ _
theorem fstat_ok {a : Arch} {x} (ha : ArchOk p a) : ArchOk p { a with fstat := x } := ha
theorem walkCache_ok {c : Cluster} {l} (hc : ClusterOk p c) : ClusterOk p { c with walkCache := l } := hc
theorem dir_ok {c : LineCoh} {d} (hc : LineOk p c) : LineOk p { c with dir := d } := hc

theorem chans_ok {x : Hbm} {t} (hx : HbmOk p x) (ht : TabOk p Chan.reset t) : HbmOk p { x with chans := t } :=
  { hx with chans := ht }

theorem putGang_ok {d : Die} {i g} (hd : DieOk p d) (hg : ∀ x ∈ g, GangOk p x) : DieOk p { d with gens := tabPut none d.gens i g } :=
  { hd with gens := each_put (P := fun g => ∀ x ∈ g, GangOk p x) hd.gens i hg }

/-! ## Operands: Slots and units -/

theorem getHart_canon {hart} (h : Canon p s) : HartOk p (getHart s hart) :=
  ite_ok h.cur (h.harts.get hartReset_ok _)

theorem setHart_canon {hart x} (h : Canon p s) (hx : HartOk p x) : Canon p (setHart s hart x) :=
  ite_ok { h with cur := hx } { h with harts := h.harts.put _ hx }

theorem modHart_canon {hart f} (h : Canon p s) (hf : ∀ x, HartOk p x → HartOk p (f x)) : Canon p (modHart s hart f) :=
  setHart_canon h (hf _ (getHart_canon h))

theorem focus_canon {hart} (h : Canon p s) : Canon p (focus s hart) :=
  ite_ok h { h with cur := h.harts.get hartReset_ok _, harts := (h.harts.put _ h.cur).erase _ }

theorem modCore_canon {c f} (h : Canon p s) : Canon p (modCore s c f) :=
  { h with cores := h.cores.mod _ _ }

theorem getCluster_canon {c} (h : Canon p s) : ClusterOk p (getCluster s c) :=
  h.clusters.get clusterReset_ok _

theorem modCluster_canon {c f} (h : Canon p s) (hf : ∀ x, ClusterOk p x → ClusterOk p (f x)) : Canon p (modCluster s c f) :=
  { h with clusters := h.clusters.mod clusterReset_ok _ hf }

theorem getDie_canon {d} (h : Canon p s) : DieOk p (getDie s d) :=
  h.dies.get dieReset_ok _

theorem modDie_canon {d f} (h : Canon p s) (hf : ∀ x, DieOk p x → DieOk p (f x)) : Canon p (modDie s d f) :=
  { h with dies := h.dies.mod dieReset_ok _ hf }

theorem getHbm_canon {k} (h : Canon p s) : HbmOk p (getHbm s k) :=
  h.hbms.get hbmReset_ok _

theorem modHbm_canon {k f} (h : Canon p s) (hf : ∀ x, HbmOk p x → HbmOk p (f x)) : Canon p (modHbm s k f) :=
  { h with hbms := h.hbms.mod hbmReset_ok _ hf }

theorem modGroup_canon {n f} (h : Canon p s) : Canon p (modGroup s n f) :=
  { h with groups := h.groups.mod _ _ }

theorem modPort_canon {n f} (h : Canon p s) : Canon p (modPort s n f) :=
  { h with ports := h.ports.mod _ _ }

theorem getEngine_canon {cl e} (h : Canon p s) : EngineOk p (getEngine s cl e) :=
  (getCluster_canon h).get engineReset_ok _

theorem modEngine_canon {cl e f} (h : Canon p s) (hf : ∀ x, EngineOk p x → EngineOk p (f x)) : Canon p (modEngine s cl e f) :=
  modCluster_canon h fun _ h1 => h1.mod engineReset_ok _ hf

theorem updHart_canon {f} (h : Canon p s) (hf : ∀ x, HartOk p x → HartOk p (f x)) : Canon p (updHart s f) :=
  { h with cur := hf _ h.cur }

theorem updArch_canon {f} (h : Canon p s) (hf : ∀ x, ArchOk p x → ArchOk p (f x)) : Canon p (updArch s f) :=
  { h with cur := { h.cur with arch := hf _ h.cur.arch } }

theorem setPc_canon {a} (h : Canon p s) : Canon p (setPc s a) :=
  updArch_canon h fun _ h1 => h1

/-! ## Operands: Registers (R13, R200) -/

theorem wrG_canon {a r x} (ha : ArchOk p a) : ArchOk p (wrG a r x) :=
  ite_ok ha ha

theorem wrP_canon {a r x} (ha : ArchOk p a) : ArchOk p (wrP a r x) :=
  ite_ok ha ha

theorem wrV_canon {a r x} (ha : ArchOk p a) : ArchOk p (wrV a r x) :=
  ha

theorem wrQ_canon {a r x} (ha : ArchOk p a) : ArchOk p (wrQ a r x) :=
  ha

theorem setG_canon {r x} (h : Canon p s) : Canon p (setG s r x) :=
  updArch_canon h fun _ h1 => wrG_canon h1

theorem setP_canon {r x} (h : Canon p s) : Canon p (setP s r x) :=
  updArch_canon h fun _ h1 => wrP_canon h1

theorem setV_canon {r x} (h : Canon p s) : Canon p (setV s r x) :=
  updArch_canon h fun _ h1 => wrV_canon h1

/-! ## Operands: Vector lanes (R180, R287) -/

theorem mergeGroup_canon {a w r n act zm f} (ha : ArchOk p a) : ArchOk p (mergeGroup a w r n act zm f) :=
  foldl_ok ha fun _ _ h1 => wrV_canon h1

/-! ## Operands: Free values -/

theorem spend_canon {n} (h : Canon p s) : Canon p (spend s n) :=
  h

/-! ## Flags: Causes (R385) -/

theorem resAndThen_canon {α : Type} {r : Res α} {k : α → Eff} (h : Canon p s)
    (hk : ∀ x, EffOk p (k x)) : EffOk p (Res.andThen r s k) := by
  unfold Res.andThen
  split
  · exact hk _
  · exact h
  · exact h
  · exact trivial

theorem thenDo_canon {α : Type} {q : State × Res α}
    {k : State → α → Eff} (hq : ResOk p q) (hk : ∀ x y, Canon p x → EffOk p (k x y)) : EffOk p
    (thenDo q k) :=
  resAndThen_canon hq fun _ => hk _ _ hq

theorem guardTrap_canon {c t k} (h : Canon p s) (hk : EffOk p k) : EffOk p (guardTrap c t s k) :=
  ite_ok hk h

/-! ## Flags: fcsr and vcsr -/

theorem withFlags_canon {fl k} (h : Canon p s) (hk : ∀ x, Canon p x → EffOk p (k x)) : EffOk p (withFlags fl s k) :=
  ite_ok h (hk _ (updArch_canon h fun _ h1 => h1))

theorem withSat_canon {b a} (ha : ArchOk p a) : ArchOk p (withSat b a) :=
  ite_ok ha ha

/-! ## Lines: Events for the management controller (R421) -/

theorem logEv_canon {e a b} (h : Canon p s) : Canon p (logEv s e a b) :=
  h

theorem announce_canon {e kind unit} (h : Canon p s) : Canon p (announce s e kind unit) := by
  unfold announce
  extract_lets +onlyGivenNames s1
  have hs1 : Canon p s1 := logEv_canon h
  exact ite_ok hs1 hs1

/-! ## Lines: Steps still due -/

theorem after_canon {dt i} (h : Canon p s) : Canon p (after s dt i) :=
  h

/-! ## Lines: Sending (R153, R156, R158) -/

theorem send_canon {m} (h : Canon p s) : Canon p (send s m) :=
  ite_ok (after_canon h) (ite_ok { h with pairs := h.pairs.put _ _ } { h with pairs := h.pairs.put _ _ })

theorem request_canon {m harts} (h : Canon p s) : Canon p (request s m harts) :=
  after_canon (send_canon h)

/-! ## Lines: Commands that wait -/

theorem wakeCommands_canon (h : Canon p s) : Canon p (wakeCommands s) :=
  foldl_ok h fun _ _ h1 => setHart_canon h1 (getHart_canon h1)

/-! ## Lines: The bytes of a line -/

theorem mergeMem_canon {l new mask} (h : Canon p s) : Canon p (mergeMem s l new mask) :=
  { h with mem := h.mem.writeBytes _ _ _ }

/-! ## Stack: Rows (R83, R84) -/

theorem pageAccess_canon {k sa lr} (h : Canon p s) : Canon p (pageAccess s k sa lr) := by
  unfold pageAccess
  extract_lets +onlyGivenNames s1
  have hs1 : Canon p s1 := modHbm_canon h fun _ h1 => { h1 with openRows := h1.openRows.put _ _ }
  exact ite_ok hs1 (after_canon hs1)

/-! ## Stack: Granules (R76, R79, R88-R90) -/

theorem memEvent_canon (h : Canon p s) : Canon p (memEvent s) :=
  logEv_canon h

theorem countError_canon {x err} (hx : HbmOk p x) : HbmOk p (countError x err) :=
  ite_ok hx (ite_ok hx hx)

theorem readError_canon {k err} (h : Canon p s) : Canon p (readError s k err) := by
  unfold readError
  extract_lets +onlyGivenNames s1
  have hs1 : Canon p s1 := modHbm_canon h fun _ h1 => countError_canon h1
  exact ite_ok (logEv_canon hs1) (ite_ok (memEvent_canon hs1) hs1)

theorem cancelScrub_canon {x sa} (hx : HbmOk p x) : HbmOk p (cancelScrub x sa) := by
  unfold cancelScrub
  split
  · exact ite_ok hx hx
  · exact hx

theorem putGranule_canon {l td x poison lr} (h : Canon p s) : Canon p (putGranule s l td x poison lr) := by
  unfold putGranule
  split
  split
  extract_lets +onlyGivenNames s1
  have hs1 : Canon p s1 := modHbm_canon (pageAccess_canon h) fun _ h1 => ite_ok (cancelScrub_canon h1)
    (cancelScrub_canon (cancelScrub_canon h1))
  exact { hs1 with hbm := hs1.hbm.writeBytes _ _ _, tags := ite_ok hs1.tags (hs1.tags.put _ _) }

/-! ## Stack: What a served request owes (R91, R92, R114, R134) -/

theorem ncDone_canon {id} (h : Canon p s) : Canon p (ncDone s id) :=
  foldl_ok h fun _ _ h1 => ite_ok (modHart_canon h1 fun _ h2 => h2) h1

theorem salvageWritten_canon {entry} (h : Canon p s) : Canon p (salvageWritten s entry) :=
  ite_ok h (wakeCommands_canon h)

theorem giveLine_canon {hart l d bad} (h : Canon p s) : Canon p (giveLine s hart l d bad) :=
  modHart_canon h fun _ h1 => h1

theorem settleOwed_canon {l o} (h : Canon p s) : Canon p (settleOwed s l o) := by
  unfold settleOwed
  split
  · exact h
  · exact ite_ok (giveLine_canon h) h
  · exact ncDone_canon h
  · exact after_canon h
  · exact send_canon h
  · exact salvageWritten_canon h

theorem writeBackFor_canon {l lr o} (h : Canon p s) : Canon p (writeBackFor s l lr o) :=
  ite_ok (settleOwed_canon h) (ite_ok (modHbm_canon h fun _ h1 => h1) (settleOwed_canon (putGranule_canon h)))

theorem writeBack_canon {l} (h : Canon p s) : Canon p (writeBack s l) :=
  writeBackFor_canon h

theorem readGranule_canon {l td lr} (h : Canon p s) : Canon p (readGranule s l td lr) := by
  unfold readGranule
  refine ite_ok ?_ ?_
  · exact h
  · split
    extract_lets +onlyGivenNames s1 _
    have hs1 : Canon p s1 := pageAccess_canon h
    split
    extract_lets +onlyGivenNames s2
    have hs2 : Canon p s2 := { hs1 with mem := hs1.mem.writeBytes _ _ _, lineTd := hs1.lineTd.put _ _ }
    exact ite_ok hs2 (logEv_canon hs2)

/-! ## Stack: Requests that wait (R91, R92, R94) -/

theorem awaitStack_canon {l td lr o} (h : Canon p s) : Canon p (awaitStack s l td lr o) :=
  ite_ok h (modHbm_canon h fun _ h1 => h1)

end Sys2Proof.Machine
end

