-- ==== Sys2Proof/Proofs/CanonCaches.lean ====
section
/-!
PROOFS. Canonical form: the levels of memory, the caches of a line, and the squash of chunks. Every operation that
answers a state keeps `Canon`, one lemma for each operation, named after it.
-/

namespace Sys2Proof.Machine

variable {p : Part} {s t : State}

/-! ## Levels: The caches of a line (R96) -/

theorem getCoh_canon {l} (h : Canon p s) : LineOk p (getCoh s l) :=
  h.coh.get lineReset_ok _

theorem modCoh_canon {l f} (h : Canon p s) (hf : ∀ x, LineOk p x → LineOk p (f x)) : Canon p (modCoh s l f) :=
  { h with coh := h.coh.mod lineReset_ok _ hf }

theorem setCache_canon {c k st} (hc : LineOk p c) : LineOk p (setCache c k st) :=
  hc.put _ _

/-! ## Levels: Non-coherent levels (R133, R135) -/

theorem ncPut_canon {hart lvl x} (h : Canon p s) : Canon p (ncPut s hart lvl x) :=
  ite_ok (modCore_canon h) (ite_ok (modCluster_canon h fun _ h1 => h1) h)

theorem ncRemove_canon {hart lvl l} (h : Canon p s) : Canon p (ncRemove s hart lvl l) :=
  ite_ok (modCore_canon h) (ite_ok (modCluster_canon h fun _ h1 => h1) h)

/-! ## Levels: Peer lines (R108, R109, R112) -/

theorem sendPosted_canon {l} (h : Canon p s) : Canon p (sendPosted s l) := by
  unfold sendPosted
  split
  · exact h
  · exact ite_ok h (request_canon (foldl_ok { h with peers := by with_reducible exact h.peers.put _ _ } fun _ _ h1 => modHart_canon h1
      fun _ h2 => h2))

theorem writePeer_canon {l q} (h : Canon p s) : Canon p (writePeer s l q) :=
  request_canon h

theorem touchDev_canon {x d} (hx : HartOk p x) : HartOk p (touchDev x d) :=
  ite_ok hx (ite_ok hx hx)

theorem commitPeer_canon {hart l cmd data mask} (h : Canon p s) : Canon p (commitPeer s hart l cmd data mask) := by
  unfold commitPeer
  extract_lets +onlyGivenNames _ _ _ put touch
  refine ite_ok ?_ ?_
  · exact { h with peers := by with_reducible exact h.peers.put _ _ }
  · refine ite_ok ?_ ?_
    · exact ite_ok { h with peers := by with_reducible exact h.peers.put _ _ }
        (modHart_canon { h with peers := by with_reducible exact h.peers.put _ _ } fun _ h1 => touchDev_canon h1)
    · extract_lets +onlyGivenNames _ _ _ s1 s2
      have hs1 : Canon p s1 := modCoh_canon { h with peers := by with_reducible exact h.peers.put _ _ } fun _ h2 => ite_ok h2
          (setCache_canon h2)
      have hs2 : Canon p s2 := ite_ok (modHart_canon hs1 fun _ h3 => h3) hs1
      exact sendPosted_canon (ite_ok hs2 (modHart_canon hs2 fun _ h4 => touchDev_canon h4))

/-! ## Levels: Writes past the caches (R135, R155) -/

theorem ncHome_canon {i l data mask lr} (h : Canon p s) : Canon p (ncHome s i l data mask lr) := by
  unfold ncHome
  refine ite_ok ?_ (ite_ok h ?_)
  · extract_lets +onlyGivenNames _ s1
    have hs1 : Canon p s1 := mergeMem_canon (ite_ok h h)
    exact ite_ok (modHart_canon (writeBackFor_canon hs1) fun _ hx => hx) (writeBackFor_canon hs1)
  · extract_lets +onlyGivenNames _ _ s2
    have hs2 : Canon p s2 := request_canon h
    exact ite_ok hs2 (modHart_canon hs2 fun _ hx => touchDev_canon hx)

theorem ncFill_canon {hart lvl l} (h : Canon p s) : Canon p (ncFill s hart lvl l) := by
  unfold ncFill
  extract_lets +onlyGivenNames s1
  have hs1 : Canon p s1 := ite_ok (ncPut_canon h) h
  exact ite_ok (ncPut_canon hs1) hs1

theorem ncStore_canon {hart lvl l data mask lr} (h : Canon p s) : Canon p (ncStore s hart lvl l data mask lr) := by
  unfold ncStore
  refine ite_ok ?_ ?_
  · extract_lets +onlyGivenNames _ s1
    have hs1 : Canon p s1 := ite_ok (ncFill_canon h) h
    split
    · exact ncPut_canon hs1
    · exact ncHome_canon hs1
  · exact ncHome_canon h

theorem ncClean_canon {hart lo lvl l data mask} (h : Canon p s) : Canon p (ncClean s hart lo lvl l data mask) := by
  unfold ncClean
  exact foldl_ok h fun _ _ h1 => ite_ok (by
    split
    · exact ncPut_canon h1
    · exact h1) h1

theorem ncUp_canon {hart owner k l} (h : Canon p s) : Canon p (ncUp s hart owner k l) := by
  unfold ncUp
  split
  · extract_lets +onlyGivenNames s1
    have hs1 : Canon p s1 := ncPut_canon h
    refine ite_ok ?_ ?_
    · exact hs1
    · split
      · exact ncPut_canon hs1
      · exact ite_ok (ncPut_canon hs1) (ncHome_canon hs1)
  · exact h

theorem ncWriteBack_canon {hart lo lvl l} (h : Canon p s) : Canon p (ncWriteBack s hart lo lvl l) :=
  foldl_ok h fun _ _ h1 => ite_ok (ncUp_canon h1) h1

theorem ncInvalidate_canon {hart lo lvl l} (h : Canon p s) : Canon p (ncInvalidate s hart lo lvl l) :=
  foldl_ok h fun _ _ h1 => ite_ok (ncRemove_canon h1) h1

/-! ## Levels: The salvage ring (R113, R114) -/

theorem selfWrite_canon {l data mask poison ring} (h : Canon p s) : Canon p (selfWrite s l data mask poison ring) :=
  send_canon h

theorem invalidateHolders_canon {l} (h : Canon p s) : Canon p (invalidateHolders s l) :=
  ite_ok h (selfWrite_canon h)

theorem salvage_canon {l q} (h : Canon p s) : Canon p (salvage s l q) :=
  ite_ok h (selfWrite_canon (selfWrite_canon h))

/-! ## Caches: Sets (R47, R48) -/

theorem setL1i_canon {core l f} (h : Canon p s) : Canon p (setL1i s core l f) :=
  modCore_canon h

theorem setL1d_canon {core l f} (h : Canon p s) : Canon p (setL1d s core l f) :=
  modCore_canon h

theorem setL2_canon {cl l f} (h : Canon p s) : Canon p (setL2 s cl l f) :=
  modCluster_canon h fun _ h1 => h1

theorem setLlc_canon {d l f} (h : Canon p s) : Canon p (setLlc s d l f) :=
  modDie_canon h fun _ h1 => h1

/-! ## Caches: Lines that leave (R48, R97, R101) -/

theorem dropL1d_canon {l core} (h : Canon p s) : Canon p (dropL1d s l core) :=
  modCoh_canon (setL1d_canon h) fun _ h1 => setCache_canon h1

theorem dropL1i_canon {l core} (h : Canon p s) : Canon p (dropL1i s l core) :=
  modCoh_canon (setL1i_canon h) fun _ h1 => setCache_canon h1

theorem dropL1s_canon {l cl} (h : Canon p s) : Canon p (dropL1s s l cl) :=
  foldl_ok h fun _ _ h1 => dropL1i_canon (dropL1d_canon h1)

theorem agentLoses_canon {l k} (h : Canon p s) : Canon p (agentLoses s l k) :=
  ite_ok (modCoh_canon (setL2_canon (dropL1s_canon h)) fun _ h1 => setCache_canon h1)
    (modCoh_canon (setLlc_canon h) fun _ h2 => setCache_canon h2)

theorem dropDie_canon {l d but} (h : Canon p s) : Canon p (dropDie s l d but) :=
  foldl_ok h fun _ _ h1 => ite_ok h1 (agentLoses_canon h1)

theorem cleanL1s_canon {c cl} (hc : LineOk p c) : LineOk p (cleanL1s c cl) :=
  foldl_ok hc fun _ _ h1 => ite_ok (setCache_canon h1) h1

theorem shareAgent_canon {c k st} (hc : LineOk p c) : LineOk p (shareAgent c k st) := by
  unfold shareAgent
  extract_lets +onlyGivenNames c1
  have hc1 : LineOk p c1 := setCache_canon hc
  exact ite_ok (cleanL1s_canon hc1) hc1

theorem dropAll_canon {l} (h : Canon p s) : Canon p (dropAll s l) :=
  foldl_ok h fun _ _ h1 => dropDie_canon h1

theorem tidyPeer_canon {l} (h : Canon p s) : Canon p (tidyPeer s l) := by
  unfold tidyPeer
  split
  · refine ite_ok ?_ ?_
    · extract_lets +onlyGivenNames s1
      have hs1 : Canon p s1 := ite_ok (ite_ok (salvage_canon h) (writePeer_canon h)) h
      exact modCoh_canon { hs1 with peers := by with_reducible exact hs1.peers.put _ _ } fun _ h1 => h1
    · exact h
  · exact h

/-! ## Caches: Evictions (R48, R97, R102, R109, R113, R135) -/

theorem leaveDie_canon {d l} (h : Canon p s) : Canon p (leaveDie s d l) := by
  unfold leaveDie
  extract_lets +onlyGivenNames s1
  have hs1 : Canon p s1 := dropDie_canon h
  refine ite_ok ?_ ?_
  · exact after_canon (modCoh_canon hs1 fun _ h1 => h1)
  · split
    · exact hs1
    · refine ite_ok ?_ ?_
      · extract_lets +onlyGivenNames _ s2
        have hs2 : Canon p s2 := ite_ok (salvage_canon hs1) (request_canon hs1)
        exact tidyPeer_canon { hs2 with peers := by with_reducible exact hs2.peers.put _ _ }
      · exact tidyPeer_canon hs1

theorem evictLlc_canon {d l} (h : Canon p s) : Canon p (evictLlc s d l) := by
  unfold evictLlc
  extract_lets +onlyGivenNames _ s1
  have hs1 : Canon p s1 := agentLoses_canon h
  exact ite_ok (leaveDie_canon hs1) (tidyPeer_canon hs1)

theorem putLlc_canon {d l hint st} (h : Canon p s) : Canon p (putLlc s d l hint st) := by
  unfold putLlc
  refine ite_ok ?_ ?_
  · exact modCoh_canon (setLlc_canon h) fun _ h1 => setCache_canon h1
  · extract_lets +onlyGivenNames s1
    have hs1 : Canon p s1 := by
      unfold s1
      refine ite_ok ?_ ?_
      · exact h
      · split
        · exact evictLlc_canon h
        · exact h
    exact ite_ok (modCoh_canon (setLlc_canon hs1) fun _ h2 => setCache_canon h2) hs1

theorem evictM_canon {cl l} (h : Canon p s) : Canon p (evictM s cl l) := by
  unfold evictM
  refine ite_ok ?_ ?_
  · extract_lets +onlyGivenNames t
    have ht : Canon p t := putLlc_canon (agentLoses_canon h)
    exact ite_ok (leaveDie_canon ht) ht
  · exact h

theorem evictNc1_canon {core l} (h : Canon p s) : Canon p (evictNc1 s core l) :=
  ncRemove_canon (ncUp_canon h)

theorem evictNc2_canon {cl l} (h : Canon p s) : Canon p (evictNc2 s cl l) := by
  unfold evictNc2
  split
  · extract_lets +onlyGivenNames s1
    have hs1 : Canon p s1 := modCluster_canon h fun _ h1 => h1
    exact ite_ok hs1 (ncHome_canon hs1)
  · exact h

theorem evictL2_canon {cl l} (h : Canon p s) : Canon p (evictL2 s cl l) := by
  unfold evictL2
  extract_lets +onlyGivenNames _ s1
  have hs1 : Canon p s1 := evictNc2_canon (foldl_ok h fun _ _ h1 => evictNc1_canon h1)
  exact ite_ok (evictM_canon hs1) (tidyPeer_canon (agentLoses_canon hs1))

theorem evictL1d_canon {core l} (h : Canon p s) : Canon p (evictL1d s core l) :=
  dropL1d_canon (evictNc1_canon h)

/-! ## Caches: Lines that enter (R47-R50, R97) -/

theorem fitL2_canon {cl l} (h : Canon p s) : Canon p (fitL2 s cl l) := by
  unfold fitL2
  exact foldl_ok h fun _ _ h1 => by
    refine ite_ok ?_ ?_
    · exact h1
    · split
      · exact evictL2_canon h1
      · exact h1

theorem wayL2_canon {cl l hint own} (h : Canon p s) : Canon p (wayL2 s cl l hint own) := by
  unfold wayL2
  refine ite_ok ?_ ?_
  · exact setL2_canon h
  · extract_lets +onlyGivenNames s1
    have hs1 : Canon p s1 := by
      unfold s1
      refine ite_ok ?_ ?_
      · exact h
      · split
        · exact evictL2_canon h
        · exact h
    exact ite_ok (setL2_canon hs1) hs1

theorem putL2_canon {cl l hint own st} (h : Canon p s) : Canon p (putL2 s cl l hint own st) :=
  modCoh_canon (wayL2_canon h) fun _ h1 => setCache_canon h1

theorem useL1d_canon {core l hint own} (h : Canon p s) : Canon p (useL1d s core l hint own) := by
  unfold useL1d
  refine ite_ok ?_ ?_
  · exact modCoh_canon (setL1d_canon h) fun _ h1 => setCache_canon h1
  · refine ite_ok ?_ ?_
    · exact h
    · extract_lets +onlyGivenNames s1
      have hs1 : Canon p s1 := by
        unfold s1
        refine ite_ok ?_ ?_
        · exact h
        · split
          · exact evictL1d_canon h
          · exact h
      exact modCoh_canon (setL1d_canon hs1) fun _ h2 => setCache_canon h2

theorem useL1Nc_canon {core l hint} (h : Canon p s) : Canon p (useL1Nc s core l hint) := by
  unfold useL1Nc
  refine ite_ok ?_ ?_
  · exact setL1d_canon h
  · refine ite_ok ?_ ?_
    · exact h
    · extract_lets +onlyGivenNames s1
      have hs1 : Canon p s1 := by
        unfold s1
        refine ite_ok ?_ ?_
        · exact h
        · split
          · exact evictL1d_canon h
          · exact h
      exact setL1d_canon hs1

theorem ncWays_canon {hart lvl l hint} (h : Canon p s) : Canon p (ncWays s hart lvl l hint) := by
  unfold ncWays
  extract_lets +onlyGivenNames s1
  have hs1 : Canon p s1 := ite_ok (wayL2_canon h) h
  exact ite_ok (useL1Nc_canon hs1) hs1

theorem useL1i_canon {core l} (h : Canon p s) : Canon p (useL1i s core l) := by
  unfold useL1i
  refine ite_ok ?_ ?_
  · exact setL1i_canon h
  · extract_lets +onlyGivenNames s1
    have hs1 : Canon p s1 := by
      unfold s1
      refine ite_ok ?_ ?_
      · exact h
      · split
        · exact dropL1i_canon h
        · exact h
    exact modCoh_canon (setL1i_canon hs1) fun _ h1 => setCache_canon h1

theorem soleL1_canon {core l tile} (h : Canon p s) : Canon p (soleL1 s core l tile) :=
  foldl_ok h fun _ _ h1 => ite_ok (ite_ok h1 (dropL1i_canon h1)) (dropL1d_canon (ite_ok h1 (dropL1i_canon h1)))

theorem dropSpec_canon {core ls} (h : Canon p s) : Canon p (dropSpec s core ls) :=
  foldl_ok h fun _ _ h1 => ite_ok h1 (dropL1d_canon h1)

theorem holdPosted_canon {l} (h : Canon p s) : Canon p (holdPosted s l) :=
  ite_ok (modCoh_canon (putLlc_canon h) fun _ h1 => h1) h

/-! ## Squash: Chunks in flight (R122-R126) -/

/-- The chunks of a hart, the open one last. -/
theorem hartChunks_ok {x} (hx : HartOk p x) : ∀ c ∈ x.inflight ++ [x.chunk], ChunkOk p c :=
  List.forall_mem_append.2 ⟨hx.inflight, List.forall_mem_singleton.2 hx.chunk⟩

theorem openChunks_canon {i} (h : Canon p s) : ∀ c ∈ openChunks s i, ChunkOk p c :=
  fun _ hc => hartChunks_ok (getHart_canon h) _ (List.mem_of_mem_drop hc)

theorem admittedChunks_canon {hart} (h : Canon p s) : ∀ x ∈ admittedChunks s hart, ChunkOk p x :=
  fun _ hk => ((getHart_canon h).inflight) _ (List.mem_of_mem_take hk)

theorem dropOp_canon {c op} (hc : ClusterOk p c) : ClusterOk p (dropOp c op) := by
  unfold dropOp
  split
  · exact hc
  extract_lets _
  split
  next heq =>
    have he := hc.each _ (List.mem_of_find?_eq_some heq)
    exact hc.put _ (ite_ok he he)
  · exact hc

theorem withdraw_canon {hart gone} (h : Canon p s) : Canon p (withdraw s hart gone) :=
  modCluster_canon h fun _ h1 => foldl_ok h1 fun _ _ h2 => dropOp_canon h2

theorem askSolo_canon {hart} (h : Canon p s) : Canon p (askSolo s hart) :=
  ite_ok h h

theorem grantSolo_canon (h : Canon p s) : Canon p (grantSolo s) := by
  unfold grantSolo
  split <;> exact h

theorem leaveQueue_canon {hart} (h : Canon p s) : Canon p (leaveQueue s hart) :=
  h

theorem rewind_canon {hart j save chunk} (h : Canon p s) (hsave : ArchOk p save) (hchunk : ChunkOk p chunk) : Canon p
    (rewind s hart j save chunk) := by
  unfold rewind
  extract_lets +onlyGivenNames _ _ s1
  have hs1 : Canon p s1 := setHart_canon h { arch := hsave, chunk := hchunk, inflight := fun _ hk => (getHart_canon h).inflight _
                                               (List.mem_of_mem_take hk) }
  exact dropSpec_canon (withdraw_canon (ite_ok hs1 hs1))

theorem squashFrom_canon {hart j counts} (h : Canon p s) : Canon p (squashFrom s hart j counts) := by
  unfold squashFrom
  extract_lets +onlyGivenNames x
  have hx : HartOk p x := getHart_canon h
  split
  · exact h
  next he =>
    extract_lets +onlyGivenNames _ save s1
    have hsave : ArchOk p save := ite_ok hx.arch (((List.forall_mem_append.2
        ⟨hx.inflight, List.forall_mem_cons.2 ⟨hx.chunk, (List.forall_mem_nil _)⟩⟩) _ (List.mem_of_getElem? he)).save)
    have hs1 : Canon p s1 := rewind_canon h hsave (chunkFresh_canon hsave)
    exact modHart_canon (ite_ok hs1 (modHart_canon hs1 fun _ h1 => h1)) fun _ h2 => h2

theorem squashIn_canon {scope f} (h : Canon p s) : Canon p (squashIn s scope f) := by
  unfold squashIn
  exact foldl_ok h fun _ _ h1 => ite_ok (by
    split
    · exact squashFrom_canon h1
    · exact h1) h1

theorem squashWhere_canon {but f} (h : Canon p s) : Canon p (squashWhere s but f) :=
  squashIn_canon h

theorem snoopIn_canon {scope own l} (h : Canon p s) : Canon p (snoopIn s scope own l) :=
  squashIn_canon h

theorem snoop_canon {but own l} (h : Canon p s) : Canon p (snoop s but own l) :=
  snoopIn_canon h

end Sys2Proof.Machine
end

