-- ==== Sys2Proof/Proofs/CanonDirectory.lean ====
section
/-!
PROOFS. Canonical form: the directories and the coherence protocol, and the commit of chunks. Every operation that
answers a state keeps `Canon`, one lemma for each operation, named after it.
-/

namespace Sys2Proof.Machine

variable {p : Part} {s t : State}

/-! ## Directory: Tether (R99) -/

theorem offer_canon {d src i} (h : Canon p s) : Canon p (offer s d src i) :=
  modDie_canon h fun _ h1 => h1

theorem accept_canon {d} (h : Canon p s) : Canon p (accept s d) :=
  modDie_canon h fun _ h1 => h1

theorem acceptAll_canon (h : Canon p s) : Canon p (acceptAll s) :=
  foldl_ok h fun _ _ h1 => ite_ok h1 (accept_canon h1)

theorem observed_canon (h : Canon p s) : ∀ x ∈ observed s, Canon p x.2 := by
  intro x hx
  obtain ⟨d, _, hd⟩ := List.exists_of_findSome?_eq_some hx
  split at hd
  · split at hd
    · cases hd
      exact modDie_canon h fun _ hy => hy
    · cases hd
  · cases hd

/-! ## Directory: A die's agents (R101) -/

theorem shareDie_canon {c d} (hc : LineOk p c) : LineOk p (shareDie c d) :=
  foldl_ok hc fun _ _ h1 => ite_ok (shareAgent_canon h1) h1

theorem setFill_canon {c f g} (hc : LineOk p c) : LineOk p (setFill c f g) :=
  hc

/-! ## Directory: Snoops and answers (R105, R111) -/

theorem snoopDie_canon {i l d} (h : Canon p s) : Canon p (snoopDie i l s d) :=
  offer_canon h

theorem snoopMod_canon {t code l m} (h : Canon p s) : Canon p (snoopMod t code l s m) :=
  send_canon h

theorem readHome_canon {l t} (h : Canon p s) : Canon p (readHome s l t) :=
  ite_ok h (readGranule_canon h)

theorem answerData_canon {t l excl} (h : Canon p s) : Canon p (answerData s t l excl) := by
  unfold answerData
  split
  · exact send_canon h
  · exact after_canon h

theorem complete_canon {t l e} (h : Canon p s) : Canon p (complete s t l e) := by
  unfold complete
  split
  · exact after_canon h
  · exact h

theorem setBusy_canon {l t} (h : Canon p s) : Canon p (setBusy s l t) :=
  modCoh_canon h fun _ h1 => h1

theorem setDir_canon {l e} (h : Canon p s) : Canon p (setDir s l e) :=
  modCoh_canon h fun _ h1 => h1

theorem enqueueFront_canon {l t} (h : Canon p s) : Canon p (enqueueFront s l t) :=
  modCoh_canon h fun _ h1 => h1

theorem startSnoops_canon {l t fwd other pfwd pother dies mods e} (h : Canon p s) : Canon p
    (startSnoops s l t fwd other pfwd pother dies mods e) :=
  foldl_ok (foldl_ok (setBusy_canon h) fun _ _ h1 => snoopDie_canon h1) fun _ _ h2 => snoopMod_canon h2

/-! ## Directory: The end of a transaction (R105, R107, R110) -/

theorem applyPosted_canon {l m} (h : Canon p s) : Canon p (applyPosted s l m) := by
  unfold applyPosted
  extract_lets +onlyGivenNames _ _ s1 s2 _ _ _ _
  have hs1 : Canon p s1 := ite_ok h (readGranule_canon h)
  have hs2 : Canon p s2 := ite_ok hs1 (ite_ok hs1 hs1)
  exact writeBackFor_canon (setDir_canon (mergeMem_canon { hs2 with lineTd := hs2.lineTd.put _ _ }))

theorem endTxn_canon {l t} (h : Canon p s) : Canon p (endTxn s l t) := by
  unfold endTxn
  extract_lets +onlyGivenNames _
  split
  · exact complete_canon (setDir_canon h)
  · exact complete_canon (setDir_canon h)
  · exact complete_canon (setDir_canon h)
  · exact complete_canon (setDir_canon h)
  · exact setDir_canon (ite_ok (answerData_canon (ite_ok h (readHome_canon h))) h)
  · split
    · exact applyPosted_canon h
    · exact h
  · split
    · exact setDir_canon h
    · exact h
  · exact setDir_canon h
  · exact h
  · extract_lets +onlyGivenNames s1
    have hs1 : Canon p s1 := setDir_canon h
    split
    · extract_lets +onlyGivenNames s2
      have hs2 : Canon p s2 := ite_ok (ite_ok (salvage_canon hs1) (writePeer_canon hs1)) hs1
      exact { hs2 with peers := by with_reducible exact hs2.peers.put _ _ }
    · exact hs1

theorem endNow_canon {l t} (h : Canon p s) : Canon p (endNow s l t) :=
  endTxn_canon (setBusy_canon h)

theorem answerSnoop_canon {l t} (h : Canon p s) : Canon p (answerSnoop s l t) := by
  unfold answerSnoop
  split
  · exact after_canon (setBusy_canon h)
  · exact setBusy_canon h

/-! ## Directory: The home of a line of the module (R105-R107, R110) -/

theorem homeShared_canon {l t e} (h : Canon p s) : Canon p (homeShared s l t e) :=
  ite_ok (foldl_ok (setBusy_canon (enqueueFront_canon h)) fun _ _ h1 => snoopMod_canon h1)
    (ite_ok (startSnoops_canon h) (ite_ok (answerData_canon (setDir_canon (readHome_canon h)))
    (answerData_canon (setDir_canon (readHome_canon h)))))

theorem homeOwned_canon {l t e} (h : Canon p s) : Canon p (homeOwned s l t e) := by
  unfold homeOwned
  refine ite_ok ?_ ?_
  · refine ite_ok ?_ ?_
    · exact complete_canon (setDir_canon h)
    · refine ite_ok ?_ ?_
      · extract_lets +onlyGivenNames s1
        have hs1 : Canon p s1 := setDir_canon h
        exact ite_ok (answerData_canon hs1) (complete_canon hs1)
      · extract_lets +onlyGivenNames _ _ s2
        have hs2 : Canon p s2 := answerData_canon (setDir_canon (readHome_canon h))
        exact ite_ok hs2 (complete_canon hs2)
  · refine ite_ok ?_ ?_
    · exact startSnoops_canon h
    · refine ite_ok ?_ ?_
      · exact ite_ok (startSnoops_canon h) (startSnoops_canon h)
      · extract_lets +onlyGivenNames s3
        have hs3 : Canon p s3 := startSnoops_canon h
        exact ite_ok (answerData_canon (readHome_canon hs3)) hs3

theorem homeOwn_canon {l t} (h : Canon p s) : Canon p (homeOwn s l t) := by
  unfold homeOwn
  extract_lets +onlyGivenNames _
  split
  · exact ite_ok (answerData_canon (ite_ok h (readHome_canon h))) (homeShared_canon h)
  · exact ite_ok (answerData_canon (ite_ok h (readHome_canon h))) (homeShared_canon h)
  · exact homeOwned_canon h
  · exact homeOwned_canon h
  · exact homeOwned_canon h
  · exact ite_ok (endNow_canon h) (startSnoops_canon h)
  · exact ite_ok (endNow_canon h) (startSnoops_canon h)
  · exact ite_ok (startSnoops_canon h) (endNow_canon h)
  all_goals exact h

/-! ## Directory: The peer agent of a line of another home (R108, R112) -/

theorem askHome_canon {code l t} (h : Canon p s) : Canon p (askHome s code l t) :=
  ite_ok h (request_canon h)

theorem dropFills_canon {l} (h : Canon p s) : Canon p (dropFills s l) :=
  wakeCommands_canon (modCoh_canon h fun _ h1 => h1)

theorem homeAgent_canon {l t} (h : Canon p s) : Canon p (homeAgent s l t) := by
  unfold homeAgent
  extract_lets +onlyGivenNames _ ask
  split
  · exact ite_ok (endNow_canon h) (startSnoops_canon h)
  · split
    · exact ite_ok (dropFills_canon h) (askHome_canon (enqueueFront_canon h))
    · exact ite_ok (ite_ok (dropFills_canon h) (askHome_canon (enqueueFront_canon h)))
        (ite_ok (startSnoops_canon h) (ite_ok (answerData_canon (setDir_canon h)) (answerData_canon (setDir_canon h))))
  · split
    · exact ite_ok (dropFills_canon h) (askHome_canon (enqueueFront_canon h))
    · refine ite_ok ?_ ?_
      · exact ite_ok (dropFills_canon h) (askHome_canon (enqueueFront_canon h))
      · extract_lets +onlyGivenNames s1
        have hs1 : Canon p s1 := { h with peers := by with_reducible exact h.peers.put _ _ }
        refine ite_ok ?_ ?_
        · extract_lets +onlyGivenNames s2
          have hs2 : Canon p s2 := setDir_canon hs1
          exact ite_ok (complete_canon hs2) (answerData_canon hs2)
        · extract_lets +onlyGivenNames s3
          have hs3 : Canon p s3 := startSnoops_canon hs1
          exact ite_ok (answerData_canon hs3) hs3
  · split
    · exact ite_ok (dropFills_canon h) (askHome_canon (enqueueFront_canon h))
    · refine ite_ok ?_ ?_
      · exact ite_ok (dropFills_canon h) (askHome_canon (enqueueFront_canon h))
      · extract_lets +onlyGivenNames s4
        have hs4 : Canon p s4 := { h with peers := by with_reducible exact h.peers.put _ _ }
        refine ite_ok ?_ ?_
        · extract_lets +onlyGivenNames s5
          have hs5 : Canon p s5 := setDir_canon hs4
          exact ite_ok (complete_canon hs5) (answerData_canon hs5)
        · extract_lets +onlyGivenNames s6
          have hs6 : Canon p s6 := startSnoops_canon hs4
          exact ite_ok (answerData_canon hs6) hs6
  all_goals exact h

theorem homeStart_canon {l t} (h : Canon p s) : Canon p (homeStart s l t) :=
  ite_ok (homeOwn_canon h) (homeAgent_canon h)

/-! ## Directory: The capacity of the snoop filter (R103, R106, R108; assumption log, entry 32) -/

theorem homeAdmit_canon {l t} (h : Canon p s) : Canon p (homeAdmit s l t) := by
  unfold homeAdmit
  refine ite_ok ?_ ?_
  · exact awaitStack_canon (enqueueFront_canon h)
  · refine ite_ok ?_ ?_
    · refine ite_ok ?_ ?_
      · exact enqueueFront_canon h
      · split
        · extract_lets +onlyGivenNames u
          have hu : Canon p u := homeStart_canon h
          exact ite_ok (enqueueFront_canon hu) (homeStart_canon hu)
        · exact enqueueFront_canon h
    · exact homeStart_canon h

theorem homeRequest_canon {l t} (h : Canon p s) : Canon p (homeRequest s l t) :=
  ite_ok (modCoh_canon h fun _ h1 => h1) (homeAdmit_canon h)

theorem homeNext_canon {s : State} {l i} (h : Canon p s) : Canon p (homeNext l i s) := by
  unfold homeNext
  split
  · exact h
  · extract_lets +onlyGivenNames _
    split
    · extract_lets +onlyGivenNames s1
      have hs1 : Canon p s1 := homeAdmit_canon (modCoh_canon h fun _ h1 => h1)
      exact ite_ok (homeNext_canon hs1) hs1
    · exact h

theorem homeGo_canon {l} (h : Canon p s) : Canon p (homeGo s l) :=
  homeNext_canon h

theorem homeWake_canon {l} (h : Canon p s) : Canon p (homeWake s l) :=
  foldl_ok h fun _ _ h1 => homeGo_canon h1

theorem homeFinish_canon {l} (h : Canon p s) : Canon p (homeFinish s l) := by
  unfold homeFinish
  split
  · exact h
  · exact ite_ok (answerSnoop_canon h) (homeWake_canon (homeGo_canon (endTxn_canon (setBusy_canon h))))

theorem homeAnswer_canon {l} (h : Canon p s) : Canon p (homeAnswer s l) := by
  unfold homeAnswer
  split
  · exact h
  · exact ite_ok (setBusy_canon h) (ite_ok (startSnoops_canon h) (homeFinish_canon h))

/-! ## Directory: The data that a cluster has waited for (R97, R100, R101) -/

theorem markArrived_canon {l hart} (h : Canon p s) : Canon p (markArrived l s hart) := by
  unfold markArrived
  split
  · exact modHart_canon h fun _ h1 => { h1 with chunk := h1.chunk }
  · exact h

theorem finishFill_canon {d l st} (h : Canon p s) : Canon p (finishFill s d l st) := by
  unfold finishFill
  split
  · exact h
  · extract_lets +onlyGivenNames _ llc _ filled s1 s2 s3 s4
    have hllc (s : State) (st : Moesi) (hs : Canon p s) : Canon p (llc s st) := ite_ok (putLlc_canon hs) hs
    have hfilled : Canon p filled := ite_ok (hllc _ _ h) (ite_ok (putL2_canon h) (hllc _ _ (putL2_canon h)))
    have hs3 : Canon p s3 :=
      foldl_ok (foldl_ok (modCoh_canon hfilled fun _ hc => hc) fun _ _ hs => markArrived_canon hs)
        fun _ _ hs => ite_ok hs (useL1i_canon hs)
    have hs4 : Canon p s4 := by
      unfold s4
      split
      · exact after_canon (modCoh_canon hs3 fun _ hc => hc)
      · exact hs3
    exact wakeCommands_canon hs4

theorem dataArrive_canon {d l excl} (h : Canon p s) : Canon p (dataArrive s d l excl) := by
  unfold dataArrive
  split
  · exact h
  · exact ite_ok (modCoh_canon h fun _ h1 => setFill_canon h1) (finishFill_canon h)

/-! ## Directory: Steps of the protocol (R98, R100-R102, R105, R106) -/

theorem waitInOrder_canon {i} (h : Canon p s) : Canon p (waitInOrder s i) :=
  after_canon h

theorem observe_canon {i} (h : Canon p s) : Canon p (observe s i) := by
  unfold observe
  refine ite_ok ?_ ?_
  · exact modCoh_canon h fun _ h1 => h1
  · refine ite_ok ?_ ?_
    · exact modCoh_canon h fun _ h2 => h2
    · refine ite_ok ?_ ?_
      · exact waitInOrder_canon h
      · extract_lets +onlyGivenNames s1
        have hs1 : Canon p s1 := snoopIn_canon h
        refine ite_ok ?_ ?_
        · exact after_canon (modCoh_canon (dropDie_canon hs1) fun _ h3 => h3)
        · split
          · refine ite_ok ?_ ?_
            · exact after_canon (modCoh_canon (modCoh_canon hs1 fun _ h4 => shareDie_canon h4) fun _ h5 => h5)
            · extract_lets +onlyGivenNames s2
              have hs2 : Canon p s2 := dropDie_canon hs1
              exact ite_ok (after_canon (modCoh_canon hs2 fun _ h6 => h6)) (after_canon (modCoh_canon hs2 fun _ h7 => h7))
          · exact ite_ok (after_canon (modCoh_canon (dropDie_canon hs1) fun _ h8 => h8)) (after_canon (modCoh_canon hs1 fun _ h9 => h9))

theorem homeSnoop_canon {i d l} (h : Canon p s) : Canon p (homeSnoop s i d l) := by
  unfold homeSnoop
  extract_lets +onlyGivenNames _ _ _ _ _ _
  split
  · split
    · extract_lets +onlyGivenNames s1
      have hs1 : Canon p s1 := modCoh_canon h fun _ h1 => shareDie_canon h1
      exact after_canon (ite_ok (writeBack_canon hs1) (ite_ok hs1 (answerData_canon hs1)))
    · exact ite_ok (after_canon (ite_ok (writeBack_canon h) (ite_ok h (answerData_canon h)))) (after_canon h)
  · extract_lets +onlyGivenNames s2
    have hs2 : Canon p s2 := dropDie_canon h
    exact ite_ok (after_canon (ite_ok (writeBack_canon hs2) (ite_ok hs2 (answerData_canon hs2)))) (after_canon hs2)
  · exact after_canon (dropDie_canon (ite_ok (writeBack_canon h) h))
  · extract_lets +onlyGivenNames s3
    have hs3 : Canon p s3 := dropDie_canon h
    exact after_canon (ite_ok (after_canon (modCoh_canon hs3 fun _ h2 => h2)) hs3)

theorem homeWritten_canon {d l} (h : Canon p s) : Canon p (homeWritten s d l) :=
  ite_ok (writeBackFor_canon (ite_ok h (ite_ok (setDir_canon h) (setDir_canon h)))) (after_canon h)

theorem homeMiss_canon {l} (h : Canon p s) : Canon p (homeMiss s l) := by
  unfold homeMiss
  split
  · exact h
  · exact homeAnswer_canon (ite_ok h (answerData_canon (ite_ok (readHome_canon h) h)))

theorem cohStep_canon {i} (h : Canon p s) : Canon p (cohStep i s) := by
  unfold cohStep
  extract_lets +onlyGivenNames _ _
  split
  · exact observe_canon h
  · exact observe_canon h
  · exact ite_ok (homeRequest_canon h) (observe_canon h)
  · exact homeRequest_canon h
  · exact homeRequest_canon h
  · exact ite_ok (after_canon h) (homeSnoop_canon (snoopIn_canon h))
  · exact ite_ok (after_canon h) (homeSnoop_canon (snoopIn_canon h))
  · exact ite_ok (after_canon h) (homeSnoop_canon (snoopIn_canon h))
  · exact ite_ok (after_canon h) (homeSnoop_canon (snoopIn_canon h))
  · exact homeAnswer_canon (ite_ok (modCoh_canon h fun _ h1 => h1) h)
  · exact homeAnswer_canon h
  · exact homeMiss_canon h
  · exact dataArrive_canon h
  · exact dataArrive_canon h
  · exact ite_ok (finishFill_canon h) h
  · exact evictM_canon h
  · exact homeWritten_canon h
  · exact ite_ok (after_canon h) (homeGo_canon (modCoh_canon h fun _ h2 => h2))
  · exact h

/-! ## Directory: How a cluster comes to hold a line (R97, R99) -/

theorem askFor_canon {hart cl l hint td kind code} (h : Canon p s) : Canon p (askFor s hart cl l hint td kind code) := by
  unfold askFor
  extract_lets +onlyGivenNames _
  split
  · exact ite_ok h (modCoh_canon h fun _ h1 => setFill_canon h1)
  · exact offer_canon (modCoh_canon h fun _ h2 => h2)

theorem askLine_canon {hart cl l hint td kind} (h : Canon p s) : Canon p (askLine s hart cl l hint td kind) :=
  askFor_canon h

theorem toM_canon {cl l} (h : Canon p s) : Canon p (toM s cl l) :=
  modCoh_canon (ite_ok h (agentLoses_canon h)) fun _ h1 => setCache_canon h1

/-! ## Chunks: Shared handles (R60-R63, R423) -/

theorem setShared_canon {cl key x} (h : Canon p s) : Canon p (setShared s cl key x) :=
  modCluster_canon h fun _ h1 => h1

theorem squashShared_canon {cl key step} (h : Canon p s) : Canon p (squashShared s cl key step) :=
  squashWhere_canon h

theorem applyShStep_canon {cl key t} (h : Canon p s) : Canon p (applyShStep s cl key t) :=
  squashShared_canon (setShared_canon h)

/-! ## Chunks: Multicast requests (R143, R168) -/

theorem holdOp_canon {grp o} (h : Canon p s) : Canon p (holdOp s grp o) := by
  unfold holdOp
  extract_lets +onlyGivenNames _ _ s1
  have hs1 : Canon p s1 := modGroup_canon h
  exact ite_ok (request_canon hs1) hs1

/-! ## Chunks: Start counters (R211) -/

theorem wakeNodes_canon {pas} (h : Canon p s) : Canon p (wakeNodes s pas) := by
  refine ite_ok h (foldl_ok h fun t d ht => ite_ok (modDie_canon ht fun _ hx => { hx with pool := ?_ }) ht)
  have pool : ∀ n ∈ (getDie t d).pool, NodeOk p n := (getDie_canon ht).pool
  refine List.forall_mem_append.2 ⟨fun n hn => pool n (List.mem_of_mem_filter hn), List.forall_mem_map.2 fun n hn => ?_⟩
  exact pool n (List.mem_of_mem_filter hn)

/-! ## Chunks: Commit (R125) -/

theorem commitOp_canon {hart o} (h : Canon p s) : Canon p (commitOp hart s o) := by
  unfold commitOp
  split
  · exact modHart_canon (modCluster_canon h fun _ h1 => h1) fun _ h2 => h2
  · exact applyShStep_canon h
  · exact holdOp_canon (modHart_canon h fun _ h3 => h3)
  · exact modHart_canon h fun _ h4 => touchDev_canon h4
  all_goals exact h

theorem writeOwn_canon {hart l d m} (h : Canon p s) : Canon p (writeOwn s hart l d m) := by
  unfold writeOwn
  extract_lets +onlyGivenNames s1
  have hs1 : Canon p s1 := mergeMem_canon h
  exact ite_ok (modCoh_canon hs1 fun _ h1 => setCache_canon h1) (ite_ok (writeBack_canon hs1) hs1)

theorem writeCommitted_canon {hart l d m} (h : Canon p s) : Canon p (writeCommitted s hart l d m) :=
  ite_ok (writeOwn_canon h) (holdPosted_canon (commitPeer_canon (ite_ok (dropL1s_canon h) h)))

theorem commitLine_canon {hart c l} (h : Canon p s) : Canon p (commitLine hart c s l) := by
  unfold commitLine
  split
  extract_lets +onlyGivenNames _
  split
  · exact ncStore_canon (ncWays_canon (ite_ok (evictNc1_canon h) h))
  · exact writeCommitted_canon h

theorem commitChunk_canon {hart c} (h : Canon p s) : Canon p (commitChunk s hart c) :=
  modHart_canon (wakeNodes_canon (foldl_ok (foldl_ok h fun _ _ h1 => commitLine_canon h1) fun _ _ h2 => commitOp_canon h2)) fun _ h3 => h3

/-! ## Chunks: Cornice (R122-R125) -/

theorem closeChunk_canon (h : Canon p s) : Canon p (closeChunk s) :=
  updHart_canon h fun _ hx =>
    { hx with
      chunk := chunkFresh_canon hx.arch
      inflight := ite_ok (P := fun l => ∀ c ∈ l, ChunkOk p c) hx.inflight (hartChunks_ok hx) }

theorem toPresent_canon {hart} (h : Canon p s) : ∀ x ∈ toPresent s hart, ChunkOk p x :=
  fun _ hk => ((getHart_canon h).inflight) _ (List.mem_of_getElem? hk)

/-! ## Chunks: Truncation (R121, R371, R394) -/

theorem chunkCutAt_canon {c k} (hc : ChunkOk p c) : ChunkOk p (Chunk.cutAt c k) :=
  { hc with cuts := fun _ hk => hc.cuts _ ((List.takeWhile_sublist _).subset hk) }

theorem hartCut_canon {x op} (hx : HartOk p x) : ArchOk p (Hart.cut x op).arch :=
  hx.arch

theorem cutsOf_canon {i} (h : Canon p s) : ∀ x ∈ cutsOf s i, ChunkOk p x.2.1 ∧ ArchOk p x.2.2.arch := by
  intro x hx
  obtain ⟨c, hc, hx⟩ := List.mem_flatMap.1 hx
  obtain ⟨k, hk, rfl⟩ := List.mem_map.1 hx
  obtain ⟨j, hj, rfl⟩ := List.mem_mapIdx.1 (List.mem_of_mem_drop hc)
  have hc := hartChunks_ok (getHart_canon h) _ (List.getElem_mem hj)
  exact ⟨hc, hc.cuts k hk⟩

theorem cutPoint_canon {i} (h : Canon p s) : ∀ x ∈ cutPoint s i, ChunkOk p x.2.1 ∧ ArchOk p x.2.2.arch :=
  fun _ hx => cutsOf_canon h _ (List.mem_reverse.1 ((List.takeWhile_sublist _).subset (List.mem_of_getLast? hx)))

theorem cutBack_canon (h : Canon p s) : Canon p (cutBack s) := by
  unfold cutBack
  split
  next he => exact rewind_canon h (((cutPoint_canon h) _ he).2) (chunkCutAt_canon (((cutPoint_canon h) _ he).1))
  · exact h

end Sys2Proof.Machine
end

