-- ==== Sys2Proof/Proofs/CanonAccess.lean ====
section
/-!
PROOFS. Canonical form: translation, the control region, the accesses of instructions and their frames. Every
operation that answers a state keeps `Canon`, one lemma for each operation, named after it.
-/

namespace Sys2Proof.Machine

variable {p : Part} {s t : State}

/-! ## Translate: TLBs (R37) -/

theorem tlb1Put_canon {core e} (h : Canon p s) : Canon p (tlb1Put s core e) :=
  modCore_canon h

theorem tlbPut_canon {core e} (h : Canon p s) : Canon p (tlbPut s core e) :=
  modCore_canon (tlb1Put_canon h)

theorem tlbFind_canon {core asid va} (h : Canon p s) : ResOk p (tlbFind s core asid va) := by
  unfold tlbFind
  extract_lets +onlyGivenNames _
  split
  · exact h
  · split
    · exact tlb1Put_canon h
    · exact h

/-! ## Translate: Walks (R27, R31, R37-R39) -/

theorem walkPut_canon {cl e} (h : Canon p s) : Canon p (walkPut s cl e) :=
  modCluster_canon h fun _ hc => walkCache_ok hc

theorem walkDrop_canon {cl pa} (h : Canon p s) : Canon p (walkDrop s cl pa) :=
  modCluster_canon h fun _ h1 => h1

theorem walkFrom_canon {cl va i j} (h : Canon p s) : ResOk p (walkFrom cl va i j s) := by
  induction i generalizing j s with
  | zero =>
    unfold walkFrom
    extract_lets _ _ _ keep
    have hkeep (s : State) (hs : Canon p s) : Canon p (keep s) := ite_ok hs (walkPut_canon hs)
    exact ite_ok h (ite_ok h (ite_ok h (ite_ok (ite_ok (hkeep s h) h) h)))
  | succ i ih =>
    unfold walkFrom
    extract_lets _ _ _ keep
    have hkeep (s : State) (hs : Canon p s) : Canon p (keep s) := ite_ok hs (walkPut_canon hs)
    exact ite_ok h (ite_ok h (ite_ok h (ite_ok (ite_ok (hkeep s h) h) (ite_ok (ih (hkeep s h)) h))))

theorem walk_canon {cl root va} (h : Canon p s) : ResOk p (walk s cl root va) :=
  walkFrom_canon h

theorem updateLeaf_canon {cl addr old new} (h : Canon p s) : ResOk p (updateLeaf s cl addr old new) := by
  unfold updateLeaf
  refine ite_ok ?_ ?_
  · exact h
  · refine ite_ok ?_ ?_
    · exact h
    · refine ite_ok ?_ ?_
      · exact walkDrop_canon h
      · refine ite_ok ?_ ?_
        · exact h
        · extract_lets +onlyGivenNames s1 s2
          have hs1 : Canon p s1 := toM_canon (snoop_canon h)
          have hs2 : Canon p s2 := ite_ok (walkPut_canon hs1) hs1
          exact { hs2 with mem := hs2.mem.writeBytes _ _ _ }

/-! ## Translate: The checks (R17, R35, R422) -/

theorem walkFor_canon {w r a va} (h : Canon p s) : ResOk p (walkFor w r a va s) := by
  unfold walkFor
  extract_lets +onlyGivenNames _
  split
  next e1 =>
    have k1 := canon_of_eq (walk_canon h) e1
    split
    next e2 =>
      split
      · exact updateLeaf_canon (canon_of_eq (updateLeaf_canon k1) e2)
      · exact canon_of_eq (updateLeaf_canon k1) e2
    · exact updateLeaf_canon k1
  · exact walk_canon h

theorem askWalk_canon {w cmd r a va} (h : Canon p s) : Canon p (askWalk s w cmd r a va) := by
  unfold askWalk
  exact modCluster_canon h fun _ h1 => ite_ok h1 (by
    split
    · exact h1
    · exact h1)

theorem modWalked_canon {hart cmd f} (h : Canon p s) : Canon p (modWalked s hart cmd f) :=
  modHart_canon h fun _ h1 => ite_ok h1 h1

theorem walkMore_canon {w cmd r a va} (h : Canon p s) : ResOk p (walkMore s w cmd r a va) :=
  askWalk_canon (modWalked_canon h)

theorem useLeaf_canon {w cmd r a va e} (h : Canon p s) : ResOk p (useLeaf s w cmd r a va e) := by
  unfold useLeaf
  split
  · exact ite_ok (walkMore_canon h) h
  · exact h

theorem lookup_canon {w cmd r a va} (h : Canon p s) : ResOk p (lookup s w cmd r a va) := by
  unfold lookup
  split
  · exact useLeaf_canon h
  · exact h
  · refine ite_ok ?_ ?_
    · exact walkMore_canon h
    · split
      next he => exact useLeaf_canon (canon_of_eq (tlbFind_canon h) he)
      next he => exact walkMore_canon (canon_of_eq (tlbFind_canon h) he)

theorem translate_canon {w r a} (h : Canon p s) : ResOk p (translate s w r a) :=
  ite_ok h (ite_ok h (ite_ok h (ite_ok h (lookup_canon h))))

/-! ## Control: ustat (R358, R393) -/

theorem swapNamed_canon {a} (ha : ArchOk p a) : ArchOk p (swapNamed a) :=
  ha.of_tiles (by simp only [swapNamed])

theorem ustatImage_canon {x v} (hx : HartOk p x) : HartOk p (ustatImage x v) :=
  { hx with arch := (ite_ok (swapNamed_canon hx.arch) hx.arch) }

theorem withBank_canon {a bank} (ha : ArchOk p a) : ArchOk p (withBank a bank).1 :=
  ha.of_tiles (by simp only [withBank])

/-! ## Control: Control registers that the hart's own state holds (R10, R361) -/

theorem csrStore_canon {a n v} (ha : ArchOk p a) : ArchOk p (csrStore a n v) := by
  unfold csrStore
  split
  · exact ha
  · exact ha
  · exact ha
  · exact ha
  · exact ha
  · exact ha
  · exact ha
  · exact ha
  · exact ha
  · exact ha
  · exact ha
  · exact ha
  · exact ha
  · exact ha
  · exact ha
  · exact ite_ok ha (ite_ok ha (ite_ok ha ha))

/-! ## Control: Local offsets (R411) -/

theorem ctlLoad_canon {m off} (h : Canon p s) : ResOk p (ctlLoad s m off) := by
  unfold ctlLoad ResOk
  dsimp only
  split
  · exact spend_canon h
  · exact h

theorem mgmtWrite_canon {o v} (h : Canon p s) : Canon p (mgmtWrite s o v) :=
  ite_ok h (ite_ok (modDie_canon h fun _ h1 => h1) h)

theorem hbmWrite_canon {n o v} (h : Canon p s) : Canon p (hbmWrite s n o v) :=
  ite_ok (modHbm_canon h fun _ h1 => h1) (ite_ok (modHbm_canon h fun _ h2 => h2)
    (ite_ok (modHbm_canon h fun _ h3 => h3) (ite_ok (modHbm_canon h fun _ h4 => h4) (ite_ok (after_canon h) h))))

theorem groupWrite_canon {n k v} (h : Canon p s) : Canon p (groupWrite s n k v) := by
  unfold groupWrite
  extract_lets +onlyGivenNames _
  split
  · extract_lets +onlyGivenNames s1
    have hs1 : Canon p s1 := ite_ok (modGroup_canon h) h
    split
    · exact after_canon hs1
    · exact after_canon hs1
    · exact after_canon hs1
    · exact hs1
  · exact ite_ok (modGroup_canon h) h
  · exact ite_ok (modGroup_canon h) h
  · exact ite_ok (modGroup_canon h) h
  · exact h

theorem fabricWrite_canon {o v} (h : Canon p s) : Canon p (fabricWrite s o v) :=
  ite_ok h (ite_ok h (ite_ok h (ite_ok h (ite_ok (modPort_canon h) (ite_ok (groupWrite_canon h) h)))))

theorem intWrite_canon {m o v} (h : Canon p s) : Canon p (intWrite s m o v) :=
  ite_ok (ite_ok h h) (ite_ok h (ite_ok h (ite_ok h
    (ite_ok (events_canon (modHart_canon h fun _ hx => hx)) (ite_ok (modHart_canon h fun _ hx => hx) h)))))

theorem slotWrite_canon {hart m o v} (h : Canon p s) : Canon p (slotWrite s hart m o v) :=
  ite_ok (modHart_canon h fun _ h1 => { h1 with arch := h1.arch }) (ite_ok (modHart_canon h fun _ h2 => { h2 with arch := h2.arch })
    (ite_ok (modHart_canon h fun _ h3 => ustatImage_canon h3) (ite_ok h
    (ite_ok (modHart_canon h fun _ h4 => { h4 with arch := h4.arch })
    (ite_ok (modHart_canon h fun _ h5 => { h5 with arch := h5.arch }) h)))))

theorem salvageFields_canon {b z t o e} (h : Canon p s) :
    Canon p { s with salvBase := b, salvSz := z, salvTail := t, salvOvf := o, salvEn := e } := h

theorem ctlWrite_canon {m off v} (h : Canon p s) : Canon p (ctlWrite s m off v) := by
  unfold ctlWrite
  extract_lets o
  exact
    ite_ok (mgmtWrite_canon h) (ite_ok (hbmWrite_canon h) (ite_ok (ite_ok h h)
    (ite_ok (salvageFields_canon h) (ite_ok (salvageFields_canon h) (ite_ok (salvageFields_canon h) (ite_ok (fabricWrite_canon h)
    (ite_ok (intWrite_canon h) (ite_ok (ite_ok (slotWrite_canon (spend_canon h)) (slotWrite_canon h)) h))))))))

/-! ## Ops: Marks and room (R49, R97, R118) -/

theorem modChunk_canon {f} (h : Canon p s) (hf : ∀ x, ChunkOk p x → ChunkOk p (f x)) : Canon p (modChunk s f) :=
  updHart_canon h fun _ h1 => { h1 with chunk := hf _ h1.chunk }

theorem noteUsed_canon {u} (h : Canon p s) : Canon p (noteUsed s u) := by
  unfold noteUsed
  split
  · exact modChunk_canon h fun _ h1 => ite_ok h1 h1
  · exact h

theorem markRead_canon {l} (h : Canon p s) : Canon p (markRead s l) :=
  modChunk_canon h fun _ h1 => h1

theorem markWrite_canon {l} (h : Canon p s) : Canon p (markWrite s l) :=
  modChunk_canon h fun _ h1 => h1

theorem withLines_canon {tile ls} (h : Canon p s) : Canon p (withLines s tile ls) :=
  modChunk_canon h fun _ h1 => h1

theorem withRoom_canon {α : Type} {k : State → State × Res α} {tile ls}
    (h : Canon p s) (hk : ∀ x, Canon p x → ResOk p (k x)) : ResOk p (withRoom s tile ls k) := by
  unfold withRoom
  split
  · exact hk _ h
  · exact h
  · exact h
  · exact ite_ok (P := Canon p) (askSolo_canon h) h

/-! ## Ops: Reaching a line (R97, R98, R108, R109, R112, R135, R155) -/

theorem meet_canon {g own l k} (h : Canon p s) (hk : ∀ x, Canon p x → Canon p (k x)) : ResOk p (meet s g own l k) :=
  ite_ok h (hk _ (snoop_canon h))

theorem fetchLine_canon {g u l} (h : Canon p s) : ResOk p (fetchLine s g u l) := by
  unfold fetchLine
  extract_lets +onlyGivenNames _ s1
  have hs1 : Canon p s1 := ite_ok (squashIn_canon h) h
  exact ite_ok (ite_ok hs1 hs1) (askLine_canon hs1)

theorem viaCluster_canon {g u l} (h : Canon p s) : ResOk p (viaCluster s g u l) :=
  ite_ok (meet_canon h fun _ h1 => ite_ok (toM_canon h1) h1) (fetchLine_canon h)

theorem reachCluster_canon {u l td} (h : Canon p s) : ResOk p (reachCluster s u l td) :=
  ite_ok h (viaCluster_canon h)

theorem dropOthers_canon {cl l} (h : Canon p s) : Canon p (dropOthers s cl l) :=
  foldl_ok h fun _ _ h1 => ite_ok h1 (agentLoses_canon h1)

theorem reachPeerBy_canon {g whole u l mask a} (h : Canon p s) (hwhole : ∀ x y, Canon p x → ResOk p (whole x y)) : ResOk p
    (reachPeerBy s g whole u l mask a) := by
  unfold reachPeerBy
  extract_lets +onlyGivenNames _ _ _ _
  split
  · exact ite_ok (hwhole _ _ h) (ite_ok (meet_canon h fun _ h1 => h1) (ite_ok h (fetchLine_canon h)))
  · exact ite_ok (ite_ok (hwhole _ _ h) (meet_canon h fun _ h2 => h2))
      (ite_ok h (ite_ok (fetchLine_canon h) (meet_canon h fun _ h3 => dropOthers_canon h3)))
  · exact ite_ok (ite_ok (hwhole _ _ h) (meet_canon h fun _ h4 => h4))
      (ite_ok h (ite_ok (fetchLine_canon h) (meet_canon h fun _ h5 => dropOthers_canon h5)))
  · exact ite_ok (ite_ok (hwhole _ _ h) (ite_ok (meet_canon h fun _ h6 => h6) h)) (ite_ok h (fetchLine_canon h))

theorem reachPeer_canon {u l td mask a} (h : Canon p s) : ResOk p (reachPeer s u l td mask a) :=
  reachPeerBy_canon h fun _ _ h1 => reachCluster_canon h1

theorem reachLevel_canon {u lvl l td a} (h : Canon p s) : ResOk p (reachLevel s u lvl l td a) :=
  ite_ok (ite_ok (P := Canon p) h (ncFill_canon h)) (ite_ok h (ite_ok (ite_ok (ite_ok (P := Canon p) (awaitStack_canon h) h)
    (ite_ok (P := Canon p) (ite_ok (readGranule_canon h) h) (ncFill_canon (ite_ok (readGranule_canon h) h))))
    (ite_ok h (ite_ok (ite_ok (P := Canon p) h (ncFill_canon h)) (ite_ok h (request_canon h))))))

theorem reach_canon {u x mask a} (h : Canon p s) : ResOk p (reach s u x mask a) := by
  unfold reach
  extract_lets +onlyGivenNames _
  split
  · exact reachLevel_canon h
  · exact ite_ok (reachCluster_canon h) (reachPeer_canon h)

theorem touchPending_canon {l mask} (h : Canon p s) : Canon p (touchPending s l mask) := by
  unfold touchPending
  split
  · exact ite_ok h (modChunk_canon h fun _ h1 => h1)
  · exact h

theorem keepRead_canon {tile lvl l} (h : Canon p s) : Canon p (keepRead s tile lvl l) := by
  unfold keepRead
  extract_lets +onlyGivenNames _
  split
  · exact ncWays_canon (ncFill_canon h)
  · extract_lets +onlyGivenNames s1
    have hs1 : Canon p s1 := markRead_canon h
    exact ite_ok hs1 (useL1d_canon hs1)

theorem readLine_canon {k x n a} (h : Canon p s) : ResOk p (readLine s k x n a) := by
  unfold readLine
  extract_lets +onlyGivenNames _ _
  split
  next he => exact canon_of_eq (reach_canon h) he
  next he => exact canon_of_eq (reach_canon h) he
  next he => exact canon_of_eq (reach_canon h) he
  next he =>
    have k1 := canon_of_eq (reach_canon h) he
    exact ite_ok k1 (touchPending_canon (keepRead_canon k1))

theorem putBytes_canon {c pa x n} (hc : ChunkOk p c) : ChunkOk p (putBytes c pa x n) :=
  hc

theorem putAcc_canon {tile x n v} (h : Canon p s) : Canon p (putAcc s tile x n v) := by
  unfold putAcc
  extract_lets +onlyGivenNames _ _ s1
  have hs1 : Canon p s1 := modChunk_canon h fun _ h1 => putBytes_canon h1
  split
  · exact modChunk_canon (ncWays_canon hs1) fun _ h2 => h2
  · extract_lets +onlyGivenNames _ s2
    have hs2 : Canon p s2 := soleL1_canon (markWrite_canon hs1)
    exact fitL2_canon (ite_ok (modChunk_canon hs2 fun _ h3 => h3) (useL1d_canon hs2))

theorem clearLine_canon {l} (h : Canon p s) : Canon p (clearLine s l) :=
  modChunk_canon h fun _ h1 => h1

theorem writeLine_canon {tile u x n v a} (h : Canon p s) : ResOk p (writeLine s tile u x n v a) := by
  unfold writeLine
  refine ite_ok ?_ ?_
  · exact h
  · split
    next he =>
      exact withRoom_canon (canon_of_eq (reach_canon h) he) fun _ h1 => ite_ok (P := Canon p) (clearLine_canon (putAcc_canon h1))
          (putAcc_canon h1)
    · exact reach_canon h

theorem checkPiece_canon {k n mask a} (h : Canon p s) : ResOk p (checkPiece s k n mask a) := by
  unfold checkPiece
  split
  next e1 =>
    extract_lets +onlyGivenNames s1
    have hs1 : Canon p s1 := noteUsed_canon (canon_of_eq (translate_canon h) e1)
    refine ite_ok ?_ ?_
    · exact hs1
    · split <;> next e2 => exact canon_of_eq (reach_canon hs1) e2
  · exact translate_canon h

theorem checkPieces_canon {s : State} {k all l} (h : Canon p s) : ResOk p (checkPieces s k all l) := by
  unfold checkPieces
  split
  · exact h
  · split
    next e1 =>
      have k1 := canon_of_eq (checkPiece_canon h) e1
      split
      next e2 => exact canon_of_eq (checkPieces_canon k1) e2
      · exact checkPieces_canon k1
    all_goals next e1 => exact canon_of_eq (checkPiece_canon h) e1

theorem writePieces_canon {tile l} (h : Canon p s) : ResOk p (writePieces s tile l) :=
  withRoom_canon h fun _ h1 => foldl_ok (foldl_ok h1 fun _ _ h2 => putAcc_canon h2) fun _ _ h3 => ite_ok (clearLine_canon h3) h3

/-! ## Ops: Accesses (R266-R269) -/

theorem load_canon {r a} (h : Canon p s) : ResOk p (load s r a) := by
  unfold load
  split
  next x he =>
    have hs : Canon p (noteUsed _ x.used) := noteUsed_canon (canon_of_eq (translate_canon h) he)
    split
    · extract_lets
      split
      next hv => exact canon_of_eq (ctlLoad_canon hs) hv
    · exact readLine_canon hs
  all_goals next he => exact canon_of_eq (translate_canon h) he

theorem loadEff_canon {ctl n a k} (h : Canon p s) (hk : ∀ x y, Canon p x → EffOk p (k x y)) : EffOk p (loadEff s ctl n a k) :=
  thenDo_canon (load_canon h) hk

theorem drained_canon {k} (h : Canon p s) (hk : ∀ x, Canon p x → EffOk p (k x)) : EffOk p (drained s k) :=
  ite_ok (hk _ h) (closeChunk_canon h)

theorem released_canon {k} (h : Canon p s) (hk : ∀ x, Canon p x → EffOk p (k x)) : EffOk p (released s k) :=
  drained_canon h fun _ h1 => ite_ok (hk _ h1) h1

theorem storeAs_canon {u ctl n a v k} (h : Canon p s) (hk : ∀ x, Canon p x → EffOk p (k x)) : EffOk p (storeAs s u ctl n a v k) := by
  unfold storeAs
  split
  next he =>
    have k1 := canon_of_eq (translate_canon h) he
    exact ite_ok (drained_canon k1 fun _ h1 => ctlWrite_canon h1)
        (thenDo_canon (writeLine_canon (noteUsed_canon k1)) fun _ _ h2 => hk _ h2)
  next he => exact canon_of_eq (translate_canon h) he
  next he => exact canon_of_eq (translate_canon h) he
  · exact trivial

theorem storeEff_canon {ctl n a v k} (h : Canon p s) (hk : ∀ x, Canon p x → EffOk p (k x)) : EffOk p (storeEff s ctl n a v k) :=
  storeAs_canon h hk

/-! ## Ops: Retiring (R118, R224, R229-R233, R331, R398) -/

theorem pulse_canon {asid} (h : Canon p s) : Canon p (pulse s asid) :=
  ite_ok { h with dogs := by with_reducible exact h.dogs.map _ } h

theorem pulseCur_canon (h : Canon p s) : Canon p (pulseCur s) :=
  ite_ok (pulse_canon h) h

theorem freeDead_canon {n gl vl a} (ha : ArchOk p a) : ArchOk p (freeDead n gl vl a) :=
  ha.of_tiles (by simp only [freeDead])

theorem leaveBlock_canon (h : Canon p s) : Canon p (leaveBlock s) := by
  unfold leaveBlock
  split
  · exact spend_canon (updArch_canon h fun _ ha => ha.of_tiles (by simp only [freeDead]))
  · exact updArch_canon h fun _ ha => ha

theorem advance_canon {next jumped} (h : Canon p s) : Canon p (advance s next jumped) :=
  updHart_canon (pulseCur_canon (updArch_canon (ite_ok (leaveBlock_canon h) h) fun _ h1 => h1)) fun _ h2 => { h2 with chunk := h2.chunk }

theorem commitOpen_canon (h : Canon p s) : Canon p (commitOpen s) :=
  commitChunk_canon (updHart_canon h fun _ h1 => { h1 with chunk := chunkFresh_canon h1.arch })

theorem passSolo_canon (h : Canon p s) : Canon p (passSolo s) := by
  unfold passSolo
  extract_lets +onlyGivenNames s1
  have hs1 : Canon p s1 := leaveQueue_canon h
  exact ite_ok (askSolo_canon hs1) hs1

theorem leaveSolo_canon (h : Canon p s) : Canon p (leaveSolo s) :=
  leaveQueue_canon (updHart_canon h fun _ h1 => h1)

theorem settleAlone_canon {c} (h : Canon p s) : Canon p (settleAlone c s) := by
  unfold settleAlone
  refine ite_ok ?_ ?_
  · exact closeChunk_canon (updHart_canon h fun _ h1 => h1)
  · extract_lets +onlyGivenNames s1
    have hs1 : Canon p s1 := commitOpen_canon h
    exact ite_ok (leaveSolo_canon hs1) (passSolo_canon (updHart_canon hs1 fun _ h2 => h2))

theorem settle_canon {c} (h : Canon p s) : Canon p (settle c s) :=
  ite_ok (settleAlone_canon h) (ite_ok (closeChunk_canon h) h)

theorem retire_canon {c} (h : Canon p s) : Canon p (retire c s) :=
  settle_canon (advance_canon h)

theorem retireTo_canon {c target} (h : Canon p s) : Canon p (retireTo c target s) :=
  settle_canon (advance_canon h)

theorem touchAll_canon (h : Canon p s) : Canon p (touchAll s) := by
  unfold touchAll
  exact foldl_ok h fun _ _ h1 => by
    split
    · exact updHart_canon h1 fun _ h2 => touchDev_canon h2
    · exact h1

theorem freshChunk_canon (h : Canon p s) : Canon p (freshChunk s) :=
  updHart_canon (leaveSolo_canon (touchAll_canon h)) fun _ h1 => { h1 with chunk := chunkFresh_canon h1.arch }

/-! ## Ops: Traps and returns (R389-R393) -/

theorem cancelSfu_canon {hart} (h : Canon p s) : Canon p (cancelSfu s hart) :=
  modHart_canon (modCluster_canon h fun _ h1 => h1) fun _ h2 => h2

theorem deliver_canon {r} (h : Canon p s) : Canon p (deliver s r) := by
  refine updHart_canon (cancelSfu_canon (invs_canon (updArch_canon (leaveSolo_canon h) fun a ha => ha.of_tiles ?_))) fun _ hx =>
    { hx with chunk := chunkFresh_canon hx.arch }
  simp only [withBank]
  split_ifs <;> rfl

theorem afterChunk_canon {wait deliver} (h : Canon p s) (hwait : ∀ x, Canon p x → Canon p (wait x))
    (hdeliver : ∀ x, Canon p x → Canon p (deliver x)) : Canon p (afterChunk s wait deliver) :=
  ite_ok (hdeliver _ (commitOpen_canon h)) (ite_ok (hdeliver _ h) (hwait _ (closeChunk_canon h)))

theorem raiseAt_canon {epc t} (h : Canon p s) : Canon p (raiseAt s epc t) :=
  afterChunk_canon h (fun _ h1 => updHart_canon h1 fun _ h2 => h2) fun _ h3 => deliver_canon h3

theorem trapReturn_canon {m} (h : Canon p s) : Canon p (trapReturn s m) := by
  refine updArch_canon h fun a ha => ha.of_tiles ?_
  simp only [withBank]
  split_ifs <;> rfl

theorem deliverUser_canon (h : Canon p s) : Canon p (deliverUser s) :=
  updHart_canon (cancelSfu_canon (updArch_canon (leaveSolo_canon h) fun _ ha => ha.of_tiles (by simp only [swapNamed]))) fun _ hx =>
    { hx with chunk := chunkFresh_canon hx.arch }

theorem userReturn_canon (h : Canon p s) : Canon p (userReturn s) :=
  updArch_canon h fun _ ha => ha.of_tiles (by simp only [swapNamed])

/-! ## Ops: The frames of instructions (R120, R121, R130, R224, R389) -/

theorem openChunk_canon (h : Canon p s) : Canon p (openChunk s) :=
  ite_ok (updHart_canon h fun _ h1 => { h1 with chunk := chunkFresh_canon h1.arch }) h

theorem stallOn_canon {c} (h : Canon p s) : Canon p (stallOn c s) := by
  unfold stallOn
  extract_lets +onlyGivenNames s1
  have hs1 : Canon p s1 := updHart_canon h fun _ h1 => h1
  exact ite_ok hs1 (leaveQueue_canon hs1)

theorem endBefore_canon (h : Canon p s) : Canon p (endBefore s) :=
  closeChunk_canon h

theorem noteCuts_canon {s0} (hs0 : Canon p s0) (h : Canon p s) : Canon p (noteCuts s0 s) :=
  modChunk_canon h fun _ hc =>
    { hc with cuts := List.forall_mem_append.2 ⟨hc.cuts, List.forall_mem_map.2 fun _ _ => hartCut_canon hs0.cur⟩ }

theorem inEngine_canon {s0 e} (hs0 : Canon p s0) (he : EffOk p e) : EffOk p (inEngine s0 e) := by
  unfold inEngine
  split
  · exact noteCuts_canon hs0 he
  · exact he

theorem finish_canon {c s0 e} (hs0 : Canon p s0) (he : EffOk p e) : Canon p (finish c s0 e) := by
  unfold finish
  split
  · exact retire_canon he
  · extract_lets +onlyGivenNames t
    have ht : Canon p t := freshChunk_canon (advance_canon he)
    exact ite_ok (stallOn_canon ht) ht
  · exact raiseAt_canon he
  · exact stallOn_canon he
  · exact endBefore_canon hs0

theorem decodeFault_canon {t k} (h : Canon p s) (hk : ∀ x, Canon p x → OutOk p (k x)) : OutOk p (decodeFault t s k) := by
  unfold decodeFault
  split
  · exact raiseAt_canon h
  · exact hk _ h

theorem plain_canon {c body} (h : Canon p s) (hbody : ∀ x, Canon p x → EffOk p (body x)) : OutOk p (plain c s body) := by
  unfold plain
  extract_lets +onlyGivenNames s1
  have hs1 : Canon p s1 := openChunk_canon h
  exact ite_ok (P := Canon p) (finish_canon hs1 (hbody _ hs1)) (retire_canon hs1)

theorem serialThen_canon {done c body} (hdone : ∀ x, Canon p x → Canon p (done x)) (h : Canon p s)
    (hbody : ∀ x, Canon p x → EffOk p (body x)) : OutOk p (serialThen done c s body) := by
  unfold serialThen
  extract_lets +onlyGivenNames s1
  have hs1 : Canon p s1 := openChunk_canon h
  refine ite_ok (P := Canon p) ?_ ?_
  · refine ite_ok ?_ ?_
    · split
      next he => exact hdone _ (effOk_of_eq (hbody _ hs1) he)
      · exact finish_canon hs1 (hbody _ hs1)
    · exact stallOn_canon (closeChunk_canon hs1)
  · extract_lets +onlyGivenNames s2
    have hs2 : Canon p s2 := advance_canon hs1
    exact ite_ok (leaveSolo_canon (commitOpen_canon hs2)) (closeChunk_canon hs2)

theorem retireSerial_canon (h : Canon p s) : Canon p (retireSerial s) :=
  freshChunk_canon (advance_canon h)

theorem serial_canon {c body} (h : Canon p s) (hbody : ∀ x, Canon p x → EffOk p (body x)) : OutOk p (serial c s body) :=
  serialThen_canon (fun _ h1 => retireSerial_canon h1) h hbody

theorem commitNow_canon {e} (he : EffOk p e) : EffOk p (commitNow e) := by
  unfold commitNow
  split
  · exact commitOpen_canon he
  all_goals exact he

theorem systemThen_canon {done lowest c body} (hdone : ∀ x, Canon p x → Canon p (done x)) (h : Canon p s)
    (hbody : ∀ x, Canon p x → EffOk p (body x)) : OutOk p (systemThen done lowest c s body) :=
  decodeFault_canon h fun _ h1 => serialThen_canon hdone h1 hbody

theorem system_canon {lowest c body} (h : Canon p s) (hbody : ∀ x, Canon p x → EffOk p (body x)) : OutOk p (system lowest c s body) :=
  systemThen_canon (fun _ h1 => retireSerial_canon h1) h hbody

theorem vector_canon {f64 c body} (h : Canon p s) (hbody : ∀ x, Canon p x → EffOk p (body x)) : OutOk p (vector f64 c s body) :=
  decodeFault_canon h fun _ h1 => plain_canon h1 hbody

end Sys2Proof.Machine
end

