-- ==== Sys2Proof/Proofs/CanonRun.lean ====
section
/-!
PROOFS. Canonical form: slots, engines and routing, and the choice of what a step runs. Every operation that answers a
state keeps `Canon`, one lemma for each operation, named after it.
-/

namespace Sys2Proof.Machine

variable {p : Part} {s t : State}

/-! ## Slots: Stalls (R65, R354, R356, R370) -/

theorem setBar_canon {cl b x} (h : Canon p s) : Canon p (setBar s cl b x) :=
  modCluster_canon h fun _ h1 => h1

/-! ## Slots: Creating and removing harts (R59, R200, R204, R212, R363, R393) -/

theorem forget_canon {i} (h : Canon p s) : Canon p (forget s i) := by
  unfold forget
  extract_lets +onlyGivenNames s1
  have hs1 : Canon p s1 := cancelSfu_canon (leaveQueue_canon h)
  exact
    { hs1 with
      clusters := by with_reducible exact hs1.clusters.map fun _ _ hc => hc
      coh := by with_reducible exact hs1.coh.map fun _ _ hc => hc
      peers := by with_reducible exact hs1.peers.map _
      groups := by with_reducible exact hs1.groups.map _
      dogs := by with_reducible exact hs1.dogs.map _ }

theorem vacate_canon {s0 hart fifo} (hs0 : Canon p s0) : Canon p (vacate s0 hart fifo) := by
  unfold vacate
  extract_lets +onlyGivenNames s1
  have hs1 : Canon p s1 := forget_canon hs0
  exact setHart_canon (ite_ok hs1 hs1) { hartReset_ok with arch := archReset_ok }

theorem childArch_canon {q entry} : ArchOk p (childArch q entry) :=
  archReset_ok

theorem placeHart_canon {hart a prio cc} (h : Canon p s) (ha : ArchOk p a) : Canon p (placeHart s hart a prio cc) :=
  setHart_canon h { hartReset_ok with arch := ha, chunk := chunkFresh_canon ha }

/-! ## Slots: Gangs (R207-R209, R375) -/

theorem memberArch_canon {g} (hg : GangOk p g) : ArchOk p (memberArch g) :=
  hg

/-! ## Slots: Parking and bringing in (R371-R373) -/

theorem parkCur_canon {ready} (h : Canon p s) : Canon p (parkCur s ready) :=
  afterChunk_canon (cutBack_canon h) (fun _ h1 => updHart_canon h1 fun _ h2 => h2) fun _ h3 => cancelSfu_canon
    (leaveQueue_canon (updHart_canon h3 fun _ h4 => { h4 with chunk := chunkFresh_canon h4.arch }))

theorem bringInCore_canon {core} (h : Canon p s) : Canon p (bringInCore s core) := by
  unfold bringInCore
  refine ite_ok ?_ ?_
  · exact h
  · split
    · exact h
    · exact modCore_canon (modHart_canon h fun _ h1 => h1)

/-! ## Routing: Relays (R150, R152) -/

theorem relayed_canon {m} (h : Canon p s) : Canon p (relayed s m) :=
  h

/-! ## Routing: Queues (R148, R150, R153, R156, R173) -/

theorem enqueue_canon {q m} (h : Canon p s) : Canon p (enqueue s q m) :=
  modPort_canon h

theorem recordPath_canon {m path} (h : Canon p s) : Canon p (recordPath s m path) := by
  unfold recordPath
  exact { h with pairs := by with_reducible exact h.pairs.mod _ _ }

theorem routeOne_canon {m} (h : Canon p s) : Canon p (routeOne s m) := by
  unfold routeOne
  refine ite_ok ?_ ?_
  · split
    · exact enqueue_canon (spend_canon (recordPath_canon h))
    · exact h
  · split
    · exact enqueue_canon h
    · exact h

theorem routeAll_canon (h : Canon p s) : Canon p (routeAll s) :=
  foldl_ok h fun _ _ h1 => routeOne_canon h1

theorem resendLost_canon (h : Canon p s) : Canon p (resendLost s) :=
  ite_ok h { h with pairs := by with_reducible exact h.pairs.map _ }

theorem drainPort_canon {q} (h : Canon p s) : Canon p (drainPort s q) := by
  unfold drainPort
  refine ite_ok ?_ ?_
  · exact h
  · split
    · exact h
    · exact wire_canon (modPort_canon h)

theorem drainPorts_canon (h : Canon p s) : Canon p (drainPorts s) :=
  foldl_ok h fun _ _ h1 => drainPort_canon h1

theorem fabricTick_canon (h : Canon p s) : Canon p (fabricTick s) :=
  drainPorts_canon (routeAll_canon (resendLost_canon h))

/-! ## Run: Time (R4, R392) -/

theorem tick_canon {s0} (hs0 : Canon p s0) : Canon p (tick s0) :=
  fabricTick_canon (acceptAll_canon hs0)

/-! ## Run: Fetch (R35, R45, R47, R53, R112, R129, R422) -/

theorem fetchReach_canon {x a} (h : Canon p s) : ResOk p (fetchReach s x a) := by
  unfold fetchReach
  extract_lets +onlyGivenNames _ _ _
  split
  · extract_lets +onlyGivenNames _
    split
    next he => exact ncWays_canon (ncFill_canon (canon_of_eq (reachLevel_canon h) he))
    · exact reachLevel_canon h
  · refine ite_ok ?_ ?_
    · exact useL1i_canon h
    · refine ite_ok ?_ ?_
      · exact useL1i_canon h
      · extract_lets +onlyGivenNames ask
        have hask : ResOk p ask := askLine_canon h
        refine ite_ok ?_ ?_
        · exact hask
        · split
          · exact ite_ok hask (ite_ok h (ite_ok h hask))
          · exact ite_ok h hask

theorem fetchWord_canon (h : Canon p s) : ResOk p (fetchWord s) := by
  unfold fetchWord
  extract_lets +onlyGivenNames _
  split
  next e1 =>
    have k1 := canon_of_eq (translate_canon h) e1
    split
    next e2 =>
      have k2 := canon_of_eq (fetchReach_canon (noteUsed_canon k1)) e2
      exact ite_ok k2 k2
    all_goals next e2 => exact canon_of_eq (fetchReach_canon (noteUsed_canon k1)) e2
  all_goals next e1 => exact canon_of_eq (translate_canon h) e1

/-! ## Run: Headers (R228, R229, R392) -/

theorem prefetchLine_canon {a} (h : Canon p s) : Canon p (prefetchLine s a) := by
  unfold prefetchLine
  split
  · exact h
  · exact ite_ok h (ite_ok (useL1i_canon h) (askFor_canon h))

theorem prefetchCode_canon {w} (h : Canon p s) : Canon p (prefetchCode s w) :=
  ite_ok h (foldl_ok h fun _ _ h1 => prefetchLine_canon h1)

theorem enterBlock_canon {w} (h : Canon p s) : Canon p (enterBlock s w) := by
  unfold enterBlock
  extract_lets +onlyGivenNames s1
  have hs1 : Canon p s1 := prefetchCode_canon h
  exact updArch_canon (ite_ok (closeChunk_canon (ite_ok (leaveSolo_canon hs1) hs1)) hs1) fun _ h1 => h1

theorem trapHere_canon {t} (h : Canon p s) : MoveOk p (trapHere s t) :=
  raiseAt_canon h

theorem badHandler_canon (h : Canon p s) : MoveOk p (badHandler s) :=
  deliver_canon h

theorem badMHandler_canon (h : Canon p s) : MoveOk p (badMHandler s) :=
  logEv_canon (vacate_canon h)

theorem noEntry_canon {t} (h : Canon p s) : MoveOk p (noEntry s t) := by
  unfold noEntry
  split
  · exact badHandler_canon h
  · exact badMHandler_canon h
  · exact trapHere_canon h

/-! ## Run: Execution of a word (R227, R229) -/

theorem runWord_canon {w} (h : Canon p s) : MoveOk p (runWord s w) := by
  unfold runWord
  extract_lets +onlyGivenNames s1
  have hs1 : Canon p s1 := updArch_canon h fun _ h1 => h1
  split
  · exact ite_ok (trapHere_canon hs1) hs1
  · exact trapHere_canon hs1

theorem fetchEnd_canon {r k} (h : Canon p s) (hk : ∀ x, MoveOk p (k x)) : MoveOk p (fetchEnd s r k) := by
  unfold fetchEnd
  split
  · exact hk _
  · exact noEntry_canon h
  · exact stallOn_canon h
  · exact h

theorem runBody_canon (h : Canon p s) : MoveOk p (runBody s) :=
  fetchEnd_canon (fetchWord_canon h) fun _ => runWord_canon (fetchWord_canon h)

theorem runHeader_canon {w entry} (h : Canon p s) : MoveOk p (runHeader s w entry) := by
  unfold runHeader
  refine ite_ok ?_ ?_
  · exact noEntry_canon h
  · refine ite_ok ?_ ?_
    · exact noEntry_canon (updArch_canon h fun _ h1 => h1)
    · extract_lets +onlyGivenNames s1
      have hs1 : Canon p s1 := enterBlock_canon h
      exact ite_ok hs1 (runBody_canon hs1)

theorem runHart_canon (h : Canon p s) : MoveOk p (runHart s) := by
  unfold runHart
  split
  · exact runBody_canon h
  · exact fetchEnd_canon (fetchWord_canon h) fun _ => ite_ok (runHeader_canon (fetchWord_canon h)) (runWord_canon (fetchWord_canon h))
  · exact trapHere_canon h
  · exact fetchEnd_canon (fetchWord_canon h) fun _ => runHeader_canon (fetchWord_canon h)

theorem atEntry_canon (h : Canon p s) : Canon p (atEntry s) := by
  unfold atEntry
  split
  · exact updArch_canon h fun _ h1 => h1
  · exact h

theorem takeInterrupt_canon (h : Canon p s) : MoveOk p (takeInterrupt s) :=
  ite_ok h h

theorem boundary_canon (h : Canon p s) : MoveOk p (boundary s) := by
  unfold boundary
  split
  · exact ite_ok (P := Canon p) (deliver_canon h) h
  · exact ite_ok (runHart_canon h) (ite_ok (takeInterrupt_canon (atEntry_canon h)) (runHart_canon h))

/-! ## Run: The choice of a hart (R226, R369, R384; assumption log, entry 3) -/

theorem askAll_canon (h : Canon p s) : Canon p (askAll s) :=
  grantSolo_canon (foldl_ok h fun _ _ h1 => ite_ok (askSolo_canon h1) h1)

theorem noteDecode_canon {hart} (h : Canon p s) : Canon p (noteDecode s hart) :=
  modCore_canon (foldl_ok h fun _ _ h1 => modHart_canon h1 fun _ h2 => h2)

theorem takeTurn_canon {hart} (h : Canon p s) : Canon p (takeTurn s hart) :=
  focus_canon (ite_ok h (noteDecode_canon h))

/-! ## Run: Work that waits for the hardware (assumption log, entry 3) -/

theorem writeRecord_canon {hart status count} (h : Canon p s) : Canon p (writeRecord s hart status count) := by
  unfold writeRecord
  extract_lets +onlyGivenNames _
  split
  · exact h
  · exact pulse_canon (setHart_canon h (getHart_canon h))

theorem runCommand_canon {hart} (h : Canon p s) : MoveOk p (runCommand s hart) := by
  unfold runCommand
  split
  · split
    · exact ite_ok h h
    · exact writeRecord_canon h
  · exact h

/-! ## Run: One step -/

theorem dueStep_canon (h : Canon p s) : ∀ x ∈ dueStep s, Canon p x.2 := by
  intro x hx
  unfold dueStep at hx
  split at hx
  · split at hx
    · cases hx
      exact h
    · cases hx
  · cases hx

theorem nextDue_canon (h : Canon p s) : ∀ x ∈ nextDue s, Canon p x.2 := by
  intro x hx
  unfold nextDue at hx
  rw [Option.mem_def, Option.orElse_eq_orElse, Option.orElse_eq_or, Option.or_eq_some_iff] at hx
  rcases hx with hx | ⟨_, hx⟩
  · exact dueStep_canon h x hx
  · exact observed_canon h x hx

/-- Of what a turn offers, one move is made. -/
theorem turn_ok {f : Nat → Move} {c : Prop} [Decidable c] {a b : Option Nat} {g : Nat → Move} {m : Move} (hf : ∀ i, MoveOk p (f i))
    (hg : ∀ i, MoveOk p (g i)) (hm : MoveOk p m) :
    MoveOk p ((if c then a.map f <|> b.map g else b.map g <|> a.map f).getD m) := by
  cases a <;> cases b <;> split <;> simp [hf, hg, hm]

theorem choose_canon (h : Canon p s) : MoveOk p (choose s) := by
  unfold choose
  extract_lets s1
  have hs1 : Canon p s1 := ite_ok h (tick_canon h)
  split
  next heq => exact ite_ok trivial (ite_ok (nextDue_canon hs1 _ heq) (nextDue_canon hs1 _ heq))
  · split
    · exact hs1
    · split
      · exact hs1
      · exact turn_ok (fun _ => runCommand_canon (askAll_canon hs1)) (fun _ => boundary_canon (takeTurn_canon (askAll_canon hs1)))
          (askAll_canon hs1)

end Sys2Proof.Machine
end

