-- ==== Sys2Proof/Proofs/CanonMemory.lean ====
section
/-!
PROOFS. Canonical form: memory instructions and the copy engine. Every operation that answers a state keeps `Canon`,
one lemma for each operation, named after it.
-/

namespace Sys2Proof.Machine

variable {p : Part} {s t : State}

/-! ## MemoryInstr: Loads and stores (R269, R270, R273) -/

theorem loadTo_canon {n sg rd a} (h : Canon p s) : EffOk p (loadTo s n sg rd a) :=
  loadEff_canon h fun _ _ h1 => setG_canon h1

theorem execLd_canon {c rd rb sz sg off} (h : Canon p s) : OutOk p (execLd c rd rb sz sg off s) :=
  plain_canon h fun _ h1 => loadTo_canon h1

theorem execSt_canon {c rs rb sz off} (h : Canon p s) : OutOk p (execSt c rs rb sz off s) :=
  plain_canon h fun _ h1 => storeEff_canon h1 fun _ h2 => h2

theorem execLdx_canon {c rd rb rx sz sg n} (h : Canon p s) : OutOk p (execLdx c rd rb rx sz sg n s) :=
  plain_canon h fun _ h1 => loadTo_canon h1

theorem execStx_canon {c rs rb rx sz n} (h : Canon p s) : OutOk p (execStx c rs rb rx sz n s) :=
  plain_canon h fun _ h1 => storeEff_canon h1 fun _ h2 => h2

theorem execLdp_canon {c rd rb sz sg off} (h : Canon p s) : OutOk p (execLdp c rd rb sz sg off s) :=
  plain_canon h fun _ h1 => loadEff_canon h1 fun _ _ h2 => setG_canon (setG_canon h2)

theorem execStp_canon {c rs rb sz off} (h : Canon p s) : OutOk p (execStp c rs rb sz off s) :=
  plain_canon h fun _ h1 => storeEff_canon h1 fun _ h2 => h2

theorem prefetch_canon {w x} (h : Canon p s) : Canon p (prefetch s w x) :=
  ite_ok h (askLine_canon h)

theorem execPrf_canon {c w rb off} (h : Canon p s) : OutOk p (execPrf c w rb off s) := by
  unfold execPrf
  exact plain_canon h fun _ h1 => by
    split
    next he => exact prefetch_canon (canon_of_eq (translate_canon h1) he)
    all_goals next he => exact canon_of_eq (translate_canon h1) he

theorem execCzero_canon {c rb off} (h : Canon p s) : OutOk p (execCzero c rb off s) :=
  plain_canon h fun _ h1 => storeAs_canon h1 fun _ h2 => h2

/-! ## MemoryInstr: System drain (R139-R142) -/

theorem startProbes_canon {homes} (h : Canon p s) : Canon p (startProbes s homes) :=
  updHart_canon (foldl_ok h fun _ _ h1 => updHart_canon (after_canon (send_canon h1)) fun _ h2 => h2) fun _ h3 => h3

theorem systemDrain_canon (h : Canon p s) : ResOk p (systemDrain s) := by
  unfold systemDrain
  extract_lets _ _ _ s1 s2
  have hs1 : Canon p s1 := by
    unfold s1
    split
    · exact h
    · exact updHart_canon (foldl_ok h fun _ _ ht => sendPosted_canon ht) fun _ hx => hx
  have hs2 : Canon p s2 := by
    unfold s2
    split
    · exact ite_ok (startProbes_canon (updHart_canon hs1 fun _ hx => hx)) (updHart_canon hs1 fun _ hx => hx)
    · exact hs1
  split <;> exact hs2

theorem endDrain_canon {lost} (h : Canon p s) : Canon p (endDrain s lost) :=
  updHart_canon h fun _ hx => { hx with arch := fstat_ok hx.arch }

theorem holdDrain_canon {t} (ht : Canon p t) : Canon p (holdDrain s t) :=
  updHart_canon ht fun _ h1 => { h1 with arch := h1.arch }

theorem releaseSys_canon {k} (h : Canon p s) (hk : ∀ x y, Canon p x → EffOk p (k x y)) : EffOk p (releaseSys s k) := by
  unfold releaseSys
  exact drained_canon h fun _ h1 => by
    split
    next e1 =>
      have k1 := canon_of_eq (systemDrain_canon h1) e1
      refine ite_ok ?_ ?_
      · exact canon_of_eq (systemDrain_canon h1) e1
      · split
        next e2 => exact updHart_canon (holdDrain_canon (effOk_of_eq (hk _ _ k1) e2)) fun _ h2 => h2
        next e2 => exact holdDrain_canon (effOk_of_eq (hk _ _ k1) e2)
        · exact hk _ _ k1
    next e1 => exact canon_of_eq (systemDrain_canon h1) e1

/-! ## MemoryInstr: lda and strl (R135, R141, R271) -/

theorem touchNow_canon {l mask} (h : Canon p s) : Canon p (touchNow s l mask) := by
  unfold touchNow
  split
  · exact ite_ok h (updHart_canon h fun _ h1 => touchDev_canon h1)
  · exact h

theorem readAtLevel_canon {sc x lvl n a} (h : Canon p s) : ResOk p (readAtLevel s sc x lvl n a) := by
  unfold readAtLevel
  extract_lets +onlyGivenNames _ _
  split
  next he =>
    have k1 := canon_of_eq (reach_canon h) he
    exact ite_ok k1 (touchNow_canon k1)
  all_goals next he => exact canon_of_eq (reach_canon h) he

theorem writeAtLevel_canon {sc x lvl n v} (h : Canon p s) : Canon p (writeAtLevel s sc x lvl n v) :=
  ncClean_canon (ncStore_canon (ncWays_canon h))

theorem ldaLate_canon {x n sg sc rd a} (h : Canon p s) : EffOk p (ldaLate s x n sg sc rd a) := by
  unfold ldaLate
  split
  · exact thenDo_canon (readAtLevel_canon h) fun _ _ h1 => setG_canon h1
  · exact thenDo_canon (readLine_canon h) fun _ _ h2 => setG_canon h2

theorem ldaBody_canon {rd rb sz sg sc off} (h : Canon p s) : EffOk p (ldaBody s rd rb sz sg sc off) := by
  unfold ldaBody
  refine thenDo_canon (translate_canon h) fun _ _ ht => ite_ok (drained_canon ht fun _ hu => ldaLate_canon hu) ?_
  exact thenDo_canon (readLine_canon (noteUsed_canon ht)) fun _ _ hu => setG_canon hu

theorem execLda_canon {c rd rb sz sg sc off} (h : Canon p s) : OutOk p (execLda c rd rb sz sg sc off s) :=
  ite_ok (serial_canon h fun _ h1 => ldaBody_canon h1) (plain_canon h fun _ h2 => ldaBody_canon h2)

theorem storeNow_canon {x n v a} (h : Canon p s) : EffOk p (storeNow s x n v a) :=
  thenDo_canon (writeLine_canon h) fun _ _ h1 => commitOpen_canon h1

theorem strlWrite_canon {x sc n v a} (h : Canon p s) : EffOk p (strlWrite s x sc n v a) := by
  unfold strlWrite
  split
  · exact thenDo_canon (reach_canon h) fun _ _ h1 => writeAtLevel_canon h1
  · exact storeNow_canon h

theorem strlBody_canon {rs rb sz sc off} (h : Canon p s) : EffOk p (strlBody s rs rb sz sc off) := by
  unfold strlBody
  refine thenDo_canon (translate_canon h) fun _ _ ht => ite_ok ht (ite_ok ?_ (ite_ok ?_ ?_))
  · exact releaseSys_canon ht fun _ _ hu => strlWrite_canon (endDrain_canon hu)
  · exact released_canon ht fun _ hu => strlWrite_canon hu
  · exact thenDo_canon (writeLine_canon (noteUsed_canon ht)) fun _ _ hu => hu

theorem execStrl_canon {c rs rb sz sc off} (h : Canon p s) : OutOk p (execStrl c rs rb sz sc off s) :=
  ite_ok (serial_canon h fun _ h1 => strlBody_canon h1) (plain_canon h fun _ h2 => strlBody_canon h2)

/-! ## MemoryInstr: Cache maintenance (R113-R115, R135, R280) -/

theorem cleanCaches_canon {l} (h : Canon p s) : Canon p (cleanCaches s l) := by
  refine modCoh_canon h fun c hc => TabOk.mapVal hc (fun x => match x with | .m => .e | .o => .s | x => x) fun x hx => ?_
  cases x <;> first | decide | exact hx

theorem maintainOwn_canon {m l} (h : Canon p s) : Canon p (maintainOwn s m l) := by
  unfold maintainOwn
  extract_lets +onlyGivenNames _ _ s1
  have hs1 : Canon p s1 := ite_ok h (ite_ok (writeBackFor_canon (updHart_canon h fun _ h1 => h1)) (writeBack_canon h))
  split
  · exact modCoh_canon (cleanCaches_canon hs1) fun _ h2 => h2
  · exact modCoh_canon (dropAll_canon (snoop_canon hs1)) fun _ h3 => h3

theorem maintainPeer_canon {m l} (h : Canon p s) : Canon p (maintainPeer s m l) := by
  unfold maintainPeer
  split
  · exact h
  · extract_lets +onlyGivenNames _ put _ s1
    have hput (s : State) (q : Option PeerLine) (hs : Canon p s) : Canon p (put s q) := 
      { hs with peers := by with_reducible exact hs.peers.put _ _ }
    have hs1 : Canon p s1 := ite_ok h (ite_ok (salvage_canon h) (updHart_canon (request_canon h) fun _ hx => hx))
    split
    · exact hput _ _ (cleanCaches_canon hs1)
    · exact setDir_canon (hput _ _ (dropAll_canon (snoop_canon hs1)))

/-! ## MemoryInstr: Atomics (R211, R274-R277) -/

theorem atomicRelease_canon {sc k} (h : Canon p s) (hk : ∀ x, Canon p x → EffOk p (k x)) : EffOk p (atomicRelease s sc k) :=
  ite_ok (releaseSys_canon h fun _ _ h1 => hk _ (updHart_canon h1 fun _ h2 => h2)) (released_canon h hk)

theorem atomicMember_canon {x n a f k} (h : Canon p s) (hk : ∀ x y, Canon p x → Canon p (k x y)) : EffOk p (atomicMember s x n a f k) :=
    by
  unfold atomicMember
  exact thenDo_canon (reach_canon (noteUsed_canon h)) fun _ _ h1 => ite_ok h1 (by
    extract_lets +onlyGivenNames _
    split
    · exact hk _ _ (keepRead_canon h1)
    · exact thenDo_canon (withRoom_canon h1 fun _ h2 => putAcc_canon (markRead_canon h2)) fun _ _ h3 => hk _ _
        (modChunk_canon h3 fun _ h4 => h4))

theorem atomicHome_canon {x lvl n a f k} (h : Canon p s) (hk : ∀ x y, Canon p x → Canon p (k x y)) : EffOk p
    (atomicHome s x lvl n a f k) := by
  unfold atomicHome
  refine ite_ok ?_ ?_
  · exact h
  · exact thenDo_canon (reach_canon h) fun _ _ h1 => ite_ok h1 (by
      extract_lets +onlyGivenNames _
      split
      · exact hk _ _ (updHart_canon (ncClean_canon (maintainPeer_canon (commitPeer_canon h1))) fun _ h2 => h2)
      · exact hk _ _ h1)

theorem rmw_canon {n sc a f k} (h : Canon p s) (hk : ∀ x y, Canon p x → Canon p (k x y)) : EffOk p (rmw s n sc a f k) := by
  unfold rmw
  exact thenDo_canon (translate_canon h) fun _ _ h1 => by
    refine ite_ok ?_ ?_
    · exact h1
    · split
      · refine ite_ok ?_ ?_
        · exact atomicRelease_canon h1 fun _ h2 => atomicHome_canon h2 hk
        · exact atomicRelease_canon h1 fun _ h3 => thenDo_canon (reach_canon h3) fun _ _ h4 => thenDo_canon (readAtLevel_canon h4)
            fun _ _ h5 => hk _ _ (by
            split
            · exact writeAtLevel_canon h5
            · exact h5)
      · refine ite_ok ?_ ?_
        · exact drained_canon h1 fun _ h6 => thenDo_canon (reach_canon h6) fun _ _ h7 => ite_ok h7 (hk _ _ (by
            split
            · exact commitPeer_canon (touchNow_canon h7)
            · exact (touchNow_canon h7)))
        · exact atomicMember_canon h1 hk

theorem execAmo_canon {c op rd rs rb sz sg sc} (h : Canon p s) : OutOk p (execAmo c op rd rs rb sz sg sc s) :=
  plain_canon h fun _ h1 => rmw_canon h1 fun _ _ h2 => setG_canon h2

theorem execCas_canon {c rd rc rn rb sz sg sc} (h : Canon p s) : OutOk p (execCas c rd rc rn rb sz sg sc s) :=
  plain_canon h fun _ h1 => rmw_canon h1 fun _ _ h2 => setG_canon h2

theorem execCasp_canon {c rd rc rn rb sc} (h : Canon p s) : OutOk p (execCasp c rd rc rn rb sc s) :=
  plain_canon h fun _ h1 => rmw_canon h1 fun _ _ h2 => setG_canon (setG_canon h2)

/-! ## MemoryInstr: Fences (R278, R279) -/

theorem execFence_canon {c sc} (h : Canon p s) : OutOk p (execFence c sc s) :=
  serial_canon h fun _ h1 => released_canon h1 fun _ h2 => h2

theorem execSysfence_canon {c rd} (h : Canon p s) : OutOk p (execSysfence c rd s) :=
  serial_canon h fun _ h1 => releaseSys_canon h1 fun _ _ h2 => setG_canon (endDrain_canon h2)

/-! ## MemoryInstr: cwb, cinv, cwbi (R280) -/

theorem maintain_canon {kind wb inv rb sc off} (h : Canon p s) : EffOk p (maintain s kind wb inv rb sc off) := by
  unfold maintain
  refine ite_ok ?_ ?_
  · exact ite_ok h (updHart_canon h fun _ h1 => h1)
  · exact thenDo_canon (translate_canon h) fun _ _ h2 => by
      refine ite_ok ?_ ?_
      · exact h2
      · refine ite_ok ?_ ?_
        · exact h2
        · split
          · extract_lets +onlyGivenNames s1
            have hs1 : Canon p s1 := ite_ok (ncWriteBack_canon h2) h2
            exact ite_ok (ite_ok (P := Canon p) (ncInvalidate_canon hs1) hs1)
                (updHart_canon (ite_ok (ncInvalidate_canon hs1) hs1) fun _ h3 => h3)
          · exact ite_ok h2 (ite_ok (ite_ok (P := Canon p) (maintainOwn_canon h2) (maintainPeer_canon h2))
              (updHart_canon (ite_ok (maintainOwn_canon h2) (maintainPeer_canon h2)) fun _ h4 => h4))

theorem execCwb_canon {c rb sc off} (h : Canon p s) : OutOk p (execCwb c rb sc off s) :=
  serial_canon h fun _ h1 => maintain_canon h1

theorem execCinv_canon {c rb sc off} (h : Canon p s) : OutOk p (execCinv c rb sc off s) :=
  serial_canon h fun _ h1 => maintain_canon h1

theorem execCwbi_canon {c rb sc off} (h : Canon p s) : OutOk p (execCwbi c rb sc off s) :=
  serial_canon h fun _ h1 => maintain_canon h1

/-! ## MemoryInstr: Engine windows (R64, R65, R281-R283) -/

theorem engineWindow_canon {kind a} (h : Canon p s) : ResOk p (engineWindow s kind a) :=
  translate_canon h

theorem pushCommand_canon {d a} (h : Canon p s) : EffOk p (pushCommand s d a) :=
  ite_ok (ite_ok h h) (released_canon h fun _ h1 => updHart_canon h1 fun _ h2 => h2)

theorem execEpush_canon {c rs rb off} (h : Canon p s) : OutOk p (execEpush c rs rb off s) :=
  serial_canon h fun _ h1 => thenDo_canon (engineWindow_canon h1) fun _ _ h2 => pushCommand_canon h2

theorem execEpop_canon {c rd rb off} (h : Canon p s) : OutOk p (execEpop c rd rb off s) := by
  unfold execEpop
  exact serial_canon h fun _ h1 => thenDo_canon (engineWindow_canon h1) fun _ _ h2 => by
    split
    · exact setG_canon (updHart_canon h2 fun _ h3 => h3)
    · exact ite_ok h2 h2

theorem execEpeek_canon {c rd rb off} (h : Canon p s) : OutOk p (execEpeek c rd rb off s) :=
  serial_canon h fun _ h1 => thenDo_canon (engineWindow_canon h1) fun _ _ h2 => setG_canon h2

/-! ## MemoryInstr: Multicast (R143-R145, R167, R284-R286) -/

theorem execMst_canon {c rs rb sz off} (h : Canon p s) : OutOk p (execMst c rs rb sz off s) := by
  unfold execMst
  exact plain_canon h fun _ h1 => thenDo_canon (translate_canon h1) fun _ _ h2 => by
    split
    · exact h2
    · exact modChunk_canon (noteUsed_canon h2) fun _ h3 => h3

theorem execMamo_canon {c op rd rs rb sz sg} (h : Canon p s) : OutOk p (execMamo c op rd rs rb sz sg s) := by
  unfold execMamo
  exact serial_canon h fun _ h1 => by
    extract_lets +onlyGivenNames _ _
    split
    · exact setG_canon (updHart_canon h1 fun _ h2 => h2)
    · exact h1
    · exact thenDo_canon (translate_canon h1) fun _ _ h3 => by
        split
        · exact h3
        · exact updHart_canon (holdOp_canon h3) fun _ h4 => h4

theorem execMseq_canon {c rd rb} (h : Canon p s) : OutOk p (execMseq c rd rb s) := by
  unfold execMseq
  exact plain_canon h fun _ h1 => thenDo_canon (translate_canon h1) fun _ _ h2 => by
    split
    · exact h2
    · exact setG_canon (modChunk_canon (noteUsed_canon h2) fun _ h3 => h3)

/-! ## CopyEngine: Accesses of the engine (R67-R71) -/

theorem engineReach_canon {hart c own x mask a} (h : Canon p s) : ResOk p (engineReach s hart c own x mask a) :=
  ite_ok (viaCluster_canon h) (reachPeerBy_canon h fun _ _ h1 => viaCluster_canon h1)

theorem engineRead_canon {hart c first a n} (h : Canon p s) : ResOk p (engineRead s hart c first a n) := by
  unfold engineRead
  refine ite_ok ?_ ?_
  · exact h
  · split
    next e1 =>
      have k1 := canon_of_eq (translate_canon h) e1
      split
      next e2 =>
        have k2 := canon_of_eq (engineReach_canon k1) e2
        exact ite_ok k2 k2
      all_goals next e2 => exact canon_of_eq (engineReach_canon k1) e2
    all_goals next e1 => exact canon_of_eq (translate_canon h) e1

theorem modHead_canon {hart f} (h : Canon p s) : Canon p (modHead s hart f) :=
  modHart_canon h fun _ h1 => h1

theorem enginePut_canon {i pa n v bad} (h : Canon p s) : Canon p (enginePut s i pa n v bad) := by
  unfold enginePut
  extract_lets +onlyGivenNames _ s1 s2
  have hs2 : Canon p s2 := poison_canon (dropL1s_canon h)
  refine ite_ok ?_ (writeOwn_canon hs2)
  extract_lets +onlyGivenNames s3 s4
  have hs4 : Canon p s4 := holdPosted_canon (commitPeer_canon (modHead_canon hs2))
  exact ite_ok hs4 (modHead_canon hs4)

theorem engineWrite_canon {hart c first a n v bad} (h : Canon p s) : ResOk p (engineWrite s hart c first a n v bad) := by
  unfold engineWrite
  refine ite_ok ?_ ?_
  · exact h
  · split
    next e1 =>
      have k1 := canon_of_eq (translate_canon h) e1
      refine ite_ok ?_ ?_
      · exact canon_of_eq (translate_canon h) e1
      · split
        next e2 => exact enginePut_canon (canon_of_eq (engineReach_canon k1) e2)
        · exact engineReach_canon k1
    all_goals next e1 => exact canon_of_eq (translate_canon h) e1

theorem readThen_canon {α : Type} {r} {k : State → Nat → State × Res α} (hr : ResOk p r) (hk : ∀ s v, Canon p s → ResOk p (k s v)) :
    ResOk p (readThen r k) := by
  unfold readThen
  split
  · exact hk _ _ hr
  all_goals exact hr

theorem countDone_canon {r n} (hr : ResOk p r) : ResOk p (countDone r n) := by
  unfold countDone
  split <;> exact hr

/-! ## CopyEngine: The end of a command (R68, R70) -/

theorem confirm_canon {hart} (h : Canon p s) : Canon p (confirm s hart) := by
  unfold confirm
  split
  · split
    · exact ite_ok h (writeRecord_canon h)
    · exact h
  · exact h

theorem confirmAll_canon (h : Canon p s) : Canon p (confirmAll s) :=
  foldl_ok h fun _ _ h1 => confirm_canon h1

theorem decide_canon {hart st n} (h : Canon p s) : Canon p (decide_ s hart st n) :=
  confirm_canon (modHead_canon h)

theorem conclude_canon {i r len} (hr : ResOk p r) : Canon p (conclude i r len) := by
  unfold conclude
  split
  · exact ite_ok (decide_canon hr) (modHead_canon hr)
  · exact decide_canon hr
  all_goals exact modHead_canon hr

theorem pieces_canon {s : State} {hart f stop i j} (hf : ∀ x y, Canon p x → ResOk p (f x y)) (h : Canon p s) : ResOk p
    (pieces hart f stop i s j) := by
  unfold pieces
  split
  · exact h
  · refine ite_ok ?_ ?_
    · exact h
    · split
      next he => exact pieces_canon hf (canon_of_eq (hf _ _ (modHead_canon h)) he)
      all_goals next he => exact canon_of_eq (hf _ _ (modHead_canon h)) he

theorem piece_canon {hart f len d} (hf : ∀ x y, Canon p x → ResOk p (f x y)) (h : Canon p s) : ResOk p (piece hart f len s d) :=
  pieces_canon hf h

theorem command_canon {hart d ok body} (h : Canon p s) (hbody : ∀ x y, Canon p x → Canon p (body x y)) : OutOk p
    (command hart d s ok body) := by
  unfold command
  split
  · exact ite_ok h (ite_ok (decide_canon h) (hbody _ _ h))
  · exact h

/-! ## CopyEngine: COPY, COPY2D, FILL (R67) -/

theorem copiedBytes_canon {d n v} (h : Canon p s) : ResOk p (copiedBytes s d n v) :=
  ite_ok (spend_canon h) h

theorem copyPiece_canon {hart c src0 dst0 src dst n} (h : Canon p s) : ResOk p (copyPiece hart c src0 dst0 src dst n s) := by
  unfold copyPiece
  exact readThen_canon (engineRead_canon h) fun _ _ h1 => ite_ok (countDone_canon (engineWrite_canon (copiedBytes_canon h1))) (by
    split
    next he => exact countDone_canon (engineWrite_canon (copiedBytes_canon (canon_of_eq (engineRead_canon h1) he)))
    next he => exact countDone_canon (engineWrite_canon (copiedBytes_canon (canon_of_eq (engineRead_canon h1) he)))
    next he => exact canon_of_eq (engineRead_canon h1) he
    next he => exact canon_of_eq (engineRead_canon h1) he)

theorem execCopy_canon {hart cmd} (h : Canon p s) : OutOk p (execCopy hart cmd s) :=
  command_canon h fun _ _ h1 => conclude_canon (piece_canon (fun _ _ h2 => copyPiece_canon h2) h1)

theorem execCopy2d_canon {hart cmd} (h : Canon p s) : OutOk p (execCopy2d hart cmd s) :=
  command_canon h fun _ _ h1 => conclude_canon (piece_canon (fun _ _ h2 => copyPiece_canon h2) h1)

theorem execFill_canon {hart cmd} (h : Canon p s) : OutOk p (execFill hart cmd s) :=
  command_canon h fun _ _ h1 => ite_ok (decide_canon h1)
    (conclude_canon (piece_canon (fun _ _ h2 => countDone_canon (engineWrite_canon h2)) h1))

/-! ## CopyEngine: GATHER and SCATTER (R67) -/

theorem indexedPiece_canon {hart c scatter d} (h : Canon p s) : ResOk p (indexedPiece hart c scatter d s) :=
  ite_ok h (readThen_canon (engineRead_canon h) fun _ _ h1 => ite_ok h1
    (ite_ok h1 (ite_ok (readThen_canon (engineRead_canon h1) fun _ _ h2 => countDone_canon (engineWrite_canon h2))
    (readThen_canon (engineRead_canon h1) fun _ _ h3 => countDone_canon (engineWrite_canon h3)))))

theorem indexedCmd_canon {hart cmd scatter} (h : Canon p s) : OutOk p (indexedCmd hart cmd scatter s) :=
  command_canon h fun _ _ h1 => conclude_canon (piece_canon (fun _ _ h2 => indexedPiece_canon h2) h1)

theorem execGather_canon {hart cmd} (h : Canon p s) : OutOk p (execGather hart cmd s) :=
  indexedCmd_canon h

theorem execScatter_canon {hart cmd} (h : Canon p s) : OutOk p (execScatter hart cmd s) :=
  indexedCmd_canon h

/-! ## CopyEngine: MCOPY (R143, R144, R167, R168) -/

theorem sourceBytes_canon {hart c first a n} (h : Canon p s) : ResOk p (sourceBytes hart c first a n s) :=
  readThen_canon (engineRead_canon h) fun _ _ h1 => ite_ok h1 (readThen_canon (engineRead_canon h1) fun _ _ h2 => h2)

theorem groupPiece_canon {hart c len d} (h : Canon p s) : ResOk p (groupPiece hart c len d s) := by
  unfold groupPiece
  exact readThen_canon (sourceBytes_canon h) fun _ _ h1 => ite_ok h1 (by
    split
    next he =>
      split
      · exact canon_of_eq (translate_canon h1) he
      · exact holdOp_canon (modHart_canon (canon_of_eq (translate_canon h1) he) fun _ h2 => h2)
    next he => exact canon_of_eq (translate_canon h1) he
    next he => exact canon_of_eq (translate_canon h1) he
    next he => exact canon_of_eq (translate_canon h1) he)

theorem concludeGroup_canon {i r len} (hr : ResOk p r) : Canon p (concludeGroup i r len) := by
  unfold concludeGroup
  split
  · exact ite_ok (decide_canon hr) (conclude_canon hr)
  · exact conclude_canon hr

theorem execMcopy_canon {hart cmd} (h : Canon p s) : OutOk p (execMcopy hart cmd s) :=
  command_canon h fun _ _ h1 => concludeGroup_canon (piece_canon (fun _ _ h2 => groupPiece_canon h2) h1)

/-! ## CopyEngine: SHLOAD (R60, R67, R69, R423) -/

theorem shloadRows_bytes_canon {f : Nat → State → State × Res Nat} {l v} (hf : ∀ k s, Canon p s → ResOk p (f k s)) (h : Canon p s) :
    ResOk p (shloadRows.bytes f l v s) := by
  induction l generalizing v s with
  | nil => exact h
  | cons k l ih => exact readThen_canon (hf _ _ h) fun _ _ ht => ih ht

theorem shloadRows_canon {i c rb l} (h : Canon p s) : ResOk p (shloadRows i c rb l s) := by
  induction l generalizing s with
  | nil => exact h
  | cons k l ih =>
    refine readThen_canon (shloadRows_bytes_canon (fun _ _ ht => sourceBytes_canon ht) h) fun _ _ ht => ?_
    split
    next he => exact canon_of_eq (ih ht) he
    · exact ih ht

theorem execShload_canon {hart cmd} (h : Canon p s) : OutOk p (execShload hart cmd s) := by
  unfold execShload
  exact command_canon h fun _ _ h1 => by
    extract_lets +onlyGivenNames _ _ _
    split
    · exact decide_canon h1
    · refine ite_ok ?_ ?_
      · exact decide_canon h1
      · split
        next he =>
          have k1 := canon_of_eq (shloadRows_canon h1) he
          exact ite_ok (modHead_canon k1) (decide_canon (modCluster_canon k1 fun _ h2 => h2))
        next he => exact decide_canon (canon_of_eq (shloadRows_canon h1) he)
        next he => exact modHead_canon (canon_of_eq (shloadRows_canon h1) he)
        next he => exact canon_of_eq (shloadRows_canon h1) he

/-! ## CopyEngine: SAVE and RESTORE (R72) -/

theorem restoreLine_canon {a k x} (ha : ArchOk p a) : ArchOk p (restoreLine a k x) :=
  ite_ok (wrV_canon (wrV_canon ha)) (ite_ok (foldl_ok ha fun _ _ h1 => wrP_canon h1) (ite_ok (wrQ_canon ha) ha))

theorem saveLine_canon {hart c t v k} (h : Canon p s) : ResOk p (saveLine hart c t v k s) :=
  engineWrite_canon h

theorem loadLine_canon {hart c t v k} (h : Canon p s) : ResOk p (loadLine hart c t v k s) :=
  ite_ok h (readThen_canon (engineRead_canon h) fun _ _ h1 => modHart_canon h1 fun _ h2 => { h2 with arch := restoreLine_canon h2.arch })

theorem contextMove_canon {s : State} {f i l j} (hf : ∀ x y, Canon p y → ResOk p (f x y)) (h : Canon p s) : ResOk p
    (contextMove f i l j s) := by
  unfold contextMove
  split
  · exact h
  · exact h
  · split
    next he => exact contextMove_canon hf (canon_of_eq (hf _ _ h) he)
    all_goals next he => exact canon_of_eq (hf _ _ h) he

theorem context_canon {i cmd load} (h : Canon p s) : OutOk p (context i cmd load s) := by
  unfold context
  refine command_canon h fun s c hs => ite_ok (decide_canon hs) (ite_ok (decide_canon hs) (ite_ok (decide_canon hs) ?_))
  extract_lets f
  have hf (k : Nat) (t : State) (ht : Canon p t) : ResOk p (f k t) := by
    unfold f
    split
    · exact loadLine_canon ht
    · exact saveLine_canon ht
  split
  next he => exact decide_canon (canon_of_eq (contextMove_canon hf hs) he)
  next he => exact decide_canon (canon_of_eq (contextMove_canon hf hs) he)
  all_goals next he => exact modHead_canon (canon_of_eq (contextMove_canon hf hs) he)

theorem execSave_canon {hart cmd} (h : Canon p s) : OutOk p (execSave hart cmd s) :=
  context_canon h

theorem execRestore_canon {hart cmd} (h : Canon p s) : OutOk p (execRestore hart cmd s) :=
  context_canon h

/-! ## CopyEngine: ROWCOPY and ROWINIT (R85-R87) -/

theorem rowPage_canon {hart c k first a} (h : Canon p s) : ResOk p (rowPage s hart c k first a) := by
  unfold rowPage
  refine ite_ok ?_ ?_
  · exact h
  · split
    next he =>
      have k1 := canon_of_eq (translate_canon h) he
      exact ite_ok k1 k1
    all_goals next he => exact canon_of_eq (translate_canon h) he

theorem rowPages_canon {s : State} {hart c k base l} (h : Canon p s) : ResOk p (rowPages hart c k base l s) := by
  unfold rowPages
  split
  · exact h
  · split
    next e1 =>
      have k1 := canon_of_eq (rowPage_canon h) e1
      split
      next e2 => exact canon_of_eq (rowPages_canon k1) e2
      · exact rowPages_canon k1
    all_goals next e1 => exact canon_of_eq (rowPage_canon h) e1

theorem rowRanges_canon {i c copy} (h : Canon p s) : ResOk p (rowRanges s i c copy) := by
  unfold rowRanges
  extract_lets _ src
  have hsrc : ResOk p src := ite_ok (rowPages_canon h) h
  clear_value src
  split
  · split <;> next he => exact canon_of_eq (rowPages_canon hsrc) he
  all_goals exact hsrc

theorem rowCommand_canon {hart cmd copy} (h : Canon p s) : OutOk p (rowCommand hart cmd copy s) := by
  unfold rowCommand
  exact command_canon h fun _ _ h1 => ite_ok (decide_canon h1) (ite_ok (decide_canon h1) (by
    split
    next he =>
      have k1 := canon_of_eq (rowRanges_canon h1) he
      exact ite_ok (modHead_canon k1) (decide_canon k1)
    next he => exact decide_canon (canon_of_eq (rowRanges_canon h1) he)
    next he => exact canon_of_eq (rowRanges_canon h1) he
    next he => exact canon_of_eq (rowRanges_canon h1) he))

theorem execRowcopy_canon {hart cmd} (h : Canon p s) : OutOk p (execRowcopy hart cmd s) :=
  rowCommand_canon h

theorem execRowinit_canon {hart cmd} (h : Canon p s) : OutOk p (execRowinit hart cmd s) :=
  rowCommand_canon h

theorem sourceReady_canon {l} (h : Canon p s) : ResOk p (sourceReady s l) :=
  ite_ok h (ite_ok (homeRequest_canon h) h)

theorem targetReady_canon {l} (h : Canon p s) : ResOk p (targetReady s l) :=
  ite_ok h (ite_ok (homeRequest_canon h) h)

theorem allReady_canon {f l} (hf : ∀ x y, Canon p x → ResOk p (f x y)) (h : Canon p s) : ResOk p (allReady f l s) :=
  foldl_ok h fun _ _ h1 => hf _ _ h1

theorem settleSource_canon {l} (h : Canon p s) : Canon p (settleSource s l) := by
  unfold settleSource
  extract_lets _ s1
  have hs1 : Canon p s1 := snoop_canon h
  refine modCoh_canon (ite_ok (writeBack_canon hs1) hs1) fun c hc =>
    TabOk.mapVal hc (fun x => match x with | .m | .o | .e => .s | x => x) fun x hx => ?_
  cases x <;> first | decide | exact hx

theorem settleTarget_canon {l} (h : Canon p s) : Canon p (settleTarget s l) := by
  unfold settleTarget
  extract_lets +onlyGivenNames s1
  have hs1 : Canon p s1 := setDir_canon (dropAll_canon (snoop_canon h))
  clear_value s1
  exact
    { hs1 with
      cores := by with_reducible exact hs1.cores.map _
      clusters := by with_reducible exact hs1.clusters.map fun _ _ hc => hc
      lineTd := by with_reducible exact hs1.lineTd.put _ _ }

theorem precharge_canon {l} (h : Canon p s) : Canon p (precharge s l) :=
  modHbm_canon h fun _ h1 => { h1 with openRows := by with_reducible exact h1.openRows.put _ _ }

theorem putStored_canon {l x bad} (h : Canon p s) : Canon p (putStored s l x bad) := by
  unfold putStored
  split
  extract_lets +onlyGivenNames s1
  have hs1 : Canon p s1 := precharge_canon (modHbm_canon h fun _ h1 => cancelScrub_canon h1)
  exact { hs1 with mem := hs1.mem.writeBytes _ _ _, hbm := ite_ok (hs1.hbm.writeBytes _ _ _) hs1.hbm }

theorem copyLine_canon {src dst} (h : Canon p s) : Canon p (copyLine s src dst) :=
  putStored_canon (precharge_canon h)

theorem fillLine_canon {q dst} (h : Canon p s) : Canon p (fillLine s q dst) :=
  putStored_canon h

theorem blockStep_canon {src dst q} (h : Canon p s) : ResOk p (blockStep s src dst q) := by
  unfold blockStep
  extract_lets +onlyGivenNames _ _
  split
  rename_i e1
  split
  rename_i e2
  refine ite_ok ?_ ?_
  · exact canon_of_eq (allReady_canon (fun _ _ h1 => targetReady_canon h1)
      (canon_of_eq (allReady_canon (fun _ _ h2 => sourceReady_canon h2) h) e1)) e2
  · refine ite_ok ?_ ?_
    · extract_lets +onlyGivenNames s1
      have hs1 : Canon p s1 := foldl_ok (foldl_ok (canon_of_eq (allReady_canon (fun _ _ h1 => targetReady_canon h1)
          (canon_of_eq (allReady_canon (fun _ _ h2 => sourceReady_canon h2) h) e1)) e2) fun _ _ h3 => settleSource_canon h3)
          fun _ _ h4 => settleTarget_canon h4
      split
      · exact foldl_ok hs1 fun _ _ h5 => copyLine_canon h5
      · exact foldl_ok hs1 fun _ _ h6 => fillLine_canon h6
    · exact canon_of_eq (allReady_canon (fun _ _ h1 => targetReady_canon h1)
        (canon_of_eq (allReady_canon (fun _ _ h2 => sourceReady_canon h2) h) e1)) e2

theorem execRowBlockStep_canon (h : Canon p s) : OutOk p (execRowBlockStep s) := by
  unfold execRowBlockStep
  extract_lets +onlyGivenNames _
  split
  · refine ite_ok h ?_
    extract_lets src
    have hsrc : ResOk p src := ite_ok (rowPage_canon h) h
    clear_value src
    split
    · refine ite_ok (decide_canon hsrc) ?_
      split
      next he =>
        split
        next hb =>
          have hb := canon_of_eq (blockStep_canon (canon_of_eq (rowPage_canon hsrc) he)) hb
          exact ite_ok (P := Canon p) hb (ite_ok (decide_canon hb) (modHead_canon hb))
      next he => exact decide_canon (canon_of_eq (rowPage_canon hsrc) he)
      next he => exact decide_canon (canon_of_eq (rowPage_canon hsrc) he)
      next he => exact canon_of_eq (rowPage_canon hsrc) he
    · exact decide_canon hsrc
    · exact hsrc
  · exact h

end Sys2Proof.Machine
end

