-- ==== Sys2Proof/Proofs/CanonFabric.lean ====
section
/-!
PROOFS. Canonical form: messages of other modules, groups, attestation and links. Every operation that answers a state
keeps `Canon`, one lemma for each operation, named after it.
-/

namespace Sys2Proof.Machine

variable {p : Part} {s t : State}

/-! ## Peer: Acceptance (R151, R153, R156, R160) -/

theorem laterMsg_canon {m} (h : Canon p s) : Canon p (laterMsg s m) :=
  after_canon h

theorem inOrder_canon {m k} (h : Canon p s) (hk : ∀ x y, Canon p x → Canon p (k x y)) : Canon p (inOrder s m k) :=
  ite_ok h (ite_ok (ite_ok h { h with pairs := h.pairs.put _ _ })
    (foldl_ok (hk _ _ { h with pairs := h.pairs.put _ _ }) fun _ _ h1 => after_canon h1))

theorem noteFlit_canon {m} (h : Canon p s) : Canon p (noteFlit s m) := by
  unfold noteFlit
  split
  · exact modPort_canon h
  · exact h

theorem onMsg_canon {k} (h : Canon p s) (hk : ∀ x y, Canon p x → Canon p (k x y)) : OutOk p (onMsg s k) := by
  unfold onMsg
  split
  · exact h
  · refine ite_ok ?_ ?_
    · exact hk _ _ h
    · extract_lets +onlyGivenNames s1
      have hs1 : Canon p s1 := noteFlit_canon h
      exact ite_ok (logEv_canon hs1) (ite_ok hs1 (ite_ok (relayed_canon hs1) (inOrder_canon hs1 hk)))

/-! ## Peer: Requests and their answers (R158) -/

theorem answered_canon {id} (h : Canon p s) : Canon p (answered s id) :=
  h

/-! ## Peer: Failure detection (R158, R159) -/

theorem askAlive_canon {d} (h : Canon p s) : Canon p (askAlive s d) :=
  after_canon (send_canon h)

theorem report_canon {d} (h : Canon p s) : Canon p (report s d) := by
  unfold report
  refine ite_ok ?_ ?_
  · exact h
  · split
    · exact ite_ok (askAlive_canon h) h
    · exact after_canon h

theorem execRequestTimeout_canon (h : Canon p s) : OutOk p (execRequestTimeout s) := by
  unfold execRequestTimeout
  extract_lets +onlyGivenNames _
  split
  · exact h
  · exact ite_ok h (ite_ok (after_canon (ite_ok h h)) (ite_ok h (report_canon h)))

/-! ## Peer: The home's side (R104, R105, R110, R155) -/

theorem atHome_canon {m k} (h : Canon p s) (hk : ∀ x, Canon p x → Canon p (k x)) : Canon p (atHome s m k) :=
  ite_ok (hk _ h) (logEv_canon h)

theorem msgData_canon {m bad} (h : Canon p s) : ResOk p (msgData s m bad) :=
  ite_ok (P := Canon p) h (logEv_canon h)

theorem execPrds_canon (h : Canon p s) : OutOk p (execPrds s) :=
  onMsg_canon h fun _ _ h1 => atHome_canon h1 fun _ h2 => homeRequest_canon h2

theorem execPrdm_canon (h : Canon p s) : OutOk p (execPrdm s) :=
  onMsg_canon h fun _ _ h1 => atHome_canon h1 fun _ h2 => homeRequest_canon h2

theorem execPwrupd_canon (h : Canon p s) : OutOk p (execPwrupd s) :=
  onMsg_canon h fun _ _ h1 => atHome_canon h1 fun _ h2 => homeRequest_canon (msgData_canon h2)

theorem execPwb_canon (h : Canon p s) : OutOk p (execPwb s) :=
  onMsg_canon h fun _ _ h1 => atHome_canon h1 fun _ h2 => ite_ok (wakeCommands_canon
    (homeAnswer_canon (ite_ok (writeBackFor_canon (ite_ok (mergeMem_canon
    { msgData_canon h2 with lineTd := ((msgData_canon h2).lineTd).put _ _ })
    (setDir_canon (mergeMem_canon { msgData_canon h2 with lineTd := ((msgData_canon h2).lineTd).put _ _ })))) (send_canon h2))))
    (ite_ok (writeBackFor_canon (ite_ok (mergeMem_canon { msgData_canon h2 with lineTd := ((msgData_canon h2).lineTd).put _ _ })
    (setDir_canon (mergeMem_canon { msgData_canon h2 with lineTd := ((msgData_canon h2).lineTd).put _ _ })))) (send_canon h2))

theorem execPack_canon (h : Canon p s) : OutOk p (execPack s) :=
  onMsg_canon h fun _ _ h1 => atHome_canon h1 fun _ h2 => wakeCommands_canon
    (homeAnswer_canon (ite_ok (modCoh_canon h2 fun _ h3 => h3) h2))

theorem execPfwdmiss_canon (h : Canon p s) : OutOk p (execPfwdmiss s) :=
  onMsg_canon h fun _ _ h1 => atHome_canon h1 fun _ h2 => wakeCommands_canon (homeMiss_canon h2)

/-! ## Peer: The peer agent's side (R101, R105, R106, R108-R110) -/

theorem reply_canon {m code dirty} (h : Canon p s) : Canon p (reply s m code dirty) :=
  send_canon h

theorem supply_canon {m excl d} (h : Canon p s) : Canon p (supply s m excl d) :=
  send_canon h

theorem dropPeer_canon {l q} (h : Canon p s) : Canon p (dropPeer s l q) :=
  holdPosted_canon (putPeer_canon (setDir_canon (dropAll_canon h)))

theorem shareCaches_canon {l clean} (h : Canon p s) : Canon p (shareCaches s l clean) :=
  modCoh_canon h fun _ hc => dir_ok (foldl_ok hc fun _ _ hc => ite_ok (shareAgent_canon hc) hc)

theorem fromBuffer_canon {m excl} (h : Canon p s) : Canon p (fromBuffer s m excl) := by
  unfold fromBuffer
  split
  · exact reply_canon (supply_canon h)
  · exact reply_canon h

theorem onSnoop_canon {i k} (hk : ∀ x y, Canon p x → Canon p (k x y)) (h : Canon p s) : OutOk p (onSnoop i k s) := by
  unfold onSnoop
  exact onMsg_canon h fun _ _ h1 => by
    refine ite_ok ?_ ?_
    · exact homeWake_canon (homeGo_canon (hk _ _ (setBusy_canon h1)))
    · refine ite_ok ?_ ?_
      · exact laterMsg_canon h1
      · split
        · exact ite_ok (laterMsg_canon h1) (hk _ _ (snoop_canon h1))
        · exact startSnoops_canon h1

theorem execPfwds_canon (h : Canon p s) : OutOk p (execPfwds s) := by
  refine onSnoop_canon (fun s m hs => ?_) h
  extract_lets
  split
  · exact reply_canon (supply_canon (shareCaches_canon (putPeer_canon hs)))
  · exact fromBuffer_canon hs

theorem execPfwdm_canon (h : Canon p s) : OutOk p (execPfwdm s) := by
  unfold execPfwdm
  exact onSnoop_canon (fun _ _ h1 => by
    extract_lets +onlyGivenNames _
    split
    · exact reply_canon (supply_canon (dropPeer_canon h1))
    · exact fromBuffer_canon (dropPeer_canon h1)
    · exact fromBuffer_canon h1) h

theorem invalidatePeer_canon {m} (h : Canon p s) : Canon p (invalidatePeer s m) := by
  unfold invalidatePeer
  extract_lets +onlyGivenNames _
  split
  · extract_lets +onlyGivenNames s'
    have hs' : Canon p s' := dropPeer_canon h
    exact ite_ok (request_canon hs') (reply_canon hs')
  · exact reply_canon h

theorem execPinv_canon (h : Canon p s) : OutOk p (execPinv s) :=
  onSnoop_canon (fun _ _ h1 => invalidatePeer_canon h1) h

theorem execPbackinv_canon (h : Canon p s) : OutOk p (execPbackinv s) :=
  onSnoop_canon (fun _ _ h1 => invalidatePeer_canon h1) h

theorem dataHome_canon {m d} (h : Canon p s) : Canon p (dataHome s m d) := by
  unfold dataHome
  extract_lets +onlyGivenNames s1
  have hs1 : Canon p s1 := { h with mem := h.mem.writeBytes _ _ _ }
  split
  · refine ite_ok ?_ ?_
    · exact writeBack_canon hs1
    · split
      · exact dataArrive_canon hs1
      · exact hs1
  · exact hs1

theorem dataPeer_canon {m excl d} (h : Canon p s) : Canon p (dataPeer s m excl d) :=
  homeGo_canon (answered_canon { h with peers := by with_reducible exact h.peers.put _ _ })

theorem dataPast_canon {m d bad} (h : Canon p s) : Canon p (dataPast s m d bad) :=
  foldl_ok (answered_canon h) fun _ _ h1 => ite_ok h1 (giveLine_canon h1)

theorem lineArrives_canon {excl} (h : Canon p s) : OutOk p (lineArrives excl s) :=
  onMsg_canon h fun _ _ h1 => ite_ok (wakeCommands_canon (dataPast_canon (msgData_canon h1)))
    (wakeCommands_canon (ite_ok (dataHome_canon { msgData_canon h1 with lineTd := ((msgData_canon h1).lineTd).put _ _ })
    (dataPeer_canon { msgData_canon h1 with lineTd := ((msgData_canon h1).lineTd).put _ _ })))

theorem execPdata_canon (h : Canon p s) : OutOk p (execPdata s) :=
  lineArrives_canon h

theorem execPdatae_canon (h : Canon p s) : OutOk p (execPdatae s) :=
  lineArrives_canon h

theorem countPosted_canon {hs} (h : Canon p s) : Canon p (countPosted s hs) :=
  foldl_ok h fun _ _ h1 => modHart_canon h1 fun _ h2 => h2

theorem execPwrack_canon (h : Canon p s) : OutOk p (execPwrack s) := by
  unfold execPwrack
  exact onMsg_canon h fun _ _ h1 => by
    extract_lets +onlyGivenNames s1
    have hs1 : Canon p s1 := answered_canon h1
    refine ite_ok ?_ ?_
    · exact wakeCommands_canon (ncDone_canon hs1)
    · split
      · extract_lets +onlyGivenNames s2
        have hs2 : Canon p s2 := foldl_ok (countPosted_canon hs1) fun _ _ h2 => modHead_canon h2
        exact wakeCommands_canon (confirmAll_canon
            (tidyPeer_canon (sendPosted_canon { hs2 with peers := by with_reducible exact hs2.peers.put _ _ })))
      · exact wakeCommands_canon hs1

theorem execPwback_canon (h : Canon p s) : OutOk p (execPwback s) :=
  onMsg_canon h fun _ _ h1 => wakeCommands_canon (ncDone_canon (answered_canon h1))

/-! ## Peer: Probes (R139-R142) -/

theorem execFprobe_canon (h : Canon p s) : OutOk p (execFprobe s) :=
  onMsg_canon h fun _ _ h1 => ite_ok (send_canon h1) (after_canon h1)

theorem endProbe_canon {id d lost} (h : Canon p s) : Canon p (endProbe s id d lost) :=
  wakeCommands_canon (foldl_ok h fun _ _ h1 => modHart_canon h1 fun _ h2 => h2)

theorem execFecho_canon (h : Canon p s) : OutOk p (execFecho s) :=
  onMsg_canon h fun _ _ h1 => endProbe_canon h1

theorem execProbeTimeout_canon (h : Canon p s) : OutOk p (execProbeTimeout s) :=
  ite_ok (P := Canon p) (report_canon (endProbe_canon h)) h

/-! ## Peer: Hold responses (R92) -/

theorem execPhold_canon (h : Canon p s) : OutOk p (execPhold s) :=
  onMsg_canon h fun _ _ h1 => foldl_ok h1 fun _ _ h2 => after_canon h2

theorem execHoldResponseTimer_canon (h : Canon p s) : OutOk p (execHoldResponseTimer s) :=
  ite_ok h (after_canon (foldl_ok (foldl_ok h fun _ _ h1 => send_canon h1) fun _ _ h2 => send_canon h2))

/-! ## Group: Entries (R165, R166) -/

theorem onGroup_canon {i k} (h : Canon p s) (hk : ∀ x y z, Canon p x → Canon p (k x y z)) : OutOk p (onGroup i s k) := by
  unfold onGroup
  exact onMsg_canon h fun _ _ h1 => by
    split
    · exact hk _ _ _ h1
    · exact h1

/-! ## Group: The sequencer (R143, R168) -/

theorem stampNext_canon {n} (h : Canon p s) : Canon p (stampNext s n) := by
  unfold stampNext
  extract_lets +onlyGivenNames _
  split
  · exact h
  · exact ite_ok h (foldl_ok (modGroup_canon h) fun _ _ h1 => send_canon h1)

theorem stampAll_canon {s : State} {n i} (h : Canon p s) : Canon p (stampAll n i s) := by
  unfold stampAll
  split
  · exact h
  · exact stampAll_canon (stampNext_canon h)

theorem stampWaiting_canon {n} (h : Canon p s) : Canon p (stampWaiting s n) :=
  stampAll_canon h

theorem execMreq_canon (h : Canon p s) : OutOk p (execMreq s) :=
  onGroup_canon h fun _ _ _ h1 => ite_ok h1 (stampWaiting_canon (modGroup_canon (msgData_canon h1)))

/-! ## Group: The members (R144, R145, R168, R286) -/

theorem unitWrote_canon {ls} (h : Canon p s) : Canon p (unitWrote s ls) :=
  foldl_ok h fun _ _ h1 => invalidateHolders_canon (writeBack_canon h1)

theorem recordReplay_canon {g m} (h : Canon p s) : Canon p (recordReplay s g m) := by
  unfold recordReplay
  refine ite_ok ?_ ?_
  · exact h
  · extract_lets +onlyGivenNames _ _ _ s1
    have hs1 : Canon p s1 := snoop_canon (snoop_canon h)
    exact unitWrote_canon { hs1 with mem := (hs1.mem.writeBytes _ _ _).writeBytes _ _ _ }

theorem ownApplied_canon {n m old} (h : Canon p s) : Canon p (ownApplied s n m old) := by
  unfold ownApplied
  refine ite_ok ?_ ?_
  · exact h
  · extract_lets +onlyGivenNames _
    split
    · exact h
    · refine ite_ok ?_ ?_
      · extract_lets +onlyGivenNames s1
        have hs1 : Canon p s1 := modGroup_canon h
        exact ite_ok hs1 (modHart_canon hs1 fun _ h1 => h1)
      · exact modGroup_canon h

theorem applyOp_canon {n m} (h : Canon p s) : Canon p (applyOp s n m) := by
  unfold applyOp
  extract_lets +onlyGivenNames _ _ _ _
  split
  extract_lets +onlyGivenNames s1
  have hs1 : Canon p s1 := mergeMem_canon (snoop_canon h)
  exact send_canon (ownApplied_canon (squashWhere_canon
    (modGroup_canon (recordReplay_canon (unitWrote_canon { hs1 with lineTd := hs1.lineTd.put _ _ })))))

theorem nextEarly_canon {n} (h : Canon p s) : Canon p (nextEarly s n) := by
  unfold nextEarly
  extract_lets +onlyGivenNames _
  split
  · exact after_canon (modGroup_canon h)
  · exact h

theorem execMapply_canon (h : Canon p s) : OutOk p (execMapply s) :=
  onGroup_canon h fun _ _ _ h1 => ite_ok h1 (ite_ok (laterMsg_canon h1)
    (ite_ok (wakeCommands_canon (nextEarly_canon (applyOp_canon (msgData_canon h1))))
    (ite_ok (msgData_canon h1) (modGroup_canon (msgData_canon h1)))))

/-! ## Group: Completion (R144, R168) -/

theorem countHeld_canon {o} (h : Canon p s) : Canon p (countHeld s o) :=
  ite_ok h (modHart_canon h fun _ h1 => h1)

theorem releaseHeld_canon {n f} (h : Canon p s) : Canon p (releaseHeld s n f) :=
  wakeCommands_canon (confirmAll_canon (foldl_ok (modGroup_canon h) fun _ _ h1 => answered_canon (countHeld_canon h1)))

theorem execMdone_canon (h : Canon p s) : OutOk p (execMdone s) := by
  unfold execMdone
  exact onMsg_canon h fun _ _ h1 => by
    extract_lets +onlyGivenNames s1
    have hs1 : Canon p s1 := answered_canon h1
    split
    · exact releaseHeld_canon hs1
    · exact hs1

/-! ## Group: Re-forming (R169-R171) -/

theorem askSlot_canon {g src stamp} (h : Canon p s) : Canon p (askSlot s g src stamp) := by
  unfold askSlot
  extract_lets +onlyGivenNames want
  have hwant (s : State) (l : Nat) (hs : Canon p s) : Canon p (want s l) := by
    refine askHome_canon ?_
    split
    · exact ite_ok hs (dropPeer_canon hs)
    · exact hs
  exact ite_ok h (hwant _ _ (hwant _ _ h))

theorem reformDone_canon {n top} (h : Canon p s) : Canon p (reformDone s n top) :=
  foldl_ok (modGroup_canon h) fun _ _ h1 => send_canon h1

theorem replayOne_canon {g src stamp} (h : Canon p s) : Canon p (replayOne s g src stamp) := by
  unfold replayOne
  split
  · exact h
  · exact foldl_ok h fun _ _ h1 => send_canon h1

theorem reformTry_canon {n} (h : Canon p s) : Canon p (reformTry s n) := by
  unfold reformTry
  refine ite_ok ?_ ?_
  · exact h
  · split
    refine ite_ok ?_ ?_
    · exact modGroup_canon h
    · refine ite_ok ?_ ?_
      · refine ite_ok ?_ ?_
        · extract_lets +onlyGivenNames _ s1
          have hs1 : Canon p s1 := modGroup_canon (foldl_ok h fun _ _ h1 => replayOne_canon h1)
          exact ite_ok (reformDone_canon hs1) hs1
        · exact after_canon (ite_ok h (foldl_ok (modGroup_canon h) fun _ _ h2 => askSlot_canon h2))
      · exact ite_ok (reformDone_canon h) h

theorem execMack_canon (h : Canon p s) : OutOk p (execMack s) :=
  onGroup_canon h fun _ _ _ h1 => ite_ok (reformTry_canon (modGroup_canon h1))
    (stampWaiting_canon (foldl_ok (modGroup_canon (modGroup_canon h1)) fun _ _ h2 => send_canon h2))

theorem execMstate_canon (h : Canon p s) : OutOk p (execMstate s) :=
  onGroup_canon h fun _ _ _ h1 => send_canon (modGroup_canon h1)

theorem execMstateack_canon (h : Canon p s) : OutOk p (execMstateack s) := by
  unfold execMstateack
  exact onMsg_canon h fun _ _ h1 => by
    split
    · exact h1
    · exact ite_ok h1 (reformTry_canon (modGroup_canon h1))

theorem resendHeld_canon {n o} (h : Canon p s) : Canon p (resendHeld s n o) := by
  unfold resendHeld
  extract_lets +onlyGivenNames _ _ _ _ s1
  have hs1 : Canon p s1 := modGroup_canon (answered_canon h)
  exact request_canon (ite_ok hs1 (modHart_canon hs1 fun _ h1 => h1))

theorem execMresume_canon (h : Canon p s) : OutOk p (execMresume s) :=
  onGroup_canon h fun _ _ _ h1 => foldl_ok (releaseHeld_canon (modGroup_canon h1)) fun _ _ h2 => resendHeld_canon h2

/-! ## Group: Commands of an entry (R166, R424) -/

theorem execGroupActivate_canon (h : Canon p s) : OutOk p (execGroupActivate s) :=
  ite_ok h (modGroup_canon h)

theorem execGroupReform_canon (h : Canon p s) : OutOk p (execGroupReform s) :=
  ite_ok (reformTry_canon h) (ite_ok h (after_canon (foldl_ok (modGroup_canon h) fun _ _ h1 => send_canon h1)))

theorem execSurvivorUnreachable_canon (h : Canon p s) : OutOk p (execSurvivorUnreachable s) :=
  ite_ok (modGroup_canon h) h

theorem freeMamo_canon {o} (h : Canon p s) : Canon p (freeMamo s o) :=
  ite_ok h (spend_canon (modHart_canon h fun _ h1 => h1))

theorem execGroupDeactivate_canon (h : Canon p s) : OutOk p (execGroupDeactivate s) :=
  modGroup_canon (releaseHeld_canon (foldl_ok h fun _ _ h1 => freeMamo_canon h1))

/-! ## Links: Messages on one link -/

theorem linkMsg_canon {q code force} (h : Canon p s) : Canon p (linkMsg s q code force) :=
  send_canon h

theorem onLink_canon {k} (h : Canon p s) (hk : ∀ x y z, Canon p x → Canon p (k x y z)) : OutOk p (onLink s k) :=
  onMsg_canon h fun _ _ h1 => hk _ _ _ h1

/-! ## Links: Lost devices (R112, R146, R159, R160, R169) -/

theorem failPosted_canon {d hart} (h : Canon p s) : Canon p (failPosted d s hart) := by
  unfold failPosted
  split
  · split
    · exact h
    · exact modHead_canon h
  · exact h

theorem orphanHome_canon {s0 d} (hs0 : Canon p s0) : Canon p (orphanHome s0 d) := by
  unfold orphanHome
  extract_lets +onlyGivenNames s1
  have hs1 : Canon p s1 := foldl_ok hs0 fun _ _ h1 => failPosted_canon h1
  exact foldl_ok (countPosted_canon { hs1 with peers := by with_reducible exact hs1.peers.map _ }) fun _ _ h2 => dropFills_canon h2

theorem freezeGroups_canon {d} (h : Canon p s) : Canon p (freezeGroups s d) :=
  foldl_ok h fun _ _ h1 => ite_ok (modGroup_canon h1) h1

theorem recordLost_canon {d} (h : Canon p s) : Canon p (recordLost s d) :=
  ite_ok h (wakeCommands_canon (confirmAll_canon (announce_canon
    (freezeGroups_canon (orphanHome_canon (foldl_ok h fun _ _ h1 => ncDone_canon (answered_canon h1)))))))

theorem floodLost_canon {d} (h : Canon p s) : Canon p (floodLost s d) :=
  foldl_ok h fun _ _ h1 => send_canon h1

theorem declare_canon {d} (h : Canon p s) : Canon p (declare s d) :=
  ite_ok h (floodLost_canon (recordLost_canon h))

theorem execLostdecl_canon (h : Canon p s) : OutOk p (execLostdecl s) :=
  onMsg_canon h fun _ _ h1 => declare_canon h1

theorem execLostself_canon (h : Canon p s) : OutOk p (execLostself s) :=
  onMsg_canon h fun _ _ h1 => ite_ok (declare_canon h1) h1

theorem execHbreq_canon (h : Canon p s) : OutOk p (execHbreq s) :=
  onMsg_canon h fun _ _ h1 => send_canon h1

theorem execHbans_canon (h : Canon p s) : OutOk p (execHbans s) :=
  onMsg_canon h fun _ _ h1 => h1

theorem watchPath_canon {d since noPath} (h : Canon p s) : Canon p (watchPath s d since noPath) :=
  ite_ok h (ite_ok (after_canon h) (ite_ok (declare_canon h) (after_canon h)))

theorem askDown_canon {d} (h : Canon p s) : Canon p (askDown s d) := by
  unfold askDown
  refine ite_ok ?_ ?_
  · exact h
  · refine ite_ok ?_ ?_
    · exact h
    · split
      · exact askAlive_canon h
      · exact ite_ok h (ite_ok (declare_canon h) (after_canon h))

theorem execDeviceLostTimeout_canon (h : Canon p s) : OutOk p (execDeviceLostTimeout s) :=
  ite_ok (P := Canon p) (watchPath_canon h) (askDown_canon h)

/-! ## Links: Links (R147, R148, R156) -/

theorem linkDown_canon {q} (h : Canon p s) : Canon p (linkDown s q) :=
  after_canon (modPort_canon h)

theorem portTimer_canon {dt i q} (h : Canon p s) : Canon p (portTimer s dt i q) :=
  ite_ok h (after_canon h)

theorem execLinkTrain_canon (h : Canon p s) : OutOk p (execLinkTrain s) := by
  unfold execLinkTrain
  refine ite_ok ?_ ?_
  · exact h
  · refine ite_ok ?_ ?_
    · extract_lets +onlyGivenNames _ s1
      have hs1 : Canon p s1 := portTimer_canon (portTimer_canon (modPort_canon h))
      exact ite_ok (P := Canon p) hs1 (after_canon hs1)
    · exact logEv_canon (modPort_canon h)

theorem execHeartbeat_canon (h : Canon p s) : OutOk p (execHeartbeat s) :=
  ite_ok (onLink_canon h fun _ _ _ h1 => h1) (ite_ok (after_canon (linkMsg_canon h)) h)

theorem execFlitCrcFail_canon (h : Canon p s) : OutOk p (execFlitCrcFail s) :=
  ite_ok h (ite_ok (linkDown_canon h) (modPort_canon h))

theorem execHeartbeatTimeout_canon (h : Canon p s) : OutOk p (execHeartbeatTimeout s) :=
  ite_ok h (ite_ok (linkDown_canon h) (after_canon h))

theorem execLinkRetrainTimeout_canon (h : Canon p s) : OutOk p (execLinkRetrainTimeout s) :=
  ite_ok (modPort_canon h) h

theorem onAttest_canon {q x} (h : Canon p s) : Canon p (onAttest s q x) :=
  ite_ok (send_canon (spend_canon h)) (ite_ok (modPort_canon h) h)

theorem execAttest_canon (h : Canon p s) : OutOk p (execAttest s) :=
  ite_ok (onMsg_canon h fun _ _ h1 => onAttest_canon h1) (ite_ok h (send_canon (modPort_canon (spend_canon h))))

/-! ## Links: Wavelength parking (R172-R174) -/

theorem startRejoin_canon {q} (h : Canon p s) : Canon p (startRejoin s q) :=
  ite_ok (after_canon (modPort_canon h)) h

theorem execPortIdlePark_canon (h : Canon p s) : OutOk p (execPortIdlePark s) :=
  ite_ok (linkMsg_canon h) h

theorem execParkreq_canon (h : Canon p s) : OutOk p (execParkreq s) :=
  onLink_canon h fun _ _ _ h1 => ite_ok (linkMsg_canon (modPort_canon h1)) h1

theorem execParkack_canon (h : Canon p s) : OutOk p (execParkack s) :=
  onLink_canon h fun _ _ _ h1 => ite_ok (modPort_canon h1) h1

theorem execWakereq_canon (h : Canon p s) : OutOk p (execWakereq s) :=
  onLink_canon h fun _ _ _ h1 => ite_ok (linkMsg_canon (modPort_canon h1)) (ite_ok h1 (startRejoin_canon (linkMsg_canon h1)))

theorem execWakeack_canon (h : Canon p s) : OutOk p (execWakeack s) :=
  onLink_canon h fun _ _ _ h1 => ite_ok (startRejoin_canon (modPort_canon h1)) (modPort_canon h1)

theorem execPortWake_canon (h : Canon p s) : OutOk p (execPortWake s) :=
  ite_ok (linkMsg_canon (modPort_canon h)) h

theorem execWavelengthRejoin_canon (h : Canon p s) : OutOk p (execWavelengthRejoin s) := by
  unfold execWavelengthRejoin
  extract_lets +onlyGivenNames _ _
  split
  · exact ite_ok (modPort_canon h) (ite_ok (modPort_canon h) h)
  · exact h

theorem execForcedPark_canon (h : Canon p s) : OutOk p (execForcedPark s) := by
  unfold execForcedPark
  exact foldl_ok (P := Canon p) h fun _ _ hs => linkMsg_canon hs

theorem execForcedParkRelease_canon (h : Canon p s) : OutOk p (execForcedParkRelease s) := by
  unfold execForcedParkRelease
  split
  · exact ite_ok (foldl_ok h fun _ _ h1 => ite_ok (linkMsg_canon (modPort_canon h1)) h1) h
  · exact h

/-! ## Links: Relay and acknowledgement (R150-R153) -/

theorem execMessageRelay_canon (h : Canon p s) : OutOk p (execMessageRelay s) := by
  unfold execMessageRelay
  split
  · exact h
  · refine ite_ok ?_ ?_
    · exact after_canon h
    · extract_lets +onlyGivenNames t
      have ht : Canon p t := noteFlit_canon h
      split
      · exact logEv_canon ht
      · exact ite_ok (logEv_canon ht) (ite_ok ht (relayed_canon ht))

theorem execUnknownMessageCode_canon (h : Canon p s) : OutOk p (execUnknownMessageCode s) := by
  unfold execUnknownMessageCode
  split
  · exact logEv_canon (noteFlit_canon h)
  · exact logEv_canon h

theorem execPairAcknowledgement_canon (h : Canon p s) : OutOk p (execPairAcknowledgement s) :=
  { h with pairs := h.pairs.put _ _ }

end Sys2Proof.Machine
end

