-- ==== Sys2Proof/Proofs/CanonHarts.lean ====
section
/-!
PROOFS. Canonical form: harts and threads, system instructions, and the controllers of the stacks. Every operation
that answers a state keeps `Canon`, one lemma for each operation, named after it.
-/

namespace Sys2Proof.Machine

variable {p : Part} {s t : State}

/-! ## Thread: Creating harts (R203-R209, R350, R351) -/

theorem copyG_canon {q c l i} (hc : ArchOk p c) : ArchOk p (copyG q c l i) :=
  hc.of_tiles (by simp only [copyG])

theorem copyV_canon {q c l i} (hc : ArchOk p c) : ArchOk p (copyV q c l i) :=
  hc.of_tiles (by simp only [copyV])

theorem spawnArch_canon {q entry ctl lo hi} : ArchOk p (spawnArch q entry ctl lo hi) :=
  ite_ok (copyV_canon (copyG_canon childArch_canon)) (copyG_canon childArch_canon)

theorem spawnBody_canon {rd rpair rctl lo hi place} (h : Canon p s) : EffOk p (spawnBody rd rpair rctl lo hi place s) := by
  unfold spawnBody
  exact guardTrap_canon h (guardTrap_canon h (released_canon h fun _ h1 => setG_canon (by
    split
    · exact placeHart_canon h1 spawnArch_canon
    · exact h1)))

theorem execSpawn_canon {c rd rpair rctl lo hi place} (h : Canon p s) : OutOk p (execSpawn c rd rpair rctl lo hi place s) :=
  serial_canon h fun _ h1 => spawnBody_canon h1

theorem adjustCounter_canon {cc d k} (h : Canon p s) (hk : ∀ x, Canon p x → Canon p (k x)) : EffOk p (adjustCounter s cc d k) :=
  ite_ok (hk _ h) (commitNow_canon (rmw_canon h fun _ _ h1 => hk _ h1))

theorem recordGang_canon {i g} (h : Canon p s) (hg : GangOk p g) : Canon p (recordGang s i g) :=
  modDie_canon h fun _ hx => putGang_ok hx fun _ hy => Option.some.inj hy ▸ hg

theorem spawngBody_canon {rd rpair rrule rext hi place} (h : Canon p s) : EffOk p (spawngBody rd rpair rrule rext hi place s) := by
  unfold spawngBody
  exact guardTrap_canon h (guardTrap_canon h (released_canon h fun _ h1 => by
    refine ite_ok ?_ ?_
    · exact adjustCounter_canon h1 fun _ h2 => setG_canon h2
    · refine ite_ok ?_ ?_
      · exact ite_ok (setG_canon h1) (thenDo_canon (translate_canon h1) fun _ _ h3 => setG_canon h3)
      · split
        · exact ite_ok (setG_canon h1) (thenDo_canon (translate_canon h1) fun _ _ h4 => setG_canon h4)
        · exact adjustCounter_canon h1 fun _ h5 => setG_canon (recordGang_canon h5 (copyG_canon childArch_canon))))

theorem execSpawng_canon {c rd rpair rrule rext hi place} (h : Canon p s) : OutOk p (execSpawng c rd rpair rrule rext hi place s) :=
  serial_canon h fun _ h1 => spawngBody_canon h1

/-! ## Thread: Task nodes (R210, R211, R352) -/

theorem startCounter_canon {a} (h : Canon p s) : ResOk p (startCounter s a) := by
  unfold startCounter
  split
  next e1 =>
    have k1 := canon_of_eq (translate_canon h) e1
    refine ite_ok ?_ ?_
    · exact canon_of_eq (translate_canon h) e1
    · split <;> next e2 => exact canon_of_eq (readLine_canon (noteUsed_canon k1)) e2
  all_goals next e1 => exact canon_of_eq (translate_canon h) e1

theorem nodeArch_canon {q x addr} : ArchOk p (nodeArch q x addr) :=
  (childArch_canon (q := q) (entry := descWord x 0)).of_tiles (by simp only [nodeArch])

theorem nodeOf_canon {x addr start} : NodeOk p (nodeOf s x addr start) :=
  nodeArch_canon

theorem postNode_canon {n} (h : Canon p s) (hn : NodeOk p n) : ResOk p (postNode s n) :=
  ite_ok h (ite_ok h (modDie_canon h fun _ h1 =>
    { h1 with pool := List.forall_mem_append.2 ⟨h1.pool, List.forall_mem_cons.2 ⟨hn, (List.forall_mem_nil _)⟩⟩ }))

theorem taskBody_canon {waiting rd rdesc} (h : Canon p s) : EffOk p (taskBody waiting rd rdesc s) := by
  unfold taskBody
  refine thenDo_canon (load_canon h) fun _ _ ht => ?_
  extract_lets _ _ post
  have hpost (s : State) (pa : Option Nat) (hs : Canon p s) : EffOk p (post s pa) := setG_canon (postNode_canon hs nodeOf_canon)
  refine guardTrap_canon ht (guardTrap_canon ht (ite_ok ?_ ?_))
  · exact thenDo_canon (startCounter_canon ht) fun _ _ hu => released_canon hu fun _ hv => hpost _ _ hv
  · exact released_canon ht fun _ hu => hpost _ _ hu

theorem execTask_canon {c rd rdesc} (h : Canon p s) : OutOk p (execTask c rd rdesc s) :=
  serial_canon h fun _ h1 => taskBody_canon h1

theorem execTaskw_canon {c rd rdesc} (h : Canon p s) : OutOk p (execTaskw c rd rdesc s) :=
  serial_canon h fun _ h1 => taskBody_canon h1

/-! ## Thread: Exit and waiting (R212, R213, R353, R354) -/

theorem exitBody_canon (h : Canon p s) : EffOk p (exitBody s) := by
  unfold exitBody
  refine ite_ok ?_ ?_
  · exact h
  · exact guardTrap_canon h (by
      split
      next he => exact released_canon h fun _ h1 => vacate_canon (pulseCur_canon (effOk_of_eq (adjustCounter_canon h fun _ h2 => h2) he))
      · exact adjustCounter_canon h fun _ h2 => h2)

theorem execExit_canon {c} (h : Canon p s) : OutOk p (execExit c s) :=
  serialThen_canon (fun _ h1 => h1) h fun _ h2 => exitBody_canon h2

theorem waitcBody_canon {rctr lim} (h : Canon p s) : EffOk p (waitcBody rctr lim s) :=
  ite_ok (ite_ok h h) (thenDo_canon (translate_canon h) fun _ _ h1 => thenDo_canon (readLine_canon h1) fun _ _ h2 => ite_ok h2
    (updHart_canon (touchAll_canon h2) fun _ h3 => { h3 with chunk := chunkFresh_canon h3.arch }))

theorem execWaitc_canon {c rctr la lb lc ld} (h : Canon p s) : OutOk p (execWaitc c rctr la lb lc ld s) :=
  serial_canon h fun _ h1 => waitcBody_canon h1

/-! ## Thread: Barriers (R355, R356) -/

theorem baraBody_canon {rd b} (h : Canon p s) : EffOk p (baraBody rd b s) :=
  guardTrap_canon h (released_canon h fun _ h1 => setG_canon (setBar_canon h1))

theorem execBara_canon {c rd b} (h : Canon p s) : OutOk p (execBara c rd b s) :=
  serial_canon h fun _ h1 => baraBody_canon h1

theorem barwBody_canon {rt b} (h : Canon p s) : EffOk p (barwBody rt b s) :=
  guardTrap_canon h (ite_ok h h)

theorem execBarw_canon {c rt b} (h : Canon p s) : OutOk p (execBarw c rt b s) :=
  serial_canon h fun _ h1 => barwBody_canon h1

theorem barinitBody_canon {rn b} (h : Canon p s) : EffOk p (barinitBody rn b s) :=
  guardTrap_canon h (guardTrap_canon h (setBar_canon h))

theorem execBarinit_canon {c rn b} (h : Canon p s) : OutOk p (execBarinit c rn b s) :=
  serial_canon h fun _ h1 => barinitBody_canon h1

/-! ## Thread: Yield and user interrupts (R357-R360) -/

theorem yieldPark_canon (h : Canon p s) : Canon p (yieldPark s) :=
  ite_ok h (parkCur_canon h)

theorem execYield_canon {c} (h : Canon p s) : OutOk p (execYield c s) := by
  unfold execYield
  extract_lets +onlyGivenNames s1
  have hs1 : Canon p s1 := openChunk_canon h
  exact ite_ok (P := Canon p) (yieldPark_canon (retire_canon hs1)) (retire_canon hs1)

theorem execUiret_canon {c} (h : Canon p s) : OutOk p (execUiret c s) := by
  unfold execUiret
  extract_lets +onlyGivenNames s1
  have hs1 : Canon p s1 := openChunk_canon h
  exact ite_ok (P := Canon p) (ite_ok (settle_canon (advance_canon (userReturn_canon hs1))) (raiseAt_canon hs1)) (retire_canon hs1)

theorem execUien_canon {c v} (h : Canon p s) : OutOk p (execUien c v s) :=
  plain_canon h fun _ h1 => updArch_canon h1 fun _ h2 => h2

/-! ## System: Watchdogs (R398, R399) -/

theorem bindDog_canon {hart win} (h : Canon p s) : Canon p (bindDog s hart win) := by
  unfold bindDog
  extract_lets +onlyGivenNames _ _ _ _
  split
  · exact { h with dogs := by with_reducible exact h.dogs.put _ _ }
  · exact h

theorem unbindDog_canon {hart} (h : Canon p s) : Canon p (unbindDog s hart) := by
  unfold unbindDog
  split
  · exact { h with dogs := by with_reducible exact h.dogs.put _ _ }
  · exact h

/-! ## System: The registers (R10, R361) -/

theorem csrWrite_canon {n v ones} (h : Canon p s) : Canon p (csrWrite s n v ones) := by
  unfold csrWrite
  split
  · exact ite_ok (bindDog_canon h) (unbindDog_canon h)
  · extract_lets +onlyGivenNames _ s1
    have hs1 : Canon p s1 := ite_ok h h
    exact ite_ok { hs1 with dogs := by with_reducible exact hs1.dogs.map _ } hs1
  · exact updArch_canon h fun _ h1 => csrStore_canon h1

theorem csrAccess_canon {c n writes body} (h : Canon p s) (hbody : ∀ x, Canon p x → Canon p (body x)) : OutOk p
    (csrAccess c n writes s body) :=
  decodeFault_canon h fun _ h1 => serial_canon h1 fun _ h2 => hbody _ (leaveSolo_canon h2)

theorem execCsrr_canon {c rd n} (h : Canon p s) : OutOk p (execCsrr c rd n s) :=
  csrAccess_canon h fun _ h1 => setG_canon h1

theorem execCsrw_canon {c rd rs n} (h : Canon p s) : OutOk p (execCsrw c rd rs n s) :=
  csrAccess_canon h fun _ h1 => setG_canon (csrWrite_canon h1)

theorem execCsrs_canon {c rd rs n} (h : Canon p s) : OutOk p (execCsrs c rd rs n s) :=
  csrAccess_canon h fun _ h1 => setG_canon (ite_ok h1 (csrWrite_canon h1))

theorem execCsrc_canon {c rd rs n} (h : Canon p s) : OutOk p (execCsrc c rd rs n s) :=
  csrAccess_canon h fun _ h1 => setG_canon (ite_ok h1 (csrWrite_canon h1))

/-! ## System: Traps, returns, waits (R363, R390, R391) -/

theorem execEcall_canon {c} (h : Canon p s) : OutOk p (execEcall c s) :=
  serialThen_canon (fun _ h1 => h1) h fun _ h2 => deliver_canon h2

theorem execEbreak_canon {c} (h : Canon p s) : OutOk p (execEbreak c s) :=
  serial_canon h fun _ h1 => h1

theorem returnEff_canon {m} (h : Canon p s) : EffOk p (returnEff m s) :=
  updHart_canon (trapReturn_canon (updArch_canon h fun _ h1 => ite_ok h1 h1)) fun _ h2 => h2

theorem execSret_canon {c} (h : Canon p s) : OutOk p (execSret c s) :=
  systemThen_canon (fun _ h1 => freshChunk_canon h1) h fun _ h2 => ite_ok h2 (returnEff_canon h2)

theorem execMret_canon {c} (h : Canon p s) : OutOk p (execMret c s) :=
  systemThen_canon (fun _ h1 => freshChunk_canon h1) h fun _ h2 => returnEff_canon h2

theorem wfiBody_canon (h : Canon p s) : EffOk p (wfiBody s) :=
  ite_ok h h

theorem parkIrq_canon (h : Canon p s) : Canon p (parkIrq s) :=
  ite_ok (parkCur_canon h) h

theorem execWfi_canon {c} (h : Canon p s) : OutOk p (execWfi c s) := by
  unfold execWfi
  split
  next he => exact parkIrq_canon (outOk_of_eq (system_canon h fun _ h1 => wfiBody_canon h1) he)
  · exact system_canon h fun _ h1 => wfiBody_canon h1

theorem execChunkbrk_canon {c} (h : Canon p s) : OutOk p (execChunkbrk c s) :=
  serial_canon h fun _ h1 => h1

theorem execHalt_canon {c} (h : Canon p s) : OutOk p (execHalt c s) :=
  systemThen_canon (fun _ h1 => h1) h fun _ h2 => released_canon h2 fun _ h3 => vacate_canon h3

/-! ## System: Invalidation (R40, R41, R364) -/

theorem invalidate_canon {form asid va} (h : Canon p s) : EffOk p (invalidate form asid va s) := by
  unfold invalidate
  split
  · exact ite_ok h h
  · exact offer_canon h

theorem execTlbinv_canon {c rasid raddr} (h : Canon p s) : OutOk p (execTlbinv c rasid raddr s) :=
  system_canon h fun _ h1 => invalidate_canon h1

theorem execTlbinvAs_canon {c rasid} (h : Canon p s) : OutOk p (execTlbinvAs c rasid s) :=
  system_canon h fun _ h1 => invalidate_canon h1

theorem execTlbinvall_canon {c} (h : Canon p s) : OutOk p (execTlbinvall c s) :=
  system_canon h fun _ h1 => invalidate_canon h1

/-! ## System: Slot tables and the save engine (R365, R366) -/

theorem slotcfgBody_canon {rd rsel rval} (h : Canon p s) : EffOk p (slotcfgBody rd rsel rval s) :=
  guardTrap_canon h (setG_canon (foldl_ok h fun _ _ h1 => modEngine_canon h1 fun _ h2 => ite_ok h2 (h2.put _ _)))

theorem execSlotcfg_canon {c rd rsel rval} (h : Canon p s) : OutOk p (execSlotcfg c rd rsel rval s) :=
  system_canon h fun _ h1 => slotcfgBody_canon h1

theorem contextCmd_canon {opc rb rh v q q5 other} (h : Canon p s) : EffOk p (contextCmd opc rb rh v q q5 other s) :=
  guardTrap_canon h (pushCommand_canon h)

theorem execVsavectx_canon {c rb rh v q q5 other} (h : Canon p s) : OutOk p (execVsavectx c rb rh v q q5 other s) :=
  decodeFault_canon h fun _ h1 => serial_canon h1 fun _ h2 => contextCmd_canon h2

theorem execVrestctx_canon {c rb rh v q q5 other} (h : Canon p s) : OutOk p (execVrestctx c rb rh v q q5 other s) :=
  decodeFault_canon h fun _ h1 => serial_canon h1 fun _ h2 => contextCmd_canon h2

/-! ## HbmCtl: Retirement (R401, R402, R421) -/

theorem retireUnit_canon {kind cause unit} (h : Canon p s) : Canon p (retireUnit s kind cause unit) :=
  announce_canon h

/-! ## HbmCtl: Requests (R76, R79, R83, R84, R89) -/

theorem writeGranule_canon {r} (h : Canon p s) : Canon p (writeGranule s r) := by
  unfold writeGranule
  extract_lets
  split
  extract_lets _ s1 s2
  have hs1 : Canon p s1 := putGranule_canon h
  have hs2 : Canon p s2 := ite_ok hs1 (mergeMem_canon (snoop_canon hs1))
  clear_value s1 s2
  exact ite_ok hs1 (poison_canon (putLineTd_canon hs2))

theorem serveHbm_canon {k r} (h : Canon p s) : Canon p (serveHbm s k r) := by
  unfold serveHbm
  split
  · extract_lets +onlyGivenNames s1 s2
    have hs1 : Canon p s1 := readError_canon h
    have hs2 : Canon p s2 := ite_ok hs1 hs1
    exact ite_ok (pageAccess_canon hs2) (readGranule_canon hs2)
  all_goals exact writeGranule_canon h

theorem serveWaiting_canon {k r} (h : Canon p s) : Canon p (serveWaiting s k r) :=
  ite_ok (homeGo_canon (modCoh_canon h fun _ h1 => h1)) (homeGo_canon (settleOwed_canon (serveHbm_canon h)))

theorem serveAll_canon {s : State} {k i l} (h : Canon p s) : Canon p (serveAll k i l s) := by
  unfold serveAll
  split
  · exact h
  · exact h
  · exact serveAll_canon (serveWaiting_canon h)

theorem execHbmRequest_canon (h : Canon p s) : OutOk p (execHbmRequest s) := by
  unfold execHbmRequest
  extract_lets +onlyGivenNames _
  split
  · exact h
  · exact ite_ok h (ite_ok (modHbm_canon h fun _ h1 => h1) (serveHbm_canon h))

theorem acceptWaiting_canon {k} (h : Canon p s) : Canon p (acceptWaiting s k) :=
  wakeCommands_canon (serveAll_canon (modHbm_canon h fun _ h1 => h1))

theorem execRowIdleClose_canon (h : Canon p s) : OutOk p (execRowIdleClose s) := by
  unfold execRowIdleClose
  extract_lets +onlyGivenNames _
  split
  · exact ite_ok (modHbm_canon h fun _ h1 => { h1 with openRows := by with_reducible exact h1.openRows.put _ _ }) h
  · exact h

theorem execBankRefresh_canon (h : Canon p s) : OutOk p (execBankRefresh s) :=
  modHbm_canon h fun _ h1 => { h1 with openRows := by with_reducible exact h1.openRows.put _ _ }

/-! ## HbmCtl: The scrubber (R88-R90) -/

theorem execScrubRead_canon (h : Canon p s) : OutOk p (execScrubRead s) :=
  ite_ok h (readError_canon (modHbm_canon (pageAccess_canon h) fun _ h1 => h1))

theorem execScrubWrite_canon (h : Canon p s) : OutOk p (execScrubWrite s) := by
  unfold execScrubWrite
  extract_lets +onlyGivenNames _ _
  split
  · exact h
  · refine ite_ok ?_ ?_
    · exact h
    · extract_lets +onlyGivenNames s1
      have hs1 : Canon p s1 := modHbm_canon (pageAccess_canon h) fun _ h1 => h1
      exact ite_ok (P := Canon p) hs1 hs1

/-! ## HbmCtl: Margins and repair (R82, R93-R95) -/

theorem setEyes_canon {c eyes x} (hx : HbmOk p x) : HbmOk p (setEyes c eyes x) :=
  { hx with lanes := foldl_ok (P := TabOk p _) hx.lanes fun _ _ ht => ite_ok (ht.mod _ _) ht }

theorem repairLane_canon {k c lane} (h : Canon p s) : Canon p (repairLane k c s lane) := by
  unfold repairLane
  extract_lets +onlyGivenNames _
  split
  · exact memEvent_canon (modHbm_canon h fun _ h1 =>
      { h1 with chans := by with_reducible exact h1.chans.mod _ _, lanes := by with_reducible exact h1.lanes.mod _ _ })
  · exact retireUnit_canon (memEvent_canon (modHbm_canon h fun _ h2 => h2))

theorem trainChannel_canon {k c eyes} (h : Canon p s) : Canon p (trainChannel k c eyes s) :=
  foldl_ok (modHbm_canon h fun _ h1 => setEyes_canon h1) fun _ _ h2 => repairLane_canon h2

theorem trainFree_canon {k c} (h : Canon p s) : Canon p (trainFree k s c) :=
  trainChannel_canon (spend_canon h)

/-! ## HbmCtl: Thermal holds (R91, R92, R420) -/

theorem dropScrub_canon {f x} (hx : HbmOk p x) : HbmOk p (dropScrub f x) :=
  hx

theorem stopDogs_canon (h : Canon p s) : Canon p (stopDogs s) := mapDogs_canon h

theorem resumeDogs_canon (h : Canon p s) : Canon p (resumeDogs s) :=
  ite_ok h { h with dogs := by with_reducible exact h.dogs.map _ }

theorem execCriticalTempAssert_canon (h : Canon p s) : OutOk p (execCriticalTempAssert s) := by
  unfold execCriticalTempAssert
  refine after_canon (announce_canon (modHbm_canon h fun x hx => ?_))
  with_reducible exact dropScrub_canon hx

theorem execSelfRefreshEnter_canon (h : Canon p s) : OutOk p (execSelfRefreshEnter s) :=
  ite_ok h (after_canon (memEvent_canon (stopDogs_canon (modHbm_canon h fun _ h1 => h1))))

theorem execCriticalTempDeassert_canon (h : Canon p s) : OutOk p (execCriticalTempDeassert s) :=
  after_canon (modHbm_canon h fun _ h1 => h1)

theorem allHold_canon {b x} (hx : HbmOk p x) : HbmOk p (allHold b x) :=
  chans_ok hx (foldl_ok hx.chans fun _ _ ht => ht.mod _ _)

theorem execSelfRefreshExit_canon (h : Canon p s) : OutOk p (execSelfRefreshExit s) := by
  unfold execSelfRefreshExit
  extract_lets +onlyGivenNames k
  refine ite_ok (ite_ok h ?_) ?_
  · extract_lets asked s1
    have hs1 : Canon p s1 :=
      acceptWaiting_canon (resumeDogs_canon (modHbm_canon h fun x hx => by with_reducible exact allHold_canon hx))
    exact foldl_ok (P := Canon p) hs1 fun _ _ ht => after_canon ht
  · split
    · refine ite_ok ?_ h
      extract_lets s1 s2
      have hs1 : Canon p s1 := modHbm_canon h fun x hx => by with_reducible exact allHold_canon hx
      have hs2 : Canon p s2 := foldl_ok hs1 fun _ _ ht => trainFree_canon ht
      exact after_canon hs2
    · exact h

theorem hbmTemp_canon {k t} (h : Canon p s) : Canon p (hbmTemp s k t) := by
  unfold hbmTemp
  extract_lets +onlyGivenNames _ s1
  have hs1 : Canon p s1 := modHbm_canon h fun _ h1 => h1
  exact ite_ok (after_canon hs1) (ite_ok (after_canon hs1) hs1)

theorem execHbmThrottle_canon (h : Canon p s) : OutOk p (execHbmThrottle s) :=
  hbmTemp_canon h

theorem execHbmThrottleEnd_canon (h : Canon p s) : OutOk p (execHbmThrottleEnd s) :=
  hbmTemp_canon h

/-! ## HbmCtl: Measurements and retraining (R93-R95) -/

theorem askHold_canon {k c} (h : Canon p s) : Canon p (askHold s k c) :=
  after_canon (modHbm_canon h fun _ h1 => { h1 with chans := by with_reducible exact h1.chans.mod _ _ })

theorem execMarginMeasure_canon (h : Canon p s) : OutOk p (execMarginMeasure s) := by
  unfold execMarginMeasure
  extract_lets +onlyGivenNames _ _ _ _ _ s1
  have hs1 : Canon p s1 := modHbm_canon h fun _ h1 => setEyes_canon h1
  exact ite_ok (P := Canon p) (memEvent_canon (ite_ok (askHold_canon hs1) hs1)) hs1

theorem execChstatTrainreq_canon (h : Canon p s) : OutOk p (execChstatTrainreq s) :=
  askHold_canon h

theorem execRetrainingHold_canon (h : Canon p s) : OutOk p (execRetrainingHold s) := by
  unfold execRetrainingHold
  refine ite_ok ?_ ?_
  · extract_lets +onlyGivenNames s1
    have hs1 : Canon p s1 := acceptWaiting_canon
        (modHbm_canon h fun _ h1 => { h1 with chans := by with_reducible exact h1.chans.mod _ _ })
    exact ite_ok (P := Canon p) (after_canon hs1) hs1
  · refine ite_ok ?_ ?_
    · exact h
    · extract_lets +onlyGivenNames s2
      have hs2 : Canon p s2 := modHbm_canon h fun _ h2 => dropScrub_canon { h2 with chans := by with_reducible exact h2.chans.mod _ _ }
      exact after_canon (ite_ok (trainFree_canon hs2) (trainChannel_canon hs2))

/-! ## HbmCtl: The end of training (R81, R95, R402, R413, R415) -/

theorem retrainLane_canon {k c lane} (h : Canon p s) : Canon p (retrainLane k c s lane) := by
  unfold retrainLane
  refine ite_ok ?_ ?_
  · exact h
  · extract_lets +onlyGivenNames s1
    have hs1 : Canon p s1 := spend_canon h
    exact ite_ok (modHbm_canon hs1 fun _ h1 => { h1 with chans := by with_reducible exact h1.chans.mod _ _, lanes := by with_reducible
                                                           exact h1.lanes.mod _ _ }) (ite_ok hs1 (retireUnit_canon hs1))

theorem trainAtBoot_canon {k c} (h : Canon p s) : Canon p (trainAtBoot k s c) :=
  foldl_ok (foldl_ok (modHbm_canon (spend_canon h) fun _ h1 => setEyes_canon h1) fun _ _ h2 => retrainLane_canon h2) fun _ _ h3 =>
    repairLane_canon h3

/-- Every lane that has not failed its training is trained at the end of stage 1. -/
theorem trainAll_canon (h : Canon p s) : Canon p ((List.range 8).foldl (fun s k => (List.range 32).foldl (trainAtBoot k) s) s) :=
  foldl_ok (P := Canon p) h fun _ _ ht => foldl_ok (P := Canon p) ht fun _ _ hu => trainAtBoot_canon hu

theorem loadStacks_canon {l : Memory} (h : Canon p s) : Canon p
    { s with memLock := true, stage := 2, hbm := l.foldl (fun m b => writeByte m b.1 b.2) s.hbm } :=
  { h with hbm := foldl_ok (P := MemOk p) h.hbm fun _ _ hm => hm.writeByte _ _ }

theorem execTrainingEnd_canon (h : Canon p s) : OutOk p (execTrainingEnd s) := by
  unfold execTrainingEnd
  refine ite_ok h (foldl_ok (P := Canon p) (loadStacks_canon ?_) fun _ _ ht => putGranule_canon ht)
  exact foldl_ok (P := Canon p) (trainAll_canon h) fun _ _ ht => modHbm_canon ht fun _ hx => hx

end Sys2Proof.Machine
end

