-- ==== Sys2Proof/Proofs/CanonUnits.lean ====
section
/-!
PROOFS. Canonical form: tiles, errors and their containment, and reset and boot. Every operation that answers a state
keeps `Canon`, one lemma for each operation, named after it.
-/

namespace Sys2Proof.Machine

variable {p : Part} {s t : State}

/-! ## Tile: Handles (R54-R63, R218) -/

theorem noteShared_canon {hart contents} (h : Canon p s) : Canon p (noteShared s hart contents) :=
  ite_ok h (modChunk_canon h fun _ h1 => ite_ok h1 h1)

theorem needTile_canon {hart contents k} (h : Canon p s) (hk : ∀ x y, Canon p x → EffOk p (k x y)) : EffOk p
    (needTile s hart contents k) := by
  unfold needTile
  split
  · exact hk _ _ (noteShared_canon h)
  · exact h

theorem shape_canon {ok hart k} (h : Canon p s) (hk : EffOk p k) : EffOk p (shape ok hart s k) :=
  guardTrap_canon h hk

theorem clean_canon {t hart k} (h : Canon p s) (hk : EffOk p k) : EffOk p (clean t hart s k) :=
  guardTrap_canon h hk

theorem restorable_canon {i} (h : Canon p s) : ∀ x ∈ restorable s i, ArchOk p x := by
  intro x hx
  obtain ⟨c, hc, hx⟩ := List.mem_flatMap.1 hx
  have hc := hartChunks_ok (getHart_canon h) _ (List.mem_of_mem_filter hc)
  rcases List.mem_cons.1 hx with rfl | hx
  · exact hc.save
  · obtain ⟨k, hk, rfl⟩ := List.mem_map.1 hx
    exact hc.cuts k (List.mem_of_mem_filter hk)

/-! ## Tile: Renaming and writing a handle (R56, R57, R61) -/

theorem renamed_canon {hart units k} (h : Canon p s) (hk : ∀ x, Canon p x → EffOk p (k x)) : EffOk p (renamed s hart units k) :=
  ite_ok (hk _ h) (ite_ok (hk _ (modCluster_canon h fun _ h1 => h1)) h)

theorem mapHandle_canon {i t} (h : Canon p s) : Canon p (mapHandle s i t) := by
  refine nextPhys_canon (updArch_canon h fun a ha => ?_)
  with_reducible exact ha.put _ _

theorem putTile_canon {hart t} (h : Canon p s) : Canon p (putTile s hart t) :=
  ite_ok (modChunk_canon (mapHandle_canon h) fun _ h1 => h1) (modChunk_canon (noteShared_canon h) fun _ h2 => h2)

theorem putFrom_canon {hart src t} (h : Canon p s) : Canon p (putFrom s hart src t) := by
  unfold putFrom
  extract_lets +onlyGivenNames _ _ s1
  have hs1 : Canon p s1 := putTile_canon h
  exact ite_ok (modCluster_canon hs1 fun _ h1 => h1) hs1

theorem stepShared_canon {hart t} (h : Canon p s) : Canon p (stepShared s hart t) :=
  modChunk_canon (noteShared_canon h) fun _ h1 => h1

theorem giveUp_canon {hart} (h : Canon p s) : Canon p (giveUp s hart) := by
  unfold giveUp
  extract_lets +onlyGivenNames _ _ _ _
  split
  · exact ite_ok h (modCluster_canon h fun _ h1 => h1)
  · exact h

theorem release_canon {hart} (h : Canon p s) : Canon p (release s hart) :=
  ite_ok (updArch_canon (giveUp_canon h) fun _ h1 => h1.erase _) (ite_ok (noteShared_canon h) (stepShared_canon h))

theorem configure_canon {hart force t k} (h : Canon p s) (hk : ∀ x, Canon p x → EffOk p (k x)) : EffOk p (configure s hart force t k) :=
    by
  unfold configure
  refine ite_ok ?_ ?_
  · exact h
  · refine ite_ok ?_ ?_
    · exact h
    · extract_lets +onlyGivenNames s1
      have hs1 : Canon p s1 := ite_ok (updArch_canon h fun _ h1 => .nil) h
      exact ite_ok (ite_ok (hk _ (mapHandle_canon hs1)) h) (ite_ok h (hk _ (stepShared_canon hs1)))

theorem execTcfg_canon {c hart rows1 rb f desc force} (h : Canon p s) : OutOk p (execTcfg c hart rows1 rb f desc force s) :=
  plain_canon h fun _ h1 => configure_canon h1 fun _ h2 => h2

theorem execTzero_canon {c hart} (h : Canon p s) : OutOk p (execTzero c hart s) :=
  plain_canon h fun _ h1 => needTile_canon h1 fun _ _ h2 => renamed_canon h2 fun _ h3 => putTile_canon h3

theorem execTrel_canon {c hart} (h : Canon p s) : OutOk p (execTrel c hart s) :=
  plain_canon h fun _ h1 => release_canon h1

theorem execTinfo_canon {c rd hart} (h : Canon p s) : OutOk p (execTinfo c rd hart s) :=
  plain_canon h fun _ h1 => setG_canon (noteShared_canon h1)

/-! ## Tile: Rows in memory (R330, R331) -/

theorem translatePieces_canon {s : State} {k l} (h : Canon p s) : ResOk p (translatePieces s k l) := by
  unfold translatePieces
  split
  · exact h
  · split
    next e1 =>
      have k1 := canon_of_eq (translate_canon h) e1
      split
      next e2 => exact canon_of_eq (translatePieces_canon (noteUsed_canon k1)) e2
      · exact translatePieces_canon (noteUsed_canon k1)
    all_goals next e1 => exact canon_of_eq (translate_canon h) e1

theorem readPieces_canon {s : State} {l} (h : Canon p s) : ResOk p (readPieces s l) := by
  unfold readPieces
  split
  · exact h
  · split
    next e1 =>
      have k1 := canon_of_eq (readLine_canon h) e1
      split
      next e2 => exact canon_of_eq (readPieces_canon k1) e2
      · exact readPieces_canon k1
    · exact readLine_canon h

theorem translateRow_canon {s : State} {k l} (h : Canon p s) : ResOk p (translateRow s k l) := by
  unfold translateRow
  split
  · exact h
  · refine ite_ok ?_ ?_
    · exact h
    · split
      next e1 =>
        have k1 := canon_of_eq (translatePieces_canon h) e1
        split
        next e2 => exact canon_of_eq (translateRow_canon k1) e2
        · exact translateRow_canon k1
      · exact translatePieces_canon h

theorem readRow_canon {q} (h : Canon p s) : ResOk p (readRow s q) := by
  unfold readRow
  split
  next he => exact readPieces_canon (canon_of_eq (translateRow_canon h) he)
  all_goals next he => exact canon_of_eq (translateRow_canon h) he

theorem readRows_canon {s : State} {bad l} (h : Canon p s) : ResOk p (readRows s bad l) := by
  unfold readRows
  split
  · exact h
  · split
    next he =>
      split
      · exact canon_of_eq (readRow_canon h) he
      · exact readRows_canon (canon_of_eq (readRow_canon h) he)
    all_goals next he => exact canon_of_eq (readRow_canon h) he

theorem reachPieces_canon {s : State} {all l} (h : Canon p s) : ResOk p (reachPieces s all l) := by
  unfold reachPieces
  split
  · exact h
  · refine ite_ok ?_ ?_
    · exact h
    · split
      next he => exact reachPieces_canon (canon_of_eq (reach_canon h) he)
      · exact reach_canon h

theorem checkRows_canon {s : State} {all l} (h : Canon p s) : ResOk p (checkRows s all l) := by
  unfold checkRows
  split
  · exact h
  · split
    next e1 =>
      have k1 := canon_of_eq (translateRow_canon h) e1
      split
      next e2 => exact checkRows_canon (canon_of_eq (reachPieces_canon k1) e2)
      next e2 => exact canon_of_eq (reachPieces_canon k1) e2
    all_goals next e1 => exact canon_of_eq (translateRow_canon h) e1

theorem writeRows_canon {xs ps vs} (h : Canon p s) : ResOk p (writeRows s xs ps vs) :=
  writePieces_canon h

theorem rowsAligned_canon {rb rs n l k} (h : Canon p s) (hk : EffOk p k) : EffOk p (rowsAligned s rb rs n l k) := by
  unfold rowsAligned
  split
  · exact h
  · exact hk

theorem evenBase_canon {rd k} (h : Canon p s) (hk : EffOk p k) : EffOk p (evenBase s rd k) := by
  unfold evenBase
  split
  · exact guardTrap_canon h hk
  · exact hk

theorem tileLoad_canon {hart rb rs rd rc f chk scale} (h : Canon p s) : EffOk p (tileLoad s hart rb rs rd rc f chk scale) := by
  unfold tileLoad
  exact needTile_canon h fun _ _ h1 => shape_canon h1 (rowsAligned_canon h1 (evenBase_canon h1 (renamed_canon h1 fun _ h2 => by
    extract_lets +onlyGivenNames _ _
    split
    rename_i he
    extract_lets +onlyGivenNames _ _
    split
    · exact putTile_canon (canon_of_eq (readRows_canon h2) he)
    · exact ite_ok (putTile_canon (canon_of_eq (readRows_canon h2) he)) (canon_of_eq (readRows_canon h2) he)
    · exact canon_of_eq (readRows_canon h2) he
    · exact trivial)))

theorem execTld_canon {c hart rb rs f chk rc scale} (h : Canon p s) : OutOk p (execTld c hart rb rs f chk rc scale s) :=
  plain_canon h fun _ h1 => tileLoad_canon h1

theorem execTldd_canon {c hart rb rs rdsc rc f chk} (h : Canon p s) : OutOk p (execTldd c hart rb rs rdsc rc f chk s) :=
  plain_canon h fun _ h1 => tileLoad_canon h1

theorem storeFrom_canon {start ps vs flags keep} (h : Canon p s) (hkeep : ∀ x y, ArchOk p y → ArchOk p (keep x y)) : EffOk p
    (storeFrom s start ps vs flags keep) := by
  unfold storeFrom
  split
  rename_i he
  extract_lets +onlyGivenNames _
  split
  · exact withFlags_canon (canon_of_eq (checkRows_canon h) he) fun _ h1 => thenDo_canon
      (writeRows_canon (canon_of_eq (checkRows_canon h) he)) fun _ _ h2 => withFlags_canon h2 fun _ h3 => updArch_canon h3 fun _ h4 =>
      hkeep _ _ h4
  · exact withFlags_canon (canon_of_eq (checkRows_canon h) he) fun _ h5 => thenDo_canon
      (writeRows_canon (canon_of_eq (checkRows_canon h) he)) fun _ _ h6 => withFlags_canon h6 fun _ h7 => updArch_canon h7 fun _ h8 =>
      hkeep _ _ h8
  · exact canon_of_eq (checkRows_canon h) he
  · exact trivial

theorem tileStore_canon {hart rb rs rd rc f chk} (h : Canon p s) : EffOk p (tileStore s hart rb rs rd rc f chk) :=
  needTile_canon h fun _ _ h1 => shape_canon h1
    (clean_canon h1 (rowsAligned_canon h1 (evenBase_canon h1 (storeFrom_canon h1 fun _ _ h2 => h2))))

theorem execTst_canon {c hart rb rs f chk rc} (h : Canon p s) : OutOk p (execTst c hart rb rs f chk rc s) :=
  plain_canon h fun _ h1 => tileStore_canon h1

theorem execTstd_canon {c hart rb rs rdsc rc f chk} (h : Canon p s) : OutOk p (execTstd c hart rb rs rdsc rc f chk s) :=
  plain_canon h fun _ h1 => tileStore_canon h1

/-! ## Tile: Quantising store (R194-R196, R342, R343) -/

theorem execTqst_canon {c hart rb rs q auto re f col k cont} (h : Canon p s) : OutOk p (execTqst c hart rb rs q auto re f col k cont s) :=
  plain_canon h fun _ h1 => needTile_canon h1 fun _ _ h2 => shape_canon h2
    (clean_canon h2 (guardTrap_canon h2 (rowsAligned_canon h2 (evenBase_canon h2 (storeFrom_canon h2 fun _ _ h3 => wrQ_canon h3)))))

theorem execQcclr_canon {c mask} (h : Canon p s) : OutOk p (execQcclr c mask s) :=
  plain_canon h fun _ h1 => updArch_canon h1 fun _ h2 => h2

theorem putLanes64_canon {v x} (h : Canon p s) : Canon p (putLanes64 s v x) :=
  foldl_ok h fun _ _ h1 => setV_canon h1

theorem execQcrd_canon {c v q} (h : Canon p s) : OutOk p (execQcrd c v q s) :=
  plain_canon h fun _ h1 => guardTrap_canon h1 (putLanes64_canon h1)

theorem execQcwr_canon {c v q} (h : Canon p s) : OutOk p (execQcwr c v q s) :=
  plain_canon h fun _ h1 => updArch_canon h1 fun _ h2 => wrQ_canon h2

/-! ## Tile: Engine operations (R335-R341, R347, R378) -/

theorem submit_canon {acc dst cycles uses} (h : Canon p s) : Canon p (submit s acc dst cycles uses) :=
  modCluster_canon (modChunk_canon h fun _ h1 => h1) fun _ h2 => h2

theorem dispatchable_canon {k} (h : Canon p s) (hk : ∀ x, Canon p x → EffOk p (k x)) : EffOk p (dispatchable s k) :=
  ite_ok h (hk _ h)

theorem multiplyEff_canon {hc ha hb diag fill} (h : Canon p s) : EffOk p (multiplyEff s hc ha hb diag fill) := by
  unfold multiplyEff
  exact needTile_canon h fun _ _ h1 => needTile_canon h1 fun _ _ h2 => needTile_canon h2 fun _ _ h3 => shape_canon h3 (by
    split
    · exact h3
    · exact clean_canon h3 (clean_canon h3 (clean_canon h3 (renamed_canon h3 fun _ h4 => dispatchable_canon h4 fun _ h5 =>
        withFlags_canon (spend_canon h5) fun _ h6 => putTile_canon (submit_canon h6)))))

theorem execTmma_canon {c hc ha hb} (h : Canon p s) : OutOk p (execTmma c hc ha hb s) :=
  plain_canon h fun _ h1 => inEngine_canon h1 (multiplyEff_canon h1)

theorem execTmmat_canon {c hc ha hb rfill fill diag} (h : Canon p s) : OutOk p (execTmmat c hc ha hb rfill fill diag s) :=
  plain_canon h fun _ h1 => inEngine_canon h1 (multiplyEff_canon h1)

theorem elementwise_canon {hd rows r uses} (h : Canon p s) : EffOk p (elementwise s hd rows r uses) :=
  dispatchable_canon h fun _ h1 => withFlags_canon h1 fun _ h2 => putTile_canon (submit_canon h2)

theorem execTadd_canon {c hd ha hb m} (h : Canon p s) : OutOk p (execTadd c hd ha hb m s) :=
  plain_canon h fun _ h1 => inEngine_canon h1 (needTile_canon h1 fun _ _ h2 => needTile_canon h2 fun _ _ h3 => needTile_canon h3
    fun _ _ h4 => shape_canon h4 (shape_canon h4 (shape_canon h4
    (shape_canon h4 (clean_canon h4 (clean_canon h4 (renamed_canon h4 fun _ h5 => elementwise_canon h5)))))))

theorem execTscale_canon {c hd ha rs m} (h : Canon p s) : OutOk p (execTscale c hd ha rs m s) :=
  plain_canon h fun _ h1 => inEngine_canon h1 (needTile_canon h1 fun _ _ h2 => needTile_canon h2 fun _ _ h3 => shape_canon h3
    (shape_canon h3 (shape_canon h3 (clean_canon h3 (renamed_canon h3 fun _ h4 => elementwise_canon h4)))))

theorem execTcvt_canon {c hd ha m sat} (h : Canon p s) : OutOk p (execTcvt c hd ha m sat s) :=
  plain_canon h fun _ h1 => inEngine_canon h1 (needTile_canon h1 fun _ _ h2 => needTile_canon h2 fun _ _ h3 => shape_canon h3
    (clean_canon h3 (renamed_canon h3 fun _ h4 => elementwise_canon h4)))

theorem execTtrans_canon {c hd ha} (h : Canon p s) : OutOk p (execTtrans c hd ha s) :=
  plain_canon h fun _ h1 => inEngine_canon h1 (needTile_canon h1 fun _ _ h2 => needTile_canon h2 fun _ _ h3 => shape_canon h3
    (shape_canon h3 (shape_canon h3 (clean_canon h3 (renamed_canon h3 fun _ h4 => elementwise_canon h4)))))

theorem execTmov_canon {c hd ha} (h : Canon p s) : OutOk p (execTmov c hd ha s) :=
  plain_canon h fun _ h1 => needTile_canon h1 fun _ _ h2 => needTile_canon h2 fun _ _ h3 => shape_canon h3
    (clean_canon h3 (renamed_canon h3 fun _ h4 => putFrom_canon h4))

theorem moveRow_canon {hart v i toV} (h : Canon p s) : EffOk p (moveRow s hart v i toV) :=
  needTile_canon h fun _ _ h1 => shape_canon h1 (clean_canon h1
    (ite_ok (foldl_ok h1 fun _ _ h2 => setV_canon h2) (renamed_canon h1 fun _ h3 => putFrom_canon h3)))

theorem execTrow_canon {c hart v ri toV} (h : Canon p s) : OutOk p (execTrow c hart v ri toV s) :=
  plain_canon h fun _ h1 => moveRow_canon h1

theorem execTrowi_canon {c hart v i toV} (h : Canon p s) : OutOk p (execTrowi c hart v i toV s) :=
  plain_canon h fun _ h1 => moveRow_canon h1

theorem execTred_canon {c v ha m max col} (h : Canon p s) : OutOk p (execTred c v ha m max col s) :=
  plain_canon h fun _ h1 => inEngine_canon h1 (needTile_canon h1 fun _ _ h2 => shape_canon h2
    (clean_canon h2 (dispatchable_canon h2 fun _ h3 => withFlags_canon h3 fun _ h4 => spend_canon (submit_canon (putLanes64_canon h4)))))

/-! ## Tile: Save and restore (R345, R346) -/

theorem wholeArea_canon {a n k} (h : Canon p s) (hk : EffOk p k) : EffOk p (wholeArea s a n k) :=
  guardTrap_canon h hk

theorem saveArea_canon {a v n poison} (h : Canon p s) : EffOk p (saveArea s a v n poison) := by
  unfold saveArea
  exact thenDo_canon (checkPieces_canon h) fun _ _ h1 => thenDo_canon (writePieces_canon h1) fun _ _ h2 => by
    split
    · exact h2
    · exact modChunk_canon h2 fun _ h3 => h3

theorem execTsave_canon {c hart rb} (h : Canon p s) : OutOk p (execTsave c hart rb s) := by
  unfold execTsave
  exact plain_canon h fun _ h1 => guardTrap_canon h1 (by
    extract_lets +onlyGivenNames s1
    have hs1 : Canon p s1 := noteShared_canon h1
    split
    · exact saveArea_canon hs1
    · exact wholeArea_canon hs1 (saveArea_canon hs1))

theorem readArea_canon {a n} (h : Canon p s) : ResOk p (readArea s a n) := by
  unfold readArea
  extract_lets +onlyGivenNames _
  split
  next he => exact readPieces_canon (canon_of_eq (translatePieces_canon h) he)
  all_goals next he => exact canon_of_eq (translatePieces_canon h) he

theorem execTrest_canon {c hart rb} (h : Canon p s) : OutOk p (execTrest c hart rb s) :=
  plain_canon h fun _ h1 => guardTrap_canon h1 (thenDo_canon (readArea_canon h1) fun _ _ h2 => ite_ok (release_canon h2)
    (shape_canon h2 (configure_canon h2 fun _ _ => wholeArea_canon h2
    (thenDo_canon (readArea_canon h2) fun _ _ h4 => shape_canon h4 (configure_canon h4 fun _ h5 => h5)))))

/-! ## Errors: Fatal errors (R403) -/

theorem haltHart_canon {x} (hx : HartOk p x) : HartOk p (haltHart x) := by
  unfold haltHart
  extract_lets a1 a2
  have ha1 : ArchOk p a1 := by
    unfold a1
    split
    next heq => exact (hx.inflight _ (heq ▸ List.mem_cons_self)).save
    · exact hx.chunk.save
  have ha2 : ArchOk p a2 := ite_ok hx.arch ha1
  exact { arch := ha2, chunk := chunkFresh_canon ha2, inflight := List.forall_mem_nil _ }

theorem failFatal_canon {cause} (h : Canon p s) : Canon p (failFatal s cause) := by
  unfold failFatal
  extract_lets _ s1 s2
  have hs1 : Canon p s1 :=
    { h with
      cur := haltHart_canon h.cur
      harts := by with_reducible exact h.harts.map fun _ _ hx => haltHart_canon hx
      clusters := by with_reducible exact h.clusters.map fun _ _ hc => hc.map fun _ _ he => he
      coh := by with_reducible exact h.coh.map fun _ _ hc => hc
      groups := by with_reducible exact h.groups.map _ }
  clear_value s1
  exact announce_canon (foldl_ok hs1 fun _ _ ht => linkMsg_canon ht)

theorem execFatalError_canon (h : Canon p s) : OutOk p (execFatalError s) :=
  failFatal_canon h

theorem execDieCriticalTemp_canon (h : Canon p s) : OutOk p (execDieCriticalTemp s) :=
  failFatal_canon (announce_canon h)

/-! ## Errors: Retirement (R401) -/

theorem squashOpen_canon {hart counts} (h : Canon p s) : Canon p (squashOpen s hart counts) :=
  squashFrom_canon h

theorem retireCore_canon {core cause} (h : Canon p s) : Canon p (retireCore s core cause) :=
  ite_ok h ((retireUnit_canon (modCore_canon
    (foldl_ok h fun _ _ h1 => modHart_canon (leaveQueue_canon (squashOpen_canon h1)) fun _ h2 => h2))))

theorem retireEngine_canon {cl e} (h : Canon p s) : Canon p (retireEngine s cl e) := by
  unfold retireEngine
  refine ite_ok ?_ ?_
  · exact h
  · extract_lets +onlyGivenNames _ _ _ s1
    have hs1 : Canon p s1 := retireUnit_canon (modCluster_canon (modEngine_canon h fun _ h1 => h1) fun _ h2 => h2)
    exact ite_ok (foldl_ok hs1 fun _ _ h3 => retireCore_canon h3) hs1

theorem retireWay_canon {cl way cause} (h : Canon p s) : Canon p (retireWay s cl way cause) := by
  unfold retireWay
  refine ite_ok ?_ ?_
  · exact h
  · exact retireUnit_canon (foldl_ok (modCluster_canon h fun _ h1 => h1) fun _ _ h2 => by
      split
      · exact fitL2_canon h2
      · exact h2)

theorem correctedWay_canon {cl way} (h : Canon p s) : Canon p (correctedWay s cl way) := by
  unfold correctedWay
  extract_lets +onlyGivenNames _ _ s1
  have hs1 : Canon p s1 := modCluster_canon h fun _ h1 => h1
  exact ite_ok (retireWay_canon hs1) hs1

/-! ## Errors: The errors (R51, R52, R400) -/

theorem csrForce_canon {a i v} (ha : ArchOk p a) : ArchOk p (csrForce a i v) :=
  ite_ok ((ite_ok (swapNamed_canon ha) ha)) (ite_ok ha (ite_ok ha (ite_ok ha (ite_ok ha (csrStore_canon ha)))))

theorem loseReg_canon {bank i n a} (ha : ArchOk p a) : ArchOk p (loseReg bank i n a) := by
  unfold loseReg
  split
  · exact wrG_canon ha
  · exact wrV_canon ha
  · exact wrP_canon ha
  · exact csrForce_canon ha

theorem committedArch_canon {x} (hx : HartOk p x) : ArchOk p (committedArch x) := by
  unfold committedArch
  split
  next heq => exact (hx.inflight _ (heq ▸ List.mem_cons_self)).save
  · exact ite_ok hx.arch hx.chunk.save

theorem everyArch_canon {x f} (hx : HartOk p x) (hf : ∀ x, ArchOk p x → ArchOk p (f x)) : HartOk p (everyArch x f) :=
  { arch := hf _ hx.arch, chunk := { save := hf _ hx.chunk.save, cuts := List.forall_mem_map.2 fun _ h1 => hf _ (hx.chunk.cuts _ h1) },
      inflight := List.forall_mem_map.2 fun _ h2 => { save := hf _ ((hx.inflight _ h2).save), cuts := List.forall_mem_map.2 fun _ h3 =>
                                                        hf _ (((hx.inflight _ h2).cuts) _ h3) } }

theorem poisonTile_canon {x t} (hx : HartOk p x) : HartOk p (poisonTile x t) := by
  unfold poisonTile
  refine ite_ok hx (everyArch_canon hx fun _ ha => ?_)
  split
  · exact ite_ok (putTiles_ok ha) ha
  · exact ha

theorem poisonQc_canon {x q} (hx : HartOk p x) : HartOk p (poisonQc x q) :=
  everyArch_canon hx fun _ h1 => ite_ok h1 h1

theorem dropClean_canon {l k} (h : Canon p s) : Canon p (dropClean s l k) := by
  unfold dropClean
  extract_lets +onlyGivenNames _ _ _ s1
  have hs1 : Canon p s1 := ite_ok (modCore_canon h) (ite_ok (modCluster_canon h fun _ h1 => h1) h)
  exact ite_ok hs1 (ite_ok (dropL1d_canon hs1) (ite_ok (dropL1i_canon hs1) (tidyPeer_canon (agentLoses_canon hs1))))

theorem parityError_canon {l k way bad} (h : Canon p s) : Canon p (parityError s l k way bad) := by
  unfold parityError
  extract_lets +onlyGivenNames s1 s2
  have hs1 : Canon p s1 := dropClean_canon h
  have hs2 : Canon p s2 := ite_ok hs1 hs1
  split
  · exact correctedWay_canon hs2
  · exact hs2

theorem countCorrected_canon (h : Canon p s) : Canon p (countCorrected s) :=
  h

theorem handleError_canon {e} (h : Canon p s) : Canon p (handleError s e) := by
  unfold handleError
  split
  · exact countCorrected_canon h
  · exact parityError_canon (countCorrected_canon h)
  · exact squashOpen_canon h
  · extract_lets +onlyGivenNames _ _ _ s1
    have hs1 : Canon p s1 := modCore_canon (squashOpen_canon h)
    exact ite_ok (retireCore_canon hs1) hs1
  · extract_lets +onlyGivenNames _
    split
    · exact retireWay_canon h
    · exact h
  · exact modHart_canon h fun _ h1 => poisonTile_canon h1
  · exact setShared_canon h
  · exact modHart_canon h fun _ h2 => poisonQc_canon h2
  · exact ite_ok h (spend_canon (modHart_canon h fun _ h3 => (everyArch_canon h3 fun _ h4 => loseReg_canon h4)))
  · split
    · exact h
    · exact ite_ok (failFatal_canon h) (modHead_canon h)
  · extract_lets +onlyGivenNames _ _ s2 s3
    have hs2 : Canon p s2 := by
      unfold s2
      split
      · exact squashOpen_canon h
      · exact h
    have hs3 : Canon p s3 := modEngine_canon hs2 fun _ h5 => h5
    exact ite_ok (retireEngine_canon hs3) hs3
  · exact correctedWay_canon (countCorrected_canon h)
  · exact failFatal_canon h

theorem execHardwareError_canon (h : Canon p s) : OutOk p (execHardwareError s) := by
  unfold execHardwareError
  split
  · exact logEv_canon (handleError_canon h)
  · exact h

/-! ## Errors: Moving a hart (R404) -/

theorem mapGangs_ok {d : Die} {f : Gang → Gang} (hd : DieOk p d) (hf : ∀ x, (f x).tmpl = x.tmpl) :
    DieOk p { d with gens := d.gens.map fun g => (g.1, g.2.map f) } := by
  refine { hd with gens := List.forall_mem_map.2 fun g hg x hx => ?_ }
  obtain ⟨y, hy, rfl⟩ := Option.map_eq_some_iff.1 hx
  exact (hd.gens g hg y hy).of_tiles (by rw [hf])

theorem renameHart_canon {i n} (h : Canon p s) : Canon p (renameHart s i n) := by
  unfold renameHart
  exact
    { h with
      clusters := by with_reducible exact h.clusters.map fun _ _ hc => hc
      dies := by with_reducible exact h.dies.map fun _ _ hd => mapGangs_ok hd fun _ => rfl
      peers := by with_reducible exact h.peers.map _
      groups := by with_reducible exact h.groups.map _
      dogs := by with_reducible exact h.dogs.map _ }

theorem execHartRelocate_canon (h : Canon p s) : OutOk p (execHartRelocate s) := by
  unfold execHartRelocate
  refine ite_ok h ?_
  split
  · exact h
  · extract_lets _ _ x s1 s2 s3
    have hs1 : Canon p s1 := { h with clusters := by with_reducible exact h.clusters.map fun _ _ hc => hc }
    have hs2 : Canon p s2 := renameHart_canon hs1
    have hx : HartOk p x := getHart_canon h
    exact setHart_canon (setHart_canon hs2 hx) hartReset_ok

/-! ## Boot: Reset (R413) -/

theorem resetModule_canon (h : Canon p s) : Canon p (resetModule s) := by
  unfold resetModule
  refine { stateReset_ok with hbms := ?_ }
  with_reducible
    exact h.hbms.map fun _ _ hx => { chans := hx.chans.map _, lanes := hx.lanes, openRows := hbmReset_ok.openRows }

theorem execPerst_canon (h : Canon p s) : OutOk p (execPerst s) :=
  resetModule_canon h

theorem execMgmtReset_canon (h : Canon p s) : OutOk p (execMgmtReset s) :=
  resetModule_canon h

/-! ## Boot: The boot ROM (R414, R416) -/

theorem putAll_canon {m a l} (hm : MemOk p m) : MemOk p (putAll m a l) := by
  induction l generalizing m a with
  | nil => exact hm
  | cons b l ih => exact ih (hm.writeByte _ _)

theorem freshHart_ok {a : Arch} {n} (ha : ArchOk p a) :
    HartOk p { Hart.reset with arch := a, slot := .ready, prio := 4, chunk := Chunk.fresh a, readyAt := n } :=
  { hartReset_ok with arch := ha, chunk := chunkFresh_canon ha }

theorem firstHart_canon {i} : HartOk p (firstHart s i) := by
  unfold firstHart
  exact freshHart_ok (archReset_ok.of_tiles (by simp only))

theorem startStage1_canon {slot} (h : Canon p s) : Canon p (startStage1 s slot) := by
  unfold startStage1
  extract_lets
  refine setHart_canon ?_ firstHart_canon
  exact
    { h with
      mem := putAll_canon (putAll_canon .nil)
      meas := foldl_ok (P := TabOk p _) h.meas fun _ _ ht => ht.put _ _ }

theorem execBootRom_canon (h : Canon p s) : OutOk p (execBootRom s) := by
  unfold execBootRom
  refine ite_ok ?_ ?_
  · exact h
  · split
    next he => exact startStage1_canon h
    · exact h

theorem execFabricJoin_canon (h : Canon p s) : OutOk p (execFabricJoin s) :=
  ite_ok h h

theorem execProvisioningRequest_canon (h : Canon p s) : OutOk p (execProvisioningRequest s) :=
  ite_ok (P := Canon p) h h

/-! ## Boot: Attestation (R161, R417) -/

theorem spdm_canon {x l} (h : Canon p s) : Canon p { s with exchange := x, hostOut := l } := h

theorem execSpdmKeyExchange_canon (h : Canon p s) : OutOk p (execSpdmKeyExchange s) := by
  unfold execSpdmKeyExchange
  extract_lets +onlyGivenNames _
  refine ite_ok ?_ ?_
  · split
    · exact h
    · exact ite_ok h h
  · extract_lets
    split
    · exact h
    · exact spdm_canon (spend_canon h)

theorem recordSystem_canon {sec n} (h : Canon p s) : Canon p (recordSystem s sec n) :=
  ite_ok { h with meas := h.meas.put _ _ } h

theorem execSpdmMeasurements_canon (h : Canon p s) : OutOk p (execSpdmMeasurements s) :=
  ite_ok (recordSystem_canon h) h

theorem execKeySlotLoad_canon (h : Canon p s) : OutOk p (execKeySlotLoad s) := by
  unfold execKeySlotLoad
  split
  · exact h
  · split
    · exact h
    · exact ite_ok h h

/-! ## Boot: The host's functions (R418) -/

theorem execVirtioFeaturesOk_canon (h : Canon p s) : OutOk p (execVirtioFeaturesOk s) :=
  h

theorem answer_canon {f st} (h : Canon p s) : Canon p (answer s f st) :=
  h

theorem takeData_canon {f q b} (h : Canon p s) : Canon p (takeData s f q b) :=
  h

theorem takeBuffer_canon {f q} (h : Canon p s) : Canon p (takeBuffer s f q) :=
  h

theorem execVirtioNetRequest_canon (h : Canon p s) : OutOk p (execVirtioNetRequest s) :=
  ite_ok h (ite_ok (answer_canon h) (ite_ok (answer_canon h)
    (ite_ok (takeBuffer_canon h) (ite_ok (answer_canon h) (answer_canon (takeData_canon h))))))

theorem execVirtioBlkRequest_canon (h : Canon p s) : OutOk p (execVirtioBlkRequest s) :=
  ite_ok (answer_canon h) (ite_ok (answer_canon h) (ite_ok (answer_canon h) (ite_ok (answer_canon h) (answer_canon h))))

theorem execVirtioConsoleRequest_canon (h : Canon p s) : OutOk p (execVirtioConsoleRequest s) :=
  ite_ok (answer_canon (ite_ok (takeData_canon h) h)) (ite_ok (answer_canon h) (takeBuffer_canon h))

theorem execVsockConnect_canon (h : Canon p s) : OutOk p (execVsockConnect s) :=
  answer_canon (ite_ok h h)

theorem execFunctionLevelReset_canon (h : Canon p s) : OutOk p (execFunctionLevelReset s) :=
  h

/-! ## Boot: Power and temperature (R174, R419-R421) -/

theorem stepClock_canon {pwr cap d} (hd : DieOk p d) : DieOk p (stepClock pwr cap d) :=
  ite_ok hd (ite_ok hd hd)

theorem ioTemp_canon {t} (h : Canon p s) : Canon p (ioTemp s t) := by
  unfold ioTemp
  refine ite_ok ?_ ?_
  · exact ite_ok h (after_canon h)
  · refine ite_ok ?_ ?_
    · exact h
    · split
      · exact h
      · exact after_canon h

theorem clockFlags_canon {a b} (h : Canon p s) : Canon p { s with throtFlag := a, capFlag := b } := h

theorem execPowerTick_canon (h : Canon p s) : OutOk p (execPowerTick s) := by
  unfold execPowerTick
  extract_lets _ _ _ s1 s2 s3 _ s4 s5 s6
  have hs2 : Canon p s2 := foldl_ok (P := Canon p) h fun _ _ ht => modDie_canon ht fun _ hx => hx
  have hs3 : Canon p s3 := foldl_ok (P := Canon p) hs2 fun _ _ ht => hbmTemp_canon ht
  have hs5 : Canon p s5 :=
    ite_ok (foldl_ok (P := Canon p) (clockFlags_canon hs3) fun _ _ ht => modDie_canon ht fun _ hx => stepClock_canon hx) hs3
  have hs6 : Canon p s6 := ioTemp_canon hs5
  split
  · exact after_canon hs6
  · exact hs6

theorem execCoolantInletAlert_canon (h : Canon p s) : OutOk p (execCoolantInletAlert s) :=
  ite_ok (P := Canon p) (announce_canon h) h

theorem execPldmSensorRequest_canon (h : Canon p s) : OutOk p (execPldmSensorRequest s) :=
  h

end Sys2Proof.Machine
end

