-- ==== Sys2Proof/Proofs/CanonInstructions.lean ====
section
/-!
PROOFS. Canonical form: the instructions and the steps of the hardware that remain. Every operation that answers a
state keeps `Canon`, one lemma for each operation, named after it.
-/

namespace Sys2Proof.Machine

variable {p : Part} {s t : State}

/-! ## Coherence -/

theorem cohNow_canon {i} (h : Canon p s) : OutOk p (cohNow i s) :=
  cohStep_canon h

theorem execGets_canon (h : Canon p s) : OutOk p (execGets s) :=
  cohNow_canon h

theorem execGetm_canon (h : Canon p s) : OutOk p (execGetm s) :=
  cohNow_canon h

theorem execUpg_canon (h : Canon p s) : OutOk p (execUpg s) :=
  cohNow_canon h

theorem execInv_canon (h : Canon p s) : OutOk p (execInv s) :=
  cohNow_canon h

theorem execFwds_canon (h : Canon p s) : OutOk p (execFwds s) :=
  cohNow_canon h

theorem execFwdm_canon (h : Canon p s) : OutOk p (execFwdm s) :=
  cohNow_canon h

theorem execBackinv_canon (h : Canon p s) : OutOk p (execBackinv s) :=
  cohNow_canon h

theorem execData_canon (h : Canon p s) : OutOk p (execData s) :=
  cohNow_canon h

theorem execDatae_canon (h : Canon p s) : OutOk p (execDatae s) :=
  cohNow_canon h

theorem execFwdmiss_canon (h : Canon p s) : OutOk p (execFwdmiss s) :=
  cohNow_canon h

theorem execEvictm_canon (h : Canon p s) : OutOk p (execEvictm s) :=
  cohNow_canon h

theorem execAck_canon (h : Canon p s) : OutOk p (execAck s) :=
  h

theorem execRds_canon (h : Canon p s) : OutOk p (execRds s) :=
  cohNow_canon h

theorem execRdm_canon (h : Canon p s) : OutOk p (execRdm s) :=
  cohNow_canon h

theorem execFwdack_canon (h : Canon p s) : OutOk p (execFwdack s) :=
  cohNow_canon h

theorem execInvack_canon (h : Canon p s) : OutOk p (execInvack s) :=
  cohNow_canon h

theorem execComplete_canon (h : Canon p s) : OutOk p (execComplete s) :=
  cohNow_canon h

theorem execWbdata_canon (h : Canon p s) : OutOk p (execWbdata s) :=
  cohNow_canon h

theorem execWback_canon (h : Canon p s) : OutOk p (execWback s) :=
  cohNow_canon h

/-! ## ControlFlow -/

theorem checkTarget_canon {target entry} (h : Canon p s) : ResOk p (checkTarget s target entry) :=
  ite_ok h (setPc_canon (fetchWord_canon (setPc_canon h)))

theorem pushRas_canon {a x} (ha : ArchOk p a) : ArchOk p (pushRas a x) :=
  ha

theorem popRas_canon {a} (ha : ArchOk p a) : ArchOk p (popRas a) :=
  ha

theorem transfer_canon {c entry target effect} (h : Canon p s) (heffect : ∀ x, Canon p x → Canon p (effect x)) : OutOk p
    (transfer c s entry target effect) := by
  unfold transfer
  extract_lets +onlyGivenNames s1
  have hs1 : Canon p s1 := openChunk_canon h
  refine ite_ok (P := Canon p) ?_ ?_
  · split
    next he => exact retireTo_canon (heffect _ (canon_of_eq (checkTarget_canon hs1) he))
    next he => exact raiseAt_canon (canon_of_eq (checkTarget_canon hs1) he)
    next he => exact stallOn_canon (canon_of_eq (checkTarget_canon hs1) he)
    · exact endBefore_canon hs1
  · exact retire_canon hs1

theorem link_canon {rl} (h : Canon p s) : Canon p (link rl s) :=
  setG_canon (updArch_canon h fun _ h1 => pushRas_canon h1)

theorem execBr_canon {c off} (h : Canon p s) : OutOk p (execBr c off s) :=
  transfer_canon h fun _ h1 => h1

theorem execCall_canon {c rl off} (h : Canon p s) : OutOk p (execCall c rl off s) :=
  transfer_canon h fun _ h1 => link_canon h1

theorem execCallr_canon {c rl rt} (h : Canon p s) : OutOk p (execCallr c rl rt s) :=
  transfer_canon h fun _ h1 => link_canon h1

theorem execJr_canon {c rt} (h : Canon p s) : OutOk p (execJr c rt s) :=
  transfer_canon h fun _ h1 => h1

theorem execRet_canon {c rt} (h : Canon p s) : OutOk p (execRet c rt s) :=
  transfer_canon h fun _ h1 => updArch_canon h1 fun _ h2 => popRas_canon h2

/-! ## Cornice -/

theorem unpresent_canon {hart} (h : Canon p s) : Canon p (unpresent s hart) :=
  h

theorem waitFor_canon {q} (h : Canon p s) : Canon p (waitFor s q) :=
  ite_ok h h

theorem admitChunk_canon {i c} (h : Canon p s) : Canon p (admitChunk s i c) := held_canon (unpresent_canon h)

theorem check_canon {hart c} (h : Canon p s) : Canon p (check s hart c) := by
  unfold check
  refine ite_ok ?_ ?_
  · exact admitChunk_canon h
  · refine ite_ok ?_ ?_
    · exact waitFor_canon h
    · split
      · exact waitFor_canon h
      · exact admitChunk_canon h

theorem execChunkPresent_canon (h : Canon p s) : OutOk p (execChunkPresent s) := by
  unfold execChunkPresent
  extract_lets +onlyGivenNames _
  split
  · exact ite_ok h (ite_ok (waitFor_canon h) (check_canon h))
  · exact h

theorem execCorniceRecheck_canon (h : Canon p s) : OutOk p (execCorniceRecheck s) := by
  unfold execCorniceRecheck
  extract_lets +onlyGivenNames _
  split
  · exact h
  · refine ite_ok ?_ ?_
    · exact h
    · refine ite_ok ?_ ?_
      · exact squashFrom_canon h
      · split
        · exact check_canon h
        · exact unpresent_canon h

theorem passAlone_canon {hart} (h : Canon p s) : Canon p (passAlone s hart) := by
  unfold passAlone
  refine ite_ok ?_ ?_
  · extract_lets +onlyGivenNames s1
    have hs1 : Canon p s1 := leaveQueue_canon h
    exact ite_ok (askSolo_canon hs1) (modHart_canon hs1 fun _ h1 => h1)
  · exact h

theorem execChunkCommit_canon (h : Canon p s) : OutOk p (execChunkCommit s) := by
  unfold execChunkCommit
  extract_lets i x
  split
  next heq =>
    have hx : HartOk p x := getHart_canon h
    have hr := (List.forall_mem_cons.1 (heq ▸ hx.inflight)).2
    exact ite_ok h (passAlone_canon (commitChunk_canon (setHart_canon h { hx with inflight := hr })))
  · exact h

theorem countTransfer_canon {hart} (h : Canon p s) : Canon p (countTransfer s hart) :=
  ite_ok h (modHart_canon h fun _ h1 => h1)

theorem execSharedTransferApply_canon (h : Canon p s) : OutOk p (execSharedTransferApply s) := by
  unfold execSharedTransferApply
  extract_lets +onlyGivenNames _
  split
  · exact h
  · extract_lets +onlyGivenNames s1 _ _ s2 s3
    have hs1 : Canon p s1 := modCluster_canon h fun _ h1 => h1
    have hs2 : Canon p s2 := ite_ok (squashShared_canon (setShared_canon hs1)) hs1
    have hs3 : Canon p s3 := ite_ok hs2 (countTransfer_canon hs2)
    exact ite_ok (P := Canon p) (confirm_canon (ite_ok hs3 (modHead_canon hs3))) hs3

/-! ## Scalar -/

theorem putG_canon {c rd f} (h : Canon p s) : OutOk p (putG c rd f s) :=
  plain_canon h fun _ h1 => setG_canon h1

theorem putP_canon {c pd f} (h : Canon p s) : OutOk p (putP c pd f s) :=
  plain_canon h fun _ h1 => setP_canon h1

/-! ## Scalar: Arithmetic and logic (R243-R245) -/

theorem execAdd_canon {c rd ra rb} (h : Canon p s) : OutOk p (execAdd c rd ra rb s) :=
  putG_canon h

theorem execSub_canon {c rd ra rb} (h : Canon p s) : OutOk p (execSub c rd ra rb s) :=
  putG_canon h

theorem execMul_canon {c rd ra rb} (h : Canon p s) : OutOk p (execMul c rd ra rb s) :=
  putG_canon h

theorem execMulh_canon {c rd ra rb} (h : Canon p s) : OutOk p (execMulh c rd ra rb s) :=
  putG_canon h

theorem execMulhu_canon {c rd ra rb} (h : Canon p s) : OutOk p (execMulhu c rd ra rb s) :=
  putG_canon h

theorem execMadd_canon {c rd ra rb rc} (h : Canon p s) : OutOk p (execMadd c rd ra rb rc s) :=
  putG_canon h

theorem execDiv_canon {c rd ra rb} (h : Canon p s) : OutOk p (execDiv c rd ra rb s) :=
  putG_canon h

theorem execDivu_canon {c rd ra rb} (h : Canon p s) : OutOk p (execDivu c rd ra rb s) :=
  putG_canon h

theorem execRem_canon {c rd ra rb} (h : Canon p s) : OutOk p (execRem c rd ra rb s) :=
  putG_canon h

theorem execRemu_canon {c rd ra rb} (h : Canon p s) : OutOk p (execRemu c rd ra rb s) :=
  putG_canon h

theorem execAnd_canon {c rd ra rb} (h : Canon p s) : OutOk p (execAnd c rd ra rb s) :=
  putG_canon h

theorem execOr_canon {c rd ra rb} (h : Canon p s) : OutOk p (execOr c rd ra rb s) :=
  putG_canon h

theorem execXor_canon {c rd ra rb} (h : Canon p s) : OutOk p (execXor c rd ra rb s) :=
  putG_canon h

theorem execAndn_canon {c rd ra rb} (h : Canon p s) : OutOk p (execAndn c rd ra rb s) :=
  putG_canon h

theorem execOrn_canon {c rd ra rb} (h : Canon p s) : OutOk p (execOrn c rd ra rb s) :=
  putG_canon h

theorem execSll_canon {c rd ra rb} (h : Canon p s) : OutOk p (execSll c rd ra rb s) :=
  putG_canon h

theorem execSrl_canon {c rd ra rb} (h : Canon p s) : OutOk p (execSrl c rd ra rb s) :=
  putG_canon h

theorem execSra_canon {c rd ra rb} (h : Canon p s) : OutOk p (execSra c rd ra rb s) :=
  putG_canon h

theorem execRol_canon {c rd ra rb} (h : Canon p s) : OutOk p (execRol c rd ra rb s) :=
  putG_canon h

theorem execRor_canon {c rd ra rb} (h : Canon p s) : OutOk p (execRor c rd ra rb s) :=
  putG_canon h

theorem execMin_canon {c rd ra rb} (h : Canon p s) : OutOk p (execMin c rd ra rb s) :=
  putG_canon h

theorem execMax_canon {c rd ra rb} (h : Canon p s) : OutOk p (execMax c rd ra rb s) :=
  putG_canon h

theorem execMinu_canon {c rd ra rb} (h : Canon p s) : OutOk p (execMinu c rd ra rb s) :=
  putG_canon h

theorem execMaxu_canon {c rd ra rb} (h : Canon p s) : OutOk p (execMaxu c rd ra rb s) :=
  putG_canon h

/-! ## Scalar: Bits (R246-R250) -/

theorem execClz_canon {c rd ra} (h : Canon p s) : OutOk p (execClz c rd ra s) :=
  putG_canon h

theorem execCtz_canon {c rd ra} (h : Canon p s) : OutOk p (execCtz c rd ra s) :=
  putG_canon h

theorem execPopc_canon {c rd ra} (h : Canon p s) : OutOk p (execPopc c rd ra s) :=
  putG_canon h

theorem execBswap_canon {c rd ra} (h : Canon p s) : OutOk p (execBswap c rd ra s) :=
  putG_canon h

theorem execSext_canon {c rd ra n1} (h : Canon p s) : OutOk p (execSext c rd ra n1 s) :=
  putG_canon h

theorem execZext_canon {c rd ra n1} (h : Canon p s) : OutOk p (execZext c rd ra n1 s) :=
  putG_canon h

theorem execBfx_canon {c rd ra sg pos len1} (h : Canon p s) : OutOk p (execBfx c rd ra sg pos len1 s) :=
  putG_canon h

theorem execBfi_canon {c rd ra pos len1} (h : Canon p s) : OutOk p (execBfi c rd ra pos len1 s) :=
  putG_canon h

theorem execAddsh_canon {c rd ra rb sh} (h : Canon p s) : OutOk p (execAddsh c rd ra rb sh s) :=
  putG_canon h

theorem execSel_canon {c rd pn ra rb} (h : Canon p s) : OutOk p (execSel c rd pn ra rb s) :=
  putG_canon h

/-! ## Scalar: Comparison and predicates (R251, R252) -/

theorem execCmp_canon {c cond pd ra rb} (h : Canon p s) : OutOk p (execCmp c cond pd ra rb s) :=
  putP_canon h

theorem execPlog_canon {c op pd pa pb} (h : Canon p s) : OutOk p (execPlog c op pd pa pb s) :=
  putP_canon h

/-! ## Scalar: Immediate forms (R253-R255) -/

theorem execAddi_canon {c rd ra imm} (h : Canon p s) : OutOk p (execAddi c rd ra imm s) :=
  putG_canon h

theorem execAndi_canon {c rd ra imm} (h : Canon p s) : OutOk p (execAndi c rd ra imm s) :=
  putG_canon h

theorem execOri_canon {c rd ra imm} (h : Canon p s) : OutOk p (execOri c rd ra imm s) :=
  putG_canon h

theorem execXori_canon {c rd ra imm} (h : Canon p s) : OutOk p (execXori c rd ra imm s) :=
  putG_canon h

theorem execSlli_canon {c rd ra sh} (h : Canon p s) : OutOk p (execSlli c rd ra sh s) :=
  putG_canon h

theorem execSrli_canon {c rd ra sh} (h : Canon p s) : OutOk p (execSrli c rd ra sh s) :=
  putG_canon h

theorem execSrai_canon {c rd ra sh} (h : Canon p s) : OutOk p (execSrai c rd ra sh s) :=
  putG_canon h

theorem execMuli_canon {c rd ra imm} (h : Canon p s) : OutOk p (execMuli c rd ra imm s) :=
  putG_canon h

theorem execCmpi_canon {c cond pd ra imm} (h : Canon p s) : OutOk p (execCmpi c cond pd ra imm s) :=
  putP_canon h

theorem execLi_canon {c rd imm} (h : Canon p s) : OutOk p (execLi c rd imm s) :=
  putG_canon h

theorem execLui_canon {c rd imm} (h : Canon p s) : OutOk p (execLui c rd imm s) :=
  putG_canon h

theorem execLpc_canon {c rd imm} (h : Canon p s) : OutOk p (execLpc c rd imm s) :=
  putG_canon h

/-! ## ScalarFp -/

theorem roundTo_canon {t m rd r} (h : Canon p s) : EffOk p (roundTo s t m rd r) := by
  unfold roundTo
  exact withFlags_canon h fun _ ht => setG_canon ht

theorem execFadd_canon {c t m rd ra rb} (h : Canon p s) : OutOk p (execFadd c t m rd ra rb s) :=
  plain_canon h fun _ h1 => roundTo_canon h1

theorem execFsub_canon {c t m rd ra rb} (h : Canon p s) : OutOk p (execFsub c t m rd ra rb s) :=
  plain_canon h fun _ h1 => roundTo_canon h1

theorem execFmul_canon {c t m rd ra rb} (h : Canon p s) : OutOk p (execFmul c t m rd ra rb s) :=
  plain_canon h fun _ h1 => roundTo_canon h1

theorem execFma_canon {c t m rd ra rb rc} (h : Canon p s) : OutOk p (execFma c t m rd ra rb rc s) :=
  plain_canon h fun _ h1 => roundTo_canon h1

theorem execFdiv_canon {c t m rd ra rb} (h : Canon p s) : OutOk p (execFdiv c t m rd ra rb s) :=
  plain_canon h fun _ h1 => roundTo_canon h1

theorem execFsqrt_canon {c t m rd ra} (h : Canon p s) : OutOk p (execFsqrt c t m rd ra s) :=
  plain_canon h fun _ h1 => roundTo_canon h1

theorem pickTo_canon {t larger rd ra rb} (h : Canon p s) : EffOk p (pickTo s t larger rd ra rb) := by
  unfold pickTo
  exact withFlags_canon h fun _ ht => setG_canon ht

theorem execFmin_canon {c t rd ra rb} (h : Canon p s) : OutOk p (execFmin c t rd ra rb s) :=
  plain_canon h fun _ h1 => pickTo_canon h1

theorem execFmax_canon {c t rd ra rb} (h : Canon p s) : OutOk p (execFmax c t rd ra rb s) :=
  plain_canon h fun _ h1 => pickTo_canon h1

theorem execFcmp_canon {c t cond pd ra rb} (h : Canon p s) : OutOk p (execFcmp c t cond pd ra rb s) :=
  plain_canon h fun _ h1 => withFlags_canon h1 fun _ h2 => setP_canon h2

theorem execFcvt_canon {c t m src rd ra} (h : Canon p s) : OutOk p (execFcvt c t m src rd ra s) :=
  plain_canon h fun _ h1 => withFlags_canon h1 fun _ h2 => setG_canon h2

theorem execFclass_canon {c t rd ra} (h : Canon p s) : OutOk p (execFclass c t rd ra s) :=
  plain_canon h fun _ h1 => setG_canon h1

/-! ## Traps -/

theorem pollAgain_canon {hart} (h : Canon p s) : Canon p (pollAgain s hart) := by
  unfold pollAgain
  split
  · exact ite_ok h (request_canon (modHart_canon h fun _ h1 => h1))
  · exact h

theorem endWait_canon {hart} (h : Canon p s) : Canon p (endWait s hart) :=
  ite_ok h (ite_ok (setHart_canon h (getHart_canon h)) (ite_ok (pollAgain_canon h) h))

theorem execTrapDelivery_canon (h : Canon p s) : OutOk p (execTrapDelivery s) := by
  unfold execTrapDelivery
  extract_lets +onlyGivenNames _
  split
  · exact ite_ok (afterChunk_canon (focus_canon h) (fun _ h1 => updHart_canon h1 fun _ h2 => h2) fun _ h3 => deliver_canon h3) h
  · exact h

theorem execInterruptDelivery_canon (h : Canon p s) : OutOk p (execInterruptDelivery s) := by
  unfold execInterruptDelivery
  extract_lets +onlyGivenNames _ _
  split
  · exact ite_ok (P := Canon p) (afterChunk_canon (cutBack_canon (focus_canon h)) (fun _ h1 => h1) fun _ h2 => deliver_canon h2) h
  · exact h

theorem execUserInterrupt_canon (h : Canon p s) : OutOk p (execUserInterrupt s) :=
  ite_ok (afterChunk_canon (cutBack_canon (focus_canon h)) (fun _ h1 => h1) fun _ h2 => deliverUser_canon h2) h

theorem execMachineCheck_canon (h : Canon p s) : OutOk p (execMachineCheck s) :=
  ite_ok h (ite_ok (afterChunk_canon (cutBack_canon (focus_canon h)) (fun _ h1 => after_canon h1) fun _ h2 => deliver_canon h2)
    (endWait_canon (modHart_canon h fun _ h3 => h3)))

theorem execTimecmpMatch_canon (h : Canon p s) : OutOk p (execTimecmpMatch s) :=
  endWait_canon h

theorem execSwintWrite_canon (h : Canon p s) : OutOk p (execSwintWrite s) :=
  endWait_canon (modHart_canon h fun _ h1 => h1)

theorem execWatchdog_canon (h : Canon p s) : OutOk p (execWatchdog s) := by
  unfold execWatchdog
  refine ite_ok ?_ ?_
  · exact h
  · split
    · exact endWait_canon (modHart_canon { h with dogs := by with_reducible exact h.dogs.put _ _ } fun _ h1 => h1)
    · exact { h with dogs := by with_reducible exact h.dogs.put _ _ }

theorem execWdwinBind_canon (h : Canon p s) : OutOk p (execWdwinBind s) :=
  bindDog_canon h

theorem execWdwinUnbind_canon (h : Canon p s) : OutOk p (execWdwinUnbind s) :=
  unbindDog_canon h

theorem execUstatImageWrite_canon (h : Canon p s) : OutOk p (execUstatImageWrite s) :=
  modHart_canon h fun _ h1 => ustatImage_canon h1

theorem execRegisterWrite_canon (h : Canon p s) : OutOk p (execRegisterWrite s) :=
  ite_ok h (ctlWrite_canon h)

/-! ## Schedule: The choice of the decoder (R226, R369) -/

theorem execDecodeSelect_canon (h : Canon p s) : OutOk p (execDecodeSelect s) := by
  unfold execDecodeSelect
  extract_lets +onlyGivenNames _
  split
  · exact h
  · exact noteDecode_canon h

/-! ## Schedule: The slot switcher (R370-R373) -/

theorem execPark_canon (h : Canon p s) : OutOk p (execPark s) := by
  unfold execPark
  extract_lets +onlyGivenNames _
  split <;> exact ite_ok (parkCur_canon (focus_canon h)) h

theorem execBringIn_canon (h : Canon p s) : OutOk p (execBringIn s) :=
  bringInCore_canon h

theorem execPreempt_canon (h : Canon p s) : OutOk p (execPreempt s) :=
  ite_ok (bringInCore_canon (parkCur_canon (focus_canon h))) h

theorem execWaitEnd_canon (h : Canon p s) : OutOk p (execWaitEnd s) :=
  endWait_canon h

/-! ## Schedule: Placement (R207-R209, R375-R377) -/

theorem execGangMemberPlace_canon (h : Canon p s) : OutOk p (execGangMemberPlace s) := by
  unfold execGangMemberPlace
  extract_lets d b
  split
  · exact h
  next g he =>
    have hg : GangOk p g :=
      each_get (P := fun g => ∀ x ∈ g, GangOk p x) (getDie_canon h).gens (fun x hx => absurd hx (Option.not_mem_none x)) b g he
    split
    · exact h
    · refine modDie_canon (placeHart_canon h (memberArch_canon hg)) fun _ hx => putGang_ok hx fun x hy => ?_
      split at hy
      · exact Option.some.inj hy ▸ hg
      · cases hy

theorem reports_canon {e l} (h : Canon p s) : Canon p { s with extstat := e, log := l } := h

theorem reportNodes_canon {d} (h : Canon p s) : Canon p (reportNodes s d) := by
  refine ite_ok h (reports_canon (modDie_canon h fun x hx => { hx with pool := ?_ }))
  have pool : ∀ n ∈ (getDie s d).pool, NodeOk p n := (getDie_canon h).pool
  exact List.forall_mem_map.2 fun n hn => ite_ok (P := NodeOk p) (pool n hn) (pool n hn)

theorem execReadyPoolPlace_canon (h : Canon p s) : OutOk p (execReadyPoolPlace s) := by
  unfold execReadyPoolPlace
  extract_lets +onlyGivenNames _ s1
  have hs1 : Canon p s1 := reportNodes_canon h
  split
  · exact hs1
  · split
    next he =>
      exact modDie_canon (placeHart_canon hs1 (((getDie_canon hs1).pool) _ (List.mem_of_getElem? he))) fun _ h1 =>
          { h1 with pool := fun _ hk => h1.pool _ (List.mem_of_mem_eraseIdx hk) }
    · exact hs1

/-! ## Schedule: Tile engines (R56, R57, R378-R381) -/

theorem execTileRename_canon (h : Canon p s) : OutOk p (execTileRename s) :=
  ite_ok (P := Canon p) (modCluster_canon h fun _ h1 => h1) h

theorem execEngineDispatch_canon (h : Canon p s) : OutOk p (execEngineDispatch s) := by
  unfold execEngineDispatch
  split
  · exact h
  · extract_lets +onlyGivenNames _
    split
    · exact h
    · exact ite_ok h (modEngine_canon (modCluster_canon h fun _ h1 => h1) fun _ h2 => h2)

theorem execEngineOpStart_canon (h : Canon p s) : OutOk p (execEngineOpStart s) := by
  unfold execEngineOpStart
  extract_lets +onlyGivenNames _ _ _
  split
  · exact pulse_canon (modEngine_canon h fun _ h1 => h1)
  · exact h

theorem execEngineOpComplete_canon (h : Canon p s) : OutOk p (execEngineOpComplete s) := by
  unfold execEngineOpComplete
  extract_lets +onlyGivenNames _ _
  split
  · exact ite_ok (modHart_canon (modCluster_canon (modEngine_canon h fun _ h1 => h1) fun _ h2 => h2) fun _ h3 => h3) h
  · exact h

/-! ## Schedule: The special-function unit (R74) -/

theorem execSfuDequeue_canon (h : Canon p s) : OutOk p (execSfuDequeue s) :=
  modCluster_canon h fun _ h1 => h1

theorem execSfuResult_canon (h : Canon p s) : OutOk p (execSfuResult s) := by
  unfold execSfuResult
  split
  · refine ite_ok ?_ ?_
    · extract_lets +onlyGivenNames s1
      have hs1 : Canon p s1 := modCluster_canon h fun _ h1 => h1
      exact ite_ok (P := Canon p) (modHart_canon hs1 fun _ h2 => h2) hs1
    · exact h
  · exact h

/-! ## VectorInt: Lanes written under a mask -/

theorem putLanes_canon {t m vd f} (h : Canon p s) : Canon p (putLanes s t m vd f) :=
  setV_canon h

theorem putGroup_canon {t w n m vd f} (h : Canon p s) : Canon p (putGroup s t w n m vd f) :=
  updArch_canon h fun _ h1 => mergeGroup_canon h1

theorem putPred_canon {t m pd f} (h : Canon p s) : Canon p (putPred s t m pd f) :=
  setP_canon h

theorem intOp_canon {c t m vd f} (h : Canon p s) : OutOk p (intOp c t m vd f s) :=
  vector_canon h fun _ h1 => putLanes_canon h1

theorem intOpW_canon {c t m w vd f} (h : Canon p s) : OutOk p (intOpW c t m w vd f s) :=
  ite_ok (vector_canon h fun _ h1 => putGroup_canon h1) (intOp_canon h)

theorem bitOp_canon {c t m vd f} (h : Canon p s) : OutOk p (bitOp c t m vd f s) :=
  vector_canon h fun _ h1 => putLanes_canon h1

/-! ## VectorInt: Arithmetic (R299, R300) -/

theorem execVadd_canon {c m t w vd va vb} (h : Canon p s) : OutOk p (execVadd c m t w vd va vb s) :=
  intOpW_canon h

theorem execVsub_canon {c m t w vd va vb} (h : Canon p s) : OutOk p (execVsub c m t w vd va vb s) :=
  intOpW_canon h

theorem execVmul_canon {c m t w vd va vb} (h : Canon p s) : OutOk p (execVmul c m t w vd va vb s) :=
  intOpW_canon h

theorem execVmulh_canon {c m t vd va vb} (h : Canon p s) : OutOk p (execVmulh c m t vd va vb s) :=
  intOp_canon h

theorem execVmadd_canon {c m t w vd va vb vc} (h : Canon p s) : OutOk p (execVmadd c m t w vd va vb vc s) :=
  intOpW_canon h

theorem satOp_canon {c t m vd f} (h : Canon p s) : OutOk p (satOp c t m vd f s) :=
  vector_canon h fun _ h1 => updArch_canon (putLanes_canon h1) fun _ h2 => withSat_canon h2

theorem execVaddsat_canon {c m t vd va vb} (h : Canon p s) : OutOk p (execVaddsat c m t vd va vb s) :=
  satOp_canon h

theorem execVsubsat_canon {c m t vd va vb} (h : Canon p s) : OutOk p (execVsubsat c m t vd va vb s) :=
  satOp_canon h

theorem execVmin_canon {c m t vd va vb} (h : Canon p s) : OutOk p (execVmin c m t vd va vb s) :=
  intOp_canon h

theorem execVmax_canon {c m t vd va vb} (h : Canon p s) : OutOk p (execVmax c m t vd va vb s) :=
  intOp_canon h

theorem execVabs_canon {c m t vd va} (h : Canon p s) : OutOk p (execVabs c m t vd va s) :=
  intOp_canon h

/-! ## VectorInt: Logic and shifts (R299) -/

theorem execVand_canon {c m t vd va vb} (h : Canon p s) : OutOk p (execVand c m t vd va vb s) :=
  bitOp_canon h

theorem execVor_canon {c m t vd va vb} (h : Canon p s) : OutOk p (execVor c m t vd va vb s) :=
  bitOp_canon h

theorem execVxor_canon {c m t vd va vb} (h : Canon p s) : OutOk p (execVxor c m t vd va vb s) :=
  bitOp_canon h

theorem execVandn_canon {c m t vd va vb} (h : Canon p s) : OutOk p (execVandn c m t vd va vb s) :=
  bitOp_canon h

theorem execVshl_canon {c m t imm vd va amt} (h : Canon p s) : OutOk p (execVshl c m t imm vd va amt s) :=
  bitOp_canon h

theorem execVshr_canon {c m t imm vd va amt} (h : Canon p s) : OutOk p (execVshr c m t imm vd va amt s) :=
  bitOp_canon h

theorem execVsra_canon {c m t imm vd va amt} (h : Canon p s) : OutOk p (execVsra c m t imm vd va amt s) :=
  intOp_canon h

theorem execVpopc_canon {c m t vd va} (h : Canon p s) : OutOk p (execVpopc c m t vd va s) :=
  bitOp_canon h

/-! ## VectorInt: Comparison and selection (R301, R302) -/

theorem execVcmp_canon {c m t cond pd va vb} (h : Canon p s) : OutOk p (execVcmp c m t cond pd va vb s) :=
  vector_canon h fun _ h1 => putPred_canon h1

theorem execVsel_canon {c m t pn vd va vb} (h : Canon p s) : OutOk p (execVsel c m t pn vd va vb s) :=
  bitOp_canon h

/-! ## VectorFp: Lanes with flags (R289) -/

theorem fpLanes_canon {t m f k} (h : Canon p s) (hk : ∀ s x, Canon p s → Canon p (k s x)) : EffOk p (fpLanes s t m f k) := by
  unfold fpLanes
  exact withFlags_canon h fun _ ht => hk _ _ ht

theorem fpOp_canon {c m t rm w vd f} (h : Canon p s) : OutOk p (fpOp c m t rm w vd f s) :=
  vector_canon h fun _ h1 => fpLanes_canon h1 fun _ _ h2 => ite_ok (putGroup_canon h2) (putLanes_canon h2)

theorem execVfadd_canon {c m t rm w vd va vb} (h : Canon p s) : OutOk p (execVfadd c m t rm w vd va vb s) :=
  fpOp_canon h

theorem execVfsub_canon {c m t rm w vd va vb} (h : Canon p s) : OutOk p (execVfsub c m t rm w vd va vb s) :=
  fpOp_canon h

theorem execVfmul_canon {c m t rm w vd va vb} (h : Canon p s) : OutOk p (execVfmul c m t rm w vd va vb s) :=
  fpOp_canon h

theorem execVfma_canon {c m t rm w vd va vb vc} (h : Canon p s) : OutOk p (execVfma c m t rm w vd va vb vc s) :=
  fpOp_canon h

theorem execVfdiv_canon {c m t rm vd va vb} (h : Canon p s) : OutOk p (execVfdiv c m t rm vd va vb s) :=
  fpOp_canon h

theorem execVfsqrt_canon {c m t rm vd va} (h : Canon p s) : OutOk p (execVfsqrt c m t rm vd va s) :=
  fpOp_canon h

/-! ## VectorFp: Minimum, maximum, sign, comparison (R304, R305) -/

theorem fpPick_canon {larger c m t vd va vb} (h : Canon p s) : OutOk p (fpPick larger c m t vd va vb s) :=
  vector_canon h fun _ h1 => fpLanes_canon h1 fun _ _ h2 => putLanes_canon h2

theorem execVfmin_canon {c m t vd va vb} (h : Canon p s) : OutOk p (execVfmin c m t vd va vb s) :=
  fpPick_canon h

theorem execVfmax_canon {c m t vd va vb} (h : Canon p s) : OutOk p (execVfmax c m t vd va vb s) :=
  fpPick_canon h

theorem signOp_canon {c m t vd va f} (h : Canon p s) : OutOk p (signOp c m t vd va f s) :=
  vector_canon h fun _ h1 => putLanes_canon h1

theorem execVfabs_canon {c m t vd va} (h : Canon p s) : OutOk p (execVfabs c m t vd va s) :=
  signOp_canon h

theorem execVfneg_canon {c m t vd va} (h : Canon p s) : OutOk p (execVfneg c m t vd va s) :=
  signOp_canon h

theorem execVfcmp_canon {c m t cond pd va vb} (h : Canon p s) : OutOk p (execVfcmp c m t cond pd va vb s) :=
  vector_canon h fun _ h1 => fpLanes_canon h1 fun _ _ h2 => putPred_canon h2

/-! ## VectorFp: Special functions (R74, R306) -/

theorem sfuRequest_canon {k} (h : Canon p s) (hk : ∀ x, Canon p x → EffOk p (k x)) : EffOk p (sfuRequest s k) := by
  unfold sfuRequest
  split
  · exact hk _ h
  · exact h
  · exact ite_ok h (updHart_canon (modCluster_canon h fun _ h1 => h1) fun _ h2 => h2)

theorem special_canon {c m rm vd va f} (h : Canon p s) : OutOk p (special c m rm vd va f s) :=
  plain_canon h fun _ h1 => sfuRequest_canon h1 fun _ h2 => fpLanes_canon h2 fun _ _ h3 => putLanes_canon h3

theorem execVrcp_canon {c m rm vd va} (h : Canon p s) : OutOk p (execVrcp c m rm vd va s) :=
  special_canon h

theorem execVrsqrt_canon {c m rm vd va} (h : Canon p s) : OutOk p (execVrsqrt c m rm vd va s) :=
  special_canon h

theorem execVexp2_canon {c m rm vd va} (h : Canon p s) : OutOk p (execVexp2 c m rm vd va s) :=
  special_canon h

theorem execVlog2_canon {c m rm vd va} (h : Canon p s) : OutOk p (execVlog2 c m rm vd va s) :=
  special_canon h

theorem execVsin_canon {c m rm vd va} (h : Canon p s) : OutOk p (execVsin c m rm vd va s) :=
  special_canon h

theorem execVcos_canon {c m rm vd va} (h : Canon p s) : OutOk p (execVcos c m rm vd va s) :=
  special_canon h

theorem execVtanh_canon {c m rm vd va} (h : Canon p s) : OutOk p (execVtanh c m rm vd va s) :=
  special_canon h

/-! ## VectorFp: Conversion (R308-R310) -/

theorem execVcvt_canon {c m t rm src vd va} (h : Canon p s) : OutOk p (execVcvt c m t rm src vd va s) :=
  vector_canon h fun _ h1 => fpLanes_canon h1 fun _ _ h2 => putLanes_canon h2

theorem execVwiden_canon {c m t src vd va} (h : Canon p s) : OutOk p (execVwiden c m t src vd va s) :=
  vector_canon h fun _ h1 => fpLanes_canon h1 fun _ _ h2 => spend_canon (putGroup_canon h2)

theorem execVnarrow_canon {c m t f src vd va} (h : Canon p s) : OutOk p (execVnarrow c m t f src vd va s) :=
  vector_canon h fun _ h1 => ite_ok (updArch_canon (putLanes_canon h1) fun _ h2 => withSat_canon h2)
    (fpLanes_canon h1 fun _ _ h3 => putLanes_canon h3)

/-! ## VectorFp: Packing (R178, R311) -/

theorem execVpack_canon {c t b vd va vb} (h : Canon p s) : OutOk p (execVpack c t b vd va vb s) :=
  vector_canon h fun _ h1 => setV_canon h1

theorem execVunpack_canon {c m t b q vd va} (h : Canon p s) : OutOk p (execVunpack c m t b q vd va s) :=
  vector_canon h fun _ h1 => putLanes_canon h1

/-! ## VectorMem: Lanes in memory (R291) -/

theorem laneLoad_canon {n a} (h : Canon p s) : ResOk p (laneLoad s n a) :=
  ite_ok (load_canon h) h

theorem loadLanes_canon {s : State} {n x} (h : Canon p s) : ResOk p (loadLanes s n x) := by
  unfold loadLanes
  split
  · exact h
  · split
    next e1 => exact canon_of_eq (loadLanes_canon h) e1
    · exact loadLanes_canon h
  · split
    next e2 =>
      have k1 := canon_of_eq (laneLoad_canon h) e2
      split
      next e3 => exact canon_of_eq (loadLanes_canon k1) e3
      · exact loadLanes_canon k1
    all_goals next e2 => exact canon_of_eq (laneLoad_canon h) e2

theorem checkLanes_canon {n l} (h : Canon p s) : ResOk p (checkLanes s n l) := by
  unfold checkLanes
  extract_lets
  split
  next he _ => exact canon_of_eq (checkPieces_canon h) he
  · exact checkPieces_canon h

theorem storeLanes_canon {n l} (h : Canon p s) : EffOk p (storeLanes s n l) :=
  thenDo_canon (checkLanes_canon h) fun _ _ h1 => thenDo_canon (writePieces_canon h1) fun _ _ h2 => h2

theorem maskedLoad_canon {n m vd f} (h : Canon p s) : EffOk p (maskedLoad s n m vd f) := by
  unfold maskedLoad
  exact thenDo_canon (loadLanes_canon h) fun _ _ ht => setV_canon ht

theorem maskedStore_canon {n pm vs f} (h : Canon p s) : EffOk p (maskedStore s n pm vs f) :=
  storeLanes_canon h

/-! ## VectorMem: The instructions -/

theorem execVld_canon {c vd rb off} (h : Canon p s) : OutOk p (execVld c vd rb off s) :=
  plain_canon h fun _ h1 => thenDo_canon (laneLoad_canon h1) fun _ _ h2 => setV_canon h2

theorem execVst_canon {c vs rb off} (h : Canon p s) : OutOk p (execVst c vs rb off s) :=
  plain_canon h fun _ h1 => storeLanes_canon h1

theorem execVlds_canon {c m vd rb rs sz} (h : Canon p s) : OutOk p (execVlds c m vd rb rs sz s) :=
  plain_canon h fun _ h1 => maskedLoad_canon h1

theorem execVsts_canon {c pm vs rb rs sz} (h : Canon p s) : OutOk p (execVsts c pm vs rb rs sz s) :=
  plain_canon h fun _ h1 => maskedStore_canon h1

theorem execVldx_canon {c m vd rb vi sz n} (h : Canon p s) : OutOk p (execVldx c m vd rb vi sz n s) :=
  plain_canon h fun _ h1 => maskedLoad_canon h1

theorem execVstx_canon {c pm vs rb vi sz n} (h : Canon p s) : OutOk p (execVstx c pm vs rb vi sz n s) :=
  plain_canon h fun _ h1 => maskedStore_canon h1

theorem wholeSegment_canon {n k a f} (h : Canon p s) (hf : EffOk p f) : EffOk p (wholeSegment s n k a f) :=
  guardTrap_canon h hf

theorem execVldseg_canon {c vd rb sz k1 off} (h : Canon p s) : OutOk p (execVldseg c vd rb sz k1 off s) :=
  plain_canon h fun _ h1 => wholeSegment_canon h1
    (thenDo_canon (loadLanes_canon h1) fun _ _ h2 => foldl_ok h2 fun _ _ h3 => setV_canon h3)

theorem execVstseg_canon {c vs rb sz k1 off} (h : Canon p s) : OutOk p (execVstseg c vs rb sz k1 off s) :=
  plain_canon h fun _ h1 => wholeSegment_canon h1 (storeLanes_canon h1)

theorem execVldb_canon {c vd rb sz off} (h : Canon p s) : OutOk p (execVldb c vd rb sz off s) :=
  plain_canon h fun _ h1 => thenDo_canon (laneLoad_canon h1) fun _ _ h2 => setV_canon h2

theorem loadFirst_canon {s : State} {n a i j} (h : Canon p s) : ResOk p (loadFirst s n a i j) := by
  unfold loadFirst
  split
  · exact h
  · split
    next e1 =>
      have k1 := canon_of_eq (laneLoad_canon h) e1
      split
      next e2 => exact canon_of_eq (loadFirst_canon k1) e2
      · exact loadFirst_canon k1
    all_goals next e1 => exact canon_of_eq (laneLoad_canon h) e1

theorem execVldf_canon {c vd rb sz off} (h : Canon p s) : OutOk p (execVldf c vd rb sz off s) :=
  plain_canon h fun _ h1 => thenDo_canon (loadFirst_canon h1) fun _ _ h2 => setP_canon (setV_canon h2)

/-! ## VectorMisc: Reductions (R312, R313) -/

theorem putFirst_canon {t vd x} (h : Canon p s) : Canon p (putFirst s t vd x) :=
  setV_canon h

theorem execVredadd_canon {c pm t src vd va vi} (h : Canon p s) : OutOk p (execVredadd c pm t src vd va vi s) :=
  vector_canon h fun _ h1 => putFirst_canon h1

theorem execVredmin_canon {c pm t vd va vi} (h : Canon p s) : OutOk p (execVredmin c pm t vd va vi s) :=
  vector_canon h fun _ h1 => putFirst_canon h1

theorem execVredmax_canon {c pm t vd va vi} (h : Canon p s) : OutOk p (execVredmax c pm t vd va vi s) :=
  vector_canon h fun _ h1 => putFirst_canon h1

theorem execVfredadd_canon {c pm t rm src vd va vi} (h : Canon p s) : OutOk p (execVfredadd c pm t rm src vd va vi s) :=
  vector_canon h fun _ h1 => withFlags_canon h1 fun _ h2 => putFirst_canon h2

theorem execVfredmax_canon {c pm t vd va vi} (h : Canon p s) : OutOk p (execVfredmax c pm t vd va vi s) :=
  vector_canon h fun _ h1 => withFlags_canon h1 fun _ h2 => putFirst_canon h2

/-! ## VectorMisc: Scans (R314) -/

theorem execVscan_canon {c m t rm vd va vi} (h : Canon p s) : OutOk p (execVscan c m t rm vd va vi s) :=
  vector_canon h fun _ h1 => ite_ok (putLanes_canon h1) (fpLanes_canon h1 fun _ _ h2 => putLanes_canon h2)

/-! ## VectorMisc: Permutation (R315-R317) -/

theorem execVperm_canon {c m t vd va vb vi} (h : Canon p s) : OutOk p (execVperm c m t vd va vb vi s) :=
  bitOp_canon h

theorem execVslide_canon {c m t vd va vb n} (h : Canon p s) : OutOk p (execVslide c m t vd va vb n s) :=
  bitOp_canon h

theorem execVrot_canon {c m t vd va n} (h : Canon p s) : OutOk p (execVrot c m t vd va n s) :=
  bitOp_canon h

theorem execVzip_canon {c m t hi vd va vb} (h : Canon p s) : OutOk p (execVzip c m t hi vd va vb s) :=
  bitOp_canon h

theorem execVunzip_canon {c m t odd vd va vb} (h : Canon p s) : OutOk p (execVunzip c m t odd vd va vb s) :=
  bitOp_canon h

theorem putFront_canon {t zm vd l} (h : Canon p s) : Canon p (putFront s t zm vd l) :=
  setV_canon h

theorem execVcompress_canon {c m t vd va} (h : Canon p s) : OutOk p (execVcompress c m t vd va s) :=
  vector_canon h fun _ h1 => putFront_canon h1

theorem execVexpand_canon {c m t vd va} (h : Canon p s) : OutOk p (execVexpand c m t vd va s) :=
  bitOp_canon h

theorem execVbcast_canon {c m t fromG vd src n} (h : Canon p s) : OutOk p (execVbcast c m t fromG vd src n s) :=
  bitOp_canon h

theorem execVins_canon {c t vd ra n} (h : Canon p s) : OutOk p (execVins c t vd ra n s) :=
  vector_canon h fun _ h1 => setV_canon h1

theorem execVext_canon {c t rd va n} (h : Canon p s) : OutOk p (execVext c t rd va n s) :=
  vector_canon h fun _ h1 => setG_canon h1

/-! ## VectorMisc: Dot products (R318) -/

theorem execVdot4_canon {c m t src mix vd va vb} (h : Canon p s) : OutOk p (execVdot4 c m t src mix vd va vb s) :=
  intOp_canon h

/-! ## VectorMisc: Histograms (R319, R320) -/

theorem execVhist_canon {c pm t q vg va} (h : Canon p s) : OutOk p (execVhist c pm t q vg va s) :=
  vector_canon h fun _ h1 => updArch_canon (foldl_ok h1 fun _ _ h2 => setV_canon h2) fun _ h3 => withSat_canon h3

theorem execVhmerge_canon {c m acc vd vg} (h : Canon p s) : OutOk p (execVhmerge c m acc vd vg s) :=
  bitOp_canon h

/-! ## VectorMisc: Sorting and masks (R321, R322) -/

theorem execVsortk_canon {c m t desc vd va vi} (h : Canon p s) : OutOk p (execVsortk c m t desc vd va vi s) :=
  vector_canon h fun _ h1 => putFront_canon (putFront_canon h1)

theorem execVmask_canon {c m t sign pd va} (h : Canon p s) : OutOk p (execVmask c m t sign pd va s) :=
  vector_canon h fun _ h1 => putPred_canon h1

/-! ## Walks -/

theorem answerWalk_canon {q leaf code} (h : Canon p s) : Canon p (answerWalk s q leaf code) := by
  unfold answerWalk
  exact wakeCommands_canon (foldl_ok (foldl_ok h fun _ _ h1 => modWalked_canon (by
    split
    · exact tlbPut_canon h1
    · exact h1)) fun _ _ h2 => modWalked_canon h2)

theorem advanceWalk_canon {cl q} (h : Canon p s) : Canon p (advanceWalk s cl q) := by
  unfold advanceWalk
  extract_lets +onlyGivenNames _
  split
  next he => exact answerWalk_canon (modCluster_canon (canon_of_eq (walkFor_canon h) he) fun _ h1 => h1)
  next he => exact answerWalk_canon (modCluster_canon (canon_of_eq (walkFor_canon h) he) fun _ h2 => h2)
  next he =>
    have k1 := canon_of_eq (walkFor_canon h) he
    exact ite_ok k1 (askLine_canon k1)

theorem execPageWalk_canon (h : Canon p s) : OutOk p (execPageWalk s) := by
  unfold execPageWalk
  extract_lets +onlyGivenNames _ _ _ _ _
  split
  · exact advanceWalk_canon h
  · exact ite_ok h (askWalk_canon h)

theorem invChunks_canon {i k} (h : Canon p s) : Canon p (invChunks i s k) := by
  unfold invChunks
  extract_lets n x mark s1
  have hx : HartOk p x := getHart_canon h
  have hmark (c : Chunk) (hc : ChunkOk p c) : ChunkOk p (mark c) := ite_ok (P := ChunkOk p) hc hc
  have hl : ∀ c ∈ (x.inflight.take n).map mark ++ x.inflight.drop n, ChunkOk p c :=
    List.forall_mem_append.2
      ⟨List.forall_mem_map.2 fun c hc => hmark c (hx.inflight c (List.mem_of_mem_take hc)),
        fun c hc => hx.inflight c (List.mem_of_mem_drop hc)⟩
  have hs1 : Canon p s1 := setHart_canon h { hx with inflight := hl }
  split
  · exact squashFrom_canon hs1
  · exact hs1

theorem invUnits_canon {i d} (h : Canon p s) : Canon p (invUnits s i d) := by
  unfold invUnits
  extract_lets _ s1
  have hs1 : Canon p s1 :=
    { h with
      cores := by with_reducible exact h.cores.map _
      clusters := by with_reducible exact h.clusters.map fun _ _ hc => ite_ok (P := ClusterOk p) hc hc }
  exact foldl_ok (P := Canon p) hs1 fun _ _ ht => modWalked_canon (modWalked_canon ht)

theorem invOnDie_canon {k i d} (h : Canon p s) : Canon p (invOnDie s k i d) :=
  foldl_ok (invUnits_canon h) fun _ _ h1 => invChunks_canon h1

theorem invSend_canon {k i} (h : Canon p s) : Canon p (invSend s k i) :=
  foldl_ok h fun _ _ h1 => offer_canon h1

theorem execTlbinvSequence_canon (h : Canon p s) : OutOk p (execTlbinvSequence s) := by
  unfold execTlbinvSequence
  extract_lets +onlyGivenNames _
  split
  · exact h
  · exact ite_ok (P := Canon p) (invSend_canon h) (ite_ok (invOnDie_canon h) h)

theorem execTlbinvComplete_canon (h : Canon p s) : OutOk p (execTlbinvComplete s) := by
  unfold execTlbinvComplete
  split
  · exact h
  · exact ite_ok h (wakeCommands_canon h)

end Sys2Proof.Machine
end

