-- ==== Sys2Proof/Proofs/CanonStep.lean ====
section
/-!
PROOFS. Canonical form: one step of the machine: the dispatch of an instruction keeps `Canon`, hence so does a step,
whatever it runs.
-/

namespace Sys2Proof.Machine

variable {p : Part} {s t : State}

/-! ## Dispatch -/

/-- Whatever instruction runs keeps canonical form: a case for each, in the order of the dispatch. -/
theorem exec_canon {i} (h : Canon p s) : OutOk p (exec i s) := by
  unfold exec
  split
  · exact execAdd_canon h
  · exact execSub_canon h
  · exact execMul_canon h
  · exact execMulh_canon h
  · exact execMulhu_canon h
  · exact execMadd_canon h
  · exact execDiv_canon h
  · exact execDivu_canon h
  · exact execRem_canon h
  · exact execRemu_canon h
  · exact execAnd_canon h
  · exact execOr_canon h
  · exact execXor_canon h
  · exact execAndn_canon h
  · exact execOrn_canon h
  · exact execSll_canon h
  · exact execSrl_canon h
  · exact execSra_canon h
  · exact execRol_canon h
  · exact execRor_canon h
  · exact execMin_canon h
  · exact execMax_canon h
  · exact execMinu_canon h
  · exact execMaxu_canon h
  · exact execClz_canon h
  · exact execCtz_canon h
  · exact execPopc_canon h
  · exact execBswap_canon h
  · exact execSext_canon h
  · exact execZext_canon h
  · exact execBfx_canon h
  · exact execBfi_canon h
  · exact execAddsh_canon h
  · exact execSel_canon h
  · exact execCmp_canon h
  · exact execPlog_canon h
  · exact execFadd_canon h
  · exact execFsub_canon h
  · exact execFmul_canon h
  · exact execFma_canon h
  · exact execFdiv_canon h
  · exact execFsqrt_canon h
  · exact execFmin_canon h
  · exact execFmax_canon h
  · exact execFcmp_canon h
  · exact execFcvt_canon h
  · exact execFclass_canon h
  · exact execAddi_canon h
  · exact execAndi_canon h
  · exact execOri_canon h
  · exact execXori_canon h
  · exact execSlli_canon h
  · exact execSrli_canon h
  · exact execSrai_canon h
  · exact execMuli_canon h
  · exact execCmpi_canon h
  · exact execLi_canon h
  · exact execLui_canon h
  · exact execLpc_canon h
  · exact execBr_canon h
  · exact execCall_canon h
  · exact execCallr_canon h
  · exact execJr_canon h
  · exact execRet_canon h
  · exact execLd_canon h
  · exact execSt_canon h
  · exact execLdx_canon h
  · exact execStx_canon h
  · exact execLda_canon h
  · exact execStrl_canon h
  · exact execLdp_canon h
  · exact execStp_canon h
  · exact execPrf_canon h
  · exact execAmo_canon h
  · exact execCas_canon h
  · exact execCasp_canon h
  · exact execFence_canon h
  · exact execSysfence_canon h
  · exact execCwb_canon h
  · exact execCinv_canon h
  · exact execCwbi_canon h
  · exact execCzero_canon h
  · exact execEpush_canon h
  · exact execEpop_canon h
  · exact execEpeek_canon h
  · exact execMst_canon h
  · exact execMamo_canon h
  · exact execMseq_canon h
  · exact execVld_canon h
  · exact execVst_canon h
  · exact execVlds_canon h
  · exact execVsts_canon h
  · exact execVldx_canon h
  · exact execVstx_canon h
  · exact execVldseg_canon h
  · exact execVstseg_canon h
  · exact execVldb_canon h
  · exact execVldf_canon h
  · exact execVadd_canon h
  · exact execVsub_canon h
  · exact execVmul_canon h
  · exact execVmulh_canon h
  · exact execVmadd_canon h
  · exact execVaddsat_canon h
  · exact execVsubsat_canon h
  · exact execVmin_canon h
  · exact execVmax_canon h
  · exact execVabs_canon h
  · exact execVand_canon h
  · exact execVor_canon h
  · exact execVxor_canon h
  · exact execVandn_canon h
  · exact execVshl_canon h
  · exact execVshr_canon h
  · exact execVsra_canon h
  · exact execVcmp_canon h
  · exact execVsel_canon h
  · exact execVpopc_canon h
  · exact execVfadd_canon h
  · exact execVfsub_canon h
  · exact execVfmul_canon h
  · exact execVfma_canon h
  · exact execVfdiv_canon h
  · exact execVfsqrt_canon h
  · exact execVfmin_canon h
  · exact execVfmax_canon h
  · exact execVfcmp_canon h
  · exact execVfabs_canon h
  · exact execVfneg_canon h
  · exact execVrcp_canon h
  · exact execVrsqrt_canon h
  · exact execVexp2_canon h
  · exact execVlog2_canon h
  · exact execVsin_canon h
  · exact execVcos_canon h
  · exact execVtanh_canon h
  · exact execVcvt_canon h
  · exact execVwiden_canon h
  · exact execVnarrow_canon h
  · exact execVpack_canon h
  · exact execVunpack_canon h
  · exact execVredadd_canon h
  · exact execVredmin_canon h
  · exact execVredmax_canon h
  · exact execVfredadd_canon h
  · exact execVfredmax_canon h
  · exact execVscan_canon h
  · exact execVperm_canon h
  · exact execVslide_canon h
  · exact execVrot_canon h
  · exact execVzip_canon h
  · exact execVunzip_canon h
  · exact execVcompress_canon h
  · exact execVexpand_canon h
  · exact execVbcast_canon h
  · exact execVins_canon h
  · exact execVext_canon h
  · exact execVdot4_canon h
  · exact execVhist_canon h
  · exact execVhmerge_canon h
  · exact execVsortk_canon h
  · exact execVmask_canon h
  · exact execTcfg_canon h
  · exact execTzero_canon h
  · exact execTld_canon h
  · exact execTst_canon h
  · exact execTldd_canon h
  · exact execTstd_canon h
  · exact execTqst_canon h
  · exact execTmma_canon h
  · exact execTmmat_canon h
  · exact execTadd_canon h
  · exact execTscale_canon h
  · exact execTcvt_canon h
  · exact execTtrans_canon h
  · exact execTmov_canon h
  · exact execTrow_canon h
  · exact execTrowi_canon h
  · exact execTred_canon h
  · exact execTrel_canon h
  · exact execTinfo_canon h
  · exact execTsave_canon h
  · exact execTrest_canon h
  · exact execQcclr_canon h
  · exact execQcrd_canon h
  · exact execQcwr_canon h
  · exact execSpawn_canon h
  · exact execSpawng_canon h
  · exact execExit_canon h
  · exact execTask_canon h
  · exact execTaskw_canon h
  · exact execWaitc_canon h
  · exact execBara_canon h
  · exact execBarw_canon h
  · exact execBarinit_canon h
  · exact execYield_canon h
  · exact execUiret_canon h
  · exact execUien_canon h
  · exact execCsrr_canon h
  · exact execCsrw_canon h
  · exact execCsrs_canon h
  · exact execCsrc_canon h
  · exact execEcall_canon h
  · exact execEbreak_canon h
  · exact execSret_canon h
  · exact execMret_canon h
  · exact execWfi_canon h
  · exact execTlbinv_canon h
  · exact execTlbinvAs_canon h
  · exact execTlbinvall_canon h
  · exact execSlotcfg_canon h
  · exact execVsavectx_canon h
  · exact execVrestctx_canon h
  · exact execChunkbrk_canon h
  · exact execHalt_canon h
  · exact execCopy_canon h
  · exact execCopy2d_canon h
  · exact execGather_canon h
  · exact execScatter_canon h
  · exact execFill_canon h
  · exact execRowcopy_canon h
  · exact execRowinit_canon h
  · exact execMcopy_canon h
  · exact execShload_canon h
  · exact execSave_canon h
  · exact execRestore_canon h
  · exact execRowBlockStep_canon h
  · exact execChunkPresent_canon h
  · exact execCorniceRecheck_canon h
  · exact execChunkCommit_canon h
  · exact execSharedTransferApply_canon h
  · exact execTrapDelivery_canon h
  · exact execInterruptDelivery_canon h
  · exact execUserInterrupt_canon h
  · exact execMachineCheck_canon h
  · exact execTimecmpMatch_canon h
  · exact execSwintWrite_canon h
  · exact execWatchdog_canon h
  · exact execWdwinBind_canon h
  · exact execWdwinUnbind_canon h
  · exact execUstatImageWrite_canon h
  · exact execDecodeSelect_canon h
  · exact execPark_canon h
  · exact execBringIn_canon h
  · exact execPreempt_canon h
  · exact execWaitEnd_canon h
  · exact execGangMemberPlace_canon h
  · exact execReadyPoolPlace_canon h
  · exact execTileRename_canon h
  · exact execEngineDispatch_canon h
  · exact execEngineOpStart_canon h
  · exact execEngineOpComplete_canon h
  · exact execSfuDequeue_canon h
  · exact execSfuResult_canon h
  · exact execPageWalk_canon h
  · exact execTlbinvSequence_canon h
  · exact execTlbinvComplete_canon h
  · exact execGets_canon h
  · exact execGetm_canon h
  · exact execUpg_canon h
  · exact execInv_canon h
  · exact execFwds_canon h
  · exact execFwdm_canon h
  · exact execBackinv_canon h
  · exact execData_canon h
  · exact execDatae_canon h
  · exact execAck_canon h
  · exact execFwdmiss_canon h
  · exact execEvictm_canon h
  · exact execRds_canon h
  · exact execRdm_canon h
  · exact execFwdack_canon h
  · exact execInvack_canon h
  · exact execComplete_canon h
  · exact execWbdata_canon h
  · exact execWback_canon h
  · exact execPrds_canon h
  · exact execPrdm_canon h
  · exact execPwrupd_canon h
  · exact execPwrack_canon h
  · exact execPfwds_canon h
  · exact execPfwdm_canon h
  · exact execPinv_canon h
  · exact execPbackinv_canon h
  · exact execPdata_canon h
  · exact execPdatae_canon h
  · exact execPack_canon h
  · exact execPfwdmiss_canon h
  · exact execPwb_canon h
  · exact execPwback_canon h
  · exact execPhold_canon h
  · exact execHoldResponseTimer_canon h
  · exact execFprobe_canon h
  · exact execFecho_canon h
  · exact execProbeTimeout_canon h
  · exact execRequestTimeout_canon h
  · exact execMreq_canon h
  · exact execMapply_canon h
  · exact execMack_canon h
  · exact execMdone_canon h
  · exact execMstate_canon h
  · exact execMstateack_canon h
  · exact execMresume_canon h
  · exact execGroupActivate_canon h
  · exact execGroupReform_canon h
  · exact execGroupDeactivate_canon h
  · exact execHeartbeat_canon h
  · exact execHbreq_canon h
  · exact execHbans_canon h
  · exact execLostdecl_canon h
  · exact execLostself_canon h
  · exact execDeviceLostTimeout_canon h
  · exact execLinkTrain_canon h
  · exact execFabricJoin_canon h
  · exact execFlitCrcFail_canon h
  · exact execHeartbeatTimeout_canon h
  · exact execLinkRetrainTimeout_canon h
  · exact execAttest_canon h
  · exact execPortIdlePark_canon h
  · exact execParkreq_canon h
  · exact execParkack_canon h
  · exact execWakereq_canon h
  · exact execWakeack_canon h
  · exact execPortWake_canon h
  · exact execWavelengthRejoin_canon h
  · exact execForcedPark_canon h
  · exact execForcedParkRelease_canon h
  · exact execHbmRequest_canon h
  · exact execRowIdleClose_canon h
  · exact execBankRefresh_canon h
  · exact execScrubRead_canon h
  · exact execScrubWrite_canon h
  · exact execCriticalTempAssert_canon h
  · exact execSelfRefreshEnter_canon h
  · exact execCriticalTempDeassert_canon h
  · exact execSelfRefreshExit_canon h
  · exact execMarginMeasure_canon h
  · exact execChstatTrainreq_canon h
  · exact execRetrainingHold_canon h
  · exact execTrainingEnd_canon h
  · exact execHardwareError_canon h
  · exact execHartRelocate_canon h
  · exact execFatalError_canon h
  · exact execPowerTick_canon h
  · exact execDieCriticalTemp_canon h
  · exact execHbmThrottle_canon h
  · exact execCoolantInletAlert_canon h
  · exact execPerst_canon h
  · exact execMgmtReset_canon h
  · exact execBootRom_canon h
  · exact execProvisioningRequest_canon h
  · exact execSpdmKeyExchange_canon h
  · exact execSpdmMeasurements_canon h
  · exact execKeySlotLoad_canon h
  · exact execVirtioFeaturesOk_canon h
  · exact execVirtioNetRequest_canon h
  · exact execVirtioBlkRequest_canon h
  · exact execVirtioConsoleRequest_canon h
  · exact execVsockConnect_canon h
  · exact execFunctionLevelReset_canon h
  · exact execPldmSensorRequest_canon h
  · exact execRegisterWrite_canon h
  · exact execSurvivorUnreachable_canon h
  · exact execMessageRelay_canon h
  · exact execUnknownMessageCode_canon h
  · exact execPairAcknowledgement_canon h
  · exact execHbmThrottleEnd_canon h

/-! ## Step -/

/-- Whatever a step runs, and whatever it answers, it keeps canonical form. -/
theorem step_canon (h : Canon p s) : OutOk p (step s) := by
  unfold step
  split
  next he => exact exec_canon (moveOk_of_eq (choose_canon h) he)
  next he => exact moveOk_of_eq (choose_canon h) he
  · trivial

/-- The state that a step leaves is canonical where the state before it was. -/
theorem step_keeps_canon (h : Canon p s) (ht : step s = .next t) : Canon p t := outOk_of_eq (step_canon h) ht

/-- Settles O54: canonical form of the memory part, which every operation of the machine keeps. -/
theorem everyStepKeepsMemoryCanonical : Obligations.EveryStepKeepsMemoryCanonical := by
  intro s t hs ht
  exact (canon_memory t).1 (step_keeps_canon ((canon_memory s).2 hs) ht)

/-- Settles O55: canonical form of the tables, which every operation of the machine keeps. -/
theorem everyStepKeepsTablesCanonical : Obligations.EveryStepKeepsTablesCanonical := by
  intro s t hs ht
  exact (canon_tables t).1 (step_keeps_canon ((canon_tables s).2 hs) ht)

end Sys2Proof.Machine
end

