-- ==== Sys2Proof/Proofs/AccessChecks.lean ====
section
/-!
PROOFS. The checks of an access (R17, R23, R31, R35, R422): what a leaf grants to an access that passes them, and how an access
in M mode ends.
-/

namespace Sys2Proof.Machine

open Sys2Proof.Safety

/-! ## Checks in order -/

/-- An access that ends in a value has passed a check. -/
theorem need_eq_val {α : Type} {c : Bool} {t : Trap} {k : Res α} {x : α} : need c t k = .val x ↔ c = true ∧ k = .val x := by
  cases c <;> simp

/-! ## What a leaf grants (R32, R35) -/

/-- What a leaf grants to an access that ends at a physical address. -/
structure Grants (w : Who) (r : AccReq) (va : Nat) (e : TlbEnt) (pa : Nat) : Prop where
  frame : pa = if pteBit e.pte 8 then 0 else ptePpn e.pte + va % 2 ^ e.bits
  reads : kReads r.kind = true → pteBit e.pte 1 = true
  writes : kWrites r.kind = true → pteBit e.pte 2 = true
  fetches : r.kind = .fetch → pteBit e.pte 3 = true
  engine : pteBit e.pte 8 = true ↔ r.kind = .engRead ∨ r.kind = .engWrite
  user : w.mode = .u → pteBit e.pte 4 = true ∧ isControl (offOf pa) = false
  system : r.kind = .fetch → w.mode = .s → pteBit e.pte 4 = false

theorem kEng_iff (k : AccKind) : kEng k = true ↔ k = .engRead ∨ k = .engWrite := by cases k <;> decide

/-- The permission bits of a kind of access. -/
theorem permOk_iff (k : AccKind) (pte : Nat) : permOk k pte = true ↔
    (kReads k = true → pteBit pte 1 = true) ∧ (kWrites k = true → pteBit pte 2 = true) ∧
      (k = .fetch → pteBit pte 3 = true) := by
  cases k <;> simp [permOk, kReads, kWrites]

/-- An access that passes the checks on a leaf has what the leaf grants. -/
theorem checkLeaf_grants {s : State} {w : Who} {r : AccReq} {a : Word} {va : Nat} {e : TlbEnt} {x : Acc}
    (h : checkLeaf s w r a va e = .val x) : Grants w r va e x.pa := by
  simp only [checkLeaf, need_eq_val, Bool.and_eq_true] at h
  obtain ⟨heng, hmode, ⟨⟨hperm, -⟩, -⟩, -, -, hx⟩ := h
  obtain ⟨hr, hw, hf⟩ := (permOk_iff _ _).1 hperm
  obtain rfl := Res.val.inj hx
  refine ⟨rfl, hr, hw, hf, (beq_iff_eq.1 heng).symm ▸ kEng_iff _, fun hu => ?_, fun hk hs => ?_⟩
  · simp only [hu, Bool.and_eq_true, Bool.not_eq_true', Bool.and_eq_false_iff, Bool.not_eq_false'] at hmode
    obtain ⟨bit, hc⟩ := hmode
    refine ⟨bit, ?_⟩
    cases he : pteBit e.pte 8
    · simpa [he] using hc
    · simp [offOf, isControl]
  · simpa [hs, hk] using hmode

/-! ## Where a leaf comes from (R31, R37, R39) -/

/-- An access under a leaf ends in a value where its checks do, and one that needs D finds it set. -/
theorem useLeaf_val {s t : State} {w : Who} {cmd : Bool} {r : AccReq} {a : Word} {va : Nat} {e : TlbEnt} {x : Acc}
    (h : useLeaf s w cmd r a va e = (t, .val x)) :
    checkLeaf s w r a va e = .val x ∧ (needsD r = true → pteBit e.pte 7 = true) := by
  unfold useLeaf at h
  split at h
  next y hy =>
    split at h
    · simp [walkMore] at h
    next hd =>
      obtain ⟨-, rfl⟩ := by simpa using h
      exact ⟨hy, fun hn => by simpa [hn] using hd⟩
  next hne => exact absurd (by simpa using (congrArg Prod.snd h)) (hne x)

/-- The checks look at nothing that a TLB holds. -/
theorem checkLeaf_tlb1Put (s : State) (core : Nat) (e : TlbEnt) : checkLeaf (tlb1Put s core e) = checkLeaf s := rfl

theorem tlb2Find_hits {c : Core} {asid va : Nat} {e : TlbEnt} (h : tlb2Find c asid va = some e) : e.hits asid va = true := by
  obtain ⟨k, -, hk⟩ := List.exists_of_findSome?_eq_some h
  have found := List.find?_some (p := fun e : TlbEnt => e.bits == sizeBits k && e.hits asid va) hk
  exact (Bool.and_eq_true_iff.1 found).2

/-- What the TLBs of a core answer: an entry that translates the address, and the checks in the state that the lookup leaves are
those of the state before. -/
theorem tlbFind_some {s t : State} {core asid va : Nat} {e : TlbEnt} (h : tlbFind s core asid va = (t, some e)) :
    e.hits asid va = true ∧ checkLeaf t = checkLeaf s := by
  simp only [tlbFind] at h
  split at h
  next y hy =>
    obtain ⟨rfl, rfl⟩ := by simpa using h
    exact ⟨List.find?_some (p := fun e : TlbEnt => e.hits asid va) hy, rfl⟩
  next =>
    split at h
    next y hy =>
      obtain ⟨rfl, rfl⟩ := by simpa using h
      exact ⟨tlb2Find_hits hy, checkLeaf_tlb1Put s core _⟩
    next => simp at h

/-- The leaf of an access: the answer of a walk, or what the TLBs of the hart's core hold for the address. -/
def leafFrom (s : State) (w : Who) (cmd : Bool) (va : Nat) (e : TlbEnt) : Prop :=
  (∃ y, walkAnswer s w cmd va = some y ∧ y.leaf = some e) ∨
    (walkAnswer s w cmd va = none ∧ cmd = false ∧ (tlbFind s (coreOf w.hart) w.asid va).2 = some e ∧ e.hits w.asid va = true)

/-- A lookup that ends in a value has gone through a leaf. -/
theorem lookup_val {s t : State} {w : Who} {cmd : Bool} {r : AccReq} {a : Word} {va : Nat} {x : Acc}
    (h : lookup s w cmd r a va = (t, .val x)) :
    ∃ e, leafFrom s w cmd va e ∧ checkLeaf s w r a va e = .val x ∧ (needsD r = true → pteBit e.pte 7 = true) := by
  unfold lookup at h
  split at h
  next e _ hy => exact ⟨e, .inl ⟨_, hy, rfl⟩, useLeaf_val h⟩
  next => simp at h
  next hn =>
    cases cmd
    case true => simp [walkMore] at h
    case false =>
      simp only [Bool.false_eq_true, if_false] at h
      split at h
      next u e hf =>
        obtain ⟨hits, same⟩ := tlbFind_some hf
        obtain ⟨hc, hd⟩ := useLeaf_val h
        exact ⟨e, .inr ⟨hn, rfl, by rw [hf], hits⟩, same ▸ hc, hd⟩
      next => simp [walkMore] at h

/-- The address that a lookup is made for. -/
def vaOf (w : Who) (a : Word) : Nat := if inAperture a.toNat then aliasOf w.hart a.toNat else a.toNat

/-- The checks of an address below M mode, in their order (R35). -/
theorem translate_below {s : State} {w : Who} (r : AccReq) (a : Word) (hw : w.mode ≠ .m) : translate s w r a =
    if 2 ^ 57 ≤ a.toNat then (s, perm a)
    else if r.misaligned || inAperture a.toNat != inAperture (a.toNat + r.n - 1) then (s, .trap { code := cMisalign, tval := a })
    else if w.mode = .u ∧ !inAperture a.toNat ∧ 2 ^ 56 ≤ vaOf w a then (s, perm a)
    else lookup s w (r.kind == .copyRead || r.kind == .copyWrite) r a (vaOf w a) := if_neg hw

/-- An access below M mode that ends in a value has passed the checks of its address and a lookup. -/
theorem translate_val {s t : State} {w : Who} {r : AccReq} {a : Word} {x : Acc} (hw : w.mode ≠ .m)
    (h : translate s w r a = (t, .val x)) :
    a.toNat < 2 ^ 57 ∧ r.misaligned = false ∧
      lookup s w (r.kind == .copyRead || r.kind == .copyWrite) r a (vaOf w a) = (t, .val x) := by
  rw [translate_below r a hw] at h
  split at h
  · simp [perm] at h
  next wide =>
    split at h
    · simp at h
    next aligned =>
      split at h
      · simp [perm] at h
      · refine ⟨not_le.1 wide, ?_, h⟩
        simp only [Bool.or_eq_true, not_or, Bool.not_eq_true] at aligned
        exact aligned.1

/-- A kind that writes memory needs D, unless it makes no access (R31). -/
theorem needsD_of_writes {r : AccReq} (hk : r.kind ∈ [AccKind.store, .atomic, .vstore, .tstore, .copyWrite])
    (hc : r.ctl ≠ .noAccess) : needsD r = true := by
  have kinds : kWrites r.kind = true ∧ kEng r.kind = false := by
    simp only [List.mem_cons, List.not_mem_nil, or_false] at hk
    rcases hk with h | h | h | h | h <;> simp [h, kWrites, kEng]
  simp [needsD, kinds, hc]

/-! ## Accesses in M mode (R17, R23, R422) -/

section
variable {s : State} {w : Who} {r : AccReq} {a : Word} (hw : w.mode = .m)
include hw

theorem translate_m_high (h : 2 ^ 56 ≤ a.toNat) : translate s w r a = (s, .trap ⟨0x07, a, 0⟩) := by
  rw [translate, if_pos hw, translateM, decide_eq_false (not_lt.2 h)]; rfl

/-- The checks that follow the one of the address's width. -/
theorem translate_m_low (h : a.toNat < 2 ^ 56) : translate s w r a =
    (s, need (!r.misaligned) ⟨cMisalign, a, 0⟩ <|
      need (!isNone (offOf a.toNat) && !ctlRefused s r a.toNat && !stageRefused s a.toNat && !kEng r.kind) ⟨cPerm, a, 0⟩ <|
        .val ⟨a.toNat, 0, none, none⟩) := by
  rw [translate, if_pos hw, translateM, decide_eq_true h]; rfl

theorem translate_m_misaligned (h : a.toNat < 2 ^ 56) (hm : r.misaligned = true) :
    translate s w r a = (s, .trap ⟨0x05, a, 0⟩) := by
  rw [translate_m_low hw h, hm]; rfl

/-- An aligned access whose region or use of the control region is refused. -/
theorem translate_m_refused (h : a.toNat < 2 ^ 56) (hm : r.misaligned = false)
    (hr : isNone (offOf a.toNat) = true ∨ ctlRefused s r a.toNat = true) : translate s w r a = (s, .trap ⟨0x07, a, 0⟩) := by
  rcases hr with hr | hr <;> simp [translate_m_low hw h, hm, hr, cPerm]

/-- An aligned access to the data region uses the address as it is. -/
theorem translate_m_data (h : a.toNat < 2 ^ 56) (hm : r.misaligned = false) (hd : offOf a.toNat < 0x07800000000)
    (hs : s.stage ≠ 1) (hk : kEng r.kind = false) : translate s w r a = (s, .val ⟨a.toNat, 0, none, none⟩) := by
  have data : isData (offOf a.toNat) = true := by simpa [isData] using hd
  have outside : isControl (offOf a.toNat) = false := by simp only [isControl, decide_eq_false_iff_not]; omega
  have stage : (s.stage == 1) = false := beq_eq_false_iff_ne.2 hs
  simp [translate_m_low hw h, hm, isNone, ctlRefused, stageRefused, data, outside, stage, hk]

end

/-- Settles O14: the leaf of an access below M mode, and the checks of an access in M mode. -/
theorem accessesAreChecked : Obligations.AccessesAreChecked := by
  unfold Obligations.AccessesAreChecked
  refine ⟨fun s t w r a x hw h => ?_, fun s w r a hw => ⟨?_, ?_, ?_, ?_, ?_⟩⟩
  · obtain ⟨bound, aligned, hl⟩ := translate_val hw h
    obtain ⟨e, from_, check, dirty⟩ := lookup_val hl
    have g := checkLeaf_grants check
    exact ⟨bound, aligned, e, from_, check, g.frame, g.reads, g.writes, g.fetches, g.engine, g.user, g.system,
      fun hk hc => dirty (needsD_of_writes hk hc)⟩
  · exact translate_m_high hw
  · exact translate_m_misaligned hw
  · intro h hm lo hi
    refine translate_m_refused hw h hm (.inl ?_)
    have data : isData (offOf a.toNat) = false := decide_eq_false (not_lt.2 lo)
    have control : isControl (offOf a.toNat) = false := decide_eq_false (not_le.2 hi)
    simp [isNone, data, control]
  · intro h hm lo hc
    have control : isControl (offOf a.toNat) = true := decide_eq_true lo
    refine translate_m_refused hw h hm (.inr ?_)
    rcases hc with hc | ⟨hc, hd⟩
    · simp [ctlRefused, control, hc]
    · simpa [ctlRefused, control, hc, devOf] using hd
  · intro h hm lo hs hr he
    exact translate_m_data hw h hm lo hs (Bool.eq_false_iff.2 (mt (kEng_iff _).1 (not_or.2 ⟨hr, he⟩)))

end Sys2Proof.Machine
end

