-- ==== Sys2Proof/Proofs/UnitTables.lean ====
section
/-!
PROOFS. The harts and the units in their tables: what a hart, a core or a cluster is after one of them has been changed.
-/

namespace Sys2Proof.Machine

/-! ## One rule for every table of units -/

theorem tabGet_mod {α : Type} [DecidableEq α] (d : α) {t : Tab α} (h : tabWf d t = true) (i j : Nat) (f : α → α) :
    tabGet d (tabMod d t i f) j = if j = i then f (tabGet d t i) else tabGet d t j := by
  split
  next e => subst e; exact tabGet_put_same d t _ _ h
  next e => exact tabGet_put_other d t e _ h

section
variable {s : State}

theorem getCore_modCore (h : tabWf Core.reset s.cores = true) (i j : Nat) (f : Core → Core) :
    getCore (modCore s i f) j = if j = i then f (getCore s i) else getCore s j := tabGet_mod _ h i j f

theorem getCluster_modCluster (h : tabWf Cluster.reset s.clusters = true) (i j : Nat) (f : Cluster → Cluster) :
    getCluster (modCluster s i f) j = if j = i then f (getCluster s i) else getCluster s j := tabGet_mod _ h i j f

theorem modCore_wf (h : tabWf Core.reset s.cores = true) (i : Nat) (f : Core → Core) :
    tabWf Core.reset (modCore s i f).cores = true := tabPut_wf _ _ _ _ h

theorem modCluster_wf (h : tabWf Cluster.reset s.clusters = true) (i : Nat) (f : Cluster → Cluster) :
    tabWf Cluster.reset (modCluster s i f).clusters = true := tabPut_wf _ _ _ _ h

/-- A property of cores that a change of any core keeps holds of every core after a change of one. -/
theorem getCore_modCore_keeps {P : Core → Core → Prop} (h : tabWf Core.reset s.cores = true) (i : Nat) {f : Core → Core}
    (hr : ∀ x, P x x) (hf : ∀ x, P x (f x)) (j : Nat) : P (getCore s j) (getCore (modCore s i f) j) := by
  rw [getCore_modCore h]
  split
  next e => exact e ▸ hf _
  next => exact hr _

/-- The same of clusters. -/
theorem getCluster_modCluster_keeps {P : Cluster → Cluster → Prop} (h : tabWf Cluster.reset s.clusters = true) (i : Nat)
    {f : Cluster → Cluster} (hr : ∀ x, P x x) (hf : ∀ x, P x (f x)) (j : Nat) :
    P (getCluster s j) (getCluster (modCluster s i f) j) := by
  rw [getCluster_modCluster h]
  split
  next e => exact e ▸ hf _
  next => exact hr _

/-! ## Harts -/

/-- A change of a slot, or of the moving hart, leaves everything else. -/
theorem setHart_eq (s : State) (i : Nat) (x : Hart) :
    setHart s i x = { s with cur := (setHart s i x).cur, harts := (setHart s i x).harts } := by unfold setHart; split <;> rfl

@[simp] theorem setHart_mem (i : Nat) (x : Hart) : (setHart s i x).mem = s.mem := by rw [setHart_eq]
@[simp] theorem setHart_hbm (i : Nat) (x : Hart) : (setHart s i x).hbm = s.hbm := by rw [setHart_eq]
@[simp] theorem setHart_invs (i : Nat) (x : Hart) : (setHart s i x).invs = s.invs := by rw [setHart_eq]
@[simp] theorem setHart_cores (i : Nat) (x : Hart) : (setHart s i x).cores = s.cores := by rw [setHart_eq]
@[simp] theorem setHart_clusters (i : Nat) (x : Hart) : (setHart s i x).clusters = s.clusters := by rw [setHart_eq]

theorem setHart_wf (h : tabWf Hart.reset s.harts = true) (i : Nat) (x : Hart) :
    tabWf Hart.reset (setHart s i x).harts = true := by
  unfold setHart
  split
  · exact h
  · exact tabPut_wf _ _ _ _ h

theorem getHart_setHart (h : tabWf Hart.reset s.harts = true) (i j : Nat) (x : Hart) :
    getHart (setHart s i x) j = if j = i then x else getHart s j := by
  unfold setHart
  split
  next e => subst e; simp only [getHart]; split <;> rfl
  next e =>
    simp only [getHart]
    split
    next e2 => simp [e2, Ne.symm e]
    next =>
      split
      next e3 => subst e3; exact tabGet_put_same _ _ _ _ h
      next e3 => exact tabGet_put_other _ _ e3 _ h

theorem modHart_wf (h : tabWf Hart.reset s.harts = true) (i : Nat) (f : Hart → Hart) :
    tabWf Hart.reset (modHart s i f).harts = true := setHart_wf h i _

theorem getHart_modHart (h : tabWf Hart.reset s.harts = true) (i j : Nat) (f : Hart → Hart) :
    getHart (modHart s i f) j = if j = i then f (getHart s i) else getHart s j := getHart_setHart h i j _

/-- A property of harts that a change of any hart keeps holds of every hart after a change of one. -/
theorem getHart_modHart_keeps {P : Hart → Hart → Prop} (h : tabWf Hart.reset s.harts = true) (i : Nat) {f : Hart → Hart}
    (hr : ∀ x, P x x) (hf : ∀ x, P x (f x)) (j : Nat) : P (getHart s j) (getHart (modHart s i f) j) := by
  rw [getHart_modHart h]
  split
  next e => exact e ▸ hf _
  next => exact hr _

end

/-! ## Steps one after the other -/

/-- A relation that each step of a fold has, and that is reflexive and transitive, holds from the first state to the last. -/
theorem foldl_rel {σ β : Type} {R : σ → σ → Prop} (refl : ∀ s, R s s) (trans : ∀ {a b c}, R a b → R b c → R a c)
    {f : σ → β → σ} (hf : ∀ s x, R s (f s x)) : ∀ (l : List β) (s : σ), R s (l.foldl f s)
  | [], s => refl s
  | x :: l, s => trans (hf s x) (foldl_rel refl trans hf l (f s x))

end Sys2Proof.Machine
end

