-- ==== Sys2Proof/Proofs/SquashFrame.lean ====
section
/-!
PROOFS. What a squash, and the loss of a line's copies, leaves as it was: memory, the invalidations, the TLBs and the walk
caches (R37, R97, R98, R126).
-/

namespace Sys2Proof.Machine

/-- Memory, the stacks and the invalidations are the same, and so are the TLBs of each core and the walk cache of each
cluster. -/
structure Spares (s t : State) : Prop where
  mem : t.mem = s.mem
  hbm : t.hbm = s.hbm
  invs : t.invs = s.invs
  coresWf : tabWf Core.reset s.cores = true → tabWf Core.reset t.cores = true
  clustersWf : tabWf Cluster.reset s.clusters = true → tabWf Cluster.reset t.clusters = true
  tlb1 : tabWf Core.reset s.cores = true → ∀ c, (getCore t c).tlb1 = (getCore s c).tlb1
  tlb2 : tabWf Core.reset s.cores = true → ∀ c, (getCore t c).tlb2 = (getCore s c).tlb2
  walkCache : tabWf Cluster.reset s.clusters = true → ∀ c, (getCluster t c).walkCache = (getCluster s c).walkCache

theorem dropOp_walkCache (c : Cluster) (op : EngOp) : (dropOp c op).walkCache = c.walkCache := by
  simp only [dropOp]
  split
  · rfl
  · split <;> rfl

theorem foldl_dropOp_walkCache (l : List EngOp) (c : Cluster) : (l.foldl dropOp c).walkCache = c.walkCache :=
  foldl_rel (R := fun x y : Cluster => y.walkCache = x.walkCache) (fun _ => rfl) (fun h g => g.trans h) dropOp_walkCache l c

namespace Spares

variable {s t u : State}

theorem refl (s : State) : Spares s s := ⟨rfl, rfl, rfl, id, id, fun _ _ => rfl, fun _ _ => rfl, fun _ _ => rfl⟩

theorem trans (h : Spares s t) (g : Spares t u) : Spares s u where
  mem := g.mem.trans h.mem
  hbm := g.hbm.trans h.hbm
  invs := g.invs.trans h.invs
  coresWf w := g.coresWf (h.coresWf w)
  clustersWf w := g.clustersWf (h.clustersWf w)
  tlb1 w c := (g.tlb1 (h.coresWf w) c).trans (h.tlb1 w c)
  tlb2 w c := (g.tlb2 (h.coresWf w) c).trans (h.tlb2 w c)
  walkCache w c := (g.walkCache (h.clustersWf w) c).trans (h.walkCache w c)

/-- A change of fields that the relation does not speak of. -/
theorem of_eq (hm : t.mem = s.mem) (hb : t.hbm = s.hbm) (hi : t.invs = s.invs) (hc : t.cores = s.cores)
    (hl : t.clusters = s.clusters) : Spares s t where
  mem := hm
  hbm := hb
  invs := hi
  coresWf w := hc ▸ w
  clustersWf w := hl ▸ w
  tlb1 _ c := by rw [getCore, getCore, hc]
  tlb2 _ c := by rw [getCore, getCore, hc]
  walkCache _ c := by rw [getCluster, getCluster, hl]

theorem foldl {β : Type} {f : State → β → State} (hf : ∀ s x, Spares s (f s x)) (l : List β) (s : State) :
    Spares s (l.foldl f s) := foldl_rel refl trans hf l s

end Spares

namespace Spares

variable {s t : State} (h : Spares s t)
include h

theorem ite {u : State} {c : Prop} [Decidable c] (g : Spares s u) : Spares s (if c then t else u) := by split <;> assumption

theorem setHart (i : Nat) (x : Hart) : Spares s (setHart t i x) :=
  h.trans (.of_eq (by simp) (by simp) (by simp) (by simp) (by simp))

theorem modHart (i : Nat) (f : Hart → Hart) : Spares s (modHart t i f) := h.setHart i _

theorem modDie (i : Nat) (f : Die → Die) : Spares s (modDie t i f) := h.trans (.of_eq rfl rfl rfl rfl rfl)

theorem modCoh (l : Nat) (f : LineCoh → LineCoh) : Spares s (modCoh t l f) := h.trans (.of_eq rfl rfl rfl rfl rfl)

theorem presented (l : List Pres) : Spares s { t with presented := l } := h.trans (.of_eq rfl rfl rfl rfl rfl)

theorem modCore (i : Nat) {f : Core → Core} (h1 : ∀ x, (f x).tlb1 = x.tlb1) (h2 : ∀ x, (f x).tlb2 = x.tlb2) :
    Spares s (modCore t i f) := h.trans {
  mem := rfl
  hbm := rfl
  invs := rfl
  coresWf := fun w => modCore_wf w i f
  clustersWf := id
  tlb1 := fun w => getCore_modCore_keeps (P := fun x y => y.tlb1 = x.tlb1) w i (fun _ => rfl) h1
  tlb2 := fun w => getCore_modCore_keeps (P := fun x y => y.tlb2 = x.tlb2) w i (fun _ => rfl) h2
  walkCache := fun _ _ => rfl }

theorem modCluster (i : Nat) {f : Cluster → Cluster} (hf : ∀ x, (f x).walkCache = x.walkCache) :
    Spares s (modCluster t i f) := h.trans {
  mem := rfl
  hbm := rfl
  invs := rfl
  coresWf := id
  clustersWf := fun w => modCluster_wf w i f
  tlb1 := fun _ _ => rfl
  tlb2 := fun _ _ => rfl
  walkCache := fun w => getCluster_modCluster_keeps (P := fun x y => y.walkCache = x.walkCache) w i (fun _ => rfl) hf }

/-! ## The loss of a line's copies -/

theorem setL1d (core l : Nat) (f : List Way → List Way) : Spares s (setL1d t core l f) :=
  h.modCore core (fun _ => rfl) fun _ => rfl
theorem setL1i (core l : Nat) (f : List Way → List Way) : Spares s (setL1i t core l f) :=
  h.modCore core (fun _ => rfl) fun _ => rfl
theorem setL2 (cl l : Nat) (f : List Way → List Way) : Spares s (setL2 t cl l f) := h.modCluster cl fun _ => rfl
theorem setLlc (d l : Nat) (f : List Way → List Way) : Spares s (setLlc t d l f) := h.modDie d _

theorem dropL1d (l core : Nat) : Spares s (dropL1d t l core) := (h.setL1d core l _).modCoh l _
theorem dropL1i (l core : Nat) : Spares s (dropL1i t l core) := (h.setL1i core l _).modCoh l _

theorem dropL1s (l cl : Nat) : Spares s (dropL1s t l cl) :=
  h.trans (.foldl (fun u core => ((refl u).dropL1d l core).dropL1i l core) _ t)

theorem agentLoses (l k : Nat) : Spares s (agentLoses t l k) := by
  unfold Machine.agentLoses
  exact ite (((h.dropL1s l _).setL2 _ l _).modCoh l _) ((h.setLlc _ l _).modCoh l _)

theorem toM (cl l : Nat) : Spares s (toM t cl l) := by
  unfold Machine.toM
  exact (ite h (h.agentLoses l _)).modCoh l _

/-! ## Squashes -/

theorem withdraw (i : Nat) (gone : List EngOp) : Spares s (withdraw t i gone) :=
  h.modCluster _ fun _ => foldl_dropOp_walkCache gone _

theorem dropSpec (core : Nat) (ls : List Nat) : Spares s (dropSpec t core ls) :=
  h.trans (.foldl (fun u l => ite (refl u) ((refl u).dropL1d l core)) ls t)

theorem rewind (i j : Nat) (save : Arch) (chunk : Chunk) : Spares s (rewind t i j save chunk) := by
  unfold Machine.rewind
  exact ((ite ((h.setHart i _).presented _) (h.setHart i _)).withdraw i _).dropSpec _ _

theorem squashFrom (i j : Nat) (counts : Bool) : Spares s (squashFrom t i j counts) := by
  simp only [Machine.squashFrom]
  split
  · exact h
  · exact (ite (h.rewind i j _ _) ((h.rewind i j _ _).modHart i _)).modHart i _

theorem squashIn (scope : Nat → Bool) (f : Nat → Chunk → Bool) : Spares s (squashIn t scope f) := by
  refine h.trans (.foldl (fun u i => ?_) _ t)
  split
  · split
    · exact (refl u).squashFrom i _ true
    · exact refl u
  · exact refl u

theorem snoop (but : Option Nat) (own : Bool) (l : Nat) : Spares s (snoop t but own l) := h.squashIn _ _

end Spares

end Sys2Proof.Machine
end

