-- ==== Sys2Proof/Proofs/PageWalks.lean ====
section
/-!
PROOFS. Page walks (R27, R31, R32, R37 to R39): one level of a walk, what a walk writes, and who waits for one.
-/

namespace Sys2Proof.Machine

/-! ## One level of a walk (R27, R32, R37, R38) -/

/-- Where the entry of an address stands in a table of a level. -/
def entryAddr (va lvl table : Nat) : Nat := table + 8 * (va / 2 ^ (12 + 9 * lvl) % 512)

theorem entryAddr_eq (va lvl table : Nat) : table + 8 * (va / 2 ^ (12 + 9 * lvl) % 512) = entryAddr va lvl table := rfl

/-- The walk cache of a cluster has no entry of a place. -/
def uncached (s : State) (cl addr : Nat) : Prop := ∀ x ∈ (getCluster s cl).walkCache, x.pa ≠ addr

theorem uncached_iff {s : State} {cl addr : Nat} :
    uncached s cl addr ↔ (getCluster s cl).walkCache.find? (fun x => x.pa == addr) = none := by
  simp [uncached]

section
variable {s : State} {cl va lvl table : Nat}

theorem walkFrom_refused (h : stageRefused s (entryAddr va lvl table) = true) :
    walkFrom cl va lvl table s = (s, .fault 0x07) := by
  rw [walkFrom]; exact if_pos h

section
variable (hs : stageRefused s (entryAddr va lvl table) = false) (hu : uncached s cl (entryAddr va lvl table))
include hs hu

theorem walkFrom_need (hh : entryHeld s cl (entryAddr va lvl table) false = false) :
    walkFrom cl va lvl table s = (s, .need (entryAddr va lvl table / 128) false) := by
  rw [walkFrom]
  simp only [entryAddr_eq, hs, uncached_iff.1 hu, hh, Bool.false_eq_true, if_false, Option.isNone_none, Bool.not_false,
    Bool.and_self, if_true]

/-- A level whose entry is read from memory goes on by the kind of the entry. -/
theorem walkFrom_read (hh : entryHeld s cl (entryAddr va lvl table) false = true) :
    walkFrom cl va lvl table s =
      let e := readBytes s.mem (entryAddr va lvl table) 8
      let kept := walkPut s cl ⟨entryAddr va lvl table, lvl, e⟩
      if !pteBit e 0 then (s, .fault 0x06)
      else if pteBit e 1 || pteBit e 2 || pteBit e 3 then
        if leafOk e lvl then (kept, .leaf e (entryAddr va lvl table)) else (s, .fault 0x07)
      else match lvl with
        | 0 => (s, .fault 0x07)
        | l + 1 => if pointerOk s.dev e then walkFrom cl va l (ptePpn e) kept else (s, .fault 0x07) := by
  rw [walkFrom]
  simp only [entryAddr_eq, hs, uncached_iff.1 hu, hh, Bool.false_eq_true, if_false, Option.isNone_none, Bool.not_true,
    Bool.and_false, Option.isSome_none]
  rfl

/-- The entry of an address in a table of a level, as memory holds it. -/
def entryRead (s : State) (va lvl table : Nat) : Nat := readBytes s.mem (entryAddr va lvl table) 8

omit hs hu in
theorem entryRead_eq : entryRead s va lvl table = readBytes s.mem (entryAddr va lvl table) 8 := rfl

variable (hh : entryHeld s cl (entryAddr va lvl table) false = true)
include hh

theorem walkFrom_absent (h0 : pteBit (entryRead s va lvl table) 0 = false) : walkFrom cl va lvl table s = (s, .fault 0x06) := by
  rw [walkFrom_read hs hu hh]
  simp only [← entryRead_eq, h0]
  rfl

theorem walkFrom_leafEntry (h0 : pteBit (entryRead s va lvl table) 0 = true)
    (h : pteBit (entryRead s va lvl table) 1 = true ∨ pteBit (entryRead s va lvl table) 2 = true ∨
      pteBit (entryRead s va lvl table) 3 = true) :
    walkFrom cl va lvl table s =
      if leafOk (entryRead s va lvl table) lvl then
        (walkPut s cl ⟨entryAddr va lvl table, lvl, entryRead s va lvl table⟩, .leaf (entryRead s va lvl table)
          (entryAddr va lvl table))
      else (s, .fault 0x07) := by
  have leaf : (pteBit (entryRead s va lvl table) 1 || pteBit (entryRead s va lvl table) 2 ||
      pteBit (entryRead s va lvl table) 3) = true := by
    simpa [or_assoc] using h
  rw [walkFrom_read hs hu hh]
  simp only [← entryRead_eq, h0, leaf]
  rfl

section
variable (h0 : pteBit (entryRead s va lvl table) 0 = true)
  (h : pteBit (entryRead s va lvl table) 1 = false ∧ pteBit (entryRead s va lvl table) 2 = false ∧
    pteBit (entryRead s va lvl table) 3 = false)
include h0 h

theorem walkFrom_notPointer (hp : lvl = 0 ∨ pointerOk s.dev (entryRead s va lvl table) = false) :
    walkFrom cl va lvl table s = (s, .fault 0x07) := by
  rw [walkFrom_read hs hu hh]
  simp only [← entryRead_eq, h0, h]
  cases lvl with
  | zero => rfl
  | succ l => simp [hp.resolve_left l.succ_ne_zero]

theorem walkFrom_pointer (hl : lvl ≠ 0) (hp : pointerOk s.dev (entryRead s va lvl table) = true) :
    walkFrom cl va lvl table s = walkFrom cl va (lvl - 1) (ptePpn (entryRead s va lvl table))
      (walkPut s cl ⟨entryAddr va lvl table, lvl, entryRead s va lvl table⟩) := by
  rw [walkFrom_read hs hu hh]
  simp only [← entryRead_eq, h0, h]
  cases lvl with
  | zero => exact absurd rfl hl
  | succ l => simp [hp]

end
end
end

/-! ## What a walk writes (R31) -/

theorem walkFrom_mem (cl va lvl table : Nat) (s : State) : (walkFrom cl va lvl table s).1.mem = s.mem := by
  induction lvl generalizing table s <;> rw [walkFrom] <;> dsimp only <;> split_ifs <;> simp_all [walkPut, modCluster]

/-- A walk that ends at a leaf has kept its place and set the bits that it was to set; of memory only the leaf may have
changed. -/
structure LeafSet (s t : State) (e new addr addr' : Nat) : Prop where
  place : addr' = addr
  entry : e = new
  wf : Memory.wf t.mem = true
  rest : ∀ b, b < addr ∨ addr + 8 ≤ b → readByte t.mem b = readByte s.mem b

theorem LeafSet.of_writeBytes {s u : State} {new addr : Nat} (hm : Memory.wf s.mem = true) (hu : u.mem = s.mem) :
    LeafSet s { u with mem := writeBytes u.mem addr 8 new } new new addr addr where
  place := rfl
  entry := rfl
  wf := writeBytes_wf _ _ _ _ (hu ▸ hm)
  rest b hb := by rw [readByte_writeBytes_other 8 _ _ _ _ (hu ▸ hm) hb, hu]

theorem updateLeaf_leaf {s t : State} {cl addr old new e addr' : Nat} (hm : Memory.wf s.mem = true)
    (h : updateLeaf s cl addr old new = (t, .leaf e addr')) : LeafSet s t e new addr addr' := by
  unfold updateLeaf at h
  split at h
  next same =>
    simp only [Prod.mk.injEq, Walk.leaf.injEq] at h
    obtain ⟨rfl, rfl, rfl⟩ := h
    exact ⟨rfl, same.symm, hm, fun _ _ => rfl⟩
  next =>
    split at h
    · simp at h
    · split at h
      · simp at h
      · simp only at h
        split at h
        · simp at h
        · simp only [Prod.mk.injEq, Walk.leaf.injEq] at h
          obtain ⟨rfl, rfl, rfl⟩ := h
          refine .of_writeBytes hm ?_
          split <;> exact (((Spares.refl s).snoop none true _).toM cl _).mem

theorem pteBit_or_same (e i : Nat) : pteBit (e ||| 2 ^ i) i = true := by
  simp only [pteBit, Nat.testBit_or, Nat.testBit_two_pow_self, Bool.or_true]

theorem pteBit_or {e i : Nat} (j : Nat) (h : pteBit e i = true) : pteBit (e ||| 2 ^ j) i = true := by
  simp only [pteBit] at h; simp only [pteBit, Nat.testBit_or, h, Bool.true_or]

/-- A walk of an access that ends at a leaf (R31, R35): the leaf has A set, and D where the access needs it and passes its
checks on that very leaf. -/
theorem walkFor_leaf {s t : State} {w : Who} {r : AccReq} {a : Word} {va e addr : Nat} (hm : Memory.wf s.mem = true)
    (h : walkFor w r a va s = (t, .leaf e addr)) :
    pteBit e 6 = true ∧
    (∀ x, needsD r = true → checkLeaf t w r a va (tlbEntry w.asid va e addr) = .val x → pteBit e 7 = true) ∧
    ∀ b, b < addr ∨ addr + 8 ≤ b → readByte t.mem b = readByte s.mem b := by
  simp only [walkFor, walk] at h
  split at h
  next s1 e1 addr1 hw =>
    have mem1 : s1.mem = s.mem := (congrArg (·.1.mem) hw).symm.trans (walkFrom_mem ..)
    split at h
    next s2 e2 addr2 hu =>
      have first := updateLeaf_leaf (mem1 ▸ hm) hu
      have accessed : pteBit e2 6 = true := first.entry ▸ pteBit_or_same e1 6
      have rest2 (b : Nat) (hb : b < addr2 ∨ addr2 + 8 ≤ b) : readByte s2.mem b = readByte s.mem b := by
        rw [first.rest b (first.place ▸ hb), mem1]
      split at h
      next hd hc =>
        have second := updateLeaf_leaf first.wf h
        obtain rfl := second.place
        refine ⟨?_, fun _ _ _ => ?_, fun b hb => (second.rest b hb).trans (rest2 b hb)⟩
        · exact second.entry ▸ pteBit_or 7 accessed
        · exact second.entry ▸ pteBit_or_same e2 7
      next hne =>
        simp only [Prod.mk.injEq, Walk.leaf.injEq] at h
        obtain ⟨rfl, rfl, rfl⟩ := h
        exact ⟨accessed, fun x hd hc => absurd hc (hne x hd), rest2⟩
    next hne => exact absurd h (hne t e addr)
  next hne => exact absurd h (hne t e addr)

/-! ## Who waits for a walk (R39) -/

/-- The harts, or the harts of the commands, that wait for a walk. -/
def WalkReq.waiters (q : WalkReq) (cmd : Bool) : List Nat := if cmd then q.forCmds else q.forHarts

/-- A walk with a further hart, or a further command, that waits for it. -/
def WalkReq.join (q : WalkReq) (cmd : Bool) (h : Nat) : WalkReq :=
  if cmd then { q with cmds := q.cmds ++ [h] } else { q with joined := q.joined ++ [h] }

/-- A walk is one that an access waits for: of its address space and root, of its page or its leaf, for its hart or for a
command of it. -/
structure WaitsFor (s : State) (w : Who) (cmd : Bool) (va : Nat) (q : WalkReq) : Prop where
  asid : q.asid = w.asid
  root : q.root = w.root
  leaf : q.va / 4096 = va / 4096 ∨
    ∃ b, leafBits s q.va 4 (w.root.toNat % 2 ^ 56 / 4096 * 4096) = some b ∧ q.va / 2 ^ b = va / 2 ^ b
  waits : w.hart ∈ q.waiters cmd

theorem waitsFor_of_sameLeaf {s : State} {w : Who} {cmd : Bool} {va : Nat} {q : WalkReq}
    (h : sameLeaf s q w.asid w.root va = true) (hw : w.hart ∈ q.waiters cmd) : WaitsFor s w cmd va q := by
  simp only [sameLeaf, Bool.and_eq_true, Bool.or_eq_true, beq_iff_eq, Option.any_eq_true, and_assoc] at h
  obtain ⟨ha, hr, hl⟩ := h
  exact ⟨ha, hr, hl, hw⟩

theorem sameLeaf_join (s : State) (q : WalkReq) (cmd : Bool) (h asid : Nat) (root : Word) (va : Nat) :
    sameLeaf s (q.join cmd h) asid root va = sameLeaf s q asid root va := by cases cmd <;> rfl

theorem mem_waiters_join (q : WalkReq) (cmd : Bool) (h : Nat) : h ∈ (q.join cmd h).waiters cmd := by
  cases cmd <;>
    simp only [WalkReq.join, WalkReq.waiters, WalkReq.forHarts, WalkReq.forCmds, if_true, Bool.false_eq_true, if_false] <;>
    split <;> simp

/-- The walks of a cluster after a request for one (R39). -/
theorem walks_askWalk {s : State} (hw : tabWf Cluster.reset s.clusters = true) (w : Who) (cmd : Bool) (r : AccReq) (a : Word)
    (va : Nat) :
    let walks := (getCluster s (clusterOf w.hart)).walks
    let same (q : WalkReq) : Bool := sameLeaf s q w.asid w.root va
    (getCluster (askWalk s w cmd r a va) (clusterOf w.hart)).walks =
      if walks.any fun q => same q && (q.waiters cmd).contains w.hart then walks
      else match walks.find? same with
        | some q => walks.map fun x => if x = q then x.join cmd w.hart else x
        | none => walks ++ [⟨w.hart, cmd, w.mode, w.asid, w.root, r.kind, r.ctl, a, va, [], []⟩] := by
  intro walks same
  rw [askWalk, getCluster_modCluster hw, if_pos rfl]
  refine (apply_ite Cluster.walks _ _ _).trans (if_congr Iff.rfl rfl ?_)
  simp only [walks, same]
  generalize List.find? _ _ = found
  cases found <;> rfl

/-- After a request for a walk, one of the cluster's walks is what the access waits for. -/
theorem askWalk_waits {s : State} (hw : tabWf Cluster.reset s.clusters = true) (w : Who) (cmd : Bool) (r : AccReq) (a : Word)
    (va : Nat) : ∃ q ∈ (getCluster (askWalk s w cmd r a va) (clusterOf w.hart)).walks, WaitsFor s w cmd va q := by
  rw [walks_askWalk hw]
  split
  next h =>
    obtain ⟨q, hq, hs⟩ := List.any_eq_true.1 h
    obtain ⟨same, waits⟩ := Bool.and_eq_true_iff.1 hs
    exact ⟨q, hq, waitsFor_of_sameLeaf same (List.contains_iff_mem.1 waits)⟩
  next =>
    split
    next q hf =>
      have same := List.find?_some hf
      refine ⟨q.join cmd w.hart, List.mem_map.2 ⟨q, List.mem_of_find?_eq_some hf, if_pos rfl⟩, ?_⟩
      exact waitsFor_of_sameLeaf ((sameLeaf_join ..).trans same) (mem_waiters_join q cmd w.hart)
    next =>
      refine ⟨_, List.mem_append_right _ (List.mem_singleton_self _), rfl, rfl, .inl rfl, ?_⟩
      cases cmd <;> simp [WalkReq.waiters, WalkReq.forHarts, WalkReq.forCmds]

@[simp] theorem modWalked_mem (s : State) (h : Nat) (cmd : Bool) (f : List Walked → List Walked) :
    (modWalked s h cmd f).mem = s.mem := setHart_mem _ _

@[simp] theorem modWalked_clusters (s : State) (h : Nat) (cmd : Bool) (f : List Walked → List Walked) :
    (modWalked s h cmd f).clusters = s.clusters := setHart_clusters _ _

theorem leafBits_congr {s t : State} (h : t.mem = s.mem) (va lvl table : Nat) :
    leafBits t va lvl table = leafBits s va lvl table := by
  induction lvl generalizing table <;> simp_all [leafBits]

/-- A lookup without a translation waits for a walk (R37, R39, R69). -/
theorem lookup_walk {s : State} {w : Who} {cmd : Bool} {va : Nat} (r : AccReq) (a : Word) (hn : walkAnswer s w cmd va = none)
    (ht : cmd = true ∨ (tlbFind s (coreOf w.hart) w.asid va).2 = none) : lookup s w cmd r a va = walkMore s w cmd r a va := by
  rw [lookup, hn]
  cases cmd
  case true => rfl
  case false =>
    have none2 := ht.resolve_left (by simp)
    simp only [Bool.false_eq_true, if_false]
    split
    next hf => simp [hf] at none2
    next s1 hf =>
      have same : s1 = s := by
        simp only [tlbFind] at hf
        split at hf
        · simp at hf
        · split at hf
          · simp at hf
          · exact ((Prod.mk.injEq _ _ _ _).mp hf).1.symm
      rw [same]

theorem walkMore_waits {s : State} (hw : tabWf Cluster.reset s.clusters = true) (w : Who) (cmd : Bool) (r : AccReq) (a : Word)
    (va : Nat) : ∃ t, walkMore s w cmd r a va = (t, .wait (.miss .walk)) ∧ t.mem = s.mem ∧
      ∃ q ∈ (getCluster t (clusterOf w.hart)).walks, WaitsFor s w cmd va q := by
  refine ⟨_, rfl, by simp [askWalk, modCluster], ?_⟩
  obtain ⟨q, hq, ha, hr, hl, hh⟩ :=
    askWalk_waits (s := modWalked s w.hart cmd fun l => l.filter fun y => !y.answers w va) (by simpa using hw) w cmd r a va
  exact ⟨q, hq, ha, hr, by simpa only [leafBits_congr (modWalked_mem ..)] using hl, hh⟩

end Sys2Proof.Machine
end

