-- ==== Sys2Proof/Proofs/WalkAnswers.lean ====
section
/-!
PROOFS. The answer of a walk (R37, R39): it reaches every hart and every command that waits for it, and its leaf the TLB of each
hart's core.
-/

namespace Sys2Proof.Machine

/-- What each step of a fold establishes for its own element, and no later step undoes, holds for every element at the end. -/
theorem foldl_establishes {σ β : Type} {f : σ → β → σ} {I : σ → Prop} {P : σ → β → Prop}
    (inv : ∀ s x, I s → I (f s x))
    (own : ∀ s x, I s → P (f s x) x) (keep : ∀ s x y, I s → P s x → P (f s y) x) (l : List β) (s : σ) (hs : I s) :
    I (l.foldl f s) ∧ ∀ x ∈ l, P (l.foldl f s) x := by
  induction l using List.reverseRecOn with
  | nil => exact ⟨hs, List.forall_mem_nil _⟩
  | append_singleton l a ih =>
    obtain ⟨hi, hp⟩ := ih
    rw [List.foldl_append]
    refine ⟨inv _ _ hi, fun x hx => ?_⟩
    rcases List.mem_append.1 hx with hx | hx
    · exact keep _ x a hi (hp x hx)
    · exact List.mem_singleton.1 hx ▸ own _ a hi

/-! ## Nothing that a hart has been answered is lost -/

/-- The tables of harts and cores are canonical. -/
structure HartTables (s : State) : Prop where
  harts : tabWf Hart.reset s.harts = true
  cores : tabWf Core.reset s.cores = true

/-- A hart keeps the answers that it has, and so does the command at the head of its FIFO. -/
structure KeepsAnswers (x y : Hart) : Prop where
  walked : ∀ w ∈ x.walked, w ∈ y.walked
  head : ∀ c, x.fifo.cmds.head? = some c → ∃ c', y.fifo.cmds.head? = some c' ∧ ∀ w ∈ c.walked, w ∈ c'.walked

theorem KeepsAnswers.refl (x : Hart) : KeepsAnswers x x := ⟨fun _ => id, fun c h => ⟨c, h, fun _ => id⟩⟩

theorem KeepsAnswers.trans {x y z : Hart} (h : KeepsAnswers x y) (g : KeepsAnswers y z) : KeepsAnswers x z where
  walked w hw := g.walked w (h.walked w hw)
  head c hc :=
    have ⟨c', hc', sub⟩ := h.head c hc
    have ⟨c'', hc'', sub'⟩ := g.head c' hc'
    ⟨c'', hc'', fun w hw => sub' w (sub w hw)⟩

/-- Memory is the same, and what harts have been answered and what the first-level TLBs hold of a leaf stays. -/
structure Adds (leaf : Option TlbEnt) (s t : State) : Prop where
  mem : t.mem = s.mem
  tables : HartTables s → HartTables t
  answers : HartTables s → ∀ k, KeepsAnswers (getHart s k) (getHart t k)
  tlb : HartTables s → ∀ c, ∀ e ∈ leaf, e ∈ (getCore s c).tlb1 → e ∈ (getCore t c).tlb1

namespace Adds

variable {leaf : Option TlbEnt} {s t u : State}

theorem refl (s : State) : Adds leaf s s := ⟨rfl, id, fun _ _ => .refl _, fun _ _ _ _ => id⟩

theorem trans (h : Adds leaf s t) (g : Adds leaf t u) : Adds leaf s u where
  mem := g.mem.trans h.mem
  tables w := g.tables (h.tables w)
  answers w k := (h.answers w k).trans (g.answers (h.tables w) k)
  tlb w c e he m := g.tlb (h.tables w) c e he (h.tlb w c e he m)

theorem modHart (i : Nat) {f : Hart → Hart} (hf : ∀ x, KeepsAnswers x (f x)) : Adds leaf s (modHart s i f) where
  mem := setHart_mem _ _
  tables w := ⟨modHart_wf w.harts i f, by rw [Machine.modHart, setHart_cores]; exact w.cores⟩
  answers w := getHart_modHart_keeps w.harts i .refl hf
  tlb _ c e _ m := by rwa [getCore, Machine.modHart, setHart_cores]

theorem modCore (i : Nat) {f : Core → Core} (hf : ∀ x, ∀ e ∈ leaf, e ∈ x.tlb1 → e ∈ (f x).tlb1) :
    Adds leaf s (modCore s i f) where
  mem := rfl
  tables w := ⟨w.harts, modCore_wf w.cores i f⟩
  answers _ _ := .refl _
  tlb w c e he := getCore_modCore_keeps (P := fun x y => e ∈ x.tlb1 → e ∈ y.tlb1) w.cores i (fun _ => id)
    (fun x => hf x e he) c

theorem foldl {β : Type} {f : State → β → State} (hf : ∀ s x, Adds leaf s (f s x)) (l : List β) (s : State) :
    Adds leaf s (l.foldl f s) := foldl_rel refl trans hf l s

end Adds

/-! ## The steps of an answer -/

/-- A hart, or the command at the head of its FIFO, has an answer. -/
def giveAnswer (x : Walked) (cmd : Bool) (s : State) (h : Nat) : State := modWalked s h cmd fun l => l ++ [x]

/-- The TLBs of a hart's core take a leaf. -/
def fillTlb (leaf : Option TlbEnt) (s : State) (h : Nat) : State :=
  match leaf with | some e => tlbPut s (coreOf h) e | none => s

/-- An answer, and the leaf into the TLBs of the hart's core. -/
def answerHart (leaf : Option TlbEnt) (x : Walked) (s : State) (h : Nat) : State := giveAnswer x false (fillTlb leaf s h) h

theorem answerWalk_eq (s : State) (q : WalkReq) (leaf : Option TlbEnt) (code : Nat) :
    answerWalk s q leaf code =
      let x : Walked := ⟨q.asid, q.root, q.va / 4096, leaf, code⟩
      wakeCommands (q.forCmds.foldl (giveAnswer x true) (q.forHarts.foldl (answerHart leaf x) s)) := by cases leaf <;> rfl

theorem mem_fifoPut (n : Nat) (e : TlbEnt) (l : List TlbEnt) (hn : 0 < n) : e ∈ fifoPut n e l := by
  simp only [fifoPut]
  rw [List.drop_append_of_le_length (by simp; omega)]
  exact List.mem_append_right _ (List.mem_singleton_self e)

theorem giveAnswer_adds (leaf : Option TlbEnt) (x : Walked) (cmd : Bool) (s : State) (h : Nat) :
    Adds leaf s (giveAnswer x cmd s h) := by
  unfold giveAnswer modWalked
  refine .modHart h fun y => ?_
  cases cmd
  case false => exact ⟨fun w hw => List.mem_append_left _ hw, fun c hc => ⟨c, hc, fun _ => id⟩⟩
  case true =>
    refine ⟨fun _ => id, fun c hc => ?_⟩
    obtain ⟨r, hr⟩ := List.head?_eq_some_iff.1 hc
    exact ⟨{ c with walked := c.walked ++ [x] }, by simp [hr], fun w hw => List.mem_append_left _ hw⟩

theorem fillTlb_adds (leaf : Option TlbEnt) (s : State) (h : Nat) : Adds leaf s (fillTlb leaf s h) := by
  cases leaf with
  | none => exact .refl s
  | some e =>
    unfold fillTlb tlbPut tlb1Put
    refine Adds.trans (.modCore _ fun c e' he _ => ?_) (.modCore _ fun _ _ _ h => h)
    cases Option.mem_some_iff.1 he
    dsimp only
    exact mem_fifoPut 128 e _ (by decide)

theorem answerHart_adds (leaf : Option TlbEnt) (x : Walked) (s : State) (h : Nat) : Adds leaf s (answerHart leaf x s h) :=
  (fillTlb_adds leaf s h).trans (giveAnswer_adds leaf x false _ h)

/-- A hart's commands go on. -/
def wakeHart (s : State) (h : Nat) : State :=
  modHart s h fun x => { x with fifo := { x.fifo with cmds := x.fifo.cmds.map fun c => { c with held := false } } }

theorem wakeCommands_eq (s : State) : wakeCommands s = (hartIds s).foldl wakeHart s := rfl

theorem wakeCommands_adds (leaf : Option TlbEnt) (s : State) : Adds leaf s (wakeCommands s) := by
  rw [wakeCommands_eq]
  refine .foldl (fun s h => ?_) _ s
  unfold wakeHart
  refine .modHart h fun y => ⟨fun _ => id, fun c hc => ?_⟩
  exact ⟨{ c with held := false }, by simp [hc], fun _ => id⟩

theorem getHart_giveAnswer {s : State} (w : HartTables s) (x : Walked) (h : Nat) :
    x ∈ (getHart (giveAnswer x false s h) h).walked := by
  rw [giveAnswer, modWalked, getHart_modHart w.harts, if_pos rfl]
  exact List.mem_append_right _ (List.mem_singleton_self x)

theorem head_giveAnswer {s : State} (w : HartTables s) (x : Walked) (h : Nat) (hn : (getHart s h).fifo.cmds ≠ []) :
    ∃ c, (getHart (giveAnswer x true s h) h).fifo.cmds.head? = some c ∧ x ∈ c.walked := by
  rw [giveAnswer, modWalked, getHart_modHart w.harts, if_pos rfl]
  obtain ⟨c, r, hr⟩ := List.exists_cons_of_ne_nil hn
  exact ⟨{ c with walked := c.walked ++ [x] }, by simp [hr], by simp⟩

theorem tlb1_fillTlb {s : State} (w : HartTables s) {e : TlbEnt} (h : Nat) :
    e ∈ (getCore (fillTlb (some e) s h) (coreOf h)).tlb1 := by
  rw [fillTlb, tlbPut, tlb1Put, getCore_modCore (modCore_wf w.cores _ _), if_pos rfl, getCore_modCore w.cores, if_pos rfl]
  dsimp only
  exact mem_fifoPut 128 e _ (by decide)

/-! ## The answer of a walk -/

/-- What an answer has reached: the harts of a list have it, and the leaf stands in their cores' TLBs. -/
def HartHas (leaf : Option TlbEnt) (x : Walked) (s : State) (h : Nat) : Prop :=
  x ∈ (getHart s h).walked ∧ ∀ e ∈ leaf, e ∈ (getCore s (coreOf h)).tlb1

theorem HartHas.adds {leaf : Option TlbEnt} {x : Walked} {s t : State} {h : Nat} (w : HartTables s) (g : HartHas leaf x s h)
    (a : Adds leaf s t) : HartHas leaf x t h := ⟨(a.answers w h).walked x g.1, fun e he => a.tlb w _ e he (g.2 e he)⟩

theorem answerHart_has {leaf : Option TlbEnt} (x : Walked) {s : State} (w : HartTables s) (h : Nat) :
    HartHas leaf x (answerHart leaf x s h) h := by
  have wf := (fillTlb_adds leaf s h).tables w
  refine ⟨getHart_giveAnswer wf x h, fun e he => (giveAnswer_adds leaf x false _ h).tlb wf _ e he ?_⟩
  obtain rfl := Option.mem_def.1 he
  exact tlb1_fillTlb w h

/-- The command at the head of a hart's FIFO, where it has one, has an answer. -/
def CmdHas (x : Walked) (s : State) (h : Nat) : Prop := ∃ c, (getHart s h).fifo.cmds.head? = some c ∧ x ∈ c.walked

theorem CmdHas.adds {leaf : Option TlbEnt} {x : Walked} {s t : State} {h : Nat} (w : HartTables s) (g : CmdHas x s h)
    (a : Adds leaf s t) : CmdHas x t h :=
  have ⟨c, hc, hx⟩ := g
  have ⟨c', hc', sub⟩ := (a.answers w h).head c hc
  ⟨c', hc', sub x hx⟩

/-- The answer of a walk reaches the harts and the commands that wait for it, and changes no memory. -/
theorem answerWalk_reaches {s : State} (w : HartTables s) (q : WalkReq) (leaf : Option TlbEnt) (code : Nat) :
    let x : Walked := ⟨q.asid, q.root, q.va / 4096, leaf, code⟩
    let u := answerWalk s q leaf code
    u.mem = s.mem ∧ (∀ h ∈ q.forHarts, HartHas leaf x u h) ∧
      ∀ h ∈ q.forCmds, (getHart s h).fifo.cmds ≠ [] → CmdHas x u h := by
  intro x u
  let s1 := q.forHarts.foldl (answerHart leaf x) s
  let s2 := q.forCmds.foldl (giveAnswer x true) s1
  have a1 : Adds leaf s s1 := .foldl (answerHart_adds leaf x) _ s
  have a2 : Adds leaf s1 s2 := .foldl (giveAnswer_adds leaf x true) _ s1
  have a3 : Adds leaf s2 u := by
    simpa only [u, answerWalk_eq] using wakeCommands_adds leaf s2
  have w1 := a1.tables w
  refine ⟨((a1.trans a2).trans a3).mem, fun h hh => ?_, fun h hh hn => ?_⟩
  · refine HartHas.adds w1 ?_ (a2.trans a3)
    exact (foldl_establishes (I := HartTables) (P := HartHas leaf x) (fun s h w => (answerHart_adds leaf x s h).tables w)
      (fun s h w => answerHart_has x w h) (fun s h h' w g => g.adds w (answerHart_adds leaf x s h')) _ s w).2 h hh
  · refine CmdHas.adds (a2.tables w1) ?_ a3
    refine (foldl_establishes (I := fun t => HartTables t ∧ Adds leaf s t)
      (P := fun t h => (getHart s h).fifo.cmds ≠ [] → CmdHas x t h) (fun t h g => ?_) (fun t h g hn => ?_)
      (fun t h h' g p hn => ?_) _ s1 ⟨w1, a1⟩).2 h hh hn
    · exact ⟨(giveAnswer_adds leaf x true t h).tables g.1, g.2.trans (giveAnswer_adds leaf x true t h)⟩
    · refine head_giveAnswer g.1 x h fun empty => ?_
      obtain ⟨c, r, hr⟩ := List.exists_cons_of_ne_nil hn
      obtain ⟨c', hc', -⟩ := (g.2.answers w h).head c (by simp [hr])
      simp [empty] at hc'
    · exact (p hn).adds g.1 (giveAnswer_adds leaf x true t h')

end Sys2Proof.Machine
end

