-- ==== Sys2Proof/Proofs/Invalidations.lean ====
section
/-!
PROOFS. The step of a walk, and the invalidation sequencer (R37 to R43): what a die loses, and what an invalidation waits for.
-/

namespace Sys2Proof.Machine

open Sys2Proof.Safety

/-! ## The step of a walk (R31, R38, R39) -/

section
variable {s t : State} {q : WalkReq}
  (hq : (getCluster s (clusterOf s.arg.a)).walks.find?
    (fun q => q.hart == s.arg.a && q.addr == s.arg.word && q.kind == s.arg.kind) = some q)
include hq

theorem execPageWalk_found : exec .pageWalk s = .next (advanceWalk s (clusterOf s.arg.a) q) := by
  rw [exec_pageWalk]; simp only [execPageWalk, hq]

/-- The state in which a walk that has ended is one of its cluster's no more. -/
def endWalk (s : State) (cl : Nat) (q : WalkReq) : State := modCluster s cl fun c => { c with walks := c.walks.erase q }

theorem execPageWalk_leaf {e addr : Nat} (h : walkFor q.who q.acc q.addr q.va s = (t, .leaf e addr)) :
    exec .pageWalk s = .next (answerWalk (endWalk t (clusterOf s.arg.a) q) q (some (tlbEntry q.asid q.va e addr)) 0) := by
  rw [execPageWalk_found hq, advanceWalk, h]; rfl

theorem execPageWalk_fault {code : Nat} (h : walkFor q.who q.acc q.addr q.va s = (t, .fault code)) :
    exec .pageWalk s = .next (answerWalk (endWalk t (clusterOf s.arg.a) q) q none code) := by
  rw [execPageWalk_found hq, advanceWalk, h]; rfl

theorem execPageWalk_need {l : Nat} {own : Bool} (h : walkFor q.who q.acc q.addr q.va s = (t, .need l own)) :
    exec .pageWalk s = .next
      (if clusterHolds t (clusterOf s.arg.a) l 0 own then t else askLine t noHart (clusterOf s.arg.a) l 0 0 (fillFor own)) := by
  rw [execPageWalk_found hq, advanceWalk, h]

end

/-! ## The place of an invalidation -/

theorem findIdx?_first {α : Type} {p : α → Bool} {before : List α} {i : α} (later : List α) (hi : p i = true)
    (hb : ∀ j ∈ before, p j = false) : (before ++ i :: later).findIdx? p = some before.length := by
  rw [List.findIdx?_append, List.findIdx?_eq_none_iff.2 hb, List.findIdx?_cons, hi]; simp

theorem set_middle {α : Type} (before : List α) (i x : α) (later : List α) :
    (before ++ i :: later).set before.length x = before ++ x :: later := by simp

/-- The sequencer's step about the first invalidation that a condition holds of. -/
theorem execTlbinvSequence_at {s : State} {before : List Inv} {i : Inv} {later : List Inv} (hl : s.invs = before ++ i :: later)
    (hi : (if s.arg.flag then i.id == s.arg.b else !i.sent) = true)
    (hb : ∀ j ∈ before, (if s.arg.flag then j.id == s.arg.b else !j.sent) = false) :
    exec .tlbinvSequence s = .next (if !i.sent then invSend s before.length i
      else if s.arg.flag && decide (s.arg.a < 4) && !i.dies.contains s.arg.a then invOnDie s before.length i s.arg.a
      else s) := by
  have here : s.invs.findIdx? (fun i => if s.arg.flag then i.id == s.arg.b else !i.sent) = some before.length := by
    rw [hl]; exact findIdx?_first later hi hb
  have elem : s.invs[before.length]? = some i := by simp [hl]
  rw [exec_tlbinvSequence]
  simp only [execTlbinvSequence, here, Option.bind_some, elem, Option.map_some]

section
variable {s : State} {before : List Inv} {i : Inv} {later : List Inv} (hl : s.invs = before ++ i :: later)
include hl

/-- An invalidation that has not been sent goes to the dies. -/
theorem execTlbinvSequence_send (hs : i.sent = false)
    (hf : if s.arg.flag then s.arg.b = i.id ∧ ∀ j ∈ before, j.id ≠ i.id else ∀ j ∈ before, j.sent = true) :
    exec .tlbinvSequence s = .next (invSend s before.length i) := by
  rw [execTlbinvSequence_at hl (by split at hf <;> simp_all) (by split at hf <;> simp_all), hs]
  rfl

/-- One that arrives at a die which has not observed it is observed there. -/
theorem execTlbinvSequence_die (hs : i.sent = true) (hf : s.arg.flag = true) (hb : s.arg.b = i.id)
    (hne : ∀ j ∈ before, j.id ≠ i.id) (hd : s.arg.a < 4) (hnd : s.arg.a ∉ i.dies) :
    exec .tlbinvSequence s = .next (invOnDie s before.length i s.arg.a) := by
  rw [execTlbinvSequence_at hl (by simp [hf, hb]) (by simpa [hf, hb] using hne)]
  simp [hs, hf, hd, hnd]

end

/-! ## The four dies are told (R41) -/

theorem invSend_eq {s : State} {before : List Inv} {i : Inv} {later : List Inv} (hl : s.invs = before ++ i :: later) :
    (invSend s before.length i).invs = before ++ { i with sent := true } :: later ∧ (invSend s before.length i).mem = s.mem := by
  refine ⟨?_, rfl⟩
  change s.invs.set before.length _ = _
  rw [hl, set_middle]

/-! ## What a die loses (R40, R41) -/

/-- A core whose TLBs have lost what an invalidation selects. -/
def coreLoses (i : Inv) (c : Core) : Core := { c with
  tlb1 := c.tlb1.filter fun e => !invHits i (entUse e)
  tlb2 := tabMap [] (fun _ w => w.filter fun e => !invHits i (entUse e)) c.tlb2 }

/-- A cluster whose walk cache has lost the entries on the path of an invalidation's address, or every entry. -/
def clusterLoses (i : Inv) (c : Cluster) : Cluster := { c with
  walkCache := if i.form = 0 then c.walkCache.filter fun e => !onPath i.va.toNat e else [] }

theorem coreLoses_reset (i : Inv) : coreLoses i Core.reset = Core.reset := rfl
theorem clusterLoses_reset (i : Inv) : clusterLoses i Cluster.reset = Cluster.reset := by unfold clusterLoses; split <;> rfl

/-- The state in which the TLBs and walk caches of a die have lost what an invalidation selects. -/
def invCaches (s : State) (i : Inv) (d : Nat) : State := { s with
  cores := tabMap Core.reset (fun k c => if k / 128 ≠ d then c else coreLoses i c) s.cores
  clusters := tabMap Cluster.reset (fun k c => if k / 8 ≠ d then c else clusterLoses i c) s.clusters }

/-- A hart, and its commands, lose the answers of walks that they have not used. -/
def dropAnswers (s : State) (h : Nat) : State := modWalked (modWalked s h false fun _ => []) h true fun _ => []

theorem invUnits_eq (s : State) (i : Inv) (d : Nat) :
    invUnits s i d = ((hartIds (invCaches s i d)).filter fun h => dieOf h == d).foldl dropAnswers (invCaches s i d) := rfl

theorem dropAnswers_spares (s : State) (h : Nat) : Spares s (dropAnswers s h) := by
  unfold dropAnswers modWalked
  exact ((Spares.refl s).modHart h _).modHart h _

theorem invUnits_spares (s : State) (i : Inv) (d : Nat) : Spares (invCaches s i d) (invUnits s i d) :=
  invUnits_eq s i d ▸ .foldl dropAnswers_spares _ _

theorem invChunks_spares (i : Inv) (s : State) (h : Nat) : Spares s (invChunks i s h) := by
  simp only [invChunks]
  split
  · exact ((Spares.refl s).setHart h _).squashFrom h _ true
  · exact (Spares.refl s).setHart h _

section
variable {s : State} {i : Inv} {d : Nat}

theorem invCaches_coresWf (h : tabWf Core.reset s.cores = true) : tabWf Core.reset (invCaches s i d).cores = true :=
  tabMap_wf Core.reset (fun k c => if k / 128 ≠ d then c else coreLoses i c) s.cores h

theorem invCaches_clustersWf (h : tabWf Cluster.reset s.clusters = true) :
    tabWf Cluster.reset (invCaches s i d).clusters = true :=
  tabMap_wf Cluster.reset (fun k c => if k / 8 ≠ d then c else clusterLoses i c) s.clusters h

theorem getCore_invCaches (h : tabWf Core.reset s.cores = true) {c : Nat} (hc : c / 128 = d) :
    getCore (invCaches s i d) c = coreLoses i (getCore s c) := by
  unfold getCore invCaches
  have keeps : (if c / 128 ≠ d then Core.reset else coreLoses i Core.reset) = Core.reset := by rw [coreLoses_reset, ite_self]
  rw [tabGet_map Core.reset (fun k c => if k / 128 ≠ d then c else coreLoses i c) s.cores c keeps h, if_neg (not_not_intro hc)]

theorem getCluster_invCaches (h : tabWf Cluster.reset s.clusters = true) {c : Nat} (hc : c / 8 = d) :
    getCluster (invCaches s i d) c = clusterLoses i (getCluster s c) := by
  unfold getCluster invCaches
  have keeps : (if c / 8 ≠ d then Cluster.reset else clusterLoses i Cluster.reset) = Cluster.reset := by
    rw [clusterLoses_reset, ite_self]
  rw [tabGet_map Cluster.reset (fun k c => if k / 8 ≠ d then c else clusterLoses i c) s.clusters c keeps h,
    if_neg (not_not_intro hc)]

/-- What the TLBs of a core hold after it has lost what an invalidation selects. -/
theorem tlb_coreLoses {c : Core} {e : TlbEnt}
    (he : e ∈ (coreLoses i c).tlb1 ∨ ∃ k, e ∈ tabGet [] (coreLoses i c).tlb2 k) : invHits i (entUse e) = false := by
  have kept (l : List TlbEnt) (m : e ∈ l.filter fun e => !invHits i (entUse e)) : invHits i (entUse e) = false := by
    simpa using (List.mem_filter.1 m).2
  rcases he with he | ⟨k, he⟩
  · exact kept _ he
  · have each : ∀ p ∈ (coreLoses i c).tlb2, e ∈ p.2 → invHits i (entUse e) = false := by
      intro p hp
      obtain ⟨w, -, rfl⟩ := List.mem_map.1 (List.mem_of_mem_filter hp)
      exact kept w.2
    exact each_get (P := fun w => e ∈ w → invHits i (entUse e) = false) each (by simp) k he

end

/-! ## The commands that an invalidation waits for (R41) -/

/-- The harts' FIFOs hold as many commands as before. -/
structure SameFifos (s t : State) : Prop where
  wf : tabWf Hart.reset s.harts = true → tabWf Hart.reset t.harts = true
  length : tabWf Hart.reset s.harts = true → ∀ h, (getHart t h).fifo.cmds.length = (getHart s h).fifo.cmds.length

theorem dropAnswers_sameFifos (s : State) (h : Nat) : SameFifos s (dropAnswers s h) where
  wf w := modHart_wf (modHart_wf w h _) h _
  length w k := by
    simp only [dropAnswers, modWalked, getHart_modHart (modHart_wf w h _), getHart_modHart w]
    split
    next e => subst e; cases hc : (getHart s k).fifo.cmds <;> simp [hc]
    next => rfl

theorem invUnits_sameFifos (s : State) (i : Inv) (d : Nat) : SameFifos (invCaches s i d) (invUnits s i d) :=
  invUnits_eq s i d ▸ foldl_rel (R := SameFifos) (fun _ => ⟨id, fun _ _ => rfl⟩)
    (fun a b => ⟨fun w => b.wf (a.wf w), fun w h => (b.length (a.wf w) h).trans (a.length w h)⟩) dropAnswers_sameFifos _ _

/-- The largest of some numbers is at most what bounds them all. -/
theorem foldl_max_le {l : List Nat} {b n : Nat} (hb : b ≤ n) (h : ∀ x ∈ l, x ≤ n) : l.foldl Nat.max b ≤ n := by
  induction l generalizing b with
  | nil => exact hb
  | cons x l ih =>
    obtain ⟨hx, hl⟩ := List.forall_mem_cons.1 h
    exact ih (Nat.max_le.2 ⟨hb, hx⟩) hl

theorem mem_invCmds {s : State} {i : Inv} {d h n : Nat} (hm : (h, n) ∈ invCmds s i d) :
    dieOf h = d ∧ 0 < n ∧ n ≤ (getHart s h).fifo.cmds.length := by
  obtain ⟨k, -, hk⟩ := List.mem_filterMap.1 hm
  dsimp only at hk
  split at hk
  · simp at hk
  next hne =>
    simp only [Option.some.injEq, Prod.mk.injEq] at hk
    obtain ⟨rfl, rfl⟩ := hk
    obtain ⟨pos, die⟩ := not_or.1 hne
    refine ⟨not_not.1 die, Nat.pos_of_ne_zero pos, foldl_max_le (Nat.zero_le _) fun x hx => ?_⟩
    obtain ⟨j, hj, rfl⟩ := List.mem_mapIdx.1 hx
    split <;> omega

/-! ## A die has observed an invalidation -/

/-- The state in which the die stands in the invalidation's record, with the commands that it waits for. -/
def invRecord (s : State) (k : Nat) (i : Inv) (d : Nat) : State :=
  let u := invUnits s i d
  { u with invs := u.invs.set k { i with dies := setInsert i.dies d, cmds := i.cmds ++ invCmds u i d } }

theorem invOnDie_spares (s : State) (k : Nat) (i : Inv) (d : Nat) : Spares (invRecord s k i d) (invOnDie s k i d) :=
  .foldl (invChunks_spares i) _ _

section
variable {s : State} {before : List Inv} {i : Inv} {later : List Inv} {d : Nat}

theorem invOnDie_tlb (k : Nat) (h : tabWf Core.reset s.cores = true) {c : Nat} (hc : c / 128 = d) {e : TlbEnt}
    (he : e ∈ (getCore (invOnDie s k i d) c).tlb1 ∨ ∃ j, e ∈ tabGet [] (getCore (invOnDie s k i d) c).tlb2 j) :
    invHits i (entUse e) = false := by
  have wf : tabWf Core.reset (invCaches s i d).cores = true := invCaches_coresWf h
  have units := invUnits_spares s i d
  have die := invOnDie_spares s k i d
  have wf' : tabWf Core.reset (invRecord s k i d).cores = true := units.coresWf wf
  refine tlb_coreLoses (c := getCore s c) ?_
  rw [die.tlb1 wf', die.tlb2 wf'] at he
  change e ∈ (getCore (invUnits s i d) c).tlb1 ∨ ∃ j, e ∈ tabGet [] (getCore (invUnits s i d) c).tlb2 j at he
  rwa [units.tlb1 wf, units.tlb2 wf, getCore_invCaches h hc] at he

theorem invOnDie_walkCache (k : Nat) (h : tabWf Cluster.reset s.clusters = true) {c : Nat} (hc : c / 8 = d) :
    (getCluster (invOnDie s k i d) c).walkCache = (clusterLoses i (getCluster s c)).walkCache := by
  have wf : tabWf Cluster.reset (invCaches s i d).clusters = true := invCaches_clustersWf h
  have units := invUnits_spares s i d
  have wf' : tabWf Cluster.reset (invRecord s k i d).clusters = true := units.clustersWf wf
  rw [(invOnDie_spares s k i d).walkCache wf']
  exact (units.walkCache wf c).trans (by rw [getCluster_invCaches h hc])

theorem invOnDie_mem (k : Nat) : (invOnDie s k i d).mem = s.mem := (invOnDie_spares s k i d).mem.trans (invUnits_spares s i d).mem
theorem invOnDie_hbm (k : Nat) : (invOnDie s k i d).hbm = s.hbm := (invOnDie_spares s k i d).hbm.trans (invUnits_spares s i d).hbm

theorem invOnDie_invs (hl : s.invs = before ++ i :: later) (h : tabWf Hart.reset s.harts = true) :
    ∃ cmds, (invOnDie s before.length i d).invs =
        before ++ { i with dies := setInsert i.dies d, cmds := i.cmds ++ cmds } :: later ∧
      ∀ h n, (h, n) ∈ cmds → dieOf h = d ∧ 0 < n ∧ n ≤ (getHart s h).fifo.cmds.length := by
  refine ⟨invCmds (invUnits s i d) i d, ?_, fun k n hm => ?_⟩
  · rw [(invOnDie_spares s before.length i d).invs]
    change (invUnits s i d).invs.set _ _ = _
    rw [(invUnits_spares s i d).invs]
    change s.invs.set _ _ = _
    rw [hl, set_middle]
  · obtain ⟨die, pos, le⟩ := mem_invCmds hm
    exact ⟨die, pos, ((invUnits_sameFifos s i d).length h k) ▸ le⟩

end

/-! ## An invalidation is complete (R41) -/

theorem invSettled_of {s : State} {i : Inv} (hd : i.dies.length = 4) (hc : ∀ c ∈ i.cmds, c.2 = 0)
    (hm : ∀ h ∈ hartIds s, ∀ c ∈ (getHart s h).inflight, invMark i ∉ c.trans) : invSettled s i = true := by
  simp only [invSettled, Bool.and_eq_true, decide_eq_true_eq, List.all_eq_true, beq_iff_eq, Bool.not_eq_true', List.any_eq_false,
    List.contains_iff_mem]
  exact ⟨⟨hd, hc⟩, hm⟩

theorem execTlbinvComplete_settled {s : State} {i : Inv} (hi : s.invs[s.arg.a]? = some i) (hs : i.sent = true)
    (hd : i.done = false) (h : invSettled s i = true) :
    exec .tlbinvComplete s = .next (wakeCommands { s with
      invs := if i.hart = noHart then s.invs.eraseIdx s.arg.a else s.invs.set s.arg.a { i with done := true } }) := by
  rw [exec_tlbinvComplete, execTlbinvComplete, hi]
  simp [hs, hd, h]

/-- Settles O44: a walk level by level, the bits of its leaf, who waits for it and has its answer, and the invalidations. -/
theorem walksFillAndInvalidationsRemove : Obligations.WalksFillAndInvalidationsRemove := by
  unfold Obligations.WalksFillAndInvalidationsRemove
  refine ⟨fun s cl va lvl table => ?_, fun s t w r a va e addr h hm => walkFor_leaf hm h,
    fun s w cmd r a va hw hn ht => ?_, fun s t q hq wc wh => ?_, fun s before i later hl => ⟨?_, ?_⟩,
    fun s i hi hs hd h4 hc hm => execTlbinvComplete_settled hi hs hd (invSettled_of h4 hc hm)⟩
  · exact ⟨walkFrom_refused, fun hs hu => ⟨walkFrom_need hs hu, fun hh =>
      ⟨walkFrom_absent hs hu hh, walkFrom_leafEntry hs hu hh, fun h0 h1 h2 h3 =>
        ⟨walkFrom_notPointer hs hu hh h0 ⟨h1, h2, h3⟩, walkFrom_pointer hs hu hh h0 ⟨h1, h2, h3⟩⟩⟩⟩⟩
  · obtain ⟨t, more, mem, q, hq, wait⟩ := walkMore_waits hw w cmd r a va
    exact ⟨t, (lookup_walk r a hn ht).trans more, mem, q, hq, wait.asid, wait.root, wait.leaf, wait.waits⟩
  · refine ⟨fun e addr h => ?_, fun code h => ?_, fun l own h => execPageWalk_need hq h⟩
    · obtain ⟨mem, harts, cmds⟩ := answerWalk_reaches (s := endWalk t (clusterOf s.arg.a) q) ⟨wh, wc⟩ q
        (some (tlbEntry q.asid q.va e addr)) 0
      exact ⟨_, execPageWalk_leaf hq h, mem, ⟨fun h hh => (harts h hh).1, cmds⟩, fun h hh => (harts h hh).2 _ rfl⟩
    · obtain ⟨mem, harts, cmds⟩ := answerWalk_reaches (s := endWalk t (clusterOf s.arg.a) q) ⟨wh, wc⟩ q none code
      exact ⟨_, execPageWalk_fault hq h, mem, fun h hh => (harts h hh).1, cmds⟩
  · intro hs hf
    exact ⟨_, execTlbinvSequence_send hl hs hf, invSend_eq hl⟩
  · intro hs hf hb hne hd hnd wc wl wh
    refine ⟨_, execTlbinvSequence_die hl hs hf hb hne hd hnd, fun c e hc he => invOnDie_tlb _ wc hc he, fun c hc hform => ?_,
      fun c e hc hform he => ?_, ?_, invOnDie_mem _, invOnDie_hbm _⟩
    · rw [invOnDie_walkCache _ wl hc, clusterLoses, if_neg hform]
    · rw [invOnDie_walkCache _ wl hc, clusterLoses, if_pos hform] at he
      simpa [onPath] using (List.mem_filter.1 he).2
    · obtain ⟨cmds, record, bound⟩ := invOnDie_invs hl wh
      exact ⟨cmds, record, bound⟩

end Sys2Proof.Machine
end

