-- ==== Sys2Proof/Proofs/EvictionFrame.lean ====
section
/-!
PROOFS. What an eviction leaves as it was (R48, R97, R102, R113, R135): every register of a hart, the bytes of the moving hart's
chunk, and a line that is not the one evicted, or has no copy of a non-coherent range in the cluster.
-/

namespace Sys2Proof.Machine

open Sys2Proof.Safety

/-! ## The same beside the caches -/

section
variable {s t u : State}


theorem sameBesideCaches_trans (h : sameBesideCaches s t) (g : sameBesideCaches t u) : sameBesideCaches s u := by
  unfold sameBesideCaches at *
  conv_lhs => rw [g]
  conv_lhs => rw [h]

theorem sameBesideCaches_curId (h : sameBesideCaches s t) : t.curId = s.curId := congrArg (·.curId) h
theorem sameBesideCaches_dev (h : sameBesideCaches s t) : t.dev = s.dev := congrArg (·.dev) h
theorem sameBesideCaches_inflight (h : sameBesideCaches s t) : t.cur.inflight = s.cur.inflight := congrArg (·.cur.inflight) h
theorem sameBesideCaches_got (h : sameBesideCaches s t) : t.cur.got = s.cur.got := congrArg (·.cur.got) h

end

/-! ## One line -/

/-- The tables that the bytes of a line stand in are canonical. -/
structure LineTables (s : State) : Prop where
  mem : Memory.wf s.mem = true
  cores : tabWf Core.reset s.cores = true
  clusters : tabWf Cluster.reset s.clusters = true
  peers : tabWf none s.peers = true

/-- No cache of a cluster holds a copy of a line of a non-coherent range. -/
def NoCopies (cl L : Nat) (s : State) : Prop :=
  ncFind L (getCluster s cl).ncl2 = none ∧ ∀ k, k < 16 → ncFind L (getCore s (16 * cl + k)).ncl1 = none

/-- A cluster's copies of a line, its bytes in memory, and its bytes as a peer line that the module has not given up, are the
same. -/
structure SameLine (cl L : Nat) (s t : State) : Prop where
  nc2 : ncFind L (getCluster t cl).ncl2 = ncFind L (getCluster s cl).ncl2
  nc1 : ∀ k, k < 16 → ncFind L (getCore t (16 * cl + k)).ncl1 = ncFind L (getCore s (16 * cl + k)).ncl1
  mem : ∀ b, b / 128 = L → readByte t.mem b = readByte s.mem b
  peer : tabGet none t.peers L = none ∨ (tabGet none t.peers L).map (·.data) = (tabGet none s.peers L).map (·.data)

namespace SameLine
variable {cl L : Nat} {s t u : State}

theorem trans (h : SameLine cl L s t) (g : SameLine cl L t u) : SameLine cl L s u where
  nc2 := g.nc2.trans h.nc2
  nc1 k hk := (g.nc1 k hk).trans (h.nc1 k hk)
  mem b hb := (g.mem b hb).trans (h.mem b hb)
  peer := by
    rcases g.peer with e | e
    · exact .inl e
    · rcases h.peer with e' | e'
      · exact .inl (Option.map_eq_none_iff.1 (e.trans (by rw [e']; rfl)))
      · exact .inr (e.trans e')

theorem noCopies (h : SameLine cl L s t) (n : NoCopies cl L s) : NoCopies cl L t :=
  ⟨h.nc2.trans n.1, fun k hk => (h.nc1 k hk).trans (n.2 k hk)⟩

end SameLine

/-! ## Work on other lines -/

/-- Work of the caches: the harts' registers and the chunk's bytes stay, and under a condition so does a line. -/
structure Sheds (cl L : Nat) (C : Prop) (s t : State) : Prop where
  beside : sameBesideCaches s t
  bytes : t.cur.chunk.bytes = s.cur.chunk.bytes
  tables : LineTables s → LineTables t
  line : LineTables s → C → SameLine cl L s t

namespace Sheds

variable {cl L : Nat} {C D : Prop} {s t u : State}

/-- A change of fields that hold nothing of a line. -/
theorem of_eq (hb : sameBesideCaches s t) (hc : t.cur.chunk.bytes = s.cur.chunk.bytes) (cores : t.cores = s.cores)
    (clusters : t.clusters = s.clusters) (mem : t.mem = s.mem) (peers : t.peers = s.peers) : Sheds cl L C s t where
  beside := hb
  bytes := hc
  tables w := ⟨mem ▸ w.mem, cores ▸ w.cores, clusters ▸ w.clusters, peers ▸ w.peers⟩
  line _ _ := ⟨by rw [getCluster, getCluster, clusters], fun k _ => by rw [getCore, getCore, cores], fun b _ => by rw [mem],
    .inr (by rw [peers])⟩

theorem refl (s : State) : Sheds cl L C s s := of_eq rfl rfl rfl rfl rfl rfl

theorem mono (h : Sheds cl L C s t) (hd : D → C) : Sheds cl L D s t := { h with line := fun w d => h.line w (hd d) }

theorem trans (h : Sheds cl L C s t) (g : Sheds cl L D t u) (hd : C → SameLine cl L s t → D) : Sheds cl L C s u where
  beside := sameBesideCaches_trans h.beside g.beside
  bytes := g.bytes.trans h.bytes
  tables w := g.tables (h.tables w)
  line w c := (h.line w c).trans (g.line (h.tables w) (hd c (h.line w c)))

/-- Steps whose condition is of one kind, each in its own state. -/
theorem trans_or {A : Prop} (h : Sheds cl L (A ∨ NoCopies cl L s) s t) (g : Sheds cl L (A ∨ NoCopies cl L t) t u) :
    Sheds cl L (A ∨ NoCopies cl L s) s u := h.trans g fun c same => c.imp_right same.noCopies

theorem foldl_or {A : Prop} {β : Type} {f : State → β → State} {l : List β}
    (hf : ∀ s, ∀ x ∈ l, Sheds cl L (A ∨ NoCopies cl L s) s (f s x)) (s : State) :
    Sheds cl L (A ∨ NoCopies cl L s) s (l.foldl f s) := by
  induction l generalizing s with
  | nil => exact refl s
  | cons x l ih =>
    exact (hf s x List.mem_cons_self).trans_or (ih (fun s y hy => hf s y (List.mem_cons_of_mem x hy)) _)

theorem foldl {β : Type} {f : State → β → State} (hf : ∀ s x, Sheds cl L True s (f s x)) (l : List β) (s : State) :
    Sheds cl L True s (l.foldl f s) := foldl_rel refl (fun h g => h.trans g fun _ _ => trivial) hf l s

/-! ### Fields that hold nothing of a line -/

section
variable (h : Sheds cl L C s t)
include h

theorem then_ (g : Sheds cl L True t u) : Sheds cl L C s u := h.trans g fun _ _ => trivial

theorem ite {c : Prop} [Decidable c] (g : Sheds cl L C s u) : Sheds cl L C s (if c then t else u) := by split <;> assumption

theorem after (dt : Nat) (i : Due) : Sheds cl L C s (after t dt i) := h.then_ (of_eq rfl rfl rfl rfl rfl rfl)
theorem logEv (e a b : Nat) : Sheds cl L C s (logEv t e a b) := h.then_ (of_eq rfl rfl rfl rfl rfl rfl)
theorem modHbm (k : Nat) (f : Hbm → Hbm) : Sheds cl L C s (modHbm t k f) := h.then_ (of_eq rfl rfl rfl rfl rfl rfl)
theorem modDie (d : Nat) (f : Die → Die) : Sheds cl L C s (modDie t d f) := h.then_ (of_eq rfl rfl rfl rfl rfl rfl)
theorem modCoh (l : Nat) (f : LineCoh → LineCoh) : Sheds cl L C s (modCoh t l f) := h.then_ (of_eq rfl rfl rfl rfl rfl rfl)

theorem pairs (p : Tab Pair) : Sheds cl L C s { t with pairs := p } := h.then_ (of_eq rfl rfl rfl rfl rfl rfl)
theorem net (p : Tab Pair) (n : List Msg) : Sheds cl L C s { t with pairs := p, net := n } :=
  h.then_ (of_eq rfl rfl rfl rfl rfl rfl)
theorem reqs (n : Nat) (r : List Req) : Sheds cl L C s { t with nextReq := n, reqs := r } :=
  h.then_ (of_eq rfl rfl rfl rfl rfl rfl)
theorem granule (m : Memory) (g : Tab Word) (b : List Nat) : Sheds cl L C s { t with hbm := m, tags := g, badGran := b } :=
  h.then_ (of_eq rfl rfl rfl rfl rfl rfl)
theorem salvOvf (n : Nat) : Sheds cl L C s { t with salvOvf := n } := h.then_ (of_eq rfl rfl rfl rfl rfl rfl)
theorem salvAcks (l : List Nat) : Sheds cl L C s { t with salvAcks := l } := h.then_ (of_eq rfl rfl rfl rfl rfl rfl)
theorem poison (l : List Nat) : Sheds cl L C s { t with poison := l } := h.then_ (of_eq rfl rfl rfl rfl rfl rfl)

theorem modChunk {f : Chunk → Chunk} (hf : ∀ c, (f c).bytes = c.bytes) : Sheds cl L C s (modChunk t f) :=
  h.then_ (of_eq rfl (hf _) rfl rfl rfl rfl)

theorem modCore (i : Nat) {f : Core → Core} (hf : ∀ x, (f x).ncl1 = x.ncl1) : Sheds cl L C s (modCore t i f) := h.then_ {
  beside := rfl
  bytes := rfl
  tables := fun w => ⟨w.mem, modCore_wf w.cores i f, w.clusters, w.peers⟩
  line := fun w _ => ⟨rfl, fun k _ => getCore_modCore_keeps (P := fun x y => ncFind L y.ncl1 = ncFind L x.ncl1) w.cores i
    (fun _ => rfl) (fun x => by rw [hf]) _, fun _ _ => rfl, .inr rfl⟩ }

theorem modCluster (i : Nat) {f : Cluster → Cluster} (hf : ∀ x, (f x).ncl2 = x.ncl2) : Sheds cl L C s (modCluster t i f) :=
  h.then_ {
    beside := rfl
    bytes := rfl
    tables := fun w => ⟨w.mem, w.cores, modCluster_wf w.clusters i f, w.peers⟩
    line := fun w _ => ⟨getCluster_modCluster_keeps (P := fun x y => ncFind L y.ncl2 = ncFind L x.ncl2) w.clusters i
      (fun _ => rfl) (fun x => by rw [hf]) _, fun _ _ => rfl, fun _ _ => rfl, .inr rfl⟩ }

/-- A peer line that is given up, or keeps its bytes. -/
theorem putPeer (k : Nat) {p : Option PeerLine} (hp : p = none ∨ p.map (·.data) = (tabGet none t.peers k).map (·.data)) :
    Sheds cl L C s { t with peers := tabPut none t.peers k p } := h.then_ {
  beside := rfl
  bytes := rfl
  tables := fun w => ⟨w.mem, w.cores, w.clusters, tabPut_wf _ _ _ _ w.peers⟩
  line := fun w _ => by
    refine ⟨rfl, fun _ _ => rfl, fun _ _ => rfl, ?_⟩
    by_cases e : L = k
    · subst e
      simp only [tabGet_put_same _ _ _ _ w.peers]
      exact hp
    · exact .inr (by simp only [tabGet_put_other _ _ e _ w.peers]) }

/-! ### Messages and the stacks -/

theorem send (m : Msg) : Sheds cl L C s (send t m) := by
  unfold Machine.send
  exact ite (h.after _ _) (ite (h.pairs _) (h.net _ _))

theorem request (m : Msg) (harts : List Nat) : Sheds cl L C s (request t m harts) := by
  unfold Machine.request
  exact ((h.send _).reqs _ _).after _ _

theorem pageAccess (k sa : Nat) (lr : Bool) : Sheds cl L C s (pageAccess t k sa lr) := by
  unfold Machine.pageAccess
  exact ite (h.modHbm _ _) ((h.modHbm _ _).after _ _)

theorem putGranule (l td : Nat) (x : LineData) (poison lr : Bool) : Sheds cl L C s (putGranule t l td x poison lr) := by
  unfold Machine.putGranule
  exact ((h.pageAccess _ _ lr).modHbm _ _).granule _ _ _

/-- A write-back that owes nothing. -/
theorem writeBackFor (l : Nat) (lr : Bool) : Sheds cl L C s (writeBackFor t l lr .nothing) := by
  unfold Machine.writeBackFor
  exact ite h (ite (h.modHbm _ _) (h.putGranule _ _ _ _ lr))

theorem writePeer (l : Nat) (p : PeerLine) : Sheds cl L C s (writePeer t l p) := h.request _ _

theorem salvage (l : Nat) (p : PeerLine) : Sheds cl L C s (salvage t l p) := by
  unfold Machine.salvage
  exact ite (h.salvOvf _) ((((h.send _).send _).logEv _ _ _).salvAcks _)

/-! ### Lines that leave the coherent caches (R48, R97, R101, R102) -/

theorem setL1d (core l : Nat) (f : List Way → List Way) : Sheds cl L C s (setL1d t core l f) := h.modCore core fun _ => rfl
theorem setL1i (core l : Nat) (f : List Way → List Way) : Sheds cl L C s (setL1i t core l f) := h.modCore core fun _ => rfl
theorem setL2 (k l : Nat) (f : List Way → List Way) : Sheds cl L C s (setL2 t k l f) := h.modCluster k fun _ => rfl
theorem setLlc (d l : Nat) (f : List Way → List Way) : Sheds cl L C s (setLlc t d l f) := h.modDie d _

theorem dropL1d (l core : Nat) : Sheds cl L C s (dropL1d t l core) := (h.setL1d core l _).modCoh l _
theorem dropL1i (l core : Nat) : Sheds cl L C s (dropL1i t l core) := (h.setL1i core l _).modCoh l _

theorem dropL1s (l k : Nat) : Sheds cl L C s (dropL1s t l k) :=
  h.then_ (.foldl (fun u core => ((refl u).dropL1d l core).dropL1i l core) _ t)

theorem agentLoses (l k : Nat) : Sheds cl L C s (agentLoses t l k) := by
  unfold Machine.agentLoses
  exact ite (((h.dropL1s l _).setL2 _ l _).modCoh l _) ((h.setLlc _ l _).modCoh l _)

theorem dropDie (l d : Nat) (but : Option Nat) : Sheds cl L C s (dropDie t l d but) :=
  h.then_ (.foldl (fun u k => ite (refl u) ((refl u).agentLoses l k)) _ t)

/-- A dirty peer line goes to the salvage ring, or to its home. -/
theorem savePeer (l : Nat) (p : PeerLine) (m : Msg) :
    Sheds cl L C s (if p.orphan then Machine.salvage t l p else Machine.request t m []) :=
  ite (h.salvage l p) (h.request m [])

theorem tidyPeer (l : Nat) : Sheds cl L C s (tidyPeer t l) := by
  simp only [Machine.tidyPeer]
  split
  · refine ite ?_ h
    exact ((ite (h.savePeer l _ _) h).putPeer l (.inl rfl)).modCoh l _
  · exact h

end

theorem peers_ite {c : Prop} [Decidable c] (ht : t.peers = s.peers) (hu : u.peers = s.peers) :
    (if c then t else u).peers = s.peers := by split <;> assumption

theorem peers_send (s : State) (m : Msg) : (Machine.send s m).peers = s.peers := by
  unfold Machine.send
  exact peers_ite rfl (peers_ite rfl rfl)

theorem peers_savePeer (s : State) (l : Nat) (p : PeerLine) (m : Msg) :
    (if p.orphan then Machine.salvage s l p else Machine.request s m []).peers = s.peers := by
  refine peers_ite ?_ (peers_send s _)
  unfold Machine.salvage
  exact peers_ite rfl ((peers_send _ _).trans (peers_send s _))

section
variable (h : Sheds cl L C s t)
include h

theorem leaveDie (d l : Nat) : Sheds cl L C s (leaveDie t d l) := by
  have drop := h.dropDie l d none
  simp only [Machine.leaveDie]
  split
  · exact (drop.modCoh l _).after 0 _
  · split
    · exact drop
    next p hp =>
      refine ite (tidyPeer (putPeer (drop.savePeer l p _) l (.inr ?_)) l) (drop.tidyPeer l)
      simp [peers_savePeer, hp]

theorem evictLlc (d l : Nat) : Sheds cl L C s (evictLlc t d l) := by
  unfold Machine.evictLlc
  exact ite ((h.agentLoses l _).leaveDie d l) ((h.agentLoses l _).tidyPeer l)

theorem putLlc (d l hint : Nat) (st : Moesi) : Sheds cl L C s (putLlc t d l hint st) := by
  have room : Sheds cl L C s
      (if (llcWays t d l).length < 24 then t else match wayVictim (posting t) (llcWays t d l) with
        | some v => Machine.evictLlc t d v | none => t) := by
    refine ite h ?_
    split
    · exact h.evictLlc d _
    · exact h
  unfold Machine.putLlc
  exact ite ((h.setLlc d l _).modCoh l _) (ite ((room.setLlc d l _).modCoh l _) room)

theorem evictM (k l : Nat) : Sheds cl L C s (evictM t k l) := by
  have moved := (h.agentLoses l (clKey k)).putLlc (k / 8) l (wayHint t k l) (cacheSt (getCoh t l) (clKey k))
  unfold Machine.evictM
  exact ite (ite (moved.leaveDie (k / 8) l) moved) h

end

end Sheds

end Sys2Proof.Machine
end

