-- ==== Sys2Proof/Proofs/WriteFrame.lean ====
section
/-!
PROOFS. What the bytes that a member puts into its chunk leave as it was (R97, R118, R135): the copies of a non-coherent range that
leave make way for other lines only.
-/

namespace Sys2Proof.Machine

open Sys2Proof.Safety

/-! ## Lists of copies (R135) -/

theorem ncFind_line {l : Nat} {t : List NcLine} {x : NcLine} (h : ncFind l t = some x) : x.line = l := by
  simpa using List.find?_some h

/-- Among the copies of other lines than `v`, those of `L` are found as before. -/
theorem find?_ncDrop {v L : Nat} (h : v ≠ L) (t : List NcLine) : ncFind L (t.filter fun y => y.line != v) = ncFind L t := by
  rw [ncFind, ncFind, List.find?_filter]
  congr 1
  funext y
  by_cases e : y.line = L <;> simp [e, Ne.symm h]

theorem ncFind_ncDrop {v L : Nat} (h : v ≠ L) (t : List NcLine) : ncFind L (ncDrop v t) = ncFind L t := find?_ncDrop h t

theorem ncFind_ncSet {x : NcLine} {L : Nat} (h : x.line ≠ L) (t : List NcLine) : ncFind L (ncSet x t) = ncFind L t := by
  rw [ncSet, ncFind, List.find?_append, ← ncFind, find?_ncDrop h]
  simp [h]

theorem ncFind_ncDrop_none {v L : Nat} {t : List NcLine} (h : ncFind L t = none) : ncFind L (ncDrop v t) = none := by
  simp only [ncFind, ncDrop, List.find?_eq_none] at *
  exact fun x hx => h x (List.mem_filter.1 hx).1

/-! ## Copies that are put and that go -/

namespace Sheds

variable {cl L : Nat} {C : Prop} {s t : State} (h : Sheds cl L C s t)
include h

/-- A change of a core's copies of ranges that is none of a line's. -/
theorem modNc1 (i : Nat) {f : Core → Core} (hf : C → ∀ x, ncFind L (f x).ncl1 = ncFind L x.ncl1) :
    Sheds cl L C s (Machine.modCore t i f) :=
  h.trans (D := C) {
    beside := rfl
    bytes := rfl
    tables := fun w => ⟨w.mem, modCore_wf w.cores i f, w.clusters, w.peers⟩
    line := fun w c => ⟨rfl, fun _ _ => getCore_modCore_keeps (P := fun x y => ncFind L y.ncl1 = ncFind L x.ncl1) w.cores i
      (fun _ => rfl) (hf c) _, fun _ _ => rfl, .inr rfl⟩ } fun c _ => c

/-- The same of a cluster's. -/
theorem modNc2 (i : Nat) {f : Cluster → Cluster} (hf : C → ∀ x, ncFind L (f x).ncl2 = ncFind L x.ncl2) :
    Sheds cl L C s (Machine.modCluster t i f) :=
  h.trans (D := C) {
    beside := rfl
    bytes := rfl
    tables := fun w => ⟨w.mem, w.cores, modCluster_wf w.clusters i f, w.peers⟩
    line := fun w c => ⟨getCluster_modCluster_keeps (P := fun x y => ncFind L y.ncl2 = ncFind L x.ncl2) w.clusters i
      (fun _ => rfl) (hf c) _, fun _ _ => rfl, fun _ _ => rfl, .inr rfl⟩ } fun c _ => c

theorem ncPut (i lvl : Nat) {x : NcLine} (hx : C → x.line ≠ L) : Sheds cl L C s (ncPut t i lvl x) := by
  unfold Machine.ncPut
  exact ite (h.modNc1 _ fun c y => ncFind_ncSet (hx c) y.ncl1) (ite (h.modNc2 _ fun c y => ncFind_ncSet (hx c) y.ncl2) h)

theorem ncRemove (i lvl : Nat) {v : Nat} (hv : C → v ≠ L) : Sheds cl L C s (ncRemove t i lvl v) := by
  unfold Machine.ncRemove
  exact ite (h.modNc1 _ fun c y => ncFind_ncDrop (hv c) y.ncl1) (ite (h.modNc2 _ fun c y => ncFind_ncDrop (hv c) y.ncl2) h)

/-- Bytes of another line written in memory. -/
theorem mergeMem {v : Nat} (d : LineData) (m : LineMask) (hv : C → v ≠ L) : Sheds cl L C s (mergeMem t v d m) :=
  h.trans (D := C) {
    beside := rfl
    bytes := rfl
    tables := fun w => ⟨writeBytes_wf _ _ _ _ w.mem, w.cores, w.clusters, w.peers⟩
    line := fun w c => ⟨rfl, fun _ _ => rfl, fun b hb => readByte_writeBytes_other 128 _ _ _ _ w.mem (by have := hv c; omega),
      .inr rfl⟩ } fun c _ => c

/-- Bytes that go home past the caches for no hart. -/
theorem ncHome {v : Nat} (d : LineData) (m : LineMask) (lr : Bool) (hv : C → v ≠ L) :
    Sheds cl L C s (ncHome t noHart v d m lr) := by
  have own : Sheds cl L C s
      (Machine.mergeMem (if m = BitVec.allOnes 128 then { t with poison := t.poison.filter (· != v) } else t) v d m) :=
    (ite (h.poison _) h).mergeMem d m hv
  simp only [Machine.ncHome, ne_eq, not_true_eq_false, false_and, if_false]
  exact ite (own.writeBackFor v lr) (ite h (h.request _ _))

theorem ncUp (i k : Nat) {v : Nat} (hv : C → v ≠ L) : Sheds cl L C s (ncUp t i noHart k v) := by
  simp only [Machine.ncUp]
  split
  next x hx =>
    have line (j : Nat) (u : State) (y : NcLine) (hy : ncCopy u i j v = some y) : y.line = v := by
      simp only [ncCopy] at hy
      split at hy
      · exact ncFind_line hy
      · split at hy
        · exact ncFind_line hy
        · simp at hy
    have clean := h.ncPut i k (x := { x with dirty := 0 }) fun c => (line k t x hx).symm ▸ hv c
    refine ite clean ?_
    split
    next y hy => exact clean.ncPut i _ fun c => (line (k + 1) _ y hy).symm ▸ hv c
    next => exact ite (clean.ncPut i 1 hv) (clean.ncHome _ _ false hv)
  next => exact h

end Sheds

/-! ## Copies that leave -/

section
variable {cl L : Nat} {A : Prop} {s : State}

/-- A copy of a range leaves an L1 cache of the cluster. -/
theorem evictNc1_sheds {v core : Nat} (hv : A → v ≠ L) (hc : core / 16 = cl) :
    Sheds cl L (A ∨ NoCopies cl L s) s (evictNc1 s core v) := by
  have other : Sheds cl L (v ≠ L) s (evictNc1 s core v) := by
    unfold evictNc1
    exact ((Sheds.refl s).ncUp _ 0 id).ncRemove _ 0 id
  by_cases e : v = L
  · refine { other with line := fun w c => ?_ }
    obtain ⟨-, n1⟩ := c.resolve_left fun a => hv a e
    have at_ : coreOf (8 * core) = core := by simp [coreOf]
    have none1 : ncCopy s (8 * core) 0 v = none := by
      have place : core = 16 * cl + core % 16 := by omega
      rw [ncCopy, if_pos rfl, at_, e, place]
      exact n1 _ (Nat.mod_lt _ (by decide))
    have gone : evictNc1 s core v = modCore s core fun c => { c with ncl1 := ncDrop v c.ncl1 } := by
      rw [evictNc1, ncUp, none1, ncRemove, if_pos rfl, at_]
    rw [gone]
    refine ⟨rfl, fun j hj => ?_, fun _ _ => rfl, .inr rfl⟩
    rw [getCore_modCore w.cores]
    split
    next e2 => rw [← e2, n1 j hj]; exact ncFind_ncDrop_none (n1 j hj)
    next => rfl
  · exact other.mono fun _ => e

/-- A copy of a range leaves the cluster cache. -/
theorem evictNc2_sheds {v : Nat} (hv : A → v ≠ L) : Sheds cl L (A ∨ NoCopies cl L s) s (evictNc2 s cl v) := by
  unfold evictNc2
  split
  next x hx =>
    have other : Sheds cl L (v ≠ L) s (modCluster s cl fun c => { c with ncl2 := ncDrop v c.ncl2 }) :=
      (Sheds.refl s).modNc2 cl fun h y => ncFind_ncDrop h y.ncl2
    refine (other.ite (other.ncHome _ _ false id)).mono fun c e => ?_
    rcases c with a | n
    · exact hv a e
    · exact absurd n.1 (by rw [← e, hx]; simp)
  next => exact .refl s

theorem evictL2_sheds {v : Nat} (hv : A → v ≠ L) : Sheds cl L (A ∨ NoCopies cl L s) s (evictL2 s cl v) := by
  have below : Sheds cl L (A ∨ NoCopies cl L s) s
      (((List.range 16).map (· + 16 * cl)).foldl (fun s core => evictNc1 s core v) s) := by
    refine .foldl_or (fun s core hc => evictNc1_sheds hv ?_) s
    obtain ⟨k, hk, rfl⟩ := List.mem_map.1 hc
    have := List.mem_range.1 hk
    omega
  have copies := below.trans_or (evictNc2_sheds hv)
  unfold evictL2
  exact (copies.evictM cl v).ite ((copies.agentLoses v _).tidyPeer v)

theorem evictL1d_sheds {v core : Nat} (hv : A → v ≠ L) (hc : core / 16 = cl) :
    Sheds cl L (A ∨ NoCopies cl L s) s (evictL1d s core v) := (evictNc1_sheds hv hc).dropL1d v core

/-! ## Ways of the caches (R47, R50) -/

/-- The line that makes room is one of the set. -/
theorem wayVictim_mem {stays : Nat → Bool} {ws : List Way} {v : Nat} (h : wayVictim stays ws = some v) :
    ∃ w ∈ ws, w.line = v := by
  simp only [wayVictim] at h
  obtain ⟨w, hw, rfl⟩ := Option.map_eq_some_iff.1 h
  have from_ : w ∈ ws.reverse.filter fun w => !stays w.line := by
    rcases (Option.orElse_eq_some _ _ _).1 hw with hw | ⟨-, hw⟩
    · exact List.mem_of_find?_eq_some hw
    · exact List.mem_of_mem_head? hw
  exact ⟨w, by simpa using (List.mem_filter.1 from_).1, rfl⟩

/-- A line that a set does not hold does not make room in it. -/
theorem ne_of_not_any {ws : List Way} {l v : Nat} (h : ¬ ws.any (·.line == l) = true) (hv : ∃ w ∈ ws, w.line = v) :
    v ≠ l := by
  obtain ⟨w, hw, rfl⟩ := hv
  exact fun e => h (List.any_eq_true.2 ⟨w, hw, by simpa using e⟩)

/-- A line of the own range is given a way of the cluster cache: what leaves is another line. -/
theorem wayL2_sheds {l : Nat} (hint : Nat) (own : Bool) (hl : A → L = l) :
    Sheds cl L (A ∨ NoCopies cl L s) s (wayL2 s cl l hint own) := by
  simp only [wayL2]
  split
  · exact (Sheds.refl s).setL2 cl l _
  next hn =>
    have room : Sheds cl L (A ∨ NoCopies cl L s) s (if (l2Ways s cl l).length < l2Room s cl l then s
        else match wayVictim (writtenIn s cl) (l2Ways s cl l) with | some v => evictL2 s cl v | none => s) := by
      refine (Sheds.refl s).ite ?_
      split
      next v hv => exact evictL2_sheds fun a => hl a ▸ ne_of_not_any hn (wayVictim_mem hv)
      next => exact .refl s
    exact (room.setL2 cl l _).ite room

/-- A set of an L1 data cache makes room for a line. -/
theorem roomL1d_sheds {l core : Nat} (hl : A → L = l) (hc : core / 16 = cl)
    (hn : ¬ (l1dWays s core l).any (·.line == l) = true) :
    Sheds cl L (A ∨ NoCopies cl L s) s (if (l1dWays s core l).length < 8 then s
      else match wayVictim (writtenIn s (core / 16)) (l1dWays s core l) <|> (l1dWays s core l).getLast?.map (·.line) with
        | some v => evictL1d s core v
        | none => s) := by
  refine (Sheds.refl s).ite ?_
  split
  next v hv =>
    refine evictL1d_sheds (fun a => hl a ▸ ne_of_not_any hn ?_) hc
    rcases (Option.orElse_eq_some _ _ _).1 hv with hv | ⟨-, hv⟩
    · exact wayVictim_mem hv
    · obtain ⟨w, hw, e⟩ := Option.map_eq_some_iff.1 hv
      exact ⟨w, List.mem_of_getLast? hw, e⟩
  next => exact .refl s

theorem useL1d_sheds {l core : Nat} (hint : Nat) (own : Bool) (hl : A → L = l) (hc : core / 16 = cl) :
    Sheds cl L (A ∨ NoCopies cl L s) s (useL1d s core l hint own) := by
  simp only [useL1d]
  split
  · exact ((Sheds.refl s).setL1d core l _).modCoh l _
  next hn =>
    exact (Sheds.refl s).ite (((roomL1d_sheds hl hc hn).setL1d core l _).modCoh l _)

theorem useL1Nc_sheds {l core : Nat} (hint : Nat) (hl : A → L = l) (hc : core / 16 = cl) :
    Sheds cl L (A ∨ NoCopies cl L s) s (useL1Nc s core l hint) := by
  simp only [useL1Nc]
  split
  · exact (Sheds.refl s).setL1d core l _
  next hn => exact (Sheds.refl s).ite ((roomL1d_sheds hl hc hn).setL1d core l _)

theorem ncWays_sheds {h l : Nat} (lvl hint : Nat) (hl : A → L = l) (hc : clusterOf h = cl) :
    Sheds cl L (A ∨ NoCopies cl L s) s (ncWays s h lvl l hint) := by
  have core : coreOf h / 16 = cl := by simp only [coreOf, clusterOf] at *; omega
  have l2 : Sheds cl L (A ∨ NoCopies cl L s) s (if lvl ≤ 1 then wayL2 s (clusterOf h) l hint true else s) :=
    .ite (hc.symm ▸ wayL2_sheds hint true hl) (.refl s)
  unfold ncWays
  exact (l2.trans_or (useL1Nc_sheds hint hl core)).ite l2

theorem soleL1_sheds (core l : Nat) (tile : Bool) : Sheds cl L True s (soleL1 s core l tile) := by
  refine .foldl (fun u c => ?_) _ s
  have code : Sheds cl L True u (if cacheSt (getCoh u l) (l1iKey c) == .i then u else dropL1i u l c) :=
    (Sheds.refl u).ite ((Sheds.refl u).dropL1i l c)
  exact code.ite (code.dropL1d l c)

/-- Lines leave a set of the cluster cache; where the line in question may be one of them, no copy of it is lost. -/
theorem fitL2_sheds (l : Nat) (hA : ¬ A) : Sheds cl L (A ∨ NoCopies cl L s) s (fitL2 s cl l) := by
  refine .foldl_or (fun u _ _ => ?_) s
  refine (Sheds.refl u).ite ?_
  split
  · exact evictL2_sheds fun a => absurd a hA
  · exact .refl u

/-! ## The bytes of a member (R97, R118, R135) -/

/-- What follows the bytes themselves: marks and ways. A line of a range stays where it is itself the one written. -/
theorem putAcc_sheds (s : State) (tile : Bool) (x : Acc) (n v : Nat) (L : Nat) :
    let A := x.lvl ≠ none ∧ L = x.pa / 128
    let u := modChunk s fun c => putBytes c x.pa v n
    Sheds (clusterOf s.curId) L (A ∨ NoCopies (clusterOf s.curId) L u) u (putAcc s tile x n v) := by
  intro A u
  simp only [putAcc]
  split
  next k hk =>
    exact (ncWays_sheds _ _ (fun a : A => a.2) rfl).modChunk fun _ => rfl
  next hk =>
    have hA : ¬ A := fun a => a.1 hk
    have core : coreOf s.curId / 16 = clusterOf s.curId := by simp only [coreOf, clusterOf]; omega
    have marked : Sheds (clusterOf s.curId) L (A ∨ NoCopies (clusterOf s.curId) L u) u (markWrite u (x.pa / 128)) :=
      (Sheds.refl u).modChunk fun _ => rfl
    have sole (tile : Bool) := marked.then_ (soleL1_sheds (coreOf s.curId) (x.pa / 128) tile)
    have fit {t : State} (h : Sheds (clusterOf s.curId) L (A ∨ NoCopies (clusterOf s.curId) L u) u t) :
        Sheds (clusterOf s.curId) L (A ∨ NoCopies (clusterOf s.curId) L u) u (fitL2 t (clusterOf t.curId) (x.pa / 128)) := by
      rw [sameBesideCaches_curId h.beside]
      exact h.trans_or (fitL2_sheds _ hA)
    refine fit (Sheds.ite ?_ ?_)
    · exact (sole _).modChunk fun _ => rfl
    · exact (sole _).trans_or (useL1d_sheds _ _ (fun a => absurd a hA) core)

end

end Sys2Proof.Machine
end

