-- ==== Sys2Proof/Proofs/Stores.lean ====
section
/-!
PROOFS. Stores and release stores: what a write inside one line puts where the hart reads it, and what it leaves (R118, R134,
R135, R140, R269 to R271, R422).
-/

namespace Sys2Proof.Machine

open Sys2Proof.Safety

/-! ## The bytes of a line that stays (R7, R102, R126, R127) -/

theorem lineDev_div (b : Nat) : lineDev (b / 128) = devOf b := by unfold lineDev devOf; omega

theorem readBytes_congr {m m' : Memory} (n a : Nat) (h : ∀ b, a ≤ b → b < a + n → readByte m b = readByte m' b) :
    readBytes m a n = readBytes m' a n := by
  induction n generalizing a with
  | zero => rfl
  | succ n ih => rw [readBytes, readBytes, h a (by omega) (by omega), ih (a + 1) fun b _ _ => h b (by omega) (by omega)]

section
variable {s t : State} {L : Nat} (beside : sameBesideCaches s t) (same : SameLine (clusterOf s.curId) L s t)
include beside same

theorem committedLine_same (here : lineDev L = s.dev ∨ tabGet none t.peers L ≠ none) :
    committedLine t L = committedLine s L := by
  unfold committedLine
  rw [sameBesideCaches_dev beside]
  split
  · exact congrArg (BitVec.ofNat 1024) (readBytes_congr 128 (L * 128) fun b _ _ => same.mem b (by omega))
  next home =>
    have kept := here.resolve_left home
    have data := same.peer.resolve_left kept
    cases hs : tabGet none s.peers L <;> cases ht : tabGet none t.peers L <;> simp_all

theorem ncData_same (k : Nat) (here : lineDev L = s.dev ∨ tabGet none t.peers L ≠ none) :
    ncData t t.curId k L = ncData s s.curId k L := by
  have id := sameBesideCaches_curId beside
  have home : homeLine t t.curId L = homeLine s s.curId L := by
    unfold homeLine getHart
    simp only [if_true, sameBesideCaches_got beside, committedLine_same beside same here]
  have copy (k : Nat) : ncCopy t t.curId k L = ncCopy s s.curId k L := by
    unfold ncCopy
    have core : coreOf s.curId = 16 * clusterOf s.curId + coreOf s.curId % 16 := by unfold coreOf clusterOf; omega
    rw [id, same.nc2, core, same.nc1 _ (Nat.mod_lt _ (by decide))]
  unfold ncData
  rw [home]
  simp only [copy]

end

theorem committedByte_same {s t : State} {b : Nat} (beside : sameBesideCaches s t)
    (same : SameLine (clusterOf s.curId) (b / 128) s t) (lvl : Option Nat)
    (here : devOf b = s.dev ∨ tabGet none t.peers (b / 128) ≠ none) : committedByte t lvl b = committedByte s lvl b := by
  rw [← lineDev_div] at here
  cases lvl with
  | some k => exact congrArg (lineByte · (b % 128)) (ncData_same beside same k here)
  | none =>
    unfold committedByte
    simp only [sameBesideCaches_dev beside, committedLine_same beside same here, same.mem b rfl]

namespace Sheds
variable {s t : State}

theorem specByte {cl L : Nat} {C : Prop} (h : Sheds cl L C s t) (b : Nat) : specByte t.cur b = specByte s.cur b := by
  have mine : chunkByte t.cur.chunk b = chunkByte s.cur.chunk b := by unfold chunkByte chunkLine; rw [h.bytes]
  simp only [Machine.specByte, List.findSome?_cons, mine, sameBesideCaches_inflight h.beside]

theorem byteAt {b : Nat} {C : Prop} (h : Sheds (clusterOf s.curId) (b / 128) C s t) (w : LineTables s) (c : C)
    (lvl : Option Nat) (here : devOf b = s.dev ∨ tabGet none t.peers (b / 128) ≠ none) :
    byteAt t lvl b = byteAt s lvl b := by
  unfold Machine.byteAt
  rw [h.specByte, committedByte_same h.beside (h.line w c) lvl here]

end Sheds

/-! ## A write inside one line (R118, R135) -/

section
variable {s : State} {x : Acc} {n v : Nat} (fits : x.pa % 128 + n ≤ 128)
include fits

/-- The bytes put into the chunk are what the hart then reads, and work on other lines leaves them, and every other byte. -/
theorem wroteBytes_of_sheds {t : State}
    (h : ∀ L, Sheds (clusterOf s.curId) L
      ((x.lvl ≠ none ∧ L = x.pa / 128) ∨ NoCopies (clusterOf s.curId) L (modChunk s fun c => putBytes c x.pa v n))
      (modChunk s fun c => putBytes c x.pa v n) t) : wroteBytes s t x n v := by
  have put (b : Nat) := specByte_putBytes s.cur x.pa v n b fits
  refine ⟨sameBesideCaches_trans (t := modChunk s fun c => putBytes c x.pa v n) rfl (h 0).beside, fun lvl b hb => ?_,
    fun lvl b hb ⟨mem, cores, clusters, peers, here⟩ copies => ?_⟩
  · have spec : specByte t.cur b = _ := ((h 0).specByte b).trans ((put b).trans (if_pos hb))
    rw [byteAt, spec]; rfl
  · have kept := Sheds.byteAt (s := modChunk s fun c => putBytes c x.pa v n) (h (b / 128)) ⟨mem, cores, clusters, peers⟩
      copies.symm lvl here
    rw [kept, byteAt, byteAt, committedByte_modChunk]
    exact congrArg (Option.getD · _) ((put b).trans (if_neg hb))

/-- A write that has reached its line and has room is made (R49, R118, R267). -/
theorem writeLine_wrote {s1 u : State} {use : Use} {a : Word} (window : windowOf s1 x.pa = none)
    (reached : reach s1 use x (byteMask x.pa n) a = (u, .val ())) (room : hasRoomFor u x) :
    ∃ t, writeLine s1 false use x n v a = (t, .val ()) ∧ wroteBytes u t x n v := by
  have free : roomFor u false (if x.lvl.isNone then [x.pa / 128] else []) = .free := by
    cases hl : x.lvl with
    | none => exact room hl
    | some k => rfl
  have sheds (L : Nat) := putAcc_sheds u false x n v L
  refine ⟨if n = 128 then clearLine (putAcc u false x n v) (x.pa / 128) else putAcc u false x n v, ?_, ?_⟩
  · simp only [writeLine, Acc.forTile, window, reached, withRoom, free, Option.isSome_none, Bool.false_eq_true, if_false]
  · refine wroteBytes_of_sheds fits fun L => Sheds.ite ?_ (sheds L)
    exact (sheds L).modChunk fun _ => rfl

end

/-! ## The store instructions (R269, R270, R422) -/

section
variable {c : Ctl} {s s1 u : State} {use : Use} {ctl : Bool} {n v : Nat} {a : Word} {x : Acc}

theorem windowOf_noteUsed (s : State) (p : Option (Nat × Nat)) (pa : Nat) : windowOf (noteUsed s p) pa = windowOf s pa := by
  cases p <;> rfl

/-- A member that has reached its line writes the bytes of its value. -/
theorem writeLine_wrote_of_reaches (h : reaches s use (scalarReq .store n ctl a) a x s1 u) (room : hasRoomFor u x) :
    ∃ t, writeLine (noteUsed s1 x.used) false use x n v a = (t, .val ()) ∧ wroteBytes u t x n v := by
  obtain ⟨-, -, window, fits, reached⟩ := h
  exact writeLine_wrote fits window reached room

/-- A store that is a member retires with its bytes written. -/
theorem plain_store (g : guarded c s) {addr : State → Word} {val : State → Nat} (ha : addr (openChunk s) = a)
    (hv : val (openChunk s) = v) (h : reaches (openChunk s) use (scalarReq .store n ctl a) a x s1 u) (room : hasRoomFor u x) :
    ∃ t, plain c s (fun t => storeAs t use ctl n (addr t) (val t) .ok) = .next (retire c t) ∧ wroteBytes u t x n v := by
  obtain ⟨t, written, wrote⟩ := writeLine_wrote_of_reaches (v := v) h room
  obtain ⟨translated, outside, -⟩ := h
  refine ⟨t, ?_, wrote⟩
  rw [plain_run g, ha, hv]
  simp only [storeAs, translated, outside, Bool.false_eq_true, if_false]
  rw [thenDo_val written, finish_ok]

/-- A store to the control region writes its register once the older members have committed. -/
theorem plain_store_control (g : guarded c s) {w : Word} {addr : State → Word} {val : State → Nat}
    (ha : addr (openChunk s) = a) (hv : val (openChunk s) = w.toNat)
    (translated : translate (openChunk s) (whoCur s) (scalarReq .store n ctl a) a = (s1, .val x))
    (inside : isControl (offOf x.pa) = true) (idle : isDrained s1 = true) :
    plain c s (fun t => storeAs t use ctl n (addr t) (val t) .ok) =
      finishes (ctlWrite s1 (s1.cur.arch.mode == .m) (offOf x.pa) w) := by
  rw [plain_run g, ha, hv]
  simp only [storeAs, whoCur_openChunk, translated, inside, if_true]
  rw [drained_run idle, BitVec.ofNat_toNat, BitVec.setWidth_eq, next_finish_fin]

end

/-! ## Release stores (R134, R135, R140, R271) -/

section
variable {c : Ctl} {rs rb : GReg} {sz : Size} {sc : Scope} {off : BitVec 20} {s s1 u : State} {x : Acc}

/-- The address and the value of a release store stand in the registers before it. -/
theorem strlBody_of_translate {t : State}
    (translated : translate s (whoCur s) (scalarReq .store sz.bytes false (eaM s.cur.arch rb off)) (eaM s.cur.arch rb off) =
      (t, .val x)) (window : windowOf t x.pa = none) :
    strlBody s rs rb sz sc off =
      let a := eaM s.cur.arch rb off
      let low := (gOf s rs).toNat % 2 ^ (8 * sz.bytes)
      if sc = .sys then releaseSys t fun t lost => strlWrite (endDrain t lost) x sc sz.bytes low a
      else if x.lvl.isSome || owesNc t then released t fun t => strlWrite t x sc sz.bytes low a
      else thenDo (writeLine (noteUsed t x.used) false .store x sz.bytes low a) fun t _ => .ok t := by
  rw [strlBody, thenDo_val translated]
  simp only [window, Option.isSome_none, Bool.false_eq_true, if_false]

/-- On coherent memory, with nothing to await, it is an ordinary member below system scope. -/
theorem strl_member (g : guarded c s) (hsc : sc ≠ .sys) (coherent : x.lvl = none) (owes : owesNc s1 = false)
    {a : Word} (ha : a = gOf s rb + off.signExtend 64)
    (h : reaches (openChunk s) .store (scalarReq .store sz.bytes false a) a x s1 u) (room : hasRoomFor u x) :
    ∃ t, exec (.strl c rs rb sz sc off) s = .next (retire c t) ∧
      wroteBytes u t x sz.bytes ((gOf s rs).toNat % 2 ^ (8 * sz.bytes)) := by
  obtain ⟨t, written, wrote⟩ := writeLine_wrote_of_reaches (v := (gOf s rs).toNat % 2 ^ (8 * sz.bytes)) h room
  obtain ⟨translated, -, window, -⟩ := h
  rw [ha, ← eaM_openChunk] at translated written
  refine ⟨t, ?_, wrote⟩
  rw [exec_strl, execStrl, if_neg hsc, plain_run g, strlBody_of_translate translated ((windowOf_noteUsed _ _ _).symm.trans window)]
  simp only [hsc, coherent, owes, gOf_openChunk, Option.isSome_none, Bool.or_self, Bool.false_eq_true, if_false]
  rw [thenDo_val written, finish_ok]

/-- What the store of a release comes to once the release is complete: in a range at the level of its scope. -/
def storesReleased (v : State) (x : Acc) (sc : Scope) (n low : Nat) (a : Word) (u w : State) : Prop :=
  match x.lvl with
  | some k => reach v .store { x with lvl := some (actLevel sc k) } (byteMask x.pa n) a = (u, .val ()) ∧
    w = writeAtLevel u sc x k n low
  | none => writeLine v false .store x n low a = (u, .val ()) ∧ w = commitOpen u

theorem strlWrite_of_storesReleased {v w : State} {n low : Nat} {a : Word} (h : storesReleased v x sc n low a u w) :
    strlWrite v x sc n low a = .fin w := by
  rcases x with ⟨pa, td, _ | k, used⟩
  · obtain ⟨done, rfl⟩ := h
    exact thenDo_val done fun t _ => .fin (commitOpen t)
  · obtain ⟨done, rfl⟩ := h
    exact thenDo_val done fun t _ => .fin (writeAtLevel t sc _ k n low)

section
variable {w : State} {a : Word} (g : guarded c s) (ha : a = gOf s rb + off.signExtend 64)
  (translated : translate (openChunk s) (whoCur s) (scalarReq .store sz.bytes false a) a = (s1, .val x))
  (window : windowOf s1 x.pa = none) (idle : isDrained s1 = true)
include g ha translated window idle

/-- In a range, or with stores to await, it acts once the older members have committed and nothing is awaited. -/
theorem strl_late (hsc : sc ≠ .sys) (acked : s1.cur.ncWait = []) (late : x.lvl ≠ none ∨ owesNc s1 = true)
    (stored : storesReleased s1 x sc sz.bytes ((gOf s rs).toNat % 2 ^ (8 * sz.bytes)) a u w) :
    exec (.strl c rs rb sz sc off) s = finishes w := by
  rw [ha, ← eaM_openChunk, ← whoCur_openChunk] at translated
  rw [ha, ← eaM_openChunk] at stored
  have late : (x.lvl.isSome || owesNc s1) = true := by simpa [Option.isSome_iff_ne_none] using late
  rw [exec_strl, execStrl, if_neg hsc, plain_run g, strlBody_of_translate translated window]
  simp only [hsc, late, gOf_openChunk, if_false, if_true]
  rw [released, drained_run idle, acked, List.isEmpty_nil, if_pos rfl, strlWrite_of_storesReleased stored, next_finish_fin]

/-- At system scope it acts once the drain of R140 has ended. -/
theorem strl_system {s2 : State} {lost : List Nat} (hsc : sc = .sys) (begun : isDrained s = true)
    (drain : systemDrain s1 = (s2, some lost)) (acked : s2.cur.ncWait = [])
    (stored : storesReleased (endDrain s2 lost) x sc sz.bytes ((gOf s rs).toNat % 2 ^ (8 * sz.bytes)) a u w) :
    exec (.strl c rs rb sz sc off) s = finishes w := by
  rw [ha, ← eaM_openChunk, ← whoCur_openChunk] at translated
  rw [ha, ← eaM_openChunk] at stored
  rw [exec_strl, execStrl, if_pos hsc]
  refine serial_fin g ⟨begun, rfl⟩ ?_
  rw [strlBody_of_translate translated window]
  simp only [hsc, gOf_openChunk, if_true]
  rw [releaseSys, drained_run idle, drain]
  simp only [acked, List.isEmpty_nil, Bool.not_true, Bool.false_eq_true, if_false]
  rw [strlWrite_of_storesReleased (hsc ▸ stored)]

end

end

/-! ## O9 -/

/-- Settles O9: the stores as members of their chunk, those to the control region, and the release stores at their scope. -/
theorem storesWriteExactlyTheirBytes : Obligations.StoresWriteExactlyTheirBytes := by
  intro c rs rb rx sz off sh sc s s1 u x g
  have value : (gOf (openChunk s) rs).toNat = (gOf s rs).toNat := by rw [gOf_openChunk]
  have pair : (gOf (openChunk s) rs).toNat % 2 ^ (8 * sz.bytes) +
        (gOf (openChunk s) (rs + 1)).toNat % 2 ^ (8 * sz.bytes) * 2 ^ (8 * sz.bytes) =
      (gOf s rs).toNat % 2 ^ (8 * sz.bytes) + 2 ^ (8 * sz.bytes) * ((gOf s (rs + 1)).toNat % 2 ^ (8 * sz.bytes)) := by
    rw [gOf_openChunk, gOf_openChunk, mul_comm (_ % _)]
  have offset := eaM_openChunk s rb off
  have index := eaX_openChunk s rb rx sh
  simp only [exec_st, exec_stx, exec_stp, exec_czero]
  refine ⟨plain_store g offset value, plain_store g index value, plain_store g offset pair, plain_store g offset rfl,
    plain_store_control g offset value, plain_store_control g index value,
    fun hsc coherent owes => strl_member g hsc coherent owes rfl, fun w translated window idle acked => ⟨?_, ?_⟩⟩
  · exact fun hsc late => strl_late g rfl translated window idle hsc acked late
  · exact fun s2 lost hsc begun drain acked => strl_system g rfl translated window idle hsc begun drain acked

end Sys2Proof.Machine
end

