-- ==== Sys2Proof/Proofs/Decoding.lean ====
section
/-!
PROOFS. The decoder and the encoder: decoding undoes encoding, and gives well-formed instructions only.
-/

namespace Sys2Proof.Laws.RoundTrip
open Sys2Proof.Machine

/-! ## The families of `RoundTrip`, for every instruction -/

/-- A word's fields decode to the instruction that they encode; no other row has fields. -/
theorem statement (i : Instr) : Statement i := by
  cases i with
  | add => apply add | sub => apply sub | mul => apply mul | mulh => apply mulh | mulhu => apply mulhu
  | madd => apply madd | div => apply div | divu => apply divu | rem => apply rem | remu => apply remu
  | and => apply and | or => apply or | xor => apply xor | andn => apply andn | orn => apply orn
  | sll => apply sll | srl => apply srl | sra => apply sra | rol => apply rol | ror => apply ror
  | min => apply min | max => apply max | minu => apply minu | maxu => apply maxu | clz => apply clz
  | ctz => apply ctz | popc => apply popc | bswap => apply bswap | sext => apply sext | zext => apply zext
  | bfx => apply bfx | bfi => apply bfi | addsh => apply addsh | sel => apply sel | cmp => apply cmp
  | plog => apply plog | fadd => apply fadd | fsub => apply fsub | fmul => apply fmul | fma => apply fma
  | fdiv => apply fdiv | fsqrt => apply fsqrt | fmin => apply fmin | fmax => apply fmax | fcmp => apply fcmp
  | fcvt => apply fcvt | fclass => apply fclass | addi => apply addi | andi => apply andi | ori => apply ori
  | xori => apply xori | slli => apply slli | srli => apply srli | srai => apply srai | muli => apply muli
  | cmpi => apply cmpi | li => apply li | lui => apply lui | lpc => apply lpc | br => apply br
  | call => apply call | callr => apply callr | jr => apply jr | ret => apply ret | ld => apply ld
  | st => apply st | ldx => apply ldx | stx => apply stx | lda => apply lda | strl => apply strl
  | ldp => apply ldp | stp => apply stp | prf => apply prf | amo => apply amo | cas => apply cas
  | casp => apply casp | fence => apply fence | sysfence => apply sysfence | cwb => apply cwb
  | cinv => apply cinv | cwbi => apply cwbi | czero => apply czero | epush => apply epush
  | epop => apply epop | epeek => apply epeek | mst => apply mst | mamo => apply mamo | mseq => apply mseq
  | vld => apply vld | vst => apply vst | vlds => apply vlds | vsts => apply vsts | vldx => apply vldx
  | vstx => apply vstx | vldseg => apply vldseg | vstseg => apply vstseg | vldb => apply vldb
  | vldf => apply vldf | vadd => apply vadd | vsub => apply vsub | vmul => apply vmul | vmulh => apply vmulh
  | vmadd => apply vmadd | vaddsat => apply vaddsat | vsubsat => apply vsubsat | vmin => apply vmin
  | vmax => apply vmax | vabs => apply vabs | vand => apply vand | vor => apply vor | vxor => apply vxor
  | vandn => apply vandn | vshl => apply vshl | vshr => apply vshr | vsra => apply vsra | vcmp => apply vcmp
  | vsel => apply vsel | vpopc => apply vpopc | vfadd => apply vfadd | vfsub => apply vfsub
  | vfmul => apply vfmul | vfma => apply vfma | vfdiv => apply vfdiv | vfsqrt => apply vfsqrt
  | vfmin => apply vfmin | vfmax => apply vfmax | vfcmp => apply vfcmp | vfabs => apply vfabs
  | vfneg => apply vfneg | vrcp => apply vrcp | vrsqrt => apply vrsqrt | vexp2 => apply vexp2
  | vlog2 => apply vlog2 | vsin => apply vsin | vcos => apply vcos | vtanh => apply vtanh
  | vcvt => apply vcvt | vwiden => apply vwiden | vnarrow => apply vnarrow | vpack => apply vpack
  | vunpack => apply vunpack | vredadd => apply vredadd | vredmin => apply vredmin | vredmax => apply vredmax
  | vfredadd => apply vfredadd | vfredmax => apply vfredmax | vscan => apply vscan | vperm => apply vperm
  | vslide => apply vslide | vrot => apply vrot | vzip => apply vzip | vunzip => apply vunzip
  | vcompress => apply vcompress | vexpand => apply vexpand | vbcast => apply vbcast | vins => apply vins
  | vext => apply vext | vdot4 => apply vdot4 | vhist => apply vhist | vhmerge => apply vhmerge
  | vsortk => apply vsortk | vmask => apply vmask | tcfg => apply tcfg | tzero => apply tzero
  | tld => apply tld | tst => apply tst | tldd => apply tldd | tstd => apply tstd | tqst => apply tqst
  | tmma => apply tmma | tmmat => apply tmmat | tadd => apply tadd | tscale => apply tscale
  | tcvt => apply tcvt | ttrans => apply ttrans | tmov => apply tmov | trow => apply trow
  | trowi => apply trowi | tred => apply tred | trel => apply trel | tinfo => apply tinfo
  | tsave => apply tsave | trest => apply trest | qcclr => apply qcclr | qcrd => apply qcrd
  | qcwr => apply qcwr | spawn => apply spawn | spawng => apply spawng | exit => apply exit
  | task => apply task | taskw => apply taskw | waitc => apply waitc | bara => apply bara
  | barw => apply barw | barinit => apply barinit | yield => apply yield | uiret => apply uiret
  | uien => apply uien | csrr => apply csrr | csrw => apply csrw | csrs => apply csrs | csrc => apply csrc
  | ecall => apply ecall | ebreak => apply ebreak | sret => apply sret | mret => apply mret
  | wfi => apply wfi | tlbinv => apply tlbinv | tlbinvAs => apply tlbinvAs | tlbinvall => apply tlbinvall
  | slotcfg => apply slotcfg | vsavectx => apply vsavectx | vrestctx => apply vrestctx
  | chunkbrk => apply chunkbrk | halt => apply halt
  | _ => exact none_of rfl

end Sys2Proof.Laws.RoundTrip

namespace Sys2Proof
open Sys2Proof.Machine

/-- The encoder writes one word for the instructions that have fields, and their word packs them. -/
theorem encodeF_of_encode {i : Instr} {w : Word} (h : encode i = [w]) : ∃ x, encodeF i = some x ∧ w = pack x := by
  unfold encode at h
  split at h
  iterate 11 simp at h
  split at h
  · next x hx => exact ⟨x, hx, (List.cons.inj h).1.symm⟩
  · simp at h

/-! ## What the decoder answers is well formed -/

/-- An answer of a part of the decoder, if any, is a well-formed instruction. -/
def Sound (o : Option Instr) : Prop := ∀ i, o = some i → i.wf = true

@[simp] theorem sound_none : Sound none := fun _ h => nomatch h

@[simp] theorem sound_ifOk (ok : Bool) (i : Instr) : Sound (ifOk ok i) := by
  intro j h
  unfold ifOk at h
  split at h
  · next ok => exact Option.some.inj h ▸ (Bool.and_eq_true_iff.mp ok).2
  · cases h

@[simp] theorem sound_withF {α : Type} (o : Option α) (k : α → Option Instr) :
    Sound (withF o k) ↔ ∀ x, o = some x → Sound (k x) := by
  cases o <;> simp [withF]

@[simp] theorem sound_ite (p : Prop) [Decidable p] (a b : Option Instr) :
    Sound (if p then a else b) ↔ if p then Sound a else Sound b := by
  split <;> rfl

theorem sound_decodeScalar (x : Fields) : Sound (decodeScalar x) := by
  unfold decodeScalar
  dsimp only
  split <;> simp

theorem sound_decodeImm (x : Fields) : Sound (decodeImm x) := by
  unfold decodeImm
  dsimp only
  split <;> simp

theorem sound_decodeMem (x : Fields) : Sound (decodeMem x) := by
  unfold decodeMem
  dsimp only
  split <;> simp

theorem sound_decodeVmem (x : Fields) : Sound (decodeVmem x) := by
  unfold decodeVmem
  rw [sound_withF]
  intro v _
  split <;> simp

theorem sound_decodeVec (x : Fields) : Sound (decodeVec x) := by
  unfold decodeVec
  dsimp only
  split <;> simp

theorem sound_decodeVec2 (x : Fields) : Sound (decodeVec2 x) := by
  unfold decodeVec2
  dsimp only
  split <;> simp

theorem sound_decodeTile (x : Fields) : Sound (decodeTile x) := by
  unfold decodeTile
  dsimp only
  split <;> simp

theorem sound_decodeSys (x : Fields) : Sound (decodeSys x) := by
  unfold decodeSys
  dsimp only
  split <;> simp

theorem sound_decodeF (x : Fields) : Sound (decodeF x) := by
  unfold decodeF
  split <;> simp [sound_decodeScalar, sound_decodeImm, sound_decodeMem, sound_decodeVmem, sound_decodeVec, sound_decodeVec2,
    sound_decodeTile, sound_decodeSys]

/-! ## Commands of the copy engine -/

/-- A command decodes by the code in its first word, and encodes as its words. -/
theorem decodeCmd_of_wf {h : Nat} {d : Cmd} {i : Instr} (ok : i.wf = true)
    (mem : i ∈ [Instr.copy h d, .copy2d h d, .gather h d, .scatter h d, .fill h d, .rowcopy h d, .rowinit h d, .mcopy h d,
      .shload h d, .save h d, .restore h d]) :
    decodeCmd h d = some i ∧ encode i = [d.d0, d.d1, d.d2, d.d3, d.d4, d.d5, d.d6, d.d7] := by
  simp only [List.mem_cons, List.not_mem_nil, or_false] at mem
  rcases mem with rfl | rfl | rfl | rfl | rfl | rfl | rfl | rfl | rfl | rfl | rfl <;>
  · have code := eq_of_beq (Bool.and_eq_true_iff.mp ok).2
    refine ⟨?_, rfl⟩
    unfold decodeCmd
    rw [code]
    rfl

/-- Settles O56: the families of `RoundTrip` for every instruction, the codes of the commands, and the checks with which each
part of the decoder ends. -/
theorem decodingUndoesEncoding : Obligations.DecodingUndoesEncoding := by
  refine ⟨fun i w ok enc => ?_, fun h d i ok mem => decodeCmd_of_wf ok mem, fun w i dec => sound_decodeF _ i dec⟩
  obtain ⟨x, fields, rfl⟩ := encodeF_of_encode enc
  rw [decode, unpack_pack]
  exact Laws.RoundTrip.statement i x fields ok

end Sys2Proof
end

