-- ==== Sys2Proof/Proofs/EngineWindow.lean ====
section
/-!
PROOFS. The engine-window instructions: a push, a pop and a peek as serialising instructions after the check of the window.
-/

namespace Sys2Proof.Machine
open Sys2Proof.Safety

/-- A serialising instruction whose body waits is executed again when the wait is over. -/
theorem serial_wait {c : Ctl} {s u v : State} {w : Stall} (h : guarded c s) (hu : commitsTo s u) {body : State → Eff}
    (hb : body u = .wait w v) : serial c s body = .next (stallOn w v) := by
  rw [serial, serialThen_run h hu, hb]; rfl

/-- A release takes effect at once where nothing of the hart is left to commit or to be acknowledged (R134). -/
theorem released_run {s : State} (idle : isDrained s = true) (acked : s.cur.ncWait = []) (k : State → Eff) :
    released s k = k s := by
  rw [released, drained_run idle, acked, List.isEmpty_nil, if_pos rfl]

/-- The instruction waits for the engine, or traps with FIFO where no command in flight could end the wait (R65). -/
theorem serial_fifo {c : Ctl} {s u t : State} {w : Stall} {a : Word} (g : guarded c s) (hu : commitsTo s u)
    {body : State → Eff} (hb : body u = if infl t.cur = 0 then .trap { code := cFifo, tval := a } t else .wait w t) :
    serial c s body = if infl t.cur = 0 then traps u t 0x0C a 0 else .next (stallOn w t) := by
  by_cases idle : infl t.cur = 0
  · rw [if_pos idle] at hb ⊢
    exact (serial_trap g hu hb).trans (congrArg _ rfl)
  · rw [if_neg idle] at hb ⊢
    exact serial_wait g hu hb

/-- A delivered command enters the FIFO with what the engine records of its pusher (R69). -/
theorem pushCommand_free {t : State} (free : freeEntries t.cur ≠ 0) (idle : isDrained t = true) (acked : t.cur.ncWait = [])
    (d : Cmd) (a : Word) :
    pushCommand t d a = .ok (updHart t fun x => { x with fifo := { x.fifo with
      cmds := x.fifo.cmds ++ [.new d x.arch.asid x.arch.mode x.arch.ptroot] } }) := by
  rw [pushCommand, if_neg free, released_run idle acked]

/-- Settles O12: each instruction is serialising, and after the check of the window acts on the FIFOs of the hart. -/
theorem engineWindowInstructionsAct : Obligations.EngineWindowInstructionsAct := by
  intro c rs rd rb off s u t x g hu
  simp only [exec_epush, exec_epop, exec_epeek]
  refine ⟨fun win free idle acked => ?_, fun win full => ?_, fun r rest win recs => ?_, fun win recs => ?_, fun win => ?_⟩
  · exact ⟨_, _, serial_ok g hu ((thenDo_val win _).trans (pushCommand_free free idle acked _ _)), rfl, rfl, rfl, rfl, rfl,
      rfl, rfl, congrArg (fun r => Cmd.mk (gOf u r) _ _ _ _ _ _ _) (BitVec.add_zero rs)⟩
  · exact serial_fifo g hu ((thenDo_val win _).trans (if_pos full))
  · refine serial_ok g hu ((thenDo_val win _).trans ?_)
    simp only [recs]
    rfl
  · refine serial_fifo g hu ((thenDo_val win _).trans ?_)
    simp only [recs]
    rfl
  · exact ⟨_, serial_ok g hu (thenDo_val win _), rfl⟩

end Sys2Proof.Machine
end

