-- ==== Sys2Proof/Proofs/SpecialFunctions.lean ====
section
/-!
PROOFS. The special functions: lanes with flags, the request to the unit, and the special inputs of R306.
-/

namespace Sys2Proof.Machine
open Sys2Proof.Safety

/-! ## Lanes with flags (R184, R289) -/

/-- A flag is in a union when it is in one of the sets. -/
theorem getLsbD_unionFlags (l : List Flags) (k : Nat) : (unionFlags l).getLsbD k = l.any (·.getLsbD k) := by
  have fold (a : Flags) : (l.foldl (· ||| ·) a).getLsbD k = (a.getLsbD k || l.any (·.getLsbD k)) := by
    induction l generalizing a with
    | nil => simp
    | cons x l ih => rw [List.foldl_cons, ih, BitVec.getLsbD_or, List.any_cons, Bool.or_assoc]
  rw [unionFlags, fold]; simp

section
variable {t : VType} {m : VMask} {f : Nat → Nat × Flags}

/-- The result of an active lane. -/
theorem laneResults_getD {s : State} {p : PReg} {i : Nat} (hi : i < 512 / t.width) (on : laneOn s t.width p i = true) :
    (laneResults s t p f).getD i (0, 0) = f i := by
  have hi : i < t.lanes := (width_dvd t).2.2 ▸ hi
  simp only [laneResults, List.getD_eq_getElem?_getD, List.getElem?_map, List.getElem?_range hi, Option.map_some, Option.getD_some]
  exact if_pos on

/-- The union that an instruction raises is that of its active lanes. -/
theorem isUnion_laneResults (s : State) (p : PReg) :
    isUnion s t.width p f (unionFlags ((laneResults s t p f).map (·.2))) := by
  intro k _
  simp only [getLsbD_unionFlags, laneResults, List.any_map, List.any_eq_true, List.mem_range, (width_dvd t).2.2]
  refine exists_congr fun i => and_congr_right fun _ => ?_
  show (Prod.snd (if laneOn s t.width p i = true then f i else (0, 0))).getLsbD k = true ↔ _
  split <;> simp_all

/-- The lanes that an instruction writes hold the results of the active ones. -/
theorem lanesBecome_laneResults (s : State) (m : VMask) (vd : VReg) :
    lanesBecome s t.width m vd
      (mergeLanes t.width (pOf s m.mask) m.zm (vOf s vd) fun i => ((laneResults s t m.mask f).getD i (0, 0)).1)
      fun i => (f i).1 := by
  intro i hi
  rw [lane_mergeLanes _ _ _ _ hi]
  show (if laneOn s t.width m.mask i = true then _ else _) = _
  split
  · next on => rw [laneResults_getD hi on]
  · rfl

/-- A body that writes the rounded lanes of v[vd]: it raises the union of their flags, or traps with FP_EXC. -/
theorem writesFpLanes_of_body {c : Ctl} {s : State} (g : guarded c s) (vd : VReg) {body : State → Eff}
    (hb : body (openChunk s) = fpLanes (openChunk s) t m f fun u l => putLanes u t m vd l) :
    writesFpLanes c m t.width vd id s (plain c s body) f := by
  have results : laneResults (openChunk s) t m.mask f = laneResults s t m.mask f := by simp only [laneResults, pOf_openChunk]
  rw [plain_run g, hb, fpLanes, results]
  refine ⟨_, isUnion_laneResults s m.mask, fun quiet => ⟨_, ⟨_, rfl, lanesBecome_laneResults s m vd⟩, ?_⟩, fun loud => ?_⟩
  · rw [withFlags_quiet ((quietFlags_openChunk s _).2 quiet), finish_ok, retires, ← pOf_openChunk s, ← vOf_openChunk s]
    rfl
  · rw [withFlags_trap (mt (quietFlags_openChunk s _).1 loud), finish_trap]
    rfl

end

/-! ## The request to the unit (R74) -/

/-- A request joins the queue of the unit of the hart's cluster, and the instruction waits for the result. -/
def askSfu (s : State) : State :=
  updHart (modCluster s (clusterOf s.curId) fun k => { k with sfuQ := k.sfuQ ++ [s.curId] }) fun x => { x with sfu := some false }

section
variable {s : State} {k : State → Eff}

theorem sfuRequest_returned (h : s.cur.sfu = some true) : sfuRequest s k = k s := by simp only [sfuRequest, h]

theorem sfuRequest_new (h : s.cur.sfu = none)
    (room : ((getCluster s (clusterOf s.curId)).sfuQ.filter (· == s.curId)).length < 8 ∧
      (getCluster s (clusterOf s.curId)).sfuQ.length < 64) : sfuRequest s k = .wait .sfu (askSfu s) := by
  simp only [sfuRequest, h]
  rw [if_neg (by omega)]
  rfl

theorem sfuRequest_full (h : s.cur.sfu = none)
    (full : ¬ (((getCluster s (clusterOf s.curId)).sfuQ.filter (· == s.curId)).length < 8 ∧
      (getCluster s (clusterOf s.curId)).sfuQ.length < 64)) : sfuRequest s k = .wait .commit s := by
  simp only [sfuRequest, h]
  rw [if_pos (by omega)]

end

/-- What O19 says of each special function: once the result has returned it writes its lanes; it asks for it where the queue
has room; else it waits at issue. -/
theorem special_acts {c : Ctl} {s : State} (g : guarded c s) (m : VMask) (rm : RMode) (vd va : VReg) (f : FVal → FVal × Flags) :
    let cl := clusterOf s.curId
    let q := (getCluster s cl).sfuQ
    let room : Prop := (q.filter (· == s.curId)).length < 8 ∧ q.length < 64
    let a := s.cur.arch
    let o := special c m rm vd va f s
    (s.cur.sfu = some true → writesFpLanes c m 32 vd id s o fun i =>
      fmtF32.finish (rm.resolve a.fcsr) (fzOf a) false (f (fmtF32.read (fzOf a) (lane 32 (vOf s va) i)))) ∧
    (s.cur.sfu = none → room → ∃ t, o = .next (stallOn .sfu t) ∧ t.cur.sfu = some false ∧ t.cur.arch = a ∧
      t.clusters = tabMod Cluster.reset s.clusters cl fun k => { k with sfuQ := k.sfuQ ++ [s.curId] }) ∧
    (s.cur.sfu = none → ¬ room → o = .next (stallOn .commit (openChunk s))) := by
  have queue : getCluster (openChunk s) (clusterOf (openChunk s).curId) = getCluster s (clusterOf s.curId) := by
    simp only [getCluster, openChunk_clusters, openChunk_curId]
  refine ⟨fun back => ?_, fun new room => ⟨askSfu (openChunk s), ?_, rfl, openChunk_arch s, ?_⟩, fun new full => ?_⟩
  · refine writesFpLanes_of_body (t := .f32) g vd ?_
    rw [sfuRequest_returned ((openChunk_cur_sfu s).trans back)]
    simp only [vVal, vBits, openChunk_arch, vOf_openChunk]
    rfl
  · rw [special, plain_run g, sfuRequest_new ((openChunk_cur_sfu s).trans new) (by rwa [queue, openChunk_curId]), finish_wait]
  · simp only [askSfu, updHart_clusters, modCluster, openChunk_clusters, openChunk_curId]
  · rw [special, plain_run g, sfuRequest_full ((openChunk_cur_sfu s).trans new) (by rwa [queue, openChunk_curId]), finish_wait]

/-! ## The special inputs (R306) -/

/-- Every special function gives the canonical NaN for a NaN, and raises NV for a signalling one. -/
theorem special_nan (sig : Bool) {f : FVal → FVal × Flags}
    (h : f ∈ [spRcp, spRsqrt, spExp2, spLog2, spSin, spCos, spTanh]) : f (.nan sig) = (.nan false, if sig then flNV else 0) := by
  simp only [List.mem_cons, List.not_mem_nil, or_false] at h
  rcases h with rfl | rfl | rfl | rfl | rfl | rfl | rfl <;> cases sig <;> rfl

/-- Settles O19: the frame of the special functions, and their values at zeros, infinities, NaNs and negative operands. -/
theorem specialFunctionsWriteTheirLanes : Obligations.SpecialFunctionsWriteTheirLanes := by
  refine ⟨fun c m rm vd va s g => ⟨special_acts g m rm vd va spRcp, special_acts g m rm vd va spRsqrt,
    special_acts g m rm vd va spExp2, special_acts g m rm vd va spLog2, special_acts g m rm vd va spSin,
    special_acts g m rm vd va spCos, special_acts g m rm vd va spTanh⟩, fun neg e m pos => ?_, fun sig f => special_nan sig⟩
  have pos : m ≠ 0 := by omega
  have rsqrt : spRsqrt (.fin true m e) = (.nan false, flNV) := (if_neg pos).trans (if_pos rfl)
  have log2 : spLog2 (.fin true m e) = (.nan false, flNV) := (if_neg pos).trans (if_pos rfl)
  exact ⟨by cases neg <;> rfl, by cases neg <;> rfl, rfl, rsqrt, rfl, rfl, rfl, rfl, log2, rfl, rfl, rfl, rfl, rfl, rfl, rfl, rfl⟩

end Sys2Proof.Machine
end

