-- ==== Sys2Proof/Proofs/TileHandles.lean ====
section
/-!
PROOFS. Tile handles: the checks of a configuration, the tile of zeros that it maps, release, and the instructions that write
or describe a handle.
-/

namespace Sys2Proof.Machine
open Sys2Proof.Safety

/-! ## Elements of a blank tile (R179, R327) -/

/-- Every digit of a number whose digits are all the same is that digit. -/
theorem digit_repeat {b D : Nat} (small : D < b) : ∀ {n j : Nat}, j < n → (∑ k ∈ Finset.range n, b ^ k) * D / b ^ j % b = D
  | n + 1, 0, _ => by
    rw [geom_sum_succ, pow_zero, Nat.div_one, Nat.add_mul, one_mul, mul_assoc, Nat.mul_add_mod, Nat.mod_eq_of_lt small]
  | n + 1, j + 1, h => by
    have drop : (b * ∑ k ∈ Finset.range n, b ^ k) * D + D = b * ((∑ k ∈ Finset.range n, b ^ k) * D) + D := by ring
    rw [geom_sum_succ, Nat.add_mul, one_mul, drop, pow_succ', ← Nat.div_div_eq_div_mul, Nat.mul_add_div (by omega),
      Nat.div_eq_of_lt small, Nat.add_zero, digit_repeat small (by omega)]

/-- A number of n equal digits is below the n-th power of its base. -/
theorem repeat_lt {b D : Nat} (small : D < b) (n : Nat) : (∑ k ∈ Finset.range n, b ^ k) * D < b ^ n := by
  induction n with
  | zero => simp
  | succ n ih =>
    have step : b ^ n * D + b ^ n ≤ b ^ n * b := by rw [← Nat.mul_succ]; exact Nat.mul_le_mul_left _ small
    rw [Finset.sum_range_succ, add_mul, pow_succ]
    omega

/-- The elements of a row whose value is a number of equal digits. -/
theorem elemCode_repeat {w m D j v : Nat} (small : D < 2 ^ w) (hj : j < m) (fits : w * m ≤ 2048)
    (value : v = (∑ k ∈ Finset.range m, (2 ^ w) ^ k) * D) : elemCode (BitVec.ofNat 2048 v) w j = D := by
  have below : v < 2 ^ 2048 := by
    calc v < (2 ^ w) ^ m := value ▸ repeat_lt small m
      _ = 2 ^ (w * m) := (pow_mul ..).symm
      _ ≤ 2 ^ 2048 := Nat.pow_le_pow_right (by omega) fits
  rw [elemCode, BitVec.toNat_ofNat, Nat.mod_eq_of_lt below, Nat.shiftRight_eq_div_pow, pow_mul, value, digit_repeat small hj]

/-- The bytes of ones of a row (R55). -/
theorem ones_eq (n : Nat) : (2 ^ (8 * n) - 1) / 255 = ∑ k ∈ Finset.range n, 256 ^ k := by
  rw [Nat.geomSum_eq (by omega), pow_mul]; norm_num

/-- The same as half-bytes. -/
theorem ones_halfBytes (n : Nat) : 17 * ∑ k ∈ Finset.range n, 256 ^ k = ∑ k ∈ Finset.range (2 * n), 16 ^ k := by
  induction n with
  | zero => rfl
  | succ n ih =>
    rw [Finset.sum_range_succ, mul_add, ih, Nat.mul_succ, Finset.sum_range_succ, Finset.sum_range_succ, pow_succ, pow_mul]
    norm_num
    omega

/-- Every element of a row of zero elements reads as zero. -/
theorem zeroRow_isZero (f : TFmt) {n j : Nat} (hn : n ≤ 256) (hj : j < 8 * n / f.width) :
    (readElem f false (elemCode (zeroRow f n) f.width j)).1.isZero = true := by
  have code (D : Nat) (h : elemCode (zeroRow f n) f.width j = D) (zero : (readElem f false D).1.isZero = true) :
      (readElem f false (elemCode (zeroRow f n) f.width j)).1.isZero = true := h ▸ zero
  cases f with
  | dpt8 =>
    refine code 8 (elemCode_repeat (m := n) (by decide) (by simp [TFmt.width] at hj; omega) (by simp [TFmt.width]; omega) ?_) rfl
    rw [ones_eq, mul_comm]; rfl
  | spt4 =>
    refine code 7 (elemCode_repeat (m := 2 * n) (by decide) (by simp [TFmt.width] at hj; omega) (by simp [TFmt.width]; omega) ?_) rfl
    rw [ones_eq, show (2 ^ TFmt.width .spt4 : Nat) = 16 from rfl, ← ones_halfBytes]
    simp only [zeroByte]; ring
  | _ => exact code 0 (by simp [zeroRow, zeroByte, elemCode]) rfl

/-! ## What the handle operations leave as it was -/

section
variable {s : State} {h : THandle}

@[simp] theorem noteShared_arch (b : Bool) : (noteShared s h b).cur.arch = s.cur.arch := by
  unfold noteShared; split <;> rfl
@[simp] theorem noteShared_curId (b : Bool) : (noteShared s h b).curId = s.curId := by
  unfold noteShared; split <;> rfl
@[simp] theorem noteShared_nextPhys (b : Bool) : (noteShared s h b).nextPhys = s.nextPhys := by
  unfold noteShared; split <;> rfl
@[simp] theorem noteShared_clusters (b : Bool) : (noteShared s h b).clusters = s.clusters := by
  unfold noteShared; split <;> rfl
@[simp] theorem noteShared_harts (b : Bool) : (noteShared s h b).harts = s.harts := by
  unfold noteShared; split <;> rfl
/-- A handle of the hart alone is in no other hart's reach: nothing is noted (R222). -/
theorem noteShared_priv (p : h.priv = true) (b : Bool) : noteShared s h b = s := if_pos p

@[simp] theorem tileAt_noteShared (g : THandle) (b : Bool) : tileAt (noteShared s h b) g = tileAt s g := by
  simp only [tileAt, getShared, getCluster, curCluster, handleKey, noteShared_arch, noteShared_curId, noteShared_clusters]

@[simp] theorem giveUp_arch : (giveUp s h).cur.arch = s.cur.arch := by
  unfold giveUp
  dsimp only
  split
  · split <;> rfl
  · rfl

/-- A step of a shared handle stands among the operations left to the commit (R62). -/
theorem stepShared_spec (x : Option Tile) :
    (stepShared s h x).cur.arch = s.cur.arch ∧
      ∃ ver, CommitOp.shStep (clusterOf s.curId) (8 * s.cur.arch.asid + (h.toNat - 16)) ver x ∈ (stepShared s h x).cur.chunk.ops :=
  ⟨noteShared_arch false, _, List.mem_append_right _ (List.mem_singleton_self _)⟩

end

/-! ## Configuration (R58, R59, R62, R327) -/

/-- The state from which a forced configuration starts: nothing is mapped. -/
def unforced (force : Bool) (s : State) : State := if force then updArch s fun a => { a with tiles := [] } else s

section
variable {s : State} {h : THandle} {t : Tile} {force : Bool} {k : State → Eff}

theorem configure_busy (busy : inUse s h = true) : configure s h false t k = .trap (handleTrap cBusy h) s := by
  simp [configure, busy]

theorem configure_wait
    (busy : ((liveOps s (curCluster s)).any (fun p => p.hart == s.curId) || (!h.priv && inUse s h)) = true) :
    configure s h true t k = .wait .commit s := if_pos (by simpa using busy)

/-- A handle that is free, or becomes free by force. -/
theorem configure_free (free : (if force then (liveOps s (curCluster s)).any (fun p => p.hart == s.curId) || (!h.priv && inUse s h)
      else inUse s h) = false) :
    configure s h force t k =
      if h.priv then
        let s2 := mapHandle (unforced force s) h t
        if privateFits (archUse s2 s.curId s2.cur.arch) (othersUse s (curCluster s)) then k s2 else .trap (handleTrap cFull h) s
      else if 2048 < (sharedUse s (curCluster s)).1 + t.units ∨ 128 < (sharedUse s (curCluster s)).2 + 1 then
        .trap (handleTrap cFull h) s
      else k (stepShared (unforced force s) h (some t)) := by
  cases force
  · have free : inUse s h = false := free
    rw [configure]
    simp only [free, Bool.false_and, Bool.not_false, Bool.and_false, Bool.false_eq_true, if_false, unforced]
  · have free : (liveOps s (curCluster s)).any (fun p => p.hart == s.curId) = false ∧ (!h.priv && inUse s h) = false :=
      Bool.or_eq_false_iff.mp free
    rw [configure]
    simp only [free.1, free.2, Bool.or_self, Bool.and_false, Bool.false_eq_true, if_false, Bool.not_true, Bool.false_and, unforced,
      if_true]

end

@[simp] theorem unforced_arch (force : Bool) (s : State) :
    (unforced force s).cur.arch = { s.cur.arch with tiles := if force then [] else s.cur.arch.tiles } := by
  cases force <;> rfl
@[simp] theorem unforced_nextPhys (force : Bool) (s : State) : (unforced force s).nextPhys = s.nextPhys := by
  cases force <;> rfl
@[simp] theorem unforced_clusters (force : Bool) (s : State) : (unforced force s).clusters = s.clusters := by
  cases force <;> rfl
@[simp] theorem unforced_curId (force : Bool) (s : State) : (unforced force s).curId = s.curId := by
  cases force <;> rfl

/-- The registers of a hart that maps a handle of its own to a tile in a new physical tile (R56). -/
def mapped (force : Bool) (s : State) (h : THandle) (t : Tile) : Arch :=
  { s.cur.arch with
    tiles := tabPut none (if force then [] else s.cur.arch.tiles) h.toNat (some t)
    phys := tabPut 0 s.cur.arch.phys h.toNat s.nextPhys }

theorem mapHandle_unforced_arch (force : Bool) (s : State) (h : THandle) (t : Tile) :
    (mapHandle (unforced force s) h t).cur.arch = mapped force s h t := by
  simp only [mapHandle, updArch_arch, unforced_arch, unforced_nextPhys, mapped]

/-- What a hart takes of its own pool depends on the cluster alone. -/
theorem archUse_congr {s u : State} (h : u.clusters = s.clusters) (i : Nat) (a : Arch) : archUse u i a = archUse s i a := by
  simp only [archUse, leftOf, liveOps, getCluster, h]

section
variable {s : State} {h : THandle} {t : Tile} {force : Bool} {k : State → Eff}

/-- A handle of the hart alone is configured where the pool has room. -/
theorem configure_private (p : h.priv = true)
    (free : (if force then (liveOps s (curCluster s)).any (fun p => p.hart == s.curId) || (!h.priv && inUse s h)
      else inUse s h) = false) :
    configure s h force t k =
      if privateFits (archUse s s.curId (mapped force s h t)) (othersUse s (curCluster s)) then k (mapHandle (unforced force s) h t)
      else .trap (handleTrap cFull h) s := by
  have same : (mapHandle (unforced force s) h t).clusters = s.clusters := unforced_clusters force s
  rw [configure_free free, if_pos p]
  simp only [archUse_congr same, mapHandle_unforced_arch]

/-- A shared handle is configured where the area has room; the step is left to the commit. -/
theorem configure_shared (p : h.priv = false)
    (free : (if force then (liveOps s (curCluster s)).any (fun p => p.hart == s.curId) || (!h.priv && inUse s h)
      else inUse s h) = false) :
    configure s h force t k =
      if 2048 < (sharedUse s (curCluster s)).1 + t.units ∨ 128 < (sharedUse s (curCluster s)).2 + 1 then
        .trap (handleTrap cFull h) s
      else k (stepShared (unforced force s) h (some t)) := by
  rw [configure_free free, if_neg (by simp [p])]

end

/-! ## Values of a handle (R56, R57, R61) -/

section
variable {s u : State} {h : THandle} {t : Tile}

/-- A new value of a handle, in a state with the registers of `s`. -/
theorem putTile_becomes (arch : u.cur.arch = s.cur.arch) (id : u.curId = s.curId) (phys : u.nextPhys = s.nextPhys) :
    tileBecomes s (putTile u h t) h t 0 := by
  have flags : { s.cur.arch with fcsr := s.cur.arch.fcsr ||| BitVec.setWidth 64 (0 : Flags) } = s.cur.arch := by simp
  unfold tileBecomes putTile
  rw [flags]
  by_cases p : h.priv = true
  · rw [if_pos p, if_pos p]
    refine ⟨?_, congrArg (· + 1) phys⟩
    simp only [modChunk_cur_arch, mapHandle, updArch_arch, arch, phys]
  · rw [if_neg p, if_neg p]
    refine ⟨(noteShared_arch false).trans arch, (getShared u (curCluster u) (handleKey u h)).steps, ?_⟩
    rw [← id, ← arch]
    exact List.mem_append_right _ (List.mem_singleton_self _)

/-- Whether a handle has a new value is a matter of the hart's registers and of the operations left to its commit. -/
theorem tileBecomes_congr {v : State} {fl : Flags} (cur : v.cur = u.cur) (phys : v.nextPhys = u.nextPhys)
    (h1 : tileBecomes s u h t fl) : tileBecomes s v h t fl := by
  unfold tileBecomes at h1 ⊢
  rwa [cur, phys]

theorem putFrom_becomes (src : THandle) (arch : u.cur.arch = s.cur.arch) (id : u.curId = s.curId) (phys : u.nextPhys = s.nextPhys) :
    tileBecomes s (putFrom u h src t) h t 0 := by
  have put : tileBecomes s (putTile u h t) h t 0 := putTile_becomes arch id phys
  unfold putFrom
  dsimp only
  split
  · exact tileBecomes_congr rfl rfl put
  · exact put

/-- What a rename leaves of a state: the mappings that the cluster has given to the hart are its own now (R57). -/
def takeRename (s : State) : State :=
  modCluster s (curCluster s) fun c => { c with renames := c.renames.filter fun r => r.1 != s.curId }

/-- An instruction that can be renamed goes on, and leaves the registers as they are. -/
theorem renamed_run {n : Nat} (r : renames s h n) (k : State → Eff) :
    ∃ u, renamed s h n k = k u ∧ u.cur = s.cur ∧ u.curId = s.curId ∧ u.nextPhys = s.nextPhys := by
  unfold renamed
  by_cases p : h.priv = true
  · rw [if_neg (by simp [p])]
    refine ⟨takeRename s, if_pos ?_, rfl, rfl, rfl⟩
    rcases r p with ⟨m, le, mem⟩ | fits
    · rw [Bool.or_eq_true]
      exact .inl (List.any_eq_true.2 ⟨_, mem, by simpa using le⟩)
    · rw [Bool.or_eq_true]
      exact .inr fits
  · rw [if_pos (by simp [p])]
    exact ⟨s, rfl, rfl, rfl, rfl⟩

/-- What is noted of a shared handle leaves what the harts hold of the reserve. -/
theorem renameHeld_noteShared (b : Bool) : renameHeld (noteShared s h b) = renameHeld s := by
  funext i
  have cur : (noteShared s h b).cur.chunk.ops = s.cur.chunk.ops ∧ (noteShared s h b).cur.inflight = s.cur.inflight := by
    unfold noteShared
    split
    · exact ⟨rfl, rfl⟩
    · refine ⟨?_, rfl⟩
      dsimp only [modChunk_chunk]
      split <;> rfl
  have hart : (getHart (noteShared s h b) i).inflight = (getHart s i).inflight ∧
      (getHart (noteShared s h b) i).chunk.ops = (getHart s i).chunk.ops := by
    simp only [getHart, noteShared_curId, noteShared_harts]
    split
    · exact ⟨cur.2, cur.1⟩
    · exact ⟨rfl, rfl⟩
  simp only [renameHeld, liveOps, getCluster, noteShared_clusters, List.flatMap_append, hart.1, List.flatMap_cons, hart.2]

theorem reserveUse_noteShared (b : Bool) (cl : Nat) : reserveUse (noteShared s h b) cl = reserveUse s cl := by
  simp only [reserveUse, hartsOf, hartIds, getCluster, noteShared_curId, noteShared_clusters, noteShared_harts, renameHeld_noteShared]

theorem modCluster_noteShared (b : Bool) (cl : Nat) (f : Cluster → Cluster) :
    modCluster (noteShared s h b) cl f = noteShared (modCluster s cl f) h b := by
  unfold noteShared; split <;> rfl

theorem renames_noteShared {n : Nat} (g : THandle) (b : Bool) (r : renames s h n) : renames (noteShared s g b) h n := by
  unfold renames at r ⊢
  simpa only [modCluster_noteShared, reserveUse_noteShared, noteShared_curId, getCluster, noteShared_clusters] using r

end

/-! ## The word of TINFO (R329) -/

/-- The fields of a word of packed parts, lowest first: rows, row bytes, format and four marks, and the scale. -/
theorem infoParts {r b f d p q s : Nat} (hr : r < 64) (hb : b < 4) (hf : f < 16) (hd : d < 2) (hp : p < 2) (hq : q < 2)
    (hs : s < 256) {w : Word}
    (hw : w = w64 (s * 2 ^ 16 + 2 ^ 15 + q * 2 ^ 14 + p * 2 ^ 13 + d * 2 ^ 12 + f * 2 ^ 8 + b * 2 ^ 6 + r)) :
    field 5 0 w = r ∧ field 7 6 w = b ∧ field 11 8 w = f ∧ w.getLsbD 12 = decide (d = 1) ∧ w.getLsbD 13 = decide (p = 1) ∧
      w.getLsbD 14 = decide (q = 1) ∧ w.getLsbD 15 = true ∧ field 23 16 w = s := by
  have value : w.toNat = s * 2 ^ 16 + 2 ^ 15 + q * 2 ^ 14 + p * 2 ^ 13 + d * 2 ^ 12 + f * 2 ^ 8 + b * 2 ^ 6 + r := by
    rw [hw, w64, BitVec.toNat_ofNat, Nat.mod_eq_of_lt (by omega)]
  have bit (k : Nat) : w.getLsbD k = decide (w.toNat / 2 ^ k % 2 = 1) := by
    rw [← BitVec.testBit_toNat, Nat.testBit_eq_decide_div_mod_eq]
  simp only [field, bit, value, Nat.shiftRight_eq_div_pow, decide_eq_decide, decide_eq_true_eq]
  omega

/-- The word of TINFO describes a tile of a shape that a handle can have (R55, R329). -/
theorem infoWord_fields (h : THandle) {y : Tile} (rows : 1 ≤ y.rows ∧ y.rows ≤ 64) (rb : y.rb ∈ [64, 128, 192, 256]) :
    let w := infoWord h (some y)
    field 5 0 w = y.rows - 1 ∧ field 7 6 w = y.rb / 64 - 1 ∧ field 11 8 w = y.fmt.code.toNat ∧
      w.getLsbD 12 = y.desc ∧ w.getLsbD 13 = !h.priv ∧ w.getLsbD 14 = y.poison ∧ w.getLsbD 15 = true ∧
      field 23 16 w = (if y.desc then 0x7F else y.scale.toNat) := by
  have rb : y.rb / 64 - 1 < 4 := by simp at rb; omega
  have scale : (if y.desc = true then 0x7F else y.scale.toNat) < 256 := by split <;> omega
  have mark (b : Bool) (k : Nat) : bitN b k = b.toNat * 2 ^ k := by cases b <;> simp [bitN]
  have parts := infoParts (w := infoWord h (some y)) (show y.rows - 1 < 64 by omega) rb y.fmt.code.isLt y.desc.toNat_lt
    (!h.priv).toNat_lt y.poison.toNat_lt scale (by simp only [infoWord, mark])
  have read (b : Bool) : decide (b.toNat = 1) = b := by cases b <;> rfl
  simpa only [read] using parts

/-! ## O23 -/

section
variable {c : Ctl} {h : THandle} {rows1 : BitVec 6} {rb : BitVec 2} {f : TFmt} {desc force : Bool} {s : State}

/-- A configuration ends as its checks say. -/
theorem exec_tcfg_run (g : guarded c s) :
    exec (.tcfg c h rows1 rb f desc force) s =
      .next (finish c (openChunk s)
        (configure (openChunk s) h force (Tile.blank (rows1.toNat + 1) (64 * (rb.toNat + 1)) f desc) .ok)) := by
  rw [exec_tcfg, execTcfg, plain_run g]

/-- Every element of the tile that a configuration maps is zero. -/
theorem blank_isZero {i j : Nat} (hi : i < (Tile.blank (rows1.toNat + 1) (64 * (rb.toNat + 1)) f desc).rows)
    (hj : j < (Tile.blank (rows1.toNat + 1) (64 * (rb.toNat + 1)) f desc).cols) :
    (readElem f false (elemCode ((Tile.blank (rows1.toNat + 1) (64 * (rb.toNat + 1)) f desc).row i) f.width j)).1.isZero = true := by
  have row : (Tile.blank (rows1.toNat + 1) (64 * (rb.toNat + 1)) f desc).row i = zeroRow f (64 * (rb.toNat + 1)) := by
    simp only [Tile.rows, Tile.blank, List.length_replicate] at hi
    simp [Tile.row, Tile.blank, List.getD_eq_getElem?_getD, hi]
  rw [row]
  exact zeroRow_isZero f (by omega) hj

end

/-! ## Release and the instructions that read or write a mapped handle -/

section
variable {s : State} {h : THandle} {t : Tile}

theorem release_priv (p : h.priv = true) :
    (release s h).cur.arch = { s.cur.arch with tiles := tabErase s.cur.arch.tiles h.toNat } := by
  rw [release, if_pos p, updArch_arch, giveUp_arch]

theorem release_shared (p : h.priv = false) (there : tileAt s h ≠ none) : release s h = stepShared s h none := by
  rw [release, if_neg (by simp [p]), if_neg (by simpa using there)]

theorem release_unmapped (p : h.priv = false) (gone : tileAt s h = none) : release s h = noteShared s h false := by
  rw [release, if_neg (by simp [p]), gone, Option.isNone_none, if_pos rfl]

theorem needTile_run (there : tileAt s h = some t) (b : Bool) (k : State → Tile → Eff) : needTile s h b k = k (noteShared s h b) t := by
  simp only [needTile, there]

/-- The body of TZERO writes a blank tile of the handle's shape. -/
theorem tzero_body (there : tileAt s h = some t) (r : renames s h t.units) :
    ∃ u, (needTile s h false fun s t => renamed s h t.units fun s => .ok (putTile s h (Tile.blank t.rows t.rb t.fmt t.desc))) =
      .ok u ∧ tileBecomes s u h (Tile.blank t.rows t.rb t.fmt t.desc) 0 := by
  obtain ⟨u, run, cur, id, phys⟩ := renamed_run (renames_noteShared h false r)
    fun s => .ok (putTile s h (Tile.blank t.rows t.rb t.fmt t.desc))
  refine ⟨_, (needTile_run there _ _).trans run, putTile_becomes ?_ (id.trans (noteShared_curId _)) (phys.trans (noteShared_nextPhys _))⟩
  rw [cur, noteShared_arch]

/-- The body of TMOV writes the tile of its source. -/
theorem tmov_body {g : THandle} {z : Tile} (there : tileAt s h = some t) (r : renames s h t.units) (src : tileAt s g = some z)
    (shape_ : z.rows = t.rows ∧ z.rb = t.rb ∧ z.desc = t.desc) (sound : z.poison = false) :
    ∃ u, (needTile s h false fun s td => needTile s g true fun s ta =>
        shape (td.rows == ta.rows && td.rb == ta.rb && td.desc == ta.desc) h s <| clean ta g s <|
        renamed s h td.units fun s => .ok (putFrom s h g ta)) = .ok u ∧ tileBecomes s u h z 0 := by
  obtain ⟨rows, rb, desc⟩ := shape_
  obtain ⟨u, run, cur, id, phys⟩ := renamed_run (renames_noteShared g true (renames_noteShared h false r))
    fun s => .ok (putFrom s h g z)
  refine ⟨putFrom u h g z, (needTile_run there _ _).trans <| (needTile_run ((tileAt_noteShared g false).trans src) _ _).trans ?_,
    putFrom_becomes g ?_ ?_ ?_⟩
  · rw [shape, clean, guardTrap, guardTrap, if_pos (by simp [rows, rb, desc]), if_pos (by simp [sound])]
    exact run
  · rw [cur, noteShared_arch, noteShared_arch]
  · rw [id, noteShared_curId, noteShared_curId]
  · rw [phys, noteShared_nextPhys, noteShared_nextPhys]

theorem becomes_of_openChunk {u : State} {x : Tile} {fl : Flags} (becomes : tileBecomes (openChunk s) u h x fl) :
    tileBecomes s u h x fl := by
  simpa only [tileBecomes, openChunk_arch, openChunk_nextPhys, openChunk_curId] using becomes

end

/-- Settles O23: the checks of a configuration one by one, and the instructions that read or write a mapped handle. -/
theorem tileHandlesAreConfiguredAndReleased : Obligations.TileHandlesAreConfiguredAndReleased := by
  intro c h ha rd rows1 rb f desc s g
  have cluster : curCluster (openChunk s) = clusterOf s.curId := by rw [curCluster, openChunk_curId]
  have arch := openChunk_arch s
  have mappedAs (force : Bool) (t : Tile) : mapped force (openChunk s) h t = mapped force s h t := by
    simp only [mapped, openChunk_arch, openChunk_nextPhys]
  refine ⟨fun busy => ?_, fun busy => ?_, fun force free priv => ⟨fun fits => ?_, fun full => ?_⟩,
    fun force free shared => ⟨fun units tiles => ?_, fun full => ?_⟩, fun i j hi hj => blank_isZero hi hj, fun priv => ?_,
    fun shared some => ?_, fun shared none => ?_, ?_, fun y there r => ⟨?_, fun z src rows rbs descs clean => ?_⟩, fun none => ?_⟩
  · refine (exec_tcfg_run g).trans ?_
    rw [configure_busy busy]
    rfl
  · refine (exec_tcfg_run g).trans ?_
    rw [configure_wait (by rwa [cluster, openChunk_curId])]
    rfl
  · rw [← cluster, ← openChunk_curId] at free
    refine ⟨_, (exec_tcfg_run g).trans ?_, (mapHandle_unforced_arch force _ h _).trans (mappedAs force _), ?_⟩
    · rw [configure_private priv free, if_pos, finish_ok]
      rw [cluster, openChunk_curId, mappedAs, privateFits, Bool.and_eq_true, decide_eq_true_eq, decide_eq_true_eq]
      exact fits
    · exact congrArg (· + 1) ((unforced_nextPhys force _).trans (openChunk_nextPhys s))
  · rw [← cluster, ← openChunk_curId] at free
    refine (exec_tcfg_run g).trans ?_
    rw [configure_private priv free, if_neg]
    · rfl
    · rw [cluster, openChunk_curId, mappedAs, privateFits, Bool.and_eq_true, decide_eq_true_eq, decide_eq_true_eq]
      exact full
  · rw [← cluster, ← openChunk_curId] at free
    obtain ⟨kept, ver, mem⟩ := stepShared_spec (s := unforced force (openChunk s)) (h := h)
      (some (Tile.blank (rows1.toNat + 1) (64 * (rb.toNat + 1)) f desc))
    refine ⟨_, ver, (exec_tcfg_run g).trans ?_, kept.trans ?_, ?_⟩
    · rw [configure_shared shared free, cluster, if_neg (by omega), finish_ok]
    · simp only [unforced_arch, openChunk_arch]
    · simpa only [unforced_arch, openChunk_arch, unforced_curId, openChunk_curId] using mem
  · rw [← cluster, ← openChunk_curId] at free
    refine (exec_tcfg_run g).trans ?_
    rw [configure_shared shared free, cluster, if_pos full]
    rfl
  · have released := (release_priv (s := openChunk s) priv).trans (by rw [arch])
    refine ⟨_, (exec_trel s).trans (plain_run g _), released, fun wf k => ?_⟩
    rw [released]
    split
    · next same => exact same ▸ tabGet_erase_same _ _ _ _ wf
    · next other => exact tabGet_erase_other _ other _ _ wf
  · obtain ⟨kept, ver, mem⟩ := stepShared_spec (s := openChunk s) (h := h) none
    refine ⟨_, ver, (exec_trel s).trans (plain_run g _), ?_, ?_⟩ <;> rw [release_shared shared some]
    · exact kept.trans arch
    · simpa only [openChunk_arch, openChunk_curId] using mem
  · refine ⟨_, (exec_trel s).trans (plain_run g _), ?_⟩
    rw [release_unmapped shared none]
    exact (noteShared_arch _).trans arch
  · refine ⟨_, _, (exec_tinfo s).trans (plain_run g _), (noteShared_arch _).trans arch, fun none => ?_,
      fun y there low high rb => ?_⟩
    · rw [none]; rfl
    · rw [there]
      exact infoWord_fields h ⟨low, high⟩ rb
  · obtain ⟨u, body, becomes⟩ := tzero_body there r
    refine ⟨u, ?_, ?_⟩
    · rw [exec_tzero, execTzero, plain_run g, body, finish_ok]
    · exact becomes_of_openChunk becomes
  · obtain ⟨u, body, becomes⟩ := tmov_body there r src ⟨rows, rbs, descs⟩ clean
    refine ⟨u, ?_, ?_⟩
    · rw [exec_tmov, execTmov, plain_run g, body, finish_ok]
    · exact becomes_of_openChunk becomes
  · rw [exec_tzero, execTzero, plain_run g, needTile, none]
    rfl

end Sys2Proof.Machine
end

