-- ==== Sys2Proof/Proofs/CopyCommands.lean ====
section

/-! PROOFS. The commands of the copy engine (R66-R72): the frame that all of them share, how the pieces of one end, and
O37. -/

namespace Sys2Proof.Machine

open Sys2Proof.Safety

section
variable {h n len : Nat} {d : Cmd} {c : FifoCmd} {r : List FifoCmd} {s u : State} {ok : Bool} {body : State → FifoCmd → State}

/-- A command stands at the head of its hart's FIFO with these words, and is not decided yet. -/
def atHead (s : State) (h : Nat) (c : FifoCmd) (d : Cmd) : Prop :=
  (∃ r, (getHart s h).fifo.cmds = c :: r) ∧ c.cmd = d ∧ c.fin = none

theorem command_atHead (head : atHead s h c d) :
    command h d s ok body = if !(d0Ok d.d0 && ok) then .next (decide_ s h 0x04 0) else .next (body s c) := by
  obtain ⟨⟨r, cmds⟩, same, fin⟩ := head
  simp [command, cmds, same, fin]

theorem command_body (head : atHead s h c d) (d0 : d0Ok d.d0 = true) (rest : ok = true) :
    command h d s ok body = .next (body s c) := by
  rw [command_atHead head, d0, rest]
  rfl

theorem command_reserved (head : atHead s h c d) (bad : d0Ok d.d0 = false) :
    command h d s ok body = .next (decide_ s h 0x04 0) := by
  rw [command_atHead head, bad]
  rfl

/-- How a command that moves `len` bytes in pieces ends or goes on from where its last piece ended (R69, R70). -/
def goesOn (h : Nat) (c : FifoCmd) (s u : State) (n : Nat) (o : Out) (f : State → Nat → State × Res Nat) (len : Nat) : Prop :=
  let went := pieces h f (Nat.min len (c.prog + 4096)) 4096 s c.prog
  (went = (u, n, .val ()) → len ≤ n → o = .next (decide_ u h 0 n)) ∧
  (went = (u, n, .val ()) → n < len → o = .next (modHead u h fun c => { c with prog := n, walked := [] })) ∧
  (went = (u, n, .again) → o = .next (modHead u h fun c => { c with prog := n })) ∧
  (∀ t, t.code ≠ 0x100 → went = (u, n, .trap t) → o = .next (decide_ u h (statusOf t.code) n)) ∧
  (∀ w, went = (u, n, .wait w) → o = .next (modHead u h fun c => { c with prog := n, held := w != .commit }))

theorem goesOn_of_conclude (f : State → Nat → State × Res Nat) {e : State × Nat × Res Unit → State}
    (ends : ∀ u n x, (∀ t, x = .trap t → t.code ≠ 0x100) → e (u, n, x) = conclude h (u, n, x) len) :
    goesOn h c s u n (.next (e (piece h f len s c.prog))) f len := by
  refine ⟨fun went done => ?_, fun went more => ?_, fun went => ?_, fun t other went => ?_, fun w went => ?_⟩ <;>
    refine congrArg _ ((congrArg e went).trans ((ends _ _ _ (by simp +contextual [*])).trans ?_))
  · exact if_pos done
  · exact if_neg (by omega)
  · rfl
  · rfl
  · rfl

theorem goesOn_conclude (f : State → Nat → State × Res Nat) :
    goesOn h c s u n (.next (conclude h (piece h f len s c.prog) len)) f len :=
  goesOn_of_conclude (e := (conclude h · len)) f fun _ _ _ _ => rfl

theorem concludeGroup_trap {t : Trap} : concludeGroup h (u, n, .trap t) len =
    if t.code = 0x100 then decide_ u h 0x0B n else conclude h (u, n, .trap t) len := rfl

theorem goesOn_concludeGroup (f : State → Nat → State × Res Nat) :
    goesOn h c s u n (.next (concludeGroup h (piece h f len s c.prog) len)) f len := by
  refine goesOn_of_conclude (e := (concludeGroup h · len)) f fun u n x other => ?_
  cases x with
  | trap t => exact if_neg (other t rfl)
  | val _ => rfl
  | wait _ => rfl
  | again => rfl

/-- Every command checks the reserved bits of its first word before anything else. -/
theorem commands_reserved (head : atHead s h c d) (bad : d0Ok d.d0 = false) {i : Instr}
    (mem : i ∈ [Instr.copy h d, .copy2d h d, .fill h d, .gather h d, .scatter h d, .mcopy h d, .shload h d, .save h d,
      .restore h d, .rowcopy h d, .rowinit h d]) : exec i s = .next (decide_ s h 0x04 0) := by
  simp only [List.mem_cons, List.not_mem_nil, or_false] at mem
  obtain rfl | rfl | rfl | rfl | rfl | rfl | rfl | rfl | rfl | rfl | rfl := mem
  · exact (exec_copy s).trans (command_reserved head bad)
  · exact (exec_copy2d s).trans (command_reserved head bad)
  · exact (exec_fill s).trans (command_reserved head bad)
  · exact (exec_gather s).trans (by rw [execGather, indexedCmd, command_reserved head bad])
  · exact (exec_scatter s).trans (by rw [execScatter, indexedCmd, command_reserved head bad])
  · exact (exec_mcopy s).trans (command_reserved head bad)
  · exact (exec_shload s).trans (command_reserved head bad)
  · exact (exec_save s).trans (by rw [execSave, context, command_reserved head bad])
  · exact (exec_restore s).trans (by rw [execRestore, context, command_reserved head bad])
  · exact (exec_rowcopy s).trans (by rw [execRowcopy, rowCommand, command_reserved head bad])
  · exact (exec_rowinit s).trans (by rw [execRowinit, rowCommand, command_reserved head bad])

/-! ## SHLOAD -/

section
variable (head : atHead s h c d) (d0 : d0Ok d.d0 = true)
  (rest : (decide (d.d2.toNat < 8) && d.d3 == 0 && d.d5 == 0 && d.d6 == 0 && d.d7 == 0) = true)
include head d0 rest

/-- The handle that a SHLOAD of cluster, space and number names. -/
def loaded (s : State) (h : Nat) (c : FifoCmd) (d : Cmd) := getShared s (clusterOf h) (8 * c.asid + d.d2.toNat)

/-- The rows of a SHLOAD's next piece. -/
def nextRows (c : FifoCmd) (t : Tile) : List Nat :=
  ((List.range (t.rows - c.rows.length)).map (· + c.rows.length)).take (4096 / t.rb)

theorem shload_unmapped (unmapped : (loaded s h c d).tile = none) : exec (.shload h d) s = .next (decide_ s h 0x08 0) := by
  refine ((exec_shload s).trans (command_body head d0 rest)).trans (congrArg _ ?_)
  simp only [shKey, show (getShared s (clusterOf h) (8 * c.asid + d.d2.toNat)).tile = none from unmapped]

/-- The handle was configured again or released since the load began. -/
theorem shload_moved (mapped : (loaded s h c d).tile ≠ none) (begun : c.prog ≠ 0) (moved : c.prog ≠ (loaded s h c d).steps + 1) :
    exec (.shload h d) s = .next (decide_ s h 0x08 0) := by
  obtain ⟨t, mapped⟩ := Option.ne_none_iff_exists'.mp mapped
  refine ((exec_shload s).trans (command_body head d0 rest)).trans (congrArg _ ?_)
  simp only [shKey, show (getShared s (clusterOf h) (8 * c.asid + d.d2.toNat)).tile = some t from mapped]
  exact if_pos ⟨begun, moved⟩

variable {t : Tile} (mapped : (loaded s h c d).tile = some t) (place : c.prog = 0 ∨ c.prog = (loaded s h c d).steps + 1)
include mapped place

/-- What a piece of a SHLOAD comes to is decided by what the reads of its rows come to. -/
theorem shload_piece {x : Res (List TRow)} {v : State} (went : shloadRows h c t.rb (nextRows c t) s = (u, x))
    (comes : (match x with
      | .val l => if (c.rows ++ l).length < t.rows
        then modHead u h fun y => { y with prog := (loaded s h c d).steps + 1, rows := c.rows ++ l }
        else decide_ (modCluster u (clusterOf h) fun k => { k with transfers := k.transfers ++
          [⟨h, 8 * c.asid + d.d2.toNat, (loaded s h c d).steps, false,
            some { Tile.blank t.rows t.rb t.fmt t.desc with data := c.rows ++ l }, true⟩] }) h 0 (t.rows * t.rb)
      | .trap e => decide_ u h (statusOf e.code) 0
      | .wait w => modHead u h fun y => { y with held := w != .commit, prog := (loaded s h c d).steps + 1 }
      | .again => u) = v) : exec (.shload h d) s = .next v := by
  refine ((exec_shload s).trans (command_body head d0 rest)).trans (congrArg _ (.trans ?_ comes))
  simp only [shKey, show (getShared s (clusterOf h) (8 * c.asid + d.d2.toNat)).tile = some t from mapped]
  refine (if_neg (show ¬ (c.prog ≠ 0 ∧ c.prog ≠ (loaded s h c d).steps + 1) by tauto)).trans ?_
  rw [nextRows] at went
  rw [went]
  cases x <;> rfl

end
/-! ## SAVE and RESTORE -/

theorem target_allowed {t : Nat} (target : c.prog ≠ 0 ∨ contextTarget s h t = true) :
    ¬ (decide (c.prog = 0) && !contextTarget s h t) = true := by
  rcases target with begun | good
  · simp [begun]
  · simp [good]

section
variable (head : atHead s h c d) (d0 : d0Ok d.d0 = true) {load : Bool}
  (rest : (d.d2 &&& ~~~(0x70FFF : Word) == 0 && d.d3 == 0 && d.d4 == 0 && d.d5 == 0 && d.d6 == 0 && d.d7 == 0) = true)
include head d0 rest

theorem context_user (user : c.mode = .u) : context h d load s = .next (decide_ s h 0x09 0) := by
  unfold context
  exact (command_body head d0 rest).trans (congrArg _ (if_pos user))

variable (able : c.mode ≠ .u)
include able

theorem context_badTarget (first : c.prog = 0) (bad : contextTarget s h (field 11 0 d.d2) = false) :
    context h d load s = .next (decide_ s h 0x0A 0) := by
  unfold context
  exact (command_body head d0 rest).trans <| congrArg _ <| (if_neg able).trans <| if_pos <| by simp [first, bad]

variable (target : c.prog ≠ 0 ∨ contextTarget s h (field 11 0 d.d2) = true)
include target

theorem context_unaligned (bad : d.d1.toNat % 256 ≠ 0) : context h d load s = .next (decide_ s h 0x03 0) := by
  unfold context
  exact (command_body head d0 rest).trans <| congrArg _ <| (if_neg able).trans <|
    (if_neg (target_allowed target)).trans (if_pos bad)

theorem context_moved (aligned : d.d1.toNat % 256 = 0) {x : Res Unit}
    (went : contextMove (if load then loadLine h c (field 11 0 d.d2) (d.d2.getLsbD 16)
        else saveLine h c (field 11 0 d.d2) (d.d2.getLsbD 16)) 32
      ((contextLines (d.d2.getLsbD 16) (d.d2.getLsbD 17) (d.d2.getLsbD 18)).drop (c.prog - 1)) (c.prog - 1) s = (u, n, x)) :
    context h d load s = .next (match (generalizing := false) x with
      | .val _ => decide_ u h 0
        ((if d.d2.getLsbD 16 then 2056 else 0) + (if d.d2.getLsbD 17 then 128 else 0) + if d.d2.getLsbD 18 then 2048 else 0)
      | .trap e => decide_ u h (statusOf e.code) 0
      | .wait w => modHead u h fun c => { c with prog := n + 1, held := w != .commit }
      | .again => modHead u h fun c => { c with prog := n + 1 }) := by
  unfold context
  refine (command_body head d0 rest).trans <| congrArg _ <| (if_neg able).trans <|
    (if_neg (target_allowed target)).trans <| (if_neg (not_not.mpr aligned)).trans ?_
  simp only [went]
  cases x <;> rfl

end

/-! ## ROWCOPY and ROWINIT -/

section
variable (head : atHead s h c d) (d0 : d0Ok d.d0 = true) {copy : Bool}
  (rest : (decide (d.d3.toNat < 2 ^ 40) && (copy || d.d1 == 0) && (!copy || d.d4 == 0) && d.d5 == 0 && d.d6 == 0 && d.d7 == 0) = true)
include head d0 rest

theorem rowCommand_empty (none : d.d3 = 0) : rowCommand h d copy s = .next (decide_ s h 0 0) :=
  (command_body head d0 rest).trans (congrArg _ (if_pos none))

variable (some : d.d3 ≠ 0)
include some

theorem rowCommand_unaligned (init : copy = false) (bad : d.d2.toNat % 8 ≠ 0) :
    rowCommand h d copy s = .next (decide_ s h 0x03 0) :=
  (command_body head d0 rest).trans <| congrArg _ <| (if_neg some).trans <| if_pos <| by simp [init, bad]

variable (aligned : copy = true ∨ d.d2.toNat % 8 = 0)
include aligned

theorem rowCommand_ranges {x : Res (List (Option Nat) × List (Option Nat))} (ranges : rowRanges s h c copy = (u, x)) :
    rowCommand h d copy s = .next (match (generalizing := false) x with
      | .val (a, b) => if rowEligible u.ilv copy c a b then modHead u h fun c => { c with prog := 1 } else decide_ u h 0x07 0
      | .trap t => decide_ u h (statusOf t.code) 0
      | .wait _ => u
      | .again => u) := by
  refine (command_body head d0 rest).trans <| congrArg _ <| (if_neg some).trans <| (if_neg ?_).trans ?_
  · rcases aligned with copies | al
    · simp [copies]
    · simp [al]
  · rw [ranges]
    cases x <;> rfl

end

end

/-- Settles O37: each command runs its body at the head of its FIFO, and the body's cases are those of the statement. -/
theorem copyEngineCommandsComplete : Obligations.CopyEngineCommandsComplete := by
  intro h d c r s u n cmds same fin
  have head : atHead s h c d := ⟨⟨r, cmds⟩, same, fin⟩
  refine ⟨fun i mem bad => ?_, fun ⟨d0, rest⟩ => ?_, fun ⟨d0, rest⟩ => ?_, fun ⟨d0, rest⟩ => ⟨fun mis some => ?_, fun al => ?_⟩,
    fun ⟨d0, rest⟩ => ⟨?_, ?_⟩, fun ⟨d0, rest⟩ => ⟨?_, fun t code went => ?_⟩, fun ⟨d0, rest⟩ => ?_, fun load ⟨d0, rest⟩ => ?_,
    fun copy ⟨d0, rest⟩ => ?_⟩
  · exact commands_reserved head bad mem
  · have body : execCopy h d s = _ := command_body head d0 (by simpa [and_assoc] using rest)
    exact (exec_copy s).trans body ▸ goesOn_conclude _
  · have body : execCopy2d h d s = _ := command_body head d0 (by simpa [and_assoc] using rest)
    exact (exec_copy2d s).trans body ▸ goesOn_conclude _
  · have body : execFill h d s = _ := command_body head d0 (by simpa [and_assoc, and_left_comm] using rest)
    exact ((exec_fill s).trans body).trans (congrArg _ (if_pos ⟨mis, some⟩))
  · have body : execFill h d s = _ := command_body head d0 (by simpa [and_assoc, and_left_comm] using rest)
    exact ((exec_fill s).trans body).trans (congrArg _ (if_neg (by tauto))) ▸ goesOn_conclude _
  · have body : indexedCmd h d false s = _ := command_body head d0 (by simpa [and_assoc] using rest)
    exact (exec_gather s).trans body ▸ goesOn_conclude _
  · have body : indexedCmd h d true s = _ := command_body head d0 (by simpa [and_assoc] using rest)
    exact (exec_scatter s).trans body ▸ goesOn_conclude _
  · have body : execMcopy h d s = _ := command_body head d0 (by simpa [and_assoc] using rest)
    exact (exec_mcopy s).trans body ▸ goesOn_concludeGroup _
  · have body : execMcopy h d s = _ := command_body head d0 (by simpa [and_assoc] using rest)
    refine ((exec_mcopy s).trans body).trans (congrArg _ ((congrArg (concludeGroup h · _) went).trans ?_))
    exact if_pos code
  · have checked := show (decide (d.d2.toNat < 8) && d.d3 == 0 && d.d5 == 0 && d.d6 == 0 && d.d7 == 0) = true by
      simpa [and_assoc] using rest
    refine ⟨shload_unmapped head d0 checked, shload_moved head d0 checked, fun t l mapped place went => ⟨fun more => ?_,
      fun all => ?_⟩, fun t w mapped place went => ?_⟩
    · exact shload_piece head d0 checked mapped place went (if_pos more)
    · exact ⟨_, _, shload_piece head d0 checked mapped place went (if_neg (by omega)), rfl, rfl, rfl, rfl, rfl, rfl⟩
    · exact shload_piece head d0 checked mapped place went rfl
  · have checked : (d.d2 &&& ~~~(0x70FFF : Word) == 0 && d.d3 == 0 && d.d4 == 0 && d.d5 == 0 && d.d6 == 0 && d.d7 == 0) = true := by
      simpa [and_assoc] using rest
    have same : exec (if load then .restore h d else .save h d) s = context h d load s := by cases load <;> rfl
    refine ⟨fun user => same.trans (context_user head d0 checked user), fun able first bad =>
      same.trans (context_badTarget head d0 checked able first bad), fun able target => ⟨fun mis => ?_, fun al => ?_⟩⟩
    · exact same.trans (context_unaligned head d0 checked able target mis)
    · have moves {x : Res Unit} := fun went => same.trans (context_moved (x := x) (u := u) (n := n) head d0 checked able target al went)
      exact ⟨moves, fun e => moves, fun w => moves, moves⟩
  · have checked : (decide (d.d3.toNat < 2 ^ 40) && (copy || d.d1 == 0) && (!copy || d.d4 == 0) && d.d5 == 0 && d.d6 == 0 && d.d7 == 0) = true := by
      cases copy <;> simpa [and_assoc] using rest
    have same : exec (if copy then .rowcopy h d else .rowinit h d) s = rowCommand h d copy s := by cases copy <;> rfl
    refine ⟨fun none => same.trans (rowCommand_empty head d0 checked none), fun some init bad =>
      same.trans (rowCommand_unaligned head d0 checked some init bad), fun t some al ranges =>
      same.trans (rowCommand_ranges head d0 checked some al ranges), fun a b some al ranges => ⟨fun fits => ?_, fun unfit => ?_⟩,
      fun w some al ranges => same.trans (rowCommand_ranges head d0 checked some al ranges)⟩
    · exact same.trans ((rowCommand_ranges head d0 checked some al ranges).trans (congrArg _ (if_pos fits)))
    · exact same.trans ((rowCommand_ranges head d0 checked some al ranges).trans (congrArg _ (if_neg (ne_true_of_eq_false unfit))))

end Sys2Proof.Machine
end

