-- ==== Sys2Proof/Proofs/CorniceSteps.lean ====
section

/-! PROOFS. Cornice's steps, the shared-handle transfers and the row blocks of the copy engine (R61, R86, R122-R126, R130):
signatures, the check of a chunk, and O39. -/

namespace Sys2Proof.Machine

open Sys2Proof.Safety

/-! ## Signatures (R123) -/

theorem sigHas_of_mem {ls : List Nat} {l : Nat} (mem : l ∈ ls) : sigHas ls l = true := by simp [sigHas, mem]

@[simp] theorem sigHas_nil (l : Nat) : sigHas [] l = false := rfl

theorem sigMeet_of_mem {a b : List Nat} {l : Nat} (left : l ∈ a) (right : l ∈ b) : sigMeet a b = true := by
  rw [sigMeet, Bool.or_eq_true]
  exact .inl (List.any_eq_true.mpr ⟨l, left, sigHas_of_mem right⟩)

@[simp] theorem sigMeet_nil (b : List Nat) : sigMeet [] b = false := by simp [sigMeet]

theorem conflicts_of_shared {c : Chunk} {y : Held}
    (shared : (∃ l ∈ c.writes, l ∈ y.reads ∨ l ∈ y.writes) ∨ ∃ l ∈ c.reads, l ∈ y.writes) : conflicts c y = true := by
  rw [conflicts, Bool.or_eq_true, Bool.or_eq_true]
  rcases shared with ⟨l, own, read | written⟩ | ⟨l, own, written⟩
  · exact .inl (.inl (sigMeet_of_mem own read))
  · exact .inl (.inr (sigMeet_of_mem own written))
  · exact .inr (sigMeet_of_mem own written)

theorem conflicts_empty {c : Chunk} (y : Held) (reads : c.reads = []) (writes : c.writes = []) : conflicts c y = false := by
  simp [conflicts, reads, writes]

theorem find?_first {α : Type} {f : α → Bool} {x : α} {before later : List α} (skip : ∀ z ∈ before, f z = false) (hit : f x = true) :
    (before ++ x :: later).find? f = some x := by
  rw [List.find?_append, List.find?_eq_none.mpr fun z mem => ne_true_of_eq_false (skip z mem), Option.none_or,
    List.find?_cons_of_pos hit]

/-! ## The check of a chunk (R124, R130) -/

section
variable {s : State} {h : Nat} {c : Chunk}

theorem check_preAdmitted (pre : preAdmitted s h = true) : check s h c = admitChunk s h c := by rw [check, if_pos pre]

theorem check_full (pre : preAdmitted s h = false) (full : 128 ≤ s.held.length) :
    check s h c = waitFor s ⟨h, none, false⟩ := by
  rw [check, pre, if_neg Bool.false_ne_true, if_pos full]

theorem check_clear (pre : preAdmitted s h = false) (room : s.held.length < 128)
    (clear : ∀ y ∈ admittedNow s, conflicts c y = false) : check s h c = admitChunk s h c := by
  have found : (admittedNow s).find? (conflicts c) = none :=
    List.find?_eq_none.mpr fun y mem => ne_true_of_eq_false (clear y mem)
  rw [check, pre, if_neg Bool.false_ne_true, if_neg (by omega), found]

theorem check_conflict {y : Held} {before later : List Held} (pre : preAdmitted s h = false) (room : s.held.length < 128)
    (admitted : admittedNow s = before ++ y :: later) (clear : ∀ z ∈ before, conflicts c z = false)
    (meets : ¬ conflicts c y = false) : check s h c = waitFor s ⟨h, some y, sigMeet c.reads y.writes⟩ := by
  rw [check, pre, if_neg Bool.false_ne_true, if_neg (by omega), admitted, find?_first clear (eq_true_of_ne_false meets)]

/-- The chunks that wait once a chunk does: one that waits already keeps its place. -/
def queuedWith (s : State) (p : Pres) : List Pres :=
  if s.presented.any (fun q => q.hart == p.hart) then s.presented.map (fun q => if q.hart = p.hart then p else q)
  else s.presented ++ [p]

theorem waitFor_eq (p : Pres) : waitFor s p = { s with presented := queuedWith s p } := by
  rw [waitFor, queuedWith]
  split <;> rfl

/-- What a check comes to, in the words of O39. -/
def checkComes (s : State) (h : Nat) (c : Chunk) (o : Out) : Prop :=
  let admits : Prop := o = .next { s with
    held := s.held ++ [⟨h, c.reads, c.writes⟩], presented := s.presented.filter fun p => p.hart != h }
  let waits (p : Pres) : Prop := o = .next { s with presented := queuedWith s p }
  (preAdmitted s h = true → admits) ∧
  (preAdmitted s h = false → s.held.length < 128 → (∀ y ∈ admittedNow s, conflicts c y = false) → admits) ∧
  (∀ y before later, preAdmitted s h = false → s.held.length < 128 → admittedNow s = before ++ y :: later →
    (∀ z ∈ before, conflicts c z = false) → ¬ conflicts c y = false → waits ⟨h, some y, sigMeet c.reads y.writes⟩) ∧
  (preAdmitted s h = false → 128 ≤ s.held.length → waits ⟨h, none, false⟩)

theorem checkComes_check : checkComes s h c (.next (check s h c)) := by
  refine ⟨fun pre => ?_, fun pre room clear => ?_, fun y before later pre room admitted clear meets => ?_, fun pre full => ?_⟩
  · rw [check_preAdmitted pre]; rfl
  · rw [check_clear pre room clear]; rfl
  · rw [check_conflict pre room admitted clear meets, waitFor_eq]
  · rw [check_full pre full, waitFor_eq]

end

/-! ## Chunks that hold a place -/

theorem unhold_first {h : Nat} {y : Held} (behind : List Held) (own : y.hart = h) :
    ∀ before : List Held, (∀ z ∈ before, z.hart ≠ h) → unhold h (before ++ y :: behind) = before ++ behind
  | [], _ => if_pos own
  | z :: r, other => by
    rw [List.cons_append, unhold, if_neg (other z List.mem_cons_self),
      unhold_first behind own r fun x mem => other x (List.mem_cons_of_mem z mem), List.cons_append]

theorem admittedOf_ne_zero {s : State} {h : Nat} {y : Held} (mem : y ∈ s.held) (own : y.hart = h) : admittedOf s h ≠ 0 := by
  rw [admittedOf, ← Nat.pos_iff_ne_zero]
  exact List.length_pos_of_mem (List.mem_filter.mpr ⟨mem, by simp [own]⟩)

/-! ## The steps -/

section
variable {s : State} {c : Chunk}

theorem chunkPresent_run (next : toPresent s s.arg.a = some c) (fresh : ∀ p ∈ s.presented, p.hart ≠ s.arg.a)
    (done : working s s.arg.a c = false) : exec .chunkPresent s = .next (
      if roomAwaited s && !preAdmitted s s.arg.a then waitFor s ⟨s.arg.a, none, false⟩ else check s s.arg.a c) := by
  have absent : s.presented.any (fun p => p.hart == s.arg.a) = false := by simpa using fresh
  rw [exec_chunkPresent, execChunkPresent]
  simp only [next, absent, done, Bool.or_self, Bool.false_eq_true, if_false]
  split <;> rfl

theorem corniceRecheck_run {p : Pres} {before later : List Pres} (presented : s.presented = before ++ p :: later)
    (own : p.hart = s.arg.a) (first : ∀ q ∈ before, q.hart ≠ s.arg.a)
    (ended : match p.on with | some y => y ∉ s.held ∧ s.soloHart ≠ some y.hart | none => s.held.length < 128) :
    exec .corniceRecheck s = .next (if p.readHit then squashFrom s s.arg.a (admittedOf s s.arg.a) true
      else match toPresent s s.arg.a with
        | some c => check s s.arg.a c
        | none => unpresent s s.arg.a) := by
  have found : s.presented.find? (fun p => p.hart == s.arg.a) = some p := by
    rw [presented]
    exact find?_first (by simpa using first) (by simpa using own)
  have free : stillWaits s p = false := by
    rw [stillWaits]
    split at ended <;> simp_all
  rw [exec_corniceRecheck, execCorniceRecheck]
  simp only [found, free, Bool.false_eq_true, if_false]
  split
  · rfl
  · cases toPresent s s.arg.a <;> rfl

theorem chunkCommit_run {y : Held} {later : List Chunk} {before behind : List Held}
    (oldest : (getHart s s.arg.a).inflight = c :: later) (held : s.held = before ++ y :: behind) (own : y.hart = s.arg.a)
    (first : ∀ z ∈ before, z.hart ≠ s.arg.a) :
    exec .chunkCommit s = .next (passAlone (commitChunk
      { setHart s s.arg.a { getHart s s.arg.a with inflight := later } with held := before ++ behind } s.arg.a c) s.arg.a) := by
  have admitted : admittedOf s s.arg.a ≠ 0 := admittedOf_ne_zero (by simp [held]) own
  rw [exec_chunkCommit, execChunkCommit]
  simp only [oldest, if_neg admitted]
  rw [held, unhold_first behind own before first]

/-- The row block that a command is at, both of whose pages can be copied in the array. -/
theorem rowBlockStep_run {k : FifoCmd} {later : List FifoCmd} {v w t : State} {src : Option Nat} {b : Nat} {ok : Bool}
    (cmds : (getHart s s.arg.a).fifo.cmds = k :: later) (begun : k.prog ≠ 0) (fin : k.fin = none)
    (source : (if k.cmd.d0.extractLsb' 0 8 == 0x06 then
        rowPage s s.arg.a k .copyRead k.cmd.d1 (k.cmd.d1 + w64 ((k.prog - 1) * rowBlock s.ilv))
      else (s, .val none)) = (v, .val src))
    (some : (k.cmd.d0.extractLsb' 0 8 == 0x06 && src.isNone) = false)
    (target : rowPage v s.arg.a k .copyWrite k.cmd.d2 (k.cmd.d2 + w64 ((k.prog - 1) * rowBlock s.ilv)) = (w, .val (.some b)))
    (block : blockStep w src b k.cmd.d4 = (t, ok)) :
    exec .rowBlockStep s = .next (if !ok then t
      else if k.cmd.d3.toNat ≤ (k.prog - 1) * rowBlock s.ilv + rowBlock s.ilv then decide_ t s.arg.a 0x00 k.cmd.d3.toNat
      else modHead t s.arg.a fun c => { c with prog := c.prog + 1 }) := by
  have moving : ¬ (k.prog = 0 ∨ k.fin.isSome = true) := by simp [begun, fin]
  rw [exec_rowBlockStep, execRowBlockStep]
  simp only [cmds, if_neg moving, source, some, Bool.false_eq_true, if_false, target, block]

end

/-- Settles O39: Cornice's check case by case, and the steps that call it or move a shared tile or a row block. -/
theorem chunksTransfersAndRowBlocksTakeEffect : Obligations.ChunksTransfersAndRowBlocksTakeEffect := by
  intro s c
  refine ⟨fun y shared => ?_, fun y => conflicts_empty y, fun next fresh done => ⟨fun open_ => ?_, fun full pre => ?_⟩,
    fun p before later presented own first ended => ⟨fun hit => ?_, fun miss next => ?_⟩,
    fun later y before behind oldest held own first => chunkCommit_run oldest held own first, fun t later oldest plain => ?_,
    fun t later oldest cmd some => ⟨fun keeps => ?_, fun gone => ?_⟩,
    fun k later v w a b cmds begun fin source same target t ok block => ?_⟩
  · exact ne_false_of_eq_true (conflicts_of_shared shared)
  · rw [chunkPresent_run next fresh done, if_neg]
    · exact checkComes_check
    · rw [roomAwaited]
      rcases open_ with room | pre
      · rw [List.any_eq_false.mpr fun p mem => by simpa using room p mem]
        simp
      · simp [pre]
  · rw [chunkPresent_run next fresh done, if_pos, waitFor_eq]
    · rfl
    · obtain ⟨p, mem, room⟩ := full
      rw [roomAwaited, pre, List.any_eq_true.mpr ⟨p, mem, by rw [room]; rfl⟩]
      rfl
  · rw [corniceRecheck_run presented own first ended, if_pos hit]
  · rw [corniceRecheck_run presented own first ended, miss, if_neg Bool.false_ne_true, next]
    exact checkComes_check
  · rw [exec_sharedTransferApply, execSharedTransferApply]
    simp only [oldest, plain, countTransfer, beq_iff_eq]
    rfl
  · rw [exec_sharedTransferApply, execSharedTransferApply]
    simp only [oldest, cmd, keeps, beq_self_eq_true, if_true, bne_iff_ne.mpr some, Bool.and_self]
  · rw [exec_sharedTransferApply, execSharedTransferApply]
    simp only [oldest, cmd, beq_false_of_ne gone, if_true, bne_iff_ne.mpr some, Bool.and_self, Bool.false_eq_true, if_false]
  · have run := rowBlockStep_run (src := if k.cmd.d0.extractLsb' 0 8 == 0x06 then some a else none) cmds begun fin
      (by cases copies : k.cmd.d0.extractLsb' 0 8 == 0x06 with
        | true => simpa only [copies, if_true, w64] using source copies
        | false => simp only [same copies, Bool.false_eq_true, if_false])
      (by cases k.cmd.d0.extractLsb' 0 8 == 0x06 <;> simp) target block
    refine ⟨fun waits => ?_, fun goes last => ?_, fun goes more => ?_⟩
    · exact run.trans (by rw [waits]; rfl)
    · exact run.trans (by rw [goes, Bool.not_true, if_neg Bool.false_ne_true, if_pos last])
    · exact run.trans (by rw [goes, Bool.not_true, if_neg Bool.false_ne_true, if_neg (by omega)])

end Sys2Proof.Machine
end

