-- ==== Sys2Proof/Proofs/Engines.lean ====
section

/-! PROOFS. The tile engines and the special-function unit (R57, R74, R378-R381): which engine takes an operation, which
operation an engine starts, and O43. -/

namespace Sys2Proof.Machine

open Sys2Proof.Safety

/-! ## The first least element of a list -/

/-- A fold that keeps the first element of least measure is the library's `argmin`. -/
theorem foldl_eq_argmin {α : Type} (m : α → Nat) {step : Option α → α → Option α} (start : ∀ e, step none e = some e)
    (next : ∀ k e, step (some k) e = if m e < m k then some e else some k) (l : List α) :
    l.foldl step none = l.argmin m := by
  have same : step = List.argAux fun b c => m b < m c := by
    funext b e
    cases b with
    | none => exact start e
    | some k => rw [next]; simp only [List.argAux]
  rw [same]
  rfl

/-- A shared engine change is decided by what it makes of the engine as it stands. -/
theorem modEngine_congr {s : State} {cl e : Nat} {f g : Engine → Engine}
    (same : f (getEngine s cl e) = g (getEngine s cl e)) : modEngine s cl e f = modEngine s cl e g := by
  simp only [getEngine, getCluster] at same
  simp only [modEngine, modCluster, tabMod, same]

section
variable {s : State} {cl e : Nat} {op : EngOp}

/-! ## Dispatch (R378, R379) -/

theorem hasRoom_spec {x : Engine} {asid : Nat} (room : hasRoom x asid = true) : x.retired = false ∧ x.queue.length < 32 := by
  rw [hasRoom, Bool.and_eq_true, Bool.and_eq_true, Bool.not_eq_true', decide_eq_true_eq] at room
  exact room.1

/-- The engines of a cluster that can take an operation. -/
def roomy (s : State) (cl : Nat) (op : EngOp) : List Nat := (List.range 4).filter fun e => hasRoom (getEngine s cl e) op.asid

theorem mem_roomy : e ∈ roomy s cl op ↔ e < 4 ∧ hasRoom (getEngine s cl e) op.asid = true := by
  rw [roomy, List.mem_filter, List.mem_range]

theorem engineFor_eq : engineFor s cl op = (((roomy s cl op).find? fun e => bound (getEngine s cl e) op) <|>
    (roomy s cl op).argmin fun e => (getEngine s cl e).queue.length) := by
  rw [engineFor, roomy]
  exact congrArg (fun b => HOrElse.hOrElse _ fun _ => b)
    (foldl_eq_argmin (fun e => (getEngine s cl e).queue.length) (fun _ => rfl) (fun _ _ => rfl) _)

theorem engineFor_roomy (taken : engineFor s cl op = some e) : e ∈ roomy s cl op := by
  rw [engineFor_eq] at taken
  cases found : (roomy s cl op).find? fun e => bound (getEngine s cl e) op with
  | none =>
    rw [found] at taken
    exact List.argmin_mem taken
  | some k =>
    rw [found] at taken
    obtain rfl : k = e := Option.some.inj taken
    exact List.mem_of_find?_eq_some found

/-- Without an engine bound to its accumulator an operation goes to a shortest queue. -/
theorem engineFor_shortest (taken : engineFor s cl op = some e) (loose : ∀ f, f < 4 → bound (getEngine s cl f) op = false)
    {f : Nat} (four : f < 4) (room : hasRoom (getEngine s cl f) op.asid = true) :
    (getEngine s cl e).queue.length ≤ (getEngine s cl f).queue.length := by
  have none : (roomy s cl op).find? (fun e => bound (getEngine s cl e) op) = none :=
    List.find?_eq_none.mpr fun k mem => ne_true_of_eq_false (loose k (mem_roomy.mp mem).1)
  rw [engineFor_eq, none] at taken
  exact List.le_of_mem_argmin (f := fun e => (getEngine s cl e).queue.length) (mem_roomy.mpr ⟨four, room⟩) taken

/-! ## Starts (R380, R381) -/

/-- What stands ready in an engine's queue. -/
theorem mem_readyAsids {a : Nat} : a ∈ ((getEngine s cl e).queue.filter (opReady s cl)).map (·.op.asid) ↔
    ∃ q ∈ (getEngine s cl e).queue, opReady s cl q = true ∧ q.op.asid = a := by
  simp only [List.mem_map, List.mem_filter, and_assoc]

theorem nextAsid_mem {last a : Nat} {l : List Nat} (next : nextAsid last l = some a) : a ∈ l := by
  have least (k : List Nat) : k.foldl (fun b a => match b with | none => some a | some x => some (Nat.min a x)) none = k.argmin id :=
    foldl_eq_argmin id (fun _ => rfl) (fun x e => by
      by_cases lt : e < x
      · simp [lt, Nat.min_eq_left lt.le]
      · simp [lt, Nat.min_eq_right (Nat.not_lt.mp lt)]) k
  have eq : nextAsid last l = ((l.filter fun a => decide (last < a)).argmin id <|> l.argmin id) := by
    rw [← least, ← least]
    rfl
  rw [eq] at next
  cases above : (l.filter fun a => decide (last < a)).argmin id with
  | none =>
    rw [above] at next
    exact List.argmin_mem next
  | some k =>
    rw [above] at next
    obtain rfl : k = a := Option.some.inj next
    exact (List.mem_filter.mp (List.argmin_mem above)).1

theorem turnOf_lent {a : Nat} (turn : turnOf s cl e = some (a, true)) :
    ∃ q ∈ (getEngine s cl e).queue, opReady s cl q = true ∧ q.op.asid = a := by
  rw [turnOf] at turn
  split at turn
  · cases turn
  · obtain ⟨b, next, same⟩ := Option.map_eq_some_iff.mp turn
    obtain rfl : b = a := congrArg Prod.fst same
    exact mem_readyAsids.mp (nextAsid_mem next)

theorem turnOf_own (own : (governing (getEngine s cl e) s.cycle).own = true)
    (ready : ∃ q ∈ (getEngine s cl e).queue, opReady s cl q = true ∧ q.op.asid = (governing (getEngine s cl e) s.cycle).asid) :
    turnOf s cl e = some ((governing (getEngine s cl e) s.cycle).asid, false) := by
  rw [turnOf]
  refine if_pos ?_
  rw [own, Bool.true_and, List.contains_iff_mem]
  exact mem_readyAsids.mpr ready

/-- The operation started is the oldest ready one of the address space whose turn it is. -/
theorem startOf_spec {q : QOp} {asid : Nat} {lent : Bool} (start : startOf s cl e = some (q, asid, lent)) :
    (q ∈ (getEngine s cl e).queue ∧ opReady s cl q = true ∧ q.op.asid = asid) ∧
      ∀ p ∈ (getEngine s cl e).queue, opReady s cl p = true → p.op.asid = asid → q.age ≤ p.age := by
  obtain ⟨t, _, chosen⟩ := Option.bind_eq_some_iff.mp start
  obtain ⟨k, oldest, same⟩ := Option.map_eq_some_iff.mp chosen
  obtain ⟨rfl, rfl⟩ : k = q ∧ t = (asid, lent) := Prod.mk.inj same
  rw [foldl_eq_argmin QOp.age (fun _ => rfl) (fun _ _ => rfl)] at oldest
  constructor
  · simpa using List.argmin_mem oldest
  · intro p mem ready turn
    exact List.le_of_mem_argmin (List.mem_filter.mpr ⟨mem, by simp [ready, turn]⟩) oldest

end

/-! ## Renames (R57) -/

theorem tileRename_fits {s : State}
    (fits : reserveFits (clusterOf s.arg.a) (reserveUse s (clusterOf s.arg.a) ++ [(s.arg.a, s.arg.b)]) = true) :
    execTileRename s = .next (modCluster s (clusterOf s.arg.a) fun c => { c with renames := c.renames ++ [(s.arg.a, s.arg.b)] }) := by
  rw [execTileRename, if_pos fits]

theorem tileRename_full {s : State}
    (full : reserveFits (clusterOf s.arg.a) (reserveUse s (clusterOf s.arg.a) ++ [(s.arg.a, s.arg.b)]) = false) :
    execTileRename s = .next s := by
  rw [execTileRename, full, if_neg Bool.false_ne_true]

/-! ## The steps of an engine -/

@[simp] theorem getCluster_modHart (s : State) (h c : Nat) (f : Hart → Hart) : getCluster (modHart s h f) c = getCluster s c := by
  rw [getCluster, getCluster, modHart, setHart_clusters]

/-- A cluster that has sent one of its operations to an engine. -/
def sentOp (op : EngOp) (c : Cluster) : Cluster := { c with age := c.age + 1, undispatched := c.undispatched.erase op }

section
variable {s : State}

theorem engineDispatch_run {op : EngOp} {e : Nat} (arg : s.arg.op = some op)
    (mem : op ∈ (getCluster s (clusterOf op.hart)).undispatched) (taken : engineFor s (clusterOf op.hart) op = some e) :
    exec .engineDispatch s = .next (modEngine (modCluster s (clusterOf op.hart) (sentOp op)) (clusterOf op.hart) e fun x =>
      { x with queue := x.queue ++ [⟨op, (getCluster s (clusterOf op.hart)).age⟩] }) := by
  rw [exec_engineDispatch, execEngineDispatch]
  simp only [arg, taken, List.contains_iff_mem.mpr mem, Bool.not_true, Bool.false_eq_true, if_false]
  rfl

theorem engineOpStart_run {q : QOp} {asid : Nat} {lent : Bool} (idle : (getEngine s s.arg.a s.arg.b).run = none)
    (start : startOf s s.arg.a s.arg.b = some (q, asid, lent)) :
    exec .engineOpStart s = .next (pulse (modEngine s s.arg.a s.arg.b fun x => { x with
      queue := x.queue.erase q
      run := some (q, s.cycle + q.op.cycles + if q.op.acc ≠ none ∧ x.latch ≠ q.op.acc then 8 else 0)
      lend := if lent then asid else x.lend, latch := if q.op.acc = none then x.latch else q.op.out }) asid) := by
  rw [exec_engineOpStart, execEngineOpStart]
  simp only [idle, start]
  refine congrArg (fun t => Host.Outcome.next (pulse t asid)) (modEngine_congr ?_)
  cases acc : q.op.acc <;> simp

theorem engineOpComplete_run {q : QOp} {t0 : Nat} (running : (getEngine s s.arg.a s.arg.b).run = some (q, t0))
    (due : t0 ≤ s.cycle) : ∃ f g, (∀ c : Cluster, (f c).engines = c.engines) ∧ exec .engineOpComplete s =
      .next (modHart (modCluster (modEngine s s.arg.a s.arg.b fun x => { x with run := none }) s.arg.a f) q.op.hart g) := by
  rw [exec_engineOpComplete, execEngineOpComplete]
  simp only [running, if_pos due]
  refine ⟨_, _, ?_, rfl⟩
  exact fun _ => rfl

theorem sfuResult_run (wf : tabWf Cluster.reset s.clusters = true) {k t0 : Nat} {later : List (Nat × Nat)}
    (out : (getCluster s s.arg.a).sfuOut = (k, t0) :: later) (due : t0 ≤ s.cycle) : ∃ t, exec .sfuResult s = .next t ∧
      (getCluster t s.arg.a).sfuOut = later ∧ (getCluster t s.arg.a).sfuQ = (getCluster s s.arg.a).sfuQ ∧
      (tabWf Hart.reset s.harts = true → (getHart s k).sfu = some false → (getHart t k).sfu = some true) := by
  let u := modCluster s s.arg.a fun c => { c with sfuOut := later }
  have same : getCluster u s.arg.a = { getCluster s s.arg.a with sfuOut := later } :=
    (getCluster_modCluster wf _ _ _).trans (if_pos rfl)
  have run : exec .sfuResult s = .next (if (getHart s k).sfu = some false then modHart u k fun x => { x with sfu := some true } else u) := by
    rw [exec_sfuResult, execSfuResult]
    simp only [out, if_pos due]
    rfl
  refine ⟨_, run, ?_⟩
  split
  next asked =>
    rw [getCluster_modHart, same]
    exact ⟨rfl, rfl, fun harts _ => by rw [getHart_modHart (s := u) harts, if_pos rfl]⟩
  next other =>
    rw [same]
    exact ⟨rfl, rfl, fun _ asked => absurd asked other⟩

end

/-- Settles O43: the choices of `engineFor` and `startOf`, and one step after the other. -/
theorem tileEnginesAndTheSfuRun : Obligations.TileEnginesAndTheSfuRun := by
  intro s wf
  refine ⟨fun fits => ?_, fun full => ?_, fun op e arg mem taken => ?_, fun q asid lent idle start => ⟨?_, ?_⟩,
    fun e => ⟨turnOf_own, fun a => turnOf_lent⟩, fun q t0 running due => ?_, ?_, fun k t0 later out due => ?_⟩
  · refine ⟨modCluster s (clusterOf s.arg.a) _, (exec_tileRename s).trans (tileRename_fits fits), ?_, rfl, rfl⟩
    rw [getCluster_modCluster wf, if_pos rfl]
  · exact (exec_tileRename s).trans (tileRename_full full)
  · obtain ⟨four, room⟩ := mem_roomy.mp (engineFor_roomy taken)
    obtain ⟨kept, short⟩ := hasRoom_spec room
    have same : getCluster (modCluster s (clusterOf op.hart) (sentOp op)) (clusterOf op.hart) = sentOp op _ :=
      (getCluster_modCluster wf _ _ _).trans (if_pos rfl)
    exact ⟨_, engineDispatch_run arg mem taken, rfl, rfl, four, kept, short, congrArg Cluster.undispatched same,
      congrArg Cluster.age same, fun _ => (congrArg Cluster.engines same :), fun loose f => engineFor_shortest taken loose⟩
  · exact engineOpStart_run idle start
  · obtain ⟨⟨mem, ready, turn⟩, oldest⟩ := startOf_spec start
    exact ⟨mem, ready, turn, oldest⟩
  · obtain ⟨f, g, keeps, run⟩ := engineOpComplete_run running due
    refine ⟨_, run, setHart_mem _ _, ?_⟩
    rw [getCluster_modHart, modEngine, getCluster_modCluster (modCluster_wf wf _ _), if_pos rfl, keeps,
      getCluster_modCluster wf, if_pos rfl]
  · refine ⟨modCluster s s.arg.a _, exec_sfuDequeue s, ?_, ?_⟩ <;> rw [getCluster_modCluster wf, if_pos rfl]
  · exact sfuResult_run wf out due

end Sys2Proof.Machine
end

