-- ==== Sys2Proof/Proofs/Steps.lean ====
section

/-! PROOFS. What a step runs (R203, R227-R233, R389-R392): the choice between the hardware, the copy engine and the harts, the
fetch of the next word, and O58. -/

namespace Sys2Proof.Machine

open Sys2Proof.Safety

/-! ## The clock leaves a machine that runs running -/

section
variable {s t : State}

@[simp] theorem acceptAll_fatal (s : State) : (acceptAll s).fatal = s.fatal :=
  foldl_rel (R := fun s t : State => t.fatal = s.fatal) (fun _ => rfl) (fun one two => two.trans one)
    (fun s d => by split <;> rfl) _ s

theorem routeOne_fatal (s : State) (m : Msg) : (routeOne s m).fatal = s.fatal := by
  unfold routeOne
  split
  · split <;> rfl
  · split <;> rfl

@[simp] theorem routeAll_fatal (s : State) : (routeAll s).fatal = s.fatal :=
  foldl_rel (R := fun s t : State => t.fatal = s.fatal) (fun _ => rfl) (fun one two => two.trans one) routeOne_fatal _
    { s with net := [] }

@[simp] theorem resendLost_fatal (s : State) : (resendLost s).fatal = s.fatal := by
  simp only [resendLost]
  split <;> rfl

theorem drainPort_fatal (s : State) (p : Nat) : (drainPort s p).fatal = s.fatal := by
  simp only [drainPort]
  split
  · rfl
  · split <;> rfl

@[simp] theorem drainPorts_fatal (s : State) : (drainPorts s).fatal = s.fatal :=
  foldl_rel (R := fun s t : State => t.fatal = s.fatal) (fun _ => rfl) (fun one two => two.trans one) drainPort_fatal _ s

@[simp] theorem tick_fatal (s : State) : (tick s).fatal = s.fatal := by
  simp only [tick, fabricTick, drainPorts_fatal, routeAll_fatal, resendLost_fatal, acceptAll_fatal]

theorem observed_fatal {d : Due} (next : observed s = some (d, t)) : t.fatal = s.fatal := by
  obtain ⟨k, _, found⟩ := List.exists_of_findSome?_eq_some next
  split at found
  · split at found
    · obtain ⟨-, rfl⟩ := Prod.mk.inj (Option.some.inj found)
      rfl
    · cases found
  · cases found

theorem dueStep_fatal {d : Due} (next : dueStep s = some (d, t)) : t.fatal = s.fatal := by
  rw [dueStep] at next
  split at next
  · split at next
    · obtain ⟨-, rfl⟩ := Prod.mk.inj (Option.some.inj next)
      rfl
    · cases next
  · cases next

theorem nextDue_fatal {d : Due} (next : nextDue s = some (d, t)) : t.fatal = s.fatal := by
  rw [nextDue] at next
  cases due : dueStep s with
  | none => exact observed_fatal (by simpa [due] using next)
  | some x => exact dueStep_fatal (due.trans (by simpa [due] using next))

end

/-! ## The choice of a step -/

/-- What comes of a move. -/
def outOf : Move → Out
  | .run i t => exec i t
  | .go t => .next t
  | .bad => .fault .illFormedStep

theorem step_eq (s : State) : step s = outOf (choose s) := by
  rw [step]
  cases choose s <;> rfl

section
variable {s t u : State} {i : Instr} {x : Arg} (running : s.fatal = false)
  (now : t = if (observed s).isSome then s else tick s)
include running now

theorem now_fatal : t.fatal = false := by
  rw [now]
  split
  · exact running
  · rw [tick_fatal, running]

theorem step_due (due : nextDue t = some ((i, x), u)) (ok : stepOk i x = true) : step s = exec i { u with arg := x } := by
  have goes : u.fatal = false := (nextDue_fatal due).trans (now_fatal running now)
  rw [step_eq, choose]
  simp only [← now, due, ok, goes, Bool.not_true, Bool.false_eq_true, if_false, Bool.false_and]
  rfl

variable (none_ : nextDue t = none)
include none_

theorem step_pending (work : pendingStep t = some (i, x)) : step s = exec i { t with arg := x } := by
  rw [step_eq, choose]
  simp only [← now, none_, now_fatal running now, work, Bool.false_eq_true, if_false]
  rfl

/-- With nothing due and no work of the hardware the copy engine and the harts take turns. -/
theorem step_turns (idle : pendingStep t = none) : step s = outOf (
    let v := askAll t
    let command := (commandHart v).map fun h => runCommand { v with engTurn := h } h
    let hart := (nextHart v).map fun h => boundary (takeTurn v h)
    (if v.cycle % 2 = 1 then command <|> hart else hart <|> command).getD (.go { v with sched := v.sched.drop 1 })) := by
  rw [step_eq, choose]
  simp only [← now, none_, now_fatal running now, idle, Bool.false_eq_true, if_false]

theorem step_command (idle : pendingStep t = none) {h : Nat} (next : commandHart (askAll t) = some h)
    (turn : (askAll t).cycle % 2 = 1 ∨ nextHart (askAll t) = none) :
    step s = outOf (runCommand { askAll t with engTurn := h } h) := by
  rw [step_turns running now none_ idle]
  by_cases odd : (askAll t).cycle % 2 = 1
  · simp [odd, next]
  · simp [odd, next, turn.resolve_left odd]

theorem step_hart (idle : pendingStep t = none) {h : Nat} (next : nextHart (askAll t) = some h)
    (turn : (askAll t).cycle % 2 = 0 ∨ commandHart (askAll t) = none) :
    step s = outOf (boundary (takeTurn (askAll t) h)) := by
  rw [step_turns running now none_ idle]
  by_cases odd : (askAll t).cycle % 2 = 1
  · simp [odd, next, turn.resolve_left (by omega)]
  · simp [odd, next]

end

/-! ## A command of the copy engine (R68, R69) -/

section
variable {v : State} {h : Nat} {c : FifoCmd} {r : List FifoCmd}

theorem runCommand_fresh {i : Instr} (head : (getHart v h).fifo.cmds = c :: r) (is : decodeCmd h c.cmd = some i)
    (first : c.prog = 0 ∨ (field 7 0 c.cmd.d0 ≠ 0x06 ∧ field 7 0 c.cmd.d0 ≠ 0x07)) : runCommand v h = .run i v := by
  simp only [runCommand, head, is]
  exact if_neg (by tauto)

theorem runCommand_block {i : Instr} (head : (getHart v h).fifo.cmds = c :: r) (is : decodeCmd h c.cmd = some i)
    (begun : c.prog ≠ 0) (rows : field 7 0 c.cmd.d0 = 0x06 ∨ field 7 0 c.cmd.d0 = 0x07) :
    runCommand v h = .run .rowBlockStep { v with arg := { a := h } } := by
  simp only [runCommand, head, is]
  exact if_pos ⟨begun, rows⟩

theorem runCommand_unknown (head : (getHart v h).fifo.cmds = c :: r) (none_ : decodeCmd h c.cmd = none) :
    runCommand v h = .go (writeRecord v h 0x04 0) := by
  simp only [runCommand, head, none_]

end

/-! ## The hart that moves -/

theorem focus_curId (s : State) (h : Nat) : (focus s h).curId = h := by
  rw [focus]
  split
  · next same => exact same.symm
  · rfl

@[simp] theorem takeTurn_curId (s : State) (h : Nat) : (takeTurn s h).curId = h := focus_curId _ h

@[simp] theorem atEntry_curId (s : State) : (atEntry s).curId = s.curId := by
  rw [atEntry]
  split <;> rfl

section
variable {u : State}

/-- No wait holds an interrupt back (R279, R285, R363). -/
def interruptible (u : State) : Prop := u.cur.drain = none ∧ u.cur.mamo = none ∧ u.cur.stall ≠ some .irq

theorem interruptible_iff : interruptible u ↔ ¬ (u.cur.drain.isSome || u.cur.mamo.isSome || u.cur.stall == some .irq) = true := by
  simp [interruptible, and_assoc]

theorem boundary_trap {r : TrapRec} (due : u.cur.due = some r) :
    boundary u = .go (if isDrained u then deliver u r else u) := by rw [boundary, due]

theorem boundary_interrupt (due : u.cur.due = none) (asks : interrupted u u.curId = true) (free : interruptible u) :
    outOf (boundary u) = exec (if (interruptFor (atEntry u) u.curId).isSome then .interruptDelivery else .userInterrupt)
      { atEntry u with arg := { a := u.curId } } := by
  rw [boundary, due]
  simp only [if_neg (interruptible_iff.mp free), if_pos asks]
  rw [takeInterrupt, atEntry_curId]
  split <;> rfl

theorem boundary_run (due : u.cur.due = none) (goes : interrupted u u.curId = false ∨ ¬ interruptible u) :
    boundary u = runHart u := by
  rw [boundary, due]
  dsimp only
  split
  · rfl
  · next free => rw [goes.resolve_right (not_not.mpr (interruptible_iff.mpr free)), if_neg Bool.false_ne_true]

/-! ## A word (R227, R229) -/

/-- What a word comes to where a hart executes it, in the words of O58. -/
def runsWord (o : Out) (w : State) (x : Word) : Prop :=
  let y := updArch w fun a => { a with iw := x }
  (∀ i, decode x = some i → misplaced y.cur.arch i = false → o = exec i y) ∧
  (∀ i, decode x = some i → misplaced y.cur.arch i = true → o = traps y y 0x01 x 0) ∧
  (decode x = none → o = traps y y 0x01 x 0)

theorem runsWord_runWord (w : State) (x : Word) : runsWord (outOf (runWord w x)) w x := by
  refine ⟨fun i is sound => ?_, fun i is bad => ?_, fun none => ?_⟩
  · simp only [runWord, is, sound, Bool.false_eq_true, if_false]
    rfl
  · simp only [runWord, is, bad, if_true]
    rfl
  · simp only [runWord, none]
    rfl

/-- What the entry of a block comes to, in the words of O58. -/
def entersBlock (o : Out) (w : State) (hd : Word) : Prop :=
  let e := enterBlock w hd
  (2 ≤ e.cur.inflight.length → o = .next e) ∧
  (e.cur.inflight.length < 2 → ∀ w2 x, fetchWord e = (w2, .val x) → runsWord o w2 x)

/-- A header (R228). -/
def isHdr (x : Word) : Prop := x.extractLsb' 54 10 = 0x3FF

/-- A header with a length and no reserved bit set (R227, R228). -/
def soundHdr (x : Word) : Prop := x.extractLsb' 48 6 ≠ 0 ∧ x.extractLsb' 0 6 = 0

theorem isHdr_iff {x : Word} : isHdr x ↔ isHeader x = true := by simp [isHdr, isHeader]
theorem soundHdr_iff {x : Word} : soundHdr x ↔ headerOk x = true := by simp [soundHdr, headerOk]

theorem entersBlock_runHeader {w : State} {x : Word} {entry : Bool} (hdr : isHdr x) (fits : entry = false ∨ x.getLsbD 7 = true)
    (sound : soundHdr x) : entersBlock (outOf (runHeader w x entry)) w x := by
  have ends : runHeader w x entry =
      if 2 ≤ (enterBlock w x).cur.inflight.length then .go (enterBlock w x) else runBody (enterBlock w x) := by
    rw [runHeader]
    simp only [isHdr_iff.mp hdr, soundHdr_iff.mp sound, headerEntry, Bool.not_true, Bool.false_or, Bool.false_eq_true, if_false]
    rcases fits with no | has
    · simp [no]
    · simp [has]
  rw [ends]
  refine ⟨fun full => ?_, fun room w2 y fetched => ?_⟩
  · rw [if_pos full]
    rfl
  · rw [if_neg (by omega), runBody, fetched]
    exact runsWord_runWord w2 y

/-! ## The fetch of a hart (R203, R227-R233) -/

/-- What a hart does with the word that it has fetched, by where it stands. -/
def afterFetch (b : Blk) (w : State) (x : Word) : Move :=
  match b with
  | .body _ _ _ => runWord w x
  | .resumed => if isHeader x then runHeader w x false else runWord w x
  | .header need => runHeader w x (need != .any)

theorem runHart_badEntry {low : Nat} (stands : u.cur.arch.blk = .header (.badEntry low)) :
    runHart u = trapHere u { code := cTarget, tval := u.cur.arch.pc + w64 low } := by rw [runHart, stands]

theorem runHart_fetch (stands : ∀ low, u.cur.arch.blk ≠ .header (.badEntry low)) :
    runHart u = fetchEnd (fetchWord u).1 (fetchWord u).2 (afterFetch u.cur.arch.blk (fetchWord u).1) := by
  rw [runHart]
  cases at_ : u.cur.arch.blk with
  | body _ _ _ => rfl
  | resumed => rfl
  | header need =>
    cases need with
    | badEntry low => exact absurd at_ (stands low)
    | any => rfl
    | entry => rfl
    | sHandler => rfl
    | mHandler => rfl

theorem noEntry_trap {w : State} (s_ : w.cur.arch.blk ≠ .header .sHandler) (m : w.cur.arch.blk ≠ .header .mHandler)
    (x : Trap) : noEntry w x = trapHere w x := by
  rw [noEntry]
  split
  · next at_ => exact absurd at_ s_
  · next at_ => exact absurd at_ m
  · rfl

/-- A word that is no header where one must stand, or a header without ENTRY where it must have it. -/
theorem runHeader_wrong {w : State} {x : Word} {entry : Bool} (wrong : ¬ isHdr x ∨ (entry = true ∧ x.getLsbD 7 = false)) :
    runHeader w x entry = noEntry w { code := cTarget, tval := w.cur.arch.pc } := by
  rw [runHeader]
  refine if_pos ?_
  rcases wrong with no | ⟨need, lacks⟩
  · simp [Bool.eq_false_iff.mpr (mt isHdr_iff.mpr no)]
  · rw [need, headerEntry, lacks, Bool.not_false, Bool.and_self, Bool.or_true]

theorem runHeader_unsound {w : State} {x : Word} {entry : Bool} (hdr : isHdr x) (fits : entry = false ∨ x.getLsbD 7 = true)
    (bad : ¬ soundHdr x) : runHeader w x entry =
      noEntry (updArch w fun a => { a with iw := x }) (wordTrap cIllegal (updArch w fun a => { a with iw := x })) := by
  rw [runHeader]
  simp only [isHdr_iff.mp hdr, Bool.eq_false_iff.mpr (mt soundHdr_iff.mpr bad), headerEntry, Bool.not_true, Bool.not_false,
    Bool.false_or, if_true]
  refine if_neg ?_
  rcases fits with no | has
  · simp [no]
  · simp [has]

/-- A header that must have ENTRY wherever it need not be any. -/
theorem need_fits {need : HdrNeed} {x : Word} (fits : need = .any ∨ x.getLsbD 7 = true) :
    (need != .any) = false ∨ x.getLsbD 7 = true := by
  rcases fits with rfl | has
  · exact .inl rfl
  · exact .inr has

/-- The word fetched, case by case of where the hart stands, in the words of O58. -/
theorem afterFetch_cases {b : Blk} {o : Out} {w : State} {x : Word} (is : o = outOf (afterFetch b w x)) :
    (∀ fin gl vl, b = .body fin gl vl → runsWord o w x) ∧
    (b = .resumed → (¬ isHdr x → runsWord o w x) ∧ (isHdr x → soundHdr x → entersBlock o w x)) ∧
    (∀ need, b = .header need → isHdr x → need = .any ∨ x.getLsbD 7 = true → soundHdr x → entersBlock o w x) ∧
    (b = .header .any ∨ (b = .header .entry ∧ x.getLsbD 7 = true) → w.cur.arch.blk = b → isHdr x → ¬ soundHdr x →
      ∀ y, y = updArch w (fun a => { a with iw := x }) → o = traps y y 0x01 x 0) ∧
    (∀ need, b = .header need → w.cur.arch.blk = b → ¬ isHdr x ∨ (need ≠ .any ∧ x.getLsbD 7 = false) →
      (need = .any ∨ need = .entry → o = traps w w cTarget w.cur.arch.pc 0) ∧
      (need = .sHandler → o = .next (deliver w ⟨cMcheck, true, w.cur.arch.pc, w64 (3 * 2 ^ 60 + w.curId), 0⟩)) ∧
      (need = .mHandler → o = .next (logEv (vacate w w.curId true) evHandler))) := by
  subst is
  refine ⟨?_, ?_, ?_, ?_, ?_⟩
  · rintro fin gl vl rfl
    exact runsWord_runWord w x
  · rintro rfl
    refine ⟨fun no => ?_, fun hdr sound => ?_⟩
    · rw [afterFetch, if_neg (mt isHdr_iff.mpr no)]
      exact runsWord_runWord w x
    · rw [afterFetch, if_pos (isHdr_iff.mp hdr)]
      exact entersBlock_runHeader hdr (.inl rfl) sound
  · rintro need rfl hdr fits sound
    exact entersBlock_runHeader hdr (need_fits fits) sound
  · rintro stands keeps hdr bad y rfl
    have goes : afterFetch b w x = noEntry (updArch w fun a => { a with iw := x })
        (wordTrap cIllegal (updArch w fun a => { a with iw := x })) := by
      rcases stands with rfl | ⟨rfl, has⟩
      · exact runHeader_unsound hdr (.inl rfl) bad
      · exact runHeader_unsound hdr (.inr has) bad
    have here : (updArch w fun a => { a with iw := x }).cur.arch.blk = b := keeps
    rw [goes, noEntry_trap (by rw [here]; rcases stands with rfl | ⟨rfl, _⟩ <;> simp)
      (by rw [here]; rcases stands with rfl | ⟨rfl, _⟩ <;> simp)]
    rfl
  · rintro need rfl keeps wrong
    have goes : afterFetch (.header need) w x = noEntry w { code := cTarget, tval := w.cur.arch.pc } :=
      runHeader_wrong (wrong.imp_right fun ⟨other, lacks⟩ => ⟨bne_iff_ne.mpr other, lacks⟩)
    refine ⟨fun plain => ?_, ?_, ?_⟩
    · rw [goes, noEntry_trap (by rw [keeps]; rcases plain with rfl | rfl <;> simp)
        (by rw [keeps]; rcases plain with rfl | rfl <;> simp)]
      rfl
    · rintro rfl
      rw [goes, noEntry, keeps]
      rfl
    · rintro rfl
      rw [goes, noEntry, keeps]
      rfl

end

/-! ## The entry of a block (R228, R232) -/

/-- A prefetch moves lines alone: no hart and no memory changes. -/
def prefetches (s t : State) : Prop := t.cur = s.cur ∧ t.mem = s.mem

theorem useL1i_prefetches (s : State) (core l : Nat) : prefetches s (useL1i s core l) := by
  simp only [useL1i]
  split
  · exact ⟨rfl, rfl⟩
  · split
    · exact ⟨rfl, rfl⟩
    · split <;> exact ⟨rfl, rfl⟩

theorem askFor_prefetches (s : State) (h cl l hint td : Nat) (kind : FillKind) (code : List Nat) :
    prefetches s (askFor s h cl l hint td kind code) := by
  simp only [askFor]
  split
  · split <;> exact ⟨rfl, rfl⟩
  · exact ⟨rfl, rfl⟩

theorem prefetchLine_prefetches (s : State) (a : Word) : prefetches s (prefetchLine s a) := by
  simp only [prefetchLine]
  split
  · exact ⟨rfl, rfl⟩
  · split
    · exact ⟨rfl, rfl⟩
    · split
      · exact useL1i_prefetches ..
      · exact askFor_prefetches ..

theorem prefetchCode_prefetches (s : State) (w : Word) : prefetches s (prefetchCode s w) := by
  simp only [prefetchCode]
  split
  · exact ⟨rfl, rfl⟩
  · exact foldl_rel (fun _ => ⟨rfl, rfl⟩) (fun one two => ⟨two.1.trans one.1, two.2.trans one.2⟩)
      (fun s i => prefetchLine_prefetches s _) _ s

/-- A header with the break hint ends the open chunk, which leaves the registers and the memory. -/
theorem breakChunk_keeps (s : State) (w : Word) :
    let t := if headerBreak w then closeChunk (if s.cur.solo then leaveSolo s else s) else s
    t.cur.arch = s.cur.arch ∧ t.mem = s.mem := by
  dsimp only
  split
  · split <;> exact ⟨rfl, rfl⟩
  · exact ⟨rfl, rfl⟩

theorem enterBlock_spec (s : State) (hd : Word) : (enterBlock s hd).mem = s.mem ∧ (enterBlock s hd).cur.arch = { s.cur.arch with
    pc := s.cur.arch.pc + 8
    blk := .body ((s.cur.arch.pc.toNat + 8 + 8 * field 53 48 hd) % 2 ^ 64) (hd.extractLsb' 32 16) (hd.extractLsb' 24 8) } := by
  obtain ⟨cur, mem⟩ := prefetchCode_prefetches s hd
  obtain ⟨arch, mem2⟩ := breakChunk_keeps (prefetchCode s hd) hd
  exact ⟨mem2.trans mem, congrArg (fun a : Arch => { a with
    pc := a.pc + 8
    blk := .body ((a.pc.toNat + 8 + 8 * field 53 48 hd) % 2 ^ 64) (hd.extractLsb' 32 16) (hd.extractLsb' 24 8) }) (arch.trans (congrArg Hart.arch cur))⟩

/-- Settles O58: the conditions of the statement are those that `choose`, `boundary` and `runHart` ask in turn. -/
theorem stepRunsTheDecodedInstruction : Obligations.StepRunsTheDecodedInstruction := by
  refine ⟨fun s t running now => ⟨fun i x u => step_due running now, fun none_ => ⟨fun i x => step_pending running now none_,
    fun idle v is => ⟨fun h c r next turn head => ?_, fun h u next turn taken => ?_⟩⟩⟩, fun s hd => ?_⟩
  · subst is
    have run := step_command running now none_ idle next turn
    refine ⟨fun i known => ⟨fun first => ?_, fun begun rows => ?_⟩, fun unknown => ?_⟩
    · exact run.trans (congrArg outOf (runCommand_fresh (v := { askAll t with engTurn := h }) head known first))
    · exact run.trans (congrArg outOf (runCommand_block (v := { askAll t with engTurn := h }) head known begun rows))
    · exact run.trans (congrArg outOf (runCommand_unknown (v := { askAll t with engTurn := h }) head unknown))
  · subst is
    have run := step_hart running now none_ idle next turn
    have id : u.curId = h := taken ▸ takeTurn_curId _ h
    rw [← taken] at run
    refine ⟨fun r due => run.trans (congrArg outOf (boundary_trap due)), fun due asks free e at_ => ?_, fun due goes => ?_⟩
    · rw [at_, ← id]
      exact run.trans (boundary_interrupt due (id.symm ▸ asks) free)
    · rw [boundary_run due (id.symm ▸ goes)] at run
      refine ⟨fun low at_ => run.trans (congrArg outOf (runHart_badEntry at_)), fun stands => ?_⟩
      rw [runHart_fetch stands] at run
      refine ⟨fun w c fetched => ?_, fun w x fetched no_s no_m => ?_, fun w x fetched => ?_⟩ <;> rw [fetched] at run
      · exact run
      · exact run.trans (congrArg outOf (noEntry_trap no_s no_m x))
      · exact afterFetch_cases run
  · obtain ⟨mem, arch⟩ := enterBlock_spec s hd
    exact ⟨congrArg Arch.pc arch, mem, (congrArg Arch.g arch :), congrArg Arch.blk arch⟩

end Sys2Proof.Machine
end

