-- ==== Sys2Proof/Proofs/EngineAccesses.lean ====
section

/-! PROOFS. The accesses of the copy engine and the records of its commands (R66-R72): what reaching a line leaves as it was, the
bytes of a read and of a write, the record, and O38. -/

namespace Sys2Proof.Machine

open Sys2Proof.Safety

/-! ## What reaching a line leaves as it was -/

/-- The committed bytes of the module, and its number, are as they were. -/
structure KeepsBytes (s t : State) : Prop where
  mem : t.mem = s.mem
  dev : t.dev = s.dev

namespace KeepsBytes
variable {s t u : State}

theorem refl (s : State) : KeepsBytes s s := ⟨rfl, rfl⟩
theorem trans (one : KeepsBytes s t) (two : KeepsBytes t u) : KeepsBytes s u := ⟨two.mem.trans one.mem, two.dev.trans one.dev⟩

theorem foldl {β : Type} {f : State → β → State} (each : ∀ s x, KeepsBytes s (f s x)) (l : List β) (s : State) :
    KeepsBytes s (l.foldl f s) := foldl_rel refl trans each l s

theorem ite {c : Prop} [Decidable c] (one : KeepsBytes s t) (two : KeepsBytes s u) : KeepsBytes s (if c then t else u) := by
  split <;> assumption

theorem modCoh (s : State) (l : Nat) (f : LineCoh → LineCoh) : KeepsBytes s (modCoh s l f) := ⟨rfl, rfl⟩
theorem modCore (s : State) (c : Nat) (f : Core → Core) : KeepsBytes s (modCore s c f) := ⟨rfl, rfl⟩
theorem modCluster (s : State) (c : Nat) (f : Cluster → Cluster) : KeepsBytes s (modCluster s c f) := ⟨rfl, rfl⟩
theorem modDie (s : State) (d : Nat) (f : Die → Die) : KeepsBytes s (modDie s d f) := ⟨rfl, rfl⟩

theorem poison (s : State) (l : List Nat) : KeepsBytes s { s with poison := l } := ⟨rfl, rfl⟩

theorem setHart (s : State) (h : Nat) (x : Hart) : KeepsBytes s (setHart s h x) := by
  unfold Machine.setHart
  split <;> exact ⟨rfl, rfl⟩

theorem modHart (s : State) (h : Nat) (f : Hart → Hart) : KeepsBytes s (modHart s h f) := setHart s h _

theorem dropL1d (s : State) (l core : Nat) : KeepsBytes s (dropL1d s l core) := (modCore s core _).trans (modCoh _ l _)
theorem dropL1i (s : State) (l core : Nat) : KeepsBytes s (dropL1i s l core) := (modCore s core _).trans (modCoh _ l _)

theorem dropL1s (s : State) (l cl : Nat) : KeepsBytes s (dropL1s s l cl) :=
  foldl (fun s core => (dropL1d s l core).trans (dropL1i _ l core)) _ s

theorem agentLoses (s : State) (l k : Nat) : KeepsBytes s (agentLoses s l k) := by
  simp only [Machine.agentLoses]
  split
  · exact ((dropL1s s l (k - 512)).trans (modCluster _ _ _)).trans (modCoh _ l _)
  · exact (modDie s _ _).trans (modCoh _ l _)

theorem toM (s : State) (cl l : Nat) : KeepsBytes s (toM s cl l) := by
  simp only [Machine.toM]
  exact (ite (refl s) (agentLoses s l _)).trans (modCoh _ l _)

theorem dropOthers (s : State) (cl l : Nat) : KeepsBytes s (dropOthers s cl l) :=
  foldl (fun s k => ite (refl s) (agentLoses s l (clKey k))) _ s

theorem dropSpec (s : State) (core : Nat) (ls : List Nat) : KeepsBytes s (dropSpec s core ls) :=
  foldl (fun s l => ite (refl s) (dropL1d s l core)) ls s

theorem rewind (s : State) (h j : Nat) (save : Arch) (chunk : Chunk) : KeepsBytes s (rewind s h j save chunk) := by
  unfold Machine.rewind
  have back := setHart s h { getHart s h with
    arch := save, inflight := (getHart s h).inflight.take j, chunk := chunk, due := none, walked := [], got := [], sfu := none
    begun := false, stall := if (getHart s h).slot = .issuing then none else (getHart s h).stall }
  refine .trans ?_ (dropSpec _ _ _)
  refine .trans ?_ (modCluster _ _ _)
  exact ite ⟨back.mem, back.dev⟩ back

theorem squashFrom (s : State) (h j : Nat) (counts : Bool) : KeepsBytes s (squashFrom s h j counts) := by
  simp only [Machine.squashFrom]
  split
  · exact refl s
  · exact ((rewind s h j _ _).trans (ite (refl _) (modHart _ h _))).trans (modHart _ h _)

theorem squashIn (s : State) (scope : Nat → Bool) (f : Nat → Chunk → Bool) : KeepsBytes s (squashIn s scope f) := by
  refine foldl (fun s h => ?_) _ s
  split
  · split
    · exact squashFrom s h _ true
    · exact refl s
  · exact refl s

theorem snoop (s : State) (but : Option Nat) (own : Bool) (l : Nat) : KeepsBytes s (snoop s but own l) := squashIn s _ _

end KeepsBytes

section
variable {s t u : State}

theorem meet_keeps {g : Agent} {own : Bool} {l : Nat} {k : State → State} (each : ∀ s, KeepsBytes s (k s))
    (got : meet s g own l k = (t, .val ())) : KeepsBytes s t := by
  rw [meet] at got
  split at got
  · cases got
  · obtain ⟨rfl, -⟩ := Prod.mk.inj got
    exact (KeepsBytes.snoop s _ own l).trans (each _)

theorem fetchLine_val {g : Agent} {use : Use} {l : Nat} : fetchLine s g use l ≠ (t, .val ()) := by
  intro got
  have ends : (fetchLine s g use l).2 ≠ .val () := by
    simp only [fetchLine]
    split_ifs <;> exact nofun
  exact ends (congrArg Prod.snd got)

theorem viaCluster_keeps {g : Agent} {use : Use} {l : Nat} (got : viaCluster s g use l = (t, .val ())) : KeepsBytes s t := by
  simp only [viaCluster] at got
  split at got
  · exact meet_keeps (fun s => .ite (KeepsBytes.toM s _ _) (.refl s)) got
  · exact absurd got fetchLine_val

theorem homeLost_ne {a : Word} : homeLost a ≠ .val () := by rw [homeLost]; exact nofun

theorem reachPeerBy_keeps {g : Agent} {whole : State → Use → State × Res Unit} {use : Use} {l : Nat} {mask : LineMask} {a : Word}
    (all : whole s use = (t, .val ()) → KeepsBytes s t) (got : reachPeerBy s g whole use l mask a = (t, .val ())) :
    KeepsBytes s t := by
  have lost : (s, homeLost a) ≠ (t, .val ()) := fun e => homeLost_ne (Prod.mk.inj e).2
  have met {own : Bool} : meet s g own l id = (t, .val ()) → KeepsBytes s t := meet_keeps fun s => .refl s
  have posted : meet s g true l (fun s => dropOthers s g.cl l) = (t, .val ()) → KeepsBytes s t :=
    meet_keeps fun s => KeepsBytes.dropOthers s _ _
  -- every branch of a use ends in one of these ways
  have fetched : fetchLine s g use l = (t, .val ()) → KeepsBytes s t := fun e => absurd e fetchLine_val
  cases use <;> simp only [reachPeerBy] at got <;> split_ifs at got <;> solve_by_elim

theorem engineReach_keeps {h : Nat} {c : FifoCmd} {own : Bool} {x : Acc} {mask : LineMask} {a : Word}
    (got : engineReach s h c own x mask a = (t, .val ())) : KeepsBytes s t := by
  simp only [engineReach] at got
  split at got
  · exact viaCluster_keeps got
  · exact reachPeerBy_keeps viaCluster_keeps got

theorem walkMore_keeps (s : State) (w : Who) (cmd : Bool) (r : AccReq) (a : Word) (va : Nat) :
    KeepsBytes s (walkMore s w cmd r a va).1 := (KeepsBytes.modHart s w.hart _).trans (KeepsBytes.modCluster _ _ _)

theorem useLeaf_keeps (s : State) (w : Who) (cmd : Bool) (r : AccReq) (a : Word) (va : Nat) (e : TlbEnt) :
    KeepsBytes s (useLeaf s w cmd r a va e).1 := by
  rw [useLeaf]
  split
  · split
    · exact walkMore_keeps ..
    · exact .refl s
  · exact .refl s

theorem tlbFind_keeps (s : State) (core asid va : Nat) : KeepsBytes s (tlbFind s core asid va).1 := by
  simp only [tlbFind]
  split
  · exact .refl s
  · split
    · exact KeepsBytes.modCore s core _
    · exact .refl s

theorem lookup_keeps (s : State) (w : Who) (cmd : Bool) (r : AccReq) (a : Word) (va : Nat) :
    KeepsBytes s (lookup s w cmd r a va).1 := by
  have found := tlbFind_keeps s (coreOf w.hart) w.asid va
  rw [lookup]
  split
  · exact useLeaf_keeps ..
  · exact .refl s
  · split
    · exact walkMore_keeps ..
    · split
      · next v e is => exact (is ▸ found).trans (useLeaf_keeps ..)
      · next v is => exact (is ▸ found).trans (walkMore_keeps ..)

theorem translate_keeps (s : State) (w : Who) (r : AccReq) (a : Word) : KeepsBytes s (translate s w r a).1 := by
  by_cases m : w.mode = .m
  · rw [translate, if_pos m]
    exact .refl s
  · rw [translate_below r a m]
    split_ifs
    · exact .refl s
    · exact .refl s
    · exact .refl s
    · exact lookup_keeps ..

end

/-! ## The bytes of a line (R7) -/

theorem readBytes_lt (m : Memory) (n : Nat) : ∀ a, readBytes m a n < 2 ^ (8 * n) := by
  induction n with
  | zero => exact fun _ => Nat.one_pos
  | succ n ih =>
    intro a
    have low := (readByte m a).isLt
    have high := ih (a + 1)
    rw [readBytes, show 8 * (n + 1) = 8 + 8 * n by omega, Nat.pow_add]
    omega

theorem readBytes_add (m : Memory) (n k : Nat) : ∀ a, readBytes m a (k + n) = readBytes m a k + 2 ^ (8 * k) * readBytes m (a + k) n := by
  induction k with
  | zero => intro a; simp [readBytes]
  | succ k ih =>
    intro a
    rw [show k + 1 + n = (k + n) + 1 by omega, readBytes, ih, readBytes, show a + 1 + k = a + (k + 1) by omega,
      show 8 * (k + 1) = 8 + 8 * k by omega, Nat.pow_add]
    ring

/-- A stretch of consecutive bytes read on its own. -/
theorem readBytes_slice (m : Memory) (a : Nat) {k n z : Nat} (inside : k + n ≤ z) :
    readBytes m a z / 2 ^ (8 * k) % 2 ^ (8 * n) = readBytes m (a + k) n := by
  obtain ⟨w, rfl⟩ := Nat.exists_eq_add_of_le inside
  rw [Nat.add_assoc, readBytes_add, readBytes_add, Nat.add_mul_div_left _ _ (by positivity),
    Nat.div_eq_of_lt (readBytes_lt m k a), Nat.zero_add, Nat.add_mul_mod_self_left, Nat.mod_eq_of_lt (readBytes_lt m n _)]

theorem readBytes_one (m : Memory) (a : Nat) : readBytes m a 1 = (readByte m a).toNat := by simp [readBytes]

theorem lineData_toNat (m : Memory) (l : Nat) : (lineData m l).toNat = readBytes m (l * 128) 128 := by
  rw [lineData, BitVec.toNat_ofNat]
  exact Nat.mod_eq_of_lt (readBytes_lt m 128 _)

theorem lineByte_lineData (m : Memory) (l : Nat) {i : Nat} (inside : i < 128) :
    lineByte (lineData m l) i = readByte m (l * 128 + i) := by
  apply BitVec.eq_of_toNat_eq
  rw [lineByte_toNat, lineData_toNat, ← readBytes_one, ← readBytes_slice m (l * 128) (n := 1) (by omega : i + 1 ≤ 128)]

/-- The bytes of a line from an address on are those of memory. -/
theorem lineData_slice (m : Memory) {pa n : Nat} (inside : pa % 128 + n ≤ 128) :
    (lineData m (pa / 128)).toNat >>> (8 * (pa % 128)) % 2 ^ (8 * n) = readBytes m pa n := by
  rw [lineData_toNat, Nat.shiftRight_eq_div_pow, readBytes_slice m _ inside, Nat.div_add_mod' pa 128]

/-- Bytes that are those of a number read as that number. -/
theorem readBytes_of_bytes {m : Memory} {v : Nat} : ∀ {n a : Nat},
    (∀ k, k < n → readByte m (a + k) = BitVec.ofNat 8 (v / 2 ^ (8 * k))) → readBytes m a n = v % 2 ^ (8 * n)
  | 0, _, _ => by simp [readBytes, Nat.mod_one]
  | n + 1, a, each => by
    have last := each n (by omega)
    rw [readBytes_add m 1 n a, readBytes_of_bytes fun k less => each k (by omega), readBytes_one, last, BitVec.toNat_ofNat,
      show 8 * (n + 1) = 8 * n + 8 by omega, Nat.pow_add, Nat.mod_mul]

section
variable {s : State}

/-- A line merged into memory changes the bytes under the mask alone. -/
theorem readByte_mergeMem (wf : Memory.wf s.mem = true) (l : Nat) (d : LineData) (m : LineMask) (b : Nat) :
    readByte (mergeMem s l d m).mem b =
      if b / 128 = l ∧ m.getLsbD (b % 128) = true then lineByte d (b % 128) else readByte s.mem b := by
  by_cases here : b / 128 = l
  · have inside : b % 128 < 128 := Nat.mod_lt _ (by norm_num)
    have at_ : b = l * 128 + b % 128 := by omega
    have line : readByte (mergeMem s l d m).mem b = lineByte (maskMerge (lineData s.mem l) d m) (b % 128) := by
      have wrote : lineData (mergeMem s l d m).mem l = maskMerge (lineData s.mem l) d m := by
        apply BitVec.eq_of_toNat_eq
        rw [lineData_toNat, mergeMem, readBytes_writeBytes 128 _ _ _ wf]
        exact Nat.mod_eq_of_lt (maskMerge (lineData s.mem l) d m).isLt
      rw [← wrote, lineByte_lineData _ _ inside, ← at_]
    rw [line, lineByte_maskMerge _ _ _ inside, lineByte_lineData _ _ inside, ← at_]
    simp only [here, true_and]
  · rw [if_neg (by tauto), mergeMem]
    exact readByte_writeBytes_other 128 _ _ _ b wf (by omega)

/-- A line's bytes from an address on, merged into memory, read as the number put there; every other byte is as it was. -/
theorem mergeMem_inLine (wf : Memory.wf s.mem = true) {pa n v : Nat} (inside : pa % 128 + n ≤ 128) :
    readBytes (mergeMem s (pa / 128) (inLine pa v) (byteMask pa n)).mem pa n = v % 2 ^ (8 * n) ∧
      ∀ b, b < pa ∨ pa + n ≤ b → readByte (mergeMem s (pa / 128) (inLine pa v) (byteMask pa n)).mem b = readByte s.mem b := by
  refine ⟨readBytes_of_bytes fun k less => ?_, fun b outside => ?_⟩
  · have low : (pa + k) % 128 = pa % 128 + k := by omega
    rw [readByte_mergeMem wf, if_pos, low, lineByte_inLine pa v (by omega) (by omega), Nat.add_sub_cancel_left]
    refine ⟨by omega, ?_⟩
    rw [byteMask_getLsbD pa n inside (by omega), decide_eq_true_eq]
    omega
  · rw [readByte_mergeMem wf, if_neg]
    rintro ⟨line, masked⟩
    rw [byteMask_getLsbD pa n inside (by omega), decide_eq_true_eq] at masked
    omega

end

/-! ## Writes and reads of the engine (R67, R69) -/

section
variable {s t : State} {h : Nat} {c : FifoCmd} {first a : Word} {n v : Nat} {bad : Bool}

theorem writeBack_mem (s : State) (l : Nat) : (writeBack s l).mem = s.mem := by
  simp only [writeBack, writeBackFor, settleOwed]
  split
  · rfl
  · split
    · rfl
    · simp only [putGranule, pageAccess]
      split <;> rfl

theorem mergeMem_congr (same : t.mem = s.mem) (l : Nat) (d : LineData) (m : LineMask) : (mergeMem t l d m).mem = (mergeMem s l d m).mem := by
  simp only [mergeMem, same]

theorem writeOwn_mem (s : State) (h l : Nat) (d : LineData) (m : LineMask) : (writeOwn s h l d m).mem = (mergeMem s l d m).mem := by
  simp only [writeOwn]
  split
  · rfl
  · split
    · exact writeBack_mem _ l
    · rfl

/-- A line that the engine writes, with its poison set or cleared and without the cluster's L1 copies. -/
def lineToPut (s : State) (h l n : Nat) (bad : Bool) : State :=
  let s := dropL1s s l (clusterOf h)
  { s with poison := if bad then setInsert s.poison l else if n = 128 then s.poison.filter (· != l) else s.poison }

theorem lineToPut_keeps (s : State) (h l n : Nat) (bad : Bool) : KeepsBytes s (lineToPut s h l n bad) :=
  (KeepsBytes.dropL1s s l (clusterOf h)).trans (.poison _ _)

theorem enginePut_here {pa : Nat} (here : lineDev (pa / 128) = s.dev) : enginePut s h pa n v bad =
    writeOwn (lineToPut s h (pa / 128) n bad) h (pa / 128) (inLine pa v) (byteMask pa n) :=
  if_neg (not_not.mpr (here.trans (lineToPut_keeps s h (pa / 128) n bad).dev.symm))

/-- What a write into a line of the module leaves in memory: the line with the bytes merged. -/
theorem enginePut_own {pa : Nat} (here : lineDev (pa / 128) = s.dev) :
    (enginePut s h pa n v bad).mem = (mergeMem s (pa / 128) (inLine pa v) (byteMask pa n)).mem := by
  rw [enginePut_here here, writeOwn_mem, mergeMem_congr (lineToPut_keeps s h (pa / 128) n bad).mem]

/-- An access of the engine that ends in a value has passed the checks of its address and reached its line. -/
theorem engineWrite_val (got : engineWrite s h c first a n v bad = (t, .val ())) : ∃ (x : Acc) (u0 u : State),
    translate s (whoCmd h c) ⟨.copyWrite, n, false, .refused⟩ a = (u0, .val x) ∧ windowOf u0 x.pa = none ∧
    inAperture a.toNat = inAperture first.toNat ∧ engineReach u0 h c true x (byteMask x.pa n) a = (u, .val ()) ∧
    t = enginePut u h x.pa n v bad := by
  rw [engineWrite] at got
  split at got
  · cases got
  · next side =>
    have side : inAperture a.toNat = inAperture first.toNat := by simpa [sameSide] using side
    split at got
    · next u0 x translated =>
      split at got
      · exact absurd (Prod.mk.inj got).2 (by rw [perm]; exact nofun)
      · next window =>
        split at got
        · next u _ reached =>
          exact ⟨x, u0, u, translated, by simpa using window, side, reached, (Prod.mk.inj got).1.symm⟩
        · next other => exact absurd got (other t ())
    all_goals cases got

theorem engineRead_val (got : engineRead s h c first a n = (t, .val v)) : ∃ (x : Acc) (u : State),
    translate s (whoCmd h c) ⟨.copyRead, n, false, .refused⟩ a = (u, .val x) ∧
    engineReach u h c false x (byteMask x.pa n) a = (t, .val ()) ∧ t.poison.contains (x.pa / 128) = false ∧
    v = (committedLine t (x.pa / 128)).toNat >>> (8 * (x.pa % 128)) % 2 ^ (8 * n) := by
  rw [engineRead] at got
  split at got
  · cases got
  · split at got
    · next u x translated =>
      split at got
      · next w _ reached =>
        split at got
        · cases got
        · next clean =>
          obtain ⟨rfl, value⟩ := Prod.mk.inj got
          exact ⟨x, u, translated, reached, by simpa using clean, (Res.val.inj value).symm⟩
      all_goals cases got
    all_goals cases got

/-- A byte of what a read gives is that byte of the line. -/
theorem slice_byte (d : LineData) (o n : Nat) {k : Nat} (less : k < n) :
    d.toNat >>> (8 * o) % 2 ^ (8 * n) / 2 ^ (8 * k) % 256 = (lineByte d (o + k)).toNat := by
  have cut : 2 ^ (8 * n) = 2 ^ (8 * k) * 2 ^ (8 * (n - k)) := by rw [← Nat.pow_add]; congr 1; omega
  have byte : (256 : Nat) ∣ 2 ^ (8 * (n - k)) := Nat.pow_dvd_pow 2 (by omega : 8 ≤ 8 * (n - k))
  rw [lineByte_toNat, Nat.shiftRight_eq_div_pow, cut, Nat.mod_mul_right_div_self, Nat.mod_mod_of_dvd _ byte,
    Nat.div_div_eq_div_mul, ← Nat.pow_add, ← Nat.mul_add]
  rfl

/-! ## A copy in one piece -/

theorem copyPiece_oneLine {src0 dst0 src dst : Word} {u : State} (apart : operandsMeet c.cmd = false)
    (span : Nat.min n (toLineEnd dst) ≤ toLineEnd src)
    (read : engineRead s h c src0 src (Nat.min n (toLineEnd dst)) = (t, .val v))
    (wrote : engineWrite t h c dst0 dst (Nat.min n (toLineEnd dst)) v false = (u, .val ())) :
    copyPiece h c src0 dst0 src dst n s = (u, .val (Nat.min n (toLineEnd dst))) := by
  have whole : Nat.min (Nat.min n (toLineEnd dst)) (toLineEnd src) = Nat.min n (toLineEnd dst) := Nat.min_eq_left span
  simp only [copyPiece, whole, read, readThen, le_refl, if_true, copiedBytes, apart, Bool.false_eq_true, if_false, wrote, countDone]

/-! ## The record of a command (R68, R70) -/

/-- The record of a tag, a status and a count. -/
def recordWord (d0 : Word) (st n : Nat) : Word := w64 (field 31 16 d0 * 2 ^ 48 + st * 2 ^ 40 + n % 2 ^ 40)

theorem recordWord_fields {d0 : Word} {st n : Nat} (count : n < 2 ^ 40) (status : st < 2 ^ 8) :
    field 63 48 (recordWord d0 st n) = field 31 16 d0 ∧ field 47 40 (recordWord d0 st n) = st ∧
      field 39 0 (recordWord d0 st n) = n := by
  have tag : field 31 16 d0 < 2 ^ 16 := Nat.mod_lt _ (by norm_num)
  simp only [recordWord, w64, field, BitVec.toNat_ofNat, Nat.shiftRight_eq_div_pow] at tag ⊢
  omega

@[simp] theorem getHart_pulse (s : State) (asid h : Nat) : getHart (pulse s asid) h = getHart s h := by
  rw [pulse]
  split <;> rfl

/-- A command whose work is confirmed leaves the FIFO with its record. -/
theorem getHart_writeRecord (wf : tabWf Hart.reset s.harts = true) {r : List FifoCmd} (head : (getHart s h).fifo.cmds = c :: r)
    (st n : Nat) : getHart (writeRecord s h st n) h = { getHart s h with
      fifo := ⟨r, (getHart s h).fifo.recs ++ [recordWord c.cmd.d0 st n]⟩, uip := (getHart s h).uip || c.cmd.d0.getLsbD 8 } := by
  simp only [writeRecord, head, getHart_pulse]
  exact (getHart_setHart wf h h _).trans (if_pos rfl)

theorem getHart_modHead (wf : tabWf Hart.reset s.harts = true) {r : List FifoCmd} (head : (getHart s h).fifo.cmds = c :: r)
    (f : FifoCmd → FifoCmd) : getHart (modHead s h f) h =
      { getHart s h with fifo := { (getHart s h).fifo with cmds := f c :: r } } := by
  rw [modHead, getHart_modHart wf, if_pos rfl, head]

theorem decide_confirmed (wf : tabWf Hart.reset s.harts = true) {r : List FifoCmd} (head : (getHart s h).fifo.cmds = c :: r)
    {st : Nat} (done : unconfirmed (modHead s h fun c => { c with fin := some (st, n) }) h = false) :
    decide_ s h st n = writeRecord (modHead s h fun c => { c with fin := some (st, n) }) h st n := by
  have cmds := congrArg (fun x : Hart => x.fifo.cmds) (getHart_modHead wf head fun c => { c with fin := some (st, n) })
  rw [decide_, confirm]
  dsimp only at cmds
  simp only [cmds, done, Bool.false_eq_true, if_false]

end

/-- Settles O38: the frame of an access, the bytes of a line, and the record. -/
theorem copyEngineRecordsAndMovesBytes : Obligations.CopyEngineRecordsAndMovesBytes := by
  refine ⟨fun s h st n c r head wf count status done => ?_, fun s t h c first a n v bad got => ?_,
    fun s t h c first a n v got => ?_, fun s t u h c src0 dst0 src dst n v => copyPiece_oneLine⟩
  · have marked := getHart_modHead wf head fun c => { c with fin := some (st, n) }
    have after_ := getHart_writeRecord (s := modHead s h fun c => { c with fin := some (st, n) }) (modHart_wf wf h _)
      (congrArg (fun x : Hart => x.fifo.cmds) marked) st n
    rw [marked, ← decide_confirmed wf head done] at after_
    rw [after_]
    exact ⟨rfl, rfl, recordWord c.cmd.d0 st n, rfl, recordWord_fields count status⟩
  · obtain ⟨x, u0, u, translated, window, side, reached, rfl⟩ := engineWrite_val got
    have one : KeepsBytes s u0 := by simpa only [translated] using translate_keeps s (whoCmd h c) ⟨.copyWrite, n, false, .refused⟩ a
    have both := one.trans (engineReach_keeps reached)
    refine ⟨x, u0, u, translated, window, side, reached, rfl, one.mem, both.mem, both.dev, fun here inside wf => ?_⟩
    rw [enginePut_own (here.trans both.dev.symm), mergeMem_congr both.mem]
    exact mergeMem_inLine wf inside
  · obtain ⟨x, u, translated, reached, clean, rfl⟩ := engineRead_val got
    have one : KeepsBytes s u := by simpa only [translated] using translate_keeps s (whoCmd h c) ⟨.copyRead, n, false, .refused⟩ a
    have both := one.trans (engineReach_keeps reached)
    refine ⟨x, u, translated, reached, both.mem, clean, fun k less _ => slice_byte _ _ n less, fun here inside => ?_⟩
    rw [committedLine, if_pos (here.trans both.dev.symm), both.mem, lineData_slice s.mem inside]

end Sys2Proof.Machine
end

