-- ==== Sys2Proof/Proofs/ParityErrors.lean ====
section

/-! PROOFS. A parity error whose way is retired at once (R51, R79, R401), and the refutation of O51. -/

namespace Sys2Proof.Machine

open Sys2Proof.Safety

/-- Set 0 of a cluster cache with all its ways taken: line 0 in the least recently used one. -/
def fullSet : List Way := (List.range 16).reverse.map fun k => ⟨4096 * k, none, 0⟩

/-- Way 0 of cluster 0 has met 15 corrected errors, and its set holds a dirty copy of line 0 of a non-coherent range (R135); now
line 0 has a parity error there, and an uncorrectable error in memory. -/
def crowded : State := { State.reset with
  memLock := true
  arg := { err := some (.parity 0 512 0 true) }
  clusters := [(0, { Cluster.reset with
    ncl2 := [⟨0, 0, 1⟩], wayErrs := [(0, List.replicate 15 0)], l2 := [(0, fullSet)] })] }

/-- The granule of line 0 is marked after a step. -/
def marks (o : Out) : Bool := match o with | .next t => t.badGran.contains 0 | _ => false

/-- The sixteenth error retires the way, the set gives up line 0, and the write-back of its dirty byte stores the granule of line
0 anew, without the mark of the uncorrectable error. -/
theorem crowded_unmarked : marks (exec .hardwareError crowded) = false := by decide +kernel

/-- Refutes O51: line 0 of the module, whose granule the error marks, is not marked after the step. -/
theorem not_errorsAndTemperaturesAct : ¬ Obligations.ErrorsAndTemperaturesAct := by
  intro h
  obtain ⟨-, parity, -⟩ := h crowded
  obtain ⟨t, run, -, marked, -⟩ := parity 0 512 0 true rfl
  have mem : 0 ∈ t.badGran := marked rfl rfl
  have unmarked := crowded_unmarked
  rw [run, marks, List.contains_iff_mem.mpr mem] at unmarked
  cases unmarked

end Sys2Proof.Machine
end

