-- ==== Sys2Proof/Proofs/PostedWrites.lean ====
section

/-! PROOFS. The end of a posted write at a home whose table of stacks lists one stack twice (R92, R110), and the refutation of O46. -/

namespace Sys2Proof.Machine

open Sys2Proof.Safety

/-! ## Every message that is sent leaves a trace -/

theorem insertEvent_ne_nil (t : Nat) (i : Due) (l : List (Nat × Due)) : insertEvent t i l ≠ [] := by
  cases l with
  | nil => exact List.cons_ne_nil _ _
  | cons => rw [insertEvent]; split <;> exact List.cons_ne_nil _ _

theorem tabInsert_ne_nil {α : Type} (t : Tab α) (i : Nat) (x : α) : tabInsert t i x ≠ [] := by
  intro none
  cases t with
  | nil => cases none
  | cons => rw [tabInsert] at none; split_ifs at none

theorem tabPut_ne_nil {α : Type} [DecidableEq α] {d x : α} (new : x ≠ d) (t : Tab α) (i : Nat) : tabPut d t i x ≠ [] := by
  rw [tabPut, if_neg new]
  exact tabInsert_ne_nil t i x

/-- A message to the module itself is a step that is due; one to another module is kept with its pair until it has been
acknowledged, or until it may go. -/
theorem send_leaves (s : State) (m : Msg) : (send s m).events ≠ [] ∨ (send s m).pairs ≠ [] := by
  rw [send]
  split
  · exact .inl (insertEvent_ne_nil _ _ _)
  · simp only
    split
    · exact .inr (tabPut_ne_nil (fun same => by simpa [Pair.reset] using congrArg Pair.waiting same) _ _)
    · exact .inr (tabPut_ne_nil (fun same => by simpa [Pair.reset] using congrArg Pair.unacked same) _ _)

theorem ne_send {t : State} (events : t.events = []) (pairs : t.pairs = []) (s : State) (m : Msg) : t ≠ send s m := by
  rintro rfl
  exact (send_leaves s m).elim (· events) (· pairs)

/-! ## A stack that is listed twice -/

/-- A posted write of module 1 to line 0, of no bytes and with the hint that closes the row (R84). -/
def post : Msg := { mkMsg State.reset 0 0x03 0 with src := 1, lr := true }

/-- The home of line 0 at the end of the posted write. Its table of stacks is not in canonical form: stack 0 is listed twice, with
only a row open and no hold, and behind that in a thermal hold. -/
def twiceListed : State := { State.reset with
  memLock := true
  hbms := [(0, { Hbm.reset with openRows := [(0, some (0, 0))] }), (0, { Hbm.reset with thold := true })]
  coh := [(0, { LineCoh.reset with busy := some (modTxn .pwr post) })]
  arg := { msg := some post, flag := true }
  events := [] }

theorem twiceListed_free : memHeld twiceListed 0 = false := by decide +kernel

/-- The read of the line closes the row, which leaves the first listed value the one of reset and takes it off the table. The
second one then answers for the stack: it is held, the write waits, and no message is sent. -/
theorem homeFinish_twiceListed : (homeFinish twiceListed 0).events = [] ∧ (homeFinish twiceListed 0).pairs = [] := by
  decide +kernel

/-- Refutes O46 by its clause on the end of a posted write: the line is in no hold before it, yet the home sends no
acknowledgement. The clause asks for a table of lines in canonical form, and leaves the table of stacks free. -/
theorem not_peerMessagesMoveLines : ¬ Obligations.PeerMessagesMoveLines := by
  intro h
  obtain ⟨messages, -⟩ := h
  obtain ⟨-, -, home, -⟩ := messages twiceListed twiceListed post (.inl ⟨rfl, .inl rfl, rfl⟩)
  obtain ⟨-, -, -, -, -, -, -, posted⟩ := home rfl
  obtain ⟨_, ends, -⟩ := posted (modTxn .pwr post) post rfl rfl rfl rfl (by decide) (by decide) (by decide) twiceListed_free
  obtain ⟨events, pairs⟩ := homeFinish_twiceListed
  exact ne_send events pairs _ _ ends

end Sys2Proof.Machine
end
